-- ==== Sys2Proof/Word.lean ====
section
/-! DEFINITION. The words of the machine (R4, R36, R52, R214) and the shape of its sparse tables. -/

namespace Sys2Proof

/-- A register word (R114). -/
abbrev Word := BitVec 32
/-- An instruction word, a clause header, a register pair (R52, R91). -/
abbrev DWord := BitVec 64
/-- A global address, a clause address (R36, R227). -/
abbrev VAddr := BitVec 57
/-- A physical address (R214). -/
abbrev PAddr := BitVec 52
/-- One byte. -/
abbrev Byte := BitVec 8
/-- One 128-byte line, byte 0 in bits 7:0 (R4). -/
abbrev Line := BitVec 1024
/-- A lane mask, a k register (R114). -/
abbrev Mask := BitVec 32

/-- A sparse table: keys strictly rising, no entry equal to what an unlisted key reads as. -/
abbrev SMap (β : Type) := List (Nat × β)

end Sys2Proof
end

