-- ==== Sys2Proof/Syntax.lean ====
section
/-! DEFINITION. The abstract syntax of the Isxus instructions (R58 to R71) and of the events of the
part: one constructor of `Instr` for each row of the opcode table. -/

namespace Sys2Proof

/-! ## Fields shared by the formats -/

/-- Operand kinds of R60. -/
inductive Kind | v | s | latch | imm
  deriving DecidableEq, Repr
/-- Operand widths of R60: 1, 2, 4 or 8 registers. -/
inductive Width | single | pair | quad | octet
  deriving DecidableEq, Repr
/-- An operand specifier (R60). -/
structure Src where
  kind : Kind
  width : Width
  num : BitVec 8
  deriving DecidableEq, Repr
/-- A destination specifier (R62). -/
structure Dst where
  isS : Bool
  width : Width
  num : BitVec 8
  deriving DecidableEq, Repr
/-- SP, UNI, NWB, LC and LN of R58. -/
structure Mods where
  sp : Bool
  uni : Bool
  nwb : Bool
  lc : Bool
  ln : BitVec 2
  deriving DecidableEq, Repr
/-- SP and UNI, for instructions whose NWB, LC and LN are zero (R58). -/
structure Mo where
  sp : Bool
  uni : Bool
  deriving DecidableEq, Repr
/-- The type codes of R64. -/
inductive Ty | i8 | n8 | i16 | n16 | i32 | n32 | i64 | n64 | f32 | f16 | bf16 | e4m3 | e5m2
  deriving DecidableEq, Repr
/-- The rounding codes of R64 and R98. -/
inductive Rnd | rne | rtz | up | down | away
  deriving DecidableEq, Repr
/-- The scope codes of R64. -/
inductive Scope | core | clus | die | dev | isl | sys
  deriving DecidableEq, Repr
/-- The order codes of R64. -/
inductive Order | weak | relaxed | acquire | release
  deriving DecidableEq, Repr
/-- The condition codes of R64. -/
inductive Cond | eq | ne | lt | le | gt | ge | ord | uno | equ | neo | ltu | leu | gtu | geu
  deriving DecidableEq, Repr
/-- JOP of format K (R63). -/
inductive JOp | none | and | or | xor
  deriving DecidableEq, Repr
/-- AOP of format A (R248). -/
inductive AOp | add | min | max | and | or | xor | exch | incw | decw
  deriving DecidableEq, Repr
/-- COP of CCTL (R251). -/
inductive Cop | ivc | ivcall | ivi | iviall
  deriving DecidableEq, Repr
/-- The space codes of R282. -/
inductive Space | gl | sp | cl
  deriving DecidableEq, Repr
/-- The WRED type codes of R299. -/
inductive WTy | f32 | bf16 | f16 | e4m3 | e5m2 | i32
  deriving DecidableEq, Repr
/-- TY of ACCLD and ACCST (R206). -/
inductive TTy | f32 | bf16 | f16 | e4m3 | e5m2
  deriving DecidableEq, Repr
/-- BOP 000 to 011 of BRA (R165). -/
inductive BraOp | always | any | all | none
  deriving DecidableEq, Repr
/-- SEM of FENCE (R366). -/
inductive Sem | acq | rel | both
  deriving DecidableEq, Repr
/-- MODE of BARINIT (R357). -/
inductive BarMode | arr | byte | both
  deriving DecidableEq, Repr
/-- MODE of DEPDEC (R364). -/
inductive DepMode | dec | set | add
  deriving DecidableEq, Repr

/-! ## Formats (R63) -/

/-- Format T. -/
structure FmtT where
  m : Mods
  d : Dst
  a : Src
  b : Src
  c : Src
  fn : BitVec 3
  deriving DecidableEq, Repr
/-- Format RI. -/
structure FmtRI where
  m : Mods
  d : Dst
  a : Src
  imm : BitVec 24
  fn : BitVec 3
  deriving DecidableEq, Repr
/-- Format L. -/
structure FmtL where
  m : Mods
  d : Dst
  imm : BitVec 32
  deriving DecidableEq, Repr
/-- Format K. -/
structure FmtK where
  sp : Bool
  kd : BitVec 3
  kj : BitVec 3
  jop : JOp
  a : Src
  b : Src
  cond : Cond
  ty : Ty
  fn : BitVec 3
  deriving DecidableEq, Repr
/-- Format V. -/
structure FmtV where
  m : Mods
  d : Dst
  a : Src
  dty : Ty
  sty : Ty
  rnd : Rnd
  sat : Bool
  fn : BitVec 3
  deriving DecidableEq, Repr
/-- Format M of the loads and stores (R238). -/
structure FmtM where
  m : Mo
  d : Dst
  base : Src
  off : BitVec 18
  sb : BitVec 3
  scope : Scope
  order : Order
  na : Bool
  deriving DecidableEq, Repr
/-- Format M of FPUSH and FPOP, whose SCOPE bits are the constructor (R255). -/
structure FmtF where
  m : Mo
  d : Dst
  base : Src
  sb : BitVec 3
  deriving DecidableEq, Repr
/-- Format M of CCTL (R251). -/
structure FmtCctl where
  m : Mo
  cop : Cop
  base : Src
  off : BitVec 18
  sb : BitVec 3
  deriving DecidableEq, Repr
/-- Format M of PREF (R253). -/
structure FmtPref where
  m : Mo
  x : Bool
  base : Src
  off : BitVec 18
  na : Bool
  deriving DecidableEq, Repr
/-- Format A (R247). -/
structure FmtA where
  m : Mo
  d : Dst
  base : Src
  b : Src
  aop : AOp
  scope : Scope
  order : Order
  ty : Ty
  deriving DecidableEq, Repr
/-- Format X of MMA and MMAD (R193); MMA's ADP is 0xFF. -/
structure FmtX where
  sp : Bool
  acc : BitVec 3
  z : Bool
  fba : BitVec 2
  fbb : BitVec 2
  idx : BitVec 8
  adp : BitVec 8
  abase : BitVec 7
  bbase : BitVec 7
  kch : BitVec 4
  deriving DecidableEq, Repr
/-- Format C (R63); FN is zero but for WRED, where it is the element type (R299). -/
structure FmtC where
  m : Mo
  daddr : Src
  saddr : Src
  size : BitVec 4
  dspace : Space
  sspace : Space
  bar : BitVec 7
  be : Bool
  deriving DecidableEq, Repr
/-- Format C of WRED (R299). -/
structure FmtWred where
  sp : Bool
  daddr : Src
  saddr : Src
  size : BitVec 4
  sat : Bool
  sspace : Space
  ty : WTy
  deriving DecidableEq, Repr
/-- ACCLD and ACCST (R206). -/
structure FmtAcc where
  sp : Bool
  acc : BitVec 3
  ty : TTy
  sat : Bool
  sbe : Bool
  sb : BitVec 3
  sn : BitVec 7
  pitch : BitVec 32
  deriving DecidableEq, Repr
/-- ACCMOV (R207). -/
structure FmtAccmov where
  sp : Bool
  acc : BitVec 3
  dir : Bool
  w : Width
  sb : BitVec 3
  vn : BitVec 8
  col : BitVec 6
  deriving DecidableEq, Repr
/-- ACCSCL (R208). -/
structure FmtAccscl where
  sp : Bool
  acc : BitVec 3
  ax : Bool
  sc : Bool
  bi : Bool
  sn : BitVec 7
  deriving DecidableEq, Repr
/-- BARA and BARS (R357). -/
structure FmtBara where
  sp : Bool
  bar : BitVec 7
  sc : Bool
  e : Bool
  ds : BitVec 7
  cnt : BitVec 12
  deriving DecidableEq, Repr
/-- BARINIT (R357). -/
structure FmtBarinit where
  sp : Bool
  bar : BitVec 7
  mode : BarMode
  sc : Bool
  sn : BitVec 7
  cnt : BitVec 12
  deriving DecidableEq, Repr
/-- WCNT (R363). -/
structure FmtWcnt where
  sp : Bool
  ds : BitVec 7
  rem : Bool
  w : Bool
  aq : Bool
  sn : BitVec 7
  deriving DecidableEq, Repr
/-- The source of KMOV (R135). -/
inductive KSrc | k (ka : BitVec 3) | s (sn : BitVec 8) | imm (v : Word)
  deriving DecidableEq, Repr
/-- LZOPEN (R290, R291). -/
structure FmtLzopen where
  sp : Bool
  dp : BitVec 6
  bar : BitVec 7
  be : Bool
  gran : BitVec 16
  kib : BitVec 6
  slots : BitVec 8
  deriving DecidableEq, Repr

/-! ## Messages between dies, packages, ports and barriers -/

/-- What a token-carrying message carries (R371). -/
structure TokPay where
  count : Nat
  crown : Bool
  serial : BitVec 4
  data : Option Line
  dirty : Bool
  deriving DecidableEq, Repr
/-- Names a landing-zone slot at its core (R289). -/
structure SlotRef where
  pkg : BitVec 18
  die : Nat
  core : Nat
  zone : Nat
  zgen : Byte
  slot : Nat
  sgen : Byte
  deriving DecidableEq, Repr
/-- Names a window access (R298). -/
structure WinRef where
  pkg : BitVec 18
  win : BitVec 16
  off : BitVec 64
  deriving DecidableEq, Repr
/-- One event of R355 at a barrier's home; `slot` is the completion of a slot (R295), an arrival of 1. -/
inductive BarEv
  | init (mode : BarMode) (expa : Nat) (expb : Word) (scope : Bool)
  | arrive (n : Nat) (err : Bool)
  | slot (err : Bool)
  | withdraw (n : Nat)
  | bytes (n : Nat)
  deriving DecidableEq, Repr
/-- Where at a die a request is answered (R373): its home controller, its slice, or both. -/
inductive Role | home | slice | both
  deriving DecidableEq, Repr
/-- The contents of a message (R371, R289 to R302, R355). A `req` names the initiator's request. `err` is the error
response of a line (R216, R394; log 31); `tlbi` and the kinds from `migOrder` on are the model's form of what packages
of an island tell each other for an invalidation (R327; log 46) and for a page migration (R231; log 30). -/
inductive Msg
  | gets (line : Nat) (role : Role)
  | getx (line : Nat) (role : Role)
  | tok (line : Nat) (p : TokPay)
  | putt (line : Nat) (p : TokPay)
  | preq (line : Nat) (write : Bool) (slice : Nat)
  | pact (line : Nat) (reqDie reqSlice : Nat) (write : Bool) (seq turn : BitVec 16)
  | pdone (line : Nat) (seq : BitVec 16)
  | pdeact (line : Nat) (seq : BitVec 16)
  | loss (link : Nat)
  | recall (line : Nat) (serial : BitVec 4)
  | rack (line : Nat) (p : TokPay)
  | down (die : Nat)
  | up (die : Nat) (inc : Byte)
  | lzReq (req : Nat) (slot : SlotRef) (length : Nat) (part : BitVec 16) (src : BitVec 18)
  | lzRep (req : Nat) (grant : Word)
  | lzPacket (req : Nat) (slot : SlotRef) (off : Nat) (data : List Byte) (src : BitVec 18)
  | lzAck (req : Nat) (ok : Bool)
  | lzAbort (req : Nat) (slot : SlotRef) (cause : Nat) (src : BitVec 18)
  | lzAbortAck (req : Nat)
  | lzCancel (req : Nat) (slot : SlotRef) (src : BitVec 18)
  | lzCancelAck (req : Nat)
  | winPut (req : Nat) (w : WinRef) (part : BitVec 16) (src : BitVec 18)
      (pieces : List (Nat × List Byte))
  | winGet (req : Nat) (w : WinRef) (part : BitVec 16) (src : BitVec 18) (pieces : List (Nat × Nat))
  | winRed (req : Nat) (w : WinRef) (part : BitVec 16) (src : BitVec 18) (ty : WTy) (sat : Bool)
      (elems : List (Nat × BitVec 48))
  | winMc (group : Nat) (member : Nat) (w : WinRef) (part : BitVec 16) (src : BitVec 18)
      (lines index : Nat) (data : List Byte)
  | winMcAns (group : Nat) (member : Nat) (ok : Bool)
  | winAck (req : Nat) (ok : Bool) (data : List Byte)
  | mcSet (req : Nat) (group count len : Nat) (members : List (Nat × BitVec 18 × BitVec 16))
      (off : BitVec 64)
  | mcLine (req : Nat) (index : Nat) (data : List Byte)
  | mcClose (req : Nat)
  | mcAck (req : Nat) (bits : BitVec 512)
  | assignAck (status : Nat)
  | err (line : Nat) (code : Nat)
  | tlbi (id : Nat) (part : BitVec 16) (va : Option Nat) (moved : Option (Nat × Nat))
  | tlbiAck (id : Nat)
  | migOrder (part : BitVec 16) (va leaf page new : Nat)
  | migPage (new : Nat) (lines : List (Line × BitVec 4 × Bool))
  | migPageAck (new : Nat)
  | migReqs (page : Nat) (reqs : List (Nat × Nat × Bool × Nat))
  | migDone (page status : Nat)
  | bar (team bar : Nat) (ev : BarEv) (group : Option Nat) (ds : Option Nat) (rel : Option Nat)
  deriving DecidableEq, Repr
/-- Where a message goes: an island die, a package, or the pool node that homes an extent. -/
inductive Dest | die (d : Nat) | pkg (p : BitVec 18) | node (n : BitVec 18)
  deriving DecidableEq, Repr
/-- A message with the header of R371: sender, sender's incarnation, age so far; `outer`, that it has come in through a
port (R402). -/
structure Flight where
  msg : Msg
  src : Nat
  inc : Byte
  dest : Dest
  aged : Nat
  since : Nat
  outer : Bool
  deriving DecidableEq, Repr
/-- A frame as the receiver sees it (R403): whether its tag verifies, and the messages it completes. -/
structure Frame where
  seq : BitVec 64
  tagOk : Bool
  msgs : List Flight
  deriving DecidableEq, Repr
/-- An assignment message (R408). `sigOk` is what the verification of its bytes gives. -/
structure Assign where
  pkgid : BitVec 18
  islpos : Nat
  islsize : Nat
  modes : List (Nat × Bool)
  direct : List (Nat × List (BitVec 18))
  onward : List (Nat × List (BitVec 18))
  bytes : List Byte
  deriving DecidableEq, Repr
/-- A grant message of a pool node (R409). -/
structure Grant where
  extno : BitVec 12
  part : BitVec 16
  participating : Bool
  homedie : Nat
  pages : Nat
  node : BitVec 18
  cntext : BitVec 16
  deriving DecidableEq, Repr
/-- What an end sends in a key exchange (R406): its ephemeral public key, its certificate with its serial number, and
its signature. -/
structure KeyMsg where
  pub : List Byte
  cert : List Byte
  certSerial : Nat
  sig : List Byte
  deriving DecidableEq, Repr
/-- The answer of the host to an ATS request (R227). -/
inductive AtsAnswer | refused | translated (addr : BitVec 48)
  deriving DecidableEq, Repr

/-! ## Instructions and events -/

/-- One constructor per row of the opcode table: the 171 instructions, then the 121 events. An event
that names one message, core, group or other thing takes its number from `State.pick` (log 3). -/
inductive Instr
  -- integer, logic, move, conversion
  | nop (sp : Bool)
  | iadd (f : FmtT)
  | isub (f : FmtT)
  | iaddi (f : FmtRI)
  | imul (f : FmtT)
  | imulh (f : FmtT)
  | imad (f : FmtT)
  | imadw (f : FmtT)
  | idiv (f : FmtT)
  | irem (f : FmtT)
  | imin (f : FmtT)
  | imax (f : FmtT)
  | iabs (f : FmtT)
  | ineg (f : FmtT)
  | isad (f : FmtT)
  | iadd3 (f : FmtT)
  | lea (f : FmtT)
  | and (f : FmtT)
  | or (f : FmtT)
  | xor (f : FmtT)
  | andn (f : FmtT)
  | not (f : FmtT)
  | shl (f : FmtT)
  | shr (f : FmtT)
  | sar (f : FmtT)
  | rol (f : FmtT)
  | fshl (f : FmtT)
  | fshr (f : FmtT)
  | bfx (f : FmtT)
  | bfi (f : FmtT)
  | popc (f : FmtT)
  | clz (f : FmtT)
  | ctz (f : FmtT)
  | brev (f : FmtT)
  | bytp (f : FmtT)
  | icmp (f : FmtK)
  | isel (f : FmtT)
  | iclamp (f : FmtT)
  | mov (f : FmtT)
  | movi (f : FmtL)
  | movih (f : FmtL)
  | movs (m : Mods) (d : Dst) (sel : BitVec 5)
  | movk (sp nwb : Bool) (d : Dst) (ka : BitVec 3)
  | kmov (sp : Bool) (kd : BitVec 3) (a : KSrc)
  | kop (sp : Bool) (kd ka kb : BitVec 3) (tt : BitVec 4)
  | kpopc (sp nwb : Bool) (d : Dst) (ka : BitVec 3)
  | kfind (sp nwb : Bool) (d : Dst) (hi : Bool) (ka : BitVec 3)
  | cvt (f : FmtV)
  | pack (f : FmtT)
  | spread (f : FmtT)
  -- floating point, special functions
  | fadd (f : FmtT)
  | fsub (f : FmtT)
  | fmul (f : FmtT)
  | ffma (f : FmtT)
  | fmin (f : FmtT)
  | fmax (f : FmtT)
  | fsgn (f : FmtT)
  | fcmp (f : FmtK)
  | fclass (f : FmtT)
  | frnd (f : FmtT)
  | hadd2 (f : FmtT)
  | hmul2 (f : FmtT)
  | hfma2 (f : FmtT)
  | hmin2 (f : FmtT)
  | hmax2 (f : FmtT)
  | dot4 (f : FmtT)
  | dot2 (f : FmtT)
  | idot4 (f : FmtT)
  | rcp (f : FmtT)
  | rsq (f : FmtT)
  | sqrt (f : FmtT)
  | exp2 (f : FmtT)
  | log2 (f : FmtT)
  | sinr (f : FmtT)
  | cosr (f : FmtT)
  | tanh (f : FmtT)
  | fdiv (f : FmtT)
  -- exchange through time
  | xshf (f : FmtT)
  | xrot (f : FmtT)
  | xbfly (f : FmtT)
  | xbcst (f : FmtT)
  | xscan (f : FmtT)
  | xred (f : FmtT)
  | xset (sp : Bool) (xd : BitVec 3) (mem : Bool) (sn : BitVec 8)
  | xperm (f : FmtT)
  | xgen (sp : Bool) (xd : BitVec 3) (a : BitVec 8)
  | xmatch (f : FmtT)
  | vote (f : FmtT)
  -- control
  | bra (sp : Bool) (op : BraOp) (ks : BitVec 3) (tgt : BitVec 20)
  | braSplit (sp : Bool) (ks : BitVec 3) (tgt rcv : BitVec 20)
  | switch (sp : Bool) (n : BitVec 3) (a : Src) (dflt rcv : BitVec 16)
  | call (sp : Bool) (tgt rcv : BitVec 20)
  | ret (sp : Bool) (a : Src)
  | jmpi (sp : Bool) (a : Src)
  | recon (sp : Bool) (rcv : BitVec 20)
  | exit (sp : Bool)
  | yield (sp : Bool) (cnt : BitVec 6)
  | trap (sp : Bool) (code : Word)
  | svc (sp : Bool) (sd : BitVec 7) (va : BitVec 8) (no : Word)
  | bkpt (sp : Bool) (code : Word)
  | sleep (sp : Bool) (c : Word)
  -- memory
  | ld (f : FmtM)
  | ldsb (f : FmtM)
  | ldzb (f : FmtM)
  | ldsh (f : FmtM)
  | ldzh (f : FmtM)
  | st (f : FmtM)
  | stb (f : FmtM)
  | sth (f : FmtM)
  | ldl (f : FmtM)
  | stl (f : FmtM)
  | ldc (f : FmtM)
  | stc (f : FmtM)
  | atom (f : FmtA)
  | atoml (f : FmtA)
  | cas (f : FmtA)
  | casl (f : FmtA)
  | red (f : FmtA)
  | fence (sp : Bool) (sem : Sem) (scope : Scope)
  | cctl (f : FmtCctl)
  | pref (f : FmtPref)
  | fpush (f : FmtF)
  | fpushOn (f : FmtF)
  | fpop (f : FmtF)
  | fpopOff (f : FmtF)
  | fpopCount (f : FmtF)
  -- copies, landing zones, windows, TASK
  | cpy (f : FmtC)
  | cpyt (sp : Bool) (bar : BitVec 7) (be dc : Bool) (sn : BitVec 7)
  | cpycl (sp : Bool) (ds : BitVec 7) (scope : Scope)
  | waitb (sp : Bool) (ds : BitVec 7) (all : Bool) (sn : BitVec 7)
  | lzopen (f : FmtLzopen)
  | lzclose (sp : Bool) (hp : BitVec 6)
  | lzrsv (sp : Bool) (ds : BitVec 7) (sb : BitVec 3) (hp : BitVec 6) (len : Word)
  | lzsend (f : FmtC)
  | lzfree (sp : Bool) (hp : BitVec 6) (slot : BitVec 8)
  | lzstat (sp : Bool) (ds : BitVec 7) (sb : BitVec 3) (w : Bool) (hp : BitVec 6) (slot : BitVec 8)
  | lzcancel (sp : Bool) (gs : BitVec 7) (sb : BitVec 3) (hp : BitVec 6)
  | wput (f : FmtC)
  | wget (f : FmtC)
  | wred (f : FmtWred)
  | wmcast (f : FmtC)
  | wcnt (f : FmtWcnt)
  | depdec (sp : Bool) (mode : DepMode) (c : BitVec 12) (cnt : BitVec 16)
  | task (sp : Bool) (ds : BitVec 7) (sb : BitVec 3) (sn : BitVec 7) (q : BitVec 14)
  -- barriers, gangs
  | bara (f : FmtBara)
  | barw (sp : Bool) (bar : BitVec 7) (sc : Bool) (sn : BitVec 7)
  | bars (f : FmtBara)
  | barinit (f : FmtBarinit)
  | barx (sp : Bool) (bar : BitVec 7) (sc : Bool) (cnt : BitVec 12)
  | barq (sp : Bool) (bar : BitVec 7) (sc : Bool) (ds : BitVec 7)
  | gang (sp : Bool) (sn : BitVec 7)
  | gangOff (sp : Bool)
  -- matrix
  | mma (f : FmtX)
  | mmad (f : FmtX)
  | mmup (sp : Bool) (acc : BitVec 3) (bbase : BitVec 7)
  | fbset (sp : Bool) (fr : BitVec 2) (sn : BitVec 7)
  | adset (sp : Bool) (sn : BitVec 7)
  | accld (f : FmtAcc)
  | accst (f : FmtAcc)
  | accz (sp : Bool) (acc : BitVec 3)
  | accmov (f : FmtAccmov)
  | accwait (sp : Bool) (acc : BitVec 3) (all : Bool) (sb : BitVec 3)
  | adinv (sp : Bool) (all : Bool) (id : BitVec 16)
  | accscl (f : FmtAccscl)
  -- system
  | rdsr (sp : Bool) (d : Dst) (sr : BitVec 12)
  | wrsr (sp : Bool) (a : Src) (sr : BitVec 12)
  | cyc (sp : Bool) (d : Dst)
  | snap (sp : Bool) (tag : Word)
  | eret (sp : Bool)
  | tlbiPage (sp : Bool) (isl : Bool) (sb : BitVec 3) (sa : BitVec 7)
  | tlbiPart (sp : Bool) (isl : Bool) (sb : BitVec 3)
  -- events that carry what arrives, or name more than one thing
  | reset (v : Word)
  | configRequest (fn off : Nat)
  | umcmdCommit (v : Word)
  | registerWrite (off : Nat) (wide : Bool) (v : DWord)
  | bar0UnsupportedAccess (bar : Nat) (off size : Nat) (write : Bool)
  | doorbell (q : Nat) (t : DWord)
  | replayDoorbell (v : Word)
  | cancelDoorbell (v : Word)
  | resumeDoorbell (v : DWord)
  | migrationForwardExpiry (die idx : Nat)
  | depctrHostWrite (c : Nat) (v : BitVec 16)
  | alertClear (die : Nat) (v : Word)
  | sntrig (v : Word)
  | atsInvalidation (pasid : Nat) (addr : Nat) (len : Nat)
  | getCapabilities (ver : Nat)
  | negotiateAlgorithms (algs : Nat)
  | getCertificate (slot off len : Nat)
  | challenge (slot : Nat) (nonce : BitVec 256)
  | getMeasurements (index : Nat) (nonce : BitVec 256)
  | temperatureSample (core : Nat) (t : BitVec 16)
  | hbmTemperatureSample (stack sensor : Nat) (t : BitVec 16)
  | processMonitorSample (die mon : Nat) (v : Word)
  | powerTick (watts : Nat)
  | patrolScrub (die line : Nat)
  | sleepExpiry (group entry : Nat)
  | yieldExpiry (group entry : Nat)
  | forwardingExpiry (core idx : Nat)
  | memoryAccessPerform (group rec lane : Nat)
  | writeThroughDrain (core idx : Nat)
  | walkComplete (die idx : Nat)
  | atsResponse (idx : Nat) (a : AtsAnswer)
  | fifoRecordPerform (core bank : Nat)
  | extentGrant (g : Grant)
  | copyOperationPerform (core idx : Nat)
  | lzCloseExpiry (core slot : Nat)
  | frameReceive (port : Nat) (f : Frame)
  | frameAcknowledgement (port : Nat) (seq : BitVec 64)
  | retryRequest (port : Nat) (seq : BitVec 64)
  | keyExchange (port : Nat) (k : KeyMsg)
  | rekey (port : Nat) (k : KeyMsg) (at_ : BitVec 64)
  | assignment (port : Nat) (a : Assign)
  | transientReissue (die line : Nat)
  | transientAbandon (die line : Nat)
  | recountOpen (die line : Nat)
  | recallResend (die line : Nat)
  | recallFilterExpiry (die idx : Nat)
  | adapterSliceArrival (core idx : Nat)
  -- events that name one thing, by the schedule's choice (log 3), or nothing
  | powerOnReset
  | conventionalReset
  | bootStep
  | abort
  | releasePartition
  | preEmpt
  | migrate
  | resume
  | pageMigration
  | repartition
  | windowInvalidate
  | getVersion
  | getDigests
  | droopEvent
  | avoidedExpiry
  | dispatchTake
  | collectiveSelect
  | placeCluster
  | drainingMark
  | carveOutApply
  | clauseChoice
  | clauseFetch
  | faultRecordWrite
  | preemptForce
  | groupSave
  | groupRestore
  | teamMigration
  | teamEnd
  | gridEnd
  | serviceRequestWrite
  | flushReadCompletion
  | revokeNotice
  | revokedConfirmation
  | coalesce
  | lzrsvRequest
  | lzrsvReply
  | lzPacketArrival
  | lzAcknowledgement
  | lzAbort
  | lzAbortRetry
  | lzCancelArrival
  | lzCancelAck
  | requestTimeout
  | windowPacketIngress
  | windowAcknowledgement
  | multicastAck
  | messageAgeExpiry
  | egressWaitRelease
  | linkAckTimeout
  | portRestart
  | lanesTrained
  | portTimeout
  | dieLinkFailure
  | gets
  | getx
  | tok
  | putt
  | preq
  | pact
  | pdone
  | pdeact
  | persistentTimeout
  | loss
  | recall
  | rack
  | down
  | up
  | upHoldoffExpiry
  | rendezvousIssue
  | matrixRecordHead
  | matrixChunk
  | barrierArrivalMessage
  | tlbiCompletion
  | dieRejoin
  deriving DecidableEq, Repr

/-- The prefix word (R67), of which OP4 is always zero (R68). -/
structure Pfx where
  gm : BitVec 3
  mz : Bool
  rm : Rnd
  sat : Bool
  ftz : Bool
  daz : Bool
  deriving DecidableEq, Repr

/-- A case word of a SWITCH (R66). -/
structure CaseWord where
  value : Word
  target : BitVec 20
  deriving DecidableEq, Repr

end Sys2Proof
end

