-- ==== Sys2Proof/Decode.lean ====
section
/-! DEFINITION. The decoder of an instruction word (R58 to R72) and, after it, the encoder, both
written from the field tables of the chapters. Decoding is total and rejects by name. -/

namespace Sys2Proof

/-! ## Fields -/

/-- Bits lo + n - 1 : lo of an instruction word (R4). -/
def bits (w : DWord) (lo n : Nat) : BitVec n := w.extractLsb' lo n
/-- One bit of an instruction word. -/
def bit (w : DWord) (i : Nat) : Bool := w.getLsbD i
/-- Whether a zero field is zero (R5, R63). -/
def zf (w : DWord) (lo n : Nat) : Bool := bits w lo n == 0

def Kind.bits : Kind → BitVec 2
  | .v => 0 | .s => 1 | .latch => 2 | .imm => 3
def Kind.ofBits (b : BitVec 2) : Kind :=
  if b = 0 then .v else if b = 1 then .s else if b = 2 then .latch else .imm
def Width.bits : Width → BitVec 2
  | .single => 0 | .pair => 1 | .quad => 2 | .octet => 3
def Width.ofBits (b : BitVec 2) : Width :=
  if b = 0 then .single else if b = 1 then .pair else if b = 2 then .quad else .octet
/-- R60. -/
def Src.bits (x : Src) : BitVec 12 := x.kind.bits ++ (x.width.bits ++ x.num)
def Src.ofBits (b : BitVec 12) : Src :=
  ⟨Kind.ofBits (b.extractLsb' 10 2), Width.ofBits (b.extractLsb' 8 2), b.extractLsb' 0 8⟩
/-- R62. -/
def Dst.bits (x : Dst) : BitVec 11 := BitVec.ofBool x.isS ++ (x.width.bits ++ x.num)
def Dst.ofBits (b : BitVec 11) : Dst :=
  ⟨b.getLsbD 10, Width.ofBits (b.extractLsb' 8 2), b.extractLsb' 0 8⟩
/-- Bits 55:50 (R58). -/
def Mods.bits (x : Mods) : BitVec 6 :=
  BitVec.ofBool x.sp ++ (BitVec.ofBool x.uni ++ (BitVec.ofBool x.nwb ++ (BitVec.ofBool x.lc ++ x.ln)))
def Mods.ofBits (b : BitVec 6) : Mods :=
  ⟨b.getLsbD 5, b.getLsbD 4, b.getLsbD 3, b.getLsbD 2, b.extractLsb' 0 2⟩

/-- R64, type codes. -/
def Ty.bits : Ty → BitVec 4
  | .i8 => 0 | .n8 => 1 | .i16 => 2 | .n16 => 3 | .i32 => 4 | .n32 => 5 | .i64 => 6 | .n64 => 7
  | .f32 => 8 | .f16 => 9 | .bf16 => 10 | .e4m3 => 11 | .e5m2 => 12
def Ty.ofBits (b : BitVec 4) : Option Ty :=
  match b.toNat with
  | 0 => some .i8 | 1 => some .n8 | 2 => some .i16 | 3 => some .n16 | 4 => some .i32
  | 5 => some .n32 | 6 => some .i64 | 7 => some .n64 | 8 => some .f32 | 9 => some .f16
  | 10 => some .bf16 | 11 => some .e4m3 | 12 => some .e5m2 | _ => none
/-- R64, rounding codes. -/
def Rnd.bits : Rnd → BitVec 3
  | .rne => 0 | .rtz => 1 | .up => 2 | .down => 3 | .away => 4
def Rnd.ofBits (b : BitVec 3) : Option Rnd :=
  match b.toNat with
  | 0 => some .rne | 1 => some .rtz | 2 => some .up | 3 => some .down | 4 => some .away | _ => none
/-- R64, scope codes. -/
def Scope.bits : Scope → BitVec 3
  | .core => 0 | .clus => 1 | .die => 2 | .dev => 3 | .isl => 4 | .sys => 5
def Scope.ofBits (b : BitVec 3) : Option Scope :=
  match b.toNat with
  | 0 => some .core | 1 => some .clus | 2 => some .die | 3 => some .dev | 4 => some .isl
  | 5 => some .sys | _ => none
/-- R64, order codes. -/
def Order.bits : Order → BitVec 2
  | .weak => 0 | .relaxed => 1 | .acquire => 2 | .release => 3
def Order.ofBits (b : BitVec 2) : Order :=
  if b = 0 then .weak else if b = 1 then .relaxed else if b = 2 then .acquire else .release
/-- R64, condition codes. -/
def Cond.bits : Cond → BitVec 4
  | .eq => 0 | .ne => 1 | .lt => 2 | .le => 3 | .gt => 4 | .ge => 5 | .ord => 6 | .uno => 7
  | .equ => 8 | .neo => 9 | .ltu => 10 | .leu => 11 | .gtu => 12 | .geu => 13
def Cond.ofBits (b : BitVec 4) : Option Cond :=
  match b.toNat with
  | 0 => some .eq | 1 => some .ne | 2 => some .lt | 3 => some .le | 4 => some .gt | 5 => some .ge
  | 6 => some .ord | 7 => some .uno | 8 => some .equ | 9 => some .neo | 10 => some .ltu
  | 11 => some .leu | 12 => some .gtu | 13 => some .geu | _ => none
/-- R63, JOP of format K. -/
def JOp.bits : JOp → BitVec 2
  | .none => 0 | .and => 1 | .or => 2 | .xor => 3
def JOp.ofBits (b : BitVec 2) : JOp :=
  if b = 0 then .none else if b = 1 then .and else if b = 2 then .or else .xor
/-- R248. -/
def AOp.bits : AOp → BitVec 4
  | .add => 0 | .min => 1 | .max => 2 | .and => 3 | .or => 4 | .xor => 5 | .exch => 6 | .incw => 7
  | .decw => 8
def AOp.ofBits (b : BitVec 4) : Option AOp :=
  match b.toNat with
  | 0 => some .add | 1 => some .min | 2 => some .max | 3 => some .and | 4 => some .or
  | 5 => some .xor | 6 => some .exch | 7 => some .incw | 8 => some .decw | _ => none
/-- R251. -/
def Cop.bits : Cop → BitVec 4
  | .ivc => 0 | .ivcall => 1 | .ivi => 2 | .iviall => 3
def Cop.ofBits (b : BitVec 4) : Option Cop :=
  match b.toNat with
  | 0 => some .ivc | 1 => some .ivcall | 2 => some .ivi | 3 => some .iviall | _ => none
/-- R282. -/
def Space.bits : Space → BitVec 2
  | .gl => 0 | .sp => 1 | .cl => 2
def Space.ofBits (b : BitVec 2) : Option Space :=
  match b.toNat with
  | 0 => some .gl | 1 => some .sp | 2 => some .cl | _ => none
/-- R299. -/
def WTy.bits : WTy → BitVec 3
  | .f32 => 0 | .bf16 => 1 | .f16 => 2 | .e4m3 => 3 | .e5m2 => 4 | .i32 => 5
def WTy.ofBits (b : BitVec 3) : Option WTy :=
  match b.toNat with
  | 0 => some .f32 | 1 => some .bf16 | 2 => some .f16 | 3 => some .e4m3 | 4 => some .e5m2
  | 5 => some .i32 | _ => none
/-- R206. -/
def TTy.bits : TTy → BitVec 3
  | .f32 => 0 | .bf16 => 1 | .f16 => 2 | .e4m3 => 3 | .e5m2 => 4
def TTy.ofBits (b : BitVec 3) : Option TTy :=
  match b.toNat with
  | 0 => some .f32 | 1 => some .bf16 | 2 => some .f16 | 3 => some .e4m3 | 4 => some .e5m2
  | _ => none
/-- R165. -/
def BraOp.bits : BraOp → BitVec 3
  | .always => 0 | .any => 1 | .all => 2 | .none => 3
def BraOp.ofBits (b : BitVec 3) : Option BraOp :=
  match b.toNat with
  | 0 => some .always | 1 => some .any | 2 => some .all | 3 => some .none | _ => Option.none
/-- R366. -/
def Sem.bits : Sem → BitVec 2
  | .acq => 1 | .rel => 2 | .both => 3
def Sem.ofBits (b : BitVec 2) : Option Sem :=
  match b.toNat with
  | 1 => some .acq | 2 => some .rel | 3 => some .both | _ => none
/-- R357. -/
def BarMode.bits : BarMode → BitVec 2
  | .arr => 0 | .byte => 1 | .both => 2
def BarMode.ofBits (b : BitVec 2) : Option BarMode :=
  match b.toNat with
  | 0 => some .arr | 1 => some .byte | 2 => some .both | _ => none
/-- R364. -/
def DepMode.bits : DepMode → BitVec 2
  | .dec => 0 | .set => 1 | .add => 2
def DepMode.ofBits (b : BitVec 2) : Option DepMode :=
  match b.toNat with
  | 0 => some .dec | 1 => some .set | 2 => some .add | _ => none

/-! ## The decoder -/

/-- Why a word is not an instruction. -/
inductive DecErr
  /-- An opcode of R72: the illegal-instruction fault. -/
  | unassigned
  /-- The prefix word (R67), which is no instruction. -/
  | prefixWord
  /-- A nonzero zero-field (R63), or NWB, LC or LN where they have no meaning (R58). -/
  | nonzero
  /-- A reserved code (R64 and the instructions' own tables). -/
  | reserved
  /-- A UNI value that the opcode map does not allow (R59). -/
  | uni
  deriving DecidableEq, Repr

/-- A decoded word, or its rejection. -/
abbrev Dec := Except DecErr Instr

def need (b : Bool) (e : DecErr) (r : Dec) : Dec := if b then r else .error e
def code {α : Type} (o : Option α) (k : α → Dec) : Dec :=
  match o with
  | some x => k x
  | none => .error .reserved

def getMods (w : DWord) : Mods := Mods.ofBits (bits w 50 6)
def getMo (w : DWord) : Mo := ⟨bit w 55, bit w 54⟩
def getSp (w : DWord) : Bool := bit w 55
def dstAt (w : DWord) (lo : Nat) : Dst := Dst.ofBits (bits w lo 11)
def srcAt (w : DWord) (lo : Nat) : Src := Src.ofBits (bits w lo 12)

/-- NWB, LC and LN are zero (R58). -/
def plain (w : DWord) (r : Dec) : Dec := need (zf w 50 4) .nonzero r
/-- UNI has the one value the map allows, and NWB, LC and LN are zero. -/
def fixed (w : DWord) (uni : Bool) (r : Dec) : Dec :=
  need (bit w 54 == uni) .uni (plain w r)

def decT (w : DWord) (mk : FmtT → Instr) : Dec :=
  .ok (mk ⟨getMods w, dstAt w 39, srcAt w 27, srcAt w 15, srcAt w 3, bits w 0 3⟩)
def decRI (w : DWord) (mk : FmtRI → Instr) : Dec :=
  .ok (mk ⟨getMods w, dstAt w 39, srcAt w 27, bits w 3 24, bits w 0 3⟩)
def decL (w : DWord) (mk : FmtL → Instr) : Dec :=
  need (zf w 32 7) .nonzero (.ok (mk ⟨getMods w, dstAt w 39, bits w 0 32⟩))
def decK (w : DWord) (mk : FmtK → Instr) : Dec :=
  fixed w false (need (zf w 39 3 && zf w 3 4) .nonzero
    (code (Cond.ofBits (bits w 11 4)) fun c => code (Ty.ofBits (bits w 7 4)) fun t =>
      .ok (mk ⟨getSp w, bits w 47 3, bits w 44 3, JOp.ofBits (bits w 42 2), srcAt w 27, srcAt w 15,
        c, t, bits w 0 3⟩)))
def decV (w : DWord) (mk : FmtV → Instr) : Dec :=
  need (zf w 3 12) .nonzero
    (code (Ty.ofBits (bits w 23 4)) fun d => code (Ty.ofBits (bits w 19 4)) fun s =>
      code (Rnd.ofBits (bits w 16 3)) fun r =>
        .ok (mk ⟨getMods w, dstAt w 39, srcAt w 27, d, s, r, bit w 15, bits w 0 3⟩))
def decM (w : DWord) (mk : FmtM → Instr) : Dec :=
  plain w (code (Scope.ofBits (bits w 3 3)) fun sc =>
    .ok (mk ⟨getMo w, dstAt w 39, srcAt w 27, bits w 9 18, bits w 6 3, sc, Order.ofBits (bits w 1 2),
      bit w 0⟩))
/-- FPUSH and FPOP: the offset, ORDER and NA are zero and SCOPE holds FOP (R238, R255). -/
def decF (w : DWord) (mk : FmtF → Instr) : Dec :=
  plain w (need (zf w 9 18 && zf w 0 3) .nonzero
    (.ok (mk ⟨getMo w, dstAt w 39, srcAt w 27, bits w 6 3⟩)))
def decCctl (w : DWord) : Dec :=
  plain w (need (zf w 43 7 && zf w 0 6) .nonzero
    (code (Cop.ofBits (bits w 39 4)) fun c =>
      .ok (.cctl ⟨getMo w, c, srcAt w 27, bits w 9 18, bits w 6 3⟩)))
def decPref (w : DWord) : Dec :=
  plain w (need (zf w 40 10 && zf w 1 8) .nonzero
    (.ok (.pref ⟨getMo w, bit w 39, srcAt w 27, bits w 9 18, bit w 0⟩)))
def decA (w : DWord) (mk : FmtA → Instr) : Dec :=
  plain w (need (zf w 0 2) .nonzero
    (code (AOp.ofBits (bits w 11 4)) fun op => code (Scope.ofBits (bits w 8 3)) fun sc =>
      code (Ty.ofBits (bits w 2 4)) fun t =>
        .ok (mk ⟨getMo w, dstAt w 39, srcAt w 27, srcAt w 15, op, sc, Order.ofBits (bits w 6 2), t⟩)))
def decX (w : DWord) (mk : FmtX → Instr) : Dec :=
  fixed w false (need (zf w 0 8) .nonzero
    (.ok (mk ⟨getSp w, bits w 47 3, bit w 46, bits w 44 2, bits w 42 2, bits w 34 8, bits w 26 8,
      bits w 19 7, bits w 12 7, bits w 8 4⟩)))
def decC (w : DWord) (mk : FmtC → Instr) : Dec :=
  plain w (need (zf w 0 10) .nonzero
    (code (Space.ofBits (bits w 20 2)) fun d => code (Space.ofBits (bits w 18 2)) fun s =>
      .ok (mk ⟨getMo w, srcAt w 38, srcAt w 26, bits w 22 4, d, s, bits w 11 7, bit w 10⟩)))
/-- WRED: DSPACE 00 plain, 01 saturating; FN the element type; BAR and BE zero (R299). -/
def decWred (w : DWord) : Dec :=
  fixed w false (need (zf w 21 1) .reserved (need (zf w 3 15) .nonzero
    (code (Space.ofBits (bits w 18 2)) fun s => code (WTy.ofBits (bits w 0 3)) fun t =>
      .ok (.wred ⟨getSp w, srcAt w 38, srcAt w 26, bits w 22 4, bit w 20, s, t⟩))))
def decAcc (w : DWord) (mk : FmtAcc → Instr) : Dec :=
  fixed w true (code (TTy.ofBits (bits w 44 3)) fun t =>
    .ok (mk ⟨getSp w, bits w 47 3, t, bit w 43, bit w 42, bits w 39 3, bits w 32 7, bits w 0 32⟩))
def decBara (w : DWord) (mk : FmtBara → Instr) : Dec :=
  fixed w true (need (zf w 39 2 && zf w 12 20) .nonzero
    (.ok (mk ⟨getSp w, bits w 43 7, bit w 42, bit w 41, bits w 32 7, bits w 0 12⟩)))
/-- MOVK, KPOPC and KFIND (R137): LC and LN zero. -/
def decKr (w : DWord) (hi : Bool) (mk : Dst → BitVec 3 → Instr) : Dec :=
  need (!bit w 54) .uni (need (zf w 50 3 && (hi || zf w 37 2) && zf w 35 2 && zf w 0 32) .nonzero
    (.ok (mk (dstAt w 39) (bits w 32 3))))
/-- BRA (R165). -/
def decBra (w : DWord) : Dec :=
  fixed w false (need (zf w 40 4) .nonzero
    (if bits w 44 3 = 4 then .ok (.braSplit (getSp w) (bits w 47 3) (bits w 20 20) (bits w 0 20))
     else code (BraOp.ofBits (bits w 44 3)) fun op =>
       need (zf w 0 20 && (!(op == .always) || zf w 47 3)) .nonzero
         (.ok (.bra (getSp w) op (bits w 47 3) (bits w 20 20)))))
/-- KMOV (R135). -/
def decKmov (w : DWord) : Dec :=
  fixed w false (need (zf w 43 2) .nonzero
    (let k : Dec := need (zf w 32 8 && zf w 0 32) .nonzero
       (.ok (.kmov (getSp w) (bits w 47 3) (.k (bits w 40 3))))
     let s : Dec := need (zf w 40 3 && zf w 0 32) .nonzero
       (.ok (.kmov (getSp w) (bits w 47 3) (.s (bits w 32 8))))
     let i : Dec := need (zf w 40 3 && zf w 32 8) .nonzero
       (.ok (.kmov (getSp w) (bits w 47 3) (.imm (bits w 0 32))))
     if bits w 45 2 = 0 then k else if bits w 45 2 = 1 then s else if bits w 45 2 = 2 then i
     else .error .reserved))
/-- TLBI (R324). -/
def decTlbi (w : DWord) : Dec :=
  fixed w true (need (zf w 39 5 && zf w 0 32) .nonzero
    (if bits w 48 2 = 0 then
      .ok (.tlbiPage (getSp w) (bit w 47) (bits w 44 3) (bits w 32 7))
     else if bits w 48 2 = 1 then
      need (zf w 32 7) .nonzero (.ok (.tlbiPart (getSp w) (bit w 47) (bits w 44 3)))
     else .error .reserved))
/-- A format N word with UNI fixed and the given zero fields. -/
def decN (w : DWord) (uni : Bool) (zs : List (Nat × Nat)) (i : Instr) : Dec :=
  fixed w uni (need (zs.all fun z => zf w z.1 z.2) .nonzero (.ok i))

/-- The instruction of a word, by its opcode (R71). -/
def decode (w : DWord) : Dec :=
  match (bits w 56 8).toNat with
  | 0x01 => decN w false [(0, 50)] (.nop (getSp w))
  | 0x02 => .error .prefixWord
  | 0x08 => decT w .iadd
  | 0x09 => decT w .isub
  | 0x0B => decT w .imul
  | 0x0C => decT w .imulh
  | 0x0D => decT w .imad
  | 0x0E => decT w .imadw
  | 0x0F => decT w .idiv
  | 0x10 => decT w .irem
  | 0x11 => decT w .imin
  | 0x12 => decT w .imax
  | 0x13 => decT w .iabs
  | 0x14 => decT w .ineg
  | 0x15 => decT w .isad
  | 0x16 => decT w .iadd3
  | 0x17 => decT w .lea
  | 0x18 => decT w .and
  | 0x19 => decT w .or
  | 0x1A => decT w .xor
  | 0x1B => decT w .andn
  | 0x1C => decT w .not
  | 0x1D => decT w .shl
  | 0x1E => decT w .shr
  | 0x1F => decT w .sar
  | 0x20 => decT w .rol
  | 0x21 => decT w .fshl
  | 0x22 => decT w .fshr
  | 0x23 => decT w .bfx
  | 0x24 => decT w .bfi
  | 0x25 => decT w .popc
  | 0x26 => decT w .clz
  | 0x27 => decT w .ctz
  | 0x28 => decT w .brev
  | 0x29 => decT w .bytp
  | 0x2B => decT w .isel
  | 0x2C => decT w .iclamp
  | 0x2D => decT w .mov
  | 0x37 => decT w .pack
  | 0x38 => decT w .spread
  | 0x40 => decT w .fadd
  | 0x41 => decT w .fsub
  | 0x42 => decT w .fmul
  | 0x43 => decT w .ffma
  | 0x44 => decT w .fmin
  | 0x45 => decT w .fmax
  | 0x46 => decT w .fsgn
  | 0x48 => decT w .fclass
  | 0x49 => decT w .frnd
  | 0x4A => decT w .hadd2
  | 0x4B => decT w .hmul2
  | 0x4C => decT w .hfma2
  | 0x4D => decT w .hmin2
  | 0x4E => decT w .hmax2
  | 0x4F => decT w .dot4
  | 0x50 => decT w .dot2
  | 0x51 => decT w .idot4
  | 0x52 => decT w .rcp
  | 0x53 => decT w .rsq
  | 0x54 => decT w .sqrt
  | 0x55 => decT w .exp2
  | 0x56 => decT w .log2
  | 0x57 => decT w .sinr
  | 0x58 => decT w .cosr
  | 0x59 => decT w .tanh
  | 0x5A => decT w .fdiv
  | 0x60 => decT w .xshf
  | 0x61 => decT w .xrot
  | 0x62 => decT w .xbfly
  | 0x63 => decT w .xbcst
  | 0x64 => decT w .xscan
  | 0x65 => decT w .xred
  | 0x67 => decT w .xperm
  | 0x69 => decT w .xmatch
  | 0x6A => decT w .vote
  | 0x0A => decRI w .iaddi
  | 0x2A => decK w .icmp
  | 0x47 => decK w .fcmp
  | 0x2E => decL w .movi
  | 0x2F => decL w .movih
  | 0x36 => decV w .cvt
  | 0x30 => need (zf w 37 2 && zf w 0 32) .nonzero (.ok (.movs (getMods w) (dstAt w 39) (bits w 32 5)))
  | 0x31 => decKr w false fun d k => .movk (getSp w) (bit w 53) d k
  | 0x32 => decKmov w
  | 0x33 => decN w false [(0, 37)]
      (.kop (getSp w) (bits w 47 3) (bits w 44 3) (bits w 41 3) (bits w 37 4))
  | 0x34 => decKr w false fun d k => .kpopc (getSp w) (bit w 53) d k
  | 0x35 => need (!bit w 38) .reserved
      (decKr w true fun d k => .kfind (getSp w) (bit w 53) d (bit w 37) k)
  | 0x66 => decN w true [(40, 6), (0, 32)] (.xset (getSp w) (bits w 47 3) (bit w 46) (bits w 32 8))
  | 0x68 => decN w false [(40, 7), (0, 32)] (.xgen (getSp w) (bits w 47 3) (bits w 32 8))
  | 0x70 => decBra w
  | 0x71 => decN w false [(44, 3)]
      (.switch (getSp w) (bits w 47 3) (srcAt w 32) (bits w 16 16) (bits w 0 16))
  | 0x72 => decN w false [(40, 10)] (.call (getSp w) (bits w 20 20) (bits w 0 20))
  | 0x73 => decN w false [(0, 38)] (.ret (getSp w) (srcAt w 38))
  | 0x74 => decN w false [(0, 38)] (.jmpi (getSp w) (srcAt w 38))
  | 0x75 => decN w false [(20, 30)] (.recon (getSp w) (bits w 0 20))
  | 0x76 => decN w false [(0, 50)] (.exit (getSp w))
  | 0x77 => decN w false [(38, 12), (0, 32)] (.yield (getSp w) (bits w 32 6))
  | 0x78 => decN w false [(32, 18)] (.trap (getSp w) (bits w 0 32))
  | 0x79 => decN w false [(40, 3)] (.svc (getSp w) (bits w 43 7) (bits w 32 8) (bits w 0 32))
  | 0x7A => decN w false [(32, 18)] (.bkpt (getSp w) (bits w 0 32))
  | 0x7B => decN w false [(32, 18)] (.sleep (getSp w) (bits w 0 32))
  | 0x80 => decM w .ld
  | 0x81 => decM w .ldsb
  | 0x82 => decM w .ldzb
  | 0x83 => decM w .ldsh
  | 0x84 => decM w .ldzh
  | 0x85 => decM w .st
  | 0x86 => decM w .stb
  | 0x87 => decM w .sth
  | 0x88 => decM w .ldl
  | 0x89 => decM w .stl
  | 0x8A => decM w .ldc
  | 0x8B => decM w .stc
  | 0x8C => decA w .atom
  | 0x8D => decA w .atoml
  | 0x8E => decA w .cas
  | 0x8F => decA w .casl
  | 0x90 => decA w .red
  | 0x91 => code (Sem.ofBits (bits w 48 2)) fun m => code (Scope.ofBits (bits w 45 3)) fun sc =>
      decN w true [(0, 45)] (.fence (getSp w) m sc)
  | 0x92 => decCctl w
  | 0x93 => decPref w
  | 0x94 => if bits w 3 3 = 0 then decF w .fpush else if bits w 3 3 = 1 then decF w .fpushOn
      else .error .reserved
  | 0x95 => if bits w 3 3 = 0 then decF w .fpop else if bits w 3 3 = 1 then decF w .fpopOff
      else if bits w 3 3 = 2 then decF w .fpopCount else .error .reserved
  | 0xA0 => decC w .cpy
  | 0xA1 => decN w true [(40, 2), (0, 32)]
      (.cpyt (getSp w) (bits w 43 7) (bit w 42) (bit w 39) (bits w 32 7))
  | 0xA2 => code (Scope.ofBits (bits w 40 3)) fun sc =>
      decN w true [(0, 40)] (.cpycl (getSp w) (bits w 43 7) sc)
  | 0xA3 => decN w true [(39, 3), (0, 32)] (.waitb (getSp w) (bits w 43 7) (bit w 42) (bits w 32 7))
  | 0xA4 => decN w true [(32, 4), (30, 2)]
      (.lzopen ⟨getSp w, bits w 44 6, bits w 37 7, bit w 36, bits w 0 16, bits w 16 6, bits w 22 8⟩)
  | 0xA5 => decN w true [(38, 12), (0, 32)] (.lzclose (getSp w) (bits w 32 6))
  | 0xA6 => decN w true [(38, 2)]
      (.lzrsv (getSp w) (bits w 43 7) (bits w 40 3) (bits w 32 6) (bits w 0 32))
  | 0xA7 => need (bit w 54) .uni (decC w .lzsend)
  | 0xA8 => decN w true [(38, 12), (8, 24)] (.lzfree (getSp w) (bits w 32 6) (bits w 0 8))
  | 0xA9 => decN w true [(38, 1), (8, 24)]
      (.lzstat (getSp w) (bits w 43 7) (bits w 40 3) (bit w 39) (bits w 32 6) (bits w 0 8))
  | 0xAA => decN w true [(38, 2), (0, 32)]
      (.lzcancel (getSp w) (bits w 43 7) (bits w 40 3) (bits w 32 6))
  | 0xAB => decC w .wput
  | 0xAC => decC w .wget
  | 0xAD => decWred w
  | 0xAE => need (bit w 54) .uni (decC w .wmcast)
  | 0xAF => decN w true [(39, 1), (0, 32)]
      (.wcnt ⟨getSp w, bits w 43 7, bit w 42, bit w 41, bit w 40, bits w 32 7⟩)
  | 0xB0 => code (DepMode.ofBits (bits w 48 2)) fun m =>
      decN w true [(32, 16), (28, 4)] (.depdec (getSp w) m (bits w 0 12) (bits w 12 16))
  | 0xB1 => decN w true [(39, 1), (14, 18)]
      (.task (getSp w) (bits w 43 7) (bits w 40 3) (bits w 32 7) (bits w 0 14))
  | 0xC0 => decBara w .bara
  | 0xC1 => decN w true [(39, 3), (0, 32)] (.barw (getSp w) (bits w 43 7) (bit w 42) (bits w 32 7))
  | 0xC2 => decBara w .bars
  | 0xC3 => code (BarMode.ofBits (bits w 41 2)) fun m => decN w true [(39, 1), (12, 20)]
      (.barinit ⟨getSp w, bits w 43 7, m, bit w 40, bits w 32 7, bits w 0 12⟩)
  | 0xC4 => decN w true [(32, 10), (12, 20)] (.barx (getSp w) (bits w 43 7) (bit w 42) (bits w 0 12))
  | 0xC5 => decN w true [(39, 3), (0, 32)] (.barq (getSp w) (bits w 43 7) (bit w 42) (bits w 32 7))
  | 0xC6 => if bit w 49 then decN w true [(0, 49)] (.gangOff (getSp w))
      else decN w true [(39, 10), (0, 32)] (.gang (getSp w) (bits w 32 7))
  | 0xD0 => decX w .mma
  | 0xD1 => decX w .mmad
  | 0xD2 => decN w false [(19, 28), (0, 12)] (.mmup (getSp w) (bits w 47 3) (bits w 12 7))
  | 0xD3 => decN w true [(39, 9), (0, 32)] (.fbset (getSp w) (bits w 48 2) (bits w 32 7))
  | 0xD4 => decN w true [(39, 11), (0, 32)] (.adset (getSp w) (bits w 32 7))
  | 0xD5 => decAcc w .accld
  | 0xD6 => decAcc w .accst
  | 0xD7 => decN w true [(0, 47)] (.accz (getSp w) (bits w 47 3))
  | 0xD8 => decN w false [(40, 1), (6, 26)]
      (.accmov ⟨getSp w, bits w 47 3, bit w 46, Width.ofBits (bits w 44 2), bits w 41 3, bits w 32 8,
        bits w 0 6⟩)
  | 0xD9 => decN w true [(44, 2), (0, 41)]
      (.accwait (getSp w) (bits w 47 3) (bit w 46) (bits w 41 3))
  | 0xDA => decN w true [(47, 3), (32, 14), (16, 16)] (.adinv (getSp w) (bit w 46) (bits w 0 16))
  | 0xDB => decN w true [(39, 5), (0, 32)]
      (.accscl ⟨getSp w, bits w 47 3, bit w 46, bit w 45, bit w 44, bits w 32 7⟩)
  | 0xE0 => decN w true [(12, 27)] (.rdsr (getSp w) (dstAt w 39) (bits w 0 12))
  | 0xE1 => decN w true [(12, 26)] (.wrsr (getSp w) (srcAt w 38) (bits w 0 12))
  | 0xE2 => decN w true [(0, 39)] (.cyc (getSp w) (dstAt w 39))
  | 0xE3 => decN w true [(32, 18)] (.snap (getSp w) (bits w 0 32))
  | 0xE4 => decN w false [(0, 50)] (.eret (getSp w))
  | 0xE5 => decTlbi w
  | _ => .error .unassigned

/-- The instruction that the low 64 bits of a table word decode to (little-endian, R4). -/
def decodeTableWord (_nbits w : Nat) : Option Instr :=
  match decode (BitVec.ofNat 64 w) with
  | .ok i => some i
  | .error _ => none

/-- A PFX word (R67, R68), whose field rules are R68's. -/
def decodePfx (w : DWord) : Except DecErr Pfx :=
  if !(zf w 50 6 && zf w 28 12 && zf w 0 28) then .error .nonzero
  else match Rnd.ofBits (bits w 43 3) with
    | none => .error .reserved
    | some r => .ok ⟨bits w 47 3, bit w 46, r, bit w 42, bit w 41, bit w 40⟩

/-- A case word (R66): bits 11:0 are zero. -/
def decodeCase (w : DWord) : Option CaseWord :=
  if zf w 0 12 then some ⟨bits w 32 32, bits w 12 20⟩ else none

/-! ## The encoder -/

/-- Bits 63:50 of a word whose NWB, LC and LN are zero. -/
def hd (op : Byte) (sp uni : Bool) : BitVec 14 :=
  op ++ (BitVec.ofBool sp ++ (BitVec.ofBool uni ++ 0#4))
/-- Bits 63:50 of a word with all the fields of R58. -/
def hdm (op : Byte) (m : Mods) : BitVec 14 := op ++ m.bits
def b1 (b : Bool) : BitVec 1 := BitVec.ofBool b

def encT (op : Byte) (f : FmtT) : DWord :=
  hdm op f.m ++ (f.d.bits ++ (f.a.bits ++ (f.b.bits ++ (f.c.bits ++ f.fn))))
def encRI (op : Byte) (f : FmtRI) : DWord :=
  hdm op f.m ++ (f.d.bits ++ (f.a.bits ++ (f.imm ++ f.fn)))
def encL (op : Byte) (f : FmtL) : DWord :=
  hdm op f.m ++ (f.d.bits ++ (0#7 ++ f.imm))
def encK (op : Byte) (f : FmtK) : DWord :=
  hd op f.sp false ++ (f.kd ++ (f.kj ++ (f.jop.bits ++ (0#3 ++ (f.a.bits ++ (f.b.bits ++
    (f.cond.bits ++ (f.ty.bits ++ (0#4 ++ f.fn)))))))))
def encV (op : Byte) (f : FmtV) : DWord :=
  hdm op f.m ++ (f.d.bits ++ (f.a.bits ++ (f.dty.bits ++ (f.sty.bits ++ (f.rnd.bits ++
    (b1 f.sat ++ (0#12 ++ f.fn)))))))
def encM (op : Byte) (f : FmtM) : DWord :=
  hd op f.m.sp f.m.uni ++ (f.d.bits ++ (f.base.bits ++ (f.off ++ (f.sb ++ (f.scope.bits ++
    (f.order.bits ++ b1 f.na))))))
def encF (op : Byte) (fop : BitVec 3) (f : FmtF) : DWord :=
  hd op f.m.sp f.m.uni ++ (f.d.bits ++ (f.base.bits ++ (0#18 ++ (f.sb ++ (fop ++ 0#3)))))
def encA (op : Byte) (f : FmtA) : DWord :=
  hd op f.m.sp f.m.uni ++ (f.d.bits ++ (f.base.bits ++ (f.b.bits ++ (f.aop.bits ++ (f.scope.bits ++
    (f.order.bits ++ (f.ty.bits ++ 0#2)))))))
def encX (op : Byte) (f : FmtX) : DWord :=
  hd op f.sp false ++ (f.acc ++ (b1 f.z ++ (f.fba ++ (f.fbb ++ (f.idx ++ (f.adp ++ (f.abase ++
    (f.bbase ++ (f.kch ++ 0#8)))))))))
def encC (op : Byte) (f : FmtC) : DWord :=
  hd op f.m.sp f.m.uni ++ (f.daddr.bits ++ (f.saddr.bits ++ (f.size ++ (f.dspace.bits ++
    (f.sspace.bits ++ (f.bar ++ (b1 f.be ++ 0#10)))))))
def encAcc (op : Byte) (f : FmtAcc) : DWord :=
  hd op f.sp true ++ (f.acc ++ (f.ty.bits ++ (b1 f.sat ++ (b1 f.sbe ++ (f.sb ++ (f.sn ++ f.pitch))))))
def encBara (op : Byte) (f : FmtBara) : DWord :=
  hd op f.sp true ++ (f.bar ++ (b1 f.sc ++ (b1 f.e ++ (0#2 ++ (f.ds ++ (0#20 ++ f.cnt))))))
/-- MOVK, KPOPC, KFIND (R137). -/
def encKr (op : Byte) (sp nwb : Bool) (d : Dst) (hi : Bool) (ka : BitVec 3) : DWord :=
  op ++ (b1 sp ++ (0#1 ++ (b1 nwb ++ (0#3 ++ (d.bits ++ (0#1 ++ (b1 hi ++ (0#2 ++ (ka ++ 0#32)))))))))

/-- The word of an instruction (R63 and the instructions' own tables); none for an event. -/
def encode (i : Instr) : Option DWord :=
  match i with
  | .nop sp => some (hd 0x01 sp false ++ 0#50)
  | .iadd f => some (encT 0x08 f)
  | .isub f => some (encT 0x09 f)
  | .imul f => some (encT 0x0B f)
  | .imulh f => some (encT 0x0C f)
  | .imad f => some (encT 0x0D f)
  | .imadw f => some (encT 0x0E f)
  | .idiv f => some (encT 0x0F f)
  | .irem f => some (encT 0x10 f)
  | .imin f => some (encT 0x11 f)
  | .imax f => some (encT 0x12 f)
  | .iabs f => some (encT 0x13 f)
  | .ineg f => some (encT 0x14 f)
  | .isad f => some (encT 0x15 f)
  | .iadd3 f => some (encT 0x16 f)
  | .lea f => some (encT 0x17 f)
  | .and f => some (encT 0x18 f)
  | .or f => some (encT 0x19 f)
  | .xor f => some (encT 0x1A f)
  | .andn f => some (encT 0x1B f)
  | .not f => some (encT 0x1C f)
  | .shl f => some (encT 0x1D f)
  | .shr f => some (encT 0x1E f)
  | .sar f => some (encT 0x1F f)
  | .rol f => some (encT 0x20 f)
  | .fshl f => some (encT 0x21 f)
  | .fshr f => some (encT 0x22 f)
  | .bfx f => some (encT 0x23 f)
  | .bfi f => some (encT 0x24 f)
  | .popc f => some (encT 0x25 f)
  | .clz f => some (encT 0x26 f)
  | .ctz f => some (encT 0x27 f)
  | .brev f => some (encT 0x28 f)
  | .bytp f => some (encT 0x29 f)
  | .isel f => some (encT 0x2B f)
  | .iclamp f => some (encT 0x2C f)
  | .mov f => some (encT 0x2D f)
  | .pack f => some (encT 0x37 f)
  | .spread f => some (encT 0x38 f)
  | .fadd f => some (encT 0x40 f)
  | .fsub f => some (encT 0x41 f)
  | .fmul f => some (encT 0x42 f)
  | .ffma f => some (encT 0x43 f)
  | .fmin f => some (encT 0x44 f)
  | .fmax f => some (encT 0x45 f)
  | .fsgn f => some (encT 0x46 f)
  | .fclass f => some (encT 0x48 f)
  | .frnd f => some (encT 0x49 f)
  | .hadd2 f => some (encT 0x4A f)
  | .hmul2 f => some (encT 0x4B f)
  | .hfma2 f => some (encT 0x4C f)
  | .hmin2 f => some (encT 0x4D f)
  | .hmax2 f => some (encT 0x4E f)
  | .dot4 f => some (encT 0x4F f)
  | .dot2 f => some (encT 0x50 f)
  | .idot4 f => some (encT 0x51 f)
  | .rcp f => some (encT 0x52 f)
  | .rsq f => some (encT 0x53 f)
  | .sqrt f => some (encT 0x54 f)
  | .exp2 f => some (encT 0x55 f)
  | .log2 f => some (encT 0x56 f)
  | .sinr f => some (encT 0x57 f)
  | .cosr f => some (encT 0x58 f)
  | .tanh f => some (encT 0x59 f)
  | .fdiv f => some (encT 0x5A f)
  | .xshf f => some (encT 0x60 f)
  | .xrot f => some (encT 0x61 f)
  | .xbfly f => some (encT 0x62 f)
  | .xbcst f => some (encT 0x63 f)
  | .xscan f => some (encT 0x64 f)
  | .xred f => some (encT 0x65 f)
  | .xperm f => some (encT 0x67 f)
  | .xmatch f => some (encT 0x69 f)
  | .vote f => some (encT 0x6A f)
  | .iaddi f => some (encRI 0x0A f)
  | .icmp f => some (encK 0x2A f)
  | .fcmp f => some (encK 0x47 f)
  | .movi f => some (encL 0x2E f)
  | .movih f => some (encL 0x2F f)
  | .cvt f => some (encV 0x36 f)
  | .movs m d sel => some (hdm 0x30 m ++ (d.bits ++ (0#2 ++ (sel ++ 0#32))))
  | .movk sp nwb d ka => some (encKr 0x31 sp nwb d false ka)
  | .kmov sp kd (.k ka) => some (hd 0x32 sp false ++ (kd ++ (0#2 ++ (0#2 ++ (ka ++ 0#40)))))
  | .kmov sp kd (.s sn) => some (hd 0x32 sp false ++ (kd ++ (1#2 ++ (0#5 ++ (sn ++ 0#32)))))
  | .kmov sp kd (.imm v) => some (hd 0x32 sp false ++ (kd ++ (2#2 ++ (0#13 ++ v))))
  | .kop sp kd ka kb tt => some (hd 0x33 sp false ++ (kd ++ (ka ++ (kb ++ (tt ++ 0#37)))))
  | .kpopc sp nwb d ka => some (encKr 0x34 sp nwb d false ka)
  | .kfind sp nwb d hi ka => some (encKr 0x35 sp nwb d hi ka)
  | .xset sp xd m sn => some (hd 0x66 sp true ++ (xd ++ (b1 m ++ (0#6 ++ (sn ++ 0#32)))))
  | .xgen sp xd va => some (hd 0x68 sp false ++ (xd ++ (0#7 ++ (va ++ 0#32))))
  | .bra sp op ks tgt => some (hd 0x70 sp false ++ (ks ++ (op.bits ++ (0#4 ++ (tgt ++ 0#20)))))
  | .braSplit sp ks tgt rcv => some (hd 0x70 sp false ++ (ks ++ (4#3 ++ (0#4 ++ (tgt ++ rcv)))))
  | .switch sp n a dflt rcv => some (hd 0x71 sp false ++ (n ++ (0#3 ++ (a.bits ++ (dflt ++ rcv)))))
  | .call sp tgt rcv => some (hd 0x72 sp false ++ (0#10 ++ (tgt ++ rcv)))
  | .ret sp a => some (hd 0x73 sp false ++ (a.bits ++ 0#38))
  | .jmpi sp a => some (hd 0x74 sp false ++ (a.bits ++ 0#38))
  | .recon sp rcv => some (hd 0x75 sp false ++ (0#30 ++ rcv))
  | .exit sp => some (hd 0x76 sp false ++ 0#50)
  | .yield sp cnt => some (hd 0x77 sp false ++ (0#12 ++ (cnt ++ 0#32)))
  | .trap sp c => some (hd 0x78 sp false ++ (0#18 ++ c))
  | .svc sp sd va no => some (hd 0x79 sp false ++ (sd ++ (0#3 ++ (va ++ no))))
  | .bkpt sp c => some (hd 0x7A sp false ++ (0#18 ++ c))
  | .sleep sp c => some (hd 0x7B sp false ++ (0#18 ++ c))
  | .ld f => some (encM 0x80 f)
  | .ldsb f => some (encM 0x81 f)
  | .ldzb f => some (encM 0x82 f)
  | .ldsh f => some (encM 0x83 f)
  | .ldzh f => some (encM 0x84 f)
  | .st f => some (encM 0x85 f)
  | .stb f => some (encM 0x86 f)
  | .sth f => some (encM 0x87 f)
  | .ldl f => some (encM 0x88 f)
  | .stl f => some (encM 0x89 f)
  | .ldc f => some (encM 0x8A f)
  | .stc f => some (encM 0x8B f)
  | .atom f => some (encA 0x8C f)
  | .atoml f => some (encA 0x8D f)
  | .cas f => some (encA 0x8E f)
  | .casl f => some (encA 0x8F f)
  | .red f => some (encA 0x90 f)
  | .fence sp m sc => some (hd 0x91 sp true ++ (m.bits ++ (sc.bits ++ 0#45)))
  | .cctl f => some (hd 0x92 f.m.sp f.m.uni ++ (0#7 ++ (f.cop.bits ++ (f.base.bits ++ (f.off ++
      (f.sb ++ 0#6))))))
  | .pref f => some (hd 0x93 f.m.sp f.m.uni ++ (0#10 ++ (b1 f.x ++ (f.base.bits ++ (f.off ++
      (0#8 ++ b1 f.na))))))
  | .fpush f => some (encF 0x94 0 f)
  | .fpushOn f => some (encF 0x94 1 f)
  | .fpop f => some (encF 0x95 0 f)
  | .fpopOff f => some (encF 0x95 1 f)
  | .fpopCount f => some (encF 0x95 2 f)
  | .cpy f => some (encC 0xA0 f)
  | .cpyt sp bar be dc sn => some (hd 0xA1 sp true ++ (bar ++ (b1 be ++ (0#2 ++ (b1 dc ++ (sn ++
      0#32))))))
  | .cpycl sp ds sc => some (hd 0xA2 sp true ++ (ds ++ (sc.bits ++ 0#40)))
  | .waitb sp ds all sn => some (hd 0xA3 sp true ++ (ds ++ (b1 all ++ (0#3 ++ (sn ++ 0#32)))))
  | .lzopen f => some (hd 0xA4 f.sp true ++ (f.dp ++ (f.bar ++ (b1 f.be ++ (0#4 ++ (0#2 ++ (f.slots ++
      (f.kib ++ f.gran))))))))
  | .lzclose sp hp => some (hd 0xA5 sp true ++ (0#12 ++ (hp ++ 0#32)))
  | .lzrsv sp ds sb hp len => some (hd 0xA6 sp true ++ (ds ++ (sb ++ (0#2 ++ (hp ++ len)))))
  | .lzsend f => some (encC 0xA7 f)
  | .lzfree sp hp sl => some (hd 0xA8 sp true ++ (0#12 ++ (hp ++ (0#24 ++ sl))))
  | .lzstat sp ds sb w hp sl => some (hd 0xA9 sp true ++ (ds ++ (sb ++ (b1 w ++ (0#1 ++ (hp ++ (0#24 ++
      sl)))))))
  | .lzcancel sp gs sb hp => some (hd 0xAA sp true ++ (gs ++ (sb ++ (0#2 ++ (hp ++ 0#32)))))
  | .wput f => some (encC 0xAB f)
  | .wget f => some (encC 0xAC f)
  | .wred f => some (hd 0xAD f.sp false ++ (f.daddr.bits ++ (f.saddr.bits ++ (f.size ++ (0#1 ++
      (b1 f.sat ++ (f.sspace.bits ++ (0#15 ++ f.ty.bits))))))))
  | .wmcast f => some (encC 0xAE f)
  | .wcnt f => some (hd 0xAF f.sp true ++ (f.ds ++ (b1 f.rem ++ (b1 f.w ++ (b1 f.aq ++ (0#1 ++ (f.sn ++
      0#32)))))))
  | .depdec sp m c n => some (hd 0xB0 sp true ++ (m.bits ++ (0#16 ++ (0#4 ++ (n ++ c)))))
  | .task sp ds sb sn q => some (hd 0xB1 sp true ++ (ds ++ (sb ++ (0#1 ++ (sn ++ (0#18 ++ q))))))
  | .bara f => some (encBara 0xC0 f)
  | .barw sp bar sc sn => some (hd 0xC1 sp true ++ (bar ++ (b1 sc ++ (0#3 ++ (sn ++ 0#32)))))
  | .bars f => some (encBara 0xC2 f)
  | .barinit f => some (hd 0xC3 f.sp true ++ (f.bar ++ (f.mode.bits ++ (b1 f.sc ++ (0#1 ++ (f.sn ++
      (0#20 ++ f.cnt)))))))
  | .barx sp bar sc n => some (hd 0xC4 sp true ++ (bar ++ (b1 sc ++ (0#10 ++ (0#20 ++ n)))))
  | .barq sp bar sc ds => some (hd 0xC5 sp true ++ (bar ++ (b1 sc ++ (0#3 ++ (ds ++ 0#32)))))
  | .gang sp sn => some (hd 0xC6 sp true ++ (0#1 ++ (0#10 ++ (sn ++ 0#32))))
  | .gangOff sp => some (hd 0xC6 sp true ++ (1#1 ++ 0#49))
  | .mma f => some (encX 0xD0 f)
  | .mmad f => some (encX 0xD1 f)
  | .mmup sp acc bb => some (hd 0xD2 sp false ++ (acc ++ (0#28 ++ (bb ++ 0#12))))
  | .fbset sp fr sn => some (hd 0xD3 sp true ++ (fr ++ (0#9 ++ (sn ++ 0#32))))
  | .adset sp sn => some (hd 0xD4 sp true ++ (0#11 ++ (sn ++ 0#32)))
  | .accld f => some (encAcc 0xD5 f)
  | .accst f => some (encAcc 0xD6 f)
  | .accz sp acc => some (hd 0xD7 sp true ++ (acc ++ 0#47))
  | .accmov f => some (hd 0xD8 f.sp false ++ (f.acc ++ (b1 f.dir ++ (f.w.bits ++ (f.sb ++ (0#1 ++ (f.vn ++
      (0#26 ++ f.col))))))))
  | .accwait sp acc all sb => some (hd 0xD9 sp true ++ (acc ++ (b1 all ++ (0#2 ++ (sb ++ 0#41)))))
  | .adinv sp all id => some (hd 0xDA sp true ++ (0#3 ++ (b1 all ++ (0#14 ++ (0#16 ++ id)))))
  | .accscl f => some (hd 0xDB f.sp true ++ (f.acc ++ (b1 f.ax ++ (b1 f.sc ++ (b1 f.bi ++ (0#5 ++ (f.sn ++
      0#32)))))))
  | .rdsr sp d sr => some (hd 0xE0 sp true ++ (d.bits ++ (0#27 ++ sr)))
  | .wrsr sp a sr => some (hd 0xE1 sp true ++ (a.bits ++ (0#26 ++ sr)))
  | .cyc sp d => some (hd 0xE2 sp true ++ (d.bits ++ 0#39))
  | .snap sp tag => some (hd 0xE3 sp true ++ (0#18 ++ tag))
  | .eret sp => some (hd 0xE4 sp false ++ 0#50)
  | .tlbiPage sp isl sb sa => some (hd 0xE5 sp true ++ (0#2 ++ (b1 isl ++ (sb ++ (0#5 ++ (sa ++ 0#32))))))
  | .tlbiPart sp isl sb => some (hd 0xE5 sp true ++ (1#2 ++ (b1 isl ++ (sb ++ (0#12 ++ 0#32)))))
  | .reset _ => none
  | .configRequest _ _ => none
  | .umcmdCommit _ => none
  | .registerWrite _ _ _ => none
  | .bar0UnsupportedAccess _ _ _ _ => none
  | .doorbell _ _ => none
  | .replayDoorbell _ => none
  | .cancelDoorbell _ => none
  | .resumeDoorbell _ => none
  | .migrationForwardExpiry _ _ => none
  | .depctrHostWrite _ _ => none
  | .alertClear _ _ => none
  | .sntrig _ => none
  | .atsInvalidation _ _ _ => none
  | .getCapabilities _ => none
  | .negotiateAlgorithms _ => none
  | .getCertificate _ _ _ => none
  | .challenge _ _ => none
  | .getMeasurements _ _ => none
  | .temperatureSample _ _ => none
  | .hbmTemperatureSample _ _ _ => none
  | .processMonitorSample _ _ _ => none
  | .powerTick _ => none
  | .patrolScrub _ _ => none
  | .sleepExpiry _ _ => none
  | .yieldExpiry _ _ => none
  | .forwardingExpiry _ _ => none
  | .memoryAccessPerform _ _ _ => none
  | .writeThroughDrain _ _ => none
  | .walkComplete _ _ => none
  | .atsResponse _ _ => none
  | .fifoRecordPerform _ _ => none
  | .extentGrant _ => none
  | .copyOperationPerform _ _ => none
  | .lzCloseExpiry _ _ => none
  | .frameReceive _ _ => none
  | .frameAcknowledgement _ _ => none
  | .retryRequest _ _ => none
  | .keyExchange _ _ => none
  | .rekey _ _ _ => none
  | .assignment _ _ => none
  | .transientReissue _ _ => none
  | .transientAbandon _ _ => none
  | .recountOpen _ _ => none
  | .recallResend _ _ => none
  | .recallFilterExpiry _ _ => none
  | .adapterSliceArrival _ _ => none
  | .powerOnReset => none
  | .conventionalReset => none
  | .bootStep => none
  | .abort => none
  | .releasePartition => none
  | .preEmpt => none
  | .migrate => none
  | .resume => none
  | .pageMigration => none
  | .repartition => none
  | .windowInvalidate => none
  | .getVersion => none
  | .getDigests => none
  | .droopEvent => none
  | .avoidedExpiry => none
  | .dispatchTake => none
  | .collectiveSelect => none
  | .placeCluster => none
  | .drainingMark => none
  | .carveOutApply => none
  | .clauseChoice => none
  | .clauseFetch => none
  | .faultRecordWrite => none
  | .preemptForce => none
  | .groupSave => none
  | .groupRestore => none
  | .teamMigration => none
  | .teamEnd => none
  | .gridEnd => none
  | .serviceRequestWrite => none
  | .flushReadCompletion => none
  | .revokeNotice => none
  | .revokedConfirmation => none
  | .coalesce => none
  | .lzrsvRequest => none
  | .lzrsvReply => none
  | .lzPacketArrival => none
  | .lzAcknowledgement => none
  | .lzAbort => none
  | .lzAbortRetry => none
  | .lzCancelArrival => none
  | .lzCancelAck => none
  | .requestTimeout => none
  | .windowPacketIngress => none
  | .windowAcknowledgement => none
  | .multicastAck => none
  | .messageAgeExpiry => none
  | .egressWaitRelease => none
  | .linkAckTimeout => none
  | .portRestart => none
  | .lanesTrained => none
  | .portTimeout => none
  | .dieLinkFailure => none
  | .gets => none
  | .getx => none
  | .tok => none
  | .putt => none
  | .preq => none
  | .pact => none
  | .pdone => none
  | .pdeact => none
  | .persistentTimeout => none
  | .loss => none
  | .recall => none
  | .rack => none
  | .down => none
  | .up => none
  | .upHoldoffExpiry => none
  | .rendezvousIssue => none
  | .matrixRecordHead => none
  | .matrixChunk => none
  | .barrierArrivalMessage => none
  | .tlbiCompletion => none
  | .dieRejoin => none

end Sys2Proof
end

