-- ==== Sys2Proof/Config.lean ====
section
/-! DEFINITION. What an implementation fixes and the values the spec leaves free: constants with no
body, of which nothing can be proved but what their uses prove about every value. -/

namespace Sys2Proof

/-- What the boot firmware takes from a verified unit map (R13, R15, R420), with the fabric root key that it carries
(R406). -/
structure UnitMap where
  grade : Byte
  coremask : List (BitVec 32)
  links : BitVec 10
  stackMask : List (BitVec 2)
  sliceMask : List (BitVec 16)
  bifurcate : Bool
  floor : Nat
  rootKey : List Byte
  deriving DecidableEq, Repr, Inhabited

namespace Config

/-- DEVID bits 7:0 (R117), the part's stepping, which the spec leaves to the part (log 18). -/
opaque stepping : Byte
/-- The free values (log 5): applied to the counter of the state. -/
opaque free : Nat → Nat
/-- What a unit of the device takes from a byte of a line that cannot be read (R216; log 14). -/
opaque lostByte : Nat → Byte
/-- The result of special function `f` on a binary32 pattern, before the manual's bound (R112). -/
opaque special : Nat → Word → Word
/-- What a unit map's bytes say (R13: the format is not given). -/
opaque unitMap : List Byte → UnitMap
/-- ECDSA P-384 over SHA-384 against the root key of the boot ROM (R420 step 1, R421). -/
opaque mapSigOk : List Byte → Bool
/-- The signature of a firmware image, and its version (R420 step 4). -/
opaque imageSigOk : List Byte → Bool
opaque imageVersion : List Byte → Nat
/-- Whether HBM training succeeds (R420 step 5). -/
opaque hbmTrains : Bool
/-- Whether writing the unit map to flash succeeds (R421 code 6). -/
opaque flashWrites : List Byte → Bool
/-- SHA-384 (R422), and the boot ROM's digest. -/
opaque sha384 : List Byte → BitVec 384
opaque romDigest : BitVec 384
/-- The SPDM responder's signature over a transcript, and its certificate chain (R422). -/
opaque spdmSign : List Nat → BitVec 768
opaque certChain : List Byte
/-- The words of an SPDM message in a DOE data object (R8; log 28). -/
opaque spdmWords : Nat → List Nat → List Word
/-- Whether a certificate's chain leads to a fabric root key, and its signature of a hash verifies (R406). -/
opaque keyOk : List Byte → List Byte → BitVec 384 → List Byte → Bool
/-- The verification of an assignment's signature and chain against a fabric root key, over all that it carries (R408). -/
opaque assignSigOk : List Byte → Assign → Bool
/-- The package's identity certificate, its serial number, and its signature of a hash (R406). -/
opaque identCert : List Byte
opaque certSerial : Nat
opaque identSign : BitVec 384 → List Byte
/-- The P-384 public key of an ephemeral secret, and the ECDH shared secret with a peer's public key (R406). -/
opaque ecPublic : Nat → List Byte
opaque ecShared : Nat → List Byte → BitVec 384
/-- The package that rack management puts at an island position (R22, R400; log 18). -/
opaque islandPkg : Nat → BitVec 18
/-- The pool node that gathers the answers to the multicasts of a package (R412, R413; log 39). -/
opaque mcNode : BitVec 18 → BitVec 18
/-- The pool node that a Filwick port attaches to (R399; log 18). -/
opaque portNode : Nat → BitVec 18
/-- The hash behind the set index of a core-cache line, of a TLB page, of a translation-cache page (log 6). -/
opaque coreSet : Nat → Nat
opaque tlbSet : Nat → Nat
opaque tcacheSet : Nat → Nat
/-- How DETAIL of a tile-poison record names tile, row and column (R210, R320 give no places; log 19). -/
opaque tileDetail : Nat → Nat → Nat → Word
/-- The host page to which the host translates an untranslated request of a PASID (R227; log 18). -/
opaque hostPage : Nat → Nat → BitVec 36
/-- What the spec does not give of a configuration word (R415; log 18, log 61). -/
opaque cfgWord : Nat → Word

end Config
end Sys2Proof
end

