-- ==== Sys2Proof/Machine/State.lean ====
section
/-! DEFINITION. The state of one P8 package, as plain data, and the state right after a power-on reset.
Fields marked "model" are the model's own; every other field is state the spec names (INVENTORY.md). -/

namespace Sys2Proof.Machine

/-! ## Registers and groups -/

/-- The protection state of a stored word (R119). -/
inductive Ecc | clean | single | double | poisoned
  deriving DecidableEq, Repr
/-- A word of the register file or of accumulator SRAM (R119). -/
structure RegWord where
  val : Word
  ecc : Ecc
  deriving DecidableEq, Repr
/-- The states of a split-table entry (R181). -/
inductive FState | ready | joining | waiting | deferred | parked
  deriving DecidableEq, Repr
/-- What a waiting fragment waits for (R168, R176, R177, R359, R362, R363, R328, R229). -/
inductive Wait
  | none
  | entry
  | bar (team bar : Nat) (phase : Bool) (sn : Nat) (arr : Option Nat)
  | batch (ds n : Nat) (all : Bool)
  | wcnt (ds win : Nat) (t : Word) (aq rem : Bool)
  | sleep (til : Nat)
  | yield (clauses steps : Nat)
  | ticket
  | fetch
  | failed (va code lvl : Nat)
  deriving DecidableEq, Repr
/-- A split-table entry (R36); `prev` is the state before a park, `held` R322, `fresh` an arrival not
yet judged (R171), `stop` the live mask of the safe point at which it stopped (R332), `cursor` the
lane at which its continuation resumes (R323), `redo` a re-execution of R170, `term` the word of the terminal
instruction that it executes again, `due` the end of its wait, with the s registers that it writes, until the next
clause boundary (R180). -/
structure Frag where
  mask : Mask
  pc : VAddr
  rcv : VAddr
  depth : BitVec 6
  defer : Bool
  age : Nat
  state : FState
  word : Nat
  prev : FState
  wait : Wait
  held : Bool
  fresh : Bool
  stop : Option DWord
  cursor : Option Nat
  redo : Bool
  term : Nat
  yld : Bool
  due : Option (List (Nat × Word))
  deriving DecidableEq, Repr
/-- What a load does with the bytes it reads (R242). -/
inductive Ext | plain | sext | zext
  deriving DecidableEq, Repr
/-- The kinds of memory record (R242, R247, R251, R253, R255, R366); `dep` is a DEPDEC whose release
(R364, R246) is not complete, which counts in no queue. -/
inductive MemKind
  | load (e : Ext)
  | store
  | atom (op : AOp) (ty : Ty) (ret : Bool)
  | cas (ty : Ty)
  | fence (sem : Sem)
  | cctl (c : Cop)
  | pref (x : Bool)
  | push | pushOn | pop | popOff | popCount
  | dep (mode : DepMode) (c n : Nat)
  deriving DecidableEq, Repr
/-- Where a memory record's addresses lead (R239, R240, R254). -/
inductive MemSpace | global | scratch | cluster | fifo
  deriving DecidableEq, Repr
/-- How far one lane's access has come (R228, R229, R376). -/
inductive AccSt | pend | walking | parked | inSlice | done
  deriving DecidableEq, Repr
/-- One access of a memory record (R235): a lane's, lane 32 for a uniform instruction; a quad or octet
access is one for each aligned 8-byte part (R243). -/
structure LaneAcc where
  lane : Nat
  part : Nat
  addr : Nat
  data : List Byte
  st : AccSt
  deriving DecidableEq, Repr
/-- One record of a group's memory queue (R235). -/
structure MemRec where
  id : Nat
  kind : MemKind
  space : MemSpace
  size : Nat
  order : Order
  scope : Scope
  na : Bool
  dst : Option Dst
  sb : Option Nat
  iaddr : Nat
  lanes : List LaneAcc
  deriving DecidableEq, Repr
/-- A team's adapter binding (R197). -/
structure AdBind where
  table : Nat
  count : Nat
  handle : BitVec 16
  gen : BitVec 16
  deriving DecidableEq, Repr
/-- An exact value m × 2^e. -/
structure Dy where
  m : Int
  e : Int
  deriving DecidableEq, Repr
/-- An element read by the matrix unit: exact, or an infinity or NaN (R102). -/
inductive El | fin (d : Dy) (neg : Bool) | inf (neg : Bool) | nan
  deriving DecidableEq, Repr
/-- What a pending adapter term adds (R200, R201): `rank` a chunk's products, from its first K index and
its A elements, to the rank accumulator; `up` the term of MMUP; `base` the base product of a later chunk, of A and B
elements, on a row whose MMUP term is pending (R110). -/
inductive TermKind
  | rank (kidx : Nat) (a : List El)
  | up (nblk : Nat)
  | base (a : List El) (cols : List (List El))
  deriving DecidableEq, Repr
/-- A pending adapter term (R200, R201): its binding and adapter id, its instruction, and the names of
the adapter-cache entries that it has pinned (R199). -/
structure ReplayTerm where
  b : AdBind
  id : Nat
  k : TermKind
  iaddr : Nat
  uses : List Nat
  deriving DecidableEq, Repr
/-- A row of a tile's replay list (R182), with its group and its logical tile. -/
structure ReplayRow where
  row : Nat
  group : Nat
  acc : Nat
  terms : List ReplayTerm
  deriving DecidableEq, Repr
/-- A physical tile with its rank store (R182, R183). -/
structure Tile where
  elems : SMap RegWord
  rank : SMap RegWord
  rowIds : SMap (BitVec 16)
  replay : List ReplayRow
  flag : Bool
  deriving DecidableEq, Repr
/-- The operands of one joint record (R193). -/
structure JointOp where
  mmad : Bool
  z : Bool
  fa : BitVec 256
  fb : BitVec 256
  rows : List (Nat × Word × BitVec 16)
  abase : DWord
  bbase : DWord
  kch : Nat
  gang : DWord
  deriving DecidableEq, Repr
/-- The kinds of matrix record (R184). -/
inductive MatKind
  | joint (acc : Nat) (j : JointOp)
  | up (acc : Nat) (lanes : List Nat) (nidx : Nat)
  | adset (b : AdBind)
  | accld (acc : Nat) (ty : TTy) (base pitch : Nat)
  | accst (acc : Nat) (ty : TTy) (sat : Bool) (base pitch : Nat)
  | accz (acc : Nat)
  | accmovTo (acc vn w col : Nat) (lanes : List Nat)
  | accmovFrom (acc w col : Nat) (rows : List (Nat × List Word))
  | accwait (acc : Nat) (all : Bool)
  | adinv (all : Bool) (id : Nat) (begun : Option (BitVec 16))
  | accscl (acc : Nat) (col sc bi : Bool) (sbase bbase : Nat)
  | fbset
  deriving DecidableEq, Repr
/-- One record of a group's matrix queue (R184); `issued` is R186, `started` a joint operation in the
matrix unit, or an ADINV that waits for pinned entries (R203). -/
structure MatRec where
  id : Nat
  kind : MatKind
  iaddr : Nat
  sb : Option Nat
  issued : Bool
  started : Bool
  deriving DecidableEq, Repr
/-- A batch of copies (R285): the model's name of it, its number and scope from its close, its error
bit. The members that are not complete are those that name it in the queues. -/
structure Batch where
  id : Nat
  num : Nat
  scope : Scope
  err : Bool
  closed : Bool
  done : Bool
  deriving DecidableEq, Repr
/-- A fault record (R320); numbers are unsigned fields. -/
structure FaultRec where
  kind : Nat
  flags : Nat
  lane : Nat
  src : Nat
  ridx : Nat
  queue : Nat
  group : Nat
  info : Nat
  team : Nat
  iaddr : Nat
  addr : Nat
  smask : Nat
  detail : Nat
  detail2 : Nat
  cycle : Nat
  deriving DecidableEq, Repr
/-- A fault that a group has still to take (R318). -/
structure PendFault where
  fault : FaultRec
  trap : Bool
  deriving DecidableEq, Repr
/-- Where a group lives (R331 to R334). -/
inductive Resid | bound | saved | ready | dead
  deriving DecidableEq, Repr
/-- A service call in progress (R328, R329). -/
structure SvcCall where
  entry : Nat
  lanes : Mask
  sd : Nat
  va : Nat
  no : Word
  ticket : Nat
  sp : Bool
  blocks : List (List Word)
  iaddr : Nat
  core : Nat
  deriving DecidableEq, Repr
/-- A group (R23, R114, R117): `since` the time of a pre-emption request, `live` the mask of its save, `kept` the
replay lists saved with its tiles (R212), `mig` a save for a migration (R335), `stopped` R321, `scopes` the scope
ranks of the batches it has closed, by number (R362), `slotMat` the matrix records that its save slot holds (R333). -/
structure Group where
  team : Nat
  grid : Nat
  idx : Nat
  nlanes : Nat
  track : Nat
  v : SMap RegWord
  s : SMap RegWord
  k : SMap Mask
  xc : SMap (BitVec 160)
  f : SMap (BitVec 256)
  amap : SMap Nat
  gang : DWord
  cursor : Nat
  fltstat : Word
  trapvec : DWord
  trapinfo : SMap Word
  split : SMap Frag
  sb : SMap Nat
  batch : Nat
  batches : List Batch
  closed : Nat
  scopes : SMap Nat
  memq : List MemRec
  matq : List MatRec
  pendFaults : List PendFault
  parity : Bool
  resid : Resid
  reason : Nat
  live : DWord
  since : Nat
  preempt : Bool
  svc : Option SvcCall
  kept : SMap (List ReplayRow)
  slotMat : List MatRec
  mig : Bool
  stopped : Bool
  deriving DecidableEq, Repr

/-! ## Tracks -/

/-- The clause a track is executing (R27, R56); `claim` counts the copy-queue entries it still claims
(R279), `walked` the outcomes of the walks of its fetch that found no leaf: page, outcome, level (R57, R228); `errs` the lines
whose fetch was answered with an error (R57). -/
structure Run where
  group : Nat
  entry : Nat
  hdr : VAddr
  header : DWord
  words : List DWord
  pos : Nat
  pfx : Option Pfx
  cursor : Option Nat
  redo : Bool
  fetched : Bool
  claim : Nat
  walked : List (Nat × Nat × Nat)
  errs : List (Nat × Nat)
  deriving DecidableEq, Repr
/-- A track (R26, R31, R43, R44); `hdr` is the header of the clause that it last started (R423); `ready` are results that
cannot be read yet: group, register, and the step from which they can (R28). -/
structure Track where
  slots : SMap Nat
  latches : SMap RegWord
  run : Option Run
  last : Nat
  clauses : Nat
  steps : Nat
  hdr : VAddr
  ready : List (Nat × Nat × Nat)
  deriving DecidableEq, Repr

/-! ## Cores -/

/-- A core-cache line, with the bank that is its way (R223), or an instruction-cache line (R225). -/
structure CacheLine where
  data : Line
  part : BitVec 16
  lru : Nat
  way : Nat
  deriving DecidableEq, Repr
/-- A cached translation (R342, R343); a table lists its entries most recently used first. -/
structure Trans where
  part : BitVec 16
  vpage : Nat
  bits : Nat
  pa : Nat
  w : Bool
  h : Bool
  deriving DecidableEq, Repr
/-- A store in the write-through buffer (R223). -/
structure WtStore where
  id : Nat
  pa : Nat
  data : List Byte
  group : Nat
  mrec : Nat
  lane : Nat
  iaddr : Nat
  addr : Nat
  waiting : Bool
  deriving DecidableEq, Repr
/-- A FIFO bank (R254): counters and waiting records in arrival order. -/
structure Fifo where
  head : BitVec 16
  tail : BitVec 16
  deriving DecidableEq, Repr
/-- A record waiting at a FIFO bank (R256): its bank, its group and its memory record. -/
structure FifoWait where
  bank : Nat
  group : Nat
  mrec : Nat
  deriving DecidableEq, Repr
/-- A named barrier (R353); `full`, that a slot has completed without error in its phase, `lfull`, in the phase
before (R295). -/
structure Barrier where
  expa : Nat
  arra : Nat
  expb : Nat
  arrb : Nat
  mode : BarMode
  scope : Bool
  phase : Bool
  err : Bool
  lerr : Bool
  full : Bool
  lfull : Bool
  deriving DecidableEq, Repr
/-- A zone entry (R349); `w0` is handle word 0 of its opening, by which it is named wherever its team
migrates (R335). -/
structure Zone where
  w0 : Word
  gen : Byte
  isOpen : Bool
  used : Bool
  team : Nat
  base : Nat
  kib : Nat
  count : Nat
  first : Nat
  bar : Nat
  be : Bool
  closing : Option Nat
  deriving DecidableEq, Repr
/-- The states of a slot (R295). -/
inductive SlotSt | free | reserved | filling | full | failed | cancelled
  deriving DecidableEq, Repr
/-- A slot entry (R349). -/
structure Slot where
  zone : Nat
  st : SlotSt
  gen : Byte
  expected : Nat
  arrived : Nat
  err : Bool
  cause : Nat
  deriving DecidableEq, Repr
/-- An LZSTAT.wait in progress (R297). -/
structure SlotWait where
  slot : Nat
  group : Nat
  ds : Nat
  sb : Nat
  deriving DecidableEq, Repr
/-- A forwarding entry (R350). -/
structure Fwd where
  base : Nat
  size : Nat
  team : Nat
  core : Nat
  newBase : Nat
  til : Nat
  deriving DecidableEq, Repr
/-- An adapter-cache entry (R199). -/
structure AdEntry where
  name : Nat
  handle : BitVec 16
  gen : BitVec 16
  id : Nat
  proj : Nat
  block : Nat
  rho : Nat
  afmt : Nat
  scale : Word
  drows : Nat
  ucols : Nat
  valid : Bool
  data : List Byte
  stale : Bool
  lru : Nat
  deriving DecidableEq, Repr
/-- An adapter slice being read (R199): `outcome` is an error that its next step reports. -/
structure AdFill where
  name : Nat
  bind : AdBind
  id : Nat
  proj : Nat
  block : Nat
  part : BitVec 16
  group : Nat
  iaddr : Nat
  parked : Bool
  outcome : Option Nat
  deriving DecidableEq, Repr
/-- The kinds of copy-queue record (R278). -/
inductive CopyKind
  | cpy | cpyt | lzsend | lzrsv | lzcancel | wput | wget | wred (ty : WTy) (sat : Bool) | wmcast | task
  deriving DecidableEq, Repr
/-- A piece of a copy (R283, R286): source, destination, length, lowest lane; for window records the
peer and the window, whose offset stands on the window's side (R298). -/
structure Seg where
  src : Nat
  dst : Nat
  len : Nat
  lane : Nat
  peer : BitVec 18
  win : BitVec 16
  deriving DecidableEq, Repr
/-- One record of a copy issue queue (R278, R290). -/
structure CopyRec where
  id : Nat
  group : Nat
  team : Nat
  kind : CopyKind
  sspace : Space
  dspace : Space
  segs : List Seg
  bar : Option Nat
  batch : Option Nat
  dep : Option Nat
  sb : Option Nat
  ds : Option Nat
  words : List Word
  n : Nat
  iaddr : Nat
  deriving DecidableEq, Repr
/-- One operation issued by the copy engine (R281): its record with the operation's own pieces, and
the source bytes read so far, while the rest or the destination is not at hand. -/
structure CopyOp where
  id : Nat
  r : CopyRec
  st : AccSt
  data : List Byte
  deriving DecidableEq, Repr
/-- An active row of a joint operation (R194): its tile row, its adapter id, its A elements of the
chunks that remain, and whether each chunk's rank terms hit at issue (R200). -/
structure MatRow where
  row : Nat
  id : Nat
  a : List (List El)
  hits : List Bool
  deriving DecidableEq, Repr
/-- A member of a joint operation: its group, its record, its instruction, its physical tile. -/
structure MatMem where
  group : Nat
  mrec : Nat
  iaddr : Nat
  acc : Nat
  tile : Nat
  rows : List MatRow
  deriving DecidableEq, Repr
/-- A joint operation that has issued (R190, R196): its members by position, B's columns for the chunks
that remain, the K index and length of the next chunk, and the adapter-cache entries it has pinned. -/
structure MatOp where
  members : List MatMem
  b : List (List (List El))
  kidx : Nat
  kc : Nat
  bind : AdBind
  uses : List Nat
  deriving DecidableEq, Repr
/-- A core (R11, R117, R213); `carving` is a carve-out whose application waits for the write-through buffer (R219). -/
structure Core where
  carve : BitVec 16
  carving : Option Nat
  replay : Word
  rfce : Word
  rfue : Word
  cycle : DWord
  drops : Word
  scratch : List Host.Cell
  fifo : SMap Fifo
  fifoq : List FifoWait
  cache : SMap CacheLine
  icache : SMap CacheLine
  tlb : List Trans
  wtb : List WtStore
  adcache : List AdEntry
  adfills : List AdFill
  zones : SMap Zone
  slots : SMap Slot
  slotWaits : List SlotWait
  fwds : SMap Fwd
  copyq : List CopyRec
  copyOps : List CopyOp
  tiles : SMap Tile
  matUnit : List MatOp
  temp : BitVec 16
  hot : Bool
  droops : List Nat
  avoided : Option Nat
  coll : Option Nat
  deriving DecidableEq, Repr

/-! ## Teams, grids -/

/-- Where a team's end has come to (R312): `freed`, only its allocation remains; `gone`, nothing does (the entry
stays until its grid ends, for the records that name it). -/
inductive TPhase | running | freed | gone
  deriving DecidableEq, Repr
/-- A team (R23, R25, R42). -/
structure Team where
  grid : Nat
  cluster : Nat
  member : Nat
  x : Nat
  y : Nat
  z : Nat
  core : Nat
  base : Nat
  size : Nat
  groups : List Nat
  bars : SMap Barrier
  binding : AdBind
  phase : TPhase
  migrate : Option Nat
  deriving DecidableEq, Repr
/-- Grid-slot states (R315). -/
inductive GSt | armed | ready | running | rejected | aborted | done
  deriving DecidableEq, Repr
/-- A grid slot (R307, R315): `next` the next cluster to place, `waitSince` since when it waits, `ended` that steps 1
and 2 of R313 have been made. -/
structure Grid where
  lrec : BitVec 512
  queue : Nat
  ring : Nat
  order : Nat
  st : GSt
  reject : Nat
  next : Nat
  waitSince : Nat
  firmware : Bool
  skip : Bool
  collWant : Bool
  coll : List Nat
  ended : Bool
  deriving DecidableEq, Repr

/-! ## Dies -/

/-- What waits on a walk, in the parked space or on a line (R228, R229, R376); `device` is a unit that
tries again by itself. -/
inductive Waiter
  | acc (group mrec idx : Nat)
  | drain (core id : Nat)
  | copy (core crec op : Nat)
  | fetch (group entry : Nat)
  | fill (core id : Nat)
  | notify (grid : Nat)
  | pref (core : Nat) (fill : Bool)
  | icache (core : Nat) (part : BitVec 16)
  | clause (track : Nat)
  | device
  deriving DecidableEq, Repr
/-- A page walk in progress (R228). -/
structure Walk where
  part : BitVec 16
  va : Nat
  write : Bool
  waiters : List (Waiter × Bool × Nat)
  deriving DecidableEq, Repr
/-- A parked line access (R229). -/
structure Parked where
  part : BitVec 16
  va : Nat
  write : Bool
  waiter : Waiter
  recIdx : Option Nat
  kind : Nat
  deriving DecidableEq, Repr
/-- A request at a home (R379). -/
structure HReq where
  die : Nat
  slice : Nat
  write : Bool
  line : Nat
  deriving DecidableEq, Repr
/-- The active request of a home (R383). -/
structure Active where
  req : HReq
  seq : BitVec 16
  since : Nat
  forwarded : Bool
  recounting : Bool
  deriving DecidableEq, Repr
/-- An open recount (R389). -/
structure Recount where
  line : Nat
  serial : BitVec 4
  pending : List Nat
  sent : Nat
  deriving DecidableEq, Repr
/-- A migration of a page from this home (R231): partition, virtual page, the leaf entry's address, the physical pages,
the island die to which its end is reported; `stage` 0 while recounts and persistent requests for the page are finished,
1 while its tokens are recalled, 2 while the new home takes it, 3 while every package turns to the new page, 4 before the
leaf is written and 5 until it is, 6 while translations are invalidated, 7 once they are; 8 at the new home, from its copy to
the queued requests; `left` the dies whose RACK is still awaited, by line, `sent` the time of the last RECALL, `hold` the migration hold
queue (R277). -/
structure Moving where
  part : BitVec 16
  va : Nat
  leaf : Nat
  page : Nat
  new : Nat
  by_ : Nat
  stage : Nat
  left : List (Nat × List Nat)
  sent : Nat
  hold : List HReq
  deriving DecidableEq, Repr
/-- A home controller (R379 to R391, R231). -/
structure Home where
  pending : List HReq
  turn : List HReq
  turnNo : BitVec 16
  seq : BitVec 16
  active : Option Active
  handed : List HReq
  recounts : List Recount
  closed : List (Nat × Nat)
  forwards : List (Nat × Nat × Nat)
  moving : List Moving
  deriving DecidableEq, Repr
/-- A holder-predictor entry (R351). -/
structure Pred where
  tag : Nat
  mask : BitVec 128
  deriving DecidableEq, Repr
/-- A draining rectangle (R221). -/
structure Draining where
  grid : Nat
  cores : List Nat
  deriving DecidableEq, Repr
/-- A die (R11, R117, R228, R351, R352, R424, R425); `failed`, that the recovery logic has declared it so (R394);
`walked` the walks of units outside the cores that found no leaf, until the unit meets it: partition, page, outcome,
level (R228); `replays` the accesses that a replay doorbell has named, in the order in which they were parked (R229). -/
structure Die where
  partid : BitVec 16
  monthr : Word
  incarn : Byte
  known : SMap Byte
  down : List Nat
  upUntil : Option Nat
  failed : Bool
  stale : Word
  recounts : Word
  freq : Nat
  powerLimit : Nat
  ceiling : Nat
  tcache : List Trans
  walks : List Walk
  walked : List (BitVec 16 × Nat × Nat × Nat)
  parked : List Parked
  replays : List Waiter
  predictor : SMap Pred
  wcache : SMap (BitVec 512)
  draining : Option Draining
  alerts : BitVec 2
  hotMark : List Nat
  droopMark : List Nat
  procMon : SMap Word
  hbmTemp : SMap (BitVec 16)
  refresh2 : BitVec 2
  home : Home
  deriving DecidableEq, Repr
/-- A line's entry at a slice (R368). -/
structure LineEnt where
  count : Nat
  crown : Bool
  valid : Bool
  dirty : Bool
  serial : BitVec 4
  data : Line
  lru : Nat
  deriving DecidableEq, Repr
/-- The phases of a slice's request for a line (R373, R378, R379). -/
inductive RPhase | transient | reissued | blocked | persistent
  deriving DecidableEq, Repr
/-- A slice's outstanding request for a line, with the accesses that wait, in arrival order. -/
structure SliceReq where
  write : Bool
  phase : RPhase
  since : Nat
  waiters : List (Waiter × Bool)
  deriving DecidableEq, Repr
/-- A persistent-request table entry (R351, R381): `last` is the last sequence applied; `forwarded`, that
this slice has forwarded for a read activation, or as the requester has sent PDONE. -/
structure PEnt where
  on : Bool
  die : Nat
  slice : Nat
  write : Bool
  line : Nat
  turn : BitVec 16
  seq : BitVec 16
  last : Option (BitVec 16)
  forwarded : Bool
  deriving DecidableEq, Repr
/-- A recall-filter entry (R390). -/
structure RFilter where
  die : Nat
  line : Nat
  serial : BitVec 4
  til : Nat
  deriving DecidableEq, Repr
/-- The home's fields of a line (R215, R368), its poison, and how many of its symbols the HBM now reads wrong: 2 stands
for all that ECC cannot correct (R216). -/
structure Side where
  count : Nat
  crown : Bool
  serial : BitVec 4
  poison : Bool
  symErr : Nat
  deriving DecidableEq, Repr

/-! ## Ports, fabric -/

/-- The states of a port (R407). -/
inductive PSt | down | training | keying | up
  deriving DecidableEq, Repr
/-- What a port puts on its link (R403, R404, R406): frames with the messages whose flits they carry, acknowledgements and
retry requests by sequence number, and the two parts of a key exchange. -/
inductive Wire
  | frame (seq : BitVec 64) (msgs : List Flight)
  | ack (seq : BitVec 64)
  | retry (seq : BitVec 64)
  | key (pub cert : List Byte)
  | sign (sig : List Byte)
  deriving DecidableEq, Repr
/-- A Filwick port (R399 to R408): `part` counts the flits of the first queued message that have been framed, `wire` is
what the port has put on its link since the last tick (log 49); `fails` counts the consecutive tag failures of the frame
that is expected, `resends` those of the oldest frame not acknowledged; `ephem` is its ephemeral secret; `txSwitched` and
`rxSwitched` say which directions use the keys of a rekey that is under way. -/
structure Port where
  st : PSt
  containment : Bool
  tx : BitVec 64
  rx : BitVec 64
  acked : BitVec 64
  fails : Nat
  resends : Nat
  retry : List (BitVec 64 × List Flight)
  queue : List Flight
  part : Nat
  wire : List Wire
  ephem : Nat
  direct : List (BitVec 18)
  onward : List (BitVec 18)
  since : Nat
  ackSince : Nat
  rekeyAt : Option (BitVec 64)
  txKey : BitVec 288
  rxKey : BitVec 288
  nextTx : BitVec 288
  nextRx : BitVec 288
  txSwitched : Bool
  rxSwitched : Bool
  skipTo : Bool
  deriving DecidableEq, Repr
/-- The kinds of request that await an answer (R300, R293, R294, R296, R413, R453): `wput` is a packet
of WPUT or WRED, `wget` names the operation that its bytes go to, `lost` a multicast that gets no answer. -/
inductive ReqKind
  | wput (win : BitVec 16) (team : Nat) (bytes : Nat)
  | wget (win : BitVec 16) (team op : Nat) (bytes : Nat)
  | lzrsv (group ds sb : Nat)
  | lzsend (send : Nat) (bytes : Nat)
  | lzcancel (group sb : Nat)
  | lzabort (cause : Nat) (til : Nat)
  | mcast (win : BitVec 16) (team : Nat) (bytes : Nat) (ack : Nat) (members : List (Nat × BitVec 18 × BitVec 16))
      (lost : Bool)
  deriving DecidableEq, Repr
/-- A request that awaits an answer (R453). -/
structure Req where
  id : Nat
  kind : ReqKind
  core : Nat
  part : BitVec 16
  slot : Option SlotRef
  pkg : BitVec 18
  off : Nat
  since : Nat
  deriving DecidableEq, Repr
/-- An LZSEND in progress (R293, R294): its record's name, its packets that are not yet answered. -/
structure Send where
  id : Nat
  group : Nat
  team : Nat
  batch : Option Nat
  bar : Option Nat
  slot : SlotRef
  left : Nat
  err : Bool
  iaddr : Nat
  deriving DecidableEq, Repr
/-- An ATS request that awaits the host's answer (R227). -/
structure AtsReq where
  pasid : Nat
  addr : Nat
  waiter : Waiter
  deriving DecidableEq, Repr
/-- A cached ATS translation (R227, R418). -/
structure AtsEnt where
  pasid : Nat
  addr : Nat
  host : Option Nat
  deriving DecidableEq, Repr
/-- A partition-table entry (R344). -/
structure Part where
  partid : BitVec 16
  dies : BitVec 8
  pasid : BitVec 20
  root : PAddr
  idies : BitVec 128
  ranges : List (Nat × Nat × Nat)
  deriving DecidableEq, Repr
/-- An extent-map entry (R409). -/
structure Extent where
  grant : Grant
  revoking : Bool
  deriving DecidableEq, Repr
/-- A packet that has read its window's entry and waits for a translation (R347; log 24). -/
structure WinWait where
  flight : Flight
  entry : Nat
  deriving DecidableEq, Repr
/-- A multicast block at a member (R302, R412): who sends it, the member and its window, the addresses of its lines, or
none where the window refuses them, and the lines that are still to come. -/
structure McRecv where
  src : BitVec 18
  id : Nat
  member : Nat
  win : BitVec 16
  pas : Option (List (List Nat))
  left : List Nat
  since : Nat
  deriving DecidableEq, Repr
/-- What the end of an invalidation does: a TLBI's scoreboard falls (R327), a page migration goes on (R231), or the
package that asked for it is told. -/
inductive TlbiEnd
  | group (g sb : Nat)
  | page (die page : Nat)
  | reply (die id : Nat)
  deriving DecidableEq, Repr
/-- An invalidation in progress (R327, R231): the walks that began before it, and the island positions of the packages
that have still to answer, last asked at `sent`. -/
structure Tlbi where
  id : Nat
  part : BitVec 16
  va : Option Nat
  moved : Option (Nat × Nat)
  fin : TlbiEnd
  walks : List (Nat × Walk)
  acks : List Nat
  sent : Nat
  deriving DecidableEq, Repr

/-! ## Package registers -/

/-- Boot progress (R420). -/
structure Boot where
  step : Nat
  code : Nat
  ready : Bool
  failed : Bool
  bifurcated : Bool
  map : Option UnitMap
  measures : SMap (BitVec 384)
  deriving DecidableEq, Repr
/-- Serial flash (R420, R421). -/
structure Flash where
  mapA : List Byte
  mapB : List Byte
  curB : Bool
  floor : Nat
  image : List Byte
  deriving DecidableEq, Repr
/-- The unit-map update registers (R421). -/
structure Umc where
  umlen : Word
  umstat : Nat
  umbuf : SMap Byte
  deriving DecidableEq, Repr
/-- What the SPDM responder has negotiated (R8, R422). -/
structure Spdm where
  version : Nat
  caps : Bool
  algs : Bool
  deriving DecidableEq, Repr
/-- The enumeration table (R14); the rest of it follows under R15 and R19. -/
structure Enum where
  published : Bool
  grade : Byte
  coremask : List (BitVec 32)
  links : BitVec 10
  stackMask : List (BitVec 2)
  sliceMask : List (BitVec 16)
  pkgid : BitVec 18
  pkgValid : Bool
  islpos : Nat
  islsize : Nat
  deriving DecidableEq, Repr
/-- A latched record of the snapshot map (R423). -/
structure SnapBlk where
  btype : Nat
  die : Nat
  index : Nat
  length : Nat
  bits : Nat
  deriving DecidableEq, Repr
/-- The last completion returned to the host (R416, R420, R422). -/
inductive HostReply
  | none
  | value (v : DWord)
  | unsupported
  | retryStatus
  | bytes (b : List Byte)
  | spdm (code : Nat) (body : List Nat)
  deriving DecidableEq, Repr
/-- A function's DOE mailbox (R8, R415): the words of the data object written so far, whether it has been handed over, and
the words still to be read of the answer. -/
structure Doe where
  inp : List Word
  busy : Bool
  out : List Word
  deriving DecidableEq, Repr
def Doe.idle : Doe := ⟨[], false, []⟩
/-- Package registers and BAR0 registers (R117, R319, R329, R416, R417, R423, R425). Of each function (R415): `cfg`, the
writable bits of its configuration space, `msixTab` its MSI-X table by words, `msixPend` its pending vectors, `msixSent` how many
messages went out on a vector, `doe` its mailbox; `msixLast` is the last MSI-X message with its function: address and data. -/
structure Sys where
  wqbase : SMap DWord
  snapctl : Word
  snapstat : Word
  sntag : Word
  snapMap : List SnapBlk
  fqbase : DWord
  fqhead : Word
  fqtail : Word
  fqlost : Word
  srbase : DWord
  srlog2 : Nat
  srhead : Word
  srtail : Word
  rpbase : DWord
  wtbase : DWord
  mgbase : DWord
  cmdBuf : SMap Byte
  cmdStatus : SMap Nat
  pwrcap : Nat
  pwrnow : Nat
  msixTab : SMap Word
  msixPend : List Nat
  msixSent : SMap Nat
  msixLast : Option (Nat × DWord × Word)
  doe : SMap Doe
  cfg : SMap Word
  hostReply : HostReply
  deriving DecidableEq, Repr

/-- What a particle or a fault in the silicon changes (R119, R122, R211), n symbols of a line of HBM among it (R216), and
a die that the package's recovery logic declares failed (R394). -/
inductive Upset
  | v (group key : Nat) (e : Ecc)
  | s (group key : Nat) (e : Ecc)
  | latch (track key : Nat)
  | tile (core tile key : Nat) (e : Ecc)
  | rank (core tile key : Nat) (e : Ecc)
  | parity (group : Nat)
  | die (die : Nat)
  | hbm (line n : Nat)
  deriving DecidableEq, Repr
/-- A move of the schedule and of the environment (model, log 3). -/
inductive Move
  | event (i : Instr) (n : Nat)
  | run (track : Nat)
  | elapse (n : Nat)
  | hostWrite (addr : Nat) (bytes : List Byte)
  | poolWrite (addr : Nat) (bytes : List Byte)
  | poolAck
  | barRead (bar off size : Nat)
  | configWrite (fn off : Nat) (w : Word)
  | msixWrite (fn idx : Nat) (w : Word)
  | msixRead (fn idx : Nat)
  | upset (u : Upset)
  | firmwareGrid (rec : BitVec 512)
  deriving DecidableEq, Repr

/-- The machine: one P8 package with the host memory and the pool memory it reaches (log 2).
`atsOld` are the host translations that an invalidation has dropped while accesses may use them (R418), `oldParts` the
entries that a repartition has replaced, until no request sent under them is left (R345), `accepted` the port and contents
of the assignment (R408), `migPage` the page whose migration this package has asked of another (R231), `devStores` the device's own stores to lines
whose tokens it awaits: address, and bytes with the mask of their bits, `devErrs` lines that it was to read, with the
errors that were answered (R226, R227, R369; log 14); `errAt` is none but within a step. -/
structure State where
  agenda : List Move
  focus : Option Nat
  pick : Nat
  freeCtr : Nat
  now : Nat
  nextId : Nat
  tripped : Bool
  boot : Boot
  flash : Flash
  umc : Umc
  spdm : Spdm
  enum : Enum
  linkDown : List Nat
  sys : Sys
  depctr : SMap (BitVec 16)
  parts : SMap Part
  extents : SMap Extent
  atsCache : List AtsEnt
  atsOld : List AtsEnt
  atsPending : List AtsReq
  dies : SMap Die
  cores : SMap Core
  tracks : SMap Track
  groups : SMap Group
  teams : SMap Team
  grids : SMap Grid
  rr : SMap Nat
  tickets : SMap Nat
  svcWait : List Nat
  lines : SMap LineEnt
  sreqs : SMap SliceReq
  ptab : SMap PEnt
  filters : List RFilter
  side : SMap Side
  mem : List Host.Cell
  hostMem : List Host.Cell
  poolMem : List Host.Cell
  hostPosted : List (Nat × Nat)
  nodePosted : List (Nat × Nat × Nat)
  net : List Flight
  egress : List Flight
  winWait : List WinWait
  mcRecvs : List McRecv
  reqs : List Req
  sends : List Send
  ports : SMap Port
  fqPend : List (Nat × FaultRec)
  tlbis : List Tlbi
  errAt : Option (Nat × Nat × Nat)
  oldParts : List (Part × Nat)
  accepted : Option (Nat × Assign)
  migPage : Option Nat
  devStores : List (Nat × List (Byte × Byte))
  devErrs : List (Nat × Nat)
  deriving DecidableEq, Repr

/-- Why the machine stops. -/
inductive Fault
  /-- Raised by a meaning that finds no record of a group, team, core or die that another record
  names: no state that a run reaches. Safe: the machine stops where the hardware goes on. -/
  | dangling (what : String)
  deriving DecidableEq, Repr

/-- Why there is no step. -/
inductive Refusal
  /-- An arm of `exec` that has no meaning yet. Safe. -/
  | notModelled (mnemonic : String)
  /-- Raised by the meaning of an event that cannot occur in this state (its enabling condition in
  the spec does not hold), or of an instruction when no track executes a clause: the schedule asked
  for what the part does not do. Safe: nothing happens (log 12). -/
  | notEnabled (what : String)
  deriving DecidableEq, Repr

/-! ## The state right after a power-on reset -/

/-- An empty home controller. -/
def Home.empty : Home :=
  ⟨[], [], 0, 0, none, [], [], [], [], []⟩
/-- A die at reset: MONTHR of R117, clocks of R425, everything else empty or 0. -/
def Die.reset : Die :=
  { partid := 0, monthr := 0x0864#32, incarn := 0, known := [], down := [], upUntil := none, failed := false,
    stale := 0, recounts := 0, freq := 1800, powerLimit := 1800, ceiling := 1800, tcache := [],
    walks := [], walked := [], parked := [], replays := [], predictor := [], wcache := [], draining := none,
    alerts := 0, hotMark := [], droopMark := [], procMon := [], hbmTemp := [], refresh2 := 0,
    home := Home.empty }
/-- A core at reset (R117, R213, R277, R340, R352). -/
def Core.reset : Core :=
  { carve := 0, carving := none, replay := 0, rfce := 0, rfue := 0, cycle := 0, drops := 0,
    scratch := [], fifo := [], fifoq := [], cache := [], icache := [], tlb := [], wtb := [],
    adcache := [], adfills := [], zones := [], slots := [], slotWaits := [], fwds := [],
    copyq := [], copyOps := [], tiles := [], matUnit := [], temp := 0, hot := false,
    droops := [], avoided := none, coll := none }
/-- A track that holds no group (R31, R43). The spec does not say where the round-robin of R44 starts: `last` is 0, so
slot 0, entry 0 comes last at the first choice (DESIGN CHOICE, log 52). -/
def Track.reset : Track :=
  { slots := [], latches := [], run := none, last := 0, clauses := 0, steps := 0,
    hdr := 0, ready := [] }
/-- A port before rack management restarts it: Down (R407); the spec gives no other field a value before an assignment
(R408) and a key exchange (R406): DESIGN CHOICE, log 10. -/
def Port.reset : Port :=
  { st := .down, containment := true, tx := 0, rx := 0, acked := 0, fails := 0, resends := 0,
    retry := [], queue := [], part := 0, wire := [], ephem := 0, direct := [], onward := [], since := 0, ackSince := 0, rekeyAt := none,
    txKey := 0, rxKey := 0, nextTx := 0, nextRx := 0, txSwitched := false, rxSwitched := false,
    skipTo := false }
/-- Package registers at reset (R117, R329, R425). -/
def Sys.reset : Sys :=
  { wqbase := [], snapctl := 0, snapstat := 0, sntag := 0, snapMap := [], fqbase := 0, fqhead := 0,
    fqtail := 0, fqlost := 0, srbase := 0, srlog2 := 6, srhead := 0, srtail := 0, rpbase := 0,
    wtbase := 0, mgbase := 0, cmdBuf := [], cmdStatus := [], pwrcap := 3200, pwrnow := 0,
    msixTab := [], msixPend := [], msixSent := [], msixLast := none, doe := [], cfg := [], hostReply := .none }
/-- The boot sequence before its first step (R420). -/
def Boot.start : Boot :=
  { step := 1, code := 0, ready := false, failed := false, bifurcated := false, map := none,
    measures := [] }
/-- The enumeration table before it is built, with the fields of R22 cleared. -/
def Enum.reset : Enum :=
  { published := false, grade := 0, coremask := [], links := 0, stackMask := [], sliceMask := [],
    pkgid := 0, pkgValid := false, islpos := 0, islsize := 1 }

/-- The machine after a reset, with serial flash as it stands (R420). -/
def State.fresh (fl : Flash) : State :=
  { agenda := [], focus := none, pick := 0, freeCtr := 0, now := 0, nextId := 1, tripped := false,
    boot := Boot.start, flash := fl, umc := ⟨0, 0, []⟩, spdm := ⟨0, false, false⟩,
    enum := Enum.reset, linkDown := [], sys := Sys.reset, depctr := [], parts := [],
    extents := [], atsCache := [], atsOld := [], atsPending := [],
    dies := [], cores := [], tracks := [], groups := [], teams := [], grids := [], rr := [],
    tickets := [], svcWait := [], lines := [], sreqs := [], ptab := [], filters := [],
    side := [], mem := [], hostMem := [], poolMem := [], hostPosted := [], nodePosted := [], net := [], egress := [],
    winWait := [], mcRecvs := [], reqs := [], sends := [], ports := [], fqPend := [], tlbis := [], errAt := none, oldParts := [],
    accepted := none, migPage := none, devStores := [], devErrs := [] }

/-- The machine right after a power-on reset: flash as shipped is not in the spec (log 9). -/
def State.reset : State :=
  State.fresh ⟨[], [], false, 0, []⟩

end Sys2Proof.Machine
end

