-- ==== Sys2Proof/Machine/Sparse.lean ====
section
/-! DEFINITION. Sparse tables and byte memories in canonical form (keys strictly rising, nothing listed
that an unlisted key reads as), and the little-endian reading of bytes (R4). -/

namespace Sys2Proof.Machine

variable {β : Type}

/-- The entry at a key, if listed. -/
def find (k : Nat) : SMap β → Option β
  | [] => none
  | (j, x) :: m => if j = k then some x else find k m
/-- The entry at a key; `d` where none is listed. -/
def look (d : β) (k : Nat) (m : SMap β) : β := (find k m).getD d
/-- Takes a key out. -/
def del (k : Nat) : SMap β → SMap β
  | [] => []
  | (j, x) :: m => if j = k then del k m else (j, x) :: del k m
/-- Lists an entry at a key, in place of the one listed there. -/
def ins (k : Nat) (v : β) : SMap β → SMap β
  | [] => [(k, v)]
  | (j, x) :: m =>
    if j < k then (j, x) :: ins k v m else if j = k then (k, v) :: m else (k, v) :: (j, x) :: m
/-- Writes a key of a table whose unlisted keys read `d`. -/
def put [DecidableEq β] (d : β) (k : Nat) (v : β) (m : SMap β) : SMap β :=
  if v = d then del k m else ins k v m
/-- The keys of a table rise strictly. -/
def rising : SMap β → Bool
  | [] => true
  | [_] => true
  | (i, _) :: (j, y) :: m => decide (i < j) && rising ((j, y) :: m)
/-- The canonical form of a table whose unlisted keys read `d`. -/
def canon [DecidableEq β] (d : β) (m : SMap β) : Bool := rising m && m.all fun e => decide (e.2 ≠ d)
/-- Applies a function to one entry of a table without default. -/
def upd (k : Nat) (f : β → β) (m : SMap β) : SMap β :=
  match find k m with
  | some x => ins k (f x) m
  | none => m

/-- What a byte of memory that nothing has written reads as (log 1). -/
def unlisted : Byte := 0
/-- The canonical form of a memory. -/
def Memory.wf (m : List Host.Cell) : Bool := canon unlisted m
/-- One byte of a memory. -/
def rdByte (m : List Host.Cell) (a : Nat) : Byte := look unlisted a m
/-- Writes one byte of a memory. -/
def wrByte (m : List Host.Cell) (a : Nat) (v : Byte) : List Host.Cell := put unlisted a v m
/-- n bytes from an address up. -/
def rdBytes (m : List Host.Cell) (a : Nat) : Nat → List Byte
  | 0 => []
  | n + 1 => rdByte m a :: rdBytes m (a + 1) n
/-- Writes bytes from an address up. -/
def wrBytes (m : List Host.Cell) (a : Nat) : List Byte → List Host.Cell
  | [] => m
  | b :: bs => wrBytes (wrByte m a b) (a + 1) bs

/-- The number that bytes hold, little-endian (R4). -/
def leNat : List Byte → Nat
  | [] => 0
  | b :: bs => b.toNat + 256 * leNat bs
/-- The n low bytes of a number, little-endian (R4). -/
def leBytes : Nat → Nat → List Byte
  | 0, _ => []
  | n + 1, x => BitVec.ofNat 8 x :: leBytes n (x / 256)
/-- A word's bytes. -/
def wordBytes (w : Word) : List Byte := leBytes 4 w.toNat
/-- Bytes as words, four to a word. -/
def bytesWords : Nat → List Byte → List Word
  | 0, _ => []
  | n + 1, bs => BitVec.ofNat 32 (leNat (bs.take 4)) :: bytesWords n (bs.drop 4)
/-- A field of a number: n bits from bit lo. -/
def fld (x lo n : Nat) : Nat := x / 2 ^ lo % 2 ^ n
/-- The signed value of an n-bit field. -/
def sgn (x n : Nat) : Int := if x < 2 ^ (n - 1) then (x : Int) else (x : Int) - 2 ^ n
/-- Byte i of a line (R4). -/
def lineByte (l : Line) (i : Nat) : Byte := l.extractLsb' (8 * i) 8
/-- A line with byte i replaced. -/
def setLineByte (l : Line) (i : Nat) (b : Byte) : Line :=
  BitVec.ofNat 1024 (l.toNat - (lineByte l i).toNat * 2 ^ (8 * i) + b.toNat * 2 ^ (8 * i))
/-- A line with bytes from i up replaced. -/
def setLineBytes (l : Line) (i : Nat) : List Byte → Line
  | [] => l
  | b :: bs => setLineBytes (setLineByte l i b) (i + 1) bs
/-- The bytes of a line from i up. -/
def lineBytes (l : Line) (i : Nat) : Nat → List Byte
  | 0 => []
  | n + 1 => lineByte l i :: lineBytes l (i + 1) n
/-- Bytes as a line. -/
def bytesLine (bs : List Byte) : Line := BitVec.ofNat 1024 (leNat bs)

/-- The lanes whose bits are set, ascending (R6). -/
def lanesOf (m : Mask) : List Nat := (List.range 32).filter fun i => m.getLsbD i
/-- The mask of a list of lanes. -/
def maskOf : List Nat → Mask
  | [] => 0
  | i :: l => maskOf l ||| (1#32 <<< i)
/-- The lanes below n. -/
def below (n : Nat) : Mask := BitVec.ofNat 32 (2 ^ n - 1)
/-- The first entry of a list that a test accepts, with its position. -/
def firstIdx {α : Type} (p : α → Bool) : List α → Option Nat
  | [] => none
  | x :: l => if p x then some 0 else (firstIdx p l).map (· + 1)
/-- A list with entry n replaced. -/
def setNth {α : Type} (n : Nat) (v : α) : List α → List α
  | [] => []
  | x :: l => match n with
    | 0 => v :: l
    | m + 1 => x :: setNth m v l
/-- A list with entry n taken out. -/
def dropNth {α : Type} : Nat → List α → List α
  | _, [] => []
  | 0, _ :: l => l
  | n + 1, x :: l => x :: dropNth n l
/-- A list with entry n changed. -/
def updNth {α : Type} (n : Nat) (f : α → α) : List α → List α
  | [] => []
  | x :: l => match n with
    | 0 => f x :: l
    | m + 1 => x :: updNth m f l

end Sys2Proof.Machine
end

