-- ==== Sys2Proof/Machine/Parts.lean ====
section
/-! DEFINITION. The parts of the machine: accessors, names, free values, the lowest operations. -/

namespace Sys2Proof.Machine

/-- What a meaning answers. -/
abbrev Out := Host.Outcome State Fault Refusal
/-- An event that the state does not enable (log 12). -/
def off (what : String) : Out := .refused (.notEnabled what)
/-- A host access to a register that is decoded once the device is ready (R420). -/
def onReady (s : State) (what : String) (k : Out) : Out := if s.boot.ready then k else off what

/-! ## Parts of the machine -/

def State.die (s : State) (d : Nat) : Die := look Die.reset d s.dies
def State.setDie (s : State) (d : Nat) (x : Die) : State := { s with dies := put Die.reset d x s.dies }
def State.core (s : State) (c : Nat) : Core := look Core.reset c s.cores
def State.setCore (s : State) (c : Nat) (x : Core) : State :=
  { s with cores := put Core.reset c x s.cores }
def State.track (s : State) (t : Nat) : Track := look Track.reset t s.tracks
def State.setTrack (s : State) (t : Nat) (x : Track) : State :=
  { s with tracks := put Track.reset t x s.tracks }
def State.port (s : State) (p : Nat) : Port := look Port.reset p s.ports
def State.setPort (s : State) (p : Nat) (x : Port) : State :=
  { s with ports := put Port.reset p x s.ports }
def State.group (s : State) (g : Nat) : Option Group := find g s.groups
def State.setGroup (s : State) (g : Nat) (x : Group) : State := { s with groups := ins g x s.groups }
def State.team (s : State) (k : Nat) : Option Team := find k s.teams
def State.setTeam (s : State) (k : Nat) (x : Team) : State := { s with teams := ins k x s.teams }
def State.grid (s : State) (k : Nat) : Option Grid := find k s.grids
def State.setGrid (s : State) (k : Nat) (x : Grid) : State := { s with grids := ins k x s.grids }
def State.updGroup (s : State) (g : Nat) (f : Group → Group) : State :=
  { s with groups := upd g f s.groups }
def State.updTeam (s : State) (g : Nat) (f : Team → Team) : State := { s with teams := upd g f s.teams }
def State.updGrid (s : State) (g : Nat) (f : Grid → Grid) : State := { s with grids := upd g f s.grids }
def State.updCore (s : State) (c : Nat) (f : Core → Core) : State := s.setCore c (f (s.core c))
def State.updDie (s : State) (d : Nat) (f : Die → Die) : State := s.setDie d (f (s.die d))
def State.updTrack (s : State) (t : Nat) (f : Track → Track) : State := s.setTrack t (f (s.track t))
def State.updPort (s : State) (t : Nat) (f : Port → Port) : State := s.setPort t (f (s.port t))

/-- The die of a global logical core, and of a track (R15). -/
def dieOf (c : Nat) : Nat := c / 24
def coreOf (t : Nat) : Nat := t / 128
/-- The number of set bits. -/
def popc {n : Nat} (x : BitVec n) : Nat := ((List.range n).filter fun i => x.getLsbD i).length
/-- Live cores of a die (R14, R15). -/
def State.ncore (s : State) (d : Nat) : Nat := popc (s.enum.coremask.getD d 0)
/-- A global core number that the module has (R15). -/
def State.liveCore (s : State) (c : Nat) : Bool :=
  decide (c < 192) && decide (c % 24 < s.ncore (dieOf c))
/-- The live cores of the package, ascending. -/
def State.liveCores (s : State) : List Nat := (List.range 192).filter s.liveCore
/-- Physical position of a logical core on its die (R15); 255 if absent. -/
def State.position (s : State) (c : Nat) : Nat :=
  let m := s.enum.coremask.getD (dieOf c) 0
  (((List.range 25).filter fun p => m.getLsbD p)[c % 24]?).getD 255
/-- %pkg (R22, R115). -/
def State.pkg (s : State) : BitVec 18 := if s.enum.pkgValid then s.enum.pkgid else 0
/-- The island die number of a die of this package (R21). -/
def State.islDie (s : State) (d : Nat) : Nat := 8 * s.enum.islpos + d
/-- The die of this package that bears an island die number. -/
def State.ownDie (s : State) (i : Nat) : Option Nat :=
  if i / 8 = s.enum.islpos then some (i % 8) else none
/-- A value that the spec leaves free, and the state that has used it (log 5). -/
def State.draw (s : State) : Nat × State := (Config.free s.freeCtr, { s with freeCtr := s.freeCtr + 1 })
/-- A fresh name for a group, a team or a request. -/
def State.name (s : State) : Nat × State := (s.nextId, { s with nextId := s.nextId + 1 })
/-- The functions that the port presents: two when it is bifurcated (R415). -/
def State.functions (s : State) : Nat := if s.boot.ready && s.boot.bifurcated then 2 else 1
/-- Where a word of a function's configuration space is kept. -/
def cfgKey (fn ofs : Nat) : Nat := 1024 * fn + ofs / 4
/-- The writable bits of a word of a function's configuration space, as they were last written. -/
def State.cfgSet (s : State) (fn ofs : Nat) : Word := look 0 (cfgKey fn ofs) s.sys.cfg
/-- A word of a function's MSI-X table: address, upper address, data and control of vector 0, and so on. Every vector is masked
at reset, as PCI Express has it (log 61). -/
def State.msixWord (s : State) (fn i : Nat) : Word :=
  look (if i % 4 = 3 then 1#32 else 0) (16 * fn + i) s.sys.msixTab
/-- A vector is held back by the function's mask or its own. -/
def State.msixMasked (s : State) (fn v : Nat) : Bool :=
  (s.cfgSet fn 0x80).getLsbD 30 || (s.msixWord fn (4 * v + 3)).getLsbD 0
/-- A function sends an MSI-X message: with MSI-X not enabled nothing, and what is masked is pending (R415). -/
def State.msixOne (s : State) (v fn : Nat) : State :=
  if !(s.cfgSet fn 0x80).getLsbD 31 then s
  else if s.msixMasked fn v then
    { s with sys := { s.sys with msixPend := if s.sys.msixPend.contains (4 * fn + v) then s.sys.msixPend
      else s.sys.msixPend ++ [4 * fn + v] } }
  else { s with sys := { s.sys with
    msixPend := s.sys.msixPend.filter (· != 4 * fn + v)
    msixSent := put 0 (4 * fn + v) (look 0 (4 * fn + v) s.sys.msixSent + 1) s.sys.msixSent
    msixLast := some (fn, (s.msixWord fn (4 * v + 1)) ++ (s.msixWord fn (4 * v)), s.msixWord fn (4 * v + 2)) } }
/-- Sends an MSI-X message on a vector (R418), from each function (log 61). -/
def State.msix (s : State) (v : Nat) : State := (List.range s.functions).foldl (fun s fn => s.msixOne v fn) s
/-- The pending messages of a function that nothing masks any more. -/
def State.msixRelease (s : State) (fn : Nat) : State :=
  ((List.range 4).filter fun v => s.sys.msixPend.contains (4 * fn + v)).foldl (fun s v => s.msixOne v fn) s
def satInc (w : Word) : Word := if w = BitVec.allOnes 32 then w else w + 1

/-- The die of a Filwick port (R399). -/
def portDie (p : Nat) : Nat :=
  if p < 4 then 0 else if p < 9 then 1 else if p < 14 then 2 else if p < 18 then 3
  else if p < 22 then 4 else if p < 27 then 5 else if p < 32 then 6 else 7
/-- The key of a line's entry on a die: one entry per die and line (R368). -/
def lineKey (d line : Nat) : Nat := d * 2 ^ 45 + line
/-- The slice of a line (R224). -/
def sliceOf (line : Nat) : Nat :=
  (fld line 0 4) ^^^ (fld line 4 4) ^^^ (fld line 8 4) ^^^ (fld line 12 4)
/-- A record with every field zero but its kind. -/
def FaultRec.blank (kind : Nat) : FaultRec :=
  ⟨kind, 0, 0, 0, 0, 0, 0xFF, 0, 0, 0, 0, 0, 0, 0, 0⟩
/-- SRC of a unit outside the cores, and CYCLE of its die's lowest live core (R320). -/
def State.dieRec (s : State) (kind die : Nat) : FaultRec :=
  { FaultRec.blank kind with src := die + 31 * 8, cycle := (s.core (24 * die)).cycle.toNat % 2 ^ 32 }

end Sys2Proof.Machine
end

