-- ==== Sys2Proof/Machine/Fabric.lean ====
section
/-! DEFINITION. Homes of lines, destination sets, and sending a message: over the die's mesh and links,
or out through a Filwick port chosen under R400 (R371, R396, R399 to R404, R453). -/

namespace Sys2Proof.Machine

/-! ## Lines -/

/-- Bytes of HBM that each die owns (R215). -/
def dieBytes : Nat := 0x1800000000
/-- The extent-map entry of a pool address (R214, R409). -/
def State.extentOf (s : State) (pa : Nat) : Option Extent :=
  if pa / 2 ^ 48 = 2 then find (fld pa 36 12) s.extents else none
/-- The island die whose home controller runs a line: HBM (R215), or a participating extent (R397). -/
def State.lineHome (s : State) (line : Nat) : Option Nat :=
  let pa := line * 128
  if pa / 2 ^ 48 = 0 then some (8 * fld pa 40 4 + fld pa 0 40 / dieBytes)
  else match s.extentOf pa with
    | some e => if e.grant.participating then some e.grant.homedie else none
    | none => none
/-- A line under the token protocol: island HBM and participating extents (R244). -/
def State.tokenLine (s : State) (line : Nat) : Bool := (s.lineHome line).isSome
/-- The holder that is the line's home: a die for HBM, the pool node for an extent (R397). -/
def State.homeDest (s : State) (line : Nat) : Option Dest :=
  match s.extentOf (line * 128) with
  | some e => if e.grant.participating then some (.node e.grant.node) else none
  | none => (s.lineHome line).map .die
/-- The home's fields of a line as boot writes them (R215): every token at home, serial 0, no poison. -/
def Side.fresh : Side := ⟨256, true, 0, false, 0⟩
def State.sideOf (s : State) (line : Nat) : Side := look Side.fresh line s.side
def State.setSide (s : State) (line : Nat) (x : Side) : State :=
  { s with side := put Side.fresh line x s.side }
/-- The stack of its die that holds a line (R215): bit 7 xor bit 15 xor bit 23 of the address. -/
def stackOf (line : Nat) : Nat := (fld line 0 1 + fld line 8 1 + fld line 16 1) % 2
/-- A line whose home cannot read it: poisoned, or with more wrong symbols than ECC corrects (R216). -/
def Side.bad (x : Side) : Bool := x.poison || decide (2 ≤ x.symErr)
/-- A valid partition-table entry (R344). -/
def State.part (s : State) (pid : BitVec 16) : Option Part :=
  (s.parts.find? fun e => e.2.partid = pid).map (·.2)
/-- The partition whose HBM ranges hold an address (R217, R344). -/
def Part.holds (p : Part) (pa : Nat) : Bool :=
  p.ranges.any fun r => decide (r.1 = fld pa 40 4) && decide (r.2.1 * 2 ^ 30 ≤ fld pa 0 40) &&
    decide (fld pa 0 40 < (r.2.1 + r.2.2) * 2 ^ 30)
/-- The partition that owns a line (R388). -/
def State.linePart (s : State) (line : Nat) : Option Part :=
  match s.extentOf (line * 128) with
  | some e => s.part e.grant.part
  | none => (s.parts.find? fun e => e.2.holds (line * 128)).map (·.2)
/-- The island dies of the partition that owns a line, with the line's home die: the egress mask of
R396. -/
def State.egressMask (s : State) (line : Nat) : List Nat :=
  let part := match s.linePart line with
    | some p => (List.range 128).filter fun d => p.idies.getLsbD d
    | none => []
  match s.lineHome line with
  | some h => if part.contains h then part else part ++ [h]
  | none => part
/-- The dies of the partitions that owned a line before a repartition, while requests sent under them may be in the
fabric (R345). -/
def State.oldMask (s : State) (line : Nat) : List Nat :=
  let mine (p : Part) : Bool := match s.extentOf (line * 128) with
    | some e => p.partid == e.grant.part
    | none => p.holds (line * 128)
  ((s.oldParts.filter fun p => decide (s.now < p.2) && mine p.1).flatMap fun p =>
    (List.range 128).filter fun d => p.1.idies.getLsbD d).eraseDups
/-- The recall set of a line (R388), as the home on a die sees it. -/
def State.recallSet (s : State) (home line : Nat) : List Nat :=
  (s.egressMask line).filter fun d => !((s.die home).down.contains d)
/-- The dies to which the home sends what concerns a request of a die: the recall set, and for a requester that is of it no
more, whose request is served under the old masks, the dies of these too (R345). -/
def State.serveSet (s : State) (home line req : Nat) : List Nat :=
  let mask := s.egressMask line
  if mask.contains req || !(s.oldMask line).contains req then s.recallSet home line
  else s.recallSet home line ++ (s.oldMask line).filter fun d => !mask.contains d && !(s.die home).down.contains d

/-! ## Ports -/

/-- Flits of a message: a header and its data (R403). -/
def flits (m : Msg) : Nat :=
  match m with
  | .tok _ p => if p.data.isSome then 3 else 1
  | .putt _ p => if p.data.isSome then 3 else 1
  | .rack _ p => if p.data.isSome then 3 else 1
  | .lzPacket _ _ _ d _ => 1 + (d.length + 63) / 64
  | .winPut _ _ _ _ d => 1 + (d.foldl (fun n x => n + x.2.length) 0 + 63) / 64
  | .winRed _ _ _ _ ty _ d => 1 + ((if ty = .i32 then 6 else 4) * d.length + 63) / 64
  | .winAck _ _ d => 1 + (d.length + 63) / 64
  | .mcSet .. | .mcLine .. => 3
  | .migPage _ l => 1 + 3 * l.length
  | .migReqs _ l => 1 + (8 * l.length + 63) / 64
  | _ => 1
/-- The flits that a port has still to frame. -/
def Port.queued (p : Port) : Nat := p.queue.foldl (fun n f => n + flits f.msg) 0 - p.part
/-- The next frame to send is the one at which a rekey takes effect (R406, R407): its key is installed, and
its number counts from 0. -/
def Port.turnTx (p : Port) : Port :=
  if p.rekeyAt = some p.tx ∧ !p.txSwitched then
    { p with
      tx := 0, txKey := p.nextTx, txSwitched := true
      rekeyAt := if p.rxSwitched then none else p.rekeyAt }
  else p
/-- Fills a frame with flits of the queue, `part` of its first message framed before: the messages in the frame, what
stays queued, and how many flits of its first message are framed (R403). A message may go on in the next frame. -/
def fillFrame (room part : Nat) : List Flight → List Flight × List Flight × Nat
  | [] => ([], [], 0)
  | f :: l =>
    let left := flits f.msg - part
    if room = 0 then ([], f :: l, part)
    else if left ≤ room then
      let (a, q, n) := fillFrame (room - left) 0 l
      (f :: a, q, n)
    else ([f], f :: l, part + room)
/-- The age of a message (R371), in ticks of 10 ns. -/
def Flight.age (f : Flight) (now : Nat) : Nat := f.aged + (now - f.since)
/-- 2 ms, the age at which a message is destroyed (R372). -/
def maxAge : Nat := 200000
/-- Messages of a port that have come to an age of 2 ms are destroyed, but for one of which flits have gone out (R402;
log 49). -/
def Port.fresh (p : Port) (now : Nat) : Port :=
  let begun := if p.part = 0 then 0 else 1
  { p with queue := p.queue.take begun ++ (p.queue.drop begun).filter fun f => decide (Flight.age f now < maxAge) }
/-- Puts the next frame of five flits, the last of them idle if the queue ends, on the link and into the retry buffer
(R403, R404); none goes out under sequence number 2^32 (R406). -/
def Port.frame (now : Nat) (p0 : Port) : Port :=
  let p := p0.turnTx.fresh now
  if p.st = .up ∧ !p.queue.isEmpty ∧ p.tx.toNat < 2 ^ 32 then
    let (ms, q, n) := fillFrame 5 p.part p.queue
    { p with
      queue := q, part := n, retry := p.retry ++ [(p.tx, ms)], tx := p.tx + 1
      wire := p.wire ++ [.frame p.tx ms], ackSince := if p.retry.isEmpty then now else p.ackSince }
  else p
/-- Puts a message into a port's queue. -/
def State.enqueue (s : State) (p : Nat) (f : Flight) : State :=
  s.updPort p fun k => { k with queue := k.queue ++ [f] }
/-- The port of R400 for a set of candidates: ports of the sending die, then the fewest queued flits,
then the lowest number. -/
def State.bestPort (s : State) (die : Nat) (cands : List Nat) : Option Nat :=
  let own := cands.filter fun p => portDie p = die
  let c := if own.isEmpty then cands else own
  c.foldl (fun best p => match best with
    | none => some p
    | some q => if (s.port p).queued < (s.port q).queued then some p else some q) none
/-- The ports in state Up that lead to a package: directly if any does (R400), or else onward. -/
def State.portsTo (s : State) (pkg : BitVec 18) : List Nat :=
  let up := (List.range 36).filter fun p => (s.port p).st = .up
  let direct := up.filter fun p => (s.port p).direct.contains pkg
  if direct.isEmpty then up.filter fun p => (s.port p).onward.contains pkg else direct
/-- Ports that lead to a destination outside the package. -/
def State.portsFor (s : State) (d : Dest) : List Nat :=
  match d with
  | .die i => s.portsTo (Config.islandPkg (i / 8))
  | .pkg p => s.portsTo p
  | .node n =>
    let up := (List.range 36).filter fun p => (s.port p).st = .up
    let att := up.filter fun p => Config.portNode p = n
    if att.isEmpty then up else att
/-- Whether a destination lies in this package. -/
def State.within (s : State) (d : Dest) : Bool :=
  match d with
  | .die i => (s.ownDie i).isSome
  | .pkg p => p = s.pkg
  | .node _ => false
/-- Sends a flight onward from a die: inside the package, out through a port, or to the egress to wait
for one (R400, R453). Until the package is assigned its ports carry nothing (R408). -/
def State.route (s : State) (die : Nat) (f : Flight) : State :=
  if s.within f.dest then { s with net := s.net ++ [f] }
  else if !s.enum.pkgValid then s
  else match s.bestPort die (s.portsFor f.dest) with
    | some p => s.enqueue p f
    | none => { s with egress := s.egress ++ [f] }
/-- Dvoros messages (R371), the error response among them (log 31). -/
def dvoros : Msg → Bool
  | .gets .. | .getx .. | .tok .. | .putt .. | .preq .. | .pact .. | .pdone .. | .pdeact .. | .loss ..
  | .recall .. | .rack .. | .down .. | .up .. | .err .. => true
  | _ => false
/-- Creates and sends a message from a die (R371). A die that has failed takes no part in the protocol (R394). -/
def State.post (s : State) (die : Nat) (dest : Dest) (m : Msg) : State :=
  if (s.die die).failed && dvoros m then s
  else s.route die ⟨m, s.islDie die, (s.die die).incarn, dest, 0, s.now, false⟩
def State.postAll (s : State) (die : Nat) (dests : List Nat) (m : Msg) : State :=
  dests.foldl (fun s d => s.post die (.die d) m) s
/-- Whether a message is destroyed at an age of 2 ms: Dvoros messages, and all that leave a package or come from
another (R372, R402). -/
def State.ages (s : State) (f : Flight) : Bool := dvoros f.msg || !s.within f.dest || f.outer
/-- A message whose age has reached 2 ms. -/
def State.expired (s : State) (f : Flight) : Bool := s.ages f && decide (maxAge ≤ Flight.age f s.now)

end Sys2Proof.Machine
end

