-- ==== Sys2Proof/Machine/Slices.lean ====
section
/-! DEFINITION. Die-cache slices: entries, tokens, requests and replacement (R224, R368 to R378). -/

namespace Sys2Proof.Machine

/-! ## Entries -/

def State.ent (s : State) (d line : Nat) : Option LineEnt := find (lineKey d line) s.lines
def State.setEnt (s : State) (d line : Nat) (e : LineEnt) : State :=
  { s with lines := ins (lineKey d line) e s.lines }
def State.dropEnt (s : State) (d line : Nat) : State := { s with lines := del (lineKey d line) s.lines }
/-- A load is served while an entry holds a token and valid data (R369). -/
def State.canRead (s : State) (d line : Nat) : Bool :=
  match s.ent d line with
  | some e => decide (1 ≤ e.count) && e.valid
  | none => false
/-- A store is performed only with all 256 tokens and valid data (R369). -/
def State.canWrite (s : State) (d line : Nat) : Bool :=
  match s.ent d line with
  | some e => decide (e.count = 256) && e.valid
  | none => false
/-- Bytes of a line that the die holds. -/
def State.sliceBytes (s : State) (d pa n : Nat) : List Byte :=
  match s.ent d (pa / 128) with
  | some e => lineBytes e.data (pa % 128) n
  | none => []
/-- Writes bytes of a line of which the die holds all tokens; the line is dirty (R369). -/
def State.sliceWrite (s : State) (d pa : Nat) (bs : List Byte) : State :=
  match s.ent d (pa / 128) with
  | some e => s.setEnt d (pa / 128) { e with data := setLineBytes e.data (pa % 128) bs, dirty := true }
  | none => s

/-! ## Persistent-request table (R351, R381) -/

def PEnt.none : PEnt := ⟨false, 0, 0, false, 0, 0, 0, .none, false⟩
def pkey (d slice home : Nat) : Nat := (d * 16 + slice) * 128 + home
def State.pent (s : State) (d slice home : Nat) : PEnt := look PEnt.none (pkey d slice home) s.ptab
def State.setPent (s : State) (d slice home : Nat) (e : PEnt) : State :=
  { s with ptab := put PEnt.none (pkey d slice home) e s.ptab }
/-- The active persistent request for a line, as a slice knows it. -/
def State.activeAt (s : State) (d line : Nat) : Option PEnt :=
  match s.lineHome line with
  | some h =>
    let e := s.pent d (sliceOf line) h
    if e.on && e.line == line then some e else Option.none
  | none => Option.none
/-- The active request is this slice's own. -/
def State.ownActive (s : State) (d line : Nat) : Bool :=
  match s.activeAt d line with
  | some e => e.die == s.islDie d
  | none => false

/-! ## Holder predictor (R351, R374) -/

def regionIdx (line : Nat) : Nat := fld (line * 128) 12 14
def regionTag (line : Nat) : Nat := line * 128 / 2 ^ 26
def State.notePred (s : State) (d line isl : Nat) : State :=
  s.updDie d fun x =>
    let p := match find (regionIdx line) x.predictor with
      | some p => if p.tag = regionTag line then p else ⟨regionTag line, 0⟩
      | none => ⟨regionTag line, 0⟩
    { x with predictor := ins (regionIdx line) { p with mask := p.mask ||| (1#128 <<< isl) } x.predictor }
/-- The predicted set: the entry's mask on a tag match, else the partition (R373). -/
def State.predicted (s : State) (d line : Nat) : List Nat :=
  match find (regionIdx line) (s.die d).predictor with
  | some p => if p.tag = regionTag line then (List.range 128).filter fun i => p.mask.getLsbD i
      else s.egressMask line
  | none => s.egressMask line

/-! ## Sending tokens -/

def LineEnt.pay (e : LineEnt) (withData : Bool) : TokPay :=
  ⟨e.count, e.crown, e.serial, if withData then some e.data else Option.none, e.crown && e.dirty⟩
/-- All tokens of an entry to a die, with the crown's data; the entry is dropped (R375, R382). -/
def State.giveAll (s : State) (d line isl : Nat) : State :=
  match s.ent d line with
  | some e => ((s.dropEnt d line).post d (.die isl) (.tok line (e.pay e.crown))).notePred d line isl
  | none => s
/-- The answer to a GETS, or to an active read request: one plain token and the data, or the crown
(R375, R382). -/
def State.giveOne (s : State) (d line isl : Nat) : State :=
  match s.ent d line with
  | some e =>
    if !e.crown then s
    else if 2 ≤ e.count then
      (s.setEnt d line { e with count := e.count - 1 }).post d (.die isl)
        (.tok line ⟨1, false, e.serial, some e.data, false⟩)
    else (s.dropEnt d line).post d (.die isl) (.tok line (e.pay true))
  | none => s
/-- Sends a message to the holder that is a line's home. -/
def State.postHome (s : State) (d line : Nat) (m : Msg) : State :=
  match s.homeDest line with
  | some h => s.post d h m
  | none => s
/-- An entry goes home as PUTT (R377). -/
def State.evict (s : State) (d line : Nat) : State :=
  match s.ent d line with
  | some e => (s.dropEnt d line).postHome d line (.putt line (e.pay e.crown))
  | none => s

/-! ## Replacement (R224) -/

/-- The set of a line within its slice: bits 22:11 of the address. -/
def setOf (line : Nat) : Nat := fld line 4 12
/-- The lines of a die in one set. -/
def State.inSet (s : State) (d line : Nat) : List (Nat × LineEnt) :=
  (s.lines.filter fun e => e.1 / 2 ^ 45 == d && sliceOf (e.1 % 2 ^ 45) == sliceOf line &&
    setOf (e.1 % 2 ^ 45) == setOf line).map fun e => (e.1 % 2 ^ 45, e.2)
def stamp (l : List (Nat × LineEnt)) : Nat := l.foldl (fun m e => max m (e.2.lru + 1)) 0
/-- Frees a way for a line: none while all 16 are held by active persistent requests. -/
def State.makeWay (s : State) (d line : Nat) : Option State :=
  let l := s.inSet d line
  if l.length < 16 then some s
  else
    let free := l.filter fun e => (s.activeAt d e.1).isNone
    match free.foldl (fun (best : Option (Nat × LineEnt)) e => match best with
      | none => some e
      | some b => if e.2.lru < b.2.lru then some e else some b) Option.none with
    | some v => some (s.evict d v.1)
    | none => Option.none
/-- A use of a line (R224). -/
def State.touchLine (s : State) (d line : Nat) : State :=
  match s.ent d line with
  | some e => s.setEnt d line { e with lru := stamp (s.inSet d line) }
  | none => s
/-- Adds arriving tokens to an entry (R370, R376); PUTT at once when no way is free. -/
def State.addTokens (s : State) (d line : Nat) (p : TokPay) : State :=
  match s.ent d line with
  | some e =>
    let fresh := !e.valid && p.data.isSome
    s.setEnt d line { e with
      count := e.count + p.count
      crown := e.crown || p.crown
      valid := e.valid || p.data.isSome
      data := if fresh then p.data.getD e.data else e.data
      dirty := if p.crown then p.dirty else e.dirty }
  | none =>
    match s.makeWay d line with
    | some s1 =>
      s1.setEnt d line ⟨p.count, p.crown, p.data.isSome, p.crown && p.dirty, p.serial, p.data.getD 0,
        stamp (s1.inSet d line)⟩
    | none => s.postHome d line (.putt line p)

/-! ## Requests (R373, R378) -/

def State.sreq (s : State) (d line : Nat) : Option SliceReq := find (lineKey d line) s.sreqs
def State.setSreq (s : State) (d line : Nat) (r : SliceReq) : State :=
  { s with sreqs := ins (lineKey d line) r s.sreqs }
def State.dropSreq (s : State) (d line : Nat) : State := { s with sreqs := del (lineKey d line) s.sreqs }
/-- A line of an extent that is being revoked, to which no new request goes out (R411). -/
def State.revokes (s : State) (line : Nat) : Bool := ((s.extentOf (line * 128)).map (·.revoking)).getD false
/-- Sends a request to its home and to the slices of a set of dies under the egress mask, never to the
sender's own slices (R373, R396). -/
def State.sendReq (s : State) (d line : Nat) (write : Bool) (dies : List Nat) : State :=
  if s.revokes line then s else
  let m (r : Role) : Msg := if write then .getx line r else .gets line r
  let mask := s.egressMask line
  let set := dies.filter fun i => mask.contains i && i != s.islDie d
  match s.homeDest line with
  | some (.die h) =>
    (s.post d (.die h) (m (if set.contains h then .both else .home))).postAll d (set.filter fun i => i != h)
      (m .slice)
  | some node => (s.post d node (m .home)).postAll d set (m .slice)
  | none => s
/-- A die that has rejoined issues no request for 2 ms, nor does one that has failed (R394, R395). -/
def State.silent (s : State) (d : Nat) : Bool := (s.die d).upUntil.isSome || (s.die d).failed
/-- An access that the slice cannot serve waits on the line's request; a new request is issued if none
is outstanding (R373). -/
def State.request (s : State) (d line : Nat) (write : Bool) (w : Waiter) : State :=
  match s.sreq d line with
  | some r => s.setSreq d line { r with waiters := r.waiters ++ [(w, write)] }
  | none =>
    let s1 := s.setSreq d line ⟨write, .transient, s.now, [(w, write)]⟩
    if s.silent d then s1 else s1.sendReq d line write (s.predicted d line)
/-- Whether a request's kind is satisfied (R376). -/
def State.satisfied (s : State) (d line : Nat) (write : Bool) : Bool :=
  if write then s.canWrite d line else s.canRead d line

end Sys2Proof.Machine
end

