-- ==== Sys2Proof/Machine/Device.lean ====
section
/-! DEFINITION. Memory as the units of the device itself see it: the bytes they read, and their stores, which are made in
the die cache of the line's home with all 256 tokens (R214, R226, R319, R369; log 14). -/

namespace Sys2Proof.Machine

/-! ## Where the data of a line is -/

/-- The data of a line at a die that holds it valid. -/
def State.lineAt (s : State) (line d : Nat) : Option Line :=
  match find (lineKey d line) s.lines with
  | some e => if e.valid then some e.data else none
  | none => none
/-- The data of a line that a message carries (R371), under a serial if one is known: older tokens are stale (R392). -/
def Msg.lineData (m : Msg) (line : Nat) (serial : Option (BitVec 4)) : Option Line :=
  match m with
  | .tok l p | .putt l p | .rack l p => if l = line ∧ serial.getD p.serial = p.serial then p.data else none
  | _ => none
/-- Every flight of the package: in the net, at an egress, in a port. -/
def State.flights (s : State) : List Flight :=
  s.net ++ s.egress ++ s.ports.flatMap fun p => p.2.queue ++ p.2.retry.flatMap (·.2)
/-- The die of this package whose HBM holds a line. -/
def State.ownHome (s : State) (line : Nat) : Option Nat :=
  if line * 128 / 2 ^ 48 = 0 then (s.lineHome line).bind s.ownDie else none
/-- The die whose slice makes the device's stores to a line: the line's home, or else die 0. -/
def State.devDie (s : State) (line : Nat) : Nat := (s.ownHome line).getD 0
/-- The current data of a line that is not at its home alone: any valid copy in a die cache is current, and else what
travels (R370). -/
def State.heldLine (s : State) (line : Nat) : Option Line :=
  match (s.devDie line :: List.range 8).findSome? (s.lineAt line) with
  | some l => some l
  | none => s.flights.findSome? fun f =>
    Msg.lineData f.msg line (if (s.ownHome line).isSome then some (s.sideOf line).serial else none)
/-- Whether a read at the home finds a poisoned line: it holds the crown, so HBM is the data (R216, R368). -/
def State.poisoned (s : State) (pa : Nat) : Bool :=
  (s.sideOf (pa / 128)).bad && (s.sideOf (pa / 128)).crown
/-- A line that nothing in the package can read. -/
def State.lost (s : State) (line : Nat) : Bool :=
  (s.ownHome line).isSome && s.poisoned (line * 128) && (s.heldLine line).isNone
/-- A line whose data lies in another package or a pool node: a read of the device asks for it first. -/
def State.unseen (s : State) (line : Nat) : Bool :=
  s.tokenLine line && (s.ownHome line).isNone && (s.heldLine line).isNone

/-! ## Reading -/

/-- Bits of a byte under a mask. -/
def underMask (old : Byte) (x : Byte × Byte) : Byte := (old &&& ~~~x.2) ||| (x.1 &&& x.2)
/-- A byte under the stores that wait. -/
def overStores (l : List (Nat × List (Byte × Byte))) (pa : Nat) (b : Byte) : Byte :=
  l.foldl (fun b x => if x.1 ≤ pa then (x.2[pa - x.1]?).elim b (underMask b) else b) b
/-- A byte of a token line: from a copy, or else its home (R214, R397). -/
def State.lineByteAt (s : State) (pa : Nat) (home : Byte) : Byte :=
  match s.heldLine (pa / 128) with
  | some l => lineByte l (pa % 128)
  | none => if s.lost (pa / 128) then Config.lostByte pa else home
/-- A byte at a physical address as memory has it (R214). -/
def State.memByte (s : State) (pa : Nat) : Byte :=
  if pa / 2 ^ 48 = 0 then s.lineByteAt pa (rdByte s.mem pa)
  else if pa / 2 ^ 48 = 1 then rdByte s.hostMem (pa % 2 ^ 48)
  else if s.tokenLine (pa / 128) then s.lineByteAt pa (rdByte s.poolMem pa)
  else rdByte s.poolMem pa
/-- A byte at a physical address as the device sees it: under its own stores. -/
def State.physByte (s : State) (pa : Nat) : Byte := overStores s.devStores pa (s.memByte pa)
def State.physRead (s : State) (pa : Nat) : Nat → List Byte
  | 0 => []
  | n + 1 => s.physByte pa :: s.physRead (pa + 1) n
/-- A little-endian number of n bytes at a physical address. -/
def State.physNat (s : State) (pa n : Nat) : Nat := leNat (s.physRead pa n)
/-- A byte that a unit cannot read: of a lost line, and not among the stores that wait. -/
def State.lostAt (s : State) (pa : Nat) : Bool :=
  s.lost (pa / 128) && !(s.devStores.any fun x => decide (x.1 ≤ pa) && decide (pa < x.1 + x.2.length))

/-! ## Storing -/

/-- The error with which a request for a line is answered (R216, R233, R257, R394): the response that has arrived, its
home's die declared down, an extent being revoked, or a poisoned line. The last three are met at issue (log 35). -/
def State.homeErr (s : State) (die line : Nat) : Option Nat :=
  match s.lineHome line with
  | some h =>
    if (s.errAt.map fun e => e.1 == die && e.2.1 == line).getD false then s.errAt.map (·.2.2)
    else if (s.die die).down.contains h then some 7
    else if ((s.extentOf (line * 128)).map (·.revoking)).getD false then some 3
    else if (s.ownDie h).isSome && s.poisoned (line * 128) then some 5 else none
  | none => none
/-- The home does nothing for a line: no active request, recount or migration of it (R375, R231). -/
def Home.idle (h : Home) (line : Nat) : Bool :=
  (h.active.map fun a => a.req.line != line).getD true && (h.recounts.all fun r => r.line != line) &&
  h.moving.all fun m => m.page != line / 32
/-- The dies of this package that hold tokens of a line. -/
def State.holders (s : State) (line : Nat) : List Nat := (List.range 8).filter fun d => (s.ent d line).isSome
/-- All tokens of a line, which are at its home in this package, come to a die of it at once. One that is to be written
`whole` may be poisoned: it is then poisoned no more, and the plain tokens of this package's slices come too (R216,
R391). A home in another package answers the GETX as it sees fit (log 31). -/
def State.claim (s : State) (d line : Nat) (whole : Bool) : State :=
  match s.ownHome line with
  | none => s
  | some h =>
    let x := s.sideOf line
    let hs := s.holders line
    let n := hs.foldl (fun n e => n + ((s.ent e line).map (·.count)).getD 0) x.count
    let same := hs.all fun e => ((s.ent e line).map (·.serial)) == some x.serial
    if (if x.bad then whole else hs.isEmpty) && x.crown && n == 256 && same && (s.die h).home.idle line then
      match (hs.foldl (fun s e => s.dropEnt e line) s).makeWay d line with
      | some s1 => (s1.setSide line { x with count := 0, crown := false, poison := false, symErr := 0 }).addTokens d line
          ⟨256, true, x.serial, some (if x.bad then 0 else bytesLine (rdBytes s.mem (line * 128) 128)), x.bad⟩
      | none => s
    else s
/-- A write of a whole poisoned line takes its tokens without a read (R216). -/
def State.claimWhole (s : State) (d line : Nat) : State := if (s.sideOf line).bad then s.claim d line true else s
/-- Writes bytes and masks of a line whose tokens a die holds. -/
def State.sliceMasked (s : State) (d pa : Nat) (l : List (Byte × Byte)) : State :=
  s.sliceWrite d pa ((s.sliceBytes d pa l.length).zipWith underMask l)
/-- Whether the stores that wait write all of a line. -/
def wholeLine (l : List (Nat × List (Byte × Byte))) (line : Nat) : Bool :=
  (List.range 128).all fun i => l.any fun x => x.1 ≤ line * 128 + i &&
    ((x.2[line * 128 + i - x.1]?).map (·.2)) == some (BitVec.allOnes 8)
/-- The line at its die with all tokens, if it can have them now. -/
def State.devReady (s : State) (line : Nat) (whole : Bool) : State :=
  if s.canWrite (s.devDie line) line then s else s.claim (s.devDie line) line whole
/-- The device's stores to a line are made, if its tokens are at hand; else they wait for the line's request. What would
write part of a line that cannot be read stays with the device, and memory keeps the line as it is (R216, R257;
log 14). -/
def State.flushLine (s : State) (line : Nat) : State :=
  let mine := s.devStores.filter fun x => x.1 / 128 == line
  let d := s.devDie line
  let s1 := s.devReady line (wholeLine mine line)
  if mine.isEmpty then s
  else if s1.canWrite d line then
    mine.foldl (fun s x => s.sliceMasked d x.1 x.2)
      { s1 with devStores := s1.devStores.filter fun x => x.1 / 128 != line }
  else if (s.homeErr d line).isSome || ((s.sreq d line).map fun r => r.waiters.contains (.device, true)).getD false then s
  else s.request d line true .device
/-- Bytes and masks cut at the ends of lines. -/
def cutLines : Nat → Nat → List (Byte × Byte) → List (Nat × List (Byte × Byte))
  | 0, _, _ => []
  | fuel + 1, pa, l =>
    let n := 128 - pa % 128
    if l.isEmpty then [] else (pa, l.take n) :: cutLines fuel (pa + n) (l.drop n)
/-- Bytes under their masks, written at consecutive addresses of a memory without tokens. -/
def wrMasked (m : List Host.Cell) (a : Nat) : List (Byte × Byte) → List Host.Cell
  | [] => m
  | x :: l => wrMasked (wrByte m a (underMask (rdByte m a) x)) (a + 1) l
/-- A store within one line: to host memory, to an extent without tokens, or to a line with tokens. -/
def State.devStore (s : State) (x : Nat × List (Byte × Byte)) : State :=
  if x.1 / 2 ^ 48 = 1 then { s with hostMem := wrMasked s.hostMem (x.1 % 2 ^ 48) x.2 }
  else if s.tokenLine (x.1 / 128) then { s with devStores := s.devStores ++ [x] }
  else { s with poolMem := wrMasked s.poolMem x.1 x.2 }
/-- Stores of the device, as one: a line that they write whole together is written whole (R216). -/
def State.physStores (s : State) (ps : List (Nat × List (Byte × Byte))) : State :=
  let cut := ps.flatMap fun p => cutLines (p.2.length / 128 + 2) p.1 p.2
  (cut.map fun x => x.1 / 128).eraseDups.foldl State.flushLine (cut.foldl State.devStore s)
def wholeBytes (bs : List Byte) : List (Byte × Byte) := bs.map fun b => (b, BitVec.allOnes 8)
/-- A store of bytes at a physical address. -/
def State.physWrite (s : State) (pa : Nat) (bs : List Byte) : State := s.physStores [(pa, wholeBytes bs)]
/-- A store of one bit of a byte. -/
def State.setPhysBit (s : State) (pa i : Nat) (on : Bool) : State :=
  s.physStores [(pa, [(if on then 1#8 <<< i else 0, 1#8 <<< i)])]
/-- Stores of the device wait for tokens that have been asked for. -/
def State.devBusy (s : State) : Bool :=
  s.devStores.any fun x => (s.sreq (s.devDie (x.1 / 128)) (x.1 / 128)).isSome

/-! ## Window traffic, which takes no part in token coherence (R275) -/

/-- A message whose data of a line has a byte written. -/
def Msg.setByte (pa : Nat) (v : Byte) (m : Msg) : Msg :=
  let f (l : Nat) (p : TokPay) : TokPay :=
    if l = pa / 128 then { p with data := p.data.map fun x => setLineByte x (pa % 128) v } else p
  match m with
  | .tok l p => .tok l (f l p)
  | .putt l p => .putt l (f l p)
  | .rack l p => .rack l (f l p)
  | m => m
/-- Changes every flight of the package. -/
def State.mapFlights (s : State) (g : Flight → Flight) : State :=
  { s with
    net := s.net.map g
    egress := s.egress.map g
    ports := s.ports.map fun p => (p.1, { p.2 with
      queue := p.2.queue.map g, retry := p.2.retry.map fun r => (r.1, r.2.map g) }) }
/-- Writes a byte of island HBM at its home, in every valid copy and in what travels. -/
def State.setHbmByte (s : State) (pa : Nat) (v : Byte) : State :=
  State.mapFlights { s with
    mem := wrByte s.mem pa v
    lines := (List.range 8).foldl (fun m d => upd (lineKey d (pa / 128)) (fun e =>
      if e.valid then { e with data := setLineByte e.data (pa % 128) v } else e) m) s.lines }
    fun f => { f with msg := Msg.setByte pa v f.msg }
/-- A byte of window traffic at its physical address: of this package's HBM without tokens, elsewhere as a store of the
device (log 14). -/
def State.setWinByte (s : State) (pa : Nat) (v : Byte) : State :=
  if (s.ownHome (pa / 128)).isSome then s.setHbmByte pa v else s.physWrite pa [v]

end Sys2Proof.Machine
end

