-- ==== Sys2Proof/Machine/Ops.lean ====
section
/-! DEFINITION. The named operations over the state: launch-record fields, fault records and the fault queue, snapshots,
taking a fault and returning from one, the end of a clause. -/

namespace Sys2Proof.Machine

/-! ## Launch-record fields (R306) -/

def Grid.f (g : Grid) (off width : Nat) : Nat := fld g.lrec.toNat (8 * off) width
def Grid.kaddr (g : Grid) : Nat := g.f 0x00 64
def Grid.args (g : Grid) : Nat := g.f 0x08 64
def Grid.trapv (g : Grid) : Nat := g.f 0x10 64
def Grid.save (g : Grid) : Nat := g.f 0x18 64
def Grid.gx (g : Grid) : Nat := g.f 0x20 16
def Grid.gy (g : Grid) : Nat := g.f 0x22 16
def Grid.gz (g : Grid) : Nat := g.f 0x24 16
def Grid.lanes (g : Grid) : Nat := g.f 0x26 16
def Grid.shape (g : Grid) (lo n : Nat) : Nat := fld (g.f 0x28 32) lo n
def Grid.rows (g : Grid) : Nat := g.shape 0 3
def Grid.cols (g : Grid) : Nat := g.shape 3 3
/-- Declared v registers: VREGS = count ÷ 8 − 1. -/
def Grid.vcount (g : Grid) : Nat := 8 * (g.shape 6 5 + 1)
def Grid.tilesDecl (g : Grid) : Nat := g.shape 11 4
def Grid.barsDecl (g : Grid) : Nat := g.shape 15 8
/-- Banks of a carve-out menu code (R79, R218). -/
def carveBanks (c : Nat) : Nat := [0, 8, 16, 24, 32, 40, 44].getD c 0
def Grid.banks (g : Grid) : Nat := carveBanks (g.shape 23 3)
def Grid.usesXc (g : Grid) : Bool := g.shape 26 1 = 1
def Grid.usesF (g : Grid) : Bool := g.shape 27 1 = 1
def Grid.prio (g : Grid) : Nat := g.shape 28 2
/-- Scratchpad bytes of a team. -/
def Grid.scr (g : Grid) : Nat := 256 * fld (g.f 0x2C 32) 0 14
def Grid.part (g : Grid) : BitVec 16 := BitVec.ofNat 16 (g.f 0x30 16)
def Grid.arm (g : Grid) : Nat := g.f 0x32 16
def Grid.doneF (g : Grid) : Nat := g.f 0x34 16
def Grid.collF (g : Grid) : Nat := g.f 0x36 16
def Grid.notify (g : Grid) : Nat := g.f 0x38 64
/-- Groups of a team (R24). -/
def Grid.ngroups (g : Grid) : Nat := (g.lanes + 31) / 32
/-- The linear team index of R306. -/
def teamIndex (g : Grid) (t : Team) : Nat := t.x + g.gx * (t.y + g.gy * t.z)
/-- The slot size of R226. -/
def slotSize (g : Grid) : Nat :=
  (4096 + 132 * g.vcount + 12736 * g.tilesDecl + 4095) / 4096 * 4096
/-- The physical base of a group's save slot (R306). -/
def slotBase (g : Grid) (t : Team) (idx : Nat) : Nat :=
  g.save + (teamIndex g t * g.ngroups + idx) * slotSize g

/-! ## Snapshots (R337, R338, R423) -/

def bits01 (b : Bool) : Nat := if b then 1 else 0
/-- One track's 128 bits of a core record. The lane is that of a precise fault which triggers, and else that at which the
next instruction begins: an instruction is one step of the model (log 17). -/
def snapTrack (s : State) (t : Nat) : Nat :=
  let k := s.track t
  let res := k.slots.length
  match k.run with
  | none => k.hdr.toNat + 0x3F * 2 ^ 64 + res * 2 ^ 74
  | some r =>
    let slot := ((k.slots.find? fun e => e.2 = r.group).map (·.1)).getD 0x3F
    let lane := match r.cursor with
      | some c => c
      | none => 0
    (if r.fetched then r.hdr else k.hdr).toNat + slot * 2 ^ 64 + r.entry * 2 ^ 70 + res * 2 ^ 74 + r.pos % 32 * 2 ^ 78 +
      lane % 32 * 2 ^ 83
/-- Groups that lie on their tracks: not saved, and not of a team that has freed its tiles (R312). -/
def State.groupsOn (s : State) (c : Nat) : List (Nat × Group) :=
  s.groups.filter fun g => coreOf g.2.track == c && g.2.resid == .bound &&
    ((s.team g.2.team).map fun t => t.phase == .running).getD false
/-- Physical tiles of a core that no team has reserved and no drain holds (R42, R183). -/
def State.freeTiles (s : State) (c : Nat) : Nat :=
  let gs := s.groupsOn c
  let used := gs.foldl (fun n g => n + ((s.grid g.2.grid).map (·.tilesDecl)).getD 0) 0
  let draining := (s.core c).tiles.filter fun p => !(gs.any fun g => g.2.amap.any fun m => m.2 == p.1)
  96 - used - draining.length
def snapCore (s : State) (c : Nat) : SnapBlk :=
  let k := s.core c
  let trk := (List.range 128).foldr (fun i acc => snapTrack s (128 * c + i) + acc * 2 ^ 128) 0
  let parked := ((s.die (dieOf c)).parked.filter fun p => match p.waiter with
    | .acc g _ _ => ((s.group g).map fun x => coreOf x.track) = some c
    | .copy c' _ _ => c' = c
    | .fill c' _ => c' = c
    | _ => false).length
  let mat := (s.groups.filter fun g => coreOf g.2.track = c).foldl
    (fun n g => n + (g.2.matq.filter fun r => !r.started).length) 0
  let wlines := (k.wtb.map fun w => w.pa / 128).eraseDups.length
  let tail := k.cycle.toNat + (k.copyq.length) * 2 ^ 64 + wlines % 256 * 2 ^ 80 +
    parked * 2 ^ 88 + mat * 2 ^ 104 + s.freeTiles c * 2 ^ 120 + k.replay.toNat * 2 ^ 128 +
    k.rfce.toNat * 2 ^ 160 + k.rfue.toNat * 2 ^ 192
  ⟨1, dieOf c, c, 2112, trk + tail * 2 ^ 16384⟩
def snapSlice (s : State) (d i : Nat) : SnapBlk :=
  let mine (e : Nat) : Bool := e / 2 ^ 45 = d && sliceOf (e % 2 ^ 45) = i
  let vl := (s.lines.filter fun e => mine e.1).length
  let rq := s.sreqs.filter fun e => mine e.1
  let tr := (rq.filter fun e => e.2.phase = .transient || e.2.phase = .reissued).length
  let re := (rq.filter fun e => e.2.phase = .reissued).length
  let fl := (s.filters.filter fun f => f.die = d && sliceOf f.line = i).length
  let pt := (s.ptab.filter fun e => e.1 / 128 = 16 * d + i && e.2.on).length
  ⟨2, d, i, 64, vl + tr * 2 ^ 32 + re * 2 ^ 48 + fl * 2 ^ 64 + pt * 2 ^ 72⟩
def snapHome (s : State) (d : Nat) : SnapBlk :=
  let h := (s.die d).home
  let a := match h.active with
    | none => 0
    | some a => 1 + a.req.die * 2 + a.req.slice * 2 ^ 8 + bits01 a.req.write * 2 ^ 12 +
      a.req.line * 128 * 2 ^ 13
  ⟨3, d, 0, 64, h.pending.length + a * 2 ^ 16 + h.turnNo.toNat * 2 ^ 93 + h.seq.toNat * 2 ^ 109 +
    h.recounts.length * 2 ^ 125⟩
def PSt.code : PSt → Nat
  | .down => 0 | .training => 1 | .keying => 2 | .up => 3
def snapPort (s : State) (p : Nat) : SnapBlk :=
  let k := s.port p
  ⟨4, portDie p, p, 32, k.st.code + bits01 k.containment * 2 ^ 8 + k.retry.length * 2 ^ 16 +
    k.fails * 2 ^ 24 + k.tx.toNat * 2 ^ 32 + k.rx.toNat * 2 ^ 96⟩
/-- The two dies of a die link (R10). -/
def linkEnds (l : Nat) : Nat × Nat :=
  [(0, 1), (1, 2), (2, 3), (4, 5), (5, 6), (6, 7), (0, 4), (1, 5), (2, 6), (3, 7)].getD l (0, 0)
/-- The live links of a die, each with the die at its other end. -/
def State.linksOf (s : State) (d : Nat) : List (Nat × Nat) :=
  (List.range 10).filterMap fun l =>
    if s.linkDown.contains l then none
    else if (linkEnds l).1 = d then some (l, (linkEnds l).2)
    else if (linkEnds l).2 = d then some (l, (linkEnds l).1) else none
/-- The dies within n links of a die. -/
def State.reached (s : State) (d : Nat) : Nat → List Nat
  | 0 => [d]
  | n + 1 => let l := s.reached d n
    (l ++ l.flatMap fun x => (s.linksOf x).map (·.2)).eraseDups
/-- The first link of a shortest path between two dies, of those that could be the one with the lowest number (log 17). -/
def State.firstLink (s : State) (a b : Nat) : Option Nat :=
  match (List.range 8).find? fun n => (s.reached b n).contains a with
  | some (n + 1) => ((s.linksOf a).find? fun x => (s.reached b n).contains x.2).map (·.1)
  | _ => none
/-- The flits of the messages from a die that are queued at a link: all that go over it first (log 17). -/
def State.linkFlits (s : State) (l a : Nat) : Nat :=
  min 65535 (s.net.foldl (fun n f => match s.ownDie f.src, f.dest with
    | some x, .die i => if x = a ∧ ((s.ownDie i).bind (s.firstLink a)) = some l then n + flits f.msg else n
    | _, _ => n) 0)
def snapLink (s : State) (l : Nat) : SnapBlk :=
  ⟨5, (linkEnds l).1, l, 32, s.linkFlits l (linkEnds l).1 + s.linkFlits l (linkEnds l).2 * 2 ^ 16 +
    bits01 (!s.linkDown.contains l) * 2 ^ 32⟩
/-- The collective partitions that the package holds. -/
def State.collHeld (s : State) : Nat := ((s.cores.filterMap fun e => e.2.coll).eraseDups).length
def GSt.live (g : GSt) : Bool := g = .armed || g = .ready || g = .running || g = .aborted
def snapDispatcher (s : State) : SnapBlk :=
  let n (p : Grid → Bool) : Nat := (s.grids.filter fun g => p g.2).length
  ⟨6, 0, 0, 64, s.grids.length + n (fun g => g.st = .ready) * 2 ^ 16 +
    n (fun g => g.st = .armed) * 2 ^ 32 + s.collHeld * 2 ^ 48⟩
/-- What every block latches (R423), in the order of the directory. -/
def snapAll (s : State) : List SnapBlk :=
  s.liveCores.map (snapCore s) ++
  (List.range 8).flatMap (fun d => ((List.range 16).filter fun i =>
    (s.enum.sliceMask.getD d 0).getLsbD i).map (snapSlice s d)) ++
  (List.range 8).map (snapHome s) ++ (List.range 36).map (snapPort s) ++
  (List.range 8).flatMap (fun d => ((List.range 10).filter fun l =>
    s.enum.links.getLsbD l && (linkEnds l).1 == d).map (snapLink s)) ++
  [snapDispatcher s]
/-- An allowed trigger while SNAPCTL bit 0 is set (R338). -/
def State.snapshot (s : State) (src kind : Nat) (tag : Word) : State :=
  if s.sys.snapctl.getLsbD 0 then
    { s with sys := { s.sys with
      snapMap := snapAll s
      sntag := tag
      snapstat := BitVec.ofNat 32 (1 + src * 2 + kind * 2 ^ 8 + tag.toNat % 2 ^ 16 * 2 ^ 16)
      snapctl := s.sys.snapctl &&& ~~~1#32 } }
  else s

/-! ## Fault records (R317 to R321) -/

/-- Bytes 0x00 to 0x3E of a record (R320). -/
def FaultRec.bytes (r : FaultRec) : List Byte :=
  leBytes 1 r.kind ++ leBytes 1 r.flags ++ leBytes 1 r.lane ++ leBytes 1 r.src ++ leBytes 4 r.ridx ++
  leBytes 2 r.queue ++ leBytes 1 r.group ++ leBytes 1 r.info ++ leBytes 4 r.team ++
  leBytes 8 r.iaddr ++ leBytes 8 r.addr ++ leBytes 4 r.smask ++ leBytes 4 r.detail ++
  leBytes 8 r.detail2 ++ leBytes 4 r.cycle ++ leBytes 11 0
/-- The kinds that a group takes (R317, class Group). -/
def groupKind (k : Nat) : Bool :=
  (1 ≤ k && k ≤ 9) || (0x10 ≤ k && k ≤ 0x15) || k = 0x20 || k = 0x21 || k = 0x22 || k = 0x23 ||
  k = 0x25 || k = 0x26 || k = 0x28 || k = 0x2A
/-- The kinds that wait without limit while the ring is full (R321). -/
def replayKind (k : Nat) : Bool := k = 0x18 || k = 0x19 || k = 0x24
def State.fqRoom (s : State) : Bool := decide ((s.sys.fqtail - s.sys.fqhead).toNat < 4096)
/-- The line of the ring's next record. -/
def State.fqLine (s : State) : Nat := (s.sys.fqbase.toNat + 64 * (s.sys.fqtail.toNat % 4096)) / 128
/-- The record can be stored now: its line's tokens are at hand, or nothing can have them (R319, R369; log 14). -/
def State.fqStorable (s : State) : Bool :=
  let d := s.devDie s.fqLine
  !s.tokenLine s.fqLine || (s.devReady s.fqLine false).canWrite d s.fqLine || (s.homeErr d s.fqLine).isSome
/-- A record can be written at once: the ring has room (R321), and its next line can be stored. -/
def State.fqReady (s : State) : Bool := s.fqRoom && s.fqStorable
/-- Writes a record into the ring, its phase byte last (R319), with the trigger of R337. -/
def State.putRecord (s : State) (r : FaultRec) : State :=
  let n := s.sys.fqtail.toNat
  let a := s.sys.fqbase.toNat + 64 * (n % 4096)
  let s1 := s.physWrite a (r.bytes ++ [BitVec.ofNat 8 (n / 4096 % 2 * 128)])
  let s2 := { s1 with sys := { s1.sys with fqtail := s1.sys.fqtail + 1 } }
  let s3 := if s.sys.fqtail = s.sys.fqhead then s2.msix 0 else s2
  let ctl := s3.sys.snapctl
  if (ctl.getLsbD 3 && groupKind r.kind) ||
     (fld ctl.toNat 8 8 ≠ 0 && fld ctl.toNat 8 8 = r.kind) then
    s3.snapshot 3 r.kind (BitVec.ofNat 32 r.cycle)
  else s3
/-- Enters a record in the fault queue; while the ring is full, or the tokens of its line are elsewhere (log 14), it waits
or is dropped (R321). `grp` is the group that stays stopped until its record is written, or 0. -/
def State.report (s : State) (r : FaultRec) (grp : Nat := 0) : State :=
  if s.fqReady then s.putRecord r
  else if groupKind r.kind then
    { s with fqPend := s.fqPend ++ [(grp, r)],
             groups := upd grp (fun g => { g with stopped := true }) s.groups }
  else if replayKind r.kind then { s with fqPend := s.fqPend ++ [(0, r)] }
  else
    let waiting := s.fqPend.filter fun e =>
      !(groupKind e.2.kind || replayKind e.2.kind) && e.2.src % 8 = r.src % 8
    if waiting.length < 64 ∨ s.fqRoom then { s with fqPend := s.fqPend ++ [(0, r)] }
    else { s with sys := { s.sys with fqlost := satInc s.sys.fqlost } }
/-- A read of a line of HBM: ECC corrects one wrong symbol; more poison the line in place, under a record (R216). -/
def State.scrubLine (s : State) (d line : Nat) : State :=
  let x := s.sideOf line
  if x.symErr = 0 then s
  else if x.symErr = 1 then s.setSide line { x with symErr := 0 }
  else (s.setSide line { x with poison := true, symErr := 0 }).report
    { s.dieRec 0x31 d with addr := line * 128, flags := 0x10 }
/-- The same by the line's home, if it is in this package. -/
def State.scrubHome (s : State) (line : Nat) : State :=
  match (s.lineHome line).bind s.ownDie with
  | some d => s.scrubLine d line
  | none => s
/-- The index in the ring of a record that is entered now, when it is written at once (R321). -/
def State.recordIdx (s : State) : Option Nat := if s.fqReady then some s.sys.fqtail.toNat else none
/-- The fields of a record that names a group (R320). -/
def State.groupRec (s : State) (kind g : Nat) : FaultRec :=
  match s.group g with
  | none => FaultRec.blank kind
  | some grp =>
    let c := coreOf grp.track
    let base := { FaultRec.blank kind with
      src := dieOf c + c % 24 * 8, group := grp.idx, cycle := (s.core c).cycle.toNat % 2 ^ 32 }
    match s.grid grp.grid, s.team grp.team with
    | some gd, some t => { base with ridx := gd.ring, queue := gd.queue, team := teamIndex gd t }
    | _, _ => base

/-! ## Privilege, traps, aborts (R118, R314, R318, R322) -/

/-- A group is privileged from trap entry to ERET, and for life in a grid of the boot firmware. -/
def State.privileged (s : State) (grp : Group) : Bool :=
  grp.fltstat.getLsbD 13 || ((s.grid grp.grid).map (·.firmware)).getD false
/-- FLAGS bit 6 of a record of a group (R320). -/
def State.privFlag (s : State) (g : Nat) : Nat := bits01 (((s.group g).map s.privileged).getD false) * 64
/-- The conditions for entry to the handler (R322). -/
def State.traps (s : State) (grp : Group) (kind : Nat) : Bool :=
  grp.trapvec != 0 && !s.privileged grp && kind != 7
/-- Aborts a grid that has not ended (R314); `skip` omits the DONE decrement. -/
def State.abortGrid (s : State) (k : Nat) (skip : Bool) : State :=
  s.updGrid k fun g =>
    if g.st = .armed || g.st = .ready || g.st = .running then
      { g with st := .aborted, skip := skip } else g
/-- The resume pair of R322: header, and the word at which to resume. -/
def resumePair (hdr : VAddr) (w : Nat) : DWord := BitVec.ofNat 64 (hdr.toNat + w % 32 * 2 ^ 57)
/-- Entry to the trap handler (R322): FLTSTAT, TRAPINFO, the other entries held, and the fragment at
TRAPVEC with its k0 and registers unchanged. -/
def trapEntry (grp : Group) (entry kind cursor : Nat) (repl : Bool) (resume : DWord)
    (info : DWord) : Group :=
  let hold : SMap Frag := grp.split.map fun e =>
    if e.1 = entry then
      (e.1, { e.2 with
        pc := grp.trapvec.setWidth 57, word := 0, state := .ready, wait := .none, fresh := false,
        cursor := none, redo := false, stop := none })
    else (e.1, { e.2 with held := true })
  { grp with
    fltstat := BitVec.ofNat 32 (kind % 256 + cursor % 32 * 2 ^ 8 + 2 ^ 13 + bits01 repl * 2 ^ 14)
    trapinfo := [(0, resume.setWidth 32), (1, (resume >>> 32).setWidth 32),
      (2, info.setWidth 32), (3, (info >>> 32).setWidth 32)].filter fun e => e.2 ≠ 0
    cursor := cursor % 32
    split := hold }
/-- Ends the clause that a track executes: the latches are cleared (R27, R32). -/
def State.clearRun (s : State) (t : Nat) : State :=
  s.updTrack t fun k => { k with run := none, latches := [] }
/-- A precise fault, TRAP or BKPT taken by a fragment: its record, then entry to the handler or the
abort of the grid (R318, R322). `r` holds the record's kind, lane, addresses and details. -/
def State.fragFault (s : State) (g entry : Nat) (r : FaultRec) (cursor : Nat) (resume : DWord)
    (info : DWord) (record : Bool := true) : State :=
  match s.group g with
  | none => s
  | some grp =>
    let tr := s.traps grp r.kind
    let flags := bits01 (r.kind != 7) * 2 + bits01 tr * 4 + bits01 (!tr) * 8 +
      bits01 (s.privileged grp) * 64
    let s1 := if record then s.report { r with flags := flags + r.flags / 32 % 2 * 32 } g else s
    if tr then s1.updGroup g (trapEntry · entry r.kind cursor false resume info)
      else s1.abortGrid grp.grid false
/-- The same by the fragment that a track executes: its clause ends. -/
def State.takeFault (s : State) (t g entry : Nat) (r : FaultRec) (cursor : Nat) (resume : DWord)
    (info : DWord) (record : Bool := true) : State :=
  (s.fragFault g entry r cursor resume info record).clearRun t
/-- An imprecise fault: its record is written now, and the group takes it at a clause boundary (R318). -/
def State.impreciseFault (s : State) (g : Nat) (r : FaultRec) (cancelled : Bool := false) : State :=
  match s.group g with
  | none => s
  | some grp =>
    let tr := s.traps grp r.kind
    let flags := bits01 tr * 4 + bits01 (!tr) * 8 + bits01 (s.privileged grp) * 64 +
      bits01 cancelled * 32
    let r' := { r with flags := flags }
    let s1 := s.report r' g
    if tr then
      s1.updGroup g fun x => { x with pendFaults := x.pendFaults ++ [⟨r', true⟩] }
    else s1.abortGrid grp.grid false
/-- The return of R323: the group leaves privileged mode and the held entries are released; answers
the cursor, the header and the word at which to resume. -/
def trapReturn (grp : Group) : Group × Nat × VAddr × Nat :=
  let cur := if grp.fltstat.getLsbD 15 then 32 else fld grp.fltstat.toNat 8 5
  let lo := (look 0 0 grp.trapinfo).toNat
  let hi := (look 0 1 grp.trapinfo).toNat
  let pair := lo + hi * 2 ^ 32
  ({ grp with
      fltstat := grp.fltstat &&& ~~~0xA000#32
      split := grp.split.map fun e => (e.1, { e.2 with held := false }) },
    cur, BitVec.ofNat 57 (fld pair 0 57), fld pair 57 5)

/-! ## The running clause -/

/-- What an instruction finds where it executes: its track and its group. -/
structure Ctx where
  t : Nat
  trk : Track
  run : Run
  g : Nat
  grp : Group
  frag : Frag
  team : Team
  grid : Grid
/-- Executes an instruction on the focused track (R26, R27). -/
def State.ctx (s : State) : Option Ctx :=
  match s.focus with
  | none => none
  | some t =>
    match (s.track t).run with
    | none => none
    | some r =>
      match s.group r.group with
      | none => none
      | some grp =>
        match find r.entry grp.split, s.team grp.team, s.grid grp.grid with
        | some f, some tm, some gd => some ⟨t, s.track t, r, r.group, grp, f, tm, gd⟩
        | _, _, _ => none
/-- Runs `k` in the context of the focused track; there is none when no clause is executing. -/
def onTrack (s : State) (k : Ctx → Out) : Out :=
  match s.ctx with
  | some c => k c
  | none => off "instruction: no track executes a clause"
def Ctx.core (c : Ctx) : Nat := coreOf c.t
def Ctx.die (c : Ctx) : Nat := dieOf (coreOf c.t)
/-- A k register as the fragment reads it (R37). -/
def Ctx.k (c : Ctx) (i : Nat) : Mask := look 0 i c.grp.k &&& c.frag.mask
/-- The active set before any prefix (R26). -/
def Ctx.k0 (c : Ctx) : Mask := c.k 0
/-- The active set (R26, R68). -/
def Ctx.act (c : Ctx) : Mask :=
  match c.run.pfx with
  | none => c.k0
  | some p => c.k0 &&& c.k p.gm.toNat
/-- The lanes that execute: the active set from the resume-lane cursor up (R30). -/
def Ctx.lanes (c : Ctx) : List Nat :=
  (lanesOf c.act).filter fun i => decide ((c.run.cursor.getD 0) ≤ i)
/-- The address of the word being executed, and of the clause header (R52). -/
def Ctx.hdr (c : Ctx) : Nat := c.run.hdr.toNat
def Ctx.iaddr (c : Ctx) : Nat := (c.hdr + 8 * c.run.pos) % 2 ^ 57
/-- The header of the clause that follows (R52). -/
def Ctx.nextHdr (c : Ctx) : VAddr := c.run.hdr + BitVec.ofNat 57 (8 * (fld c.run.header.toNat 56 4 + 2))
/-- The word at which a precise fault resumes: the PFX of a prefixed instruction (R322). -/
def Ctx.resumeWord (c : Ctx) : Nat := if c.run.pfx.isSome then c.run.pos - 1 else c.run.pos
/-- h + 8 × a signed word offset (R65). -/
def Ctx.target {n : Nat} (c : Ctx) (off : BitVec n) : VAddr :=
  c.run.hdr + BitVec.ofInt 57 (8 * off.toInt)
/-- Steps of a per-lane instruction with n active lanes (R26). -/
def laneSteps (n : Nat) : Nat := if n = 0 then 1 else max n 4

/-- Puts a fragment back into its group. -/
def Group.setFrag (g : Group) (e : Nat) (f : Frag) : Group := { g with split := ins e f g.split }
/-- The live-mask word of the running clause: its last word (R55, R69). -/
def Ctx.liveMask (c : Ctx) : DWord := c.run.words.getLastD 0
/-- The group's resume-lane cursor after a resumed instruction is complete (R114). -/
def Ctx.settle (c : Ctx) (grp : Group) : Group :=
  if c.run.cursor.isSome then { grp with cursor := 0 } else grp
/-- A cursor of 32 counts the resumed instruction as complete: it takes no effect (R323). -/
def Ctx.done (c : Ctx) : Bool := c.run.cursor == some 32
/-- The word at which a fragment continues: of its terminal instruction alone, where that executes again (R170). -/
def Frag.resumeWord (f : Frag) : Nat := if f.redo then f.term else f.word
/-- The end of a clause without a transfer, or with one to `pc` (R27, R32, R52, R332): the fragment is
at `pc`, judged for arrival at its next choice, and stops there at a safe point of a pre-emption. -/
def endClause (c : Ctx) (grp : Group) (sp : Bool) (pc : VAddr) : Group :=
  match find c.run.entry grp.split with
  | none => grp
  | some f => grp.setFrag c.run.entry { f with
      pc := pc, word := 0, fresh := true, cursor := none, redo := false,
      stop := if sp && grp.preempt then some c.liveMask else f.stop }
/-- The instruction is complete: the next word, or the end of the clause (R27, R52, R55). `steps` is
its cost (R26). -/
def State.advance (s : State) (c : Ctx) (grp : Group) (trk : Track) (sp : Bool) (steps : Nat) :
    State :=
  if sp || decide (c.run.words.length < c.run.pos + 1) then
    (s.setGroup c.g (endClause c (c.settle grp) sp c.nextHdr)).setTrack c.t
      { trk with run := none, latches := [], steps := trk.steps + steps }
  else
    (s.setGroup c.g (c.settle grp)).setTrack c.t
      { trk with
        run := some { c.run with pos := c.run.pos + 1, pfx := none, cursor := none }
        steps := trk.steps + steps }
/-- The instruction transfers control to `pc` and ends its clause (R27, R55). -/
def State.transfer (s : State) (c : Ctx) (grp : Group) (sp : Bool) (pc : VAddr) (steps : Nat) :
    State :=
  (s.setGroup c.g (endClause c (c.settle grp) sp pc)).setTrack c.t
    { c.trk with run := none, latches := [], steps := c.trk.steps + steps }
/-- The clause ends at a wait: the fragment waits and continues at the word that follows (R27, R36). No word follows a
wait that is its clause's last: the fragment is then at the next clause's header with `word` 0, and the old header's
waits are not applied again (DESIGN CHOICE, log 64). A wait that ends its clause at a safe point stops there for a
pre-emption (R332, log 27). -/
def State.waitHere (s : State) (c : Ctx) (grp : Group) (w : Wait) (sp : Bool) : State :=
  let last := sp || decide (c.run.words.length < c.run.pos + 1)
  let grp' := match find c.run.entry grp.split with
    | none => grp
    | some f => (c.settle grp).setFrag c.run.entry
        (if last then { f with
            state := .waiting, wait := w, pc := c.nextHdr, word := 0, fresh := true, cursor := none,
            stop := if sp then some c.liveMask else f.stop }
         else { f with state := .waiting, wait := w, word := c.run.pos + 1, cursor := none })
  (s.setGroup c.g grp').setTrack c.t
    { c.trk with run := none, latches := [], steps := c.trk.steps + 1 }
/-- A precise fault of the running instruction (R30, R318). It charges no step: the spec gives no cost for the lanes
below the faulting one (DESIGN CHOICE, log 65). -/
def State.precise (s : State) (c : Ctx) (kind cursor : Nat) (lane : Option Nat) (addr detail : Nat) :
    State :=
  State.takeFault (s.updTrack c.t fun k => { k with run := k.run.map fun r => { r with cursor := lane } }) c.t c.g c.run.entry
    { s.groupRec kind c.g with
      lane := match lane with | some i => i + 128 | none => 0
      iaddr := c.iaddr, addr := addr, detail := detail }
    cursor (resumePair c.run.hdr c.resumeWord) (BitVec.ofNat 64 addr)
/-- Adds to the error counters of a core, saturating (R117, R119). -/
def Core.count (k : Core) (ce ue : Nat) : Core :=
  { k with
    rfce := BitVec.ofNat 32 (min (k.rfce.toNat + ce) (2 ^ 32 - 1))
    rfue := BitVec.ofNat 32 (min (k.rfue.toNat + ue) (2 ^ 32 - 1)) }
/-- A scoreboard goes up or down by one; never below 0 (R365). -/
def Group.sbUp (g : Group) (i : Nat) : Group := { g with sb := put 0 i (look 0 i g.sb + 1) g.sb }
def Group.sbDown (g : Group) (i : Nat) : Group := { g with sb := put 0 i (look 0 i g.sb - 1) g.sb }

end Sys2Proof.Machine
end

