-- ==== Sys2Proof/Machine/Operands.lean ====
section
/-! DEFINITION. Operand forms (R60 to R62): reading registers, latches and immediates with the
protection of R119 and R120, writing results (R31, R58), and executing a lane function over the active
lanes (R26, R30, R68) or once (R34). -/

namespace Sys2Proof.Machine

/-- The registers of a width (R60). -/
def Width.count : Width → Nat
  | .single => 1 | .pair => 2 | .quad => 4 | .octet => 8
/-- A register that nothing has written. -/
def RegWord.zero : RegWord := ⟨0, .clean⟩
/-- Any write of a whole word stores new check bits and clears the poison bit (R119). -/
def RegWord.of (w : Word) : RegWord := ⟨w, .clean⟩
/-- A word written with its poison bit set (R211, R257). -/
def RegWord.poison (w : Word) : RegWord := ⟨w, .poisoned⟩

/-- The registers that an instruction works on, and the errors counted so far (R117, R119). -/
structure RegFile where
  v : SMap RegWord
  s : SMap RegWord
  l : SMap RegWord
  ce : Nat
  ue : Nat
  deriving DecidableEq, Repr

def RegFile.of (g : Group) (k : Track) : RegFile := ⟨g.v, g.s, k.latches, 0, 0⟩
/-- Where a word lies: v registers by lane, s registers once, latches by lane. -/
inductive Bank | v | s | l
  deriving DecidableEq, Repr
def RegFile.get (r : RegFile) (b : Bank) (key : Nat) : RegWord :=
  match b with
  | .v => look RegWord.zero key r.v
  | .s => look RegWord.zero key r.s
  | .l => look RegWord.zero key r.l
def RegFile.set (r : RegFile) (b : Bank) (key : Nat) (w : RegWord) : RegFile :=
  match b with
  | .v => { r with v := put RegWord.zero key w r.v }
  | .s => { r with s := put RegWord.zero key w r.s }
  | .l => { r with l := put RegWord.zero key w r.l }
/-- The key of v register r in lane i, and of latch entry i. -/
def vkey (r i : Nat) : Nat := 32 * r + i
/-- The words that an operand specifier names for a lane (R60), lowest first. -/
def srcWords (x : Src) (lane : Nat) : List (Bank × Nat) :=
  let n := x.num.toNat
  match x.kind with
  | .v => (List.range (Width.count x.width)).map fun j => (Bank.v, vkey (n + j) lane)
  | .s => (List.range (Width.count x.width)).map fun j => (Bank.s, n + j)
  | .latch => [(Bank.l, vkey (n % 4) lane)]
  | .imm => []
def dstWords (x : Dst) (lane : Nat) : List (Bank × Nat) :=
  (List.range (Width.count x.width)).map fun j =>
    if x.isS then (Bank.s, x.num.toNat + j) else (Bank.v, vkey (x.num.toNat + j) lane)
/-- The action of the device on every read of a word (R119): a single-bit error is corrected and
counted; an uncorrectable one is poisoned and counted at first detection. The second component says
whether the word is uncorrectable. -/
def RegFile.touch (r : RegFile) (b : Bank) (key : Nat) : RegFile × Bool :=
  let w := r.get b key
  match w.ecc with
  | .clean => (r, false)
  | .single => ({ r.set b key ⟨w.val, .clean⟩ with ce := r.ce + 1 }, false)
  | .double => ({ r.set b key ⟨w.val, .poisoned⟩ with ue := r.ue + 1 }, true)
  | .poisoned => (r, true)
/-- Reads of several words, in order. -/
def RegFile.touchAll (r : RegFile) : List (Bank × Nat) → RegFile × Bool
  | [] => (r, false)
  | (b, k) :: l =>
    let (r1, x) := r.touch b k
    let (r2, y) := r1.touchAll l
    (r2, x || y)
/-- The value of words, lowest first, as one number. -/
def RegFile.value (r : RegFile) : List (Bank × Nat) → Nat
  | [] => 0
  | (b, k) :: l => (r.get b k).val.toNat + 2 ^ 32 * r.value l
/-- The value of an operand: registers, a latch entry, or an immediate sign-extended to the operation's
operand width (R60). -/
def RegFile.operand (r : RegFile) (x : Src) (lane width : Nat) : Nat :=
  match x.kind with
  | .imm => (x.num.signExtend width).toNat
  | _ => r.value (srcWords x lane)
/-- Writes a number into words, lowest first. -/
def RegFile.store (r : RegFile) : List (Bank × Nat) → Nat → RegFile
  | [], _ => r
  | (b, k) :: l, x => (r.set b k (RegWord.of (BitVec.ofNat 32 x))).store l (x / 2 ^ 32)
/-- The write-back of R58 and R31: to D unless NWB, and to latch LN with LC. -/
def RegFile.writeBack (r : RegFile) (m : Mods) (d : Dst) (lane x : Nat) : RegFile :=
  let r1 := if m.nwb then r else r.store (dstWords d lane) x
  if m.lc then r1.set .l (vkey m.ln.toNat lane) (RegWord.of (BitVec.ofNat 32 x)) else r1

/-- One lane of an instruction: the words it reads, checked, then what it does with the registers.
None when a word is uncorrectable (R120); the reads' corrections stay. -/
def laneStep (reads : Nat → List (Bank × Nat)) (f : RegFile → Nat → RegFile) (r : RegFile)
    (lane : Nat) : RegFile × Bool :=
  let (r1, bad) := r.touchAll (reads lane)
  if bad then (r1, true) else (f r1 lane, false)
/-- The lanes of an instruction in ascending order, to the first that faults (R26, R30). -/
def laneLoop (reads : Nat → List (Bank × Nat)) (f : RegFile → Nat → RegFile) :
    List Nat → RegFile → RegFile × Option Nat
  | [], r => (r, none)
  | i :: l, r =>
    match laneStep reads f r i with
    | (r1, true) => (r1, some i)
    | (r1, false) => laneLoop reads f l r1

/-- The registers back into the group, and the latches into the track. -/
def Group.withRegs (g : Group) (r : RegFile) : Group := { g with v := r.v, s := r.s }
def Track.withRegs (k : Track) (r : RegFile) : Track := { k with latches := r.l }
/-- Counts the errors of an instruction at the core (R117). -/
def State.countErrors (s : State) (c : Ctx) (r : RegFile) : State :=
  if r.ce = 0 ∧ r.ue = 0 then s else s.updCore c.core (·.count r.ce r.ue)

/-- Completes an instruction that leaves the registers `r`, or takes the register-file-error fault at
the lane that met an uncorrectable word (R30, R120). -/
def State.regDone (s : State) (c : Ctx) (r : RegFile) (fault : Option Nat) (cursor : Nat) (sp : Bool)
    (steps : Nat) : State :=
  let s1 := s.countErrors c r
  let grp := c.grp.withRegs r
  let trk := c.trk.withRegs r
  match fault with
  | none => s1.advance c grp trk sp steps
  | some j =>
    ((s1.setGroup c.g grp).setTrack c.t trk).precise c 0x06 cursor (if j < 32 then some j else none) 0 0

/-- A per-lane instruction (R26): `f` over the executing lanes, and under a prefix with MZ the zero
writes of the lanes that GM leaves out (R68), which raise nothing. -/
def runLanes (s : State) (c : Ctx) (m : Mods) (d : Option Dst) (reads : Nat → List (Bank × Nat))
    (f : RegFile → Nat → RegFile) : State :=
  let zeroes : Mask := match c.run.pfx with
    | some p => if p.mz then c.k0 &&& ~~~(c.k p.gm.toNat) else 0
    | none => 0
  let from_ := c.run.cursor.getD 0
  let reads' (i : Nat) : List (Bank × Nat) := if zeroes.getLsbD i then [] else reads i
  let f' (r : RegFile) (i : Nat) : RegFile :=
    if zeroes.getLsbD i then
      match d with
      | some d => r.writeBack m d i 0
      | none => r
    else f r i
  let ls := (lanesOf (c.act ||| zeroes)).filter fun i => decide (from_ ≤ i)
  let (r, bad) := laneLoop reads' f' ls (RegFile.of c.grp c.trk)
  s.regDone c r bad (bad.getD 0) m.sp (laneSteps ls.length)
/-- A uniform instruction (R34): once, whatever k0 holds, with s operands; a cursor of 32 counts it
complete (R323). -/
def runUniform (s : State) (c : Ctx) (sp : Bool) (reads : List (Bank × Nat))
    (f : RegFile → RegFile) : State :=
  let r0 := RegFile.of c.grp c.trk
  if c.run.cursor = some 32 then s.regDone c r0 none 0 sp 1
  else
    let (r1, bad) := r0.touchAll reads
    if bad then s.regDone c r1 (some 32) 0 sp 1 else s.regDone c (f r1) none 0 sp 1

/-- An instruction of formats T, RI, L or V: `reads` names the words of a lane, `val` computes D's
number from the registers (R26, R34, R58). -/
def runAlu (s : State) (m : Mods) (d : Dst) (reads : Nat → List (Bank × Nat))
    (val : RegFile → Nat → Option Pfx → Nat) : Out :=
  onTrack s fun c =>
    if m.uni then
      .next (runUniform s c m.sp (reads 0) fun r => r.writeBack m d 0 (val r 0 none))
    else
      .next (runLanes s c m (some d) reads fun r i => r.writeBack m d i (val r i c.run.pfx))
/-- Format T on operand A alone; `w` is the width in bits of an immediate operand (R60). -/
def aluT1 (s : State) (f : FmtT) (w : Nat) (op : Option Pfx → Nat → Nat) : Out :=
  runAlu s f.m f.d (srcWords f.a) fun r i p => op p (r.operand f.a i w)
/-- Format T on operands A and B. -/
def aluT2 (s : State) (f : FmtT) (wa wb : Nat) (op : Option Pfx → Nat → Nat → Nat) : Out :=
  runAlu s f.m f.d (fun i => srcWords f.a i ++ srcWords f.b i)
    fun r i p => op p (r.operand f.a i wa) (r.operand f.b i wb)
/-- Format T on operands A, B and C. -/
def aluT3 (s : State) (f : FmtT) (wa wb wc : Nat) (op : Option Pfx → Nat → Nat → Nat → Nat) : Out :=
  runAlu s f.m f.d (fun i => srcWords f.a i ++ srcWords f.b i ++ srcWords f.c i)
    fun r i p => op p (r.operand f.a i wa) (r.operand f.b i wb) (r.operand f.c i wc)

end Sys2Proof.Machine
end

