-- ==== Sys2Proof/Machine/Flags.lean ====
section
/-! DEFINITION. The hardware has no condition flags (R92, R97); what takes their place are the mask
registers k0 to k7. Reads and writes of masks (R37, R134), and the conditions of R64. -/

namespace Sys2Proof.Machine

/-- A k register written for the lanes of `sel`: only lanes of the fragment's mask below %nlanes
change (R24, R37, R134). -/
def Ctx.kWrite (c : Ctx) (g : Group) (kd : Nat) (v sel : Mask) : Group :=
  let w := sel &&& c.frag.mask &&& below g.nlanes
  let old := look 0 kd g.k
  { g with k := put 0 kd ((old &&& ~~~w) ||| (v &&& w)) g.k }
/-- The integer value of an operand under a type (R131): low bits, then sign or zero extension. -/
def Ty.bitsOf : Ty → Nat
  | .i8 | .n8 | .e4m3 | .e5m2 => 8
  | .i16 | .n16 | .f16 | .bf16 => 16
  | .i32 | .n32 | .f32 => 32
  | .i64 | .n64 => 64
def Ty.signed : Ty → Bool
  | .i8 | .i16 | .i32 | .i64 => true
  | _ => false
def Ty.isInt : Ty → Bool
  | .i8 | .n8 | .i16 | .n16 | .i32 | .n32 | .i64 | .n64 => true
  | _ => false
/-- The number that a register value holds under an integer type (R91). -/
def tyVal (t : Ty) (x : Nat) : Int :=
  let w := Ty.bitsOf t
  if Ty.signed t then sgn (x % 2 ^ w) w else ((x % 2 ^ w : Nat) : Int)
/-- The integer conditions of R64. -/
def condInt (c : Cond) (a b : Int) : Bool :=
  match c with
  | .eq => decide (a = b)
  | .ne => decide (a ≠ b)
  | .lt => decide (a < b)
  | .le => decide (a ≤ b)
  | .gt => decide (a > b)
  | .ge => decide (a ≥ b)
  | _ => false
/-- How the values of a float comparison stand (R64): ordered less, equal, greater, or unordered. -/
inductive FRel | lt | eq | gt | un
  deriving DecidableEq, Repr
/-- The float conditions of R64. -/
def condFloat (c : Cond) (r : FRel) : Bool :=
  match c with
  | .eq => r == .eq
  | .ne => r != .eq
  | .lt => r == .lt
  | .le => r == .lt || r == .eq
  | .gt => r == .gt
  | .ge => r == .gt || r == .eq
  | .ord => r != .un
  | .uno => r == .un
  | .equ => r == .un || r == .eq
  | .neo => r == .lt || r == .gt
  | .ltu => r == .un || r == .lt
  | .leu => r == .un || r == .lt || r == .eq
  | .gtu => r == .un || r == .gt
  | .geu => r == .un || r == .gt || r == .eq
/-- The join of R131. -/
def joinBit (j : JOp) (c k : Bool) : Bool :=
  match j with
  | .none => c
  | .and => c && k
  | .or => c || k
  | .xor => c != k

/-- A comparison of format K (R131, R146): lane by lane, one bit of kD for each executing lane. -/
def runCompare (s : State) (f : FmtK) (wa : Nat) (cmp : Nat → Nat → Bool) : Out :=
  onTrack s fun c =>
    let reads (i : Nat) := srcWords f.a i ++ srcWords f.b i
    let (r, bad) := laneLoop reads (fun r _ => r) c.lanes (RegFile.of c.grp c.trk)
    let done := match bad with
      | none => c.lanes
      | some j => c.lanes.filter fun i => decide (i < j)
    let res := done.filter fun i =>
      joinBit f.jop (cmp (r.operand f.a i wa) (r.operand f.b i wa)) ((c.k f.kj.toNat).getLsbD i)
    let g := c.kWrite c.grp f.kd.toNat (maskOf res) (maskOf done)
    .next (s.regDone { c with grp := g } r bad (bad.getD 0) f.sp (laneSteps c.lanes.length))

end Sys2Proof.Machine
end

