-- ==== Sys2Proof/Machine/Fields.lean ====
section
/-! DEFINITION. The field rules that validation applies to an instruction (R56, R58 to R62, and the
instructions' own descriptions), against the counts that the kernel declares. -/

namespace Sys2Proof
open Machine

/-- What the kernel declares: v registers, tiles, barriers (R79, R306). -/
structure Decl where
  v : Nat
  tiles : Nat
  bars : Nat
  deriving DecidableEq, Repr

/-- A register range is aligned and within its file (R61). -/
def regRange (k : Decl) (isS : Bool) (w : Width) (n : Nat) : Bool :=
  n % Machine.Width.count w == 0 && decide (n + Machine.Width.count w ≤ if isS then 128 else k.v)
/-- A specifier of the given width (R60, R61); `imm` and `latch` say whether those kinds may stand. -/
def Src.fits (k : Decl) (uni : Bool) (w : Width) (x : Src) (imm : Bool := true)
    (latch : Bool := true) : Bool :=
  match x.kind with
  | .v => !uni && x.width == w && regRange k false w x.num.toNat
  | .s => x.width == w && regRange k true w x.num.toNat
  | .latch => latch && !uni && w == .single && x.width == .single && decide (x.num.toNat < 4)
  | .imm => imm && x.width == .single
/-- An unused field is 0x000 (R61). -/
def Src.unused (x : Src) : Bool := x == ⟨.v, .single, 0⟩
def Dst.unused (x : Dst) : Bool := x == ⟨false, .single, 0⟩
/-- A destination of a width (R59, R62): v with UNI = 0, s with UNI = 1. -/
def Dst.fits (k : Decl) (uni : Bool) (w : Width) (d : Dst) : Bool :=
  d.isS == uni && d.width == w && regRange k d.isS w d.num.toNat
/-- A single s destination (R137). -/
def Dst.single_s (k : Decl) (d : Dst) : Bool := d.isS && d.width == .single && regRange k true .single d.num.toNat
/-- LC and LN (R33, R58). -/
def Mods.ok (m : Mods) (d : Dst) : Bool :=
  (if m.lc then d.width == .single && !m.uni && !d.isS else m.ln == 0)
def orUnused (k : Decl) (uni : Bool) (w : Option Width) (x : Src) : Bool :=
  match w with
  | none => x.unused
  | some w => x.fits k uni w

/-- Format T: widths of D, A, B and C, the FN rule, and whether UNI may be 1. -/
def FmtT.ok (k : Decl) (f : FmtT) (dw aw : Width) (bw cw : Option Width) (fn : Bool)
    (uni : Bool := true) : Bool :=
  (uni || !f.m.uni) && f.d.fits k f.m.uni dw && f.a.fits k f.m.uni aw && orUnused k f.m.uni bw f.b &&
  orUnused k f.m.uni cw f.c && f.m.ok f.d && fn
/-- The width w of R124. -/
def FmtT.w (f : FmtT) : Width := f.d.width
def pairOrSingle (w : Width) : Bool := w == .single || w == .pair
/-- FN of R125. -/
def signFn (fn : BitVec 3) : Bool := decide (fn.toNat < 2)
/-- Three forms of R127 and R129: A, B of width w; and A, B, C; and A alone. -/
def ok2 (k : Decl) (f : FmtT) (fn : Bool) : Bool :=
  pairOrSingle f.w && f.ok k f.w f.w (some f.w) none fn
def ok3 (k : Decl) (f : FmtT) (fn : Bool) : Bool :=
  pairOrSingle f.w && f.ok k f.w f.w (some f.w) (some f.w) fn
def ok1 (k : Decl) (f : FmtT) (fn : Bool) : Bool := pairOrSingle f.w && f.ok k f.w f.w none none fn
/-- Singles throughout (R141). -/
def s1 (k : Decl) (f : FmtT) (fn : Bool) : Bool := f.ok k .single .single none none fn
def s2 (k : Decl) (f : FmtT) (fn : Bool) : Bool := f.ok k .single .single (some .single) none fn
def s3 (k : Decl) (f : FmtT) (fn : Bool) : Bool :=
  f.ok k .single .single (some .single) (some .single) fn
/-- Shifts by a single count, and the counts of one set bits of A (R129). -/
def okShift (k : Decl) (f : FmtT) : Bool :=
  pairOrSingle f.w && f.ok k f.w f.w (some .single) none (f.fn == 0)
def okCount (k : Decl) (f : FmtT) : Bool :=
  pairOrSingle f.a.width && f.ok k .single f.a.width none none (f.fn == 0)
/-- The width of a value of a type (R64). -/
def Ty.width (t : Ty) : Width := if Machine.Ty.bitsOf t = 64 then .pair else .single
def Ty.int (t : Ty) : Bool :=
  match t with
  | .i8 | .n8 | .i16 | .n16 | .i32 | .n32 | .i64 | .n64 => true
  | _ => false
/-- Format K (R131, R146). -/
def FmtK.ok (k : Decl) (f : FmtK) (w : Width) : Bool :=
  f.a.fits k false w && f.b.fits k false w && (f.jop != .none || f.kj == 0) && f.fn == 0
def Cond.int (c : Cond) : Bool :=
  match c with
  | .eq | .ne | .lt | .le | .gt | .ge => true
  | _ => false
/-- A base register of the memory forms (R238): never an immediate. -/
def baseOk (k : Decl) (uni : Bool) (w : Width) (x : Src) : Bool := x.fits k uni w false false
/-- A destination specifier that names data to be read (R238, R255; log 20): v or s. -/
def dataOk (k : Decl) (uni : Bool) (w : Width) (d : Dst) : Bool :=
  (!uni || d.isS) && d.width == w && regRange k d.isS w d.num.toNat
/-- The spaces of R238. -/
inductive MemForm | glob | scr | clu
  deriving DecidableEq, Repr
/-- Format M of the loads and stores (R238). -/
def FmtM.ok (k : Decl) (f : FmtM) (form : MemForm) (store : Bool) (wide : Bool) : Bool :=
  (wide || f.d.width == .single) &&
  (if store then dataOk k f.m.uni f.d.width f.d else f.d.fits k f.m.uni f.d.width) &&
  baseOk k f.m.uni (if form = .glob then .pair else .single) f.base &&
  (!store || f.sb == 0) &&
  (match form with
    | .glob => f.order != .weak || f.scope == .core
    | .scr => f.scope == .core || f.scope == .clus
    | .clu => f.scope == .clus || (f.scope == .core && f.order == .weak)) &&
  (if store then f.order != .acquire else f.order != .release) &&
  (!f.na || (form = .glob && !store)) &&
  (f.order == .weak || pairOrSingle f.d.width)
/-- Format A (R247, R248). -/
def aopTy (op : AOp) (t : Ty) : Bool :=
  let i := t == .i32 || t == .n32 || t == .i64 || t == .n64
  match op with
  | .add => i || t == .f32
  | .min => i || t == .f32
  | .max => i || t == .f32
  | .and => i
  | .or => i
  | .xor => i
  | .exch => i || t == .f32
  | .incw => t == .n32
  | .decw => t == .n32
def FmtA.ok (k : Decl) (f : FmtA) (scr cas red : Bool) : Bool :=
  let w := Ty.width f.ty
  (if red then f.d.unused else f.d.fits k f.m.uni w) &&
  baseOk k f.m.uni (if scr then .single else .pair) f.base &&
  (if cas then f.b.fits k f.m.uni (if w = .pair then .quad else .pair) false false &&
      f.aop == .add && (f.ty == .i32 || f.ty == .n32 || f.ty == .i64 || f.ty == .n64)
   else f.b.fits k f.m.uni w && aopTy f.aop f.ty) &&
  (!red || f.aop != .exch) && f.order != .weak &&
  (!scr || f.scope == .core || f.scope == .clus)
/-- A FIFO form with the given data rule (R255). -/
def FmtF.ok (k : Decl) (f : FmtF) (d sb : Bool) : Bool := d && sb && baseOk k f.m.uni .single f.base
/-- s registers by number, of a count (R61). -/
def sReg (n : BitVec 7) (count : Nat) : Bool := decide (n.toNat + count ≤ 128)
def even {n : Nat} (x : BitVec n) : Bool := x.toNat % 2 == 0
/-- A barrier number, or zero where BE is clear (R283, R290). -/
def barOk (k : Decl) (be : Bool) (b : BitVec 7) : Bool := if be then decide (b.toNat < k.bars) else b == 0
/-- An operand of a space (R282). -/
def spaceOk (k : Decl) (uni : Bool) (sp : Space) (x : Src) : Bool :=
  x.fits k uni (if sp = .gl then .pair else .single) false false
def kindIs (x : Src) (s : Bool) : Bool := x.kind == if s then .s else .v
/-- The window forms of R299. -/
def FmtC.winOk (k : Decl) (f : FmtC) (uni : Bool) (lo hi : Nat) : Bool :=
  f.m.uni == uni && kindIs f.daddr uni && f.daddr.fits k uni .quad false false && kindIs f.saddr uni &&
  spaceOk k uni f.sspace f.saddr && f.dspace == .gl && !f.be && f.bar == 0 &&
  decide (lo ≤ f.size.toNat) && decide (f.size.toNat ≤ hi)
/-- A tile that the kernel declares (R182). -/
def tileOk (k : Decl) (a : BitVec 3) : Bool := decide (a.toNat < k.tiles)
def vReg (k : Decl) (n : BitVec 8) : Bool := decide (n.toNat < k.v)
/-- The system registers of R117 by number: width in registers at that number, and whether WRSR may
write it. -/
def srWidth (n : Nat) : Option (Nat × Bool) :=
  if n = 0 then some (1, false)
  else if n = 1 then some (1, true)
  else if n = 2 then some (2, true)
  else if 3 ≤ n ∧ n ≤ 7 then some (1, true)
  else if n = 0x10 then some (1, false)
  else if 0x20 ≤ n ∧ n ≤ 0x27 then some (if n % 2 = 0 then 2 else 1, true)
  else if n = 0x30 then some (1, true)
  else if n = 0x31 then some (1, false)
  else if n = 0x40 then some (1, true)
  else if n = 0x50 then some (1, true)
  else if 0x60 ≤ n ∧ n ≤ 0x62 then some (1, false)
  else if 0x100 ≤ n ∧ n ≤ 0x18F then some (1, false)
  else none

/-- The field rules of an instruction; events have none. -/
def fieldsOk (k : Decl) (i : Instr) : Bool :=
  match i with
  | .nop _ => true
  | .iadd f => ok2 k f (signFn f.fn)
  | .isub f => ok2 k f (signFn f.fn)
  | .iaddi f => pairOrSingle f.d.width && f.d.fits k f.m.uni f.d.width &&
      f.a.fits k f.m.uni f.d.width && f.m.ok f.d && signFn f.fn
  | .imul f => ok2 k f (signFn f.fn)
  | .imulh f => ok2 k f (signFn f.fn)
  | .imad f => ok3 k f (signFn f.fn)
  | .imadw f => f.ok k .pair .single (some .single) (some .pair) (signFn f.fn)
  | .idiv f => ok2 k f (signFn f.fn)
  | .irem f => ok2 k f (signFn f.fn)
  | .imin f => ok2 k f (signFn f.fn)
  | .imax f => ok2 k f (signFn f.fn)
  | .iabs f => ok1 k f (f.fn == 0)
  | .ineg f => ok1 k f (f.fn == 0)
  | .isad f => ok3 k f (signFn f.fn)
  | .iadd3 f => ok3 k f (signFn f.fn)
  | .lea f => f.ok k .pair (if f.a.width = .pair then .pair else .single) (some .pair) none true
  | .and f => ok2 k f (f.fn == 0)
  | .or f => ok2 k f (f.fn == 0)
  | .xor f => ok2 k f (f.fn == 0)
  | .andn f => ok2 k f (f.fn == 0)
  | .not f => ok1 k f (f.fn == 0)
  | .shl f => okShift k f
  | .shr f => okShift k f
  | .sar f => okShift k f
  | .rol f => okShift k f
  | .fshl f => pairOrSingle f.w && f.ok k f.w f.w (some f.w) (some .single) (f.fn == 0)
  | .fshr f => pairOrSingle f.w && f.ok k f.w f.w (some f.w) (some .single) (f.fn == 0)
  | .bfx f => pairOrSingle f.w && f.ok k f.w f.w (some .single) none (signFn f.fn)
  | .bfi f => pairOrSingle f.w && f.ok k f.w f.w (some .single) (some f.w) (f.fn == 0)
  | .popc f => okCount k f
  | .clz f => okCount k f
  | .ctz f => okCount k f
  | .brev f => ok1 k f (f.fn == 0)
  | .bytp f => s3 k f (f.fn == 0)
  | .icmp f => f.ok k (Ty.width f.ty) && Ty.int f.ty && Cond.int f.cond
  | .isel f => pairOrSingle f.w && f.ok k f.w f.w (some f.w) none true false
  | .iclamp f => ok3 k f (signFn f.fn)
  | .mov f => f.ok k f.w f.w none none (f.fn == 0) && (f.a.kind != .imm || pairOrSingle f.w)
  | .movi f => pairOrSingle f.d.width && f.d.fits k f.m.uni f.d.width && f.m.ok f.d
  | .movih f => f.d.fits k f.m.uni .pair && f.m.ok f.d
  | .movs m d sel => decide (sel.toNat ≤ 0x10) && (!m.uni || sel != 0) &&
      d.fits k m.uni (if sel = 0x10 then .pair else .single) && m.ok d
  | .movk _ _ d _ => d.single_s k
  | .kmov _ _ a => match a with
      | .s sn => decide (sn.toNat < 128)
      | _ => true
  | .kop _ _ _ _ _ => true
  | .kpopc _ _ d _ => d.single_s k
  | .kfind _ _ d _ _ => d.single_s k
  | .cvt f => f.d.fits k f.m.uni (Ty.width f.dty) && f.a.fits k f.m.uni (Ty.width f.sty) &&
      f.m.ok f.d && f.fn == 0
  | .pack f => s2 k f (decide (f.fn.toNat ≤ 2))
  | .spread f => f.a.kind == .s && decide (f.fn.toNat ≤ 2) &&
      f.ok k .single (if f.fn = 0 then .single else .octet) none none true false
  | .fadd f => s2 k f (f.fn == 0)
  | .fsub f => s2 k f (f.fn == 0)
  | .fmul f => s2 k f (f.fn == 0)
  | .ffma f => s3 k f (f.fn == 0)
  | .fmin f => s2 k f (f.fn == 0)
  | .fmax f => s2 k f (f.fn == 0)
  | .fsgn f => if f.fn.toNat ≤ 2 then s2 k f true else s1 k f (decide (f.fn.toNat ≤ 4))
  | .fcmp f => f.ok k .single && (f.ty == .f32 || f.ty == .f16 || f.ty == .bf16)
  | .fclass f => s1 k f (decide (f.fn.toNat ≤ 4))
  | .frnd f => s1 k f (f.fn == 0)
  | .hadd2 f => s2 k f (signFn f.fn)
  | .hmul2 f => s2 k f (signFn f.fn)
  | .hfma2 f => s3 k f (signFn f.fn)
  | .hmin2 f => s2 k f (signFn f.fn)
  | .hmax2 f => s2 k f (signFn f.fn)
  | .dot4 f => s3 k f (decide (f.fn.toNat < 4))
  | .dot2 f => s3 k f (signFn f.fn)
  | .idot4 f => s3 k f (decide (f.fn.toNat < 4))
  | .rcp f => s1 k f (f.fn == 0)
  | .rsq f => s1 k f (f.fn == 0)
  | .sqrt f => s1 k f (f.fn == 0)
  | .exp2 f => s1 k f (f.fn == 0)
  | .log2 f => s1 k f (f.fn == 0)
  | .sinr f => s1 k f (f.fn == 0)
  | .cosr f => s1 k f (f.fn == 0)
  | .tanh f => s1 k f (f.fn == 0)
  | .fdiv f => s2 k f (f.fn == 0)
  | .xshf f => pairOrSingle f.w && f.ok k f.w f.w (some .single) (some f.w) (signFn f.fn) false
  | .xrot f => pairOrSingle f.w && f.ok k f.w f.w (some .single) (some f.w) (signFn f.fn) false
  | .xbfly f => pairOrSingle f.w && f.ok k f.w f.w (some .single) (some f.w) (f.fn == 0) false
  | .xbcst f => pairOrSingle f.w && f.ok k f.w f.w (some .single) (some f.w) (f.fn == 0) false
  | .xscan f => f.ok k .single .single (some .single) none (signFn f.fn) false && ctl f.b
  | .xred f => !f.m.uni && f.d.fits k f.d.isS .single && f.a.fits k false .single &&
      f.c.unused && f.m.ok f.d && f.fn == 0 && ctl f.b &&
      (!f.d.isS || f.b.num.toNat / 16 == 5)
  | .xset _ _ mem sn => if mem then decide (sn.toNat < 128)
      else decide (sn.toNat + 8 ≤ 128) && sn.toNat % 8 == 0
  | .xperm f => pairOrSingle f.w && f.ok k f.w f.w none (some f.w) true false
  | .xgen _ _ a => vReg k a
  | .xmatch f => pairOrSingle f.a.width && !f.fn.getLsbD 2 && (!f.fn.getLsbD 0 || f.a.width == .single) &&
      (if f.fn.getLsbD 1 then f.b.kind == .imm && decide (f.b.num.toNat < 8) else f.b.unused) &&
      f.c.unused && !f.m.uni && f.d.fits k false .single && f.a.fits k false f.a.width &&
      (f.b.unused || f.b.fits k false .single) && f.m.ok f.d
  | .vote f => !f.m.uni && f.d.fits k f.d.isS .single && f.a.fits k false .single && f.b.unused &&
      f.c.unused && f.m.ok f.d && decide (f.fn.toNat < 4)
  | .bra _ op ks _ => op != .always || ks == 0
  | .braSplit _ _ _ _ => true
  | .switch _ _ a _ _ => a.fits k false .single
  | .call _ _ _ => true
  | .ret _ a => a.fits k false .pair false false
  | .jmpi _ a => a.fits k false .pair false false
  | .recon _ _ => true
  | .exit _ => true
  | .yield _ _ => true
  | .trap _ _ => true
  | .svc _ _ va _ => va.toNat % 8 == 0 && decide (va.toNat + 15 < k.v)
  | .bkpt _ _ => true
  | .sleep _ _ => true
  | .ld f => f.ok k .glob false true
  | .ldsb f => f.ok k .glob false false
  | .ldzb f => f.ok k .glob false false
  | .ldsh f => f.ok k .glob false false
  | .ldzh f => f.ok k .glob false false
  | .st f => f.ok k .glob true true
  | .stb f => f.ok k .glob true false
  | .sth f => f.ok k .glob true false
  | .ldl f => f.ok k .scr false true
  | .stl f => f.ok k .scr true true
  | .ldc f => f.ok k .clu false true
  | .stc f => f.ok k .clu true true
  | .atom f => f.ok k false false false
  | .atoml f => f.ok k true false false
  | .cas f => f.ok k false true false
  | .casl f => f.ok k true true false
  | .red f => f.ok k false false true
  | .fence _ _ _ => true
  | .cctl f => match f.cop with
      | .ivc => baseOk k f.m.uni .pair f.base
      | .ivi => baseOk k f.m.uni .pair f.base
      | _ => f.m.uni && f.base.unused && f.off == 0
  | .pref f => baseOk k f.m.uni .pair f.base && (!f.x || f.na)
  | .fpush f => f.ok k (pairOrSingle f.d.width && dataOk k f.m.uni f.d.width f.d) (f.sb == 0)
  | .fpushOn f => f.ok k (f.m.uni && f.d.unused) (f.sb == 0)
  | .fpop f => f.ok k (pairOrSingle f.d.width && f.d.fits k f.m.uni f.d.width) true
  | .fpopOff f => f.ok k (f.m.uni && f.d.unused) (f.sb == 0)
  | .fpopCount f => f.ok k (f.m.uni && f.d.fits k true .single) true
  | .cpy f => !f.m.uni && spaceOk k false f.dspace f.daddr && spaceOk k false f.sspace f.saddr &&
      decide (f.size.toNat ≤ 2) && barOk k f.be f.bar
  | .cpyt _ b be _ sn => barOk k be b && sn.toNat % 8 == 0 && decide (sn.toNat ≤ 104)
  | .cpycl _ _ _ => true
  | .waitb _ _ all sn => !all || sn == 0
  | .lzopen f => barOk k f.be f.bar
  | .lzclose _ _ => true
  | .lzrsv _ _ _ _ len => len.toNat % 4 == 0 && decide (4 ≤ len.toNat) && decide (len.toNat ≤ 65536)
  | .lzsend f => f.m.uni && kindIs f.daddr true && f.daddr.fits k true .quad false false &&
      (f.sspace == .gl || f.sspace == .sp) && kindIs f.saddr true && spaceOk k true f.sspace f.saddr &&
      f.dspace == .gl && decide (f.size.toNat ≤ 14) && barOk k f.be f.bar
  | .lzfree _ _ _ => true
  | .lzstat _ _ sb w _ _ => w || sb == 0
  | .lzcancel _ _ _ _ => true
  | .wput f => f.winOk k false 0 5
  | .wget f => f.winOk k false 0 5
  | .wred f => kindIs f.daddr false && f.daddr.fits k false .quad false false && kindIs f.saddr false &&
      spaceOk k false f.sspace f.saddr && decide (f.size.toNat ≤ 5) && !(f.sat && f.ty == .i32)
  | .wmcast f => f.winOk k true 5 14
  | .wcnt f => even f.sn
  | .depdec _ _ _ _ => true
  | .task _ _ _ sn _ => sn.toNat % 16 == 0 && decide (sn.toNat ≤ 112)
  | .bara f => decide (f.bar.toNat < k.bars)
  | .barw _ b _ _ => decide (b.toNat < k.bars)
  | .bars f => decide (f.bar.toNat < k.bars)
  | .barinit f => decide (f.bar.toNat < k.bars) && (f.mode != .arr || f.sn == 0) &&
      (f.mode != .byte || f.cnt == 0)
  | .barx _ b _ _ => decide (b.toNat < k.bars)
  | .barq _ b _ ds => decide (b.toNat < k.bars) && even ds
  | .gang _ sn => even sn
  | .gangOff _ => true
  | .mma f => tileOk k f.acc && vReg k f.idx && f.adp == 0xFF && mmaPairs f
  | .mmad f => tileOk k f.acc && vReg k f.idx && vReg k f.adp && mmaPairs f
  | .mmup _ a b => tileOk k a && decide (b.toNat < 64)
  | .fbset _ _ sn => sn.toNat % 8 == 0 && sReg sn 8
  | .adset _ sn => sn.toNat % 4 == 0 && sReg sn 4
  | .accld f => tileOk k f.acc && !f.sat && (f.ty == .f32 || f.ty == .bf16 || f.ty == .f16) &&
      (f.sbe || f.sb == 0)
  | .accst f => tileOk k f.acc && (f.sbe || f.sb == 0)
  | .accz _ a => tileOk k a
  | .accmov f => tileOk k f.acc && regRange k false f.w f.vn.toNat &&
      f.col.toNat % Machine.Width.count f.w == 0 && (!f.dir || f.sb == 0)
  | .accwait _ a all _ => if all then a == 0 else tileOk k a
  | .adinv _ all id => !all || id == 0
  | .accscl f => tileOk k f.acc && (f.sc || f.bi) && even f.sn
  | .rdsr _ d sr => match srWidth sr.toNat with
      | some (n, _) => d.fits k true (if n = 2 then .pair else .single)
      | none => false
  | .wrsr _ a sr => match srWidth sr.toNat with
      | some (n, w) => w && kindIs a true && a.fits k true (if n = 2 then .pair else .single) false false
      | none => false
  | .cyc _ d => d.fits k true .pair
  | .snap _ _ => true
  | .eret _ => true
  | .tlbiPage _ _ _ sa => even sa
  | .tlbiPart _ _ _ => true
  | _ => true
where
  /-- The control byte of R154. -/
  ctl (b : Src) : Bool :=
    b.kind == .imm && b.width == .single && decide (b.num.toNat < 128) &&
    decide (b.num.toNat % 16 ≤ 0xA) && decide (b.num.toNat / 16 ≤ 5)
  mmaPairs (f : FmtX) : Bool := decide (f.abase.toNat < 64) && decide (f.bbase.toNat < 64)

end Sys2Proof
end

