-- ==== Sys2Proof/Machine/Translate.lean ====
section
/-! DEFINITION. Translation: the page walk, the cached translations, and the outcomes of R228. -/

namespace Sys2Proof.Machine

/-! ## Page walk (R227, R341, R342) -/

/-- What a walk finds; a malformed entry, at which level (R341). -/inductive WalkRes
  | leaf (bits pa : Nat) (w h : Bool)
  | notPresent
  | region (lvl : Nat)
  | tableErr
  deriving DecidableEq, Repr
/-- A page-table entry, unless its line cannot be read. -/
def State.pte (s : State) (pa : Nat) : Option Nat :=
  if s.lost (pa / 128) then none else some (s.physNat pa 8)
def bitOf (x i : Nat) : Bool := x.testBit i
/-- PA of an entry. -/
def ptePa (e : Nat) : Nat := fld e 12 40 * 4096
/-- The check of a contiguous level-3 line (R342). -/
def contiguous (es : List Nat) : Bool :=
  let e0 := es.headD 0
  ptePa e0 % 65536 == 0 &&
  (List.range 16).all fun i =>
    let e := es.getD i 0
    bitOf e 0 && bitOf e 1 && bitOf e 3 && bitOf e 2 == bitOf e0 2 && bitOf e 4 == bitOf e0 4 &&
    ptePa e == ptePa e0 + 4096 * i
/-- A valid leaf at a level: well formed, or the region outcome (R341, R342). -/
def State.leafAt (s : State) (lvl a e : Nat) : WalkRes :=
  let pa := ptePa e
  let host := pa / 2 ^ 48 = 1
  if lvl = 0 ∨ (bitOf e 3 ∧ lvl ≠ 3) ∨ (bitOf e 4 ∧ !host) ∨ (lvl = 1 ∧ fld e 12 18 ≠ 0) ∨
      (lvl = 2 ∧ fld e 12 9 ≠ 0) then .region lvl
  else if bitOf e 3 then
    let es := (List.range 16).map fun i => s.physNat (a / 128 * 128 + 8 * i) 8
    if contiguous es then .leaf 16 (ptePa (es.headD 0)) (bitOf e 2) (bitOf e 4) else .region lvl
  else .leaf (if lvl = 1 then 30 else if lvl = 2 then 21 else 12) pa (bitOf e 2) (bitOf e 4)
/-- The walk over the levels that remain: number, lowest index bit, index bits. -/
def State.walkFrom (s : State) (p : Part) (va : Nat) : List (Nat × Nat × Nat) → Nat → WalkRes
  | [], _ => .region 3
  | (lvl, lo, n) :: rest, base =>
    let a := base + 8 * fld va lo n
    match s.pte a with
    | none => .tableErr
    | some e =>
      if !bitOf e 0 then .notPresent
      else if fld e 5 7 ≠ 0 ∨ fld e 52 12 ≠ 0 then .region lvl
      else if bitOf e 1 then s.leafAt lvl a e
      else if lvl = 3 ∨ fld e 2 3 ≠ 0 ∨ !(decide (ptePa e / 2 ^ 44 = 0) && p.holds (ptePa e)) then .region lvl
      else s.walkFrom p va rest (ptePa e)
/-- The lines that a walk reads, to the first that the package does not hold. -/
def State.walkLines (s : State) (p : Part) (va : Nat) : List (Nat × Nat × Nat) → Nat → List Nat
  | [], _ => []
  | (lvl, lo, n) :: rest, base =>
    let a := base + 8 * fld va lo n
    match s.pte a with
    | none => [a / 128]
    | some e =>
      if s.unseen (a / 128) || !bitOf e 0 || bitOf e 1 || lvl == 3 || fld e 2 10 != 0 || fld e 52 12 != 0 ||
          ptePa e / 2 ^ 44 != 0 || !p.holds (ptePa e) then [a / 128]
      else a / 128 :: s.walkLines p va rest (ptePa e)
def levels : List (Nat × Nat × Nat) := [(0, 39, 18), (1, 30, 9), (2, 21, 9), (3, 12, 9)]
/-- The page walk of a virtual address in a partition. -/
def State.walk (s : State) (pid : BitVec 16) (va : Nat) : WalkRes :=
  match s.part pid with
  | none => .notPresent
  | some p => s.walkFrom p va levels p.root.toNat

/-- The lines that the walk of a virtual address reads. -/
def State.tableLines (s : State) (pid : BitVec 16) (va : Nat) : List Nat :=
  match s.part pid with
  | none => []
  | some p => s.walkLines p va levels p.root.toNat
/-- What a unit of a die finds of lines that it is to read: all are at hand; one comes, and `new` says that it was asked
for only now; or an error (R216, R233, R394). -/
inductive See | ok | wait (new : Bool) | err (code : Nat)
  deriving DecidableEq, Repr
/-- A unit of a die reads lines: what lies in another package or a pool node is asked for with GETS (R227, R373; log 14),
and HBM that cannot be corrected is found so (R216). -/
def State.see (s : State) (die : Nat) : List Nat → See × State
  | [] => (.ok, s)
  | l :: ls =>
    let s0 := s.scrubHome l
    if s0.lost l then (.err 5, s0)
    else if !s0.unseen l then s0.see die ls
    else match s0.devErrs.find? fun x => x.1 == l with
      | some x => (.err x.2, { s0 with devErrs := s0.devErrs.erase x })
      | none => match s0.homeErr die l with
        | some c => (.err c, s0)
        | none =>
          let asked := ((s0.sreq die l).map fun r => r.waiters.contains (.device, false)).getD false
          match (if asked then s0 else s0.request die l false .device).see die ls with
          | (.ok, s1) => (.wait !asked, s1)
          | (.wait n, s1) => (.wait (n || !asked), s1)
          | r => r

/-! ## Cached translations (R228, R343) -/

/-- The 256 sets of a core's TLB, and the 2,048 of a die's translation cache (R228, R340). -/
def tlbSet (vpage : Nat) : Nat := Config.tlbSet vpage % 256
def tcacheSet (vpage : Nat) : Nat := Config.tcacheSet vpage % 2048

def Trans.hits (t : Trans) (pid : BitVec 16) (va : Nat) : Bool :=
  t.part == pid && t.vpage == va / 2 ^ t.bits
/-- Puts an entry first; in a full set the least recently used one goes. -/
def insTrans (ways : Nat) (setOf : Nat → Nat) (t : Trans) (l : List Trans) : List Trans :=
  let l1 := l.filter fun x => !(x.part == t.part && x.vpage == t.vpage && x.bits == t.bits)
  let same := l1.filter fun x => setOf x.vpage == setOf t.vpage
  let l2 := if same.length < ways then l1 else
    match same.getLast? with
    | some v => l1.filter fun x => x != v
    | none => l1
  t :: l2
/-- Looks a translation up in a core's TLB and then in its die's translation cache (R228). -/
def State.lookupTrans (s : State) (core : Nat) (pid : BitVec 16) (va : Nat) : Option Trans × State :=
  match (s.core core).tlb.find? fun t => t.hits pid va with
  | some t => (some t, s.updCore core fun k => { k with tlb := insTrans 8 tlbSet t k.tlb })
  | none =>
    match (s.die (dieOf core)).tcache.find? fun t => t.hits pid va with
    | some t =>
      (some t, (s.updCore core fun k => { k with tlb := insTrans 8 tlbSet t k.tlb }).updDie
        (dieOf core) fun d => { d with tcache := insTrans 16 tcacheSet t d.tcache })
    | none => (none, s)
/-- Caches a leaf on a die and at a core. -/
def State.fillTrans (s : State) (core : Nat) (t : Trans) : State :=
  (s.updCore core fun k => { k with tlb := insTrans 8 tlbSet t k.tlb }).updDie
    (dieOf core) fun d => { d with tcache := insTrans 16 tcacheSet t d.tcache }
/-- Drops the translations of a partition that cover an address, or all of them, from every TLB and
translation cache of the package (R327, R345). -/
def State.dropTrans (s : State) (pid : BitVec 16) (va : Option Nat) : State :=
  let keep (t : Trans) : Bool := !(t.part == pid &&
    (match va with
      | some a => t.vpage == a / 2 ^ t.bits
      | none => true))
  { s with
    cores := s.cores.map fun e => (e.1, { e.2 with tlb := e.2.tlb.filter keep })
    dies := s.dies.map fun e => (e.1, { e.2 with tcache := e.2.tcache.filter keep, walked := [] }) }

/-! ## Outcomes (R228) -/

/-- The outcome of a translated access. `fail` carries the outcome code of R257. -/
inductive Xl
  | pa (a : Nat)
  | miss
  | ats (pasid page : Nat)
  | replay (kind : Nat)
  | fail (code : Nat)
  deriving DecidableEq, Repr
/-- The region rules of R214. -/
def State.regionOk (s : State) (pa : Nat) : Bool :=
  if pa / 2 ^ 48 = 0 then
    decide (fld pa 44 4 = 0) && decide (fld pa 40 4 < s.enum.islsize) && decide (fld pa 0 40 < 0xC000000000)
  else decide (pa / 2 ^ 48 = 1) || decide (pa / 2 ^ 48 = 2)
/-- A physical address under the partition's ranges and extents (R214, R217, R232, R233). An
untranslated host address goes out with the partition's PASID, and the host translates it (R227). A counter window is
readable only (R410): a write of it has the extent outcome (log 33). -/
def State.physOk (s : State) (p : Part) (pa : Nat) (write : Bool) : Xl :=
  if !s.regionOk pa then .fail 1
  else if pa / 2 ^ 48 = 0 then (if p.holds pa then .pa pa else .fail 2)
  else if pa / 2 ^ 48 = 1 then
    .pa (2 ^ 48 + (Config.hostPage p.pasid.toNat (fld pa 12 36)).toNat * 4096 + pa % 4096)
  else match s.extentOf pa with
    | none => .fail 3
    | some e =>
      if e.grant.part ≠ p.partid ∨ e.revoking then .fail 3
      else if e.grant.pages * 4096 ≤ fld pa 0 36 then .fail 1
      else if write && !e.grant.participating &&
          s.extents.any fun x => x.1 != fld pa 36 12 && x.2.grant.cntext.toNat == fld pa 36 12 then .fail 3
      else .pa pa
/-- Some function of the port may send ATS requests with a PASID: both are enabled in its configuration space (R8, R415;
log 61). -/
def State.atsOn (s : State) : Bool :=
  (List.range s.functions).any fun fn => (s.cfgSet fn 0x154).getLsbD 31 && (s.cfgSet fn 0x164).getLsbD 16
/-- The access through a leaf: write protection, host translation, then the physical rules. -/
def State.leafOut (s : State) (p : Part) (t : Trans) (va : Nat) (write : Bool) : Xl :=
  let pa := t.pa + va % 2 ^ t.bits
  if write && !t.w then .replay 0x19
  else if t.h then
    match s.atsCache.find? fun e => e.pasid == p.pasid.toNat && e.addr == fld pa 12 36 with
    | some e =>
      match e.host with
      | some h => .pa (2 ^ 48 + (h * 4096 + pa % 4096) % 2 ^ 48)
      | none => .fail 1
    | none => if s.atsOn then .ats p.pasid.toNat (fld pa 12 36) else .fail 1
  else s.physOk p pa write
/-- A refused ATS answer is spent by the access that meets it: it is no cached translation (R227). -/
def State.spend (s : State) (p : Part) (t : Trans) (va : Nat) : State :=
  if t.h then
    { s with atsCache := s.atsCache.filter fun e =>
        e.host.isSome || !(e.pasid == p.pasid.toNat && e.addr == fld (t.pa + va % 2 ^ t.bits) 12 36) }
  else s
/-- Translates an access of a core, with the TLB's use noted. -/
def State.translate (s : State) (core : Nat) (pid : BitVec 16) (va : Nat) (write : Bool) :
    Xl × State :=
  match s.part pid with
  | none => (.replay 0x18, s)
  | some p =>
    match s.lookupTrans core pid va with
    | (some t, s1) => (s1.leafOut p t va write, s1.spend p t va)
    | (none, s1) => (.miss, s1)
/-- A replayed access that has still to be made: it is not done, and not parked again (R229). -/
def State.replaying (s : State) (w : Waiter) : Bool :=
  match w with
  | .acc g r i => (s.group g).any fun x => x.memq.any fun q => q.id == r &&
      (q.lanes[i]?).any fun a => a.st != .done && a.st != .parked
  | .copy c _ id => (s.core c).copyOps.any fun o => o.id == id && o.st != .parked
  | _ => false
/-- The space for parked accesses of a die is full: those that are being replayed keep their places (R229). -/
def State.parkFull (s : State) (d : Nat) : Bool :=
  decide (8192 ≤ (s.die d).parked.length + ((s.die d).replays.filter s.replaying).length)
/-- Joins the walk for the leaf entry of an address, or starts one; none while 64 walks run (R228). -/
def State.joinWalk (s : State) (die : Nat) (part : BitVec 16) (va : Nat) (write : Bool) (w : Waiter) :
    Option State :=
  let d := s.die die
  let bits := match s.walk part va with
    | .leaf b _ _ _ => b
    | _ => 12
  let join (x : Walk) : Walk :=
    if x.waiters.contains (w, write, va) then x else { x with waiters := x.waiters ++ [(w, write, va)] }
  match d.walks.findIdx? fun x => x.part == part && x.va / 2 ^ bits == va / 2 ^ bits with
  | some i => some (s.setDie die { d with walks := updNth i join d.walks })
  | none =>
    if d.walks.length < 64 then
      some (s.setDie die { d with walks := d.walks ++ [⟨part, va, write, [(w, write, va)]⟩] })
    else none
/-- What a translation comes to, with every walk made: what can be said of an address without waiting, and without a
table of another package. -/
def State.translateNow (s : State) (core : Nat) (pid : BitVec 16) (va : Nat) (write : Bool) :
    Xl × State :=
  match s.translate core pid va write with
  | (.miss, s1) =>
    if (s1.tableLines pid va).any s1.unseen then (.miss, s1)
    else match s1.walk pid va with
    | .leaf b pa w h =>
      let s2 := s1.fillTrans core ⟨pid, va / 2 ^ b, b, pa, w, h⟩
      s2.translate core pid va write
    | .notPresent => (.replay 0x18, s1)
    | .region _ => (.fail 1, s1)
    | .tableErr => (.fail 4, s1)
  | r => r
/-- The physical address that an access would have now, if it has one. -/
def State.paOf (s : State) (core : Nat) (part : BitVec 16) (va : Nat) : Option Nat :=
  match (s.translateNow core part va false).1 with
  | .pa a => some a
  | _ => none
/-- Bits 63:57 equal bit 56 (R227). -/
def canonical (ea : Nat) : Bool := fld ea 57 7 == (if bitOf ea 56 then 127 else 0)

end Sys2Proof.Machine
end

