-- ==== Sys2Proof/Machine/Saved.lean ====
section
/-! DEFINITION. The registers and scoreboards of a group, in the register file or in its save slot (R226,
R333, R365), and the acquire action of a scope (R260). -/

namespace Sys2Proof.Machine

/-! ## Registers of a group, resident or saved (R333) -/

/-- Byte offset of a register word in a save slot. -/
def slotWordOff (b : Bank) (key : Nat) : Nat :=
  match b with
  | .s => 4 * key
  | _ => 0x1000 + 132 * (key / 32) + 4 * (key % 32)
/-- Byte and bit of its poison mark. -/
def slotPoison (b : Bank) (key : Nat) : Nat × Nat :=
  match b with
  | .s => (0x200 + key / 8, key % 8)
  | _ => (0x1000 + 132 * (key / 32) + 128 + key % 32 / 8, key % 8)
/-- The save slot of a group, if it is saved (R226, R306). -/
def State.slotOf (s : State) (grp : Group) : Option Nat :=
  if grp.resid = .saved ∨ grp.resid = .ready then
    match s.grid grp.grid, s.team grp.team with
    | some gd, some tm => some (slotBase gd tm grp.idx)
    | _, _ => none
  else none
/-- Writes a register word of a group: the register, or its place in the save slot. -/
def State.putReg (s : State) (g : Nat) (b : Bank) (key : Nat) (w : RegWord) : State :=
  match s.group g with
  | none => s
  | some grp =>
    match s.slotOf grp with
    | some a =>
      let (o, i) := slotPoison b key
      (s.physWrite (a + slotWordOff b key) (wordBytes w.val)).setPhysBit (a + o) i (w.ecc == .poisoned)
    | none => s.setGroup g (match b with
        | .s => { grp with s := put RegWord.zero key w grp.s }
        | _ => { grp with v := put RegWord.zero key w grp.v })
def State.putRegs (s : State) (g : Nat) : List (Bank × Nat) → Nat → Bool → State
  | [], _, _ => s
  | (b, k) :: l, x, poison =>
    (s.putReg g b k (if poison then RegWord.poison 0 else RegWord.of (BitVec.ofNat 32 x))).putRegs g l
      (x / 2 ^ 32) poison
/-- A scoreboard falls, in the slot too while the group is saved (R333, R365). -/
def State.sbFall (s : State) (g : Nat) (sb : Option Nat) : State :=
  match sb, s.group g with
  | some i, some grp =>
    let s1 := match s.slotOf grp with
      | some a => s.physWrite (a + 0x260 + i) (leBytes 1 (look 0 i grp.sb - 1))
      | none => s
    s1.updGroup g (·.sbDown i)
  | _, _ => s

/-! ## The end of a wait (R180, R181) -/

/-- The state of an entry, the previous one while its group is saved (R181). -/
def Frag.last (f : Frag) : FState := if f.state = .parked then f.prev else f.state
/-- A waiting fragment becomes ready; in a saved group, when the group resumes. One that waited at a safe point stays
stopped there while a pre-emption is pending, and else is not stopped for a later one (R332, log 27). -/
def Group.wake (g : Group) (e : Nat) : Group :=
  match find e g.split with
  | some f => g.setFrag e (if g.resid = .bound then { f with
        state := .ready, wait := .none, due := none, stop := if g.preempt then f.stop else none }
      else { f with prev := .ready, wait := .none, due := none })
  | none => g
/-- The wait of a fragment ends, and s registers are written with it. -/
def State.rouseNow (s : State) (g e : Nat) (ws : List (Nat × Word)) : State :=
  (ws.foldl (fun s w => s.putReg g .s w.1 (RegWord.of w.2)) s).updGroup g (·.wake e)
/-- An event from outside ends the wait of a fragment: between two clauses of the group's track (R180). -/
def State.rouse (s : State) (g e : Nat) (ws : List (Nat × Word)) : State :=
  match s.group g with
  | none => s
  | some grp =>
    if grp.resid ≠ .bound ∨ (s.track grp.track).run.isNone then s.rouseNow g e ws
    else s.updGroup g fun x => match find e x.split with
      | some f => x.setFrag e { f with due := some ws, wait := .none }
      | none => x
/-- A fragment parked at its clause's fetch fetches again (R229). -/
def State.fetchAgain (s : State) (g e : Nat) : State :=
  match (s.group g).bind fun x => find e x.split with
  | some f => if f.wait = .fetch then s.rouse g e [] else s
  | none => s
/-- A fragment parked at its clause's fetch takes the instruction-fetch fault of a cancelled or failed replay (R57,
R229). -/
def State.fetchFault (s : State) (g e : Nat) (f : Frag) (va code lvl : Nat) : State :=
  (s.updGroup g (·.wake e)).fragFault g e { s.groupRec 0x05 g with
    iaddr := f.pc.toNat, addr := va, flags := bits01 (code == 8) * 32, detail := lvl } 0 (resumePair f.pc f.resumeWord) (BitVec.ofNat 64 va)
/-- The same, between two clauses of the group's track. -/
def State.fetchFails (s : State) (g e va code lvl : Nat) : State :=
  match s.group g with
  | none => s
  | some grp =>
    match find e grp.split with
    | none => s
    | some f =>
      if grp.resid = .bound ∧ (s.track grp.track).run.isNone then s.fetchFault g e f va code lvl
      else s.updGroup g fun x => x.setFrag e { f with wait := .failed va code lvl, due := some [] }
/-- What has waited for a boundary is applied (R180). -/
def State.rouseDue (s : State) (g : Nat) : State :=
  match s.group g with
  | none => s
  | some grp => grp.split.foldl (fun s e => match e.2.due, e.2.wait with
    | some _, .failed va code lvl => s.fetchFault g e.1 e.2 va code lvl
    | some ws, _ => s.rouseNow g e.1 ws
    | none, _ => s) s

/-! ## Acquires (R260) -/

def Scope.rank : Scope → Nat
  | .core => 0 | .clus => 1 | .die => 2 | .dev => 3 | .isl => 4 | .sys => 5
def Scope.ofRank (n : Nat) : Scope := [Scope.core, .clus, .die, .dev, .isl].getD n .sys
/-- The action of an acquire (R260): from cluster scope up, the core cache is emptied. -/
def State.acquire (s : State) (core : Nat) (scope : Scope) : State :=
  if Scope.rank scope = 0 then s else s.updCore core fun k => { k with cache := [] }

end Sys2Proof.Machine
end

