-- ==== Sys2Proof/Machine/WindowTable.lean ====
section
/-! DEFINITION. The window table: entries, the copies that dies hold, counters, and the waits of WCNT
(R298, R346, R347, R363). -/

namespace Sys2Proof.Machine

/-! ## Entries (R346, R347) -/

def State.winAddr (s : State) (w : Nat) : Nat := s.sys.wtbase.toNat + 64 * w
/-- The entry of a window as a die sees it: its cached copy, else memory. -/
def State.winEntry (s : State) (die w : Nat) : Nat :=
  match find w (s.die die).wcache with
  | some e => e.toNat
  | none => s.physNat (s.winAddr w) 64
/-- Caches an entry that a packet has read; the copy that a full die loses is a free value (log 5). -/
def State.fillWin (s : State) (die w : Nat) : State :=
  let d := s.die die
  if (find w d.wcache).isSome then s
  else
    let full := decide (256 ≤ d.wcache.length)
    let (x, s1) := if full then s.draw else (0, s)
    let m := if full then dropNth (x % d.wcache.length) d.wcache else d.wcache
    s1.setDie die { d with wcache := ins w (BitVec.ofNat 512 (s.winEntry die w)) m }
def winBase (e : Nat) : Nat := fld e 0 64
def winSize (e : Nat) : Nat := fld e 64 64
def winPart (e : Nat) : BitVec 16 := BitVec.ofNat 16 (fld e 128 16)
def winRead (e : Nat) : Bool := e.testBit 145
def winWrite (e : Nat) : Bool := e.testBit 146
def winReduce (e : Nat) : Bool := e.testBit 147
def winForward (e : Nat) : Bool := e.testBit 148
def winFwdPkg (e : Nat) : BitVec 18 := BitVec.ofNat 18 (fld e 160 18)
def winFwdWin (e : Nat) : BitVec 16 := BitVec.ofNat 16 (fld e 192 16)
/-- A valid entry of a partition: no reserved field is nonzero (R346). -/
def winValid (e : Nat) (part : BitVec 16) : Bool :=
  e.testBit 144 && fld e 149 11 == 0 && fld e 178 14 == 0 && fld e 288 224 == 0 && winPart e == part

/-! ## Counters (R300, R346) -/

/-- Offsets of ERRCNT, LCNT and RCNT in an entry. -/
def errOff : Nat := 0x1A
def cntOff (rem : Bool) : Nat := if rem then 0x20 else 0x1C
def State.winCount (s : State) (w : Nat) (rem : Bool) : Nat := s.physNat (s.winAddr w + cntOff rem) 4
/-- What WCNT reads (R363): 0 for a window that is invalid or of another partition. -/
def State.wcntValue (s : State) (die w : Nat) (part : BitVec 16) (rem : Bool) : Nat :=
  if winValid (s.winEntry die w) part then s.winCount w rem else 0
/-- WCNT.wait's condition (R363). -/
def State.wcntMet (s : State) (die w : Nat) (part : BitVec 16) (rem : Bool) (t : Nat) : Bool :=
  winValid (s.winEntry die w) part && decide ((s.winCount w rem + 2 ^ 32 - t) % 2 ^ 32 < 2 ^ 31)
/-- The end of a WCNT at a group: the value, and with AQ an acquire at system scope. -/
def State.wcntEnd (s : State) (grp : Group) (part : BitVec 16) (w : Nat) (aq rem : Bool) : Word × State :=
  let core := coreOf grp.track
  (BitVec.ofNat 32 (s.wcntValue (dieOf core) w part rem), if aq then s.acquire core .sys else s)
/-- The entries of a group whose WCNT.wait is over. -/
def State.wcntWaiters (s : State) (grp : Group) (part : BitVec 16) : List (Nat × Nat × Nat × Bool × Bool) :=
  grp.split.filterMap fun e =>
    if e.2.last = .waiting then
      match e.2.wait with
      | .wcnt ds w t aq rem =>
        if s.wcntMet (dieOf (coreOf grp.track)) w part rem t.toNat then some (e.1, ds, w, aq, rem) else none
      | _ => none
    else none
/-- Ends the waits of a group on window counters. -/
def State.wakeWcnt (s : State) (g : Nat) : State :=
  match s.group g with
  | none => s
  | some grp =>
    match s.grid grp.grid with
    | none => s
    | some gd => (s.wcntWaiters grp gd.part).foldl (fun s e =>
        let (w, s1) := s.wcntEnd grp gd.part e.2.2.1 e.2.2.2.1 e.2.2.2.2
        s1.rouse g e.1 [(e.2.1, w)]) s
def State.wakeAllWcnt (s : State) : State := s.groups.foldl (fun s g => s.wakeWcnt g.1) s
/-- Adds bytes to a completion counter, modulo 2^32 (R300). -/
def State.addCount (s : State) (w : Nat) (rem : Bool) (n : Nat) : State :=
  (s.physWrite (s.winAddr w + cntOff rem) (leBytes 4 (s.winCount w rem + n))).wakeAllWcnt
/-- A refusal seen as initiator: ERRCNT, saturating (R298, R346). -/
def State.addErr (s : State) (w : Nat) : State :=
  let a := s.winAddr w + errOff
  s.physWrite a (leBytes 2 (min (s.physNat a 2 + 1) 65535))

end Sys2Proof.Machine
end

