-- ==== Sys2Proof/Machine/Clause.lean ====
section
/-! DEFINITION. Clauses: the opcode map, validation, arrival and reconvergence, the choice of a
fragment, and the fetch of its clause (R44, R52 to R57, R71 to R73, R170, R171, R225). -/

namespace Sys2Proof.Machine

/-! ## The opcode map (R71, R72) -/

def opOf (w : DWord) : Nat := (w >>> 56).toNat
def inRange (x lo hi : Nat) : Bool := decide (lo ≤ x) && decide (x ≤ hi)
/-- The assigned opcodes, PFX among them. -/
def assigned (op : Nat) : Bool :=
  inRange op 1 2 || inRange op 0x08 0x38 || inRange op 0x40 0x5A || inRange op 0x60 0x6A ||
  inRange op 0x70 0x7B || inRange op 0x80 0x95 || inRange op 0xA0 0xB1 || inRange op 0xC0 0xC6 ||
  inRange op 0xD0 0xDB || inRange op 0xE0 0xE5
/-- The header bit of an opcode's engine class: EV 55, EM 54, EX 53, EC 52, EK 51 (R53, R54). -/
def classBit (op : Nat) : Option Nat :=
  if inRange op 0x08 0x6A then some 55
  else if inRange op 0x80 0x95 then some 54
  else if inRange op 0xD0 0xDB then some 53
  else if inRange op 0xA0 0xB1 then some 52
  else if inRange op 0x70 0x7B || inRange op 0xC0 0xC6 || inRange op 0xE0 0xE5 then some 51
  else none
def prefixable (op : Nat) : Bool :=
  inRange op 0x08 0x29 || inRange op 0x2B 0x2D || inRange op 0x40 0x46 || inRange op 0x49 0x51 ||
  inRange op 0x52 0x5A
/-- The terminal instructions of R55. -/
def terminal (w : DWord) : Bool :=
  let op := opOf w
  (op == 0x70 && bits w 44 3 == 4) || inRange op 0x71 0x74 || inRange op 0x76 0x7B || op == 0xE4
/-- The instructions that take an entry of the copy issue queue (R278). -/
def takesEntry (op : Nat) : Bool :=
  inRange op 0xA0 0xA1 || inRange op 0xA6 0xA7 || inRange op 0xAA 0xAE || op == 0xB1
/-- The case words that follow an instruction word (R66). -/
def caseCount (w : DWord) : Nat := if opOf w = 0x71 then (bits w 47 3).toNat + 1 else 0
/-- The words that an instruction claims after it: case words and a live-mask word (R55). -/
def claimed (w : DWord) : Nat := caseCount w + (if bit w 55 then 1 else 0)

/-! ## Validation (R56) -/

/-- What a word of a clause is, by position. -/
inductive WordKind | instr | caseW (left : Nat) (sp : Bool) | live
  deriving DecidableEq, Repr
/-- What follows an instruction word. -/
def afterInstr (w : DWord) : WordKind :=
  if caseCount w = 0 then (if bit w 55 then .live else .instr)
  else .caseW (caseCount w) (bit w 55)
/-- What follows a case word. -/
def afterCase (left : Nat) (sp : Bool) : WordKind :=
  if 1 < left then .caseW (left - 1) sp else if sp then .live else .instr
/-- The prefix word against the word after it (R67, R68). -/
def pfxOk (w : DWord) (next : Option DWord) : Bool :=
  match decodePfx w, next with
  | .ok p, some v => prefixable (opOf v) && !bit v 54 &&
      (!(inRange (opOf v) 0x08 0x2D || opOf v == 0x51) || (p.rm == .rne && !p.ftz && !p.daz))
  | _, _ => false
/-- The three checks of an instruction word (R56): the fault kind of the first that fails. -/
def checkInstr (k : Decl) (header w : DWord) (rest : Nat) : Option Nat :=
  if !assigned (opOf w) then some 0x02
  else if (match classBit (opOf w) with
      | some b => !bit header b
      | none => false) then some 0x01
  else if (terminal w || bit w 55) && claimed w ≠ rest then some 0x01
  else match decode w with
    | .ok i => if fieldsOk k i then none else some 0x03
    | .error _ => some 0x03
/-- The first offending word, numbered from the header, and its fault kind. -/
def checkWords (k : Decl) (header : DWord) : List DWord → WordKind → Nat → Option (Nat × Nat)
  | [], _, _ => none
  | w :: rest, .caseW n sp, p =>
    if (decodeCase w).isNone then some (p, 0x03) else checkWords k header rest (afterCase n sp) (p + 1)
  | _ :: rest, .live, p => checkWords k header rest .instr (p + 1)
  | w :: rest, .instr, p =>
    if opOf w = 2 then
      if pfxOk w rest.head? then checkWords k header rest .instr (p + 1) else some (p, 0x03)
    else match checkInstr k header w rest.length with
      | some f => some (p, f)
      | none => checkWords k header rest (afterInstr w) (p + 1)
/-- The header checks: signature, and bits 39:0 (R53). -/
def headerOk (h : DWord) : Bool := bits h 60 4 == 0xA && bits h 0 40 == 0
/-- The kind of each word of a clause. -/
def wordKinds : List DWord → WordKind → List WordKind
  | [], _ => []
  | _ :: rest, .caseW n sp => .caseW n sp :: wordKinds rest (afterCase n sp)
  | _ :: rest, .live => .live :: wordKinds rest .instr
  | w :: rest, .instr => .instr :: wordKinds rest (if opOf w = 2 then .instr else afterInstr w)
def countOf (h : DWord) : Nat := fld h.toNat 56 4 + 1
/-- The instruction words from word n on (n counted from 1). -/
def instrsFrom (ws : List DWord) (n : Nat) : List DWord :=
  (((ws.zip (wordKinds ws .instr)).drop (n - 1)).filter fun x => x.2 == .instr).map (·.1)
/-- What the launch declares (R61, R79). -/
def declOf (g : Grid) : Decl := ⟨g.vcount, g.tilesDecl, g.barsDecl⟩

/-! ## s registers that an instruction names (R358) -/

def regsFrom (n k : Nat) : List Nat := (List.range k).map (n + ·)
def srcS (x : Src) : List Nat :=
  if x.kind = .s then regsFrom x.num.toNat (Width.count x.width) else []
def dstS (x : Dst) : List Nat := if x.isS then regsFrom x.num.toNat (Width.count x.width) else []
def tS (f : FmtT) : List Nat := dstS f.d ++ srcS f.a ++ srcS f.b ++ srcS f.c
def n1 {n : Nat} (x : BitVec n) (k : Nat) : List Nat := regsFrom x.toNat k
def mS (f : FmtM) : List Nat := dstS f.d ++ srcS f.base
def aS (f : FmtA) : List Nat := dstS f.d ++ srcS f.base ++ srcS f.b
def cS (f : FmtC) : List Nat := srcS f.daddr ++ srcS f.saddr
def xS (f : FmtX) : List Nat := regsFrom (2 * f.abase.toNat) 2 ++ regsFrom (2 * f.bbase.toNat) 2
/-- The operands of an instruction of format T. -/
def fmtT : Instr → Option FmtT
  | .iadd f | .isub f | .imul f | .imulh f | .imad f | .imadw f | .idiv f | .irem f | .imin f
  | .imax f | .iabs f | .ineg f | .isad f | .iadd3 f | .lea f | .and f | .or f | .xor f | .andn f
  | .not f | .shl f | .shr f | .sar f | .rol f | .fshl f | .fshr f | .bfx f | .bfi f | .popc f
  | .clz f | .ctz f | .brev f | .bytp f | .isel f | .iclamp f | .mov f | .pack f | .spread f
  | .fadd f | .fsub f | .fmul f | .ffma f | .fmin f | .fmax f | .fsgn f | .fclass f | .frnd f
  | .hadd2 f | .hmul2 f | .hfma2 f | .hmin2 f | .hmax2 f | .dot4 f | .dot2 f | .idot4 f | .rcp f
  | .rsq f | .sqrt f | .exp2 f | .log2 f | .sinr f | .cosr f | .tanh f | .fdiv f | .xshf f
  | .xrot f | .xbfly f | .xbcst f | .xscan f | .xred f | .xperm f | .xmatch f | .vote f => some f
  | _ => none
/-- The s registers that an instruction of another format reads or writes. -/
def sOther : Instr → List Nat
  | .iaddi f => dstS f.d ++ srcS f.a
  | .icmp f | .fcmp f => srcS f.a ++ srcS f.b
  | .movi f | .movih f => dstS f.d
  | .movs _ d _ | .movk _ _ d _ | .kpopc _ _ d _ | .kfind _ _ d _ _ | .cyc _ d | .rdsr _ d _ => dstS d
  | .kmov _ _ (.s sn) => n1 sn 1
  | .cvt f => dstS f.d ++ srcS f.a
  | .xset _ _ mem sn => n1 sn (if mem then 1 else 8)
  | .switch _ _ a _ _ | .ret _ a | .jmpi _ a | .wrsr _ a _ => srcS a
  | .svc _ sd _ _ => n1 sd 1
  | .ld f | .ldsb f | .ldzb f | .ldsh f | .ldzh f | .st f | .stb f | .sth f | .ldl f | .stl f
  | .ldc f | .stc f => mS f
  | .atom f | .atoml f | .cas f | .casl f | .red f => aS f
  | .cctl f => srcS f.base
  | .pref f => srcS f.base
  | .fpush f | .fpushOn f | .fpop f | .fpopOff f | .fpopCount f => dstS f.d ++ srcS f.base
  | .cpy f | .lzsend f | .wput f | .wget f | .wmcast f => cS f
  | .wred f => srcS f.daddr ++ srcS f.saddr
  | .cpyt _ _ _ _ sn => n1 sn 24
  | .cpycl _ ds _ => n1 ds 1
  | .waitb _ ds _ sn => n1 ds 1 ++ n1 sn 1
  | .lzopen f => regsFrom (2 * f.dp.toNat) 2
  | .lzclose _ hp | .lzfree _ hp _ => regsFrom (2 * hp.toNat) 2
  | .lzrsv _ ds _ hp _ => n1 ds 4 ++ regsFrom (2 * hp.toNat) 2
  | .lzstat _ ds _ _ hp _ => n1 ds 1 ++ regsFrom (2 * hp.toNat) 2
  | .lzcancel _ gs _ hp => n1 gs 1 ++ regsFrom (2 * hp.toNat) 2
  | .wcnt f => n1 f.ds 1 ++ n1 f.sn 2
  | .task _ ds _ sn _ => n1 ds 1 ++ n1 sn 16
  | .bara f | .bars f => n1 f.ds 1
  | .barw _ _ _ sn => n1 sn 1
  | .barinit f => n1 f.sn 1
  | .barq _ _ _ ds => n1 ds 2
  | .gang _ sn => n1 sn 2
  | .mma f | .mmad f => xS f
  | .mmup _ _ b => regsFrom (2 * b.toNat) 2
  | .fbset _ _ sn => n1 sn 8
  | .adset _ sn => n1 sn 4
  | .accld f | .accst f => n1 f.sn 1
  | .accscl f => n1 f.sn 2
  | .tlbiPage _ _ _ sa => n1 sa 2
  | _ => []
/-- The s registers that an instruction reads or writes. -/
def sRegs (i : Instr) : List Nat :=
  match fmtT i with
  | some f => tS f
  | none => sOther i
/-- The s registers of a group that deferred arrivals have still to write (R358). -/
def State.dsPending (s : State) (g : Nat) : List Nat :=
  s.net.filterMap fun f => match f.msg with
    | .bar _ _ _ (some g') (some ds) _ => if g' = g then some ds else none
    | _ => none
/-- Whether an instruction word names one of some s registers. -/
def namesAny (l : List Nat) (w : DWord) : Bool :=
  match decode w with
  | .ok i => (sRegs i).any l.contains
  | .error _ => false

/-! ## Arrival (R171) -/

/-- check of R171 for one joining entry. -/
def checkJoin (grp : Group) (e : Nat) : Group :=
  match find e grp.split with
  | none => grp
  | some f =>
    if f.state ≠ .joining then grp
    else if grp.split.any fun x => decide (x.1 ≠ e) && x.2.rcv == f.pc && x.2.depth == f.depth &&
        !(x.2.state == .joining && x.2.pc == f.pc) then grp
    else grp.setFrag e { f with state := .ready, fresh := false }
/-- check for every joining entry, by ascending entry index; the spec gives no order (DESIGN CHOICE, log 58). -/
def checkAll (grp : Group) : Group :=
  grp.split.foldl (fun g x => checkJoin g x.1) grp
/-- The arrival of a fragment whose pc has become its rcv at a header with REC = 1. -/
def arrive (grp : Group) (e : Nat) : Group :=
  match find e grp.split with
  | none => grp
  | some f =>
    match grp.split.find? fun x => decide (x.1 ≠ e) && x.2.state == .joining && x.2.pc == f.pc &&
        x.2.depth == f.depth with
    | some (w, p) =>
      checkAll { grp with
        split := ins w { p with mask := p.mask ||| f.mask, age := max p.age f.age } (del e grp.split) }
    | none => checkAll (grp.setFrag e { f with state := .joining, fresh := false })
/-- A group without free entries of its split table (R168, R170). -/
def Group.freeEntries (g : Group) : List Nat := (List.range 16).filter fun e => (find e g.split).isNone
/-- Whether a ticket is free (R328). -/
def State.ticketFree (s : State) : Bool := (List.range 4096).any fun t => (find t s.tickets).isNone
/-- The entries that R170 makes ready: waiting for an entry, or deferred; and one that waits for a ticket, when
one is free (R328). -/
def wakeEntry (ticket : Bool) (grp : Group) (e : Nat) : Group :=
  match find e grp.split with
  | none => grp
  | some f =>
    if f.state = .waiting ∧ f.wait = .ticket then
      if ticket then grp.setFrag e { f with state := .ready, wait := .none, redo := true, fresh := false } else grp
    else if grp.freeEntries.isEmpty then grp
    else if f.state = .waiting ∧ f.wait = .entry then
      grp.setFrag e { f with state := .ready, wait := .none, redo := true, fresh := false }
    else if f.state = .deferred ∧ !(grp.split.any fun x => decide (x.1 ≠ e) && x.2.rcv == f.rcv &&
        x.2.depth == f.depth && !(x.2.state == .joining && x.2.pc == f.rcv)) then
      grp.setFrag e { f with state := .ready, redo := true, fresh := false }
    else grp

/-! ## Fetching words (R56, R57, R225) -/

def icKey (line : Nat) (part : BitVec 16) : Nat := line * 2 ^ 16 + part.toNat
/-- The outcome of fetching a line. -/
inductive Got | line (l : Line) | pend | park (kind : Nat) | ats (pasid page : Nat) | fail (code lvl : Nat)
  deriving DecidableEq, Repr
/-- Fills an instruction-cache line; the line that a full cache loses is a free value (log 5). -/
def State.fillIcache (s : State) (core line : Nat) (part : BitVec 16) (l : Line) : State :=
  let k := s.core core
  let (n, s1) := if 1024 ≤ k.icache.length then s.draw else (0, s)
  let ic := if 1024 ≤ k.icache.length then dropNth (n % k.icache.length) k.icache else k.icache
  s1.setCore core { k with icache := ins (icKey line part) ⟨l, part, 0, 0⟩ ic }
/-- Data of a line of host memory or of a non-participating extent. -/
def State.farLine (s : State) (line : Nat) : Line := bytesLine (s.physRead (line * 128) 128)
/-- Fetches the line at a physical address for a core: instruction cache, the die's slice, a request
with GETS, or a direct read (R225). `errs` are the lines whose request was answered with an error (R57). -/
def State.fetchPhys (s : State) (core : Nat) (part : BitVec 16) (errs : List (Nat × Nat)) (pa : Nat) : Got × State :=
  let line := pa / 128
  match find (icKey line part) (s.core core).icache with
  | some c => (.line c.data, s)
  | none =>
    if !s.tokenLine line then
      let l := s.farLine line
      (.line l, s.fillIcache core line part l)
    else if s.canRead (dieOf core) line then
      match s.ent (dieOf core) line with
      | some e => (.line e.data, (s.touchLine (dieOf core) line).fillIcache core line part e.data)
      | none => (.pend, s)
    else match errs.find? fun e => e.1 == line, s.homeErr (dieOf core) line with
      | some e, _ => (.fail e.2 0, s)
      | none, some c => (.fail c 0, s.scrubHome line)
      | none, none =>
        let w := Waiter.icache core part
        if ((s.sreq (dieOf core) line).map fun r => r.waiters.contains (w, false)).getD false then (.pend, s)
        else (.pend, s.request (dieOf core) line false w)
/-- Fetches the line at a virtual address for the clause that a track has chosen; a translation that is not cached
waits for its walk (R228). -/
def State.fetchLine (s : State) (t : Nat) (part : BitVec 16) (r : Run) (va : Nat) : Got × State :=
  match s.translate (coreOf t) part va false with
  | (.pa a, s1) => s1.fetchPhys (coreOf t) part r.errs a
  | (.replay k, s1) => (.park k, s1)
  | (.ats p g, s1) => (.ats p g, s1)
  | (.fail c, s1) => (.fail c 0, s1)
  | (.miss, s1) =>
    match r.walked.find? fun x => x.1 == va / 4096 with
    | some (_, c, lvl) => (if c = 0x18 then .park c else .fail c lvl, s1)
    | none => (.pend, (s1.joinWalk (dieOf (coreOf t)) part va false (.clause t)).getD s1)
/-- A walk for a track's fetch has found no leaf. -/
def State.noteWalk (s : State) (t va code lvl : Nat) : State :=
  s.updTrack t fun k => { k with run := k.run.map fun r => { r with walked := r.walked ++ [(va / 4096, code, lvl)] } }
/-- The error response of a line comes to the fetches of a core that wait for it (R57). -/
def State.noteErr (s : State) (core : Nat) (part : BitVec 16) (line code : Nat) : State :=
  let mine (r : Run) : Bool := !r.fetched && (((s.group r.group).bind fun g => s.grid g.grid).map fun g => g.part) == some part
  { s with tracks := s.tracks.map fun e => if coreOf e.1 = core then (e.1, { e.2 with
      run := e.2.run.map fun r => if mine r then { r with errs := r.errs ++ [(line, code)] } else r }) else e }
/-- A word as a fetch would read it, without its effects: for the header waits of R44 and the
reconvergence mark of R171. None where the fetch would not give it at once or at all. -/
def State.peek (s : State) (core : Nat) (part : BitVec 16) (va : Nat) : Option DWord :=
  match (s.translateNow core part va false).1 with
  | .pa a =>
    match find (icKey (a / 128) part) (s.core core).icache with
    | some c => some (BitVec.ofNat 64 (leNat (lineBytes c.data (a % 128) 8)))
    | none =>
      if s.unseen (a / 128) || (!s.canRead (dieOf core) (a / 128) && (s.homeErr (dieOf core) (a / 128)).isSome) then none
      else some (BitVec.ofNat 64 (s.physNat a 8))
  | _ => none
/-- The address of word p of the clause at a header. -/
def wordAddr (h : VAddr) (p : Nat) : Nat := (h + BitVec.ofNat 57 (8 * p)).toNat
/-- The virtual line addresses of a clause of n words after its header. -/
def clauseLines (h : VAddr) (n : Nat) : List Nat :=
  ((List.range (n + 1)).map fun p => wordAddr h p / 128 * 128).eraseDups
/-- Fetches the lines of a clause; answers each line's outcome. -/
def State.fetchLines (s : State) (t : Nat) (part : BitVec 16) (r : Run) :
    List Nat → List (Nat × Got) × State
  | [] => ([], s)
  | va :: l =>
    let (g, s1) := s.fetchLine t part r va
    let (gs, s2) := s1.fetchLines t part r l
    ((va, g) :: gs, s2)
def gotWord (gs : List (Nat × Got)) (va : Nat) : DWord :=
  match gs.find? fun x => x.1 == va / 128 * 128 with
  | some (_, .line l) => BitVec.ofNat 64 (leNat (lineBytes l (va % 128) 8))
  | _ => 0

/-! ## Readiness (R29, R44, R54, R279) -/

/-- Entries of a core's copy queue that a group holds or claims. -/
def State.copyHeld (s : State) (core g : Nat) : Nat :=
  ((s.core core).copyq.filter fun r => r.group == g).length +
  (s.tracks.foldl (fun n e => match e.2.run with
    | some r => if coreOf e.1 == core && r.group == g then n + r.claim else n
    | none => n) 0)
/-- Shared entries in use: each group's first entry is its reserved one (R277). -/
def State.copyShared (s : State) (core : Nat) : Nat :=
  (s.groups.filter fun e => coreOf e.2.track == core).foldl
    (fun n e => n + (s.copyHeld core e.1 - 1)) 0
/-- The copy engine accepts e entries and CPYCL from a group (R279). -/
def State.copyAccepts (s : State) (core g : Nat) (grp : Group) (e : Nat) (cl : Bool) : Bool :=
  (e == 0 || (s.copyHeld core g == 0 && decide (s.copyShared core + (e - 1) ≤ 128))) &&
  (!cl || decide ((grp.batches.filter fun b => b.closed && !b.done).length < 16))
/-- The waits of a header, and the engines it names, for the words from word n (R29, R54). `ws` is what
is known of the clause's words. -/
def State.waitsMet (s : State) (core g : Nat) (grp : Group) (h : DWord) (ws : List DWord) (n : Nat) :
    Bool :=
  let is := (instrsFrom ws n).map opOf
  let e := (is.filter takesEntry).length
  ((List.range 8).all fun i => !bit h (43 + i) || look 0 i grp.sb == 0) &&
  (!bit h 42 || grp.matq.all (·.issued)) &&
  (!bit h 54 || decide ((grp.memq.filter fun r => match r.kind with
    | .dep .. => false
    | _ => true).length ≤ 16)) &&
  (!bit h 53 || decide (grp.matq.length ≤ 16)) &&
  (!bit h 52 || s.copyAccepts core g grp e (is.contains 0xA2)) &&
  !((instrsFrom ws n).any (namesAny (s.dsPending g)))
/-- The words of the clause at a header, as far as they can be read now. -/
def State.peekClause (s : State) (core : Nat) (part : BitVec 16) (h : VAddr) :
    Option (DWord × List DWord) :=
  match s.peek core part h.toNat with
  | none => none
  | some w => some (w, (List.range (countOf w)).map fun p =>
      (s.peek core part (wordAddr h (p + 1))).getD 0)
/-- Whether a fragment may be chosen (R44): its state, its hold (R322), a pre-emption (R332), a carve-out that is being
applied (R219), and its header's waits, which nothing holds back where the header cannot be read. -/
def State.readyFrag (s : State) (core g : Nat) (grp : Group) (part : BitVec 16) (f : Frag) : Bool :=
  f.state == .ready && !f.held && (s.core core).carving.isNone && !(grp.preempt && (f.stop.isSome || grp.reason == 2 || grp.reason == 3)) &&
  (f.pc.toNat % 8 != 0 || match s.peekClause core part f.pc with
  | none => true
  | some (h, ws) => !headerOk h || s.waitsMet core g grp h ws f.word)

/-! ## CLAUSE_CHOICE (R44) -/

/-- Ends every fragment of a group as if by EXIT (R314). -/
def Group.retireAll (g : Group) : Group := { g with split := [], k := [], pendFaults := [] }
/-- A fragment that has come to its reconvergence address, where the header has REC = 1 (R171). -/
def Frag.comes (f : Frag) (h : DWord) : Bool :=
  f.fresh && f.word == 0 && f.pc == f.rcv && f.pc.toNat % 8 == 0 && headerOk h && bit h 40
/-- Judges the arrival of one entry, once its header can be read (R171). -/
def State.judge (s : State) (core : Nat) (part : BitVec 16) (grp : Group) (e : Nat) : Group :=
  match find e grp.split with
  | none => grp
  | some f =>
    if f.fresh && f.state == .ready && !f.held then
      match s.peek core part f.pc.toNat with
      | some h => if f.comes h then arrive grp e else grp.setFrag e { f with fresh := false }
      | none => grp
    else grp
/-- What a track applies to one of its groups between two clauses (R122, R170, R171, R180, R314, R328, and the
waits of R363 on a window that has become valid). -/
def State.settleGroup (s : State) (core g : Nat) : State :=
  match s.group g with
  | none => s
  | some grp =>
    match s.grid grp.grid with
    | none => s
    | some gd =>
      if grp.stopped then s
      else if gd.st = .aborted then s.updGroup g Group.retireAll
      else if grp.parity then
        ((s.updGroup g fun x => { x with parity := false }).report
          { s.groupRec 0x07 g with flags := 8 + bits01 (s.privileged grp) * 64 } g).abortGrid grp.grid
          false
      else
        ((s.rouseDue g).wakeWcnt g).updGroup g fun x =>
          let y := x.split.foldl (fun a e => s.judge core gd.part a e.1) x
          y.split.foldl (fun a e => wakeEntry s.ticketFree a e.1) y
/-- One candidate of a choice. -/
structure Cand where
  slot : Nat
  group : Nat
  entry : Nat
  age : Nat
  prio : Nat
  yld : Bool
  deriving DecidableEq, Repr
def Cand.pos (c : Cand) : Nat := 16 * c.slot + c.entry
/-- The ready fragments of a track, by group slot and entry. -/
def State.cands (s : State) (t : Nat) : List Cand :=
  (s.track t).slots.flatMap fun sl =>
    match s.group sl.2 with
    | none => []
    | some grp =>
      match s.grid grp.grid with
      | none => []
      | some gd =>
        if grp.resid ≠ .bound ∨ grp.stopped ∨ gd.st = .aborted then [] else
        (grp.split.filter fun e => s.readyFrag (coreOf t) sl.2 grp gd.part e.2).map fun e =>
          ⟨sl.1, sl.2, e.1, e.2.age, gd.prio, e.2.yld⟩
/-- The first of a list under an order. -/
def firstBy {α : Type} (better : α → α → Bool) : List α → Option α
  | [] => none
  | x :: l => match firstBy better l with
    | none => some x
    | some y => if better y x then some y else some x
/-- The choice of R44: the oldest of age 64 and more, or the highest class, round-robin after the
fragment last chosen, one that yielded after every other. -/
def chooseFrag (last : Nat) (cs : List Cand) : Option Cand :=
  let old := cs.filter fun c => decide (64 ≤ c.age)
  if old.isEmpty then
    let top := cs.foldl (fun m c => min m c.prio) 3
    firstBy (fun (a b : Cand) =>
      if a.yld != b.yld then b.yld
      else decide ((a.pos + 128 - (last + 1)) % 128 < (b.pos + 128 - (last + 1)) % 128))
      (cs.filter fun c => c.prio == top)
  else firstBy (fun (a b : Cand) => decide (b.age < a.age)) old
/-- The ages after a choice. -/
def State.ageAll (s : State) (cs : List Cand) (c : Cand) : State :=
  cs.foldl (fun s x => s.updGroup x.group fun g =>
    match find x.entry g.split with
    | some f => g.setFrag x.entry { f with
        age := if x = c then 0 else min (f.age + 1) 127, yld := false }
    | none => g) s
/-- A fault of a fragment at a clause boundary, before its clause starts (R56, R318): it resumes where
its clause, or its continuation, starts. -/
def State.boundaryFault (s : State) (t g entry : Nat) (f : Frag) (r : FaultRec) (record : Bool := true) :
    State :=
  s.takeFault t g entry r 0 (resumePair f.pc f.resumeWord) (BitVec.ofNat 64 r.addr) record
/-- The imprecise fault that a fragment takes at a boundary before its clause starts (R318): none while its group is
privileged, and none for a clause that ERET resumes within an instruction, which is no start of a clause. -/
def State.taken (s : State) (grp : Group) (f : Frag) : Option FaultRec :=
  if s.privileged grp || f.cursor.isSome then none else grp.pendFaults.head?.map (·.fault)
/-- A fragment takes the oldest pending imprecise fault of its group. -/
def State.takePending (s : State) (t g e : Nat) (f : Frag) (r : FaultRec) : State :=
  (s.updGroup g fun x => { x with pendFaults := x.pendFaults.tail }).boundaryFault t g e f r false
/-- The chosen fragment takes a pending imprecise fault, or its clause is to be fetched; one that is to execute its
terminal instruction again takes it when that instruction's place is known (R170). -/
def State.startChoice (s : State) (t : Nat) (c : Cand) : State :=
  match s.group c.group with
  | none => s
  | some grp =>
    match find c.entry grp.split with
    | none => s
    | some f =>
      let s1 := s.updTrack t fun k => { k with last := c.pos, clauses := k.clauses + 1, latches := [] }
      match (if f.redo then none else s.taken grp f) with
      | some r => s1.takePending t c.group c.entry f r
      | none => s1.updTrack t fun k => { k with
          run := some ⟨c.group, c.entry, f.pc, 0, [], 0, none, f.cursor, f.redo, false, 0, [], []⟩ }
/-- CLAUSE_CHOICE: the track named by the schedule. -/
def State.choose (s : State) (t : Nat) : State :=
  let s1 := (s.track t).slots.foldl (fun a e => a.settleGroup (coreOf t) e.2) s
  let cs := s1.cands t
  match chooseFrag (s1.track t).last cs with
  | none => s1
  | some c => (s1.ageAll cs c).startChoice t c
/-- The enabling condition of CLAUSE_CHOICE: a track at a clause boundary that serves some group. -/
def State.atBoundary (s : State) (t : Nat) : Bool :=
  (s.track t).run.isNone && !(s.track t).slots.isEmpty
/-- R44. -/
def execClauseChoice (s : State) : Out :=
  if s.atBoundary s.pick then .next (s.choose s.pick) else off "CLAUSE_CHOICE"

/-! ## CLAUSE_FETCH (R56) -/

/-- Gives up a choice whose header's waits or engine checks prove unmet after its fetch, or whose fragment arrives or
parks there: nothing of the clause has happened. The ages, the round-robin position and the clause count stay as the
choice has left them; the spec says nothing of it (DESIGN CHOICE, log 40). -/
def State.unchoose (s : State) (t : Nat) : State := s.updTrack t fun k => { k with run := none }
/-- Parks a fragment at its clause's fetch (R229), with one record for the page; the fetch waits while the die's space
is full. -/
def State.parkFetch (s : State) (t : Nat) (r : Run) (part : BitVec 16) (va kind : Nat) : State :=
  let die := dieOf (coreOf t)
  if s.parkFull die then s else
  let rec_ := { s.groupRec kind r.group with
    flags := 1 + s.privFlag r.group, iaddr := r.hdr.toNat, addr := va }
  let s1 := (s.updGroup r.group fun g =>
    match find r.entry g.split with
    | some f => g.setFrag r.entry { f with state := .parked, prev := .parked, wait := .fetch }
    | none => g).updDie die fun d => { d with
      parked := d.parked ++ [⟨part, va, false, .fetch r.group r.entry, s.recordIdx, kind⟩] }
  (s1.report rec_).unchoose t
/-- The clause is in hand: it is validated, and started or faulted (R56, R57). -/
def State.startClause (s : State) (t : Nat) (k : Track) (r : Run) (grp : Group) (gd : Grid) (f : Frag)
    (h : DWord) (ws : List DWord) : State :=
  match checkWords (declOf gd) h ws .instr 1 with
  | some (p, kind) =>
    s.boundaryFault t r.group r.entry f { s.groupRec kind r.group with iaddr := wordAddr r.hdr p }
  | none =>
    if ws.length < f.word then
      s.boundaryFault t r.group r.entry f { s.groupRec 0x01 r.group with iaddr := r.hdr.toNat }
    else
    let pos := if f.redo then ((firstIdx terminal ws).getD 0) + 1 else max f.word 1
    match (if f.redo then s.taken grp f else none) with
    | some p => s.takePending t r.group r.entry { f with term := pos } p
    | none =>
    if !s.waitsMet (coreOf t) r.group grp h ws f.word then s.unchoose t
    else
      let e := (((instrsFrom ws pos).map opOf).filter takesEntry).length
      (s.setTrack t { k with
        hdr := r.hdr
        run := some { r with header := h, words := ws, pos := pos, fetched := true, claim := e } }).updGroup
        r.group fun g => g.setFrag r.entry { f with
          word := 0, cursor := none, redo := false, term := 0, fresh := false, yld := bit h 41, stop := none }
/-- The fetch of the clause that a track has chosen. ADDR of its records is the first byte of the line that failed or
parks: R320 says only "faulting address" (DESIGN CHOICE, log 66). -/
def State.fetchClause (s : State) (t : Nat) (r : Run) (grp : Group) (gd : Grid) (f : Frag) : State :=
  let bad (s : State) (va code lvl : Nat) : State :=
    s.boundaryFault t r.group r.entry f { s.groupRec 0x05 r.group with
      iaddr := r.hdr.toNat, addr := va, flags := bits01 (code == 8) * 32, detail := lvl }
  let wrong (s : State) : State :=
    s.boundaryFault t r.group r.entry f { s.groupRec 0x01 r.group with iaddr := r.hdr.toNat }
  let try_ (gs : List (Nat × Got)) (s : State) (k : State → State) : State :=
    match gs.findSome? fun x => match x.2 with
      | .fail c lvl => some (x.1, c, lvl)
      | _ => none with
    | some (va, c, lvl) => bad s va c lvl
    | none =>
      match gs.findSome? fun x => match x.2 with
        | .park kind => some (x.1, kind)
        | _ => none with
      | some (va, kind) => s.parkFetch t r gd.part va kind
      | none =>
        if gs.any fun x => x.2 == .pend then s
        else match gs.findSome? fun x => match x.2 with
          | .ats p g => some (p, g)
          | _ => none with
          | some (p, g) =>
            if s.atsPending.any fun a => a.pasid == p && a.addr == g then s
            else { s with atsPending := s.atsPending ++ [⟨p, g, .fetch r.group r.entry⟩] }
          | none => k s
  if r.hdr.toNat % 8 ≠ 0 then wrong s
  else
    let (g0, s1) := s.fetchLines t gd.part r [r.hdr.toNat / 128 * 128]
    try_ g0 s1 fun s1 =>
      let h := gotWord g0 r.hdr.toNat
      if !headerOk h then wrong s1
      else if f.comes h then (s1.updGroup r.group (arrive · r.entry)).unchoose t
      else
        let (gs, s2) := s1.fetchLines t gd.part r (clauseLines r.hdr (countOf h))
        try_ gs s2 fun s2 =>
          s2.startClause t (s2.track t) r grp gd f h
            ((List.range (countOf h)).map fun p => gotWord gs (wordAddr r.hdr (p + 1)))
/-- A track that has chosen a fragment whose clause is not fetched yet. -/
def State.toFetch (s : State) (t : Nat) : Option (Run × Group × Grid × Frag) :=
  match (s.track t).run with
  | none => none
  | some r =>
    if r.fetched then none else
    match s.group r.group with
    | none => none
    | some grp =>
      match s.grid grp.grid, find r.entry grp.split with
      | some gd, some f => some (r, grp, gd, f)
      | _, _ => none
/-- R56. -/
def execClauseFetch (s : State) : Out :=
  match s.toFetch s.pick with
  | some (r, grp, gd, f) => .next (s.fetchClause s.pick r grp gd f)
  | none => off "CLAUSE_FETCH"

end Sys2Proof.Machine
end

