-- ==== Sys2Proof/Machine/Integer.lean ====
section
/-! DEFINITION. The integer, logic, bit-field, comparison and selection instructions (R123 to R132). -/

namespace Sys2Proof.Machine

/-- The operand width of R124 in bits: 32 for a single destination, 64 for a pair. -/
def dBits (d : Dst) : Nat := 32 * Width.count d.width
/-- The width that an A operand has, for POPC, CLZ and CTZ (R129). -/
def aBits (a : Src) : Nat := 32 * Width.count a.width
/-- FN bit 0 selects n32 or n64 (R125). -/
def fnSigned (fn : BitVec 3) : Bool := !fn.getLsbD 0
/-- An operand read as a w-bit integer of a signedness (R91). -/
def ival (signed : Bool) (w x : Nat) : Int := if signed then sgn (x % 2 ^ w) w else ((x % 2 ^ w : Nat) : Int)
/-- The range of a w-bit type (R92). -/
def imin (signed : Bool) (w : Nat) : Int := if signed then -(2 ^ (w - 1)) else 0
def imax (signed : Bool) (w : Nat) : Int := if signed then 2 ^ (w - 1) - 1 else 2 ^ w - 1
/-- A result modulo 2^w, or clamped to the type when a prefix sets SAT (R92, R126). -/
def wrapSat (sat signed : Bool) (w : Nat) (x : Int) : Nat :=
  let y := if sat then max (imin signed w) (min x (imax signed w)) else x
  (y % 2 ^ w).toNat
/-- SAT of the prefix, if any. -/
def pfxSat (p : Option Pfx) : Bool := (p.map (·.sat)).getD false

/-- An arithmetic instruction whose exact result is wrapped, or clamped under SAT (R126, R127). -/
def arith2 (s : State) (f : FmtT) (op : Int → Int → Int) : Out :=
  let w := dBits f.d
  let sg := fnSigned f.fn
  aluT2 s f w w fun p a b => wrapSat (pfxSat p) sg w (op (ival sg w a) (ival sg w b))
def arith3 (s : State) (f : FmtT) (op : Int → Int → Int → Int) : Out :=
  let w := dBits f.d
  let sg := fnSigned f.fn
  aluT3 s f w w w fun p a b c =>
    wrapSat (pfxSat p) sg w (op (ival sg w a) (ival sg w b) (ival sg w c))
/-- A signed operation on A with FN zero (R127). -/
def arith1 (s : State) (f : FmtT) (op : Int → Int) : Out :=
  let w := dBits f.d
  aluT1 s f w fun p a => wrapSat (pfxSat p) true w (op (ival true w a))

/-- IADD (R127): A + B. -/
def execIadd (f : FmtT) (s : State) : Out := arith2 s f (· + ·)
/-- ISUB (R127): A − B. -/
def execIsub (f : FmtT) (s : State) : Out := arith2 s f (· - ·)
/-- IADDI (R127): A plus the 24-bit immediate, sign-extended to w and then read under the signedness that FN selects, as A
is (DEDUCED, log 29). -/
def execIaddi (f : FmtRI) (s : State) : Out :=
  let w := dBits f.d
  let sg := fnSigned f.fn
  runAlu s f.m f.d (srcWords f.a) fun r i p =>
    let imm := ival sg w (f.imm.signExtend w).toNat
    wrapSat (pfxSat p) sg w (ival sg w (r.operand f.a i w) + imm)
/-- IMUL (R127): the low bits of A × B. -/
def execImul (f : FmtT) (s : State) : Out := arith2 s f (· * ·)
/-- IMULH (R127): bits 2w − 1:w of the exact product; SAT has no effect. -/
def execImulh (f : FmtT) (s : State) : Out :=
  let w := dBits f.d
  let sg := fnSigned f.fn
  aluT2 s f w w fun _ a b => (ival sg w a * ival sg w b / 2 ^ w % 2 ^ w).toNat
/-- IMAD (R127): A × B + C, formed exactly. -/
def execImad (f : FmtT) (s : State) : Out := arith3 s f fun a b c => a * b + c
/-- IMADW (R127): singles A and B extended to 64 bits, times, plus the pair C. -/
def execImadw (f : FmtT) (s : State) : Out :=
  let sg := fnSigned f.fn
  aluT3 s f 32 32 64 fun p a b c =>
    wrapSat (pfxSat p) sg 64 (ival sg 32 a * ival sg 32 b + ival sg 64 c)
/-- The quotient and remainder of R128. -/
def divRem (sat signed : Bool) (w : Nat) (a b : Int) : Int × Int :=
  if b = 0 then
    (if signed then (if a < 0 then imin signed w else imax signed w) else imax signed w, a)
  else if signed && decide (a = imin signed w) && decide (b = -1) then
    (if sat then imax signed w else imin signed w, 0)
  else (a.tdiv b, a - a.tdiv b * b)
/-- IDIV (R127, R128). -/
def execIdiv (f : FmtT) (s : State) : Out :=
  let w := dBits f.d
  let sg := fnSigned f.fn
  aluT2 s f w w fun p a b =>
    ((divRem (pfxSat p) sg w (ival sg w a) (ival sg w b)).1 % 2 ^ w).toNat
/-- IREM (R127, R128). -/
def execIrem (f : FmtT) (s : State) : Out :=
  let w := dBits f.d
  let sg := fnSigned f.fn
  aluT2 s f w w fun p a b =>
    ((divRem (pfxSat p) sg w (ival sg w a) (ival sg w b)).2 % 2 ^ w).toNat
/-- IMIN (R127). -/
def execImin (f : FmtT) (s : State) : Out :=
  let w := dBits f.d
  let sg := fnSigned f.fn
  aluT2 s f w w fun _ a b => (min (ival sg w a) (ival sg w b) % 2 ^ w).toNat
/-- IMAX (R127). -/
def execImax (f : FmtT) (s : State) : Out :=
  let w := dBits f.d
  let sg := fnSigned f.fn
  aluT2 s f w w fun _ a b => (max (ival sg w a) (ival sg w b) % 2 ^ w).toNat
/-- IABS (R127). -/
def execIabs (f : FmtT) (s : State) : Out := arith1 s f fun a => if a < 0 then -a else a
/-- INEG (R127). -/
def execIneg (f : FmtT) (s : State) : Out := arith1 s f fun a => -a
/-- ISAD (R127): |A − B| + C. -/
def execIsad (f : FmtT) (s : State) : Out :=
  arith3 s f fun a b c => (if a < b then b - a else a - b) + c
/-- IADD3 (R127): A + B + C. -/
def execIadd3 (f : FmtT) (s : State) : Out := arith3 s f fun a b c => a + b + c
/-- LEA (R127): B + (A << FN) mod 2^64; a single A is sign-extended. -/
def execLea (f : FmtT) (s : State) : Out :=
  let wa := match f.a.width with
    | .pair => 64
    | _ => 32
  aluT2 s f wa 64 fun _ a b =>
    ((ival true wa a * 2 ^ f.fn.toNat + (b : Int)) % 2 ^ 64).toNat
/-- ICLAMP (R127): min(max(A, B), C). -/
def execIclamp (f : FmtT) (s : State) : Out :=
  let w := dBits f.d
  let sg := fnSigned f.fn
  aluT3 s f w w w fun _ a b c =>
    (min (max (ival sg w a) (ival sg w b)) (ival sg w c) % 2 ^ w).toNat

/-! ## Logic and bits (R129, R130) -/

/-- A bitwise operation of two operands. -/
def logic2 (s : State) (f : FmtT) (op : Nat → Nat → Nat) : Out :=
  let w := dBits f.d
  aluT2 s f w w fun _ a b => op a b % 2 ^ w
/-- The complement of a w-bit number. -/
def compl (w x : Nat) : Nat := 2 ^ w - 1 - x % 2 ^ w
/-- AND (R129). -/
def execAnd (f : FmtT) (s : State) : Out := logic2 s f (· &&& ·)
/-- OR (R129). -/
def execOr (f : FmtT) (s : State) : Out := logic2 s f (· ||| ·)
/-- XOR (R129). -/
def execXor (f : FmtT) (s : State) : Out := logic2 s f (· ^^^ ·)
/-- ANDN (R129): A and not B. -/
def execAndn (f : FmtT) (s : State) : Out := logic2 s f fun a b => a &&& compl (dBits f.d) b
/-- NOT (R129). -/
def execNot (f : FmtT) (s : State) : Out :=
  aluT1 s f (dBits f.d) fun _ a => compl (dBits f.d) a
/-- A shift by a single count read as n32 (R129). -/
def shift (s : State) (f : FmtT) (op : Nat → Nat → Nat → Nat) : Out :=
  let w := dBits f.d
  aluT2 s f w 32 fun _ a b => op w a b % 2 ^ w
/-- SHL (R129). -/
def execShl (f : FmtT) (s : State) : Out := shift s f fun w a b => if w ≤ b then 0 else a * 2 ^ b
/-- SHR (R129). -/
def execShr (f : FmtT) (s : State) : Out := shift s f fun w a b => if w ≤ b then 0 else a / 2 ^ b
/-- SAR (R129). -/
def execSar (f : FmtT) (s : State) : Out :=
  shift s f fun w a b => (sgn a w / 2 ^ (min b w) % 2 ^ w).toNat
/-- ROL (R129). -/
def execRol (f : FmtT) (s : State) : Out :=
  shift s f fun w a b => a * 2 ^ (b % w) ||| a / 2 ^ (w - b % w)
/-- FSHL (R129): bits 2w − 1:w of (A : B) << (C mod w). -/
def execFshl (f : FmtT) (s : State) : Out :=
  let w := dBits f.d
  aluT3 s f w w 32 fun _ a b c => (a * 2 ^ w + b) * 2 ^ (c % w) / 2 ^ w % 2 ^ w
/-- FSHR (R129): bits w − 1:0 of (A : B) >> (C mod w). -/
def execFshr (f : FmtT) (s : State) : Out :=
  let w := dBits f.d
  aluT3 s f w w 32 fun _ a b c => (a * 2 ^ w + b) / 2 ^ (c % w) % 2 ^ w
/-- The field length of R130. -/
def fieldLen (w b : Nat) : Nat :=
  let pos := fld b 0 8
  let len := fld b 8 8
  if w ≤ pos ∨ len = 0 then 0 else min len (w - pos)
/-- BFX (R130). -/
def execBfx (f : FmtT) (s : State) : Out :=
  let w := dBits f.d
  aluT2 s f w 32 fun _ a b =>
    let n := fieldLen w b
    let x := a / 2 ^ fld b 0 8 % 2 ^ n
    if n = 0 then 0 else if fnSigned f.fn then (sgn x n % 2 ^ w).toNat else x
/-- BFI (R130). -/
def execBfi (f : FmtT) (s : State) : Out :=
  let w := dBits f.d
  aluT3 s f w 32 w fun _ a b c =>
    let n := fieldLen w b
    let pos := fld b 0 8
    if n = 0 then c
    else c - c / 2 ^ pos % 2 ^ n * 2 ^ pos + a % 2 ^ n * 2 ^ pos
/-- POPC (R129); w is A's width. -/
def execPopc (f : FmtT) (s : State) : Out :=
  let w := aBits f.a
  aluT1 s f w fun _ a => ((List.range w).filter a.testBit).length
/-- CLZ (R129). -/
def execClz (f : FmtT) (s : State) : Out :=
  let w := aBits f.a
  aluT1 s f w fun _ a => (firstIdx (fun i => a.testBit (w - 1 - i)) (List.range w)).getD w
/-- CTZ (R129). -/
def execCtz (f : FmtT) (s : State) : Out :=
  let w := aBits f.a
  aluT1 s f w fun _ a => (firstIdx (fun i => a.testBit i) (List.range w)).getD w
/-- BREV (R129). -/
def execBrev (f : FmtT) (s : State) : Out :=
  let w := dBits f.d
  aluT1 s f w fun _ a =>
    (List.range w).foldl (fun acc i => acc + bits01 (a.testBit (w - 1 - i)) * 2 ^ i) 0
/-- One byte of BYTP (R130). -/
def bytpByte (src sel : Nat) : Nat :=
  let b := fld src (8 * (sel % 8)) 8
  if 8 ≤ sel then (if 128 ≤ b then 0xFF else 0) else b
/-- BYTP (R130). -/
def execBytp (f : FmtT) (s : State) : Out :=
  aluT3 s f 32 32 32 fun _ a b c =>
    let src := b * 2 ^ 32 + a
    (List.range 4).foldl (fun acc j => acc + bytpByte src (fld c (4 * j) 4) * 2 ^ (8 * j)) 0

/-! ## Comparison and selection (R131, R132) -/

/-- ICMP (R131). -/
def execIcmp (f : FmtK) (s : State) : Out :=
  runCompare s f (if Ty.bitsOf f.ty = 64 then 64 else 32) fun a b =>
    condInt f.cond (tyVal f.ty a) (tyVal f.ty b)
/-- ISEL (R132): k[FN] selects A or B; bits are copied unchanged. The spec does not say whether the operand that is not
selected is read: both are, so a poisoned word of either faults (R120; DESIGN CHOICE, log 56). -/
def execIsel (f : FmtT) (s : State) : Out :=
  let w := dBits f.d
  onTrack s fun c =>
    .next (runLanes s c f.m (some f.d) (fun i => srcWords f.a i ++ srcWords f.b i) fun r i =>
      r.writeBack f.m f.d i
        (if (c.k f.fn.toNat).getLsbD i then r.operand f.a i w else r.operand f.b i w))

end Sys2Proof.Machine
end

