-- ==== Sys2Proof/Machine/Moves.lean ====
section
/-! DEFINITION. The register moves, special registers and mask instructions (R115, R116, R133 to R137). -/

namespace Sys2Proof.Machine

/-- MOV (R133): bits are copied unchanged; SAT has no effect. -/
def execMov (f : FmtT) (s : State) : Out := aluT1 s f (dBits f.d) fun _ a => a
/-- MOVI (R133): imm32, sign-extended for a pair. -/
def execMovi (f : FmtL) (s : State) : Out :=
  runAlu s f.m f.d (fun _ => []) fun _ _ _ => (f.imm.signExtend (dBits f.d)).toNat
/-- MOVIH (R133): the higher register of the pair alone. -/
def execMovih (f : FmtL) (s : State) : Out :=
  runAlu s f.m ⟨f.d.isS, .single, f.d.num + 1⟩ (fun _ => []) fun _ _ _ => f.imm.toNat
/-- The value of a special register for a lane (R115, R116). -/
def specialReg (s : State) (c : Ctx) (sel lane : Nat) : Nat :=
  match sel with
  | 0x00 => lane
  | 0x01 => c.grp.nlanes
  | 0x02 => c.grp.idx
  | 0x03 => c.team.x
  | 0x04 => c.team.y
  | 0x05 => c.team.z
  | 0x06 => c.team.x % c.grid.cols
  | 0x07 => c.team.y % c.grid.rows
  | 0x08 => c.grid.gx
  | 0x09 => c.grid.gy
  | 0x0A => c.grid.gz
  | 0x0B => c.core
  | 0x0C => c.die
  | 0x0D => s.pkg.toNat
  | 0x0E => c.grid.part.toNat
  | 0x0F => (s.die c.die).incarn.toNat
  | 0x10 => c.grp.gang.toNat
  | _ => 0
/-- MOVS (R133): each active lane, or once with UNI. -/
def execMovs (m : Mods) (d : Dst) (sel : BitVec 5) (s : State) : Out :=
  onTrack s fun c =>
    let val (i : Nat) := specialReg s c sel.toNat i
    if m.uni then .next (runUniform s c m.sp [] fun r => r.writeBack m d 0 (val 0))
    else .next (runLanes s c m (some d) (fun _ => []) fun r i => r.writeBack m d i (val i))

/-- NOP (R70): one step. -/
def execNop (sp : Bool) (s : State) : Out :=
  onTrack s fun c => .next (s.advance c c.grp c.trk sp 1)

/-- A mask instruction (R134): once per fragment, in one step, whatever k0 holds. The spec does
not say how the register-file error of a KMOV that reads a poisoned s word is attributed (R120): as of a uniform
instruction, cursor 0 and no lane (DESIGN CHOICE, log 57). -/
def runMask (s : State) (sp : Bool) (reads : List (Bank × Nat))
    (f : Ctx → RegFile → Group × RegFile) : Out :=
  onTrack s fun c =>
    let r0 := RegFile.of c.grp c.trk
    if c.run.cursor = some 32 then .next (s.regDone c r0 none 0 sp 1)
    else
      let (r1, bad) := r0.touchAll reads
      if bad then .next (s.regDone c r1 (some 32) 0 sp 1)
      else
        let (g, r2) := f c r1
        .next (s.regDone { c with grp := g } r2 none 0 sp 1)
/-- A mask read into a single s register (R137). -/
def maskToS (s : State) (sp nwb : Bool) (d : Dst) (ka : BitVec 3) (op : Mask → Nat) : Out :=
  runMask s sp [] fun c r =>
    (c.grp, r.writeBack ⟨sp, false, nwb, false, 0⟩ d 0 (op (c.k ka.toNat)))
/-- MOVK (R137). -/
def execMovk (sp nwb : Bool) (d : Dst) (ka : BitVec 3) (s : State) : Out :=
  maskToS s sp nwb d ka BitVec.toNat
/-- KPOPC (R137). -/
def execKpopc (sp nwb : Bool) (d : Dst) (ka : BitVec 3) (s : State) : Out :=
  maskToS s sp nwb d ka fun m => (lanesOf m).length
/-- KFIND (R137): lowest or highest set lane, or 32. -/
def execKfind (sp nwb : Bool) (d : Dst) (hi : Bool) (ka : BitVec 3) (s : State) : Out :=
  maskToS s sp nwb d ka fun m =>
    if hi then (lanesOf m).getLastD 32 else (lanesOf m).headD 32
/-- KMOV (R135): from a k register, an s register or an immediate. -/
def execKmov (sp : Bool) (kd : BitVec 3) (a : KSrc) (s : State) : Out :=
  let reads := match a with
    | .s sn => [(Bank.s, sn.toNat)]
    | _ => []
  runMask s sp reads fun c r =>
    let v := match a with
      | .k ka => c.k ka.toNat
      | .s sn => (r.get .s sn.toNat).val
      | .imm v => v
    (c.kWrite c.grp kd.toNat v (BitVec.allOnes 32), r)
/-- KOP (R136): TT bit 2 × kA[i] + kB[i]. -/
def execKop (sp : Bool) (kd ka kb : BitVec 3) (tt : BitVec 4) (s : State) : Out :=
  runMask s sp [] fun c r =>
    let x := c.k ka.toNat
    let y := c.k kb.toNat
    let v := maskOf ((List.range 32).filter fun i =>
      tt.getLsbD (2 * bits01 (x.getLsbD i) + bits01 (y.getLsbD i)))
    (c.kWrite c.grp kd.toNat v (BitVec.allOnes 32), r)

end Sys2Proof.Machine
end

