-- ==== Sys2Proof/Machine/Float.lean ====
section
/-! DEFINITION. Floating-point formats, exact values, rounding, and the arithmetic, comparison,
conversion and packing instructions on them (R93 to R100, R138 to R149). -/

namespace Sys2Proof.Machine

/-! ## Formats (R93) -/

/-- Fraction bits, exponent bits, bias; `e4` marks E4M3, which has no infinity. -/
structure FFmt where
  p : Nat
  eb : Nat
  bias : Int
  e4 : Bool
  deriving DecidableEq, Repr
def f32 : FFmt := ⟨23, 8, 127, false⟩
def f16 : FFmt := ⟨10, 5, 15, false⟩
def bf16 : FFmt := ⟨7, 8, 127, false⟩
def e4m3 : FFmt := ⟨3, 4, 7, true⟩
def e5m2 : FFmt := ⟨2, 5, 15, false⟩
def FFmt.bits (f : FFmt) : Nat := 1 + f.eb + f.p
def FFmt.signBit (f : FFmt) : Nat := 2 ^ (f.eb + f.p)
/-- The pattern of +∞; E4M3 has none and answers its NaN (R99). -/
def FFmt.infPat (f : FFmt) : Nat := if f.e4 then 0x7F else (2 ^ f.eb - 1) * 2 ^ f.p
def FFmt.nanPat (f : FFmt) : Nat :=
  if f.e4 then 0x7F else (2 ^ f.eb - 1) * 2 ^ f.p + 2 ^ (f.p - 1)
def FFmt.maxPat (f : FFmt) : Nat := if f.e4 then 0x7E else (2 ^ f.eb - 1) * 2 ^ f.p - 1
/-- The least exponent of a quantum: that of the subnormals. -/
def FFmt.emin (f : FFmt) : Int := 1 - f.bias - f.p

/-! ## Exact values -/

/-- The value of an exact number at a lower exponent. -/
def Dy.at (d : Dy) (e : Int) : Int := d.m * 2 ^ (d.e - e).toNat
def Dy.add (a b : Dy) : Dy :=
  let e := min a.e b.e
  ⟨a.at e + b.at e, e⟩
def Dy.mul (a b : Dy) : Dy := ⟨a.m * b.m, a.e + b.e⟩
def Dy.neg (a : Dy) : Dy := ⟨-a.m, a.e⟩
/-- Whether a < b. -/
def Dy.lt (a b : Dy) : Bool :=
  let e := min a.e b.e
  decide (a.at e < b.at e)
def Dy.eqv (a b : Dy) : Bool := !a.lt b && !b.lt a
def El.ofDy (d : Dy) (zneg : Bool) : El := .fin d (if d.m = 0 then zneg else decide (d.m < 0))
def El.isNeg : El → Bool
  | .fin _ n => n
  | .inf n => n
  | .nan => false
/-- The value of a pattern (R93); `daz` reads a subnormal as a zero of its sign (R95). -/
def fread (f : FFmt) (daz : Bool) (x : Nat) : El :=
  let neg := x / f.signBit % 2 = 1
  let mag := x % f.signBit
  let e := mag / 2 ^ f.p
  let fr := mag % 2 ^ f.p
  let sg : Int := if neg then -1 else 1
  if f.e4 && mag == 0x7F then .nan
  else if !f.e4 && e == 2 ^ f.eb - 1 then (if fr = 0 then .inf neg else .nan)
  else if e = 0 then
    (if daz then .fin ⟨0, 0⟩ neg else .fin ⟨sg * fr, f.emin⟩ neg)
  else .fin ⟨sg * (2 ^ f.p + fr : Nat), (e : Int) - f.bias - f.p⟩ neg

/-! ## Rounding (R98, R99) -/

/-- The integer nearest m × 2^k under a rounding mode; `neg` is the sign of the value. -/
def roundShift (rnd : Rnd) (neg : Bool) (m : Nat) (k : Int) : Nat :=
  if 0 ≤ k then m * 2 ^ k.toNat
  else
    let d := (-k).toNat
    let q := m / 2 ^ d
    let r := m % 2 ^ d
    let half := 2 ^ (d - 1)
    let up := match rnd with
      | .rne => decide (half < r) || (r == half && q % 2 == 1)
      | .rtz => false
      | .up => r != 0 && !neg
      | .down => r != 0 && neg
      | .away => decide (half ≤ r)
    if up then q + 1 else q
/-- Bits of a magnitude. -/
def bitLen (m : Nat) : Nat := if m = 0 then 0 else Nat.log2 m + 1
/-- An overflowed result (R99). -/
def overflowPat (f : FFmt) (rnd : Rnd) (sat neg : Bool) : Nat :=
  if sat then f.maxPat
  else if f.e4 then f.nanPat
  else match rnd with
    | .rne | .away => f.infPat
    | .rtz => f.maxPat
    | .up => if neg then f.maxPat else f.infPat
    | .down => if neg then f.infPat else f.maxPat
/-- A nonzero magnitude m × 2^e rounded to a pattern without sign (R98, R99); FTZ is R95's. -/
def roundMag (f : FFmt) (rnd : Rnd) (sat ftz neg : Bool) (m : Nat) (e : Int) : Nat :=
  let lead := e + bitLen m - 1
  let q := max (lead - f.p) f.emin
  let r := roundShift rnd neg m (e - q)
  let (r, q) := if r = 2 ^ (f.p + 1) then (2 ^ f.p, q + 1) else (r, q)
  if r = 0 then 0
  else if r < 2 ^ f.p then (if ftz then 0 else r)
  else
    let pat := (q + f.p + f.bias).toNat * 2 ^ f.p + (r - 2 ^ f.p)
    if f.maxPat < pat then overflowPat f rnd sat neg else pat
/-- A value rounded once to a format (R98, R99): NaN canonical (R96), an infinity kept, or replaced by
the largest finite value with SAT. -/
def fround (f : FFmt) (rnd : Rnd) (sat ftz : Bool) (x : El) : Nat :=
  match x with
  | .nan => f.nanPat
  | .inf neg =>
    let mag := if sat then f.maxPat else f.infPat
    if f.e4 && !sat then f.nanPat else mag + (if neg then f.signBit else 0)
  | .fin d neg =>
    if d.m = 0 then (if neg then f.signBit else 0)
    else
      let mag := roundMag f rnd sat ftz (decide (d.m < 0)) d.m.natAbs d.e
      if f.e4 && mag == 0x7F then 0x7F else mag + (if d.m < 0 then f.signBit else 0)
/-- Round to nearest even, with subnormals honoured and no saturation. -/
def rne32 (x : El) : Word := BitVec.ofNat 32 (fround f32 .rne false false x)

/-! ## Exact operations (R94, R96, R97) -/

/-- The sign of an exact zero sum of terms of opposite signs (R94 and its commentary). -/
def zeroSign (rnd : Rnd) : Bool := rnd == .down
def El.negate : El → El
  | .fin d n => .fin d.neg (!n)
  | .inf n => .inf (!n)
  | .nan => .nan
def El.add (rnd : Rnd) (a b : El) : El :=
  match a, b with
  | .nan, _ => .nan
  | _, .nan => .nan
  | .inf x, .inf y => if x = y then .inf x else .nan
  | .inf x, _ => .inf x
  | _, .inf y => .inf y
  | .fin x nx, .fin y ny =>
    let s := x.add y
    if s.m = 0 then
      .fin ⟨0, 0⟩ (if x.m = 0 ∧ y.m = 0 ∧ nx = ny then nx else zeroSign rnd)
    else .fin s (decide (s.m < 0))
def El.mul (a b : El) : El :=
  match a, b with
  | .nan, _ => .nan
  | _, .nan => .nan
  | .inf x, .inf y => .inf (x != y)
  | .inf x, .fin y ny => if y.m = 0 then .nan else .inf (x != ny)
  | .fin x nx, .inf y => if x.m = 0 then .nan else .inf (nx != y)
  | .fin x nx, .fin y ny => .fin (x.mul y) (nx != ny)
/-- How two values stand (R64): NaN unordered, the zeros equal. -/
def El.cmp (a b : El) : FRel :=
  match a, b with
  | .nan, _ => .un
  | _, .nan => .un
  | .inf x, .inf y => if x = y then .eq else if x then .lt else .gt
  | .inf x, _ => if x then .lt else .gt
  | _, .inf y => if y then .gt else .lt
  | .fin x _, .fin y _ => if x.lt y then .lt else if y.lt x then .gt else .eq
/-- minimumNumber and maximumNumber (R97): −0 is below +0. -/
def El.minNum (a b : El) : El :=
  match a, b with
  | .nan, y => y
  | x, .nan => x
  | x, y => match x.cmp y with
    | .lt => x
    | .gt => y
    | _ => if x.isNeg then x else y
def El.maxNum (a b : El) : El :=
  match a, b with
  | .nan, y => y
  | x, .nan => x
  | x, y => match x.cmp y with
    | .lt => y
    | .gt => x
    | _ => if x.isNeg then y else x
/-- A value rounded to an integral one (R143, FRND): a zero result keeps the sign. -/
def El.integral (rnd : Rnd) (x : El) : El :=
  match x with
  | .fin d n =>
    let r := roundShift rnd n d.m.natAbs d.e
    .fin ⟨if n then -(r : Int) else r, 0⟩ n
  | y => y

/-! ## Instructions -/

def pfxRm (p : Option Pfx) : Rnd := (p.map (·.rm)).getD .rne
def pfxFtz (p : Option Pfx) : Bool := (p.map (·.ftz)).getD false
def pfxDaz (p : Option Pfx) : Bool := (p.map (·.daz)).getD false
/-- The rounding of R142, with the prefix's RM, SAT and FTZ. -/
def fin32 (p : Option Pfx) (x : El) : Nat := fround f32 (pfxRm p) (pfxSat p) (pfxFtz p) x
def rd32 (p : Option Pfx) (x : Nat) : El := fread f32 (pfxDaz p) x

/-- A binary32 operation on A and B (R142, R143). -/
def float2 (s : State) (f : FmtT) (op : Rnd → El → El → El) : Out :=
  aluT2 s f 32 32 fun p a b => fin32 p (op (pfxRm p) (rd32 p a) (rd32 p b))
/-- FADD (R143). -/
def execFadd (f : FmtT) (s : State) : Out := float2 s f El.add
/-- FSUB (R143). -/
def execFsub (f : FmtT) (s : State) : Out := float2 s f fun r a b => a.add r b.negate
/-- FMUL (R143). -/
def execFmul (f : FmtT) (s : State) : Out := float2 s f fun _ a b => a.mul b
/-- FFMA (R143): one rounding; 0 × ∞ gives NaN whatever C is. -/
def execFfma (f : FmtT) (s : State) : Out :=
  aluT3 s f 32 32 32 fun p a b c =>
    fin32 p (((rd32 p a).mul (rd32 p b)).add (pfxRm p) (rd32 p c))
/-- FMIN (R97, R143). -/
def execFmin (f : FmtT) (s : State) : Out := float2 s f fun _ a b => a.minNum b
/-- FMAX (R97, R143). -/
def execFmax (f : FmtT) (s : State) : Out := float2 s f fun _ a b => a.maxNum b
/-- FSGN (R144): bit 31 alone changes. -/
def execFsgn (f : FmtT) (s : State) : Out :=
  let low (a : Nat) := a % 2 ^ 31
  let top (a : Nat) := a / 2 ^ 31 % 2
  match f.fn.toNat with
  | 0 => aluT2 s f 32 32 fun _ a b => low a + top b * 2 ^ 31
  | 1 => aluT2 s f 32 32 fun _ a b => low a + (1 - top b) * 2 ^ 31
  | 2 => aluT2 s f 32 32 fun _ a b => low a + (top a + top b) % 2 * 2 ^ 31
  | 3 => aluT1 s f 32 fun _ a => low a
  | _ => aluT1 s f 32 fun _ a => low a + (1 - top a) * 2 ^ 31
/-- FRND (R143). -/
def execFrnd (f : FmtT) (s : State) : Out :=
  aluT1 s f 32 fun p a => fin32 p ((rd32 p a).integral (pfxRm p))
/-- The format of a code 0 to 4 of R145. -/
def fmtOf (n : Nat) : FFmt := [f32, f16, bf16, e4m3, e5m2].getD n f32
/-- The class bit of a pattern (R145). -/
def fclassBit (f : FFmt) (x : Nat) : Nat :=
  let neg := x / f.signBit % 2 = 1
  let mag := x % f.signBit
  match fread f false x with
  | .nan => if f.e4 then 1 else if mag / 2 ^ (f.p - 1) % 2 = 1 then 1 else 0
  | .inf _ => if neg then 2 else 9
  | .fin _ _ =>
    if mag = 0 then (if neg then 5 else 6)
    else if mag < 2 ^ f.p then (if neg then 4 else 7)
    else (if neg then 3 else 8)
/-- FCLASS (R145). -/
def execFclass (f : FmtT) (s : State) : Out :=
  let ff := fmtOf f.fn.toNat
  aluT1 s f 32 fun _ a => 2 ^ fclassBit ff (a % 2 ^ ff.bits)
/-- The format of a float type of R64. -/
def Ty.fmt : Ty → FFmt
  | .f16 => Machine.f16 | .bf16 => Machine.bf16 | .e4m3 => Machine.e4m3 | .e5m2 => Machine.e5m2
  | _ => Machine.f32
/-- FCMP (R146). -/
def execFcmp (f : FmtK) (s : State) : Out :=
  let ff := Ty.fmt f.ty
  runCompare s f 32 fun a b =>
    condFloat f.cond ((fread ff false (a % 2 ^ ff.bits)).cmp (fread ff false (b % 2 ^ ff.bits)))

/-! ## Packed halves and dot products (R147 to R149) -/

/-- FN of R147: binary16 or BF16. -/
def halfFmt (fn : BitVec 3) : FFmt := if fn.getLsbD 0 then bf16 else f16
/-- Element e of packed halves. -/
def half (x e : Nat) : Nat := fld x (16 * e) 16
/-- A packed operation, element by element (R147). -/
def packed (f : FFmt) (p : Option Pfx) (op : Nat → El) : Nat :=
  fround f (pfxRm p) (pfxSat p) (pfxFtz p) (op 0) +
    fround f (pfxRm p) (pfxSat p) (pfxFtz p) (op 1) * 2 ^ 16
def packed2 (s : State) (f : FmtT) (op : Rnd → El → El → El) : Out :=
  let ff := halfFmt f.fn
  aluT2 s f 32 32 fun p a b =>
    let rd (x e : Nat) := fread ff (pfxDaz p) (half x e)
    packed ff p fun e => op (pfxRm p) (rd a e) (rd b e)
/-- HADD2 (R147). -/
def execHadd2 (f : FmtT) (s : State) : Out := packed2 s f El.add
/-- HMUL2 (R147). -/
def execHmul2 (f : FmtT) (s : State) : Out := packed2 s f fun _ a b => a.mul b
/-- HFMA2 (R147). -/
def execHfma2 (f : FmtT) (s : State) : Out :=
  let ff := halfFmt f.fn
  aluT3 s f 32 32 32 fun p a b c =>
    let rd (x e : Nat) := fread ff (pfxDaz p) (half x e)
    packed ff p fun e => ((rd a e).mul (rd b e)).add (pfxRm p) (rd c e)
/-- HMIN2 (R147). -/
def execHmin2 (f : FmtT) (s : State) : Out := packed2 s f fun _ a b => a.minNum b
/-- HMAX2 (R147). -/
def execHmax2 (f : FmtT) (s : State) : Out := packed2 s f fun _ a b => a.maxNum b
/-- An exact sum of terms (R108, R148): NaN, then the infinities, then the exact value; a zero sum is
−0 when every term is a negative zero, and otherwise has the sign of the mode. -/
def El.sum (rnd : Rnd) (ts : List El) : El :=
  if ts.any (· == .nan) then .nan
  else if ts.any (· == .inf true) && ts.any (· == .inf false) then .nan
  else if ts.any (· == .inf true) then .inf true
  else if ts.any (· == .inf false) then .inf false
  else
    let d := ts.foldl (fun acc t => match t with
      | .fin x _ => acc.add x
      | _ => acc) (⟨0, 0⟩ : Dy)
    if d.m = 0 then
      .fin ⟨0, 0⟩ ((ts.all fun t => match t with
        | .fin x n => decide (x.m = 0) && n
        | _ => false) || zeroSign rnd)
    else .fin d (decide (d.m < 0))
/-- DOT4 (R148); DAZ applies to C alone. -/
def execDot4 (f : FmtT) (s : State) : Out :=
  let fa := if f.fn.getLsbD 0 then e5m2 else e4m3
  let fb := if f.fn.getLsbD 1 then e5m2 else e4m3
  aluT3 s f 32 32 32 fun p a b c =>
    fin32 p (El.sum (pfxRm p) (((List.range 4).map fun e =>
      (fread fa false (fld a (8 * e) 8)).mul (fread fb false (fld b (8 * e) 8))) ++ [rd32 p c]))
/-- DOT2 (R148). -/
def execDot2 (f : FmtT) (s : State) : Out :=
  let ff := halfFmt f.fn
  aluT3 s f 32 32 32 fun p a b c =>
    fin32 p (El.sum (pfxRm p) (((List.range 2).map fun e =>
      (fread ff (pfxDaz p) (half a e)).mul (fread ff (pfxDaz p) (half b e))) ++ [rd32 p c]))
/-- IDOT4 (R149). -/
def execIdot4 (f : FmtT) (s : State) : Out :=
  let el (uns : Bool) (x e : Nat) : Int := ival (!uns) 8 (fld x (8 * e) 8)
  aluT3 s f 32 32 32 fun p a b c =>
    wrapSat (pfxSat p) true 32 ((List.range 4).foldl (fun acc e =>
      acc + el (f.fn.getLsbD 0) a e * el (f.fn.getLsbD 1) b e) (ival true 32 c))

/-! ## Conversion and packing (R100, R138 to R140) -/

/-- A rounded value as an integer, clamped to a type (R100). -/
def floatToInt (t : Ty) (rnd : Rnd) (x : El) : Int :=
  let w := Ty.bitsOf t
  let lo := imin (Ty.signed t) w
  let hi := imax (Ty.signed t) w
  match x with
  | .nan => 0
  | .inf neg => if neg then lo else hi
  | .fin d n =>
    let r : Int := roundShift rnd n d.m.natAbs d.e
    max lo (min (if n then -r else r) hi)
/-- A conversion of R100; an integer result narrower than 32 bits is extended by its type (R138). Between an
integer type and itself, for which R100's table has no row, the value stays, and with SAT is clamped to the type's own
range (DESIGN CHOICE, log 54). -/
def convert (dt st : Ty) (rnd : Rnd) (sat : Bool) (x : Nat) : Nat :=
  let x := x % 2 ^ Ty.bitsOf st
  let wide := if Ty.bitsOf dt = 64 then 64 else 32
  let int (v : Int) : Nat := (v % 2 ^ wide).toNat
  if Ty.isInt dt then
    if Ty.isInt st then
      let v := tyVal st x
      let w := Ty.bitsOf dt
      if sat && decide (w ≤ Ty.bitsOf st) then int (max (imin (Ty.signed dt) w) (min v (imax (Ty.signed dt) w)))
      else int (tyVal dt ((v % 2 ^ w).toNat))
    else int (floatToInt dt rnd (fread (Ty.fmt st) false x))
  else if Ty.isInt st then
    let v := tyVal st x
    fround (Ty.fmt dt) rnd sat false (.fin ⟨v, 0⟩ (decide (v < 0)))
  else fround (Ty.fmt dt) rnd sat false (fread (Ty.fmt st) false x)
/-- CVT (R138). -/
def execCvt (f : FmtV) (s : State) : Out :=
  runAlu s f.m f.d (srcWords f.a) fun r i _ =>
    convert f.dty f.sty f.rnd f.sat (r.operand f.a i (if Ty.bitsOf f.sty = 64 then 64 else 32))
/-- PACK (R139). -/
def execPack (f : FmtT) (s : State) : Out :=
  aluT2 s f 32 32 fun _ a b =>
    match f.fn.toNat with
    | 0 => half b 0 * 2 ^ 16 + half a 0
    | 1 => half b 1 * 2 ^ 16 + half a 1
    | _ => half b 1 * 2 ^ 16 + half a 0
/-- SPREAD (R140): bit i or byte i of a uniform value to lane i. -/
def execSpread (f : FmtT) (s : State) : Out :=
  runAlu s f.m f.d (srcWords f.a) fun r i _ =>
    let a := r.operand f.a i 32
    match f.fn.toNat with
    | 0 => fld a i 1
    | 1 => fld a (8 * i) 8
    | _ => (sgn (fld a (8 * i) 8) 8 % 2 ^ 32).toNat

end Sys2Proof.Machine
end

