-- ==== Sys2Proof/Machine/Scratch.lean ====
section
/-! DEFINITION. The scratchpad and the order of a group's memory accesses (R220, R222, R239, R240, R245,
R246). -/

namespace Sys2Proof.Machine

/-! ## Scratchpad bytes -/

/-- Whether a range of a core's scratchpad space touches a bank in FIFO mode (R222). -/
def Core.fifoTouch (k : Core) (a n : Nat) : Bool :=
  (List.range n).any fun i => (find ((a + i) / 65536) k.fifo).isSome
def State.scrRead (s : State) (core a n : Nat) : List Byte := rdBytes (s.core core).scratch a n
def State.scrWrite (s : State) (core a : Nat) (bs : List Byte) : State :=
  s.updCore core fun k => { k with scratch := wrBytes k.scratch a bs }
/-- The checks of a scratchpad address (R239): bounds, then alignment; the fault kind of the first that
fails. -/
def scratchCheck (size t n align : Nat) : Option Nat :=
  if size < t + n then some 0x11 else if t % align ≠ 0 then some 0x10 else none
/-- base + sign_extend(offset), modulo 2^32 (R239). -/
def offset32 (b : Nat) (off : BitVec 18) : Nat := ((b : Int) + off.toInt) % 2 ^ 32 |>.toNat

/-! ## Order within a group -/

/-- A record that holds every later one until it has performed: an acquire (R246), any FENCE (R366). -/
def MemRec.acquires (r : MemRec) : Bool :=
  r.order == .acquire || (match r.kind with
    | .fence _ => true
    | _ => false)
def MemRec.undone (r : MemRec) : Bool := r.lanes.any fun l => l.st != .done
/-- Two ranges overlap. -/
def overlap (a n b m : Nat) : Bool := decide (a < b + m) && decide (b < a + n)
/-- Bytes of a group's memory: their space, address, number. -/
structure Span where
  sp : MemSpace
  a : Nat
  n : Nat
/-- The place of an access for a comparison within one team: a cluster access to the team's own member is a scratchpad
access (R240), and a FIFO access touches its bank (R254). -/
def accKey (t : Team) (x : Span) : Span :=
  match x.sp with
  | .cluster => if x.a / 2 ^ 28 = t.member then ⟨.scratch, x.a % 2 ^ 28, x.n⟩ else x
  | .fifo => ⟨.scratch, (t.base + x.a) / 65536 * 65536 - t.base, 65536⟩
  | _ => x
/-- Two accesses of a group touch overlapping bytes of the same memory: global ones, whichever addresses name them
(R245); while one has no physical address, they may if they agree within a page (log 69). FIFO accesses among themselves
keep the order of R256. -/
def State.touches (s : State) (core : Nat) (part : BitVec 16) (t : Team) (x y : Span) : Bool :=
  let p := accKey t x
  let q := accKey t y
  !(x.sp == .fifo && y.sp == .fifo) && p.sp == q.sp && (overlap p.a p.n q.a q.n ||
    (p.sp == .global && match s.paOf core part p.a, s.paOf core part q.a with
      | some v, some w => overlap v p.n w q.n
      | _, _ => overlap (p.a % 4096) p.n (q.a % 4096) q.n))
/-- Whether an earlier record of the group holds an access back (R245, R246): an acquire that has not performed, or an
access to overlapping bytes that has not. -/
def State.holdsBack (s : State) (core : Nat) (part : BitVec 16) (t : Team) (earlier : List MemRec) (x : Span) : Bool :=
  earlier.any fun r =>
    (r.acquires && r.undone) ||
    r.lanes.any fun l => l.st != .done && s.touches core part t ⟨r.space, l.addr, r.size⟩ x

end Sys2Proof.Machine
end

