-- ==== Sys2Proof/Machine/Memory.lean ====
section
/-! DEFINITION. The instructions of the memory engine: their addresses, checks and hand-over to the
group's memory queue (R235 to R258, R366). What the queue's records then do is in Perform. -/

namespace Sys2Proof.Machine

/-- What an instruction hands over (R235): the record's kind, space, bytes of one access, accesses of a
lane, order, scope, no-allocate, destination, scoreboard. -/
structure Hand where
  kind : MemKind
  space : MemSpace
  size : Nat
  parts : Nat
  order : Order
  scope : Scope
  na : Bool
  dst : Option Dst
  sb : Option Nat
  deriving DecidableEq, Repr

/-- An empty step of a held instruction: nothing else changes (R28, R365). -/
def State.holdStep (s : State) (c : Ctx) : State :=
  s.updTrack c.t fun k => { k with steps := k.steps + 1 }
/-- An instruction that would raise a scoreboard above 255 is held (R365). -/
def sbFull (g : Group) (sb : Option Nat) : Bool :=
  match sb with
  | some i => look 0 i g.sb == 255
  | none => false
/-- The accesses of one lane. -/
def lanesAcc (h : Hand) (lane addr : Nat) (data : List Byte) : List LaneAcc :=
  if h.parts = 1 then [⟨lane, 0, addr, data, .pend⟩]
  else (List.range h.parts).map fun p =>
    ⟨lane, p, addr + p * h.size, (data.drop (p * h.size)).take h.size, .pend⟩
/-- The lanes in ascending order: each reads its operands, checks its address and hands its access over;
the first that fails ends the loop with its lane, fault kind and address (R239, R30). -/
def handLoop (h : Hand) (reads : Nat → List (Bank × Nat)) (addr : RegFile → Nat → Nat)
    (check : Nat → Option Nat) (data : RegFile → Nat → List Byte) :
    List Nat → RegFile → List LaneAcc → RegFile × List LaneAcc × Option (Nat × Nat × Nat)
  | [], r, acc => (r, acc, none)
  | i :: l, r, acc =>
    let (r1, bad) := r.touchAll (reads i)
    if bad then (r1, acc, some (i, 0x06, 0))
    else
      let a := addr r1 i
      match check a with
      | some k => (r1, acc, some (i, k, a))
      | none => handLoop h reads addr check data l r1 (acc ++ lanesAcc h i (a % 2 ^ 57) (data r1 i))
/-- Hands a record over, if it has an access (R235, R236). -/
def State.enqueueMem (s : State) (c : Ctx) (h : Hand) (acc : List LaneAcc) (grp : Group) : State × Group :=
  if acc.isEmpty then (s, grp)
  else
    let (id, s1) := s.name
    let rec_ : MemRec := ⟨id, h.kind, h.space, h.size, h.order, h.scope, h.na, h.dst, h.sb, c.iaddr, acc⟩
    let g1 := { grp with memq := grp.memq ++ [rec_] }
    (s1, match h.sb with
      | some i => g1.sbUp i
      | none => g1)
/-- The hand-over of an instruction (R235): its lanes, or once with UNI, whatever k0 holds. -/
def State.handOver (s : State) (c : Ctx) (m : Mo) (h : Hand) (reads : Nat → List (Bank × Nat))
    (addr : RegFile → Nat → Nat) (check : Nat → Option Nat) (data : RegFile → Nat → List Byte) : State :=
  if sbFull c.grp h.sb then s.holdStep c
  else if m.uni && c.run.cursor == some 32 then s.advance c c.grp c.trk m.sp 1
  else
    let lanes := if m.uni then [32] else c.lanes
    let (r, acc, bad) := handLoop h reads addr check data lanes (RegFile.of c.grp c.trk) []
    let (s1, g1) := (s.countErrors c r).enqueueMem c h acc (c.grp.withRegs r)
    let trk := c.trk.withRegs r
    match bad with
    | none => s1.advance c g1 trk m.sp (if m.uni then 1 else laneSteps lanes.length)
    | some (i, kind, a) =>
      ((s1.setGroup c.g g1).setTrack c.t trk).precise c kind (if m.uni then 0 else i)
        (if m.uni then none else some i) a 0

/-! ## Addresses (R238 to R240) -/

/-- The pair of BASE plus the offset, modulo 2^64. -/
def ea64 (base : Src) (off : BitVec 18) (r : RegFile) (i : Nat) : Nat :=
  ((r.operand base i 64 : Int) + off.toInt) % 2 ^ 64 |>.toNat
/-- BASE plus the offset, modulo 2^32. -/
def ta32 (base : Src) (off : BitVec 18) (r : RegFile) (i : Nat) : Nat := offset32 (r.operand base i 32) off
/-- The checks of a global address: region, then alignment (R239). -/
def globalCheck (align : Nat) (ea : Nat) : Option Nat :=
  if !canonical ea then some 0x13 else if ea % align ≠ 0 then some 0x10 else none
/-- A cluster address (R240): member, then bounds, then alignment. -/
def clusterCheck (members size n : Nat) (u : Nat) : Option Nat :=
  if members ≤ u / 2 ^ 28 then some 0x11 else scratchCheck size (u % 2 ^ 28) n n
/-- The bank that a FIFO form names lies wholly within the allocation (R254). -/
def fifoCheck (base size : Nat) (t : Nat) : Option Nat :=
  let b := (base + t) / 65536
  if base ≤ b * 65536 ∧ (b + 1) * 65536 ≤ base + size then none else some 0x11
/-- The bytes of a data register (R242). -/
def dataBytes (d : Dst) (n : Nat) (r : RegFile) (i : Nat) : List Byte := leBytes n (r.value (dstWords d i))

/-! ## Loads and stores (R242) -/

/-- The bytes of a D width. -/
def widthBytes (w : Width) : Nat := 4 * Width.count w
/-- Accesses of a lane: one, or the 8-byte parts of a quad or octet (R243). -/
def partSize (n : Nat) : Nat := if n ≤ 8 then n else 8
def partCount (n : Nat) : Nat := if n ≤ 8 then 1 else n / 8
/-- A load of n bytes a lane, from a space. -/
def runLoad (f : FmtM) (space : MemSpace) (e : Ext) (n : Nat) (s : State) : Out :=
  onTrack s fun c =>
    let h : Hand := ⟨.load e, space, partSize n, partCount n, f.order, f.scope, f.na, some f.d,
      some f.sb.toNat⟩
    .next (s.handOver c f.m h (srcWords f.base) (address c) (check c) fun _ _ => List.replicate n 0)
where
  address (_ : Ctx) (r : RegFile) (i : Nat) : Nat :=
    match space with
    | .global => ea64 f.base f.off r i
    | _ => ta32 f.base f.off r i
  check (c : Ctx) (a : Nat) : Option Nat :=
    match space with
    | .global => globalCheck n a
    | .cluster => clusterCheck (c.grid.rows * c.grid.cols) c.grid.scr n a
    | _ => scratchCheck c.team.size a n n
/-- A store of n bytes a lane, to a space. -/
def runStore (f : FmtM) (space : MemSpace) (n : Nat) (s : State) : Out :=
  onTrack s fun c =>
    let h : Hand := ⟨.store, space, partSize n, partCount n, f.order, f.scope, false, none, none⟩
    .next (s.handOver c f.m h (fun i => srcWords f.base i ++ dstWords f.d i)
      (runLoad.address f space c) (runLoad.check space n c) (dataBytes f.d n))

/-- LD (R242). -/
def execLd (f : FmtM) (s : State) : Out := runLoad f .global .plain (widthBytes f.d.width) s
/-- LDSB (R242). -/
def execLdsb (f : FmtM) (s : State) : Out := runLoad f .global .sext 1 s
/-- LDZB (R242). -/
def execLdzb (f : FmtM) (s : State) : Out := runLoad f .global .zext 1 s
/-- LDSH (R242). -/
def execLdsh (f : FmtM) (s : State) : Out := runLoad f .global .sext 2 s
/-- LDZH (R242). -/
def execLdzh (f : FmtM) (s : State) : Out := runLoad f .global .zext 2 s
/-- ST (R242). -/
def execSt (f : FmtM) (s : State) : Out := runStore f .global (widthBytes f.d.width) s
/-- STB (R242). -/
def execStb (f : FmtM) (s : State) : Out := runStore f .global 1 s
/-- STH (R242). -/
def execSth (f : FmtM) (s : State) : Out := runStore f .global 2 s
/-- LDL (R242). -/
def execLdl (f : FmtM) (s : State) : Out := runLoad f .scratch .plain (widthBytes f.d.width) s
/-- STL (R242). -/
def execStl (f : FmtM) (s : State) : Out := runStore f .scratch (widthBytes f.d.width) s
/-- LDC (R240, R242). -/
def execLdc (f : FmtM) (s : State) : Out := runLoad f .cluster .plain (widthBytes f.d.width) s
/-- STC (R240, R242). -/
def execStc (f : FmtM) (s : State) : Out := runStore f .cluster (widthBytes f.d.width) s

/-! ## Atomics (R247 to R249) -/

/-- The atomic instructions: operand bytes of B, `m` values of the type's size. -/
def runAtom (f : FmtA) (space : MemSpace) (kind : MemKind) (ret : Bool) (m : Nat) (s : State) : Out :=
  onTrack s fun c =>
    let n := Ty.bitsOf f.ty / 8
    let h : Hand := ⟨kind, space, n, 1, f.order, f.scope, false, if ret then some f.d else none,
      if ret then some 7 else none⟩
    let address (r : RegFile) (i : Nat) : Nat :=
      if space = .global then ea64 f.base 0 r i else ta32 f.base 0 r i
    let check (a : Nat) : Option Nat :=
      if space = .global then globalCheck n a else scratchCheck c.team.size a n n
    let data (r : RegFile) (i : Nat) : List Byte := leBytes (m * n) (r.operand f.b i (8 * n))
    .next (s.handOver c f.m h (fun i => srcWords f.base i ++ srcWords f.b i) address check data)
/-- ATOM (R247, R248). -/
def execAtom (f : FmtA) (s : State) : Out := runAtom f .global (.atom f.aop f.ty true) true 1 s
/-- ATOML (R247, R248). -/
def execAtoml (f : FmtA) (s : State) : Out := runAtom f .scratch (.atom f.aop f.ty true) true 1 s
/-- CAS (R247, R248). -/
def execCas (f : FmtA) (s : State) : Out := runAtom f .global (.cas f.ty) true 2 s
/-- CASL (R247, R248). -/
def execCasl (f : FmtA) (s : State) : Out := runAtom f .scratch (.cas f.ty) true 2 s
/-- RED (R247, R248). -/
def execRed (f : FmtA) (s : State) : Out := runAtom f .global (.atom f.aop f.ty false) false 1 s

/-! ## FENCE, CCTL, PREF (R251 to R253, R366) -/

/-- A record without an address: one access, in one step. -/
def handPlain (c : Ctx) (sp : Bool) (h : Hand) (s : State) : Out :=
  .next (s.handOver c ⟨sp, true⟩ h (fun _ => []) (fun _ _ => 0) (fun _ => none) fun _ _ => [])
/-- FENCE (R366). -/
def execFence (sp : Bool) (sem : Sem) (scope : Scope) (s : State) : Out :=
  onTrack s fun c => handPlain c sp ⟨.fence sem, .scratch, 0, 1, .weak, scope, false, none, none⟩ s
/-- CCTL (R251). -/
def execCctl (f : FmtCctl) (s : State) : Out :=
  onTrack s fun c =>
    let h : Hand := ⟨.cctl f.cop, .global, 0, 1, .weak, .core, false, none, some f.sb.toNat⟩
    match f.cop with
    | .ivcall => handPlain c f.m.sp h s
    | .iviall => handPlain c f.m.sp h s
    | _ => .next (s.handOver c f.m h (srcWords f.base) (ea64 f.base f.off)
        (fun a => if canonical a then none else some 0x13) fun _ _ => [])
/-- PREF (R253): an address that is not canonical does nothing. -/
def execPref (f : FmtPref) (s : State) : Out :=
  onTrack s fun c =>
    let h : Hand := ⟨.pref f.x, .global, 0, 1, .weak, .core, f.na, none, none⟩
    let lanes := if f.m.uni then [32] else c.lanes
    if f.m.uni && c.run.cursor == some 32 then .next (s.advance c c.grp c.trk f.m.sp 1)
    else
      let (r, acc, bad) := handLoop h (srcWords f.base) (ea64 f.base f.off)
        (fun _ => none) (fun _ _ => []) lanes (RegFile.of c.grp c.trk) []
      let keep := acc.filter fun a => canonical (ea64 f.base f.off r a.lane)
      let (s1, g1) := (s.countErrors c r).enqueueMem c h keep (c.grp.withRegs r)
      let trk := c.trk.withRegs r
      match bad with
      | none => .next (s1.advance c g1 trk f.m.sp (if f.m.uni then 1 else laneSteps lanes.length))
      | some (i, kind, a) =>
        .next (((s1.setGroup c.g g1).setTrack c.t trk).precise c kind (if f.m.uni then 0 else i)
          (if f.m.uni then none else some i) a 0)

/-! ## FIFO banks (R254, R255) -/

/-- The FIFO forms: `n` bytes of data a lane. -/
def runFifo (f : FmtF) (kind : MemKind) (n : Nat) (dst : Option Dst) (sb : Option Nat)
    (reads : Nat → List (Bank × Nat)) (s : State) : Out :=
  onTrack s fun c =>
    .next (s.handOver c f.m ⟨kind, .fifo, n, 1, .weak, .core, false, dst, sb⟩
      (fun i => srcWords f.base i ++ reads i) (fun r i => r.operand f.base i 32)
      (fifoCheck c.team.base c.team.size) (dataBytes f.d n))
/-- FPUSH (R255). -/
def execFpush (f : FmtF) (s : State) : Out :=
  runFifo f .push (widthBytes f.d.width) none none (dstWords f.d) s
/-- FPUSH.on (R255). -/
def execFpushOn (f : FmtF) (s : State) : Out := runFifo f .pushOn 0 none none (fun _ => []) s
/-- FPOP (R255). -/
def execFpop (f : FmtF) (s : State) : Out :=
  runFifo f .pop (widthBytes f.d.width) (some f.d) (some f.sb.toNat) (fun _ => []) s
/-- FPOP.off (R255). -/
def execFpopOff (f : FmtF) (s : State) : Out := runFifo f .popOff 0 none none (fun _ => []) s
/-- FPOP.count (R255). -/
def execFpopCount (f : FmtF) (s : State) : Out :=
  runFifo f .popCount 4 (some f.d) (some f.sb.toNat) (fun _ => []) s

end Sys2Proof.Machine
end

