-- ==== Sys2Proof/Machine/Perform.lean ====
section
/-! DEFINITION. Performing what the memory queues hold: order and releases (R245, R246, R260), core
caches and the write-through buffer (R223, R244), atomics (R248 to R250), FIFO banks (R254 to R256),
walks and parking (R228, R229), and errors (R257, R258). -/

namespace Sys2Proof.Machine

/-! ## Records -/

def Group.memRec (g : Group) (id : Nat) : Option MemRec := g.memq.find? fun r => r.id == id
def State.updRec (s : State) (g id : Nat) (f : MemRec → MemRec) : State :=
  s.updGroup g fun x => { x with memq := x.memq.map fun r => if r.id == id then f r else r }
def MemRec.setSt (r : MemRec) (idx : Nat) (st : AccSt) : MemRec :=
  { r with lanes := updNth idx (fun a => { a with st := st }) r.lanes }
def State.setAcc (s : State) (g id idx : Nat) (st : AccSt) : State := s.updRec g id (·.setSt idx st)
/-- Takes a record out when its last access is done (R236). -/
def State.finishRec (s : State) (g id : Nat) : State :=
  match s.group g with
  | none => s
  | some grp =>
    match grp.memRec id with
    | none => s
    | some r =>
      if r.undone then s
      else (s.updGroup g fun x => { x with memq := x.memq.filter fun q => q.id != id }).sbFall g r.sb
/-- The words that an access writes: D's, or those of its part. -/
def accWords (r : MemRec) (a : LaneAcc) : List (Bank × Nat) :=
  match r.dst with
  | none => []
  | some d =>
    let ws := dstWords d a.lane
    if r.kind matches .load _ then (ws.drop (a.part * r.size / 4)).take ((r.size + 3) / 4) else ws
/-- What a load or an atomic writes of the bytes it read (R242). -/
def extended (k : MemKind) (n x : Nat) : Nat :=
  match k with
  | .load .sext => ((sgn x (8 * n)) % 2 ^ 32).toNat
  | _ => x
/-- The group's matrix records before `id` have made their accesses: scratchpad reads, and the stores of ACCST (R259,
R276). -/
def Group.matDone (g : Group) (id : Nat) : Bool :=
  (g.slotMat ++ g.matq).all fun r => decide (id ≤ r.id) || (r.issued && !(r.kind matches .accst ..))
/-- An access is done: its destination is written (R236). -/
def State.doneAcc (s : State) (g : Nat) (r : MemRec) (idx : Nat) (a : LaneAcc) (bytes : List Byte) :
    State :=
  ((s.putRegs g (accWords r a) (extended r.kind r.size (leNat bytes)) false).setAcc g r.id idx
    .done).finishRec g r.id
/-- Stores leave the write-through buffers without effect: memory stays unchanged, and no core-cache line keeps their
bytes (R257, R269). -/
def State.dropStores (s : State) (p : WtStore → Bool) : State :=
  { s with cores := s.cores.map fun e =>
      let gone := (e.2.wtb.filter p).map fun w => w.pa / 128
      if gone.isEmpty then e else (e.1, { e.2 with
        wtb := e.2.wtb.filter fun w => !p w
        cache := e.2.cache.filter fun x => !gone.contains x.1 }) }
/-- An access meets an error (R257, R258): the lane's destination is poisoned, its accesses are done, and
the group takes an imprecise fault. -/
def State.accError (s : State) (g : Nat) (r : MemRec) (a : LaneAcc) (kind code : Nat) : State :=
  let ws := match r.dst with
    | some d => dstWords d a.lane
    | none => []
  let s1 := ((s.putRegs g ws 0 true).updRec g r.id fun q =>
    { q with lanes := q.lanes.map fun x => if x.lane == a.lane then { x with st := .done } else x }).dropStores
      fun w => w.group == g && w.mrec == r.id && w.lane == a.lane
  let rec_ := { s.groupRec kind g with
    lane := if a.lane < 32 then a.lane + 128 else 0, iaddr := r.iaddr, addr := a.addr, detail := code }
  (s1.impreciseFault g rec_ (code == 8)).finishRec g r.id

/-! ## Releases (R246, R260) -/

def MemKind.isDep : MemKind → Bool
  | .dep .. => true
  | _ => false
/-- Copies and landing-zone sends, whose accesses a release waits for (R246). -/
def CopyKind.counted : CopyKind → Bool
  | .cpy | .cpyt | .lzsend => true
  | _ => false
/-- The records and the operations of every copy engine. A group's may lie at a core that it has left
(R333). -/
def State.copyRecs (s : State) : List CopyRec := s.cores.flatMap fun e => e.2.copyq
def State.copyOpsAll (s : State) : List CopyOp := s.cores.flatMap fun e => e.2.copyOps
/-- Every access of the group's instructions before `id` has completed at a scope: from cluster scope up the core's
write-through buffer has drained, but for later stores of the group (R223, R246, R260); at system scope the host and
the pool nodes have acknowledged (R234, R272). -/
def State.released (s : State) (g id : Nat) (scope : Scope) : Bool :=
  match s.group g with
  | none => true
  | some grp =>
    let k := s.core (coreOf grp.track)
    (grp.memq.all fun r => decide (id ≤ r.id) || r.kind.isDep || !r.undone) && grp.matDone id &&
    (Scope.rank scope == 0 || k.wtb.all fun w => w.group == g && decide (id ≤ w.mrec)) &&
    (Scope.rank scope < 5 || (s.hostPosted ++ s.nodePosted.map fun p => (p.1, p.2.1)).all fun p =>
      p.1 != g || decide (id ≤ p.2)) &&
    (s.copyRecs.all fun r => r.group != g || decide (id ≤ r.id) || !r.kind.counted) &&
    (s.copyOpsAll.all fun o => o.r.group != g || decide (id ≤ o.r.id) || !o.r.kind.counted) &&
    s.sends.all fun x => x.group != g || decide (id ≤ x.id)

/-! ## Core cache and write-through buffer (R223) -/

/-- The number of cache-mode banks, each one way (R218, R223). -/
def Core.ways (k : Core) : Nat := 48 - fld k.carve.toNat 8 8
def Core.stamp (k : Core) : Nat := k.cache.foldl (fun m e => max m (e.2.lru + 1)) 0
/-- The 512 sets of a core cache (R223). -/
def coreSet (line : Nat) : Nat := Config.coreSet line % 512
/-- The ways of a set: the banks in cache mode (R218, R223). -/
def Core.wayList (k : Core) : List Nat := (List.range k.ways).map (48 - k.ways + ·)
/-- Allocates a line in the core cache, in the lowest free way of its set; in a full set the least recently used line
goes (log 6). -/
def Core.allocate (k : Core) (line : Nat) (part : BitVec 16) (l : Line) : Core :=
  let same := k.cache.filter fun e => coreSet e.1 == coreSet line && e.1 != line
  match k.wayList.find? fun w => same.all fun e => e.2.way != w with
  | some w => { k with cache := ins line ⟨l, part, k.stamp, w⟩ k.cache }
  | none =>
    match same.foldl (fun (b : Option (Nat × CacheLine)) e => match b with
      | none => some e
      | some x => if e.2.lru < x.2.lru then some e else some x) none with
    | some v => { k with cache := ins line ⟨l, part, k.stamp, v.2.way⟩ (del v.1 k.cache) }
    | none => k
/-- A use of a line of the core cache. -/
def Core.touch (k : Core) (line : Nat) : Core :=
  { k with cache := upd line (fun e => { e with lru := k.stamp }) k.cache }
/-- A write to a present line of the core cache; a store does not allocate. -/
def Core.update (k : Core) (pa : Nat) (bs : List Byte) : Core :=
  { k with cache := upd (pa / 128) (fun e => { e with data := setLineBytes e.data (pa % 128) bs }) k.cache }
/-- The latest byte that the write-through buffer holds for an address. -/
def Core.wtByte (k : Core) (pa : Nat) : Option Byte :=
  k.wtb.foldl (fun b w => if w.pa ≤ pa ∧ pa < w.pa + w.data.length then w.data[pa - w.pa]? else b) none
/-- Bytes under the stores of the write-through buffer. -/
def Core.overlay (k : Core) (pa : Nat) : List Byte → List Byte
  | [] => []
  | b :: bs => (k.wtByte pa).getD b :: k.overlay (pa + 1) bs
/-- Bytes that the write-through buffer holds whole. -/
def Core.wtBytes (k : Core) (pa : Nat) : Nat → Option (List Byte)
  | 0 => some []
  | n + 1 => match k.wtByte pa, k.wtBytes (pa + 1) n with
    | some b, some l => some (b :: l)
    | _, _ => none
/-- A store to overlapping bytes is still in the write-through buffer: an access that bypasses the buffer comes after it
(R245, R260, R266). -/
def Core.wtHolds (k : Core) (pa n : Nat) : Bool := k.wtb.any fun w => overlap w.pa w.data.length pa n
/-- A line of the core cache that an access has passed by takes the data that it found, under the buffered stores: a
later weak load does not go back to an older value (R266). -/
def Core.refresh (k : Core) (line : Nat) (l : Line) : Core :=
  { k with cache := upd line (fun e =>
    { e with data := bytesLine (k.overlay (line * 128) (lineBytes l 0 128)) }) k.cache }
/-- The buffer has room for a store: 64 lines (R223). -/
def Core.wtRoom (k : Core) (pa : Nat) : Bool :=
  let ls := (k.wtb.map fun w => w.pa / 128).eraseDups
  ls.contains (pa / 128) || decide (ls.length < 64)

/-! ## Translation of an access: walks and parking (R228, R229) -/

/-- Whether two waiters belong to one instruction. -/
def Waiter.same (a b : Waiter) : Bool :=
  match a, b with
  | .acc g r _, .acc g' r' _ => g == g' && r == r'
  | .copy c r _, .copy c' r' _ => c == c' && r == r'
  | x, y => x == y
/-- Parks an access, with one record for each instruction and page (R229), of which `r` gives bit 6 of FLAGS. None while
the die's space is full; an access that is being replayed has its place in it. -/
def State.park (s : State) (die : Nat) (part : BitVec 16) (va : Nat) (write : Bool) (w : Waiter)
    (kind : Nat) (r : FaultRec) : Option State :=
  let d := { s.die die with replays := (s.die die).replays.filter fun x => x != w }
  if (s.setDie die d).parkFull die then none
  else
    match d.parked.find? fun p => p.waiter.same w && p.part == part && p.va / 4096 == va / 4096 &&
        p.kind == kind with
    | some p => some (s.setDie die { d with parked := d.parked ++ [⟨part, va, write, w, p.recIdx, kind⟩] })
    | none =>
      some ((s.setDie die { d with parked := d.parked ++ [⟨part, va, write, w, s.recordIdx, kind⟩] }).report
        { r with kind := kind, flags := 1 + r.flags / 64 * 64 })
/-- How far an access has come to its physical address. -/
inductive Reach
  | ok (pa : Nat)
  | wait (st : AccSt)
  | full
  | err (code : Nat)
  deriving DecidableEq, Repr
/-- Translates an access: its physical address, or it waits on a walk, in the parked space or for the
host's answer. -/
def State.reach (s : State) (core : Nat) (part : BitVec 16) (va : Nat) (write : Bool) (w : Waiter)
    (r : FaultRec) : Reach × State :=
  match s.translate core part va write with
  | (.pa a, s1) => (.ok a, s1)
  | (.miss, s1) =>
    match s1.joinWalk (dieOf core) part va write w with
    | some s2 => (.wait .walking, s2)
    | none => (.full, s1)
  | (.ats p a, s1) => (.wait .walking, { s1 with atsPending := s1.atsPending ++ [⟨p, a, w⟩] })
  | (.replay k, s1) =>
    match s1.park (dieOf core) part va write w k r with
    | some s2 => (.wait .parked, s2)
    | none => (.full, s1)
  | (.fail c, s1) => (.err c, s1)
/-- Tokens for a line at a die: held, an error, or a request on which the access waits (R369, R373). -/
inductive Hold | ok | wait | err (code : Nat)
  deriving DecidableEq, Repr
def State.hold (s : State) (die line : Nat) (write : Bool) (w : Waiter) : Hold × State :=
  if s.satisfied die line write then (.ok, s.touchLine die line)
  else match s.homeErr die line with
    | some c => (.err c, s.scrubHome line)
    | none => (.wait, s.request die line write w)

/-! ## Atomic operations (R248) -/

/-- The new memory value of an AOP. -/
def aopNew (op : AOp) (ty : Ty) (old b : Nat) : Nat :=
  let n := Ty.bitsOf ty
  let lt (x y : Nat) : Bool := if Ty.signed ty then decide (sgn x n < sgn y n) else decide (x < y)
  let fl := ty == .f32
  let fo := fread f32 false old
  let fb := fread f32 false b
  match op with
  | .add => if fl then fround f32 .rne false false (fo.add .rne fb) else (old + b) % 2 ^ n
  | .min => if fl then fround f32 .rne false false (fo.minNum fb) else if lt b old then b else old
  | .max => if fl then fround f32 .rne false false (fo.maxNum fb) else if lt old b then b else old
  | .and => old &&& b
  | .or => old ||| b
  | .xor => old ^^^ b
  | .exch => b
  | .incw => if b ≤ old then 0 else old + 1
  | .decw => if old = 0 ∨ b < old then b else old - 1
/-- What an atomic leaves in memory: none where it writes nothing (a CAS that fails). -/
def atomNew (k : MemKind) (n : Nat) (old : Nat) (data : List Byte) : Option Nat :=
  match k with
  | .atom op ty _ => some (aopNew op ty old (leNat data))
  | .cas _ => if leNat (data.take n) = old then some (leNat (data.drop n)) else none
  | _ => none

/-! ## Performing one access -/

/-- What an access finds: its group, record, entry and the parts of the machine it works in. -/
structure AccCtx where
  g : Nat
  grp : Group
  r : MemRec
  idx : Nat
  a : LaneAcc
  core : Nat
  part : BitVec 16
  team : Team
  grid : Grid
def State.accCtx (s : State) (g id idx : Nat) : Option AccCtx :=
  match s.group g with
  | none => none
  | some grp =>
    match grp.memRec id, s.team grp.team, s.grid grp.grid with
    | some r, some tm, some gd =>
      match r.lanes[idx]? with
      | some a => some ⟨g, grp, r, idx, a, tm.core, gd.part, tm, gd⟩
      | none => none
    | _, _, _ => none
def AccCtx.die (c : AccCtx) : Nat := dieOf c.core
def AccCtx.waiter (c : AccCtx) : Waiter := .acc c.g c.r.id c.idx
/-- The record of a fault of this access (R320). -/
def State.accRec (s : State) (c : AccCtx) : FaultRec :=
  { s.groupRec 0 c.g with
    flags := s.privFlag c.g
    lane := if c.a.lane < 32 then c.a.lane + 128 else 0, iaddr := c.r.iaddr, addr := c.a.addr }
def State.accSt (s : State) (c : AccCtx) (st : AccSt) : State := s.setAcc c.g c.r.id c.idx st
def State.accDone (s : State) (c : AccCtx) (bytes : List Byte) : State :=
  s.doneAcc c.g c.r c.idx c.a bytes
/-- PREF and CCTL, which no outcome faults or parks (R251, R253). -/
def MemKind.quiet : MemKind → Bool
  | .pref _ | .cctl _ => true
  | _ => false
/-- An access meets an outcome of R257; PREF and CCTL complete without effect. -/
def State.accFail (s : State) (c : AccCtx) (kind code : Nat) : State :=
  if c.r.kind.quiet then s.accDone c [] else s.accError c.g c.r c.a kind code
/-- The acquire action of an acquire whose access is done (R246). -/
def State.acqEnd (s : State) (c : AccCtx) : State :=
  if c.r.order = .acquire then s.acquire c.core c.r.scope else s
/-- Whether a load may be served by the core cache (R244). -/
def MemRec.cacheable (r : MemRec) : Bool := r.order == .weak || Scope.rank r.scope == 0
/-- A load's bytes once its line is at hand: allocates unless NA, under the buffered stores (R244). -/
def State.serveLoad (s : State) (c : AccCtx) (pa : Nat) (l : Line) : State :=
  let k := s.core c.core
  if !c.r.cacheable then
    ((s.setCore c.core (k.refresh (pa / 128) l)).accDone c (lineBytes l (pa % 128) c.r.size)).acqEnd c
  else
    let l' := bytesLine (k.overlay (pa / 128 * 128) (lineBytes l 0 128))
    let s1 := if c.r.na then s else s.setCore c.core (k.allocate (pa / 128) c.part l')
    (s1.accDone c (lineBytes l' (pa % 128) c.r.size)).acqEnd c
/-- A load of global memory at its physical address (R244). -/
def State.loadAt (s : State) (c : AccCtx) (pa : Nat) : State :=
  let k := s.core c.core
  let line := pa / 128
  let far := !s.tokenLine line
  match (if c.r.cacheable then k.wtBytes pa c.r.size else none) with
  | some bs => (s.accDone c bs).acqEnd c
  | none =>
    match (if c.r.cacheable && !(far && pa / 2 ^ 48 = 2) then find line k.cache else none) with
    | some e => ((s.setCore c.core (k.touch line)).accDone c
        (k.overlay pa (lineBytes e.data (pa % 128) c.r.size))).acqEnd c
    | none =>
      if !c.r.cacheable && k.wtHolds pa c.r.size then s.accSt c .pend
      else if far then
        if pa / 2 ^ 48 = 2 then (s.accDone c (k.overlay pa (s.physRead pa c.r.size))).acqEnd c
        else s.serveLoad c pa (s.farLine line)
      else match s.hold c.die line false c.waiter with
        | (.ok, s1) =>
          match s1.ent c.die line with
          | some e => s1.serveLoad c pa e.data
          | none => s1
        | (.wait, s1) => s1.accSt c .inSlice
        | (.err code, s1) => s1.accFail c 0x14 code
/-- The accesses of a record that belong to one of its lanes: the 8-byte parts of a quad or octet (R243). -/
def AccCtx.parts (c : AccCtx) : List (Nat × LaneAcc) :=
  (c.r.lanes.zipIdx.filter fun x => x.1.st != .done && x.1.lane == c.a.lane).map fun x => (x.2, x.1)
/-- A store enters the write-through buffer (R223, R244), with every part of its lane, so that an error leaves all of
them undone (R257); it waits while the buffer is full. -/
def State.storeAt (s : State) (c : AccCtx) (pa : Nat) : State :=
  if !(s.core c.core).wtRoom pa then s.accSt c .pend
  else c.parts.foldl (fun s x =>
    let a := pa / 4096 * 4096 + x.2.addr % 4096
    let (id, s1) := s.name
    (s1.updCore c.core fun k => { k.update a x.2.data with
      wtb := k.wtb ++ [⟨id, a, x.2.data, c.g, c.r.id, x.2.lane, c.r.iaddr, x.2.addr, false⟩] }).doneAcc c.g c.r x.1 x.2 []) s
/-- Two accesses of a record reach the same 128-byte line, whichever addresses name it (R245, R250). -/
def State.sameLine (s : State) (c : AccCtx) (a b : LaneAcc) : Bool :=
  a.addr / 128 == b.addr / 128 || (c.r.space == .global &&
    match s.paOf c.core c.part a.addr, s.paOf c.core c.part b.addr with
    | some x, some y => x / 128 == y / 128
    | _, _ => false)
/-- The accesses of an atomic record to the line of one of them, in lane order (R250). -/
def State.lineRun (s : State) (c : AccCtx) : List (Nat × LaneAcc) :=
  (c.r.lanes.zipIdx.filter fun x => x.1.st != .done && s.sameLine c x.1 c.a).map fun x => (x.2, x.1)
/-- Performs a run of atomics, with the memory read and written as given. -/
def State.atomRun (s : State) (c : AccCtx) (rd : State → Nat → List Byte)
    (wr : State → Nat → List Byte → State) (base : Nat → Nat) : List (Nat × LaneAcc) → State
  | [] => s
  | (i, a) :: l =>
    let pa := base a.addr
    let old := rd s pa
    let s1 := match atomNew c.r.kind c.r.size (leNat old) a.data with
      | some x => wr s pa (leBytes c.r.size x)
      | none => wr s pa old
    (s1.doneAcc c.g c.r i a old).atomRun c rd wr base l
/-- The core cache's line after atomics on it (R266). -/
def State.refreshLine (s : State) (core line : Nat) : State :=
  match s.ent (dieOf core) line with
  | some e => s.updCore core (·.refresh line e.data)
  | none => s
/-- An access to a non-participating extent, which its node has still to acknowledge (R272). -/
def State.postNode (s : State) (g id pa : Nat) : State :=
  match s.extentOf pa with
  | some e => { s with nodePosted := s.nodePosted ++ [(g, id, e.grant.extno.toNat)] }
  | none => s
/-- An atomic of global memory (R249). -/
def State.atomAt (s : State) (c : AccCtx) (pa : Nat) : State :=
  let k := s.core c.core
  let base (va : Nat) : Nat := pa / 128 * 128 + va % 128
  let run := s.lineRun c
  if pa / 2 ^ 48 = 1 then s.accFail c 0x14 1
  else if run.any fun x => k.wtHolds (base x.2.addr) c.r.size then s.accSt c .pend
  else if !s.tokenLine (pa / 128) then
    ((s.atomRun c (fun s a => s.physRead a c.r.size) (fun s a b => s.physWrite a b) base run).postNode c.g c.r.id pa).acqEnd c
  else match s.hold c.die (pa / 128) true c.waiter with
    | (.ok, s1) =>
      ((s1.atomRun c (fun s a => s.sliceBytes c.die a c.r.size)
        (fun s a b => s.sliceWrite c.die a b) base run).refreshLine c.core (pa / 128)).acqEnd c
    | (.wait, s1) => s1.accSt c .inSlice
    | (.err code, s1) => s1.accFail c 0x14 code
/-- An access of scratchpad space at a core (R239, R258, R268). -/
def State.scratchAt (s : State) (c : AccCtx) (core a : Nat) : State :=
  let base (x : Nat) : Nat := a + x - c.a.addr
  if (s.core core).fifoTouch a c.r.size then s.accFail c 0x12 0
  else match c.r.kind with
    | .store => (s.scrWrite core a c.a.data).accDone c []
    | .load _ => (s.accDone c (s.scrRead core a c.r.size)).acqEnd c
    | _ =>
      (s.atomRun c (fun s x => s.scrRead core x c.r.size) (fun s x b => s.scrWrite core x b) base
        ((s.lineRun c).filter fun x => !(s.core core).fifoTouch (base x.2.addr) c.r.size)).acqEnd c
/-- The team of a cluster by its member index (R25, R240). -/
def State.member (s : State) (t : Team) (m : Nat) : Option Team :=
  (s.teams.find? fun x => x.2.grid == t.grid && x.2.cluster == t.cluster && x.2.member == m).map (·.2)
/-- A cluster access (R240). -/
def State.clusterAt (s : State) (c : AccCtx) : State :=
  match s.member c.team (c.a.addr / 2 ^ 28) with
  | some t =>
    if t.phase = .running then s.scratchAt c t.core (t.base + c.a.addr % 2 ^ 28) else s.accFail c 0x14 6
  | none => s.accFail c 0x14 6
/-- The translation of a PREF or CCTL, which waits for its walk but never parks; `ats`, whether it asks the host. -/
def State.reachQuiet (s : State) (c : AccCtx) (write ats : Bool) : Reach × State :=
  match s.translate c.core c.part c.a.addr write with
  | (.pa a, s1) => (.ok a, s1)
  | (.miss, s1) =>
    match s1.joinWalk c.die c.part c.a.addr write c.waiter with
    | some s2 => (.wait .walking, s2)
    | none => (.full, s1)
  | (.ats p a, s1) =>
    if ats then (.wait .walking, { s1 with atsPending := s1.atsPending ++ [⟨p, a, c.waiter⟩] }) else (.err 1, s1)
  | (.replay _, s1) => (.err 1, s1)
  | (.fail k, s1) => (.err k, s1)
/-- PREF (R253): only a successful translation has an effect. -/
def State.prefAt (s : State) (c : AccCtx) (x : Bool) : State :=
  match s.reachQuiet c x false with
  | (.ok pa, s1) =>
    let line := pa / 128
    let s2 := s1.accDone c []
    if !s1.tokenLine line then s2
    else if s1.satisfied c.die line x then
      match s1.ent c.die line with
      | some e => if c.r.na then s2 else s2.updCore c.core fun k => if (find line k.cache).isSome then k else
          k.allocate line c.part (bytesLine (k.overlay (line * 128) (lineBytes e.data 0 128)))
      | none => s2
    else if (s1.homeErr c.die line).isSome then s2
    else s2.request c.die line x (.pref c.core (!c.r.na))
  | (.wait st, s1) => s1.accSt c st
  | (.full, s1) => s1
  | (.err _, s1) => s1.accDone c []
/-- CCTL (R251, R252). -/
def State.cctlAt (s : State) (c : AccCtx) (op : Cop) : State :=
  let dropI (s : State) (p : Nat → Bool) : State :=
    { s with cores := s.cores.map fun e => (e.1, { e.2 with icache := e.2.icache.filter fun x => !p x.1 }) }
  match op with
  | .ivcall => (s.updCore c.core fun k => { k with cache := [] }).accDone c []
  | .iviall => (dropI s fun _ => true).accDone c []
  | _ =>
    match s.reachQuiet c false true with
    | (.ok pa, s1) =>
      if op = .ivc then (s1.updCore c.core fun k => { k with cache := del (pa / 128) k.cache }).accDone c []
      else (dropI s1 fun key => key / 2 ^ 16 == pa / 128).accDone c []
    | (.wait st, s1) => s1.accSt c st
    | (.full, s1) => s1
    | (.err _, s1) => s1.accDone c []
/-- The bank that a FIFO access names (R254). -/
def AccCtx.bankOf (c : AccCtx) (a : LaneAcc) : Nat := (c.team.base + a.addr) / 65536
/-- A FIFO record reaches a bank, whole: all its accesses to the bank (R256). -/
def State.fifoAt (s : State) (c : AccCtx) : State :=
  let come (a : LaneAcc) : LaneAcc := if c.bankOf a = c.bankOf c.a then { a with st := .inSlice } else a
  (s.updRec c.g c.r.id fun r => { r with lanes := r.lanes.map come }).updCore c.core fun k =>
    { k with fifoq := k.fifoq ++ [⟨c.bankOf c.a, c.g, c.r.id⟩] }
/-- A dependence counter after a change (R364). -/
def depNew (mode : DepMode) (old n : Nat) : Nat :=
  match mode with
  | .dec => old - n
  | .set => n
  | .add => min (old + n) 65535
/-- Sets a dependence counter; an armed record whose counter holds 0 becomes ready (R309, R367). -/
def State.setDep (s : State) (i v : Nat) : State :=
  let s1 := { s with depctr := put 0 i (BitVec.ofNat 16 v) s.depctr }
  if v % 65536 = 0 then
    { s1 with grids := s1.grids.map fun e =>
        (e.1, if e.2.st = .armed ∧ fld e.2.arm 0 12 = i then { e.2 with st := .ready, waitSince := s.now }
          else e.2) }
  else s1
def State.depStep (s : State) (mode : DepMode) (i n : Nat) : State :=
  s.setDep i (depNew mode (look 0 i s.depctr).toNat n)
/-- Performs one access that its group's order allows. -/
def State.performAcc (s : State) (c : AccCtx) : State :=
  match c.r.kind with
  | .fence sem =>
    (if sem = .rel then s else s.acquire c.core c.r.scope).accDone c []
  | .dep mode i n => (s.depStep mode i n).accDone c []
  | .cctl op => s.cctlAt c op
  | .pref x => s.prefAt c x
  | _ =>
    match c.r.space with
    | .fifo => s.fifoAt c
    | .scratch => s.scratchAt c c.core (c.team.base + c.a.addr)
    | .cluster => s.clusterAt c
    | .global =>
      let write := match c.r.kind with
        | .load _ => false
        | _ => true
      match s.reach c.core c.part c.a.addr write c.waiter (s.accRec c) with
      | (.ok pa, s1) =>
        match c.r.kind with
        | .load _ => s1.loadAt c pa
        | .store => s1.storeAt c pa
        | _ => s1.atomAt c pa
      | (.wait st, s1) => s1.accSt c st
      | (.full, s1) => s1
      | (.err code, s1) => s1.accFail c 0x14 code

/-! ## Order (R245, R246) -/

/-- Accesses of lower lanes of the same record to overlapping bytes come first (R245), but those that an atomic performs
together (R250); FIFO accesses reach their bank together. -/
def State.lowerFirst (s : State) (c : AccCtx) (atomic : Bool) : Bool :=
  (c.r.lanes.take c.idx).any fun x => x.st != .done && !(atomic && s.sameLine c x c.a) &&
    s.touches c.core c.part c.team ⟨c.r.space, x.addr, c.r.size⟩ ⟨c.r.space, c.a.addr, c.r.size⟩
/-- FIFO records of a group reach a bank in the order of their instructions (R256). -/
def AccCtx.fifoOrder (c : AccCtx) (earlier : List MemRec) : Bool :=
  c.r.space == .fifo && earlier.any fun r => r.space == .fifo && r.lanes.any fun x => x.st == .pend &&
    (c.team.base + x.addr) / 65536 == (c.team.base + c.a.addr) / 65536
/-- Replayed accesses perform in the order in which they were parked: those before this one are made (R229). -/
def State.replayTurn (s : State) (die : Nat) (w : Waiter) : Bool :=
  let l := (s.die die).replays
  !l.contains w || (l.takeWhile fun x => x != w).all fun x => !s.replaying x
/-- Whether the order within the group lets an access perform now (R245, R246, R252, R264, R366), and that of a
replay (R229). -/
def State.allowed (s : State) (c : AccCtx) : Bool :=
  let earlier := c.grp.memq.filter fun r => decide (r.id < c.r.id)
  let atomic := match c.r.kind with
    | .atom .. => true
    | .cas _ => true
    | _ => false
  let targets := if atomic then (s.lineRun c).map (·.2)
    else if c.r.kind matches .store then c.parts.map (·.2) else [c.a]
  let free (a : LaneAcc) : Bool := !s.holdsBack c.core c.part c.team earlier ⟨c.r.space, a.addr, c.r.size⟩
  let rel := c.r.order == .release || match c.r.kind with
    | .fence .acq => false
    | .fence _ => true
    | .dep .. => true
    | _ => false
  c.a.st == .pend && (c.r.kind.isDep || targets.all free) && !s.lowerFirst c atomic &&
  (!rel || s.released c.g c.r.id c.r.scope) && !c.fifoOrder earlier && s.replayTurn c.die c.waiter &&
  match c.r.kind with
  | .cctl _ => earlier.all fun r => !(r.kind matches .load _) || !r.undone
  | .fence _ => earlier.all fun r => (r.kind matches .store) || r.kind.isDep || !r.undone
  | _ => true
/-- MEMORY_ACCESS_PERFORM (R244): access `idx` of a group's record; of a saved group, one that is replayed (R333). -/
def execMemoryAccessPerform (g r idx : Nat) (s : State) : Out :=
  match s.accCtx g r idx with
  | some c =>
    if (c.grp.resid = .bound ∨ (s.die c.die).replays.contains c.waiter) ∧ s.allowed c then .next (s.performAcc c) else off "MEMORY_ACCESS_PERFORM: held"
  | none => off "MEMORY_ACCESS_PERFORM: no such access"

/-! ## WRITE_THROUGH_DRAIN (R223, R244) -/

/-- Takes a store out of the write-through buffer. -/
def State.dropWt (s : State) (core id : Nat) : State :=
  s.updCore core fun k => { k with wtb := k.wtb.filter fun w => w.id != id }
/-- The parts of one lane's store (R243). -/
def WtStore.sameLane (w x : WtStore) : Bool := x.group == w.group && x.mrec == w.mrec && x.lane == w.lane
/-- The store of a lane leaves the buffer without effect, with every part of it (R243, R257). -/
def State.dropLane (s : State) (w : WtStore) : State :=
  ((s.dropStores w.sameLane).updRec w.group w.mrec fun q => { q with lanes := q.lanes.map fun x =>
    if x.lane == w.lane then { x with st := .done } else x }).finishRec w.group w.mrec
/-- A drained store meets an error: its lane leaves memory unchanged, and faults once (R257). -/
def State.wtError (s : State) (w : WtStore) (code : Nat) : State :=
  (s.dropLane w).impreciseFault w.group
    { s.groupRec 0x14 w.group with
      lane := if w.lane < 32 then w.lane + 128 else 0, iaddr := w.iaddr, addr := w.addr, detail := code }
/-- The buffered stores of a line, where they write all of a poisoned one: the whole line is written at
once (R216). -/
def State.drainWhole (s : State) (core line : Nat) : Option State :=
  match s.core core |>.wtBytes (line * 128) 128 with
  | none => none
  | some bs =>
    let s1 := s.claimWhole (dieOf core) line
    if s.poisoned (line * 128) && s1.canWrite (dieOf core) line then
      some ((s1.sliceWrite (dieOf core) (line * 128) bs).updCore core fun k =>
        { k with wtb := k.wtb.filter fun w => w.pa / 128 != line })
    else none
/-- Forwards one lane's store of the buffer, whole: to its die cache with all tokens, or to the host or pool node. -/
def State.drain (s : State) (core : Nat) (w : WtStore) : State :=
  let die := dieOf core
  let parts := (s.core core).wtb.filter w.sameLane
  let gone (s : State) : State := s.updCore core fun k => { k with wtb := k.wtb.filter fun x => !w.sameLane x }
  let phys (s : State) : State := gone (parts.foldl (fun s x => s.physWrite x.pa x.data) s)
  match s.drainWhole core (w.pa / 128) with
  | some t => t
  | none =>
  if w.pa / 2 ^ 48 = 1 then
    { phys s with hostPosted := s.hostPosted ++ [(w.group, w.mrec)] }
  else if !s.tokenLine (w.pa / 128) then
    match s.extentOf w.pa with
    | some e => if e.revoking then s.wtError w 3 else (phys s).postNode w.group w.mrec w.pa
    | none => s.wtError w 3
  else match s.hold die (w.pa / 128) true (.drain core w.id) with
    | (.ok, s1) => gone (parts.foldl (fun s x => s.sliceWrite die x.pa x.data) s1)
    | (.wait, s1) => s1.updCore core fun k =>
        { k with wtb := k.wtb.map fun x => if x.id == w.id then { x with waiting := true } else x }
    | (.err c, s1) => s1.wtError w c
/-- The store to forward next for a line: the oldest, unless it already waits (R223). -/
def Core.drainable (k : Core) (idx : Nat) : Option WtStore :=
  match k.wtb[idx]? with
  | some w =>
    if w.waiting || (k.wtb.take idx).any fun x => x.pa / 128 == w.pa / 128 then none else some w
  | none => none
/-- R223. -/
def execWriteThroughDrain (core idx : Nat) (s : State) : Out :=
  match (s.core core).drainable idx with
  | some w => .next (s.drain core w)
  | none => off "WRITE_THROUGH_DRAIN"
/-- FLUSH_READ_COMPLETION (R234): every host store posted before has reached the host. -/
def execFlushReadCompletion (s : State) : Out :=
  if s.hostPosted.isEmpty then off "FLUSH_READ_COMPLETION" else .next { s with hostPosted := [] }

/-! ## FIFO banks (R254 to R256) -/

/-- The accesses of a record to a bank. -/
def State.bankAccs (s : State) (core : Nat) (w : FifoWait) : Option (AccCtx × List (Nat × LaneAcc)) :=
  match s.accCtx w.group w.mrec 0 with
  | none => none
  | some c => some (c, (c.r.lanes.zipIdx.filter fun x => x.1.st == .inSlice &&
      (c.team.base + x.1.addr) / 65536 == w.bank && coreOf (c.core * 128) == core).map fun x => (x.2, x.1))
def Fifo.count (f : Fifo) : Nat := (f.tail - f.head).toNat
/-- Byte address of a counter's word slot. -/
def slotAddr (bank : Nat) (n : BitVec 16) : Nat := bank * 65536 + 4 * (n.toNat % 16384)
/-- Appends words at tail. -/
def State.fifoPush (s : State) (core bank : Nat) : List Byte → Nat → Fifo → State × Fifo
  | _, 0, f => (s, f)
  | bs, n + 1, f =>
    (s.scrWrite core (slotAddr bank f.tail) (bs.take 4)).fifoPush core bank (bs.drop 4) n
      { f with tail := f.tail + 1 }
/-- Removes words from head. -/
def State.fifoPop (s : State) (core bank : Nat) : Nat → Fifo → List Byte × Fifo
  | 0, f => ([], f)
  | n + 1, f =>
    let (l, f') := s.fifoPop core bank n { f with head := f.head + 1 }
    (s.scrRead core (slotAddr bank f.head) 4 ++ l, f')
def State.setFifo (s : State) (core bank : Nat) (f : Option Fifo) : State :=
  s.updCore core fun k => { k with fifo := match f with
    | some x => ins bank x k.fifo
    | none => del bank k.fifo }
/-- The bank's contents become undefined: a free value (R255, log 5). -/
def State.scramble (s : State) (core bank : Nat) : State :=
  let (x, s1) := s.draw
  s1.scrWrite core (bank * 65536) (leBytes 65536 x)
def State.dropFifoWait (s : State) (core : Nat) (w : FifoWait) : State :=
  s.updCore core fun k => { k with fifoq := k.fifoq.erase w }
/-- Ends the accesses of a record at a bank, without data. -/
def State.endAccs (s : State) (c : AccCtx) (poison : Bool) : List (Nat × LaneAcc) → State
  | [] => s
  | (i, a) :: l =>
    let ws := match c.r.dst with
      | some d => dstWords d a.lane
      | none => []
    let s1 := if poison then s.putRegs c.g ws 0 true else s
    ((s1.setAcc c.g c.r.id i .done).finishRec c.g c.r.id).endAccs c poison l
/-- Discards a record at a bank: all of its accesses that have not performed (R258). -/
def State.discard (s : State) (core : Nat) (w : FifoWait) : State :=
  match s.bankAccs core w with
  | some (c, _) => (s.endAccs c true ((c.r.lanes.zipIdx.filter fun x => x.1.st != .done).map fun x =>
      (x.2, x.1))).dropFifoWait core w
  | none => s.dropFifoWait core w
/-- The FIFO fault of an instruction (R258). -/
def State.fifoFault (s : State) (c : AccCtx) : State :=
  s.impreciseFault c.g { s.groupRec 0x15 c.g with iaddr := c.r.iaddr }
/-- Pops the words of each lane in turn (R255). -/
def State.popLanes (s : State) (core bank : Nat) (c : AccCtx) : List (Nat × LaneAcc) → Fifo → State
  | [], f => s.setFifo core bank (some f)
  | (i, a) :: l, f =>
    let (bs, f1) := s.fifoPop core bank (c.r.size / 4) f
    (s.doneAcc c.g c.r i a bs).popLanes core bank c l f1
/-- Pushes the words of each lane in turn (R255). -/
def State.pushLanes (s : State) (core bank : Nat) (c : AccCtx) : List (Nat × LaneAcc) → Fifo → State
  | [], f => s.setFifo core bank (some f)
  | (i, a) :: l, f =>
    let (s1, f1) := s.fifoPush core bank a.data (c.r.size / 4) f
    (s1.doneAcc c.g c.r i a []).pushLanes core bank c l f1
/-- Performs the first record waiting at a bank; none while it must wait for room or entries (R256). Only a push or pop
needs a bank in FIFO mode (R258): of another, .off resets the counters and .count gives 0 entries (R255). -/
def State.fifoHead (s : State) (core : Nat) (w : FifoWait) (c : AccCtx) (l : List (Nat × LaneAcc)) :
    Option State :=
  let words := l.length * (c.r.size / 4)
  let s1 := s.dropFifoWait core w
  match c.r.kind, find w.bank (s.core core).fifo with
  | .pushOn, _ =>
    some (((s1.setFifo core w.bank (some ⟨0, 0⟩)).scramble core w.bank).endAccs c false l)
  | .popOff, _ => some (((s1.setFifo core w.bank none).scramble core w.bank).endAccs c false l)
  | .popCount, f =>
    some (l.foldl (fun s x => s.doneAcc c.g c.r x.1 x.2 (leBytes 4 ((f.map Fifo.count).getD 0))) s1)
  | _, none => some ((s.discard core w).fifoFault c)
  | .push, some f => if f.count + words ≤ 16384 then some (s1.pushLanes core w.bank c l f) else none
  | _, some f => if words ≤ f.count then some (s1.popLanes core w.bank c l f) else none
/-- A control form among the records behind a waiting one (R256, R258): the first, with the records up
to it. -/
def controlBehind (s : State) (core : Nat) : List FifoWait → List FifoWait → Option (FifoWait × List FifoWait)
  | _, [] => none
  | acc, w :: l =>
    match s.bankAccs core w with
    | some (c, _) =>
      if c.r.kind matches .pushOn | .popOff then some (w, acc) else controlBehind s core (acc ++ [w]) l
    | none => controlBehind s core (acc ++ [w]) l
/-- What happens next at a bank. -/
def State.fifoStep (s : State) (core bank : Nat) : Option State :=
  match (s.core core).fifoq.filter fun w => w.bank == bank with
  | [] => none
  | w :: rest =>
    match s.bankAccs core w with
    | none => some (s.dropFifoWait core w)
    | some (c, l) =>
      match s.fifoHead core w c l with
      | some t => some t
      | none =>
        match controlBehind s core [w] rest with
        | none => none
        | some (x, before) =>
          match s.bankAccs core x with
          | none => none
          | some (cx, _) =>
            some (((before ++ [x]).foldl (fun s y => s.discard core y) s).fifoFault cx)
/-- FIFO_RECORD_PERFORM (R256). -/
def execFifoRecordPerform (core bank : Nat) (s : State) : Out :=
  match s.fifoStep core bank with
  | some t => .next t
  | none => off "FIFO_RECORD_PERFORM"

end Sys2Proof.Machine
end

