-- ==== Sys2Proof/Machine/Tiles.lean ====
section
/-! DEFINITION. Accumulator tiles: mapping, fresh starts, reads and accumulation with their protection
(R107, R182, R183, R204, R211), the format-block descriptors (R191), and the elements of A and B (R102 to
R105, R194). -/

namespace Sys2Proof.Machine

/-! ## Format-block descriptors (R191) -/

/-- The fields of an f register. -/
structure Desc where
  fmt : Nat
  bl : Bool
  shift : Nat
  valid : Bool
  pitch : Nat
  tbase : Nat
  cstr : Nat
  sbase : Nat
  deriving DecidableEq, Repr
def descOf (f : BitVec 256) : Desc :=
  let x := f.toNat
  ⟨fld x 0 4, x.testBit 4, fld x 8 4, x.testBit 31, fld x 32 32, fld x 64 32, fld x 96 32, fld x 128 32⟩
/-- The formats of R191. -/
def fmtListed (n : Nat) : Bool := n == 0 || inRange n 9 12 || n == 15
/-- Whether the words of a descriptor keep R191, whatever VALID is. -/
def descOk (f : BitVec 256) : Bool :=
  let d := descOf f
  let x := f.toNat
  fmtListed d.fmt && (d.fmt == 15 || !d.bl) && fld x 5 3 == 0 && fld x 12 19 == 0 && d.pitch % 16 == 0 &&
  d.tbase % 16 == 0 && d.cstr % 16 == 0 && fld x 160 96 == 0
/-- Bits of an element. -/
def Desc.elBits (d : Desc) : Nat := if d.fmt = 15 then 4 else if d.fmt = 9 ∨ d.fmt = 10 then 16 else 8
/-- K elements of a chunk by the format pair; none for a pair that R106 does not list. -/
def chunkLen (a b : Desc) : Option Nat :=
  let half (d : Desc) : Bool := d.fmt == 9 || d.fmt == 10
  let narrow (d : Desc) : Bool := d.fmt == 11 || d.fmt == 12 || d.fmt == 15
  if half a && half b then some 96
  else if a.fmt = 0 ∧ b.fmt = 0 then some 192
  else if narrow a && narrow b then (if a.fmt = 15 ∧ b.fmt = 15 then some 384 else some 192)
  else none
/-- Bytes that a chunk takes of a row or column. -/
def Desc.span (d : Desc) (kc : Nat) : Nat := kc * d.elBits / 8
/-- Bytes of a 4-bit block (R104). -/
def Desc.blockBytes (d : Desc) : Nat := if d.bl then 16 else 8
/-- The scale address of the block at a byte address (R105). -/
def Desc.scaleAddr (d : Desc) (blk : Nat) : Nat :=
  let diff := (((blk : Int) - d.tbase) % 2 ^ 32).toNat
  (d.sbase + diff / 2 ^ d.shift) % 2 ^ 32
/-- The first bytes of the blocks of a line of K at an address. -/
def Desc.blocks (d : Desc) (addr kc : Nat) : List Nat :=
  (List.range (d.span kc / d.blockBytes)).map fun b => addr + b * d.blockBytes
/-- The byte ranges that a line of K reads: its elements, and the scale byte of each block. -/
def Desc.ranges (d : Desc) (addr kc : Nat) : List (Nat × Nat) :=
  (addr, d.span kc) :: (if d.fmt = 15 then (d.blocks addr kc).map fun b => (d.scaleAddr b, 1) else [])
/-- Row address of an A row, and column address of a B column (R194). -/
def Desc.rowAddr (d : Desc) (x base c : Nat) : Nat := d.tbase + x * d.pitch + base + c * d.cstr

/-! ## Elements (R102 to R104) -/

/-- The value of a 4-bit code of a type (R103). -/
def codeVal (ty code : Nat) : Dy :=
  let small : List Int := [0, 1, 2, 3, 4, 6, 8, 12]
  let pow : List Int := [0, 1, 2, 4, 8, 16, 32, 64]
  let sg : Int := if 8 ≤ code then -1 else 1
  match ty with
  | 0 => ⟨sgn code 4, 0⟩
  | 1 => ⟨sg * small.getD (code % 8) 0, -1⟩
  | 2 => ⟨sg * pow.getD (code % 8) 0, -3⟩
  | _ => ⟨sg * small.getD (code % 8) 0, 0⟩
/-- An element of a 4-bit block with its scale byte (R102). -/
def blockEl (scale code : Nat) : El :=
  if fld scale 0 6 = 63 then .nan
  else
    let v := codeVal (fld scale 6 2) code
    .fin ⟨v.m, v.e + (fld scale 0 6 : Int) - 32⟩ (decide (v.m < 0))
/-- The format of an FMT code of 8 or 16 bits that is no integer. -/
def wideFmt (n : Nat) : FFmt := if n = 9 then f16 else if n = 10 then bf16 else if n = 11 then e4m3 else e5m2
/-- An element of 8 or 16 bits. -/
def wideEl (fmt x : Nat) : El :=
  if fmt = 0 then .fin ⟨sgn x 8, 0⟩ (decide (sgn x 8 < 0)) else fread (wideFmt fmt) false x
/-- The K elements of a line at a team offset; `rd` reads bytes of the team's allocation. -/
def Desc.els (d : Desc) (rd : Nat → Nat → List Byte) (addr kc : Nat) : List El :=
  if d.fmt = 15 then
    (d.blocks addr kc).flatMap fun b =>
      let sc := leNat (rd (d.scaleAddr b) 1)
      (rd b d.blockBytes).flatMap fun x => [blockEl sc (fld x.toNat 0 4), blockEl sc (fld x.toNat 4 4)]
  else
    let n := d.elBits / 8
    let x := leNat (rd addr (d.span kc))
    (List.range kc).map fun i => wideEl d.fmt (fld x (8 * n * i) (8 * n))
/-- The sum of one sub-block, rounded once (R107, R108): an exact zero is +0. -/
def subSum (xs : List El) : El :=
  match El.sum .rne xs with
  | .fin d n => if d.m = 0 then .fin ⟨0, 0⟩ false else fread f32 false (rne32 (.fin d n)).toNat
  | y => y
/-- One addition to an accumulator (R107). -/
def accAdd (acc : Nat) (t : El) : Nat := (rne32 ((fread f32 false acc).add .rne t)).toNat
/-- The lists of 32 elements of a line. -/
def subBlocks : Nat → List El → List (List El)
  | 0, _ => []
  | n + 1, l => l.take 32 :: subBlocks n (l.drop 32)
/-- A chunk's additions to one element of a tile (R107). -/
def chunkAcc (acc : Nat) (a b : List El) : Nat :=
  let n := a.length / 32
  ((subBlocks n a).zip (subBlocks n b)).foldl (fun x p =>
    accAdd x (subSum ((p.1.zip p.2).map fun e => e.1.mul e.2))) acc

/-! ## Tiles (R182, R211) -/

def Tile.start : Tile := ⟨[], [], [], [], false⟩
/-- A tile under a record that works on it: errors counted, poisoned elements read. -/
structure TileWork where
  tile : Tile
  ce : Nat
  ue : Nat
  bad : List (Nat × Nat)
  deriving DecidableEq, Repr
def TileWork.of (t : Tile) : TileWork := ⟨t, 0, 0, []⟩
def ekey (row col : Nat) : Nat := 64 * row + col
def rkey (row j : Nat) : Nat := 32 * row + j
/-- The device's action on a read of a stored word (R119, R211). -/
def RegWord.seen (w : RegWord) : RegWord :=
  match w.ecc with
  | .clean => w
  | .single => ⟨w.val, .clean⟩
  | .double => ⟨w.val, .poisoned⟩
  | .poisoned => w
def TileWork.note (w : TileWork) (x : RegWord) (row col : Nat) : TileWork :=
  match x.ecc with
  | .clean => w
  | .single => { w with ce := w.ce + 1 }
  | .double => { w with ue := w.ue + 1, bad := w.bad ++ [(row, col)] }
  | .poisoned => { w with bad := w.bad ++ [(row, col)] }
/-- Reads an element; answers its word as stored after the read. -/
def TileWork.readEl (w : TileWork) (row col : Nat) : RegWord × TileWork :=
  let x := look RegWord.zero (ekey row col) w.tile.elems
  let w1 := w.note x row col
  (x.seen, if x.ecc = .clean then w1 else
    { w1 with tile := { w1.tile with elems := put RegWord.zero (ekey row col) x.seen w1.tile.elems } })
/-- Reads a rank element. -/
def TileWork.readRank (w : TileWork) (row j : Nat) : RegWord × TileWork :=
  let x := look RegWord.zero (rkey row j) w.tile.rank
  let w1 := w.note x row j
  (x.seen, if x.ecc = .clean then w1 else
    { w1 with tile := { w1.tile with rank := put RegWord.zero (rkey row j) x.seen w1.tile.rank } })
/-- An accumulation onto an element: a poisoned one stays as it is (R211). -/
def TileWork.accEl (w : TileWork) (f : Nat → Nat) (row col : Nat) : TileWork :=
  let (x, w1) := w.readEl row col
  if x.ecc = .poisoned then w1
  else { w1 with tile := { w1.tile with
    elems := put RegWord.zero (ekey row col) (RegWord.of (BitVec.ofNat 32 (f x.val.toNat))) w1.tile.elems } }
def TileWork.accRank (w : TileWork) (f : Nat → Nat) (row j : Nat) : TileWork :=
  let (x, w1) := w.readRank row j
  if x.ecc = .poisoned then w1
  else { w1 with tile := { w1.tile with
    rank := put RegWord.zero (rkey row j) (RegWord.of (BitVec.ofNat 32 (f x.val.toNat))) w1.tile.rank } }
/-- Writes an element: new check bits (R119). -/
def Tile.setEl (t : Tile) (row col : Nat) (x : Nat) : Tile :=
  { t with elems := put RegWord.zero (ekey row col) (RegWord.of (BitVec.ofNat 32 x)) t.elems }
def Tile.rowId (t : Tile) (row : Nat) : Nat := (look 0 row t.rowIds).toNat
def Tile.pending (t : Tile) (row : Nat) : Bool := t.replay.any fun r => r.row == row

/-! ## Mapping (R183) -/

def Group.phys (g : Group) (acc : Nat) : Option Nat := find acc g.amap
def Core.unusedTile (k : Core) : Option Nat := (List.range 96).find? fun p => (find p k.tiles).isNone
def State.tile (s : State) (core p : Nat) : Tile := look Tile.start p (s.core core).tiles
def State.setTile (s : State) (core p : Nat) (t : Tile) : State :=
  s.updCore core fun k => { k with tiles := ins p t k.tiles }
/-- An operation in the matrix unit targets a physical tile. -/
def State.inFlight (s : State) (core p : Nat) : Bool :=
  (s.core core).matUnit.any fun o => o.members.any fun m => m.tile == p
/-- Gives a logical tile a physical tile that holds the start values. -/
def State.remap (s : State) (core g acc : Nat) : State :=
  match (s.core core).unusedTile with
  | some p => (s.setTile core p Tile.start).updGroup g fun x => { x with amap := ins acc p x.amap }
  | none => s
/-- Maps an unmapped tile before a write that is no fresh start. -/
def State.mapped (s : State) (core g acc : Nat) : State :=
  match (s.group g).bind fun x => x.phys acc with
  | some _ => s
  | none => s.remap core g acc
/-- The physical tile of a logical one. -/
def State.physOf (s : State) (g acc : Nat) : Option Nat := (s.group g).bind fun x => x.phys acc
/-- A fresh start; none while it must wait for a spare (R183), or for an operation on the tile that has
issued. -/
def State.freshStart (s : State) (core g acc : Nat) : Option State :=
  match s.physOf g acc with
  | none => some (s.remap core g acc)
  | some p =>
    if s.inFlight core p then none
    else if (s.tile core p).replay.isEmpty then some (s.setTile core p Tile.start)
    else if s.freeTiles core = 0 then none
    else some (s.remap core g acc)
/-- A logical tile is readable (R204): no operation on it in the unit, its replay list empty. -/
def State.readable (s : State) (core g acc : Nat) : Bool :=
  match s.physOf g acc with
  | none => true
  | some p => !s.inFlight core p && (s.tile core p).replay.isEmpty
def State.flagged (s : State) (core g acc : Nat) : Bool :=
  match s.physOf g acc with
  | none => false
  | some p => (s.tile core p).flag
/-- Sets the error flag of a logical tile. -/
def State.setFlag (s : State) (core g acc : Nat) : State :=
  let s1 := s.mapped core g acc
  match s1.physOf g acc with
  | some p => s1.setTile core p { s1.tile core p with flag := true }
  | none => s1
/-- Drained tiles become spares (R183). -/
def State.sweepTiles (s : State) (core : Nat) : State :=
  let mine (p : Nat) : Bool := s.groups.any fun g => coreOf g.2.track == core && g.2.amap.any fun m => m.2 == p
  s.updCore core fun k => { k with
    tiles := k.tiles.filter fun e => mine e.1 || !e.2.replay.isEmpty || s.inFlight core e.1 }

/-! ## Faults after hand-over (R188) -/

/-- An imprecise fault of a matrix instruction. -/
def State.matFault (s : State) (g kind iaddr detail detail2 : Nat) (cancelled : Bool := false) : State :=
  s.impreciseFault g { s.groupRec kind g with iaddr := iaddr, detail := detail, detail2 := detail2 } cancelled
/-- Puts a tile back after work on it, counts its errors and raises a tile-poison fault for every
poisoned element read (R211). That fault does not set the tile's error flag: R182 has the faults of the chapter set it,
and R211 lets the reading record complete (DESIGN CHOICE, log 44). -/
def State.tileDone (s : State) (core g acc p iaddr : Nat) (w : TileWork) : State :=
  let s1 := (s.setTile core p w.tile).updCore core (·.count w.ce w.ue)
  w.bad.foldl (fun s e => s.matFault g 0x26 iaddr (Config.tileDetail acc e.1 e.2).toNat 0) s1

end Sys2Proof.Machine
end

