-- ==== Sys2Proof/Machine/Adapters.lean ====
section
/-! DEFINITION. The adapter cache and the replay lists (R109, R110, R198 to R203). -/

namespace Sys2Proof.Machine

/-! ## Cache entries (R199) -/

/-- A tag's projection and block. -/
abbrev Need := Nat × Nat
def AdEntry.tagged (e : AdEntry) (b : AdBind) (id : Nat) (n : Need) : Bool :=
  e.handle == b.handle && e.gen == b.gen && e.id == id && e.proj == n.1 && e.block == n.2
/-- A lookup hits an entry that ADINV has not stopped (R203). -/
def Core.adHit (k : Core) (b : AdBind) (id : Nat) (n : Need) : Option AdEntry :=
  k.adcache.find? fun e => !e.stale && e.tagged b id n
/-- The entry that a user has pinned. -/
def Core.adPinned (k : Core) (uses : List Nat) (b : AdBind) (id : Nat) (n : Need) : Option AdEntry :=
  k.adcache.find? fun e => uses.contains e.name && e.tagged b id n
/-- An entry is pinned while an operation or a replay that looked it up has not finished with it. -/
def Core.pinned (k : Core) (name : Nat) : Bool :=
  (k.matUnit.any fun o => o.uses.contains name) ||
  k.tiles.any fun t => t.2.replay.any fun r => r.terms.any fun x => x.uses.contains name
def adSet (id : Nat) (n : Need) : Nat := (id + n.2 + 16 * n.1) % 32
def Core.adStamp (k : Core) : Nat := k.adcache.foldl (fun m e => max m (e.lru + 1)) 0
def Core.adTouch (k : Core) (name : Nat) : Core :=
  { k with adcache := k.adcache.map fun e => if e.name = name then { e with lru := k.adStamp } else e }
/-- Makes room for an entry in its set: none while its four ways are pinned. -/
def Core.adRoom (k : Core) (set : Nat) : Option Core :=
  let same := k.adcache.filter fun e => adSet e.id (e.proj, e.block) == set
  if same.length < 4 then some k
  else
    match (same.filter fun e => !k.pinned e.name).foldl (fun (b : Option AdEntry) e => match b with
      | none => some e
      | some x => if e.lru < x.lru then some e else some x) none with
    | some v => some { k with adcache := k.adcache.filter fun e => e.name != v.name }
    | none => none
/-- The blocks that a pending term needs (R200, R201). -/
def ReplayTerm.needs (t : ReplayTerm) : List Need :=
  match t.k with
  | .rank kidx a => (List.range ((kidx + a.length - 1) / 96 - kidx / 96 + 1)).map fun i => (0, kidx / 96 + i)
  | .up nblk => [(1, nblk)]
  | .base .. => []
/-- Looks up the blocks that a term has not pinned; a hit is a use (R199). -/
def Core.pinTerm (k : Core) (t : ReplayTerm) : Core × ReplayTerm :=
  t.needs.foldl (fun x n =>
    if (x.1.adPinned x.2.uses x.2.b x.2.id n).isSome then x
    else match x.1.adHit x.2.b x.2.id n with
      | some e => (x.1.adTouch e.name, { x.2 with uses := x.2.uses ++ [e.name] })
      | none => x) (k, t)
def Core.pinTerms (k : Core) : List ReplayTerm → Core × List ReplayTerm
  | [] => (k, [])
  | t :: l =>
    let (k1, t1) := k.pinTerm t
    let (k2, l2) := k1.pinTerms l
    (k2, t1 :: l2)
def Core.pinRows (k : Core) : List ReplayRow → Core × List ReplayRow
  | [] => (k, [])
  | r :: l =>
    let (k1, ts) := k.pinTerms r.terms
    let (k2, l2) := k1.pinRows l
    (k2, { r with terms := ts } :: l2)
/-- The pending terms of a tile pin the blocks that are present, whatever else the tile waits for (R200). -/
def State.pinTile (s : State) (core p : Nat) : State :=
  let t := s.tile core p
  let (k, rows) := (s.core core).pinRows t.replay
  (s.setCore core k).setTile core p { t with replay := rows }
def Core.termReady (k : Core) (t : ReplayTerm) : Bool :=
  t.needs.all fun n => (k.adPinned t.uses t.b t.id n).isSome
/-- Requests the slices that a term misses, each once. -/
def State.fetchNeeds (s : State) (core : Nat) (part : BitVec 16) (g iaddr : Nat) (b : AdBind) (id : Nat)
    (ns : List Need) : State :=
  ns.foldl (fun s n =>
    let k := s.core core
    if (k.adHit b id n).isSome || k.adfills.any fun f =>
        f.bind.handle == b.handle && f.bind.gen == b.gen && f.id == id && f.proj == n.1 && f.block == n.2
    then s
    else
      let (name, s1) := s.name
      s1.updCore core fun k => { k with
        adfills := k.adfills ++ [⟨name, b, id, n.1, n.2, part, g, iaddr, false, none⟩] }) s

/-! ## Adapter terms (R109) -/

/-- Element i of a slice. -/
def AdEntry.el (e : AdEntry) (i : Nat) : El :=
  let n := if e.afmt ≤ 10 then 2 else 1
  wideEl e.afmt (leNat ((e.data.drop (n * i)).take n))
/-- The rank terms of a chunk from K index `kidx` (R109): for each sub-block, each rank element below ρ;
terms with k ≥ DROWS are zero (R198). -/
def rankTerm (k : Core) (uses : List Nat) (b : AdBind) (id row : Nat) (w : TileWork) :
    Nat → List (List El) → TileWork
  | _, [] => w
  | kidx, sub :: l =>
    let w1 := match k.adPinned uses b id (0, kidx / 96) with
      | some e =>
        if !e.valid then w
        else
          let live := sub.zipIdx.filter fun x => decide (kidx + x.2 < e.drows)
          (List.range e.rho).foldl (fun w j =>
            w.accRank (fun x => accAdd x (subSum (live.map fun a =>
              a.1.mul (e.el ((kidx % 96 + a.2) * e.rho + j))))) row j) w
      | none => w
    rankTerm k uses b id row w1 (kidx + 32) l
/-- The rank elements of a row, read; a poisoned one gives a free value `x` (log 5). -/
def TileWork.ranks (w : TileWork) (x row : Nat) : Nat → List El × TileWork
  | 0 => ([], w)
  | n + 1 =>
    let (l, w1) := w.ranks x row n
    let (r, w2) := w1.readRank row n
    (l ++ [fread f32 false (if r.ecc = .poisoned then fld x (32 * n) 32 else r.val.toNat)], w2)
/-- The term of MMUP for a row (R109): columns below UCOLS. -/
def upTerm (k : Core) (uses : List Nat) (b : AdBind) (id row nblk x : Nat) (w : TileWork) : TileWork :=
  match k.adPinned uses b id (1, nblk) with
  | some e =>
    if !e.valid then w
    else
      let (rs, w1) := w.ranks x row e.rho
      let sc := fread f32 false e.scale.toNat
      ((List.range 64).filter fun n => decide (64 * nblk + n < e.ucols)).foldl (fun w n =>
        w.accEl (fun acc => accAdd acc (subSum (rs.zipIdx.map fun r =>
          (r.1.mul (e.el (r.2 * 64 + n))).mul sc))) row n) w1
  | none => w
/-- One chunk's base product of a row, column by column (R107). -/
def baseTerm (a : List El) (cols : List (List El)) (row : Nat) (w : TileWork) : TileWork :=
  cols.zipIdx.foldl (fun w c => w.accEl (fun acc => chunkAcc acc a c.1) row c.2) w
/-- Applies one pending term to its row. -/
def applyTerm (k : Core) (t : ReplayTerm) (row x : Nat) (w : TileWork) : TileWork :=
  match t.k with
  | .rank kidx a => rankTerm k t.uses t.b t.id row w kidx (subBlocks (a.length / 32) a)
  | .up nblk => upTerm k t.uses t.b t.id row nblk x w
  | .base a cols => baseTerm a cols row w
/-- Applies the terms of a row in order while their blocks are present (R200): the terms that remain, and
each applied term's instruction with the work it did. -/
def driveTerms (k : Core) (row x : Nat) : List ReplayTerm → Tile → List (Nat × TileWork) →
    List ReplayTerm × Tile × List (Nat × TileWork)
  | [], t, log => ([], t, log)
  | r :: l, t, log =>
    if k.termReady r then
      let w := applyTerm k r row x (TileWork.of t)
      driveTerms k row x l w.tile (log ++ [(r.iaddr, w)])
    else (r :: l, t, log)
/-- Drives the replay list of a tile: its terms pin what is present, and are applied when its operations have left
the unit. -/
def State.driveTile (s : State) (core p : Nat) : State :=
  let s := s.pinTile core p
  if s.inFlight core p then s
  else
    (s.tile core p).replay.foldl (fun s r =>
      let k := s.core core
      let (x, s0) := if r.terms.any fun t => t.k matches .up _ then s.draw else (0, s)
      let (rest, t, log) := driveTerms k r.row x r.terms (s0.tile core p) []
      let t1 := { t with replay := if rest.isEmpty then t.replay.filter fun q => q.row != r.row
        else t.replay.map fun q => if q.row = r.row then { q with terms := rest } else q }
      log.foldl (fun s e => s.tileDone core r.group r.acc p e.1 { e.2 with tile := t1 })
        (s0.setTile core p t1)) s
/-- Drives every tile of a core; drained tiles become spares, and stopped entries that nothing pins are
invalid (R203). -/
def State.driveTiles (s : State) (core : Nat) : State :=
  let s1 := ((s.core core).tiles.foldl (fun s e => s.driveTile core e.1) s).sweepTiles core
  s1.updCore core fun k => { k with adcache := k.adcache.filter fun e => !e.stale || k.pinned e.name }
/-- Adds a term to a row of a tile, of a group's logical tile `acc`; a row that enters the list adds 1 to REPLAY (R200,
R201). -/
def State.addTerm (s : State) (core p g acc row : Nat) (t : ReplayTerm) : State :=
  let tile := s.tile core p
  let (k, t) := (s.core core).pinTerm t
  let s := s.setCore core k
  if tile.pending row then
    s.setTile core p { tile with replay := tile.replay.map fun q =>
      if q.row = row then { q with terms := q.terms ++ [t] } else q }
  else
    (s.setTile core p { tile with replay := tile.replay ++ [⟨row, g, acc, [t]⟩] }).updCore core fun k =>
      { k with replay := k.replay + 1 }

/-! ## Reading descriptors and slices (R198, R199) -/

/-- Reads one line at device scope for a unit of a core that tries again by itself. -/
def State.devLine (s : State) (core : Nat) (part : BitVec 16) (w : Waiter) (va : Nat) : Got × State :=
  match s.translate core part va false with
  | (.pa a, s1) =>
    if !s1.tokenLine (a / 128) then (.line (s1.farLine (a / 128)), s1)
    else
      let s2 := match s1.sreq (dieOf core) (a / 128) with
        | some r => if r.waiters.contains (w, false) then none else some s1
        | none => some s1
      match s2 with
      | none => (.pend, s1)
      | some s2 =>
        match s2.hold (dieOf core) (a / 128) false w with
        | (.ok, s3) =>
          match s3.ent (dieOf core) (a / 128) with
          | some e => (.line e.data, s3)
          | none => (.pend, s3)
        | (.wait, s3) => (.pend, s3)
        | (.err c, s3) => (.fail c 0, s3)
  | (.replay k, s1) => (.park k, s1)
  | (.ats p a, s1) =>
    if s1.atsPending.any fun x => x.pasid == p && x.addr == a then (.pend, s1)
    else (.pend, { s1 with atsPending := s1.atsPending ++ [⟨p, a, w⟩] })
  | (.fail c, s1) => (.fail c 0, s1)
  | (.miss, s1) => (.pend, (s1.joinWalk (dieOf core) part va false w).getD s1)
/-- What a read of several bytes gives. -/
inductive DevGot | bytes (b : List Byte) | pend | park (va kind : Nat) | fail (code : Nat)
  deriving DecidableEq, Repr
/-- The line-wise pieces of a range. -/
def linePieces : Nat → Nat → Nat → List (Nat × Nat)
  | 0, _, _ => []
  | fuel + 1, va, n =>
    if n = 0 then []
    else
      let m := min n (128 - va % 128)
      (va % 2 ^ 57, m) :: linePieces fuel (va + m) (n - m)
def State.devPieces (s : State) (core : Nat) (part : BitVec 16) (w : Waiter) :
    List (Nat × Nat) → List Byte → DevGot × State
  | [], acc => (.bytes acc, s)
  | (va, n) :: l, acc =>
    match s.devLine core part w (va / 128 * 128) with
    | (.line x, s1) => s1.devPieces core part w l (acc ++ lineBytes x (va % 128) n)
    | (.park k, s1) => (.park va k, s1)
    | (.fail c _, s1) => (.fail c, s1)
    | (.pend, s1) => (.pend, s1)
    | (.ats _ _, s1) => (.pend, s1)
/-- Reads ranges of virtual memory. -/
def State.devRead (s : State) (core : Nat) (part : BitVec 16) (w : Waiter) (rs : List (Nat × Nat)) :
    DevGot × State :=
  s.devPieces core part w (rs.flatMap fun r => linePieces (r.2 / 128 + 2) r.1 r.2) []
/-- An adapter descriptor (R198). -/
structure AdDesc where
  daddr : Nat
  uaddr : Nat
  rank : Nat
  afmt : Nat
  flags : Nat
  scale : Nat
  drows : Nat
  ucols : Nat
  rest : Nat
  deriving DecidableEq, Repr
def adDesc (bs : List Byte) : AdDesc :=
  let x := leNat bs
  ⟨fld x 0 64, fld x 64 64, fld x 128 8, fld x 136 8, fld x 144 16, fld x 160 32, fld x 192 32, fld x 224 32,
    fld x 256 256⟩
/-- Whether a descriptor keeps the table of R198. -/
def AdDesc.ok (d : AdDesc) : Bool :=
  d.daddr % 16 == 0 && decide (d.daddr < 2 ^ 57) && d.uaddr % 16 == 0 && decide (d.uaddr < 2 ^ 57) &&
  decide (d.rank ≤ 2) && inRange d.afmt 9 12 && decide (d.flags ≤ 1) && d.rest == 0
def AdDesc.rho (d : AdDesc) : Nat := 8 * 2 ^ d.rank
def AdDesc.es (d : AdDesc) : Nat := if d.afmt ≤ 10 then 2 else 1
/-- The ranges of a slice (R198, R199), and the bytes of each in the entry. -/
def AdDesc.ranges (d : AdDesc) (proj blk : Nat) : List (Nat × Nat) :=
  if d.flags = 0 then []
  else if proj = 0 then
    let rows := min 96 (d.drows - 96 * blk)
    if rows = 0 then [] else [(d.daddr + 96 * blk * d.rho * d.es, rows * d.rho * d.es)]
  else
    let cols := min 64 (d.ucols - 64 * blk)
    if cols = 0 then []
    else (List.range d.rho).map fun j => (d.uaddr + (j * d.ucols + 64 * blk) * d.es, cols * d.es)
/-- The bytes of a slice as the entry holds them: D rows by ρ, U ranks by 64 columns. -/
def AdDesc.layout (d : AdDesc) (proj blk : Nat) (bs : List Byte) : List Byte :=
  if proj = 0 then bs
  else
    let w := min 64 (d.ucols - 64 * blk) * d.es
    (List.range d.rho).flatMap fun j =>
      let x := (bs.drop (j * w)).take w
      x ++ List.replicate (64 * d.es - x.length) 0
/-- A row that leaves the replay list without its adapter terms still takes the base products that waited among them
(R110, R200). -/
def Tile.basesOf (t : Tile) (row : Nat) : Tile :=
  (((t.replay.filter fun r => r.row == row).flatMap (·.terms)).foldl (fun (w : TileWork) x => match x.k with
    | .base a cols => baseTerm a cols row w
    | _ => w) (TileWork.of t)).tile
/-- The rows that need a slice get no term from it (R198, R199): they leave the list, their tile is
flagged, and their instructions raise the imprecise adapter-descriptor fault; of a cancelled read (code 8), with bit 5
of FLAGS (R229). -/
def State.adFail (s : State) (core : Nat) (f : AdFill) (code : Nat) : State :=
  let wants (t : ReplayTerm) : Bool := t.b.handle == f.bind.handle && t.b.gen == f.bind.gen && t.id == f.id &&
    t.needs.contains (f.proj, f.block) && ((s.core core).adPinned t.uses t.b t.id (f.proj, f.block)).isNone
  let hits := (s.core core).tiles.flatMap fun p => p.2.replay.filterMap fun r =>
    (r.terms.find? wants).map fun t => (p.1, r.row, r.group, t.iaddr)
  let s1 := s.updCore core fun k => { k with
    tiles := k.tiles.map fun p =>
      if hits.any fun h => h.1 == p.1 then
        (p.1, { ((hits.filter fun h => h.1 == p.1).map (·.2.1)).eraseDups.foldl Tile.basesOf p.2 with
          flag := true
          replay := p.2.replay.filter fun r => !(hits.any fun h => h.1 == p.1 && h.2.1 == r.row) })
      else p
    adfills := k.adfills.filter fun x => x.name != f.name }
  let who := (hits.map fun h => (h.2.2.1, h.2.2.2)).eraseDups
  (who.foldl (fun s w => s.matFault w.1 0x23 w.2 f.id code (code == 8)) s1).driveTiles core
/-- A slice is in hand: it fills a way, and pending terms are applied; none while no way is free. -/
def State.adFilled (s : State) (core : Nat) (f : AdFill) (d : AdDesc) (bs : List Byte) : Option State :=
  match (s.core core).adRoom (adSet f.id (f.proj, f.block)) with
  | none => none
  | some k =>
    let e : AdEntry :=
      { name := f.name, handle := f.bind.handle, gen := f.bind.gen, id := f.id, proj := f.proj
        block := f.block, rho := d.rho, afmt := d.afmt, scale := BitVec.ofNat 32 d.scale, drows := d.drows
        ucols := d.ucols, valid := d.flags == 1, data := d.layout f.proj f.block bs, stale := false
        lru := k.adStamp }
    some ((s.setCore core { k with
      adcache := k.adcache ++ [e], adfills := k.adfills.filter fun x => x.name != f.name }).driveTiles core)
/-- A read of a fill meets a replayable fault: it parks under an adapter translation record (R199). -/
def State.adPark (s : State) (core : Nat) (f : AdFill) (va : Nat) : State :=
  let r := { s.groupRec 0x24 f.group with flags := s.privFlag f.group, iaddr := f.iaddr, addr := va }
  match s.park (dieOf core) f.part va false (.fill core f.name) 0x24 r with
  | some s1 => s1.updCore core fun k => { k with
      adfills := k.adfills.map fun x => if x.name = f.name then { x with parked := true } else x }
  | none => s
/-- One step of a slice's reads: the descriptor, then the slice. -/
def State.adStep (s : State) (core : Nat) (f : AdFill) : Option State :=
  match f.outcome with
  | some c => some (s.adFail core f c)
  | none =>
    if f.parked then none
    else
      let w : Waiter := .fill core f.name
      match s.devRead core f.part w [(f.bind.table + 64 * f.id, 64)] with
      | (.fail c, s1) => some (s1.adFail core f c)
      | (.park va _, s1) => some (s1.adPark core f va)
      | (.pend, s1) => some s1
      | (.bytes bs, s1) =>
        let d := adDesc bs
        if !d.ok then some (s1.adFail core f 0)
        else match s1.devRead core f.part w (d.ranges f.proj f.block) with
          | (.fail c, s2) => some (s2.adFail core f c)
          | (.park va _, s2) => some (s2.adPark core f va)
          | (.pend, s2) => some s2
          | (.bytes x, s2) => s2.adFilled core f d x
/-- ADAPTER_SLICE_ARRIVAL (R200): fill `idx` of a core. -/
def execAdapterSliceArrival (core idx : Nat) (s : State) : Out :=
  match (s.core core).adfills[idx]? with
  | some f =>
    match s.adStep core f with
    | some t => .next t
    | none => off "ADAPTER_SLICE_ARRIVAL: held"
  | none => off "ADAPTER_SLICE_ARRIVAL"

end Sys2Proof.Machine
end

