-- ==== Sys2Proof/Machine/Queues.lean ====
section
/-! DEFINITION. Hardware work queues (R304, R305), and the translation of addresses for units outside the
cores (R228, R229). -/

namespace Sys2Proof.Machine

/-! ## Addresses of units outside the cores -/

/-- Translates for a unit of a die: its translation cache, or the walk that it waits for, which it joins or starts; what a
walk without a leaf has come to, it meets once (R228). -/
def State.dieTrans (s : State) (die : Nat) (pid : BitVec 16) (va : Nat) (write : Bool) (w : Waiter) : Xl × State :=
  match s.part pid with
  | none => (.replay 0x18, s)
  | some p =>
    match (s.die die).tcache.find? fun t => t.hits pid va with
    | some t => (s.leafOut p t va write, (s.spend p t va).updDie die fun d =>
        { d with tcache := insTrans 16 tcacheSet t d.tcache })
    | none =>
      match (s.die die).walked.find? fun x => x.1 == pid && x.2.1 == va / 4096 with
      | some x => (if x.2.2.1 = 0x18 then .replay 0x18 else .fail x.2.2.1,
          s.updDie die fun d => { d with walked := d.walked.erase x })
      | none => (.miss, (s.joinWalk die pid va write w).getD s)
/-- What a unit gets: a physical address, a wait (it tries again by itself), or an outcome of R257. -/
inductive Dev | pa (a : Nat) | wait | fail (code : Nat)
  deriving DecidableEq, Repr
/-- The kind that marks a parked access of such a unit as cancelled, until the unit meets it. -/
def cancelled : Nat := 0xFF
/-- The lines that a unit reads at an address of a page are at hand, or are asked for (R216, R227). -/
def State.devSee (s : State) (die pa n : Nat) : Dev × State :=
  match s.see die (((List.range n).map fun i => (pa + i) / 128).eraseDups) with
  | (.ok, s1) => (.pa pa, s1)
  | (.wait _, s1) => (.wait, s1)
  | (.err c, s1) => (.fail c, s1)
/-- A unit's own access to n bytes at a virtual address, which lie in one page: a replayable outcome parks it, with one
record for its page (R229); a cancelled one takes the outcome of code 8. What it reads must be at hand. -/
def State.devReach (s : State) (die : Nat) (pid : BitVec 16) (va n : Nat) (write : Bool) (w : Waiter)
    (r : FaultRec) : Dev × State :=
  if !canonical va then (.fail 1, s)
  else
    match s.dieTrans die pid (va % 2 ^ 57) write w with
    | (.pa a, s1) => if write then (.pa a, s1) else s1.devSee die a n
    | (.fail c, s1) => (.fail c, s1)
    | (.miss, s1) => (.wait, s1)
    | (.ats p a, s1) =>
      if s1.atsPending.any fun x => x.pasid == p && x.addr == a then (.wait, s1)
      else (.wait, { s1 with atsPending := s1.atsPending ++ [⟨p, a, w⟩] })
    | (.replay k, s1) =>
      let mine (x : Parked) : Bool := x.part == pid && x.va / 4096 == va % 2 ^ 57 / 4096 && x.waiter == w
      if (s1.die die).parked.any fun x => mine x && x.kind == cancelled then
        (.fail 8, s1.updDie die fun d => { d with
          parked := d.parked.filter fun x => !(mine x && x.kind == cancelled) })
      else if (s1.die die).parked.any mine then (.wait, s1)
      else match s1.park die pid (va % 2 ^ 57) write w k { r with addr := va } with
        | some s2 => (.wait, s2)
        | none => (.wait, s1)

/-! ## Queue entries (R304) -/

def State.wqAddr (s : State) (q : Nat) : Nat := (look 0 (q / 4096) s.sys.wqbase).toNat + 32 * (q % 4096)
def State.wqField (s : State) (q off n : Nat) : Nat := s.physNat (s.wqAddr q + off) n
def State.wqRbase (s : State) (q : Nat) : Nat := s.wqField q 0x00 8
def State.wqLog (s : State) (q : Nat) : Nat := s.wqField q 0x08 1
def State.wqOn (s : State) (q : Nat) : Bool := (s.wqField q 0x09 1).testBit 0
def State.wqPart (s : State) (q : Nat) : BitVec 16 := BitVec.ofNat 16 (s.wqField q 0x0A 2)
def State.wqHead (s : State) (q : Nat) : Nat := s.wqField q 0x0C 4
def State.wqTail (s : State) (q : Nat) : Nat := s.wqField q 0x10 4
/-- Virtual address of record number n. -/
def State.wqSlot (s : State) (q n : Nat) : Nat :=
  (s.wqRbase q + 64 * (n % 2 ^ s.wqLog q)) % 2 ^ 64
def State.setWqHead (s : State) (q n : Nat) : State := s.physWrite (s.wqAddr q + 0x0C) (leBytes 4 n)
def State.setWqTail (s : State) (q n : Nat) : State := s.physWrite (s.wqAddr q + 0x10) (leBytes 4 n)
/-- (a − b) mod 2^32. -/
def dist32 (a b : Nat) : Nat := (a % 2 ^ 32 + 2 ^ 32 - b % 2 ^ 32) % 2 ^ 32
/-- Records posted and not yet taken. -/
def State.wqPosted (s : State) (q : Nat) : Nat := dist32 (s.wqTail q) (s.wqHead q)

/-! ## Doorbells (R305) -/

/-- DOORBELL: a write of t to the doorbell of queue q. The overflow record comes from the unit of die 0. -/
def execDoorbell (q : Nat) (t : DWord) (s : State) : Out :=
  if 16384 ≤ q then off "DOORBELL: no such queue"
  else
    let t := t.toNat % 2 ^ 32
    onReady s "DOORBELL: not ready" (.next (
      if !s.wqOn q then s
      else if 2 ^ s.wqLog q < dist32 t (s.wqHead q) then
        s.report { s.dieRec 0x32 0 with queue := q, detail := t }
      else s.setWqTail q t))

end Sys2Proof.Machine
end

