-- ==== Sys2Proof/Machine/Control.lean ====
section
/-! DEFINITION. Control flow, divergence and reconvergence (R163 to R181). -/

namespace Sys2Proof.Machine

/-! ## Ends of a clause -/

/-- The clause ends with the group as given (R27, R32). -/
def State.endWith (s : State) (c : Ctx) (grp : Group) (steps : Nat) : State :=
  (s.setGroup c.g (c.settle grp)).setTrack c.t
    { c.trk with run := none, latches := [], steps := c.trk.steps + steps }
/-- The fragment that executes, changed. -/
def Ctx.withFrag (c : Ctx) (f : Frag → Frag) : Group := c.grp.setFrag c.run.entry (f c.frag)
/-- A transfer of the whole fragment, with its key as `f` leaves it (R163, R171). -/
def State.jump (s : State) (c : Ctx) (sp : Bool) (pc : VAddr) (f : Frag → Frag) (steps : Nat) : State :=
  s.endWith c (checkAll (endClause c (c.withFrag f) sp pc)) steps

/-! ## Splits (R167 to R169) -/

/-- The targets that lanes choose, in the order of each target's lowest lane (R167). -/
def groupTargets : List (Nat × VAddr) → List (VAddr × Mask) → List (VAddr × Mask)
  | [], acc => acc
  | (i, t) :: l, acc =>
    if acc.any fun x => x.1 == t then
      groupTargets l (acc.map fun x => if x.1 == t then (x.1, x.2 ||| (1#32 <<< i)) else x)
    else groupTargets l (acc ++ [(t, 1#32 <<< i)])
/-- T of R167, with the fragment's inactive lanes in the first set. -/
def targetsOf (mask : Mask) (ts : List (Nat × VAddr)) : List (VAddr × Mask) :=
  match groupTargets ts [] with
  | [] => []
  | (t, m) :: l => (t, m ||| (mask &&& ~~~(maskOf (ts.map (·.1))))) :: l
/-- A new entry of a split (R168, R169). -/
def newFrag (pc : VAddr) (mask : Mask) (rcv : VAddr) (depth : BitVec 6) (stop : Option DWord) : Frag :=
  { mask := mask, pc := pc, rcv := rcv, depth := depth, defer := false, age := 0, state := .ready,
    word := 0, prev := .ready, wait := .none, held := false, fresh := true, stop := stop,
    cursor := none, redo := false, term := 0, yld := false, due := none }
/-- Puts fragments into free entries, lowest first. -/
def placeFrags (grp : Group) : List Frag → Group
  | [] => grp
  | f :: l =>
    match grp.freeEntries with
    | e :: _ => placeFrags (grp.setFrag e f) l
    | [] => grp
/-- The live mask at which the clause stops a pre-empted group's fragments (R332). -/
def Ctx.stopAt (c : Ctx) (sp : Bool) : Option DWord :=
  if sp && c.grp.preempt then some c.liveMask else none
/-- The structured split (R168). -/
def structSplit (c : Ctx) (sp : Bool) (ts : List (VAddr × Mask)) (y : VAddr) : Group :=
  let f := c.grp.freeEntries.length
  let t := ts.length
  let e := c.frag
  if f = 0 then
    c.grp.setFrag c.run.entry { e with
      state := .waiting, wait := .entry, word := 0, cursor := none, fresh := false, term := c.run.pos
      stop := c.stopAt sp }
  else
    let n := if t ≤ f then t else f - 1
    let own := (ts.take n).map fun x => newFrag x.1 x.2 y e.depth (c.stopAt sp)
    let rest := if t ≤ f then [] else
      [{ newFrag c.run.hdr ((ts.drop n).foldl (fun m x => m ||| x.2) 0) y e.depth none with
         defer := true, state := .deferred, fresh := false, term := c.run.pos }]
    placeFrags (c.grp.setFrag c.run.entry { e with
      mask := 0, pc := y, state := .joining, word := 0, cursor := none, redo := false,
      fresh := false, stop := none }) (own ++ rest)
/-- The flat split with a key (R169). -/
def flatSplit (c : Ctx) (sp : Bool) (ts : List (VAddr × Mask)) (rcv : VAddr) (depth : BitVec 6) : Group :=
  let f := c.grp.freeEntries.length
  let t := ts.length
  let e := c.frag
  let own (l : List (VAddr × Mask)) := l.map fun x => newFrag x.1 x.2 rcv depth (c.stopAt sp)
  if t ≤ f + 1 then
    match ts with
    | [] => c.grp
    | (pc, m) :: l =>
      placeFrags (c.grp.setFrag c.run.entry { e with
        mask := m, pc := pc, rcv := rcv, depth := depth, defer := false, state := .ready, word := 0,
        cursor := none, redo := false, fresh := true, stop := c.stopAt sp }) (own l)
  else
    placeFrags (c.grp.setFrag c.run.entry { e with
      mask := e.mask &&& ~~~((ts.take f).foldl (fun m x => m ||| x.2) 0), rcv := rcv, depth := depth,
      defer := true, state := .deferred, word := 0, cursor := none, redo := false, fresh := false
      term := c.run.pos })
      (own (ts.take f))
/-- A per-lane transfer whose lanes have chosen their targets (R167). `join` is the join address of a
structured split; otherwise the split is flat with depth `depth`. -/
def State.perLane (s : State) (c : Ctx) (sp : Bool) (ts : List (Nat × VAddr)) (join : Option VAddr)
    (depth : BitVec 6) (steps : Nat) : State :=
  let l := targetsOf c.frag.mask ts
  match l with
  | [] => s.jump c sp c.nextHdr id steps
  | (pc, _) :: more =>
    if c.frag.defer then
      s.endWith c (checkAll (flatSplit c sp l c.frag.rcv c.frag.depth)) steps
    else if more.isEmpty then s.jump c sp pc (fun f => { f with depth := depth }) steps
    else
      match join with
      | some y => s.endWith c (checkAll (structSplit c sp l y)) steps
      | none => s.endWith c (checkAll (flatSplit c sp l c.frag.rcv depth)) steps
/-- A per-lane transfer that reads an operand (R179): the words of the lanes at and above the cursor are
read first, and a poisoned one faults before any entry changes, with the cursor at the lowest of
those lanes; lanes below the cursor take the default. -/
def State.readTransfer (s : State) (c : Ctx) (sp : Bool) (reads : Nat → List (Bank × Nat))
    (target : RegFile → Nat → VAddr) (dflt : VAddr) (join : Option VAddr) (depth : BitVec 6) : State :=
  let all := lanesOf c.k0
  let (r, bad) := laneLoop reads (fun r _ => r) c.lanes (RegFile.of c.grp c.trk)
  match bad with
  | some p => s.regDone c r (some p) (c.lanes.headD 0) sp 0
  | none =>
    let s1 := s.countErrors c r
    let c1 := { c with grp := c.grp.withRegs r, trk := c.trk.withRegs r }
    s1.perLane c1 sp (all.map fun i => (i, if c.lanes.contains i then target r i else dflt)) join depth
      (laneSteps all.length)

/-! ## BRA and SWITCH -/

/-- Whether a whole-fragment BRA transfers (R165). -/
def braTaken (op : BraOp) (k0 ks : Mask) : Bool :=
  match op with
  | .always => true
  | .any => ks &&& k0 != 0
  | .all => k0 != 0 && ks &&& k0 == k0
  | .none => ks &&& k0 == 0
/-- A whole-fragment instruction, unless a cursor of 32 counts it as complete, after which the next word executes
(R323). -/
def onFragment (s : State) (sp : Bool) (k : Ctx → Out) : Out :=
  onTrack s fun c => if c.done then .next (s.advance c c.grp c.trk sp 1) else k c
/-- BRA, forms 000 to 011 (R165). -/
def execBra (sp : Bool) (op : BraOp) (ks : BitVec 3) (tgt : BitVec 20) (s : State) : Out :=
  onFragment s sp fun c =>
    if braTaken op c.k0 (c.k ks.toNat) then .next (s.jump c sp (c.target tgt) id 1)
    else .next (s.advance c c.grp c.trk sp 1)
/-- BRA.split (R165, R179). -/
def execBraSplit (sp : Bool) (ks : BitVec 3) (tgt rcv : BitVec 20) (s : State) : Out :=
  onTrack s fun c =>
    .next (s.perLane c sp ((lanesOf c.k0).map fun i =>
      (i, if c.lanes.contains i && (c.k ks.toNat).getLsbD i then c.target tgt else c.nextHdr))
      (some (c.target rcv)) c.frag.depth 1)
/-- The case words of the SWITCH being executed (R66). -/
def Ctx.cases (c : Ctx) (n : BitVec 3) : List CaseWord :=
  ((c.run.words.drop c.run.pos).take (n.toNat + 1)).filterMap decodeCase
/-- SWITCH (R166). -/
def execSwitch (sp : Bool) (n : BitVec 3) (a : Src) (dflt rcv : BitVec 16) (s : State) : Out :=
  onTrack s fun c =>
    let target (r : RegFile) (i : Nat) : VAddr :=
      match (c.cases n).find? fun x => x.value.toNat == r.operand a i 32 with
      | some x => c.target x.target
      | none => c.target dflt
    .next (s.readTransfer c sp (srcWords a) target (c.target dflt) (some (c.target rcv)) c.frag.depth)

/-! ## CALL, RET, JMPI, RECON -/

/-- CALL (R173). -/
def execCall (sp : Bool) (tgt rcv : BitVec 20) (s : State) : Out :=
  onFragment s sp fun c =>
    .next (s.jump c sp (c.target tgt) (fun f => { f with
      rcv := if rcv ≠ 0 then c.target rcv else f.rcv, depth := f.depth + 1 }) 1)
/-- RET and JMPI (R174); `depth` is the depth that the fragments carry. -/
def pairTransfer (sp : Bool) (a : Src) (depth : Frag → BitVec 6) (s : State) : Out :=
  onTrack s fun c =>
    let target (r : RegFile) (i : Nat) : VAddr := BitVec.ofNat 57 (r.operand a i 64)
    if a.kind = .s then
      let (r, bad) := (RegFile.of c.grp c.trk).touchAll (srcWords a 0)
      if c.run.cursor = some 32 then
        .next (s.jump c sp c.nextHdr id 1)
      else if bad then .next (s.regDone c r (some 32) 0 sp 1)
      else
        let c1 := { c with grp := c.grp.withRegs r }
        .next ((s.countErrors c r).jump c1 sp (target r 0) (fun f => { f with depth := depth f }) 1)
    else
      .next (s.readTransfer c sp (srcWords a) target c.nextHdr none (depth c.frag))
/-- RET (R174). -/
def execRet (sp : Bool) (a : Src) (s : State) : Out := pairTransfer sp a (fun f => f.depth - 1) s
/-- JMPI (R174). -/
def execJmpi (sp : Bool) (a : Src) (s : State) : Out := pairTransfer sp a (fun f => f.depth) s
/-- RECON (R172). Its new rcv and the check that follows take effect at its step: R172 gives no moment, though R180
lets the table change only between clauses (DESIGN CHOICE, log 67). -/
def execRecon (sp : Bool) (rcv : BitVec 20) (s : State) : Out :=
  onFragment s sp fun c =>
    .next (s.advance c (checkAll (c.withFrag fun f => { f with rcv := c.target rcv })) c.trk sp 1)

/-! ## Ending, yielding, sleeping -/

/-- The fragment's lanes retire and its entry becomes invalid (R175). -/
def retire (grp : Group) (e : Nat) (mask : Mask) : Group :=
  checkAll { grp with
    k := (List.range 8).foldl (fun m i => put 0 i (look 0 i m &&& ~~~mask) m) grp.k
    split := del e grp.split }
/-- EXIT (R175). -/
def execExit (sp : Bool) (s : State) : Out :=
  onFragment s sp fun c => .next (s.endWith c (retire c.grp c.run.entry c.frag.mask) 1)
/-- YIELD 0: the fragment comes after every other of its class at the next choice (R44, R176). -/
def State.yield0 (s : State) (c : Ctx) (sp : Bool) : State :=
  s.jump c sp c.nextHdr (fun f => { f with yld := true }) 1
/-- YIELD (R176). -/
def execYield (sp : Bool) (cnt : BitVec 6) (s : State) : Out :=
  onFragment s sp fun c =>
    if cnt = 0 then .next (s.yield0 c sp)
    else .next (s.waitHere c c.grp
      (.yield (c.trk.clauses + cnt.toNat) (c.trk.steps + 1 + 4 * cnt.toNat)) sp)
/-- SLEEP (R177). -/
def execSleep (sp : Bool) (n : Word) (s : State) : Out :=
  onFragment s sp fun c =>
    if n = 0 then .next (s.yield0 c sp)
    else .next (s.waitHere c c.grp (.sleep ((s.core c.core).cycle.toNat + n.toNat)) sp)
/-- The one step of TRAP, and of BKPT where the group traps: the fault of its kind with the code, which resumes
at the next clause (R178, R322, R326). -/
def State.trapHere (s : State) (c : Ctx) (kind : Nat) (code : Word) : State :=
  (s.takeFault c.t c.g c.run.entry { s.groupRec kind c.g with iaddr := c.iaddr } 0 (resumePair c.nextHdr 0)
    (code.setWidth 64)).updTrack c.t fun k => { k with steps := k.steps + 1 }
/-- BKPT (R178, R322). -/
def execBkpt (sp : Bool) (code : Word) (s : State) : Out :=
  onFragment s sp fun c =>
    if s.traps c.grp 0x08 then .next (s.trapHere c 0x08 code)
    else .next (s.yield0 c sp)

/-! ## The ends of sleeps and yields (R176, R177) -/

/-- A fragment of a bound group that waits as a test says, between two clauses of its track (R180). -/
def State.waiting (s : State) (g e : Nat) (p : Group → Wait → Bool) : Bool :=
  match s.group g with
  | none => false
  | some grp =>
    match find e grp.split with
    | none => false
    | some f => grp.resid == .bound && (s.track grp.track).run.isNone && f.state == .waiting && p grp f.wait
def sleepOver (s : State) (grp : Group) (w : Wait) : Bool :=
  match w with
  | .sleep til => decide (til ≤ (s.core (coreOf grp.track)).cycle.toNat)
  | _ => false
def yieldOver (s : State) (grp : Group) (w : Wait) : Bool :=
  match w with
  | .yield cl st => decide (cl ≤ (s.track grp.track).clauses) || decide (st ≤ (s.track grp.track).steps)
  | _ => false
/-- SLEEP_EXPIRY (R177). -/
def execSleepExpiry (g e : Nat) (s : State) : Out :=
  if s.waiting g e (sleepOver s) then .next (s.updGroup g (·.wake e)) else off "SLEEP_EXPIRY"
/-- YIELD_EXPIRY (R176). -/
def execYieldExpiry (g e : Nat) (s : State) : Out :=
  if s.waiting g e (yieldOver s) then .next (s.updGroup g (·.wake e)) else off "YIELD_EXPIRY"

end Sys2Proof.Machine
end

