-- ==== Sys2Proof/Machine/Sync.lean ====
section
/-! DEFINITION. Named barriers (R353 to R360), gangs (R361), batches and WAITB (R285, R362), DEPDEC
(R364). -/

namespace Sys2Proof.Machine

/-! ## Uniform instructions on s registers -/

/-- A uniform instruction; a cursor of 32 counts it complete (R323). -/
def onUniform (s : State) (sp : Bool) (k : Ctx → Out) : Out :=
  onTrack s fun c =>
    if c.run.cursor = some 32 then .next (s.advance c c.grp c.trk sp 1) else k c
/-- A uniform instruction that reads s registers, checked under R119 and R120. -/
def onUniformS (s : State) (sp : Bool) (regs : List Nat) (k : State → Ctx → RegFile → Out) : Out :=
  onUniform s sp fun c =>
    let (r, bad) := (RegFile.of c.grp c.trk).touchAll (regs.map fun n => (Bank.s, n))
    if bad then .next (s.regDone c r (some 32) 0 sp 1)
    else k (s.countErrors c r) { c with grp := c.grp.withRegs r } r
/-- The word of an s register. -/
def RegFile.sWord (r : RegFile) (n : Nat) : Word := (r.get .s n).val
def RegFile.sNat (r : RegFile) (n : Nat) : Nat := (r.get .s n).val.toNat
/-- An s pair, the lower register first. -/
def RegFile.sPair (r : RegFile) (n : Nat) : Nat := r.value [(Bank.s, n), (Bank.s, n + 1)]
def Group.setS (g : Group) (n : Nat) (w : Word) : Group :=
  { g with s := put RegWord.zero n (RegWord.of w) g.s }
/-- The instruction is complete; its group and track stand in the state. -/
def State.stepOn (s : State) (c : Ctx) (sp : Bool) : State :=
  match s.group c.g with
  | some g => s.advance c g (s.track c.t) sp 1
  | none => s
/-- The same for a fragment that waits (R36). -/
def State.waitOn (s : State) (c : Ctx) (w : Wait) (sp : Bool) : State :=
  match s.group c.g with
  | some g => s.waitHere c g w sp
  | none => s

/-! ## Barriers at their home (R353 to R356) -/

/-- The completion check after every event (R355). -/
def Barrier.check (b : Barrier) : Barrier :=
  let done := match b.mode with
    | .arr => decide (b.expa ≤ b.arra)
    | .byte => decide (b.expb ≤ b.arrb)
    | .both => decide (b.expa ≤ b.arra) && decide (b.expb ≤ b.arrb)
  if done then
    let err := b.err || (b.mode != .arr && decide (b.expb < b.arrb))
    { b with
      lerr := err, err := false, lfull := b.full, full := false, arra := 0, arrb := 0, phase := !b.phase }
  else b
/-- An event before its check (R356); an arrival count that leaves its 12 bits is the free value `x`
(log 5). -/
def Barrier.take (b : Barrier) (x : Nat) (ev : BarEv) : Barrier :=
  match ev with
  | .init mode expa expb scope =>
    { b with
      mode := mode, scope := scope, arra := 0, arrb := 0, err := false, full := false
      expa := expa
      expb := if mode = .arr then b.expb else expb.toNat }
  | .arrive n e =>
    { b with arra := if b.arra + n < 4096 then b.arra + n else x % 4096, err := b.err || e }
  | .slot e => { b with
      arra := if b.arra + 1 < 4096 then b.arra + 1 else x % 4096, err := b.err || e, full := b.full || !e }
  | .withdraw n => { b with expa := b.expa - n }
  | .bytes n => { b with arrb := min (b.arrb + n) (2 ^ 32 - 1) }
/-- An event at a barrier (R355, R356). -/
def Barrier.event (b : Barrier) (x : Nat) (ev : BarEv) : Barrier := (b.take x ev).check
/-- An arrival that the 12 bits of ARRA do not hold. -/
def Barrier.over (b : Barrier) (ev : BarEv) : Bool :=
  match ev with
  | .arrive n _ => decide (4096 ≤ b.arra + n)
  | .slot _ => decide (4096 ≤ b.arra + 1)
  | _ => false
def barScope (b : Barrier) : Scope := if b.scope then .clus else .core
/-- The scope of the acquire of the phase change last made: system, where a slot completed in it without error (R262,
R295). -/
def Barrier.acquires (b : Barrier) : Scope := if b.lfull then .sys else barScope b
/-- What BARW writes when its wait ends (R359). -/
def Barrier.result (b : Barrier) : Word := BitVec.ofNat 32 (bits01 b.phase + 2 * bits01 b.lerr)
def State.barrier (s : State) (team bar : Nat) : Option Barrier :=
  match s.team team with
  | some t => find bar t.bars
  | none => none
def State.setBarrier (s : State) (team bar : Nat) (b : Barrier) : State :=
  s.updTeam team fun t => { t with bars := ins bar b t.bars }
/-- A wait on a barrier ends: the phase change is an acquire, the result is written, and the fragment becomes ready
(R359, R262). -/
def State.barWake (s : State) (g e sn : Nat) (b : Barrier) : State :=
  match s.group g with
  | some grp => (s.acquire (coreOf grp.track) b.acquires).rouse g e [(sn, b.result)]
  | none => s
/-- The entries of a group that wait for a phase other than the barrier's. -/
def barWaiters (grp : Group) (team bar : Nat) (b : Barrier) : List (Nat × Nat) :=
  grp.split.filterMap fun e =>
    if e.2.last = .waiting then
      match e.2.wait with
      | .bar t k ph sn none => if t = team ∧ k = bar ∧ ph ≠ b.phase then some (e.1, sn) else none
      | _ => none
    else none
/-- Wakes every waiter of a barrier. -/
def State.barRelease (s : State) (team bar : Nat) (b : Barrier) : State :=
  s.groups.foldl (fun s g =>
    (barWaiters g.2 team bar b).foldl (fun s e => s.barWake g.1 e.1 e.2 b) s) s
/-- One event at the home of a barrier; none is left to take it once its team has ended. -/
def State.barEvent (s : State) (team bar : Nat) (ev : BarEv) : State :=
  match s.barrier team bar with
  | none => s
  | some b =>
    let (x, s1) := if b.over ev then s.draw else (0, s)
    let b1 := b.event x ev
    let s2 := s1.setBarrier team bar b1
    if b1.phase = b.phase then s2 else s2.barRelease team bar b1
/-- The phase that an arrival finds, in a word (R358): free where no barrier is left (log 5). -/
def State.phaseWord (s : State) (team bar : Nat) : Word × State :=
  match s.barrier team bar with
  | some b => (BitVec.ofNat 32 (bits01 b.phase), s)
  | none => let (x, s1) := s.draw; (BitVec.ofNat 32 x, s1)
/-- The team whose barrier an instruction addresses (R354). -/
def State.barHome (s : State) (c : Ctx) (sc : Bool) : Option Nat :=
  if sc then (s.teams.find? fun x => x.2.grid == c.team.grid && x.2.cluster == c.team.cluster &&
    x.2.member == 0).map (·.1)
  else some c.grp.team
/-- An earlier event of the group at this barrier is still on its way. -/
def State.barPending (s : State) (g team bar : Nat) : Bool :=
  s.net.any fun f => match f.msg with
    | .bar t b _ (some g') _ _ => g' == g && t == team && b == bar
    | _ => false
/-- Sends an event to a barrier's home over the die's mesh. -/
def State.postBar (s : State) (c : Ctx) (team bar : Nat) (ev : BarEv) (ds rel : Option Nat) : State :=
  s.post c.die (.die (s.islDie c.die)) (.bar team bar ev (some c.g) ds rel)
/-- An arrival performed at its home writes the phase it found (R358). -/
def State.barArrive (s : State) (g team bar : Nat) (ev : BarEv) (ds : Nat) : State :=
  let (w, s1) := s.phaseWord team bar
  (s1.putReg g .s ds (RegWord.of w)).barEvent team bar ev
/-- An arrival can be performed at its step: its home is the group's own core, the release is complete,
and no earlier event of the group is on its way there. -/
def State.barDirect (s : State) (c : Ctx) (team bar : Nat) : Bool :=
  team == c.grp.team && !s.barPending c.g team bar &&
  match s.barrier team bar with
  | some b => s.released c.g s.nextId (barScope b)
  | none => true

/-! ## Barrier instructions (R357 to R360) -/

/-- BARA (R358). -/
def execBara (f : FmtBara) (s : State) : Out :=
  onUniform s f.sp fun c =>
    match s.barHome c f.sc with
    | none => .fault (.dangling "cluster member 0")
    | some home =>
      let ev := BarEv.arrive f.cnt.toNat f.e
      if s.barDirect c home f.bar.toNat then
        .next ((s.barArrive c.g home f.bar.toNat ev f.ds.toNat).stepOn c f.sp)
      else
        let (id, s1) := s.name
        .next ((s1.postBar c home f.bar.toNat ev (some f.ds.toNat) (some id)).stepOn c f.sp)
/-- BARW's condition at its step (R359): the wait is over, or the fragment waits. -/
def State.barWait (s : State) (c : Ctx) (team bar : Nat) (ph : Bool) (sn : Nat) (sp : Bool) : State :=
  match s.barrier team bar with
  | none => s.waitOn c (.bar team bar ph sn none) sp
  | some b =>
    if b.phase = ph then s.waitOn c (.bar team bar ph sn none) sp
    else ((s.putReg c.g .s sn (RegWord.of b.result)).acquire c.core b.acquires).stepOn c sp
/-- BARW (R359). -/
def execBarw (sp : Bool) (bar : BitVec 7) (sc : Bool) (sn : BitVec 7) (s : State) : Out :=
  onUniformS s sp [sn.toNat] fun s c r =>
    match s.barHome c sc with
    | none => .fault (.dangling "cluster member 0")
    | some home =>
      .next ((s.setGroup c.g c.grp).barWait c home bar.toNat ((r.sWord sn.toNat).getLsbD 0) sn.toNat sp)
/-- BARS (R358): its BARW part begins when its arrival has been performed. -/
def execBars (f : FmtBara) (s : State) : Out :=
  onUniform s f.sp fun c =>
    match s.barHome c f.sc with
    | none => .fault (.dangling "cluster member 0")
    | some home =>
      let ev := BarEv.arrive f.cnt.toNat f.e
      if s.barDirect c home f.bar.toNat then
        let (w, _) := s.phaseWord home f.bar.toNat
        .next ((s.barArrive c.g home f.bar.toNat ev f.ds.toNat).barWait c home f.bar.toNat (w.getLsbD 0)
          f.ds.toNat f.sp)
      else
        let (id, s1) := s.name
        .next ((s1.postBar c home f.bar.toNat ev (some f.ds.toNat) (some id)).waitOn c
          (.bar home f.bar.toNat false f.ds.toNat (some id)) f.sp)
/-- An event that is no arrival, at its home or on its way (R355, R360). -/
def State.barSend (s : State) (c : Ctx) (home bar : Nat) (ev : BarEv) : State :=
  if home = c.grp.team ∧ !s.barPending c.g home bar then s.barEvent home bar ev
  else s.postBar c home bar ev none none
/-- BARINIT (R360). -/
def execBarinit (f : FmtBarinit) (s : State) : Out :=
  onUniformS s f.sp (if f.mode = .arr then [] else [f.sn.toNat]) fun s c r =>
    match s.barHome c f.sc with
    | none => .fault (.dangling "cluster member 0")
    | some home =>
      .next (((s.setGroup c.g c.grp).barSend c home f.bar.toNat
        (.init f.mode f.cnt.toNat (r.sWord f.sn.toNat) f.sc)).stepOn c f.sp)
/-- BARX (R360). -/
def execBarx (sp : Bool) (bar : BitVec 7) (sc : Bool) (cnt : BitVec 12) (s : State) : Out :=
  onUniform s sp fun c =>
    match s.barHome c sc with
    | none => .fault (.dangling "cluster member 0")
    | some home => .next ((s.barSend c home bar.toNat (.withdraw cnt.toNat)).stepOn c sp)
def BarMode.code : BarMode → Nat
  | .arr => 0 | .byte => 1 | .both => 2
/-- The two words that BARQ writes (R360). -/
def Barrier.query (b : Barrier) : Word × Word :=
  (BitVec.ofNat 32 (b.arra % 2 ^ 12 + b.expa % 2 ^ 12 * 2 ^ 12 + bits01 b.phase * 2 ^ 24 +
    bits01 b.err * 2 ^ 25 + bits01 b.lerr * 2 ^ 26 + BarMode.code b.mode * 2 ^ 27 +
    bits01 b.scope * 2 ^ 29), BitVec.ofNat 32 b.arrb)
/-- BARQ (R360). -/
def execBarq (sp : Bool) (bar : BitVec 7) (sc : Bool) (ds : BitVec 7) (s : State) : Out :=
  onUniform s sp fun c =>
    match s.barHome c sc with
    | none => .fault (.dangling "cluster member 0")
    | some home =>
      let (w, s1) := match s.barrier home bar.toNat with
        | some b => (b.query, s)
        | none => let (x, s1) := s.draw; ((BitVec.ofNat 32 x, BitVec.ofNat 32 (x / 2 ^ 32)), s1)
      .next ((s1.setGroup c.g ((c.grp.setS ds.toNat w.1).setS (ds.toNat + 1) w.2)).stepOn c sp)

/-! ## BARRIER_ARRIVAL_MESSAGE (R355) -/

/-- Whether an event on its way may take effect: its release is complete (R358), and no earlier one of
its group to the barrier is on its way. -/
def State.barReady (s : State) (idx : Nat) (team bar : Nat) (group rel : Option Nat) : Bool :=
  match group with
  | none => true
  | some g =>
    !(({ s with net := s.net.take idx }).barPending g team bar) &&
    match rel, s.barrier team bar with
    | some id, some b => s.released g id (barScope b)
    | _, _ => true
/-- The fragment of a BARS whose arrival has the name `id`. -/
def barsEntry (grp : Group) (id : Nat) : Option Nat :=
  (grp.split.find? fun e => e.2.last == .waiting && match e.2.wait with
    | .bar _ _ _ _ (some i) => i == id
    | _ => false).map (·.1)
/-- The BARW part of a BARS begins (R358): it waits for the phase to change from the one found. -/
def State.barsBegin (s : State) (g team bar ds id : Nat) (ph : Bool) : State :=
  match s.group g with
  | none => s
  | some grp =>
    match barsEntry grp id with
    | none => s
    | some e =>
      let s1 := s.updGroup g fun x => match find e x.split with
        | some f => x.setFrag e { f with wait := .bar team bar ph ds none }
        | none => x
      match s1.barrier team bar with
      | some b => if b.phase = ph then s1 else s1.barWake g e ds b
      | none => s1
/-- A message to a barrier takes effect at its home. -/
def State.barDeliver (s : State) (team bar : Nat) (ev : BarEv) (group ds rel : Option Nat) : State :=
  match group, ds with
  | some g, some d =>
    let (w, _) := s.phaseWord team bar
    let s1 := s.barArrive g team bar ev d
    match rel with
    | some id => s1.barsBegin g team bar d id (w.getLsbD 0)
    | none => s1
  | _, _ => s.barEvent team bar ev
/-- BARRIER_ARRIVAL_MESSAGE (R355): the message that `pick` names. -/
def execBarrierArrivalMessage (s : State) : Out :=
  match s.net[s.pick]? with
  | some ⟨.bar team bar ev group ds rel, _, _, _, _, _, _⟩ =>
    if s.barReady s.pick team bar group rel then
      .next (({ s with net := dropNth s.pick s.net }).barDeliver team bar ev group ds rel)
    else off "BARRIER_ARRIVAL_MESSAGE: held"
  | _ => off "BARRIER_ARRIVAL_MESSAGE"

/-! ## GANG (R361) -/

/-- The members that a %gang value lists. -/
def gangMembers (p : Nat) : List Nat := (List.range (fld p 36 3 + 1)).map fun i => fld p (6 * i) 6
/-- The checks of GANG: size, indexes, zero slots, reserved bits, own membership. -/
def gangOk (p : Nat) (ngroups own : Nat) : Bool :=
  let n := fld p 36 3
  let ms := gangMembers p
  decide (1 ≤ n) && decide (n ≤ 5) && ms.all (fun m => decide (m < ngroups)) &&
  decide (ms.eraseDups.length = ms.length) && decide (fld p 0 36 / 2 ^ (6 * (n + 1)) = 0) &&
  decide (fld p 50 14 = 0) && ms.contains own
/-- The position of a group in the list. -/
def gangPos (p own : Nat) : Nat := ((firstIdx (· == own) (gangMembers p))).getD 0
/-- GANG (R361). -/
def execGang (sp : Bool) (sn : BitVec 7) (s : State) : Out :=
  onUniformS s sp [sn.toNat, sn.toNat + 1] fun s c r =>
    let p := r.sPair sn.toNat
    if gangOk p c.grid.ngroups c.grp.idx then
      .next (s.advance c { c.grp with
        gang := BitVec.ofNat 64 (p - fld p 39 3 * 2 ^ 39 + gangPos p c.grp.idx * 2 ^ 39) } c.trk sp 1)
    else .next ((s.setGroup c.g c.grp).precise c 0x20 0 none 0 0)
/-- GANG.off (R361). -/
def execGangOff (sp : Bool) (s : State) : Out :=
  onUniform s sp fun c => .next (s.advance c { c.grp with gang := 0 } c.trk sp 1)

/-! ## Batches (R285, R362) -/

/-- The open batch of a group, opened if there is none. -/
def State.openBatch (s : State) (grp : Group) : Nat × Group × State :=
  match grp.batches.find? fun b => !b.closed with
  | some b => (b.id, grp, s)
  | none =>
    let (id, s1) := s.name
    (id, { grp with batches := grp.batches ++ [⟨id, 0, .core, false, false, false⟩] }, s1)
/-- A member of a batch that is not complete. -/
def State.batchBusy (s : State) (id : Nat) : Bool :=
  (s.copyRecs.any fun r => r.batch == some id) || (s.copyOpsAll.any fun o => o.r.batch == some id) ||
  s.sends.any fun x => x.batch == some id
/-- Closed batches complete in order (R285). -/
def State.settleList (s : State) : List Batch → List Batch
  | [] => []
  | b :: l =>
    if b.done then b :: s.settleList l
    else if b.closed && !s.batchBusy b.id then { b with done := true } :: s.settleList l
    else b :: l
/-- The batches that are kept: those not complete, and the 16 most recently closed (R362). -/
def keepBatches (l : List Batch) : List Batch :=
  let n := (l.filter (·.closed)).length
  let done := (l.takeWhile fun b => b.done).length
  l.drop (min done (n - 16))
/-- The batches that WAITB waits on are complete (R362). -/
def batchesMet (grp : Group) (n : Nat) (all : Bool) : Bool :=
  grp.batches.all fun b => !b.closed || b.done ||
    (!all && decide (2 ^ 15 ≤ (n + 2 ^ 16 - b.num) % 2 ^ 16))
/-- Bit j of WAITB's result (R362): 0 for a batch never closed, free for one closed before the last 16. -/
def batchBit (grp : Group) (x n j : Nat) : Nat :=
  let age := (grp.batch + 2 ^ 16 - (n + 2 ^ 16 - j) % 2 ^ 16) % 2 ^ 16
  if grp.closed ≤ age then 0
  else if age < 16 then
    bits01 ((grp.batches.filter fun b => b.closed && b.done && b.err &&
      b.num == (n + 2 ^ 16 - j) % 2 ^ 16) != [])
  else x / 2 ^ j % 2
def batchResult (grp : Group) (x n : Nat) : Word :=
  BitVec.ofNat 32 ((List.range 16).foldl (fun m j => m + batchBit grp x n j * 2 ^ j) 0)
/-- The result needs a free value. -/
def batchFree (grp : Group) (n : Nat) : Bool :=
  (List.range 16).any fun j =>
    let age := (grp.batch + 2 ^ 16 - (n + 2 ^ 16 - j) % 2 ^ 16) % 2 ^ 16
    decide (16 ≤ age) && decide (age < grp.closed)
/-- The acquire of the batches waited on: the widest of their scopes (R262, R273, R362). -/
def batchScope (grp : Group) (n : Nat) (all : Bool) : Scope :=
  Scope.ofRank ((grp.scopes.filter fun b => all || decide ((n + 2 ^ 16 - b.1) % 2 ^ 16 < 2 ^ 15)).foldl
    (fun m b => max m b.2) 0)
/-- The end of a WAITB's wait: its acquire, and its result (R362). -/
def State.batchEnd (s : State) (grp : Group) (n : Nat) (all : Bool) : Word × State :=
  let n := if all then grp.batch else n
  let (x, s1) := if batchFree grp n then s.draw else (0, s)
  (batchResult grp x n, s1.acquire (coreOf grp.track) (batchScope grp n all))
/-- The entries of a group whose WAITB is over. -/
def batchWaiters (grp : Group) : List (Nat × Nat × Nat × Bool) :=
  grp.split.filterMap fun e =>
    if e.2.last = .waiting then
      match e.2.wait with
      | .batch ds n all => if batchesMet grp n all then some (e.1, ds, n, all) else none
      | _ => none
    else none
/-- Completes the batches of a group that are complete, and ends the waits on them. -/
def State.settleBatches (s : State) (g : Nat) : State :=
  match s.group g with
  | none => s
  | some grp =>
    let grp1 := { grp with batches := keepBatches (s.settleList grp.batches) }
    (batchWaiters grp1).foldl (fun s e =>
      let (w, s1) := s.batchEnd grp1 e.2.2.1 e.2.2.2
      s1.rouse g e.1 [(e.2.1, w)]) (s.setGroup g grp1)
/-- Sets the error bit of a batch (R285). -/
def State.batchErr (s : State) (g : Nat) (batch : Option Nat) : State :=
  match batch with
  | none => s
  | some id => s.updGroup g fun x =>
      { x with batches := x.batches.map fun b => if b.id = id then { b with err := true } else b }
/-- CPYCL (R285). -/
def execCpycl (sp : Bool) (ds : BitVec 7) (scope : Scope) (s : State) : Out :=
  onUniform s sp fun c =>
    let (id, grp, s1) := s.openBatch c.grp
    let num := (grp.batch + 1) % 2 ^ 16
    let grp1 := ({ grp with
      batch := num
      closed := grp.closed + 1
      scopes := put 0 num (Scope.rank scope) grp.scopes
      batches := grp.batches.map fun b =>
        if b.id = id then { b with num := num, scope := scope, closed := true } else b } : Group).setS
      ds.toNat (BitVec.ofNat 32 num)
    .next (((s1.setGroup c.g grp1).settleBatches c.g).stepOn c sp)
/-- WAITB (R362). -/
def execWaitb (sp : Bool) (ds : BitVec 7) (all : Bool) (sn : BitVec 7) (s : State) : Out :=
  onUniformS s sp (if all then [] else [sn.toNat]) fun s c r =>
    let n := r.sNat sn.toNat % 2 ^ 16
    if batchesMet c.grp n all then
      let (w, s1) := (s.setGroup c.g c.grp).batchEnd c.grp n all
      .next ((s1.putReg c.g .s ds.toNat (RegWord.of w)).stepOn c sp)
    else .next ((s.setGroup c.g c.grp).waitOn c (.batch ds.toNat n all) sp)

/-! ## DEPDEC (R364) -/

/-- DEPDEC: at its step if its release is complete; otherwise it waits in the memory queue, where it
takes no entry. -/
def execDepdec (sp : Bool) (mode : DepMode) (n : BitVec 12) (cnt : BitVec 16) (s : State) : Out :=
  onUniform s sp fun c =>
    if s.released c.g s.nextId .dev then .next ((s.depStep mode n.toNat cnt.toNat).stepOn c sp)
    else
      let (id, s1) := s.name
      let rec_ : MemRec := ⟨id, .dep mode n.toNat cnt.toNat, .global, 0, .weak, .dev, false, none, none,
        c.iaddr, [⟨32, 0, 0, [], .pend⟩]⟩
      .next (s1.advance c { c.grp with memq := c.grp.memq ++ [rec_] } c.trk sp 1)

end Sys2Proof.Machine
end

