-- ==== Sys2Proof/Machine/System.lean ====
section
/-! DEFINITION. System registers, traps and the return from them, TLBI and service calls as instructions
(R14 to R22, R117, R118, R323 to R330). -/

namespace Sys2Proof.Machine

/-! ## The enumeration table (R14, R15, R19) -/

/-- Hops between two dies over the links of R10, three and four merged (R18, R19). -/
def dieClass (a b : Nat) : Nat :=
  let dist (x y : Nat) : Nat := (x - y) + (y - x)
  min 3 (dist (a / 4) (b / 4) + dist (a % 4) (b % 4))
def State.enumHeader (s : State) : List Byte :=
  let e := s.enum
  leBytes 2 1 ++ leBytes 1 e.grade.toNat ++ leBytes 1 0xFF ++
  leBytes 4 (if e.pkgValid then e.pkgid.toNat + 2 ^ 31 else 0) ++ leBytes 1 e.islpos ++ leBytes 1 e.islsize ++
  leBytes 2 s.liveCores.length ++ leBytes 4 e.links.toNat ++
  leBytes 32 ((List.range 64).foldl (fun n i => n + dieClass (i / 8) (i % 8) * 2 ^ (4 * i)) 0) ++ leBytes 16 0
def State.enumDie (s : State) (d : Nat) : List Byte :=
  let e := s.enum
  leBytes 4 (e.coremask.getD d 0).toNat ++ leBytes 1 (s.ncore d) ++ leBytes 1 (e.stackMask.getD d 0).toNat ++
  leBytes 2 (e.sliceMask.getD d 0).toNat ++
  ((List.range 24).map fun l => BitVec.ofNat 8 (s.position (24 * d + l))) ++ leBytes 32 0
/-- The 576 bytes of the table; none before it is built (R13). -/
def State.enumTable (s : State) : List Byte :=
  if s.enum.published then s.enumHeader ++ (List.range 8).flatMap s.enumDie else []
def State.enumWord (s : State) (i : Nat) : Word := BitVec.ofNat 32 (leNat ((s.enumTable.drop (4 * i)).take 4))

/-! ## System registers (R117) -/

/-- The word at a system-register number, as a group on a core reads it. -/
def State.sysWord (s : State) (grp : Group) (core n : Nat) : Word :=
  let d := s.die (dieOf core)
  let k := s.core core
  let half (x : DWord) (i : Nat) : Word := if i % 2 = 0 then x.setWidth 32 else (x >>> 32).setWidth 32
  if n = 0 then 0x05080000#32 ||| BitVec.ofNat 32 (256 * s.enum.grade.toNat + Config.stepping.toNat)
  else if n = 1 then grp.fltstat
  else if n = 2 ∨ n = 3 then half grp.trapvec n
  else if 4 ≤ n ∧ n ≤ 7 then look 0 (n - 4) grp.trapinfo
  else if n = 0x10 then d.partid.setWidth 32
  else if 0x20 ≤ n ∧ n ≤ 0x27 then half (look 0 ((n - 0x20) / 2) s.sys.wqbase) n
  else if n = 0x30 then s.sys.snapctl
  else if n = 0x31 then s.sys.snapstat
  else if n = 0x40 then d.monthr
  else if n = 0x50 then k.carve.setWidth 32
  else if n = 0x60 then k.replay
  else if n = 0x61 then k.rfce
  else if n = 0x62 then k.rfue
  else s.enumWord (n - 0x100)
/-- A 64-bit register with one of its words replaced. -/
def setHalf (x : DWord) (n : Nat) (w : Word) : DWord :=
  if n % 2 = 0 then (x &&& 0xFFFFFFFF00000000#64) ||| w.setWidth 64
  else (x &&& 0xFFFFFFFF#64) ||| (w.setWidth 64 <<< 32)
/-- The bits of SNAPCTL (R337) and of MONTHR (R117); every other bit is reserved (R5). -/
def snapctlOf (w : Word) : Word := w &&& 0xFF0F#32
def monthrOf (w : Word) : Word := w &&& 0xFFFF#32
/-- The menu of R79. -/
def carveMenu : List Nat := [0, 8, 16, 24, 32, 40, 44]
/-- A write of CARVEREQ (R117): off the menu it is refused under a record. -/
def State.writeCarve (s : State) (core : Nat) (w : Word) : State :=
  let n := w.toNat % 256
  if carveMenu.contains n then
    s.updCore core fun k => { k with carve := (k.carve &&& 0xFF00#16) ||| BitVec.ofNat 16 n }
  else s.report { FaultRec.blank 0x33 with
    src := dieOf core + core % 24 * 8, detail := n, cycle := (s.core core).cycle.toNat % 2 ^ 32 }
/-- The group registers that WRSR writes; bits 63:62 of the resume pair are zero (R5, R322). -/
def Group.writeSys (g : Group) (n : Nat) (w : Word) : Group :=
  if n = 1 then
    { g with fltstat := (g.fltstat &&& ~~~0x9F00#32) ||| (w &&& 0x9F00#32), cursor := fld w.toNat 8 5 }
  else if n = 2 ∨ n = 3 then { g with trapvec := setHalf g.trapvec n w }
  else if 4 ≤ n ∧ n ≤ 7 then
    { g with trapinfo := put 0 (n - 4) (if n = 5 then w &&& 0x3FFFFFFF#32 else w) g.trapinfo }
  else g
/-- Writes a word of a core, die or package register. -/
def State.writeSys (s : State) (core n : Nat) (w : Word) : State :=
  if 0x20 ≤ n ∧ n ≤ 0x27 then
    let i := (n - 0x20) / 2
    { s with sys := { s.sys with wqbase := put 0 i (setHalf (look 0 i s.sys.wqbase) n w) s.sys.wqbase } }
  else if n = 0x30 then { s with sys := { s.sys with snapctl := snapctlOf w } }
  else if n = 0x40 then s.updDie (dieOf core) fun d => { d with monthr := monthrOf w }
  else if n = 0x50 then s.writeCarve core w
  else s
/-- The s registers of a destination or source, with the system registers they face (R325). -/
def sysPairs (w : Width) (num sr : Nat) : List (Nat × Nat) :=
  (List.range (Width.count w)).map fun i => (num + i, sr + i)
/-- An instruction that only a privileged group may execute (R118, R323): else the precise privilege
fault. A cursor of 32 counts the instruction complete before anything is checked (R323). -/
def onPrivileged (s : State) (sp : Bool) (k : Ctx → Out) : Out :=
  onTrack s fun c =>
    if c.run.cursor = some 32 then .next (s.advance c c.grp c.trk sp 1)
    else if s.privileged c.grp then k c else .next (s.precise c 0x04 0 none 0 0)
/-- RDSR (R325). -/
def execRdsr (sp : Bool) (d : Dst) (sr : BitVec 12) (s : State) : Out :=
  onPrivileged s sp fun c =>
    .next (s.advance c ((sysPairs d.width d.num.toNat sr.toNat).foldl
      (fun g x => g.setS x.1 (s.sysWord c.grp c.core x.2)) c.grp) c.trk sp 1)
/-- WRSR (R325). -/
def execWrsr (sp : Bool) (a : Src) (sr : BitVec 12) (s : State) : Out :=
  onPrivileged s sp fun _ =>
    let ps := sysPairs a.width a.num.toNat sr.toNat
    onUniformS s sp (ps.map (·.1)) fun s c r =>
      let g1 := ps.foldl (fun g x => g.writeSys x.2 (r.sWord x.1)) c.grp
      .next ((ps.foldl (fun s x => s.writeSys c.core x.2 (r.sWord x.1)) s).advance c g1 c.trk sp 1)
/-- CYC (R325). -/
def execCyc (sp : Bool) (d : Dst) (s : State) : Out :=
  onUniform s sp fun c =>
    let x := (s.core c.core).cycle
    let n := d.num.toNat
    .next (s.advance c ((c.grp.setS n (x.setWidth 32)).setS (n + 1) ((x >>> 32).setWidth 32)) c.trk sp 1)
/-- SNAP (R325, R337). -/
def execSnap (sp : Bool) (tag : Word) (s : State) : Out :=
  onUniform s sp fun c =>
    let s1 := if s.sys.snapctl.getLsbD 1 then s.snapshot 1 0 tag else s
    .next (s1.advance c c.grp c.trk sp 1)

/-! ## TRAP and ERET -/

/-- TRAP (R326). -/
def execTrap (sp : Bool) (code : Word) (s : State) : Out :=
  onFragment s sp fun c => .next (s.trapHere c 0x09 code)
/-- The fragment after ERET (R323): at the header, to run from its start, or from word w with the resumed
instruction at the cursor. -/
def eretFrag (f : Frag) (cur : Nat) (hdr : VAddr) (w : Nat) : Frag :=
  { f with
    pc := hdr, word := w, cursor := if w = 0 then none else some cur, state := .ready, wait := .none
    fresh := w == 0, redo := false }
/-- ERET (R323). -/
def execEret (sp : Bool) (s : State) : Out :=
  onTrack s fun c =>
    if c.run.cursor = some 32 then .next (s.jump c sp c.nextHdr id 1)
    else if !s.privileged c.grp then .next (s.precise c 0x04 0 none 0 0)
    else
      let (g1, cur, hdr, w) := trapReturn c.grp
      let f := eretFrag { c.frag with stop := c.stopAt sp } cur hdr w
      .next (s.endWith c { g1.setFrag c.run.entry f with cursor := if w = 0 then g1.cursor else cur % 32 } 1)

/-! ## TLBI (R327) -/

/-- The walks in progress on the package's dies. -/
def State.allWalks (s : State) : List (Nat × Walk) :=
  (List.range 8).flatMap fun d => (s.die d).walks.map fun w => (d, w)
/-- Drops cached answers of the host; accesses may still use them (R418). -/
def State.dropAts (s : State) (p : AtsEnt → Bool) : State :=
  { s with
    atsCache := s.atsCache.filter fun e => !p e
    atsOld := (s.atsOld ++ s.atsCache.filter fun e => p e && e.host.isSome).eraseDups }
/-- Invalidates cached translations, and the ATS entries of the partition's PASID. -/
def State.invalidate (s : State) (part : BitVec 16) (va : Option Nat) : State :=
  let s1 := s.dropTrans part va
  match s.part part with
  | some p => s1.dropAts fun e => e.pasid == p.pasid.toNat
  | none => s1
/-- The positions of the other packages of the island. -/
def State.others (s : State) : List Nat := (List.range s.enum.islsize).filter fun i => i != s.enum.islpos
/-- An invalidation (R327, R231): the caches of the package at once; with `isl`, the other packages of the island are
asked for theirs (log 46). Its end waits for them and for the walks that began before. -/
def State.startInval (s : State) (die : Nat) (part : BitVec 16) (va : Option Nat) (moved : Option (Nat × Nat)) (isl : Bool)
    (fin : TlbiEnd) : State :=
  let ws := s.allWalks.filter fun w => w.2.part == part
  let (id, s1) := (s.invalidate part va).name
  let acks := if isl then s.others else []
  let t : Tlbi := ⟨id, part, va, moved, fin, ws, acks, s.now⟩
  acks.foldl (fun s i => s.post die (.die (8 * i)) (.tlbi id part va moved)) { s1 with tlbis := s1.tlbis ++ [t] }
/-- TLBI: its scoreboard falls at TLBI_COMPLETION. -/
def State.tlbi (s : State) (c : Ctx) (sp isl : Bool) (sb : Nat) (va : Option Nat) : State :=
  if sbFull c.grp (some sb) then s.holdStep c
  else (s.startInval c.die c.grid.part va none isl (.group c.g sb)).advance c (c.grp.sbUp sb) c.trk sp 1
/-- TLBI.page (R327). -/
def execTlbiPage (sp isl : Bool) (sb : BitVec 3) (sa : BitVec 7) (s : State) : Out :=
  onPrivileged s sp fun _ =>
    onUniformS s sp [sa.toNat, sa.toNat + 1] fun s c r =>
      .next ((s.setGroup c.g c.grp).tlbi c sp isl sb.toNat (some (r.sPair sa.toNat % 2 ^ 57)))
/-- TLBI.part (R327). -/
def execTlbiPart (sp isl : Bool) (sb : BitVec 3) (s : State) : Out :=
  onPrivileged s sp fun _ => onUniform s sp fun c => .next (s.tlbi c sp isl sb.toNat none)
/-! ## SVC (R328) -/

/-- The free tickets, ascending. -/
def State.freeTickets (s : State) : List Nat := (List.range 4096).filter fun t => (find t s.tickets).isNone
/-- v`VA` to v`VA` + 15 of a lane. -/
def svcWords (va lane : Nat) : List (Bank × Nat) := (List.range 16).map fun j => (Bank.v, vkey (va + j) lane)
/-- The group is parked (R328): its fragments stop at their next clause boundary; the fragment of the SVC
continues at the next clause. -/
def svcPark (c : Ctx) (grp : Group) (sp : Bool) (now : Nat) (call : SvcCall) : Group :=
  let g1 := endClause c { grp with preempt := true } sp c.nextHdr
  { g1 with
    reason := 3, since := now, svc := some call
    split := g1.split.map fun e =>
      if e.1 = c.run.entry then
        (e.1, { e.2 with stop := some (if sp && !(grp.preempt && grp.reason == 2) then c.liveMask else BitVec.allOnes 64) })
      else e }
/-- SVC (R328): the blocks are read lane by lane; with no free ticket the fragment waits for one. The
ticket is free to choose (log 16). A cursor of 32 asks for nothing (log 45). -/
def execSvc (sp : Bool) (sd : BitVec 7) (va : BitVec 8) (no : Word) (s : State) : Out :=
  onTrack s fun c =>
    let steps := max (lanesOf c.k0).length 4
    if c.run.cursor = some 32 then .next (s.jump c sp c.nextHdr id steps)
    else
      let (r, bad) := laneLoop (svcWords va.toNat) (fun r _ => r) c.lanes (RegFile.of c.grp c.trk)
      let s1 := s.countErrors c r
      let grp := c.grp.withRegs r
      match bad with
      | some i => .next ((s1.setGroup c.g grp).precise c 0x06 i (some i) 0 0)
      | none =>
        let free := s.freeTickets
        if free.isEmpty then
          .next (s1.endWith { c with grp := grp } (grp.setFrag c.run.entry { c.frag with
            state := .waiting, wait := .ticket, word := 0, cursor := none, fresh := false, term := c.run.pos
            stop := c.stopAt sp }) steps)
        else
          let (x, s2) := s1.draw
          let t := free.getD (x % free.length) 0
          let call : SvcCall :=
            { entry := c.run.entry, lanes := c.k0, sd := sd.toNat, va := va.toNat, no := no, ticket := t
              sp := sp, iaddr := c.iaddr, core := c.core
              blocks := (lanesOf c.k0).map fun i => (svcWords va.toNat i).map fun k => (r.get k.1 k.2).val }
          .next (({ s2 with tickets := ins t c.g s2.tickets }).endWith c (svcPark c grp sp s.now call) steps)
/-- Frees a ticket: the fragments that wait for one execute their SVC again from the next boundary on (R180, R328). -/
def State.freeTicket (s : State) (t : Nat) : State := { s with tickets := del t s.tickets }

end Sys2Proof.Machine
end

