-- ==== Sys2Proof/Machine/Zones.lean ====
section
/-! DEFINITION. Landing zones: handles, zone and slot tables, the instructions performed at their step, and
what reaches a zone's core and a sender (R289 to R297, R349, R453). -/

namespace Sys2Proof.Machine

/-! ## Handles (R289) -/

def handleWord (pkg : BitVec 18) (die core zone : Nat) : Nat :=
  pkg.toNat + die % 8 * 2 ^ 18 + core % 32 * 2 ^ 21 + zone % 16 * 2 ^ 26
def slotRef (w0 w1 grant : Nat) : SlotRef :=
  ⟨BitVec.ofNat 18 w0, fld w0 18 3, fld w0 21 5, fld w0 26 4, BitVec.ofNat 8 w1, grant % 256,
    BitVec.ofNat 8 (grant / 256)⟩
def SlotRef.word (r : SlotRef) : Nat := handleWord r.pkg r.die r.core r.zone
/-- The global number of the core that a handle names. -/
def SlotRef.coreNo (r : SlotRef) : Nat := 24 * r.die + r.core
/-- A status word; what else it holds is a free value (log 5). -/
def State.statusWord (s : State) (st bits : Nat) : Word × State :=
  let (x, s1) := s.draw
  (BitVec.ofNat 32 (x % 2 ^ bits + st * 2 ^ 28), s1)

/-! ## Tables (R349) -/

def Zone.blank : Zone := ⟨0, 0, false, false, 0, 0, 0, 0, 0, 0, false, none⟩
def Zone.bytes (z : Zone) : Nat := z.kib * 1024
/-- The zones whose opening answered a handle word, at the core named, then through the forwarding entries there
(R336): core, number there, zone. -/
def State.zonesNamed (s : State) (r : SlotRef) : List (Nat × Nat × Zone) :=
  let seat (c : Nat) (p : Zone → Bool) : List (Nat × Nat × Zone) :=
    ((s.core c).zones.filter fun e => e.2.used && e.2.w0.toNat == SlotRef.word r && p e.2).map fun e => (c, e.1, e.2)
  if 24 ≤ r.core ∨ !s.liveCore (SlotRef.coreNo r) then []
  else seat (SlotRef.coreNo r) (fun _ => true) ++
    ((s.core (SlotRef.coreNo r)).fwds.filter fun f => s.now < f.2.til).flatMap fun f =>
      seat f.2.core fun z => z.team == f.2.team
/-- The zone that a handle names: the one of its generation, where there is one. -/
def State.zoneSeat (s : State) (r : SlotRef) : Option (Nat × Nat × Zone) :=
  match (s.zonesNamed r).find? fun e => e.2.2.gen == r.zgen with
  | some e => some e
  | none => (s.zonesNamed r).head?
/-- Slot k of a zone, with its index in the slot table. -/
def State.zoneSlot (s : State) (core zn : Nat) (z : Zone) (k : Nat) : Option (Nat × Slot) :=
  if k < z.count then
    match find (z.first + k) (s.core core).slots with
    | some sl => if sl.zone = zn then some (z.first + k, sl) else none
    | none => none
  else none
def SlotSt.code : SlotSt → Nat
  | .free => 0 | .reserved => 1 | .filling => 2 | .full => 3 | .failed => 4 | .cancelled => 5
def SlotSt.isOpen (x : SlotSt) : Bool := x = .reserved || x = .filling
/-- What LZSTAT writes (R297). -/
def Slot.word (sl : Slot) (cause : Nat) : Word :=
  BitVec.ofNat 32 (SlotSt.code sl.st + bits01 sl.err * 8 + cause * 16 + sl.gen.toNat * 2 ^ 8 +
    sl.arrived / 4 * 2 ^ 16)
/-- What a group of a core observes of a slot: a FULL one has completed without error, an acquire at system scope
(R262, R274, R295). -/
def State.observeSlot (s : State) (core : Nat) (w : Word) : State :=
  if fld w.toNat 0 3 = 3 then s.acquire core .sys else s
/-- Ends every LZSTAT.wait on a slot (R297). -/
def State.slotNotify (s : State) (core idx : Nat) (w : Word) : State :=
  ((s.core core).slotWaits.filter fun x => x.slot == idx).foldl
    (fun s x => ((s.observeSlot core w).putReg x.group .s x.ds (RegWord.of w)).sbFall x.group (some x.sb))
    (s.updCore core fun k => { k with slotWaits := k.slotWaits.filter fun x => x.slot != idx })
/-- A collective partition is released when the last team of its grid has ended, every allocation of its teams
is freed, and the grid is past step 3 of its end (R49, R313). -/
def State.releaseColl (s : State) (grid : Nat) : State :=
  if (s.grid grid).isSome || s.teams.any fun t => t.2.grid == grid && t.2.phase != .gone then s
  else { s with cores := s.cores.map fun e => (e.1, if e.2.coll = some grid then { e.2 with coll := none } else e.2) }
/-- An ended team's allocation is freed with its last zone slot (R312). -/
def State.allocFree (s : State) (team : Nat) : State :=
  match s.team team with
  | none => s
  | some t =>
    if t.phase != .freed || (s.core t.core).zones.any fun e => e.2.used && e.2.team == team then s
    else
      let teams := if (s.grid t.grid).isSome then ins team { t with phase := .gone } s.teams else del team s.teams
      State.releaseColl { s with teams := teams } t.grid
/-- Releases a slot of a closing zone; the zone number becomes free with its last slot (R292). -/
def State.slotRelease (s : State) (core zn idx : Nat) : State :=
  match find idx (s.core core).slots with
  | none => s
  | some sl =>
    let s1 := (s.slotNotify core idx (sl.word 5)).updCore core fun k => { k with slots := del idx k.slots }
    if (s1.core core).slots.any fun e => e.2.zone == zn then s1
    else
      let team := (find zn (s1.core core).zones).map (·.team)
      let s2 := s1.updCore core fun k => { k with
        zones := upd zn (fun z => { Zone.blank with gen := z.gen }) k.zones }
      match team with
      | some t => s2.allocFree t
      | none => s2
/-- Puts a slot into a state: a completion arrives at the zone's barrier (R291), waits end (R297), and a
closing zone releases it (R292). -/
def State.slotSet (s : State) (core zn : Nat) (z : Zone) (idx : Nat) (old new : Slot) : State :=
  let s1 := s.updCore core fun k => { k with slots := ins idx new k.slots }
  let s2 := if SlotSt.isOpen old.st && !SlotSt.isOpen new.st && z.be then
      s1.barEvent z.team z.bar (.slot new.err) else s1
  let s3 := if SlotSt.isOpen new.st || new.st == .free then s2 else s2.slotNotify core idx (new.word new.cause)
  if z.closing.isSome && !SlotSt.isOpen new.st then s3.slotRelease core zn idx else s3
/-- An LZCLOSE applied to an open zone (R292). -/
def State.zoneClose (s : State) (core zn : Nat) : State :=
  let s1 := s.updCore core fun k => { k with
    zones := upd zn (fun z => { z with isOpen := false, closing := some s.now }) k.zones }
  ((s.core core).slots.filter fun e => e.2.zone == zn && !SlotSt.isOpen e.2.st).foldl
    (fun s e => s.slotRelease core zn e.1) s1

/-! ## Instructions of a zone's own team -/

/-- The precise landing-zone fault. -/
def State.lzFault (s : State) (c : Ctx) : State := (s.setGroup c.g c.grp).precise c 0x2A 0 none 0 0
/-- The open zone of the team that a handle names, by number; the zero fields of the handle are not looked at (R5,
R289). -/
def State.ownZone (s : State) (c : Ctx) (w0 w1 : Nat) : Option (Nat × Zone) :=
  (s.core c.core).zones.find? fun e => e.2.used && e.2.isOpen && e.2.w0.toNat == w0 % 2 ^ 30 &&
    e.2.gen.toNat == w1 % 2 ^ 8 && fld w1 28 4 == 0 && e.2.team == c.grp.team
/-- Bytes of a scratchpad range lie in a bank in FIFO mode (R222). -/
def Core.fifoOverlap (k : Core) (a n : Nat) : Bool :=
  k.fifo.any fun e => overlap (e.1 * 65536) 65536 a n
/-- The lowest free zone number. -/
def Core.freeZone (k : Core) : Option Nat :=
  (List.range 16).find? fun n => match find n k.zones with
    | some z => !z.used
    | none => true
/-- The lowest run of free slot entries (R349). -/
def Core.freeRun (k : Core) (n : Nat) : Option Nat :=
  (List.range (257 - n)).find? fun i => (List.range n).all fun j => (find (i + j) k.slots).isNone
/-- The range check of LZOPEN (R291). -/
def State.zoneFits (s : State) (c : Ctx) (a n : Nat) : Bool :=
  let k := s.core c.core
  decide (a + n ≤ c.team.size) && !k.fifoOverlap (c.team.base + a) n &&
  k.zones.all fun e => !(e.2.used && e.2.isOpen && e.2.team == c.grp.team &&
    overlap e.2.base (e.2.count * e.2.bytes) a n)
/-- The zone and slots of a successful LZOPEN. -/
def State.zoneOpen (s : State) (c : Ctx) (f : FmtLzopen) (zn first : Nat) : State :=
  let n := f.slots.toNat + 1
  let w0 := handleWord s.pkg c.die (c.core % 24) zn
  s.updCore c.core fun k =>
    let gen : Byte := match find zn k.zones with
      | some z => z.gen + 1
      | none => 1
    { k with
      zones := ins zn { Zone.blank with
        w0 := BitVec.ofNat 32 w0, gen := gen, isOpen := true, used := true, team := c.grp.team,
        base := f.gran.toNat * 256, kib := f.kib.toNat + 1, count := n, first := first,
        bar := f.bar.toNat, be := f.be } k.zones
      slots := (List.range n).foldl
        (fun m j => ins (first + j) ⟨zn, .free, 0, 0, 0, false, 0⟩ m) k.slots }
/-- LZOPEN (R291). -/
def execLzopen (f : FmtLzopen) (s : State) : Out :=
  onUniform s f.sp fun c =>
    let n := f.slots.toNat + 1
    let dp := 2 * f.dp.toNat
    let answer (s : State) (w0 w1 : Word) : State :=
      s.advance c ((c.grp.setS dp w0).setS (dp + 1) w1) c.trk f.sp 1
    if !s.zoneFits c (f.gran.toNat * 256) (n * (f.kib.toNat + 1) * 1024) then .next (s.lzFault c)
    else match (s.core c.core).freeZone with
      | none => let (w, s1) := s.statusWord 1 8; .next (answer s1 0 w)
      | some zn =>
        match (s.core c.core).freeRun n with
        | none => let (w, s1) := s.statusWord 2 8; .next (answer s1 0 w)
        | some first =>
          let s1 := s.zoneOpen c f zn first
          match find zn (s1.core c.core).zones with
          | some z => .next (answer s1 z.w0 (z.gen.setWidth 32))
          | none => .fault (.dangling "zone")
/-- The words of a handle pair. -/
def hpRegs (hp : BitVec 6) : List Nat := [2 * hp.toNat, 2 * hp.toNat + 1]
def RegFile.h0 (r : RegFile) (hp : BitVec 6) : Nat := r.sNat (2 * hp.toNat)
def RegFile.h1 (r : RegFile) (hp : BitVec 6) : Nat := r.sNat (2 * hp.toNat + 1)
/-- LZCLOSE (R292). -/
def execLzclose (sp : Bool) (hp : BitVec 6) (s : State) : Out :=
  onUniformS s sp (hpRegs hp) fun s c r =>
    match s.ownZone c (r.h0 hp) (r.h1 hp) with
    | none => .next (s.lzFault c)
    | some (zn, _) => .next (((s.setGroup c.g c.grp).zoneClose c.core zn).stepOn c sp)
/-- LZFREE (R296). -/
def execLzfree (sp : Bool) (hp : BitVec 6) (slot : BitVec 8) (s : State) : Out :=
  onUniformS s sp (hpRegs hp) fun s c r =>
    match s.ownZone c (r.h0 hp) (r.h1 hp) with
    | none => .next (s.lzFault c)
    | some (zn, z) =>
      match s.zoneSlot c.core zn z slot.toNat with
      | none => .next (s.lzFault c)
      | some (idx, sl) =>
        if sl.st == .free || SlotSt.isOpen sl.st then .next (s.lzFault c)
        else .next (((s.setGroup c.g c.grp).slotSet c.core zn z idx sl { sl with st := .free }).stepOn c sp)
/-- LZSTAT (R297). -/
def execLzstat (sp : Bool) (ds : BitVec 7) (sb : BitVec 3) (w : Bool) (hp : BitVec 6) (slot : BitVec 8)
    (s : State) : Out :=
  onUniformS s sp (hpRegs hp) fun s c r =>
    match s.ownZone c (r.h0 hp) (r.h1 hp) with
    | none => .next (s.lzFault c)
    | some (zn, z) =>
      match s.zoneSlot c.core zn z slot.toNat with
      | none => .next (s.lzFault c)
      | some (idx, sl) =>
        if !w || !(sl.st == .free || SlotSt.isOpen sl.st) then
          .next ((s.observeSlot c.core (sl.word sl.cause)).advance c (c.grp.setS ds.toNat (sl.word sl.cause)) c.trk sp 1)
        else if sbFull c.grp (some sb.toNat) then .next (s.holdStep c)
        else .next ((s.updCore c.core fun k => { k with
            slotWaits := k.slotWaits ++ [⟨idx, c.g, ds.toNat, sb.toNat⟩] }).advance c
          (c.grp.sbUp sb.toNat) c.trk sp 1)
/-- LZ_CLOSE_EXPIRY (R292, R295): 100 ms after the close. -/
def execLzCloseExpiry (core idx : Nat) (s : State) : Out :=
  match find idx (s.core core).slots with
  | none => off "LZ_CLOSE_EXPIRY"
  | some sl =>
    match find sl.zone (s.core core).zones with
    | some z =>
      match z.closing with
      | some t =>
        if SlotSt.isOpen sl.st ∧ t + 10000000 ≤ s.now then
          .next (s.slotSet core sl.zone z idx sl { sl with st := .cancelled, err := true, cause := 5 })
        else off "LZ_CLOSE_EXPIRY"
      | none => off "LZ_CLOSE_EXPIRY"
    | none => off "LZ_CLOSE_EXPIRY"

/-! ## Requests and their answers (R293, R294, R296, R453) -/

/-- A record of a core that names no group (R320). -/
def State.coreRec (s : State) (kind core : Nat) : FaultRec :=
  { FaultRec.blank kind with
    src := dieOf core + core % 24 * 8, cycle := (s.core core).cycle.toNat % 2 ^ 32 }
/-- A window-refused record of an initiator (R298, R320; log 22). -/
def State.refused (s : State) (core detail : Nat) (win : BitVec 16) (ofs : Nat) : State :=
  s.report { s.coreRec 0x2B core with
    addr := ofs, detail := detail, detail2 := s.pkg.toNat + win.toNat * 2 ^ 32 }
/-- An operation of the copy engine is over. -/
def State.endOp (s : State) (core id : Nat) : State :=
  s.updCore core fun k => { k with copyOps := k.copyOps.filter fun o => o.id != id }
/-- The request that an answer names is settled; a later answer is discarded (R453). -/
def State.dropReq (s : State) (id : Nat) : State := { s with reqs := s.reqs.filter fun r => r.id != id }
def State.req (s : State) (id : Nat) : Option Req := s.reqs.find? fun r => r.id == id
/-- The LZSEND stops being a member of its batch: it has completed or failed (R285). -/
def State.leaveBatch (s : State) (x : Send) : State :=
  let clear (r : CopyRec) : CopyRec := if r.id == x.id then { r with batch := none } else r
  State.settleBatches { s with
    sends := s.sends.map fun y => if y.id == x.id then { y with batch := none } else y
    cores := s.cores.map fun e => (e.1, { e.2 with
      copyOps := e.2.copyOps.map fun o => { o with r := clear o.r } }) } x.group
/-- Marks an LZSEND failed, with its copy-error record and its batch's error bit (R294, R317). -/
def State.failSend (s : State) (x : Send) (addr smask detail : Nat) (cancelled : Bool) : State :=
  if x.err then s
  else
    let s0 : State := { s with
      sends := s.sends.map fun y => if y.id == x.id then { y with err := true } else y }
    let s1 := s0.report { s.groupRec 0x29 x.group with
        flags := s.privFlag x.group + bits01 cancelled * 32, iaddr := x.iaddr, addr := addr, smask := smask
        detail := detail }
    (s1.batchErr x.group x.batch).leaveBatch x
/-- A packet of an LZSEND is answered, or will never be sent: at the last one the send is over (R293). -/
def State.packetOver (s : State) (id : Nat) : State :=
  match s.sends.find? fun x => x.id == id with
  | none => s
  | some x =>
    if x.left ≤ 1 then
      State.settleBatches { s with sends := s.sends.filter fun y => y.id != id } x.group
    else { s with sends := s.sends.map fun y => if y.id == id then { y with left := y.left - 1 } else y }
/-- Sends an abort for a slot, to be retried until it is acknowledged or 2 ms old (R294). -/
def State.abortSlot (s : State) (core : Nat) (slot : SlotRef) (cause : Nat) : State :=
  if slot.pkg ≠ s.pkg ∧ !s.enum.pkgValid then s
  else
    let (id, s1) := s.name
    State.post { s1 with reqs := s1.reqs ++ [⟨id, .lzabort cause (s.now + maxAge), core, 0, some slot,
      slot.pkg, 0, s.now⟩] } (dieOf core) (.pkg slot.pkg) (.lzAbort id slot cause s.pkg)
/-- What an initiator does with a request that receives no answer (R453). -/
def State.unanswered (s : State) (r : Req) : State :=
  match r.kind with
  | .wput win _ bytes => ((s.addCount win.toNat false bytes).refused r.core 1 win r.off).addErr win.toNat
  | .wget win _ op bytes => ((s.endOp r.core op).addCount win.toNat false bytes).refused r.core 1 win r.off
  | .lzrsv g ds sb =>
    let (w, s1) := s.statusWord 5 16
    (s1.putReg g .s ds (RegWord.of w)).sbFall g (some sb)
  | .lzsend id _ =>
    match s.sends.find? fun x => x.id == id with
    | none => s
    | some x =>
      let s1 := if x.err then s else s.abortSlot r.core x.slot 1
      (s1.failSend x 0 0 0 false).packetOver id
  | .lzcancel g sb => s.sbFall g (some sb)
  | .lzabort _ _ => s
  | .mcast win team bytes ack ms _ =>
    { s with
      reqs := s.reqs ++ [{ r with kind := .mcast win team bytes ack ms true }]
      net := s.net ++ [⟨.mcAck r.id 0, s.islDie (dieOf r.core), 0, .pkg s.pkg, 0, s.now, false⟩] }
/-- Sends a request; a package that is not assigned answers at once every request that it addresses to
another package (R453). -/
def State.ask (s : State) (r : Req) (m : Msg) : State :=
  if r.pkg ≠ s.pkg ∧ !s.enum.pkgValid then s.unanswered r
  else State.post { s with reqs := s.reqs ++ [r] } (dieOf r.core) (.pkg r.pkg) m
def ReqKind.timed : ReqKind → Bool
  | .lzabort _ _ => false
  | .mcast .. => false
  | _ => true
/-- REQUEST_TIMEOUT (R453): 4 ms after a request to another package was sent. -/
def execRequestTimeout (s : State) : Out :=
  match s.reqs[s.pick]? with
  | some r =>
    if ReqKind.timed r.kind ∧ r.pkg ≠ s.pkg ∧ r.since + 400000 ≤ s.now then
      .next (State.unanswered { s with reqs := dropNth s.pick s.reqs } r)
    else off "REQUEST_TIMEOUT"
  | none => off "REQUEST_TIMEOUT"

/-! ## Arrivals at a zone's core (R293, R295) -/

/-- The message that the schedule names, taken out of the net; none is delivered at an age of 2 ms (R372, R402). -/
def State.netTake (s : State) : Option (Flight × State) :=
  match s.net[s.pick]? with
  | some f => if s.expired f then none else some (f, { s with net := dropNth s.pick s.net })
  | none => none
/-- The partition of a team's grid. -/
def State.teamPart (s : State) (team : Nat) : Option (BitVec 16) :=
  match s.team team with
  | some t => (s.grid t.grid).map (·.part)
  | none => none
/-- The first FREE slot of a zone (R293). -/
def State.freeSlot (s : State) (core zn : Nat) (z : Zone) : Option (Nat × Nat × Slot) :=
  (List.range z.count).findSome? fun k =>
    match s.zoneSlot core zn z k with
    | some (idx, sl) => if sl.st = .free then some (k, idx, sl) else none
    | none => none
/-- A reservation at the zone's core: the grant's word (R293, R295). Where several refusals hold, 3, 2, 6, 4, 1 is the
order in which the model judges them (DESIGN CHOICE, log 68). -/
def State.reserve (s : State) (r : SlotRef) (len : Nat) (part : BitVec 16) : Word × State :=
  match s.zoneSeat r with
  | none => s.statusWord 3 16
  | some (core, zn, z) =>
    if z.closing.isSome then s.statusWord 3 16
    else if z.gen ≠ r.zgen then s.statusWord 2 16
    else if s.teamPart z.team ≠ some part then s.statusWord 6 16
    else if z.bytes < len then s.statusWord 4 16
    else match s.freeSlot core zn z with
      | none => s.statusWord 1 16
      | some (k, idx, sl) =>
        (BitVec.ofNat 32 (k + (sl.gen + 1).toNat * 256),
          s.slotSet core zn z idx sl ⟨zn, .reserved, sl.gen + 1, len, 0, false, 0⟩)
/-- LZRSV_REQUEST (R293). -/
def execLzrsvRequest (s : State) : Out :=
  match s.netTake with
  | some (⟨.lzReq req slot len part src, _, _, _, _, _, _⟩, s1) =>
    let (w, s2) := s1.reserve slot len part
    .next (s2.post (slot.die % 8) (.pkg src) (.lzRep req w))
  | _ => off "LZRSV_REQUEST"
/-- LZRSV_REPLY (R293). -/
def execLzrsvReply (s : State) : Out :=
  match s.netTake with
  | some (⟨.lzRep req w, _, _, _, _, _, _⟩, s1) =>
    match s1.req req with
    | some ⟨_, .lzrsv g ds sb, _, _, _, _, _, _⟩ =>
      .next (((s1.dropReq req).putReg g .s ds (RegWord.of w)).sbFall g (some sb))
    | _ => .next s1
  | _ => off "LZRSV_REPLY"
/-- Counts a dropped arrival, saturating (R295, R352). -/
def State.dropArrival (s : State) (r : SlotRef) : State :=
  let c := match s.zoneSeat r with
    | some (c, _, _) => c
    | none => SlotRef.coreNo r
  if s.liveCore c then s.updCore c fun k => { k with drops := satInc k.drops } else s
/-- The slot that an arrival names with current generations: core, zone number, zone, index, slot. -/
def State.slotSeat (s : State) (r : SlotRef) : Option (Nat × Nat × Zone × Nat × Slot) :=
  match s.zoneSeat r with
  | none => none
  | some (core, zn, z) =>
    if z.gen ≠ r.zgen then none
    else match s.zoneSlot core zn z r.slot with
      | some (idx, sl) => if sl.gen = r.sgen then some (core, zn, z, idx, sl) else none
      | none => none
/-- A packet at its slot: whether it is accepted (R295). -/
def State.packet (s : State) (r : SlotRef) (ofs : Nat) (data : List Byte) : Bool × State :=
  match s.slotSeat r with
  | none => (false, s.dropArrival r)
  | some (core, zn, z, idx, sl) =>
    let n := data.length
    if !SlotSt.isOpen sl.st then (false, s.dropArrival r)
    else if sl.expected < sl.arrived + n ∨ sl.expected < ofs + n then
      (false, s.slotSet core zn z idx sl { sl with st := .failed, err := true, cause := 4 })
    else
      let a := ((s.team z.team).map (·.base)).getD 0 + z.base + r.slot * z.bytes + ofs
      if (s.core core).fifoOverlap a n then
        (false, s.slotSet core zn z idx sl { sl with st := .failed, err := true, cause := 6 })
      else
        let m := sl.arrived + n
        (true, (s.scrWrite core a data).slotSet core zn z idx sl
          { sl with st := if m = sl.expected then .full else .filling, arrived := m })
/-- LZ_PACKET_ARRIVAL (R293, R295). -/
def execLzPacketArrival (s : State) : Out :=
  match s.netTake with
  | some (⟨.lzPacket req slot ofs data src, _, _, _, _, _, _⟩, s1) =>
    let (ok, s2) := s1.packet slot ofs data
    .next (s2.post (slot.die % 8) (.pkg src) (.lzAck req ok))
  | _ => off "LZ_PACKET_ARRIVAL"
/-- The answer to a packet at its sender (R293, R294): acknowledged bytes count at the sender's barrier. -/
def State.packetAnswered (s : State) (id bytes : Nat) (ok : Bool) : State :=
  match s.sends.find? fun x => x.id == id with
  | none => s
  | some x =>
    let s1 := if ok then
        match x.bar with
        | some b => s.barEvent x.team b (.bytes bytes)
        | none => s
      else s.failSend x 0 0 0 false
    s1.packetOver id
/-- LZ_ACKNOWLEDGEMENT (R293, R294): of a packet, or of an abort. -/
def execLzAcknowledgement (s : State) : Out :=
  match s.netTake with
  | some (⟨.lzAck req ok, _, _, _, _, _, _⟩, s1) =>
    match s1.req req with
    | some ⟨_, .lzsend id bytes, _, _, _, _, _, _⟩ => .next ((s1.dropReq req).packetAnswered id bytes ok)
    | _ => .next s1
  | some (⟨.lzAbortAck req, _, _, _, _, _, _⟩, s1) => .next (s1.dropReq req)
  | _ => off "LZ_ACKNOWLEDGEMENT"
/-- An abort at a slot (R294, R295). -/
def State.slotAbort (s : State) (r : SlotRef) (cause : Nat) : State :=
  match s.slotSeat r with
  | some (core, zn, z, idx, sl) =>
    if SlotSt.isOpen sl.st then
      s.slotSet core zn z idx sl { sl with st := .failed, err := true, cause := cause }
    else s
  | none => s
/-- LZ_ABORT (R294, R295). -/
def execLzAbort (s : State) : Out :=
  match s.netTake with
  | some (⟨.lzAbort req slot cause src, _, _, _, _, _, _⟩, s1) =>
    .next ((s1.slotAbort slot cause).post (slot.die % 8) (.pkg src) (.lzAbortAck req))
  | _ => off "LZ_ABORT"
/-- LZ_ABORT_RETRY (R294): the abort is sent again, or given up at 2 ms. -/
def execLzAbortRetry (s : State) : Out :=
  match s.reqs[s.pick]? with
  | some ⟨id, .lzabort cause til, core, _, some slot, pkg, _, _⟩ =>
    if til ≤ s.now then .next { s with reqs := dropNth s.pick s.reqs }
    else .next (s.post (dieOf core) (.pkg pkg) (.lzAbort id slot cause s.pkg))
  | _ => off "LZ_ABORT_RETRY"
/-- A cancel at a slot (R295). -/
def State.slotCancel (s : State) (r : SlotRef) : State :=
  match s.slotSeat r with
  | none => s.dropArrival r
  | some (core, zn, z, idx, sl) =>
    if SlotSt.isOpen sl.st then
      s.slotSet core zn z idx sl { sl with st := .cancelled, err := true, cause := 3 }
    else if sl.st = .failed then s.slotSet core zn z idx sl { sl with st := .free }
    else s
/-- LZ_CANCEL_ARRIVAL (R295, R296). -/
def execLzCancelArrival (s : State) : Out :=
  match s.netTake with
  | some (⟨.lzCancel req slot src, _, _, _, _, _, _⟩, s1) =>
    .next ((s1.slotCancel slot).post (slot.die % 8) (.pkg src) (.lzCancelAck req))
  | _ => off "LZ_CANCEL_ARRIVAL"
/-- LZ_CANCEL_ACK (R296). -/
def execLzCancelAck (s : State) : Out :=
  match s.netTake with
  | some (⟨.lzCancelAck req, _, _, _, _, _, _⟩, s1) =>
    match s1.req req with
    | some ⟨_, .lzcancel g sb, _, _, _, _, _, _⟩ => .next ((s1.dropReq req).sbFall g (some sb))
    | _ => .next s1
  | _ => off "LZ_CANCEL_ACK"

end Sys2Proof.Machine
end

