-- ==== Sys2Proof/Machine/Launch.lean ====
section
/-! DEFINITION. The life of a grid: taking and checking records (R307 to R309), collective partitions (R48), placement
and admission (R40 to R43, R219 to R221, R310, R311), the end of teams and grids (R312, R313). -/

namespace Sys2Proof.Machine

/-! ## Taking and checking (R307, R308) -/

/-- Live cores of a die mask. -/
def coresIn (m : BitVec 32) : Nat := ((List.range 25).filter fun p => m.getLsbD p).length
/-- The live cores of a grade, and the fewest and most on a die (R1). -/
def gradeCores (g : Byte) : Option (Nat × Nat × Nat) :=
  match g.toNat with
  | 0 => some (192, 24, 24)
  | 1 => some (176, 20, 24)
  | 2 => some (160, 18, 24)
  | _ => none
/-- The module meets its grade (R1, R14, R17): eight dies, their live cores, and every link, stack and slice. That a
boot whose verified map falls short of its grade fails is the model's choice (log 62). -/
def State.gradeMet (s : State) : Bool :=
  let e := s.enum
  let ns := e.coremask.map coresIn
  e.links == 0x3FF#10 && e.stackMask == List.replicate 8 3#2 && e.sliceMask == List.replicate 8 0xFFFF#16 &&
  ns.length == 8 && (match gradeCores e.grade with
    | some (n, lo, hi) => ns.sum == n && ns.all fun x => decide (lo ≤ x) && decide (x ≤ hi)
    | none => false)
/-- The cluster shapes of R25. -/
def shapeOk (r c : Nat) : Bool :=
  (decide (1 ≤ r) && decide (r ≤ 2) && decide (1 ≤ c) && decide (c ≤ 5)) || (r == 3 && c == 4) || (r == 4 && c == 3)
/-- Bytes of the save area (R306). -/
def saveBytes (g : Grid) : Nat := slotSize g * (g.gx * g.gy * g.gz * g.ngroups)
/-- A range of HBM lies within a partition's ranges (R344), by blocks of 1 GiB. -/
def Part.holdsRange (p : Part) (a n : Nat) : Bool :=
  decide ((a + n - 1) / 2 ^ 40 = a / 2 ^ 40) &&
  (List.range ((a + n - 1) / 2 ^ 30 - a / 2 ^ 30 + 1)).all fun i => p.holds ((a / 2 ^ 30 + i) * 2 ^ 30)
/-- The dies of a partition on this package, ascending. -/
def State.partDies (s : State) (pid : BitVec 16) : List Nat :=
  match s.part pid with
  | some p => (List.range 8).filter fun d => p.dies.getLsbD d
  | none => []
/-- The live cores of every rectangle of a shape on a die, by top-left position, each in member order (R16, R25, R41). -/
def State.rects (s : State) (d rows cols : Nat) : List (List Nat) :=
  let m := s.enum.coremask.getD d 0
  let live (p : Nat) : Bool := m.getLsbD p
  let logical (p : Nat) : Nat := 24 * d + ((List.range p).filter live).length
  (List.range (6 - rows)).flatMap fun r0 => (List.range (6 - cols)).filterMap fun c0 =>
    let ps := (List.range rows).flatMap fun r => (List.range cols).map fun c => 5 * (r0 + r) + c0 + c
    if ps.all live then some (ps.map logical) else none
/-- The checks of R308 against the queue's partition: the first that fails. -/
def State.recordCode (s : State) (g : Grid) (qpart : BitVec 16) : Nat :=
  let dies := s.partDies g.part
  let coll := g.collF
  if fld g.lanes 12 4 ≠ 0 ∨ g.shape 30 2 ≠ 0 ∨ fld (g.f 0x2C 32) 14 18 ≠ 0 ∨ fld g.arm 12 3 ≠ 0 ∨
      fld g.doneF 12 3 ≠ 0 ∨ fld coll 13 2 ≠ 0 ∨ g.shape 23 3 = 7 then 1
  else if !canonical g.kaddr ∨ g.kaddr % 8 ≠ 0 ∨ g.save % 4096 ≠ 0 ∨ g.notify % 8 ≠ 0 then 2
  else if g.gx = 0 ∨ g.gy = 0 ∨ g.gz = 0 ∨ g.lanes = 0 ∨ 2048 < g.lanes then 3
  else if !shapeOk g.rows g.cols ∨ g.gx % g.cols ≠ 0 ∨ g.gy % g.rows ≠ 0 then 4
  else if 8 < g.tilesDecl ∨ 128 < g.barsDecl ∨ g.banks * 65536 < g.scr then 5
  else if g.part ≠ qpart ∨ !((s.part g.part).map fun p => decide (g.save / 2 ^ 44 = 0) &&
      p.holdsRange g.save (saveBytes g)).getD false then 6
  else if coll.testBit 15 ∧ ((List.range 8).any fun d => coll.testBit d && !dies.contains d) ∨
      coll.testBit 15 ∧ (fld coll 8 5 = 0 ∨ 24 < fld coll 8 5) then 7
  else if 96 < g.ngroups * g.tilesDecl ∨ dies.all fun d => (s.rects d g.rows g.cols).isEmpty then 8
  else 0
/-- A grid as it is taken (R307 to R309). -/
def State.newGrid (s : State) (lrec : BitVec 512) (queue ring order : Nat) (qpart : BitVec 16) : Grid :=
  let g : Grid :=
    { lrec := lrec, queue := queue, ring := ring, order := order, st := .ready, reject := 0, next := 0,
      waitSince := s.now, firmware := false, skip := false, collWant := false, coll := [], ended := false }
  let code := s.recordCode g qpart
  if code ≠ 0 then { g with st := .rejected, reject := code }
  else { g with
    st := if g.arm.testBit 15 && look 0 (fld g.arm 0 12) s.depctr != 0 then .armed else .ready
    collWant := g.collF.testBit 15 }
/-- DISPATCH_TAKE (R307) from the queue that `pick` names. A posted record that cannot be read is not taken
(log 25). -/
def execDispatchTake (s : State) : Out :=
  let q := s.pick
  if q < 16384 ∧ s.boot.ready ∧ s.gradeMet ∧ s.wqOn q ∧ s.wqPosted q ≠ 0 ∧ s.grids.length < 4096 then
    let ring := s.wqHead q
    match s.devReach 0 (s.wqPart q) (s.wqSlot q ring) 64 false .device
        { s.dieRec 0 0 with queue := q, ridx := ring } with
    | (.wait, s1) => .next s1
    | (.fail _, s1) => .next s1
    | (.pa a, s1) =>
      let (id, s2) := s1.name
      let g := s2.newGrid (BitVec.ofNat 512 (s2.physNat a 64)) q ring id (s2.wqPart q)
      .next ((s2.setGrid id g).setWqHead q ((ring + 1) % 2 ^ 32))
  else off "DISPATCH_TAKE"

/-! ## What a core holds (R42, R43) -/

/-- The teams resident on a core, and the teams whose allocations it retains. -/
def State.teamsAt (s : State) (core : Nat) : List (Nat × Team) :=
  s.teams.filter fun t => t.2.core == core && t.2.phase == .running
def State.allocsAt (s : State) (core : Nat) : List (Nat × Team) :=
  s.teams.filter fun t => t.2.core == core && t.2.phase != .gone
/-- The core holds no team and retains no allocation. -/
def State.idleCore (s : State) (core : Nat) : Bool := (s.allocsAt core).isEmpty
/-- The carve-out that a core has applied, and the one that it has or is about to have (R219). -/
def Core.applied (k : Core) : Nat := fld k.carve.toNat 8 8
def Core.carveTo (k : Core) : Nat := k.carving.getD k.applied
/-- The lowest base of a free range of the scratchpad (R220). -/
def lowestBase (allocs : List (Nat × Nat)) (size limit : Nat) : Option Nat :=
  if size = 0 then some 0
  else
    let free (b : Nat) : Bool :=
      decide (b + size ≤ limit) && allocs.all fun a => a.2 == 0 || !overlap a.1 a.2 b size
    ((0 :: allocs.map fun a => (a.1 + a.2 + 255) / 256 * 256).filter free).foldl
      (fun best b => match best with
        | none => some b
        | some x => some (min x b)) none
/-- A track's resident groups and used register words (R43). -/
def State.trackLoad (s : State) (t : Nat) : Nat × Nat :=
  let sl := (s.track t).slots
  (sl.length, sl.foldl (fun n e => n + 32 * ((s.group e.2).bind fun g =>
    (s.grid g.grid).map (·.vcount)).getD 0) 0)
/-- The track for one group (R43): the fewest groups, then the lowest number. -/
def bindOne (words : Nat) (l : List (Nat × Nat)) : Option Nat :=
  (l.zipIdx.filter fun x => decide (x.1.1 < 8) && decide (x.1.2 + words ≤ 8192)).foldl
    (fun (b : Option (Nat × Nat)) x => match b with
      | none => some (x.1.1, x.2)
      | some y => if x.1.1 < y.1 then some (x.1.1, x.2) else b) none |>.map (·.2)
/-- The tracks for a number of groups, bound one at a time. -/
def bindMany (words : Nat) : Nat → List (Nat × Nat) → Option (List Nat)
  | 0, _ => some []
  | n + 1, l =>
    match bindOne words l with
    | none => none
    | some t => (bindMany words n (updNth t (fun x => (x.1 + 1, x.2 + words)) l)).map (t :: ·)
/-- The tracks of a core for a number of groups of a grid. -/
def State.tracksFor (s : State) (core : Nat) (g : Grid) (n : Nat) : Option (List Nat) :=
  (bindMany (32 * g.vcount) n ((List.range 128).map fun i => s.trackLoad (128 * core + i))).map fun l =>
    l.map (128 * core + ·)
/-- The core takes new teams of a grid: collective partitions (R48) and draining rectangles (R221). -/
def State.openTo (s : State) (core grid : Nat) (g : Grid) : Bool :=
  (match (s.core core).coll with
    | some k => k == grid
    | none => g.coll.isEmpty) &&
  match (s.die (dieOf core)).draining with
    | some d => !d.cores.contains core || (d.grid == grid && s.idleCore core)
    | none => true
/-- Whether a core admits a team of a grid, of which `bound` groups need tracks now (R42); `carve` says that the
carve-out counts. -/
def State.admits (s : State) (core grid : Nat) (g : Grid) (bound : Nat) (carve : Bool) : Bool :=
  let k := s.core core
  let ts := s.teamsAt core
  let idle := s.idleCore core
  s.liveCore core && s.openTo core grid g && decide (ts.length < 32) &&
  decide ((s.groupsOn core).length + bound ≤ 1024) && (s.tracksFor core g bound).isSome &&
  decide (bound * g.tilesDecl ≤ s.freeTiles core) &&
  decide (ts.foldl (fun n t => n + ((s.grid t.2.grid).map (·.barsDecl)).getD 0) 0 + g.barsDecl ≤ 128) &&
  (!carve || k.carveTo == g.banks || idle) &&
  (lowestBase ((s.allocsAt core).map fun t => (t.2.base, t.2.size)) g.scr (g.banks * 65536)).isSome

/-! ## Carve-outs (R219) -/

/-- Applies a carve-out to a core whose write-through buffer is drained: the lines of banks that leave cache mode, and
the contents of banks that leave scratchpad mode, go. -/
def Core.applyCarve (k : Core) (banks : Nat) : Core :=
  { k with
    cache := k.cache.filter fun e => decide (banks ≤ e.2.way)
    scratch := k.scratch.filter fun c => decide (c.1 < banks * 65536)
    carve := (k.carve &&& 0xFF#16) ||| BitVec.ofNat 16 (banks * 2 ^ 8)
    carving := none }
/-- A core sets out to apply a carve-out: at once, or when its write-through buffer is drained. -/
def Core.startCarve (k : Core) (banks : Nat) : Core :=
  if k.carveTo = banks then k
  else if k.wtb.isEmpty then k.applyCarve banks
  else { k with carving := some banks }

/-! ## Collective partitions (R48) -/

def GSt.waits (g : GSt) : Bool := g == .armed || g == .ready
/-- Every earlier grid of the queue has started placement (R310). -/
def State.startable (s : State) (g : Grid) : Bool :=
  !(s.grids.any fun e => e.2.queue == g.queue && decide (e.2.order < g.order) && e.2.st.waits)
def Core.marked (k : Core) : Bool := k.hot || k.avoided.isSome
/-- The cores that a request takes on a die: cores outside other partitions, those not hot or avoided first. -/
def State.collOn (s : State) (d n : Nat) : List Nat :=
  let free := (s.liveCores.filter fun c => dieOf c == d && (s.core c).coll.isNone)
  ((free.filter fun c => !(s.core c).marked) ++ free.filter fun c => (s.core c).marked).take n
/-- COLLECTIVE_SELECT (R48) for the grid that `pick` names. -/
def execCollectiveSelect (s : State) : Out :=
  match s.grid s.pick with
  | none => off "COLLECTIVE_SELECT"
  | some g =>
    let n := fld g.collF 8 5
    let dies := (List.range 8).filter fun d => g.collF.testBit d
    let cs := dies.flatMap fun d => s.collOn d n
    if g.st = .ready ∧ g.collWant ∧ g.coll.isEmpty ∧ s.startable g ∧ s.collHeld < 8 ∧ cs.length = n * dies.length ∧
        cs ≠ [] then
      .next ((cs.foldl (fun s c => s.updCore c fun k => { k with coll := some s.pick }) s).setGrid s.pick
        { g with coll := cs })
    else off "COLLECTIVE_SELECT"

/-! ## Placement (R41) -/

def Grid.clustersX (g : Grid) : Nat := g.gx / g.cols
def Grid.clustersY (g : Grid) : Nat := g.gy / g.rows
def Grid.clusters (g : Grid) : Nat := g.clustersX * g.clustersY * g.gz
/-- The grid may place a cluster, were there a rectangle (R48, R310, R314). -/
def State.mayPlace (s : State) (grid : Nat) (g : Grid) : Bool :=
  (g.st == .running || (g.st == .ready && s.startable g)) && decide (g.next < g.clusters) &&
  (!g.collWant || (!g.coll.isEmpty &&
    s.teams.all fun t => t.2.grid == grid || t.2.phase == .gone || !g.coll.contains t.2.core))
/-- The rectangle for a cluster among some dies: the fewest hot or avoided cores, then the lowest die and position. -/
def State.bestRect (s : State) (grid : Nat) (g : Grid) (dies : List Nat) (carve : Bool) : Option (List Nat) :=
  let bad (r : List Nat) : Nat := (r.filter fun c => (s.core c).marked).length
  (dies.flatMap fun d => (s.rects d g.rows g.cols).filter fun r =>
      r.all fun c => s.admits c grid g g.ngroups carve).foldl
    (fun (b : Option (List Nat)) r => match b with
      | none => some r
      | some x => if bad r < bad x then some r else b) none
def State.rectFor (s : State) (grid : Nat) (g : Grid) : Option (List Nat) :=
  s.bestRect grid g (s.partDies g.part) true
/-- The rank of a ready grid in its class: round-robin by queue number, then ring order (R40). Before
a class has served a queue the spec does not say where the round-robin starts: queue 0 is first (DESIGN CHOICE,
log 53). -/
def State.rrRank (s : State) (g : Grid) : Nat × Nat :=
  ((g.queue + 2 * 16385 - (look 16384 g.prio s.rr + 1)) % 16385, g.order)
/-- Grid a comes before grid b at the dispatcher (R40). -/
def State.before (s : State) (a b : Grid) : Bool :=
  let x := s.rrRank a
  let y := s.rrRank b
  decide (a.prio < b.prio) || (a.prio == b.prio && (decide (x.1 < y.1) || (x.1 == y.1 && decide (x.2 < y.2))))
/-- No ready grid that could be placed comes before this one (R40 stage 3). -/
def State.firstServed (s : State) (g : Grid) : Bool :=
  !(s.grids.any fun e => e.2.st == .ready && s.mayPlace e.1 e.2 && s.before e.2 g && (s.rectFor e.1 e.2).isSome)

/-- A team is waiting for a core (R219): a cluster that may be placed now would take it. -/
def State.awaited (s : State) (core : Nat) : Bool :=
  s.grids.any fun e => s.mayPlace e.1 e.2 && ((s.rectFor e.1 e.2).map fun r => r.contains core).getD false
/-- CARVE_OUT_APPLY (R219, R221) on the core that `pick` names: the carve-out whose application has begun; on an empty
core the carve-out that a draining rectangle waits for, else, while no team waits for the core, CARVEREQ bits 7:0. -/
def execCarveOutApply (s : State) : Out :=
  let core := s.pick
  let k := s.core core
  let drains := ((s.die (dieOf core)).draining.filter fun d => d.cores.contains core).bind fun d => s.grid d.grid
  let want := match drains with
    | some g => g.banks
    | none => k.carve.toNat % 256
  match k.carving with
  | some b =>
    if s.liveCore core ∧ k.wtb.isEmpty then .next (s.setCore core (k.applyCarve b)) else off "CARVE_OUT_APPLY: draining"
  | none =>
    if s.liveCore core ∧ s.idleCore core ∧ want ≠ k.applied ∧ (drains.isSome ∨ !s.awaited core) then
      .next (s.setCore core (k.startCarve want))
    else off "CARVE_OUT_APPLY"

/-! ## Admission (R24, R42, R43, R114, R164, R220, R311, R353) -/

/-- The lowest free group slot of a track. -/
def Track.freeSlot (k : Track) : Nat := ((List.range 8).find? fun i => (find i k.slots).isNone).getD 8
/-- Binds a group to a track. -/
def State.bindTo (s : State) (g t : Nat) : State :=
  (s.updTrack t fun k => { k with slots := ins k.freeSlot g k.slots }).updGroup g fun x => { x with track := t }
/-- Lanes of group `idx` of a team (R24). -/
def Grid.lanesIn (g : Grid) (idx : Nat) : Nat := min 32 (g.lanes - 32 * idx)
/-- A group at its start (R311). -/
def newGroup (g : Grid) (grid team idx track : Nat) : Group :=
  let lanes := below (g.lanesIn idx)
  let args := BitVec.ofNat 64 g.args
  { team := team, grid := grid, idx := idx, nlanes := g.lanesIn idx, track := track, v := [],
    s := put RegWord.zero 0 (RegWord.of (args.setWidth 32))
      (put RegWord.zero 1 (RegWord.of ((args >>> 32).setWidth 32)) []),
    k := put 0 0 lanes [], xc := [], f := [], amap := [], gang := 0, cursor := 0, fltstat := 0,
    trapvec := BitVec.ofNat 64 g.trapv, trapinfo := [],
    split := [(0, newFrag (BitVec.ofNat 57 g.kaddr) lanes (BitVec.allOnes 57) 0 none)],
    sb := [], batch := 0, batches := [], closed := 0, scopes := [], memq := [], matq := [], pendFaults := [],
    parity := false, resid := .bound, reason := 0, live := 0, since := 0, preempt := false, svc := none,
    kept := [], slotMat := [], mig := false, stopped := false }
/-- A named barrier at admission (R353). -/
def newBarrier (ngroups : Nat) : Barrier := ⟨ngroups, 0, 0, 0, .arr, false, false, false, false, false, false⟩
/-- A core takes a team's allocation and applies its carve-out; the allocation reads zero (R219, R220). -/
def Core.takeTeam (k : Core) (banks base size : Nat) : Core :=
  let k1 := k.startCarve banks
  { k1 with scratch := k1.scratch.filter fun c => decide (c.1 < base) || decide (base + size ≤ c.1) }
/-- Admits the member of a cluster to a core. -/
def State.admitTeam (s : State) (grid : Nat) (g : Grid) (member core : Nat) : State :=
  match lowestBase ((s.allocsAt core).map fun t => (t.2.base, t.2.size)) g.scr (g.banks * 65536),
    s.tracksFor core g g.ngroups with
  | some base, some tracks =>
    let id := s.nextId
    let cx := g.next % g.clustersX
    let cy := g.next / g.clustersX % g.clustersY
    let gs := (List.range g.ngroups).map (id + 1 + ·)
    let t : Team :=
      { grid := grid, cluster := g.next, member := member, x := cx * g.cols + member % g.cols,
        y := cy * g.rows + member / g.cols, z := g.next / (g.clustersX * g.clustersY), core := core,
        base := base, size := g.scr, groups := gs,
        bars := (List.range g.barsDecl).map fun i => (i, newBarrier g.ngroups),
        binding := ⟨0, 0, 0, 0⟩, phase := .running, migrate := none }
    let s1 := { (s.updCore core fun k => k.takeTeam g.banks base g.scr) with nextId := id + 1 + g.ngroups }
    let s2 := (s1.setTeam id t).acquire core (if g.arm.testBit 15 then .dev else .sys)
    (gs.zip tracks).zipIdx.foldl (fun s x =>
      (s.setGroup x.1.1 (newGroup g grid id x.2 x.1.2)).bindTo x.1.1 x.1.2) s2
  | _, _ => s
/-- Removes a grid's draining marks (R221). -/
def State.unmark (s : State) (grid : Nat) : State :=
  { s with dies := s.dies.map fun e =>
      (e.1, if (e.2.draining.map (·.grid)) = some grid then { e.2 with draining := none } else e.2) }
/-- Places a grid's next cluster on a rectangle. -/
def State.placeGrid (s : State) (grid : Nat) (g : Grid) (cores : List Nat) : State :=
  let s1 := cores.zipIdx.foldl (fun s x => s.admitTeam grid g x.2 x.1) s
  let s2 := (s1.unmark grid).setGrid grid { g with next := g.next + 1, st := .running, waitSince := s.now }
  if g.st = .ready then
    { s2 with
      rr := put 16384 g.prio g.queue s2.rr
      grids := s2.grids.map fun e => (e.1, if e.2.queue = g.queue ∧ e.2.st.waits then
        { e.2 with waitSince := s.now } else e.2) }
  else s2
/-- PLACE_CLUSTER (R41) of the grid that `pick` names. The spec gives no order between the waiting clusters of running
grids and the ready grids of the same or a higher class (R40): the schedule decides (DESIGN CHOICE, log 53). -/
def execPlaceCluster (s : State) : Out :=
  match s.grid s.pick with
  | none => off "PLACE_CLUSTER"
  | some g =>
    if s.mayPlace s.pick g ∧ (g.st = .running ∨ s.firstServed g) then
      match s.rectFor s.pick g with
      | some r => .next (s.placeGrid s.pick g r)
      | none => off "PLACE_CLUSTER: no rectangle qualifies"
    else off "PLACE_CLUSTER"
/-- DRAINING_MARK (R221) for the grid that `pick` names: 1 ms without a rectangle. -/
def execDrainingMark (s : State) : Out :=
  match s.grid s.pick with
  | none => off "DRAINING_MARK"
  | some g =>
    if s.mayPlace s.pick g ∧ g.waitSince + 100000 ≤ s.now ∧ (s.rectFor s.pick g).isNone ∧
        s.dies.all (fun e => (e.2.draining.map (·.grid)) != some s.pick) then
      match s.bestRect s.pick g ((s.partDies g.part).filter fun d => (s.die d).draining.isNone) false with
      | some r => .next (s.updDie (dieOf (r.headD 0)) fun d => { d with draining := some ⟨s.pick, r⟩ })
      | none => off "DRAINING_MARK: no rectangle"
    else off "DRAINING_MARK"

/-! ## The end of a team (R312) -/

/-- A group has no fragment left; a saved group of an aborted grid is discarded (R331). -/
def Group.over (g : Group) (aborted : Bool) : Bool :=
  match g.resid with
  | .bound => g.split.isEmpty
  | .saved | .ready => aborted || g.split.isEmpty
  | .dead => true
/-- A request whose answer belongs to a group of the team (R300, R312). -/
def ReqKind.ofTeam (k : ReqKind) (team : Nat) (gs : List Nat) : Bool :=
  match k with
  | .wput _ t _ => t == team
  | .wget _ t _ _ => t == team
  | .lzrsv g .. => gs.contains g
  | .lzcancel g _ => gs.contains g
  | .mcast _ t .. => t == team
  | _ => false
/-- Every record that the team's groups handed over has completed or failed: their rows of replay lists, and the slices
that they have requested, too. -/
def State.recordsDone (s : State) (team : Nat) (gs : List Nat) : Bool :=
  (gs.all fun g => match s.group g with
    | some x => x.memq.isEmpty && x.matq.isEmpty
    | none => true) &&
  (s.copyRecs.all fun r => !gs.contains r.group) && (s.copyOpsAll.all fun o => !gs.contains o.r.group) &&
  (s.cores.all fun e => (e.2.tiles.all fun t => t.2.replay.all fun r => !gs.contains r.group) &&
    e.2.adfills.all fun f => !gs.contains f.group) &&
  (s.sends.all fun x => !gs.contains x.group) && s.reqs.all fun r => !ReqKind.ofTeam r.kind team gs
/-- The requests of discarded parked groups that are not yet in the service ring go with their tickets (R331). -/
def State.dropRequests (s : State) (gs : List Nat) : State :=
  (s.svcWait.filter gs.contains).foldl (fun s g =>
    match (s.group g).bind (·.svc) with
    | some c => s.freeTicket c.ticket
    | none => s) { s with svcWait := s.svcWait.filter fun g => !gs.contains g }
/-- A group gives up its place on its track. -/
def State.unbind (s : State) (g : Nat) : State :=
  match s.group g with
  | some x => s.updTrack x.track fun k => { k with slots := k.slots.filter fun e => e.2 != g }
  | none => s
/-- The banks of a team's allocation return to scratchpad mode (R222). -/
def Core.clearFifos (k : Core) (base size : Nat) : Core :=
  { k with fifo := k.fifo.filter fun e => !overlap (e.1 * 65536) 65536 base size }
/-- A running grid whose last team has ended is Done (R313, R315). -/
def State.gridDoneNow (s : State) (grid : Nat) : State :=
  s.updGrid grid fun g =>
    if g.st == .running && decide (g.clusters ≤ g.next) &&
        s.teams.all (fun t => t.2.grid != grid || t.2.phase != .running) then { g with st := .done } else g
/-- The steps of R312 after the first. -/
def State.endTeam (s : State) (id : Nat) (t : Team) : State :=
  let s1 := t.groups.foldl (fun s g => (s.unbind g).updGroup g fun x => { x with
    resid := .dead, split := [], amap := [], preempt := false }) (s.dropRequests t.groups)
  let s2 := (s1.setTeam id { t with phase := .freed, bars := [], migrate := none }).sweepTiles t.core
  let open_ := (s2.core t.core).zones.filter fun e => e.2.used && e.2.isOpen && e.2.team == id
  let s3 := open_.foldl (fun s e => s.zoneClose t.core e.1) s2
  ((s3.updCore t.core fun k => k.clearFifos t.base t.size).allocFree id).gridDoneNow t.grid
/-- TEAM_END (R312) of the team that `pick` names. -/
def execTeamEnd (s : State) : Out :=
  match s.team s.pick with
  | none => off "TEAM_END"
  | some t =>
    let aborted := ((s.grid t.grid).map fun g => g.st == .aborted).getD false
    if t.phase = .running ∧ (t.groups.all fun g => ((s.group g).map fun x => x.over aborted).getD true) ∧
        s.recordsDone s.pick t.groups then .next (s.endTeam s.pick t)
    else off "TEAM_END"

/-! ## The end of a grid (R313) -/

/-- The state in which the grid ends, if it has come to its end. -/
def State.gridOver (s : State) (grid : Nat) (g : Grid) : Option GSt :=
  let teams := s.teams.any fun t => t.2.grid == grid && t.2.phase == .running
  match g.st with
  | .rejected => some .rejected
  | .done => some .done
  | .aborted => if teams then none else some .aborted
  | _ => none
/-- The release of R262 at system scope covers every group of the grid; the write-through buffers of its cores drain
whole (R223). -/
def State.gridReleased (s : State) (grid : Nat) : Bool :=
  let mine (g : Nat) : Bool := ((s.group g).map fun x => x.grid == grid).getD false
  (s.cores.all fun e => e.2.wtb.all fun w => !mine w.group) &&
  (s.teams.all fun t => t.2.grid != grid || (s.core t.2.core).wtb.isEmpty) && (s.hostPosted.all fun p => !mine p.1) &&
  s.nodePosted.all fun p => !mine p.1
/-- The completion word (R313). -/
def Grid.word (g : Grid) (st : GSt) : Nat :=
  (match st with
    | .rejected => 5
    | .aborted => 6
    | _ => 4) + g.reject * 2 ^ 8 + g.queue % 2 ^ 14 * 2 ^ 16 + g.ring * 2 ^ 32
/-- Step 2: the decrement of the grid's DONE counter. -/
def State.gridDone (s : State) (g : Grid) : State :=
  if g.doneF.testBit 15 && g.st != .rejected && !g.skip then s.depStep .dec (fld g.doneF 0 12) 1 else s
/-- Steps 4 and 5: the grid slot is freed, and its collective partition, if no allocation is left. -/
def State.freeGrid (s : State) (grid : Nat) : State :=
  State.releaseColl { s.unmark grid with
    grids := del grid s.grids
    groups := s.groups.filter fun e => e.2.grid != grid
    teams := s.teams.filter fun e => e.2.grid != grid || e.2.phase != .gone } grid
/-- GRID_END (R313) of the grid that `pick` names; while the completion word is parked (R229), the event occurs again. -/
def execGridEnd (s : State) : Out :=
  match s.grid s.pick with
  | none => off "GRID_END"
  | some g =>
    match s.gridOver s.pick g with
    | none => off "GRID_END"
    | some st =>
      if st ≠ .rejected ∧ !s.gridReleased s.pick then off "GRID_END: the release"
      else
        let s1 := if g.ended then s else
          (s.gridDone g).updGrid s.pick fun x => { x with st := st, ended := true }
        if g.notify = 0 then .next (s1.freeGrid s.pick)
        else
          let r := { s1.dieRec 0 0 with queue := g.queue, ridx := g.ring, addr := g.notify }
          match s1.devReach 0 g.part g.notify 8 true (.notify s.pick) r with
          | (.wait, s2) => .next s2
          | (.pa a, s2) => .next ((s2.physWrite a (leBytes 8 (g.word st))).freeGrid s.pick)
          | (.fail c, s2) => .next ((s2.report { r with
              kind := 0x14, flags := bits01 (c == 8) * 32, detail := c }).freeGrid s.pick)

end Sys2Proof.Machine
end

