-- ==== Sys2Proof/Machine/Matrix.lean ====
section
/-! DEFINITION. The matrix instructions: what they read, check and hand to the group's matrix queue (R184
to R188, R192 to R209). What the records then do is in MatrixUnit. -/

namespace Sys2Proof.Machine

/-! ## Hand-over (R184) -/

/-- Appends a record to the group's matrix queue; the scoreboard rises (R187). `issued` holds from
hand-over for a record with no rendezvous and no scratchpad reads (R186). -/
def State.enqueueMat (s : State) (c : Ctx) (grp : Group) (k : MatKind) (sb : Option Nat) (issued : Bool) :
    Group × State :=
  let (id, s1) := s.name
  let g1 := { grp with matq := grp.matq ++ [⟨id, k, c.iaddr, sb, issued, false⟩] }
  (match sb with
    | some i => g1.sbUp i
    | none => g1, s1)
/-- A uniform matrix instruction on s registers: `check` gives the fault kind and address of a failure
(R188), else one record is handed over. -/
def matUniform (s : State) (sp : Bool) (regs : List Nat) (sb : Option Nat) (issued : Bool)
    (check : Ctx → RegFile → Option (Nat × Nat)) (k : Ctx → RegFile → MatKind) : Out :=
  onUniformS s sp regs fun s c r =>
    match check c r with
    | some (kind, a) => .next ((s.setGroup c.g c.grp).precise c kind 0 none a 0)
    | none =>
      if sbFull c.grp sb then .next ((s.setGroup c.g c.grp).holdStep c)
      else
        let (g1, s1) := s.enqueueMat c c.grp (k c r) sb issued
        .next (s1.advance c g1 c.trk sp 1)
/-- The lanes of a per-lane matrix instruction, ascending: reads, then checks; the lane and fault kind of
the first that fails (R188). -/
def matLanes (reads : Nat → List (Bank × Nat)) (check : RegFile → Nat → Option Nat) :
    List Nat → RegFile → RegFile × Option (Nat × Nat)
  | [], r => (r, none)
  | i :: l, r =>
    let (r1, bad) := r.touchAll (reads i)
    if bad then (r1, some (i, 0x06))
    else match check r1 i with
      | some k => (r1, some (i, k))
      | none => matLanes reads check l r1
/-- A per-lane matrix instruction (R184): nothing with no active lane (R35); the s and f operands are read
at the first step, each lane's v operands at its own. -/
def matPerLane (s : State) (sp : Bool) (sb : Option Nat) (issued : Bool) (sregs : List Nat)
    (reads : Nat → List (Bank × Nat)) (first : Ctx → RegFile → Option Nat)
    (check : Ctx → RegFile → Nat → Option Nat) (k : Ctx → RegFile → List Nat → MatKind) : Out :=
  onTrack s fun c =>
    let ls := c.lanes
    match ls with
    | [] => .next (s.advance c c.grp c.trk sp 1)
    | i0 :: _ =>
      if sbFull c.grp sb then .next (s.holdStep c)
      else
        let reads' (i : Nat) := if i = i0 then sregs.map (fun n => (Bank.s, n)) ++ reads i else reads i
        let check' (r : RegFile) (i : Nat) : Option Nat :=
          match (if i = i0 then first c r else none) with
          | some x => some x
          | none => check c r i
        let (r, bad) := matLanes reads' check' ls (RegFile.of c.grp c.trk)
        let s1 := s.countErrors c r
        let grp := c.grp.withRegs r
        match bad with
        | some (i, kind) => .next ((s1.setGroup c.g grp).precise c kind i (some i) 0 0)
        | none =>
          let (g1, s2) := s1.enqueueMat c grp (k c r ls) sb issued
          .next (s2.advance c g1 c.trk sp (laneSteps ls.length))

/-! ## MMA and MMAD (R193 to R195) -/

def Group.freg (g : Group) (n : Nat) : BitVec 256 := look 0 n g.f
/-- Every byte of a line of K, and of its scales, lies within an allocation. -/
def lineFits (d : Desc) (size addr kc : Nat) : Bool :=
  (d.ranges addr kc).all fun x => decide (x.1 + x.2 ≤ size)
/-- The checks that no lane's values enter (R195). Block alignment (R104) follows from the 16-byte
alignment of every address and pitch. -/
def jointCheck (f : FmtX) (mmad : Bool) (c : Ctx) (r : RegFile) : Option Nat :=
  let fa := descOf (c.grp.freg f.fba.toNat)
  let fb := descOf (c.grp.freg f.fbb.toNat)
  let ab := r.sPair (2 * f.abase.toNat)
  let bb := r.sNat (2 * f.bbase.toNat)
  match chunkLen fa fb with
  | none => some 0x20
  | some kc =>
    if fa.valid && fb.valid && (!mmad || fa.fmt != 0) && ab % 16 == 0 && bb % 16 == 0 &&
        (!mmad || ab / 2 ^ 32 % 96 == 0) &&
        ((List.range (f.kch.toNat + 1)).all fun i => (List.range 64).all fun n =>
          lineFits fb c.team.size (fb.rowAddr n bb i) kc) then none
    else some 0x20
/-- The check of a lane's row (R195). -/
def rowCheck (f : FmtX) (c : Ctx) (r : RegFile) (i : Nat) : Option Nat :=
  let fa := descOf (c.grp.freg f.fba.toNat)
  let kc := (chunkLen fa (descOf (c.grp.freg f.fbb.toNat))).getD 0
  let x := r.value [(Bank.v, vkey f.idx.toNat i)]
  let ab := r.sNat (2 * f.abase.toNat)
  if (List.range (f.kch.toNat + 1)).all fun j => lineFits fa c.team.size (fa.rowAddr x ab j) kc then none
  else some 0x20
def runJoint (f : FmtX) (mmad : Bool) (s : State) : Out :=
  matPerLane s f.sp none false (regsFrom (2 * f.abase.toNat) 2 ++ regsFrom (2 * f.bbase.toNat) 2)
    (fun i => (Bank.v, vkey f.idx.toNat i) :: (if mmad then [(Bank.v, vkey f.adp.toNat i)] else []))
    (jointCheck f mmad) (rowCheck f) fun c r ls =>
      .joint f.acc.toNat ⟨mmad, f.z, c.grp.freg f.fba.toNat, c.grp.freg f.fbb.toNat,
        ls.map fun i => (i, (r.get .v (vkey f.idx.toNat i)).val,
          if mmad then (r.get .v (vkey f.adp.toNat i)).val.setWidth 16 else 0),
        BitVec.ofNat 64 (r.sPair (2 * f.abase.toNat)), BitVec.ofNat 64 (r.sPair (2 * f.bbase.toNat)),
        f.kch.toNat + 1, c.grp.gang⟩
/-- MMA (R193). -/
def execMma (f : FmtX) (s : State) : Out := runJoint f false s
/-- MMAD (R193). -/
def execMmad (f : FmtX) (s : State) : Out := runJoint f true s
/-- MMUP (R201). -/
def execMmup (sp : Bool) (acc : BitVec 3) (bbase : BitVec 7) (s : State) : Out :=
  let hi (r : RegFile) : Nat := r.sNat (2 * bbase.toNat + 1)
  matPerLane s sp none true (regsFrom (2 * bbase.toNat) 2) (fun _ => [])
    (fun _ r => if hi r % 64 = 0 then none else some 0x20) (fun _ _ _ => none)
    fun _ r ls => .up acc.toNat ls (hi r / 64)

/-! ## Descriptors, bindings (R192, R197, R203) -/

/-- FBSET (R192): the descriptor is written at hand-over, and a record takes its place in the queue (R184). -/
def execFbset (sp : Bool) (fr : BitVec 2) (sn : BitVec 7) (s : State) : Out :=
  let regs := regsFrom sn.toNat 8
  onUniformS s sp regs fun s c r =>
    let f := BitVec.ofNat 256 (r.value (regs.map fun n => (Bank.s, n)))
    if descOk f then
      let (g1, s1) := s.enqueueMat c { c.grp with f := put 0 fr.toNat (f ||| (1#256 <<< 31)) c.grp.f } .fbset none true
      .next (s1.advance c g1 c.trk sp 1)
    else .next ((s.setGroup c.g c.grp).precise c 0x20 0 none 0 0)
/-- ADSET (R197). -/
def execAdset (sp : Bool) (sn : BitVec 7) (s : State) : Out :=
  let n := sn.toNat
  matUniform s sp (regsFrom n 4) none true
    (fun _ r =>
      let t := r.sPair n
      if t % 64 = 0 ∧ t < 2 ^ 57 ∧ r.sNat (n + 3) < 2 ^ 16 then none else some (0x20, 0))
    fun _ r => .adset ⟨r.sPair n, fld (r.sNat (n + 2)) 0 16, BitVec.ofNat 16 (fld (r.sNat (n + 2)) 16 16),
      BitVec.ofNat 16 (r.sNat (n + 3))⟩
/-- ADINV (R203). -/
def execAdinv (sp : Bool) (all : Bool) (id : BitVec 16) (s : State) : Out :=
  matUniform s sp [] none true (fun _ _ => none) fun _ _ => .adinv all id.toNat none

/-! ## Tiles (R205 to R209) -/

/-- Bytes of an element of ACCLD and ACCST. -/
def TTy.bytes : TTy → Nat
  | .f32 => 4 | .bf16 => 2 | .f16 => 2 | .e4m3 => 1 | .e5m2 => 1
def TTy.fmt : TTy → FFmt
  | .f32 => Machine.f32 | .bf16 => Machine.bf16 | .f16 => Machine.f16 | .e4m3 => Machine.e4m3
  | .e5m2 => Machine.e5m2
/-- The checks of R206. -/
def tileCheck (f : FmtAcc) (c : Ctx) (r : RegFile) : Option (Nat × Nat) :=
  let base := r.sNat f.sn.toNat
  let p := f.pitch.toNat
  let n := 64 * TTy.bytes f.ty
  if base % 16 ≠ 0 ∨ p % 16 ≠ 0 ∨ p < n then some (0x20, 0)
  else if c.team.size < base + 31 * p + n then some (0x11, base) else none
def accSb (f : FmtAcc) : Option Nat := if f.sbe then some f.sb.toNat else none
/-- ACCLD (R206). -/
def execAccld (f : FmtAcc) (s : State) : Out :=
  matUniform s f.sp [f.sn.toNat] (accSb f) false (tileCheck f)
    fun _ r => .accld f.acc.toNat f.ty (r.sNat f.sn.toNat) f.pitch.toNat
/-- ACCST (R206). -/
def execAccst (f : FmtAcc) (s : State) : Out :=
  matUniform s f.sp [f.sn.toNat] (accSb f) true (tileCheck f)
    fun _ r => .accst f.acc.toNat f.ty f.sat (r.sNat f.sn.toNat) f.pitch.toNat
/-- ACCZ (R205). -/
def execAccz (sp : Bool) (acc : BitVec 3) (s : State) : Out :=
  matUniform s sp [] none true (fun _ _ => none) fun _ _ => .accz acc.toNat
/-- ACCMOV (R207). -/
def execAccmov (f : FmtAccmov) (s : State) : Out :=
  let w := Width.count f.w
  let words (i : Nat) : List (Bank × Nat) := (List.range w).map fun j => (Bank.v, vkey (f.vn.toNat + j) i)
  matPerLane s f.sp (if f.dir then none else some f.sb.toNat) true []
    (fun i => if f.dir then words i else []) (fun _ _ => none) (fun _ _ _ => none)
    fun _ r ls =>
      if f.dir then .accmovFrom f.acc.toNat w f.col.toNat (ls.map fun i => (i, (words i).map fun k => (r.get k.1 k.2).val))
      else .accmovTo f.acc.toNat f.vn.toNat w f.col.toNat ls
/-- ACCWAIT (R209). -/
def execAccwait (sp : Bool) (acc : BitVec 3) (all : Bool) (sb : BitVec 3) (s : State) : Out :=
  matUniform s sp [] (some sb.toNat) true (fun _ _ => none) fun _ _ => .accwait acc.toNat all
/-- The check of a vector of ACCSCL (R208). -/
def vecCheck (size n a : Nat) : Option (Nat × Nat) :=
  if a % 4 ≠ 0 then some (0x20, 0) else if size < a + 4 * n then some (0x11, a) else none
/-- ACCSCL (R208). Only the vectors that SC and BI use are checked; the spec says each vector is checked and does not
say whether it means one that is not read (DESIGN CHOICE, log 59). -/
def execAccscl (f : FmtAccscl) (s : State) : Out :=
  let n := if f.ax then 64 else 32
  let m := f.sn.toNat
  matUniform s f.sp [m, m + 1] none false
    (fun c r =>
      match (if f.sc then vecCheck c.team.size n (r.sNat m) else none) with
      | some x => some x
      | none => if f.bi then vecCheck c.team.size n (r.sNat (m + 1)) else none)
    fun _ r => .accscl f.acc.toNat f.ax f.sc f.bi (r.sNat m) (r.sNat (m + 1))

end Sys2Proof.Machine
end

