-- ==== Sys2Proof/Machine/MatrixUnit.lean ====
section
/-! DEFINITION. The rendezvous latch, the matrix unit and the records of the matrix queues (R185, R189,
R190, R194 to R211). -/

namespace Sys2Proof.Machine

/-! ## The head of a queue (R185) -/

def MatRec.isJoint (r : MatRec) : Bool := r.kind matches .joint ..
/-- The record at the head of a group's queue: the first that is not an operation in the unit. -/
def Group.matHead (g : Group) : Option MatRec := g.matq.find? fun r => !(r.started && r.isJoint)
/-- Where a group's records take effect: it lies on its core. -/
def Group.onCore (g : Group) : Bool := g.resid == .bound
/-- Takes a record out; its scoreboard falls (R187). -/
def State.matEnd (s : State) (g : Nat) (r : MatRec) : State :=
  (s.updGroup g fun x => { x with matq := x.matq.filter fun q => q.id != r.id }).sbFall g r.sb
def State.updMat (s : State) (g id : Nat) (f : MatRec → MatRec) : State :=
  s.updGroup g fun x => { x with matq := x.matq.map fun r => if r.id == id then f r else r }
/-- The tile that a record writes. -/
def MatKind.target : MatKind → Option Nat
  | .joint a _ => some a
  | .up a _ _ => some a
  | .accld a _ _ _ => some a
  | .accz a => some a
  | .accmovTo .. => none
  | .accmovFrom a _ _ _ => some a
  | .accscl a _ _ _ _ _ => some a
  | .accst .. => none
  | .accwait .. => none
  | .fbset => none
  | .adset _ => none
  | .adinv .. => none
/-- What a record needs of the machine. -/
structure MatCtx where
  g : Nat
  grp : Group
  team : Team
  grid : Grid
  core : Nat
  r : MatRec
def State.matCtx (s : State) (g : Nat) : Option MatCtx :=
  match s.group g with
  | none => none
  | some grp =>
    match s.team grp.team, s.grid grp.grid, grp.matHead with
    | some tm, some gd, some r => if grp.onCore then some ⟨g, grp, tm, gd, coreOf grp.track, r⟩ else none
    | _, _, _ => none
/-- The earlier accesses of the group let scratchpad ranges be read or written (R186, R245, R246). -/
def State.matClear (s : State) (c : MatCtx) (rs : List (Nat × Nat)) : Bool :=
  let earlier := c.grp.memq.filter fun q => decide (q.id < c.r.id)
  !(earlier.any fun q => q.acquires && q.undone) &&
    rs.all fun x => !s.holdsBack c.core c.grid.part c.team earlier ⟨.scratch, x.1, x.2⟩
/-- Reads scratchpad bytes at a team offset. A bank in FIFO mode gives its bytes without a fault: R222 names ACCST alone
of the matrix records (DESIGN CHOICE, log 44). -/
def State.teamRead (s : State) (core : Nat) (t : Team) (a n : Nat) : List Byte := s.scrRead core (t.base + a) n

/-! ## Joint issue (R189, R190, R194, R195, R200) -/

/-- The groups that a joint record's gang lists, by position; alone with %gang 0. -/
def gangOf (t : Team) (g : Nat) (gang : DWord) : List Nat :=
  if gang = 0 then [g] else (gangMembers gang.toNat).map fun i => t.groups.getD i g
/-- %gang without the position. -/
def gangKey (gang : DWord) : Nat := gang.toNat - fld gang.toNat 39 3 * 2 ^ 39
/-- The joint record at the head of a group's queue. -/
def State.jointHead (s : State) (g : Nat) : Option (MatCtx × Nat × JointOp) :=
  match s.matCtx g with
  | none => none
  | some c => match c.r.kind with
    | .joint a j => some (c, a, j)
    | _ => none
/-- A member has exited without a joint record in its queue (R190); one whose queue still holds an unissued joint record
does not count as exited (DESIGN CHOICE, log 44). -/
def State.gangGone (s : State) (g : Nat) : Bool :=
  match s.group g with
  | none => true
  | some x => x.split.isEmpty && !(x.matq.any fun r => r.isJoint && !r.started)
/-- Every member's record agrees (R190). -/
def jointAgree (l : List (MatCtx × Nat × JointOp)) : Bool :=
  match l with
  | [] => true
  | (c0, _, j0) :: _ =>
    (l.all fun x => x.1.r.iaddr == c0.r.iaddr && gangKey x.2.2.gang == gangKey j0.gang &&
      x.2.2.abase == j0.abase && x.2.2.bbase == j0.bbase && x.2.2.fa == j0.fa && x.2.2.fb == j0.fb) &&
    (let ps := l.map fun x => fld x.2.2.gang.toNat 39 3
     decide (ps.eraseDups.length = ps.length))
/-- Discards the queued records of a group and flags their targets (R190). -/
def State.discardMat (s : State) (core g : Nat) : State :=
  match s.group g with
  | none => s
  | some x =>
    (x.matq.filter fun r => !r.started).foldl (fun s r =>
      let s1 := match r.kind.target with
        | some a => s.setFlag core g a
        | none => s
      s1.matEnd g r) s
/-- The gang-divergence fault of every member that waits in the latch (R190). -/
def State.diverge (s : State) (l : List (MatCtx × Nat × JointOp)) : State :=
  l.foldl (fun s x => (s.discardMat x.1.core x.1.g).matFault x.1.g 0x22 x.1.r.iaddr 0 0) s
/-- The check of a member's rows at issue (R195): an id above COUNT, or one that differs from a nonzero id
already recorded for its tile row (none after a fresh start). -/
def State.rowsBad (s : State) (x : MatCtx × Nat × JointOp) : Bool :=
  let recorded (row : Nat) : Nat := if x.2.2.z then 0 else
    match x.1.grp.phys x.2.1 with
    | some p => (s.tile x.1.core p).rowId row
    | none => 0
  x.2.2.rows.any fun r =>
    let id := r.2.2.toNat
    id != 0 && (decide (x.1.team.binding.count < id) || (recorded r.1 != 0 && recorded r.1 != id))
/-- The scratchpad ranges that a joint record reads. -/
def jointRanges (j : JointOp) (kc : Nat) : List (Nat × Nat) :=
  let fa := descOf j.fa
  let fb := descOf j.fb
  (List.range j.kch).flatMap fun i =>
    (j.rows.flatMap fun r => fa.ranges (fa.rowAddr r.2.1.toNat (fld j.abase.toNat 0 32) i) kc) ++
    (List.range 64).flatMap fun n => fb.ranges (fb.rowAddr n (fld j.bbase.toNat 0 32) i) kc
/-- Looks up the D blocks of a row's chunks (R200): which chunks hit, before the row is in the replay
list, with the entries they pin; each is a use of its entry (R199). -/
def Core.rowHits (k : Core) (b : AdBind) (id kc : Nat) : List Nat → Bool → List Bool × List Nat × Core
  | [], _ => ([], [], k)
  | kidx :: l, pend =>
    let ns := (ReplayTerm.mk b id (.rank kidx (List.replicate kc .nan)) 0 []).needs
    let es := ns.filterMap fun n => k.adHit b id n
    let hit := !pend && es.length == ns.length
    let (hs, us, k1) := (if hit then es.foldl (fun k e => k.adTouch e.name) k else k).rowHits b id kc l (!hit)
    (hit :: hs, (if hit then es.map (·.name) else []) ++ us, k1)
/-- A row of a member as it issues: its A elements; for a row with an adapter, its hits, its recorded id,
and the terms that go to the replay list with the reads they miss. -/
def State.issueRow (s : State) (m : MatCtx) (acc : Nat) (j : JointOp) (b : AdBind) (p kc : Nat)
    (r : Nat × Word × BitVec 16) : MatRow × List Nat × State :=
  let fa := descOf j.fa
  let a := (List.range j.kch).map fun i =>
    fa.els (s.teamRead m.core m.team) (fa.rowAddr r.2.1.toNat (fld j.abase.toNat 0 32) i) kc
  let id := if j.mmad then r.2.2.toNat else 0
  if id = 0 then (⟨r.1, 0, a, List.replicate j.kch true⟩, [], s)
  else
    let k0 := j.abase.toNat / 2 ^ 32
    let ks := (List.range j.kch).map fun i => k0 + i * kc
    let t := s.tile m.core p
    let (hits, uses, k) := (s.core m.core).rowHits b id kc ks (t.pending r.1)
    let s1 := (s.setCore m.core k).setTile m.core p { t with rowIds := put 0 r.1 (BitVec.ofNat 16 id) t.rowIds }
    let s2 := ((ks.zip a).zip hits).foldl (fun s x =>
      if x.2 then s
      else
        let term : ReplayTerm := ⟨b, id, .rank x.1.1 x.1.2, m.r.iaddr, []⟩
        (s.addTerm m.core p m.g acc r.1 term).fetchNeeds m.core m.grid.part m.g m.r.iaddr b id term.needs) s1
    (⟨r.1, id, a, hits⟩, uses, s2)
def State.issueRows (s : State) (m : MatCtx) (acc : Nat) (j : JointOp) (b : AdBind) (p kc : Nat) :
    List (Nat × Word × BitVec 16) → List MatRow × List Nat × State
  | [] => ([], [], s)
  | r :: l =>
    let (x, u, s1) := s.issueRow m acc j b p kc r
    let (xs, us, s2) := s1.issueRows m acc j b p kc l
    (x :: xs, u ++ us, s2)
/-- The members of a joint operation issue in turn: each tile is made fresh or mapped (R182, R183). None
while a fresh start must wait. -/
def State.issueMembers (s : State) (kc : Nat) :
    List (MatCtx × Nat × JointOp) → Option (List MatMem × List Nat × State)
  | [] => some ([], [], s)
  | (m, acc, j) :: l =>
    match (if j.z then s.freshStart m.core m.g acc else some (s.mapped m.core m.g acc)) with
    | none => none
    | some s1 =>
      match s1.physOf m.g acc with
      | none => none
      | some p =>
        let (rows, us, s2) := s1.issueRows m acc j m.team.binding p kc j.rows
        let s3 := s2.updMat m.g m.r.id fun r => { r with started := true, issued := true }
        match s3.issueMembers kc l with
        | none => none
        | some (ms, us', s4) => some (⟨m.g, m.r.id, m.r.iaddr, acc, p, rows⟩ :: ms, us ++ us', s4)
/-- The operation issues (R190): where a member's rows fail a check, every member raises the imprecise matrix-operand
fault and its tile is flagged (R188, R195, R431); else the operands are read (R186) and the operation joins the unit's
queue (R196). None while it must wait. -/
def State.issueJoint (s : State) (l : List (MatCtx × Nat × JointOp)) : Option State :=
  match l with
  | [] => none
  | (c0, _, j0) :: _ =>
    let fb := descOf j0.fb
    let kc := (chunkLen (descOf j0.fa) fb).getD 0
    if !(l.all fun x => s.matClear x.1 (jointRanges x.2.2 kc)) then none
    else
      if l.any s.rowsBad then
        some (l.foldl (fun s x =>
          ((s.setFlag x.1.core x.1.g x.2.1).matEnd x.1.g x.1.r).matFault x.1.g 0x21 x.1.r.iaddr 0 0) s)
      else
        match s.issueMembers kc l with
        | none => none
        | some (ms, us, s1) =>
          let b := (List.range j0.kch).map fun i => (List.range 64).map fun n =>
            fb.els (s.teamRead c0.core c0.team) (fb.rowAddr n (fld j0.bbase.toNat 0 32) i) kc
          some (s1.updCore c0.core fun k => { k with
            matUnit := k.matUnit ++ [⟨ms, b, j0.abase.toNat / 2 ^ 32, kc, c0.team.binding, us.eraseDups⟩] })
/-- The latch of the gang that a group's head joint record names. -/
def State.rendezvous (s : State) (g : Nat) : Option State :=
  match s.jointHead g with
  | none => none
  | some (c, _, j) =>
    let ms := gangOf c.team g j.gang
    let l := ms.filterMap s.jointHead
    if l.length = ms.length then
      if jointAgree l then s.issueJoint l else some (s.diverge l)
    else if ms.any s.gangGone then some (s.diverge l)
    else none
/-- RENDEZVOUS_ISSUE (R190): the group that `pick` names. -/
def execRendezvousIssue (s : State) : Out :=
  match s.rendezvous s.pick with
  | some t => .next t
  | none => off "RENDEZVOUS_ISSUE"

/-! ## MATRIX_CHUNK (R107, R109, R196) -/

/-- A row has a term of MMUP pending: a later base product comes after it (R110). -/
def Tile.upPending (t : Tile) (row : Nat) : Bool :=
  t.replay.any fun r => r.row == row && r.terms.any fun x => x.k matches .up _
/-- A base product goes to the end of a row's pending terms. -/
def Tile.appendBase (t : Tile) (row : Nat) (x : ReplayTerm) : Tile :=
  { t with replay := t.replay.map fun r => if r.row = row then { r with terms := r.terms ++ [x] } else r }
/-- One chunk of a row: the base product over the 64 columns, behind a pending term of MMUP (R110), and its rank terms if
they hit. -/
def chunkRow (k : Core) (o : MatOp) (cols : List (List El)) (iaddr : Nat) (w : TileWork) (r : MatRow) : TileWork :=
  let a := r.a.headD []
  let w1 := if w.tile.upPending r.row then
      { w with tile := w.tile.appendBase r.row ⟨o.bind, r.id, .base a cols, iaddr, []⟩ }
    else baseTerm a cols r.row w
  if r.id ≠ 0 ∧ r.hits.headD false = true then
    rankTerm k o.uses o.bind r.id r.row w1 o.kidx (subBlocks (a.length / 32) a)
  else w1
def MatRow.next (r : MatRow) : MatRow := { r with a := r.a.drop 1, hits := r.hits.drop 1 }
def MatOp.next (o : MatOp) : MatOp :=
  { o with
    members := o.members.map fun m => { m with rows := m.rows.map (·.next) }
    b := o.b.drop 1
    kidx := o.kidx + o.kc }
/-- The unit finishes one chunk of the operation at the head of its queue. -/
def State.matChunk (s : State) (core : Nat) (o : MatOp) (rest : List MatOp) : State :=
  let cols := o.b.headD []
  let s1 := o.members.foldl (fun s m =>
    s.tileDone core m.group m.acc m.tile m.iaddr
      (m.rows.foldl (chunkRow (s.core core) o cols m.iaddr) (TileWork.of (s.tile core m.tile)))) s
  if 1 < o.b.length then s1.updCore core fun k => { k with matUnit := o.next :: rest }
  else
    (o.members.foldl (fun s m => match (s.group m.group).bind fun x => x.matq.find? fun r => r.id == m.mrec with
      | some r => s.matEnd m.group r
      | none => s) (s1.updCore core fun k => { k with matUnit := rest })).driveTiles core
/-- MATRIX_CHUNK (R196): the core that `pick` names. -/
def execMatrixChunk (s : State) : Out :=
  match (s.core s.pick).matUnit with
  | o :: rest => .next (s.matChunk s.pick o rest)
  | [] => off "MATRIX_CHUNK"

/-! ## MATRIX_RECORD_HEAD (R185) -/

/-- The tile-error fault of a reading record: it does nothing else (R206, R207, R209). -/
def State.tileError (s : State) (c : MatCtx) : State :=
  (s.matEnd c.g c.r).matFault c.g 0x25 c.r.iaddr 0 0
/-- MMUP (R201): each active lane's row in turn. A recorded id is not checked against the COUNT of the binding now in
force, which R195 checks at a joint issue alone (DESIGN CHOICE, log 44). -/
def State.upRows (s : State) (c : MatCtx) (acc p nblk : Nat) : List Nat → State
  | [] => s
  | i :: l =>
    let t := s.tile c.core p
    let id := t.rowId i
    let b := c.team.binding
    if id = 0 then s.upRows c acc p nblk l
    else
      let term : ReplayTerm := ⟨b, id, .up nblk, c.r.iaddr, []⟩
      match (if t.pending i then none else (s.core c.core).adHit b id (1, nblk)) with
      | some e =>
        let (x, s1) := s.draw
        let k := (s1.core c.core).adTouch e.name
        (((s1.setCore c.core k).tileDone c.core c.g acc p c.r.iaddr
          (upTerm k [e.name] b id i nblk x (TileWork.of t))).upRows c acc p nblk l)
      | none =>
        ((s.addTerm c.core p c.g acc i term).fetchNeeds c.core c.grid.part c.g c.r.iaddr b id term.needs).upRows
          c acc p nblk l
/-- The address of element (m, n) of a tile in scratchpad (R206), as rows of 64. -/
def tileRows (base pitch es : Nat) : List (Nat × Nat) :=
  (List.range 32).map fun m => (base + m * pitch, 64 * es)
/-- Loads every element of a tile (R206). -/
def loadTile (ty : TTy) (rd : Nat → List Byte) (base pitch : Nat) : Tile :=
  let es := TTy.bytes ty
  (List.range 32).foldl (fun t m =>
    let x := leNat (rd (base + m * pitch))
    (List.range 64).foldl (fun t n =>
      t.setEl m n (rne32 (fread (TTy.fmt ty) false (fld x (8 * es * n) (8 * es)))).toNat) t) Tile.start
/-- Reads every element of a tile, rows ascending. -/
def TileWork.readAll (w : TileWork) : List (Nat × Nat) → List RegWord × TileWork
  | [] => ([], w)
  | (m, n) :: l =>
    let (x, w1) := w.readEl m n
    let (xs, w2) := w1.readAll l
    (x :: xs, w2)
def allEls : List (Nat × Nat) := (List.range 32).flatMap fun m => (List.range 64).map fun n => (m, n)
/-- ACCST (R206): all of its stores, or none where an element is poisoned or a bank is in FIFO mode. -/
def State.storeTile (s : State) (c : MatCtx) (acc p : Nat) (ty : TTy) (sat : Bool) (base pitch : Nat) : State :=
  let es := TTy.bytes ty
  let (xs, w) := (TileWork.of (s.tile c.core p)).readAll allEls
  let s1 := s.tileDone c.core c.g acc p c.r.iaddr w
  if !w.bad.isEmpty then s1.matEnd c.g c.r
  else if (tileRows base pitch es).any fun x => (s1.core c.core).fifoTouch (c.team.base + x.1) x.2 then
    (s1.matEnd c.g c.r).matFault c.g 0x12 c.r.iaddr 0 0
  else
    let bytes (x : RegWord) : List Byte :=
      leBytes es (fround (TTy.fmt ty) .rne sat false (fread f32 false x.val.toNat))
    ((List.range 32).foldl (fun s m => s.scrWrite c.core (c.team.base + base + m * pitch)
      (((xs.drop (64 * m)).take 64).flatMap bytes)) s1).matEnd c.g c.r
/-- ACCMOV to lanes (R207): bit for bit, a poisoned element with its poison bit (R211). -/
def State.moveTo (s : State) (c : MatCtx) (acc p vn w col : Nat) (lanes : List Nat) : State :=
  let cells := lanes.flatMap fun i => (List.range w).map fun j => (i, j)
  let (xs, wk) := (TileWork.of (s.tile c.core p)).readAll (cells.map fun x => (x.1, col + x.2))
  let s1 := s.tileDone c.core c.g acc p c.r.iaddr wk
  ((cells.zip xs).foldl (fun s x => s.putReg c.g .v (vkey (vn + x.1.2) x.1.1) x.2) s1).matEnd c.g c.r
/-- ACCSCL (R208). -/
def State.scaleTile (s : State) (c : MatCtx) (acc p : Nat) (col sc bi : Bool) (sb bb : Nat) : State :=
  let vec (a i : Nat) : El := fread f32 false (leNat (s.teamRead c.core c.team (a + 4 * i) 4))
  let w := allEls.foldl (fun w e =>
    let i := if col then e.2 else e.1
    w.accEl (fun x =>
      let a := fread f32 false x
      let y := if sc then a.mul (vec sb i) else a
      (rne32 (if bi then y.add .rne (vec bb i) else y)).toNat) e.1 e.2) (TileWork.of (s.tile c.core p))
  (s.tileDone c.core c.g acc p c.r.iaddr w).matEnd c.g c.r
/-- The entries that ADINV names (R203). -/
def AdEntry.named (e : AdEntry) (h : BitVec 16) (all : Bool) (id : Nat) : Bool :=
  e.handle == h && (all || e.id == id)
/-- ADINV (R203): the entries of the current handle stop hitting; the record completes when nothing pins
them. -/
def State.adInv (s : State) (c : MatCtx) (all : Bool) (id : Nat) (begun : Option (BitVec 16)) : Option State :=
  let h := begun.getD c.team.binding.handle
  let s1 := if begun.isSome then s else s.updCore c.core fun k =>
    { k with adcache := k.adcache.map fun e => if e.named h all id then { e with stale := true } else e }
  let s2 := s1.updCore c.core fun k => { k with adcache := k.adcache.filter fun e => !e.stale || k.pinned e.name }
  if (s2.core c.core).adcache.any fun e => e.stale && e.named h all id then
    (if begun.isSome then none
     else some (s2.updMat c.g c.r.id fun r => { r with kind := .adinv all id (some h), started := true }))
  else some (s2.matEnd c.g c.r)
/-- Every record before the head has finished, and every tile of the group is readable (R209). -/
def State.allReadable (s : State) (c : MatCtx) : Bool :=
  (c.grp.matq.head?.map (·.id)) == some c.r.id && c.grp.amap.all fun m => s.readable c.core c.g m.1
/-- The effect of a record at the head of its queue; none while it must wait. -/
def State.matHeadStep (s : State) (c : MatCtx) : Option State :=
  match c.r.kind with
  | .joint .. => none
  | .up acc lanes nblk =>
    match s.physOf c.g acc with
    | none => some (s.matEnd c.g c.r)
    | some p => if s.inFlight c.core p then none else some ((s.upRows c acc p nblk lanes).matEnd c.g c.r)
  | .fbset => some (s.matEnd c.g c.r)
  | .adset b => some ((s.updTeam c.grp.team fun t => { t with binding := b }).matEnd c.g c.r)
  | .accld acc ty base pitch =>
    if !s.matClear c (tileRows base pitch (TTy.bytes ty)) then none
    else match s.freshStart c.core c.g acc with
      | none => none
      | some s1 => match s1.physOf c.g acc with
        | none => none
        | some p => some ((s1.setTile c.core p (loadTile ty
            (fun a => s1.teamRead c.core c.team a (64 * TTy.bytes ty)) base pitch)).matEnd c.g c.r)
  | .accz acc => (s.freshStart c.core c.g acc).map fun s1 => s1.matEnd c.g c.r
  | .accst acc ty sat base pitch =>
    if !s.readable c.core c.g acc || !s.matClear c (tileRows base pitch (TTy.bytes ty)) then none
    else if s.flagged c.core c.g acc then some (s.tileError c)
    else
      let s1 := s.mapped c.core c.g acc
      (s1.physOf c.g acc).map fun p => s1.storeTile c acc p ty sat base pitch
  | .accmovTo acc vn w col lanes =>
    if !s.readable c.core c.g acc then none
    else if s.flagged c.core c.g acc then some (s.tileError c)
    else
      let s1 := s.mapped c.core c.g acc
      (s1.physOf c.g acc).map fun p => s1.moveTo c acc p vn w col lanes
  | .accmovFrom acc _ col rows =>
    if !s.readable c.core c.g acc then none
    else
      let s1 := s.mapped c.core c.g acc
      (s1.physOf c.g acc).map fun p =>
        (s1.setTile c.core p (rows.foldl (fun t r => r.2.zipIdx.foldl (fun t x =>
          t.setEl r.1 (col + x.2) x.1.toNat) t) (s1.tile c.core p))).matEnd c.g c.r
  | .accwait acc all =>
    if all then
      if !s.allReadable c then none
      else if c.grp.amap.any fun m => s.flagged c.core c.g m.1 then some (s.tileError c)
      else some (s.matEnd c.g c.r)
    else if !s.readable c.core c.g acc then none
    else if s.flagged c.core c.g acc then some (s.tileError c)
    else some (s.matEnd c.g c.r)
  | .adinv all id h => s.adInv c all id h
  | .accscl acc col sc bi sb bb =>
    let n := if col then 64 else 32
    let rs := (if sc then [(sb, 4 * n)] else []) ++ (if bi then [(bb, 4 * n)] else [])
    if !s.readable c.core c.g acc || !s.matClear c rs then none
    else
      let s1 := s.mapped c.core c.g acc
      (s1.physOf c.g acc).map fun p => s1.scaleTile c acc p col sc bi sb bb
/-- MATRIX_RECORD_HEAD (R185): the group that `pick` names. -/
def execMatrixRecordHead (s : State) : Out :=
  match s.matCtx s.pick with
  | none => off "MATRIX_RECORD_HEAD"
  | some c =>
    match s.matHeadStep c with
    | some t => .next t
    | none => off "MATRIX_RECORD_HEAD: held"

end Sys2Proof.Machine
end

