-- ==== Sys2Proof/Machine/Copies.lean ====
section
/-! DEFINITION. The copy engine: hand-over to the copy issue queue, the coalescer, and the operations of
copies, sends, window traffic and TASK (R278 to R288, R293, R299 to R303). -/

namespace Sys2Proof.Machine

/-! ## Hand-over (R278, R282) -/

/-- 2^(SIZE + 2) bytes (R282). -/
def copyLen (size : BitVec 4) : Nat := 2 ^ (size.toNat + 2)
def spaceBits (x : Space) : Nat := if x = .gl then 64 else 32
def spaceMem (x : Space) : MemSpace :=
  match x with
  | .gl => .global | .sp => .scratch | .cl => .cluster
/-- The checks of R239 and R240 for an address of a space. -/
def spaceCheck (c : Ctx) (x : Space) (n align a : Nat) : Option Nat :=
  match x with
  | .gl => globalCheck align a
  | .sp => scratchCheck c.team.size a n align
  | .cl => if c.grid.rows * c.grid.cols ≤ a / 2 ^ 28 then some 0x11
      else scratchCheck c.grid.scr (a % 2 ^ 28) n align
/-- A record with the fields that every kind has. -/
def Ctx.copyRec (c : Ctx) (id : Nat) (kind : CopyKind) : CopyRec :=
  { id := id, group := c.g, team := c.grp.team, kind := kind, sspace := .gl, dspace := .gl, segs := [],
    bar := none, batch := none, dep := none, sb := none, ds := none, words := [], n := 0,
    iaddr := c.iaddr }
/-- Puts a record into the copy issue queue: one of the entries claimed for the clause (R279). -/
def State.pushCopy (s : State) (c : Ctx) (r : CopyRec) : State × Ctx :=
  (s.updCore c.core fun k => { k with copyq := k.copyq ++ [r] },
    { c with run := { c.run with claim := c.run.claim - 1 } })
/-- The lanes in ascending order, to the first that fails: its lane, fault kind and address (R283, R30). -/
def copyLoop (reads : Nat → List (Bank × Nat)) (one : RegFile → Nat → Except (Nat × Nat) Seg) :
    List Nat → RegFile → List Seg → RegFile × List Seg × Option (Nat × Nat × Nat)
  | [], r, acc => (r, acc, none)
  | i :: l, r, acc =>
    let (r1, bad) := r.touchAll (reads i)
    if bad then (r1, acc, some (i, 0x06, 0))
    else match one r1 i with
      | .error (k, a) => (r1, acc, some (i, k, a))
      | .ok g => copyLoop reads one l r1 (acc ++ [g])
/-- A per-lane instruction of the copy engine; `joins` says whether its record joins the open batch. -/
def State.handCopy (s : State) (c : Ctx) (sp joins : Bool) (reads : Nat → List (Bank × Nat))
    (one : RegFile → Nat → Except (Nat × Nat) Seg) (mk : Nat → CopyRec) : State :=
  let (r, segs, bad) := copyLoop reads one c.lanes (RegFile.of c.grp c.trk) []
  let trk := c.trk.withRegs r
  let grp := c.grp.withRegs r
  let s0 := s.countErrors c r
  let (s1, grp1, c1) :=
    if segs.isEmpty then (s0, grp, c)
    else
      let (b, g1, s1) := if joins then s0.openBatch grp else (0, grp, s0)
      let (id, s2) := s1.name
      let (s3, c1) := s2.pushCopy c { mk id with segs := segs, batch := if joins then some b else none }
      (s3, g1, c1)
  match bad with
  | none => s1.advance c1 grp1 trk sp (laneSteps c.lanes.length)
  | some (i, kind, a) => ((s1.setGroup c.g grp1).setTrack c.t trk).precise c1 kind i (some i) a 0
/-- A uniform instruction of the copy engine hands its record over. -/
def State.handOne (s : State) (c : Ctx) (sp joins : Bool) (mk : Nat → CopyRec) : State :=
  let (b, g1, s1) := if joins then s.openBatch c.grp else (0, c.grp, s)
  let (id, s2) := s1.name
  let r := mk id
  let (s3, c1) := s2.pushCopy c { r with batch := if joins then some b else none }
  s3.advance c1 (match r.sb with
    | some i => g1.sbUp i
    | none => g1) c.trk sp 1
/-- A precise fault of a uniform instruction. -/
def State.faultOne (s : State) (c : Ctx) (kind a : Nat) : State :=
  (s.setGroup c.g c.grp).precise c kind 0 none a 0

/-- CPY (R283). -/
def execCpy (f : FmtC) (s : State) : Out :=
  onTrack s fun c =>
    let n := copyLen f.size
    let one (r : RegFile) (i : Nat) : Except (Nat × Nat) Seg :=
      let sa := r.operand f.saddr i (spaceBits f.sspace)
      let da := r.operand f.daddr i (spaceBits f.dspace)
      match spaceCheck c f.sspace n n sa, spaceCheck c f.dspace n n da with
      | some k, _ => .error (k, sa)
      | none, some k => .error (k, da)
      | none, none => .ok ⟨sa, da, n, i, 0, 0⟩
    .next (s.handCopy c f.m.sp true (fun i => srcWords f.saddr i ++ srcWords f.daddr i) one fun id =>
      { c.copyRec id .cpy with
        sspace := f.sspace, dspace := f.dspace, bar := if f.be then some f.bar.toNat else none })

/-! ### CPYT (R286, R287) -/

/-- The descriptor of R286: fields of its 24 words. -/
structure Tensor where
  sbase : Nat
  dbase : Nat
  w4 : Nat
  ext : List Nat
  sstr : List Int
  dstr : List Int
  zero : Bool
  deriving DecidableEq, Repr
def tensorOf (w : List Nat) : Tensor :=
  let g (i : Nat) : Nat := w.getD i 0
  { sbase := g 0 + g 1 * 2 ^ 32, dbase := g 2 + g 3 * 2 ^ 32, w4 := g 4
    ext := (List.range 5).map fun i => g (5 + i)
    sstr := (List.range 4).map fun i => sgn (g (10 + i)) 32
    dstr := (List.range 4).map fun i => sgn (g (14 + i)) 32
    zero := (List.range 6).all fun i => g (18 + i) == 0 }
def Tensor.space (x : Nat) : Option Space := if x = 0 then some .gl else if x = 1 then some .sp else none
def Tensor.bytes (t : Tensor) : Nat := t.ext.foldl (· * ·) 1
/-- Least and greatest offset that strides reach from a base. -/
def strideRange : List Int → List Nat → Int × Int
  | d :: ds, e :: es =>
    let (lo, hi) := strideRange ds es
    let x := d * ((e : Int) - 1)
    (lo + min 0 x, hi + max 0 x)
  | _, _ => (0, 0)
/-- A scratchpad range lies wholly within the allocation. -/
def Tensor.inside (sp : Option Space) (base : Nat) (str : List Int) (ext : List Nat) (size : Nat) : Bool :=
  match sp with
  | some .sp =>
    let (lo, hi) := strideRange str (ext.drop 1)
    decide (base < 2 ^ 32) && decide (0 ≤ (base : Int) + lo) &&
      decide ((base : Int) + hi + ext.headD 0 ≤ size)
  | some _ => true
  | none => false
/-- The rules of R286. -/
def Tensor.ok (t : Tensor) (size : Nat) : Bool :=
  let nd := fld t.w4 4 3
  let e0 := t.ext.headD 0
  decide (nd ≤ 4) && fld t.w4 7 9 == 0 && fld t.w4 28 4 == 0 && e0 != 0 && e0 % 4 == 0 &&
  (t.ext.drop 1).zipIdx.all (fun e => decide (1 ≤ e.1) && decide (e.1 ≤ 65535) &&
    (decide (e.2 + 1 ≤ nd) || e.1 == 1)) &&
  t.sstr.all (fun x => x % 4 == 0) && t.dstr.all (fun x => x % 4 == 0) && t.zero &&
  t.sbase % 4 == 0 && t.dbase % 4 == 0 && decide (t.bytes ≤ 2 ^ 31) &&
  Tensor.inside (Tensor.space (fld t.w4 0 2)) t.sbase t.sstr t.ext size &&
  Tensor.inside (Tensor.space (fld t.w4 2 2)) t.dbase t.dstr t.ext size
/-- The offsets of the runs, outermost dimension first; `dims` holds extent and strides, outermost
first. -/
def runOffsets : List (Nat × Int × Int) → List (Int × Int)
  | [] => [(0, 0)]
  | (e, a, b) :: l =>
    let inner := runOffsets l
    (List.range e).flatMap fun i => inner.map fun x => (a * i + x.1, b * i + x.2)
/-- The runs of a copy (R286). -/
def Tensor.segs (t : Tensor) : List Seg :=
  let dims := ((t.ext.drop 1).zip (t.sstr.zip t.dstr)).reverse
  (runOffsets dims).map fun o =>
    ⟨((t.sbase : Int) + o.1) % 2 ^ 64 |>.toNat, ((t.dbase : Int) + o.2) % 2 ^ 64 |>.toNat,
      t.ext.headD 0, 0, 0, 0⟩
/-- CPYT (R286, R287). -/
def execCpyt (sp : Bool) (bar : BitVec 7) (be dc : Bool) (sn : BitVec 7) (s : State) : Out :=
  onUniformS s sp ((List.range 24).map (sn.toNat + ·)) fun s c r =>
    let t := tensorOf ((List.range 24).map fun i => r.sNat (sn.toNat + i))
    if t.ok c.team.size then
      .next (s.handOne c sp true fun id => { c.copyRec id .cpyt with
        sspace := (Tensor.space (fld t.w4 0 2)).getD .gl
        dspace := (Tensor.space (fld t.w4 2 2)).getD .gl
        segs := t.segs
        bar := if be then some bar.toNat else none
        dep := if dc then some (fld t.w4 16 12) else none })
    else .next (s.faultOne c 0x28 0)

/-! ### Landing-zone records, TASK -/

/-- LZRSV (R293). -/
def execLzrsv (sp : Bool) (ds : BitVec 7) (sb : BitVec 3) (hp : BitVec 6) (len : Word) (s : State) : Out :=
  onUniformS s sp (hpRegs hp) fun s c r =>
    if sbFull c.grp (some sb.toNat) then .next (s.holdStep c)
    else .next (s.handOne c sp false fun id => { c.copyRec id .lzrsv with
      words := [r.sWord (2 * hp.toNat), r.sWord (2 * hp.toNat + 1)], n := len.toNat
      ds := some ds.toNat, sb := some sb.toNat })
/-- LZCANCEL (R296). -/
def execLzcancel (sp : Bool) (gs : BitVec 7) (sb : BitVec 3) (hp : BitVec 6) (s : State) : Out :=
  onUniformS s sp (gs.toNat :: hpRegs hp) fun s c r =>
    if r.sNat gs.toNat / 2 ^ 28 ≠ 0 then .next (s.lzFault c)
    else if sbFull c.grp (some sb.toNat) then .next (s.holdStep c)
    else .next (s.handOne c sp false fun id => { c.copyRec id .lzcancel with
      words := [r.sWord (2 * hp.toNat), r.sWord (2 * hp.toNat + 1), r.sWord gs.toNat]
      sb := some sb.toNat })
/-- LZSEND (R293): the grant, then the source under R239, then both alignments. -/
def execLzsend (f : FmtC) (s : State) : Out :=
  onUniformS s f.m.sp (srcS f.daddr ++ srcS f.saddr) fun s c r =>
    let q := f.daddr.num.toNat
    let n := copyLen f.size
    let al := min n 128
    let src := r.operand f.saddr 0 (spaceBits f.sspace)
    let ofs := r.sNat (q + 3)
    if r.sNat (q + 2) / 2 ^ 28 ≠ 0 then .next (s.lzFault c)
    else match spaceCheck c f.sspace n 1 src with
      | some k => .next (s.faultOne c k src)
      | none =>
        if src % al ≠ 0 then .next (s.faultOne c 0x10 src)
        else if ofs % al ≠ 0 then .next (s.faultOne c 0x10 ofs)
        else .next (s.handOne c f.m.sp true fun id => { c.copyRec id .lzsend with
          sspace := f.sspace, segs := [⟨src, ofs, n, 0, 0, 0⟩]
          words := [r.sWord q, r.sWord (q + 1), r.sWord (q + 2)]
          bar := if f.be then some f.bar.toNat else none })
/-- TASK (R303). -/
def execTask (sp : Bool) (ds : BitVec 7) (sb : BitVec 3) (sn : BitVec 7) (q : BitVec 14) (s : State) :
    Out :=
  onUniformS s sp ((List.range 16).map (sn.toNat + ·)) fun s c r =>
    if sbFull c.grp (some sb.toNat) then .next (s.holdStep c)
    else .next (s.handOne c sp false fun id => { c.copyRec id .task with
      words := (List.range 16).map fun i => r.sWord (sn.toNat + i)
      n := q.toNat, ds := some ds.toNat, sb := some sb.toNat })

/-! ### Window records (R298, R299) -/

/-- A lane of WPUT, WGET or WRED: the local side under R239, then the window offset. -/
def winLane (c : Ctx) (daddr saddr : Src) (sp : Space) (n : Nat) (get : Bool) (r : RegFile) (i : Nat) :
    Except (Nat × Nat) Seg :=
  let q := r.operand daddr i 128
  let ofs := fld q 64 64
  let loc := r.operand saddr i (spaceBits sp)
  match spaceCheck c sp n n loc with
  | some k => .error (k, loc)
  | none =>
    if ofs % n ≠ 0 then .error (0x10, ofs)
    else
      let peer := BitVec.ofNat 18 q
      let win := BitVec.ofNat 16 (fld q 32 16)
      .ok (if get then ⟨ofs, loc, n, i, peer, win⟩ else ⟨loc, ofs, n, i, peer, win⟩)
def winReads (daddr saddr : Src) (i : Nat) : List (Bank × Nat) := srcWords daddr i ++ srcWords saddr i
/-- WPUT (R299). -/
def execWput (f : FmtC) (s : State) : Out :=
  onTrack s fun c =>
    .next (s.handCopy c f.m.sp false (winReads f.daddr f.saddr)
      (winLane c f.daddr f.saddr f.sspace (copyLen f.size) false)
      fun id => { c.copyRec id .wput with sspace := f.sspace })
/-- WGET (R299). -/
def execWget (f : FmtC) (s : State) : Out :=
  onTrack s fun c =>
    .next (s.handCopy c f.m.sp false (winReads f.daddr f.saddr)
      (winLane c f.daddr f.saddr f.sspace (copyLen f.size) true)
      fun id => { c.copyRec id .wget with dspace := f.sspace })
/-- WRED (R299, R301). -/
def execWred (f : FmtWred) (s : State) : Out :=
  onTrack s fun c =>
    .next (s.handCopy c f.sp false (winReads f.daddr f.saddr)
      (winLane c f.daddr f.saddr f.sspace (copyLen f.size) false)
      fun id => { c.copyRec id (.wred f.ty f.sat) with sspace := f.sspace })

/-- A multicast group's header (R348), 64 bytes as one number. -/
def State.mcHeader (s : State) (g : Nat) : Nat := s.physNat (s.sys.mgbase.toNat + 64 * g) 64
def mcList (h : Nat) : Nat := fld h 0 64
def mcAckAddr (h : Nat) : Nat := fld h 64 64
def mcCount (h : Nat) : Nat := fld h 128 16
/-- Well formed, valid and of the partition (R348); the zero fields are not looked at (R5). -/
def mcOk (h : Nat) (part : BitVec 16) : Bool :=
  decide (1 ≤ mcCount h) && decide (mcCount h ≤ 512) && fld h 144 16 == part.toNat && h.testBit 160 &&
  mcList h % 4096 == 0 && mcAckAddr h % 64 == 0
/-- The valid members of a list at a physical address: index, package, window; other bits set do not make a member
invalid (R348, R5; log 43). -/
def State.mcMembers (s : State) (pa n : Nat) : List (Nat × BitVec 18 × BitVec 16) :=
  (List.range n).filterMap fun i =>
    let w := s.physNat (pa + 8 * i) 8
    if w.testBit 63 then some (i, BitVec.ofNat 18 w, BitVec.ofNat 16 (fld w 18 16))
    else none
/-- The words of a WMCAST record: group, window, offset, whether the header is good, COUNT, ACKADDR (an
address that is no multiple of 64 where none is known), then three words for each valid member. -/
def mcWords (g : Nat) (win ofs : Nat) (ok : Bool) (count ack : Nat)
    (ms : List (Nat × BitVec 18 × BitVec 16)) : List Word :=
  [BitVec.ofNat 32 g, BitVec.ofNat 32 win, BitVec.ofNat 32 ofs, BitVec.ofNat 32 (ofs / 2 ^ 32),
    BitVec.ofNat 32 (bits01 ok), BitVec.ofNat 32 count, BitVec.ofNat 32 ack,
    BitVec.ofNat 32 (ack / 2 ^ 32)] ++
  ms.flatMap fun m => [BitVec.ofNat 32 m.1, m.2.1.setWidth 32, m.2.2.setWidth 32]
def mcMembersOf : List Word → List (Nat × BitVec 18 × BitVec 16)
  | a :: b :: c :: l => (a.toNat, b.setWidth 18, c.setWidth 16) :: mcMembersOf l
  | _ => []
/-- WMCAST (R302, R348): the header and the member list are read at the step; while the list's
translation waits, the instruction is held. -/
def execWmcast (f : FmtC) (s : State) : Out :=
  onUniformS s f.m.sp (srcS f.daddr ++ srcS f.saddr) fun s c r =>
    let q := f.daddr.num.toNat
    let n := copyLen f.size
    let src := r.operand f.saddr 0 (spaceBits f.sspace)
    let ofs := r.sPair (q + 2)
    let g := fld (r.sNat q) 0 12
    let win := r.sNat (q + 1) % 2 ^ 16
    let hand (s : State) (ok : Bool) (count ack : Nat) (ms : List (Nat × BitVec 18 × BitVec 16)) : State :=
      s.handOne c f.m.sp false fun id => { c.copyRec id .wmcast with
        sspace := f.sspace, segs := [⟨src, ofs, n, 0, 0, 0⟩], n := n, words := mcWords g win ofs ok count ack ms }
    match spaceCheck c f.sspace n n src with
    | some k => .next (s.faultOne c k src)
    | none =>
      if ofs % n ≠ 0 then .next (s.faultOne c 0x10 ofs)
      else
        let h := s.mcHeader g
        if !mcOk h c.grid.part then
          .next (hand s false 0 (if h.testBit 160 ∧ fld h 144 16 = c.grid.part.toNat then mcAckAddr h
            else 1) [])
        else match s.devReach c.die c.grid.part (mcList h) (8 * mcCount h) false .device
            { s.groupRec 0 c.g with flags := s.privFlag c.g, iaddr := c.iaddr } with
          | (.wait, s1) => .next (s1.holdStep c)
          | (.fail _, s1) => .next (hand s1 false 0 (mcAckAddr h) [])
          | (.pa a, s1) =>
            .next (hand s1 true (mcCount h) (mcAckAddr h) (s1.mcMembers a (mcCount h)))

/-! ## The coalescer (R281) -/

/-- A piece cut at the lines of its source (`bySrc`) or destination: each part lies in one line. -/
def cutSeg (bySrc : Bool) (g : Seg) : Nat → List Seg
  | 0 => []
  | fuel + 1 =>
    let a := if bySrc then g.src else g.dst
    let n := min g.len (128 - a % 128)
    if g.len = 0 then []
    else { g with len := n } :: cutSeg bySrc { g with src := g.src + n, dst := g.dst + n, len := g.len - n } fuel
def cutSegs (bySrc : Bool) (l : List Seg) : List Seg := l.flatMap fun g => cutSeg bySrc g (g.len / 4 + 2)
/-- Gathers pieces by a key, in the order of each key's first piece. -/
def gatherBy {κ : Type} [DecidableEq κ] (key : Seg → κ) : List Seg → List (κ × List Seg) → List (List Seg)
  | [], acc => acc.map (·.2)
  | g :: l, acc =>
    if acc.any fun x => x.1 = key g then
      gatherBy key l (acc.map fun x => if x.1 = key g then (x.1, x.2 ++ [g]) else x)
    else gatherBy key l (acc ++ [(key g, [g])])
/-- Among pieces that write the same destination the highest lane's remains (R281). -/
def lastWins : List Seg → List Seg
  | [] => []
  | g :: l => if l.any fun x => x.dst == g.dst then lastWins l else g :: lastWins l
/-- The operations of a record, each as its pieces (R281, R286, R293). -/
def CopyRec.ops (r : CopyRec) : List (List Seg) :=
  match r.kind with
  | .cpy => (gatherBy (fun g => (g.src / 128, g.dst / 128)) r.segs []).map lastWins
  | .cpyt => (gatherBy (fun g => g.dst / 128) (cutSegs false r.segs) []).map (cutSegs true)
  | .lzsend => (cutSegs false r.segs).map fun g => [g]
  | .wput => (gatherBy (fun g => (g.peer, g.win, g.dst / 128)) r.segs []).map lastWins
  | .wred _ _ => gatherBy (fun g => (g.peer, g.win, g.dst / 128)) r.segs []
  | .wget => gatherBy (fun g => (g.peer, g.win, g.src / 128)) r.segs []
  | .wmcast => [cutSegs true r.segs]
  | _ => [[]]
/-- Issues operations. -/
def State.issueOps (s : State) (core : Nat) (r : CopyRec) : List (List Seg) → State
  | [] => s
  | l :: rest =>
    let (id, s1) := s.name
    (s1.updCore core fun k => { k with copyOps := k.copyOps ++ [⟨id, { r with segs := l }, .pend, []⟩] }).issueOps
      core r rest
/-- COALESCE (R280, R281): the record at the head of a core's queue. -/
def execCoalesce (s : State) : Out :=
  match (s.core s.pick).copyq with
  | [] => off "COALESCE"
  | r :: rest =>
    let l := r.ops
    let s1 := s.updCore s.pick fun k => { k with copyq := rest }
    let s2 := if r.kind = .lzsend then
        let w (i : Nat) : Nat := (r.words.getD i 0).toNat
        { s1 with sends := s1.sends ++ [⟨r.id, r.group, r.team, r.batch, r.bar,
          slotRef (w 0) (w 1) (w 2), l.length, false, r.iaddr⟩] }
      else s1
    .next (s2.issueOps s.pick r l)

/-! ## Performing an operation -/

/-- What an operation finds. -/
structure CopyCtx where
  core : Nat
  o : CopyOp
  grp : Group
  tm : Team
  gd : Grid
def State.copyCtx (s : State) (core : Nat) (o : CopyOp) : Option CopyCtx :=
  match s.group o.r.group, s.team o.r.team with
  | some grp, some tm =>
    match s.grid tm.grid with
    | some gd => some ⟨core, o, grp, tm, gd⟩
    | none => none
  | _, _ => none
def CopyCtx.die (c : CopyCtx) : Nat := dieOf c.core
def CopyCtx.w (c : CopyCtx) (i : Nat) : Nat := (c.o.r.words.getD i 0).toNat
def State.updOp (s : State) (c : CopyCtx) (f : CopyOp → CopyOp) : State :=
  s.updCore c.core fun k => { k with copyOps := k.copyOps.map fun o => if o.id == c.o.id then f o else o }
def State.dropOp (s : State) (c : CopyCtx) : State := s.endOp c.core c.o.id
/-- The first piece of an operation is done with, and with its last the operation: what a WGET writes, it writes piece by
piece. -/
def State.nextSeg (s : State) (c : CopyCtx) : State :=
  match c.o.r.segs with
  | g :: _ :: _ =>
    if c.o.r.kind = .wget ∧ !c.o.data.isEmpty then s.updOp c fun o => { o with
      data := o.data.drop g.len, st := .pend, r := { o.r with segs := o.r.segs.drop 1 } }
    else s.dropOp c
  | _ => s.dropOp c
/-- LANE of a record about an address of a per-lane instruction (R317, R320). -/
def CopyOp.laneAt (o : CopyOp) (a : Nat) : Nat :=
  if o.r.kind matches .cpy | .wput | .wget | .wred .. then
    ((o.r.segs.find? fun g => g.src == a || g.dst == a).map fun g => g.lane + 128).getD 0
  else 0
def CopyKind.localSrc : CopyKind → Bool
  | .cpy | .cpyt | .lzsend | .wput | .wred _ _ | .wmcast => true
  | _ => false
def CopyKind.localDst : CopyKind → Bool
  | .cpy | .cpyt | .wget => true
  | _ => false
/-- The place of a piece; global addresses are compared as R227 reduces them. -/
def spanOf (sp : Space) (a n : Nat) : Span := ⟨spaceMem sp, if sp = .gl then a % 2 ^ 57 else a, n⟩
/-- The ranges that an operation reads and writes in the machine. -/
def CopyOp.reads (o : CopyOp) : List Span :=
  if CopyKind.localSrc o.r.kind then o.r.segs.map fun g => spanOf o.r.sspace g.src g.len else []
def CopyOp.writes (o : CopyOp) : List Span :=
  if CopyKind.localDst o.r.kind then o.r.segs.map fun g => spanOf o.r.dspace g.dst g.len else []
def State.rangesMeet (s : State) (c : CopyCtx) (a b : List Span) : Bool :=
  a.any fun x => b.any fun y => s.touches c.core c.gd.part c.tm x y
/-- Operations before this one in issue order that touch its bytes, one of the two writing (R281). -/
def State.opsBefore (s : State) (c : CopyCtx) : Bool :=
  s.copyOpsAll.any fun o => o.r.group == c.o.r.group && decide (o.id < c.o.id) &&
    (s.rangesMeet c o.writes (c.o.reads ++ c.o.writes) || s.rangesMeet c o.reads c.o.writes)
/-- Whether the order within the group lets an operation perform (R245, R246, R262, R273), and that of a replay
(R229). -/
def State.copyAllowed (s : State) (c : CopyCtx) : Bool :=
  let earlier := c.grp.memq.filter fun r => decide (r.id < c.o.r.id)
  let rel := match c.o.r.kind with
    | .lzsend | .wput | .wred _ _ | .wmcast => s.released c.o.r.group c.o.r.id .sys
    | .task => s.released c.o.r.group c.o.r.id .dev
    | _ => true
  c.o.st == .pend && rel && !s.opsBefore c &&
  (c.o.reads ++ c.o.writes).all (fun x => !s.holdsBack c.core c.gd.part c.tm earlier x) &&
  s.replayTurn c.die (.copy c.core c.o.r.id c.o.id) && earlier.all fun r => !(r.acquires && r.undone)
/-- A store is still in the write-through buffer that the copy comes after: any but a later one of its group (R245,
R266, R273). -/
def State.wtOlder (s : State) (c : CopyCtx) (pa n : Nat) : Bool :=
  (s.core (coreOf c.grp.track)).wtb.any fun w => (w.group != c.o.r.group || decide (w.mrec < c.o.r.id)) &&
    overlap w.pa w.data.length pa n
/-- The sectors of a page that operations of the same instruction have still to read or write (R287). -/
def State.missing (s : State) (c : CopyCtx) (write : Bool) (va : Nat) : Nat :=
  let mine := s.copyOpsAll.filter fun o => o.r.id == c.o.r.id
  let rs := mine.flatMap fun o => (if write then o.writes else o.reads).filter fun x =>
    x.sp == .global && x.a / 4096 == va / 4096
  (rs.map fun x => x.a % 4096 / 128).eraseDups.foldl (fun m i => m + 2 ^ i) 0
/-- How an access of an operation went. -/
inductive CRes
  | bytes (b : List Byte)
  | wait (st : AccSt)
  | err (code : Nat)
  | bank
  deriving DecidableEq, Repr
/-- Translates an address of an operation. -/
def State.copyReach (s : State) (c : CopyCtx) (va : Nat) (write : Bool) : Reach × State :=
  if !canonical va then (.err 1, s)
  else s.reach c.core c.gd.part (va % 2 ^ 57) write (.copy c.core c.o.r.id c.o.id)
    { s.groupRec 0 c.o.r.group with
      flags := s.privFlag c.o.r.group, iaddr := c.o.r.iaddr, addr := va, smask := s.missing c write (va % 2 ^ 57) }
/-- The team and the offset that a scratchpad or cluster address names, while the team runs (R240). -/
def State.scrSeat (s : State) (c : CopyCtx) (sp : Space) (a : Nat) : Option (Nat × Nat) :=
  match sp with
  | .cl =>
    match s.member c.tm (a / 2 ^ 28) with
    | some t => if t.phase = .running then some (t.core, t.base + a % 2 ^ 28) else none
    | none => none
  | _ => some (c.tm.core, c.tm.base + a)
/-- Reads n bytes within one line for an operation (R267, R273). -/
def State.copyRead (s : State) (c : CopyCtx) (sp : Space) (a n : Nat) : CRes × State :=
  match sp with
  | .gl =>
    match s.copyReach c a false with
    | (.wait st, s1) => (.wait st, s1)
    | (.full, s1) => (.wait .pend, s1)
    | (.err code, s1) => (.err code, s1)
    | (.ok pa, s1) =>
      if s1.wtOlder c pa n then (.wait .pend, s1)
      else if !s1.tokenLine (pa / 128) then (.bytes (s1.physRead pa n), s1)
      else match s1.hold c.die (pa / 128) false (.copy c.core c.o.r.id c.o.id) with
        | (.ok, s2) => (.bytes (s2.sliceBytes c.die pa n), s2)
        | (.wait, s2) => (.wait .inSlice, s2)
        | (.err code, s2) => (.err code, s2)
  | _ =>
    match s.scrSeat c sp a with
    | none => (.err 6, s)
    | some (k, x) => if (s.core k).fifoTouch x n then (.bank, s) else (.bytes (s.scrRead k x n), s)
/-- Writes pieces at a physical line, with every token where tokens are (R273); the core cache's line takes them under the
stores that the buffer holds, which come after them (R266). -/
def State.copyPut (s : State) (c : CopyCtx) (pa : Nat) : List (Nat × List Byte) → State
  | [] => s
  | (i, bs) :: l =>
    let a := pa / 128 * 128 + i
    let s1 := if s.tokenLine (pa / 128) then s.sliceWrite c.die a bs else s.physWrite a bs
    (s1.updCore c.core fun k => k.update a (k.overlay a bs)).copyPut c pa l
/-- Writes pieces that lie in one line of their space: `a` is the address of the first (R273). -/
def State.copyWrite (s : State) (c : CopyCtx) (sp : Space) (ps : List (Nat × List Byte)) : CRes × State :=
  let a := (ps.head?.map (·.1)).getD 0
  match sp with
  | .gl =>
    match s.copyReach c a true with
    | (.wait st, s1) => (.wait st, s1)
    | (.full, s1) => (.wait .pend, s1)
    | (.err code, s1) => (.err code, s1)
    | (.ok pa, s1) =>
      let rel := ps.map fun p => (p.1 % 128, p.2)
      if ps.any fun p => s1.wtOlder c (pa / 128 * 128 + p.1 % 128) p.2.length then (.wait .pend, s1)
      else if !s1.tokenLine (pa / 128) then
        let s2 := s1.copyPut c pa rel
        (.bytes [], if pa / 2 ^ 48 = 1 then
          { s2 with hostPosted := s2.hostPosted ++ [(c.o.r.group, c.o.r.id)] } else s2.postNode c.o.r.group c.o.r.id pa)
      else
        let whole := (List.range 128).all fun i => rel.any fun p => decide (p.1 ≤ i) &&
          decide (i < p.1 + p.2.length)
        match (if whole then s1.claimWhole c.die (pa / 128) else s1).hold c.die (pa / 128) true
          (.copy c.core c.o.r.id c.o.id) with
        | (.ok, s2) => (.bytes [], s2.copyPut c pa rel)
        | (.wait, s2) => (.wait .inSlice, s2)
        | (.err code, s2) => (.err code, s2)
  | _ =>
    match s.scrSeat c sp a with
    | none => (.err 6, s)
    | some (k, x) =>
      if ps.any fun p => (s.core k).fifoTouch (x + p.1 - a) p.2.length then (.bank, s)
      else (.bytes [], ps.foldl (fun s p => s.scrWrite k (x + p.1 - a) p.2) s)
/-- Reads the source pieces from the first not yet read (R283); answers the address of the piece that
could not be read. -/
def State.gather (s : State) (c : CopyCtx) : List Seg → Nat → List Byte → CRes × Nat × State
  | [], _, acc => (.bytes acc, 0, s)
  | g :: l, have_, acc =>
    if g.len ≤ have_ then s.gather c l (have_ - g.len) acc
    else match s.copyRead c c.o.r.sspace g.src g.len with
      | (.bytes b, s1) => (s1.updOp c fun o => { o with data := acc ++ b }).gather c l 0 (acc ++ b)
      | (r, s1) => (r, g.src, s1)

/-! ### Ends of operations -/

/-- Later parts of the instruction decrement no counter (R287, R288). -/
def State.withholdDep (s : State) (id : Nat) : State :=
  { s with cores := s.cores.map fun e => (e.1, { e.2 with copyOps := e.2.copyOps.map fun o =>
      if o.r.id == id then { o with r := { o.r with dep := none } } else o }) }
/-- The decrement of a completed copy: at once if its release is complete (R287, R262). -/
def State.copyDep (s : State) (g id d : Nat) : State :=
  if s.released g id .dev then s.depStep .dec d 1
  else s.updGroup g fun x => { x with memq := x.memq ++ [⟨id, .dep .dec d 1, .global, 0, .weak, .dev,
    false, none, none, 0, [⟨32, 0, 0, [], .pend⟩]⟩] }
/-- The distinct destination bytes of pieces within one line (R284). -/
def coverage (l : List Seg) : Nat :=
  ((List.range 128).filter fun i => l.any fun g => decide (g.dst % 128 ≤ i) &&
    decide (i < g.dst % 128 + g.len)).length
/-- A copy operation has written its bytes (R284, R285, R287). -/
def State.copyDone (s : State) (c : CopyCtx) : State :=
  let s1 := s.dropOp c
  let s2 := match c.o.r.bar with
    | some b => s1.barEvent c.o.r.team b (.bytes (coverage c.o.r.segs))
    | none => s1
  let s3 := match c.o.r.dep with
    | some d => if s2.copyOpsAll.any fun o => o.r.id == c.o.r.id then s2 else s2.copyDep c.o.r.group c.o.r.id d
    | none => s2
  s3.settleBatches c.o.r.group
/-- The sector of an address, as a mask of its page. -/
def sectorBit (a : Nat) : Nat := 2 ^ (a % 4096 / 128)
/-- An operation of a copy fails: its bytes stay unwritten and uncounted (R285, R288). -/
def State.copyLost (s : State) (c : CopyCtx) : State :=
  (((s.dropOp c).withholdDep c.o.r.id).batchErr c.o.r.group c.o.r.batch).settleBatches c.o.r.group
/-- A packet of an LZSEND cannot be sent: the send fails and the slot is aborted (R294). -/
def State.sendLost (s : State) (c : CopyCtx) (a mask code : Nat) : State :=
  let s1 := s.dropOp c
  match s1.sends.find? fun x => x.id == c.o.r.id with
  | none => s1
  | some x =>
    let s2 := if x.err then s1 else s1.abortSlot c.core x.slot 2
    (s2.failSend x a mask code (code == 8)).packetOver x.id
/-- The record of an operation of CPY or CPYT that fails at some sectors of a page (R288, R320). -/
def State.copyRecord (s : State) (c : CopyCtx) (a mask code : Nat) : State :=
  s.report { s.groupRec 0x29 c.o.r.group with
    flags := s.privFlag c.o.r.group + bits01 (code == 8) * 32, iaddr := c.o.r.iaddr, addr := a, smask := mask
    detail := code }
/-- A non-replayable outcome at an address of an operation (R257, R288, R294; log 23). -/
def State.copyFail (s : State) (c : CopyCtx) (a code : Nat) : State :=
  match c.o.r.kind with
  | .cpy | .cpyt => (s.copyRecord c a (sectorBit a) code).copyLost c
  | .lzsend => s.sendLost c a (sectorBit a) code
  | _ =>
    let s1 := (s.nextSeg c).impreciseFault c.o.r.group
      { s.groupRec 0x14 c.o.r.group with
        lane := c.o.laneAt a, iaddr := c.o.r.iaddr, addr := a, detail := code } (code == 8)
    match c.o.r.ds, c.o.r.sb with
    | some d, some sb => (s1.putReg c.o.r.group .s d (RegWord.poison 0)).sbFall c.o.r.group (some sb)
    | _, _ => s1
/-- A bank in FIFO mode: the bounds fault, imprecisely (R222, R258). -/
def State.copyBank (s : State) (c : CopyCtx) (a : Nat) : State :=
  let s1 := s.impreciseFault c.o.r.group
    { s.groupRec 0x12 c.o.r.group with lane := c.o.laneAt a, iaddr := c.o.r.iaddr, addr := a }
  match c.o.r.kind with
  | .cpy | .cpyt => s1.copyLost c
  | .lzsend => s1.sendLost c 0 0 0
  | _ => s1.nextSeg c
/-- The operation waits, fails, or goes on with its bytes. -/
def State.copyThen (s : State) (c : CopyCtx) (r : CRes) (a : Nat) (k : State → List Byte → State) : State :=
  match r with
  | .bytes b => k s b
  | .wait st => s.updOp c fun o => { o with st := st }
  | .err code => s.copyFail c a code
  | .bank => s.copyBank c a

/-! ### Packets -/

/-- The bytes of pieces, in order. -/
def pieceBytes : List Seg → List Byte → List (Seg × List Byte)
  | [], _ => []
  | g :: l, bs => (g, bs.take g.len) :: pieceBytes l (bs.drop g.len)
def segBytes (l : List Seg) : Nat := l.foldl (fun n g => n + g.len) 0
def WTy.bytes : WTy → Nat
  | .f32 | .i32 => 4 | .bf16 | .f16 => 2 | .e4m3 | .e5m2 => 1
def WTy.fmt : WTy → FFmt
  | .bf16 => bf16 | .f16 => f16 | .e4m3 => e4m3 | .e5m2 => e5m2 | _ => f32
/-- An element as it travels: binary32, or 48-bit two's complement (R301). -/
def wireElem (ty : WTy) (x : Nat) : BitVec 48 :=
  if ty = .i32 then (BitVec.ofNat 32 x).signExtend 48
  else BitVec.ofNat 48 (fround f32 .rne false false (fread (WTy.fmt ty) false x))
/-- The elements of bytes, with their offsets. -/
def elemsOf (ty : WTy) : Nat → Nat → List Byte → List (Nat × BitVec 48)
  | 0, _, _ => []
  | n + 1, ofs, bs =>
    let k := WTy.bytes ty
    (ofs, wireElem ty (leNat (bs.take k))) :: elemsOf ty n (ofs + k) (bs.drop k)
/-- The WPUT packet of an operation: its pieces lie in one line. -/
def State.putReq (s : State) (c : CopyCtx) (data : List Byte) : State :=
  match c.o.r.segs with
  | [] => s.dropOp c
  | g :: _ =>
    let (id, s1) := (s.dropOp c).name
    s1.ask ⟨id, .wput g.win c.o.r.team (segBytes c.o.r.segs), c.core, c.gd.part, none, g.peer, g.dst, s.now⟩
      (.winPut id ⟨g.peer, g.win, BitVec.ofNat 64 g.dst⟩ c.gd.part s.pkg
        ((pieceBytes c.o.r.segs data).map fun p => (p.1.dst, p.2)))
/-- The WRED packet of an operation (R299, R301): its elements lie in one line of the peer's window. -/
def State.redReq (s : State) (c : CopyCtx) (ty : WTy) (sat : Bool) (data : List Byte) : State :=
  match c.o.r.segs with
  | [] => s.dropOp c
  | g :: _ =>
    let es := (pieceBytes c.o.r.segs data).flatMap fun p => elemsOf ty (p.1.len / WTy.bytes ty) p.1.dst p.2
    let (id, s1) := (s.dropOp c).name
    s1.ask ⟨id, .wput g.win c.o.r.team (WTy.bytes ty * es.length), c.core, c.gd.part, none, g.peer, g.dst, s.now⟩
      (.winRed id ⟨g.peer, g.win, BitVec.ofNat 64 g.dst⟩ c.gd.part s.pkg ty sat es)
/-- The WGET packet of an operation, which stays in its place until its bytes are written (R281). -/
def State.getReq (s : State) (c : CopyCtx) : State :=
  match c.o.r.segs with
  | [] => s.dropOp c
  | g :: _ =>
    let (id, s1) := (s.updOp c fun o => { o with st := .inSlice }).name
    s1.ask ⟨id, .wget g.win c.o.r.team c.o.id (segBytes c.o.r.segs), c.core, c.gd.part, none, g.peer, g.src, s.now⟩
      (.winGet id ⟨g.peer, g.win, BitVec.ofNat 64 g.src⟩ c.gd.part s.pkg (c.o.r.segs.map fun g => (g.src, g.len)))
/-- Sends flights through one port (R412), or to the egress. -/
def State.sendAlong (s : State) (die : Nat) (cands : List Nat) (fs : List Flight) : State :=
  match s.bestPort die cands with
  | some p => fs.foldl (fun s f => s.enqueue p f) s
  | none => { s with egress := s.egress ++ fs }
/-- WMCAST: the replication set, the block's lines and the close marker (R412). A bad header, or a package that is not
assigned, completes at once with every bit 0 (R348, R453); the latter also for a member that names package 0, the
unassigned package itself, to which the spec gives no local path (DESIGN CHOICE, log 42). -/
def State.multicast (s : State) (c : CopyCtx) (data : List Byte) : State :=
  let ms := mcMembersOf (c.o.r.words.drop 8)
  let ofs := c.w 2 + c.w 3 * 2 ^ 32
  let win := BitVec.ofNat 16 (c.w 1)
  let ack := c.w 6 + c.w 7 * 2 ^ 32
  let good := c.w 4 = 1
  let (id, s1) := (s.dropOp c).name
  let r : Req := ⟨id, .mcast win c.o.r.team c.o.r.n ack ms false, c.core, c.gd.part, none, s.pkg, ofs, s.now⟩
  if !good ∨ !s.enum.pkgValid ∨ ms.isEmpty then
    (if good then s1 else s1.refused c.core 0 win ofs).unanswered r
  else
    let first := ((ms.find? fun m => m.2.1 != s.pkg).map (·.2.1)).getD s.pkg
    let cands := if first = s.pkg then (List.range 36).filter fun p => (s.port p).st = .up
      else s.portsTo first
    let fl (m : Msg) : Flight := ⟨m, s.islDie c.die, (s.die c.die).incarn, .pkg first, 0, s.now, false⟩
    let lines := (List.range (c.o.r.n / 128)).map fun i =>
      fl (.mcLine id i ((data.drop (128 * i)).take 128))
    State.sendAlong { s1 with reqs := s1.reqs ++ [r] } c.die cands
      (fl (.mcSet id (c.w 0) (c.w 5) c.o.r.n ms (BitVec.ofNat 64 ofs)) :: lines ++ [fl (.mcClose id)])
/-- What an operation does once its source bytes are in hand. -/
def State.copySend (s : State) (c : CopyCtx) (data : List Byte) : State :=
  let segs := c.o.r.segs
  match c.o.r.kind with
  | .lzsend =>
    match s.sends.find? (fun x => x.id == c.o.r.id), segs with
    | some x, g :: _ =>
      let (id, s1) := (s.dropOp c).name
      s1.ask ⟨id, .lzsend c.o.r.id g.len, c.core, c.gd.part, some x.slot, x.slot.pkg, g.dst, s.now⟩
        (.lzPacket id x.slot g.dst data s.pkg)
    | _, _ => s.dropOp c
  | .wput => s.putReq c data
  | .wred ty sat => s.redReq c ty sat data
  | .wmcast => s.multicast c data
  | _ =>
    match s.copyWrite c c.o.r.dspace ((pieceBytes segs data).map fun p => (p.1.dst, p.2)) with
    | (r, s1) => s1.copyThen c r ((segs.head?.map (·.dst)).getD 0) fun s2 _ => s2.copyDone c

/-! ### Requests of landing zones, TASK -/

/-- Drops the packets for a grant that are not yet sent: their sends fail (R296). -/
def State.dropPackets (s : State) (core : Nat) (ref : SlotRef) : State :=
  let mine (id : Nat) : Bool := s.sends.any fun x => x.id == id && x.slot == ref
  let gone := (s.core core).copyOps.filter fun o => o.r.kind == .lzsend && mine o.r.id
  let s1 := s.updCore core fun k => { k with
    copyOps := k.copyOps.filter fun o => !(o.r.kind == .lzsend && mine o.r.id) }
  gone.foldl (fun s o =>
    match s.sends.find? fun x => x.id == o.r.id with
    | some x =>
      (State.batchErr { s with sends := s.sends.map fun y =>
        if y.id == x.id then { y with err := true } else y } x.group x.batch).packetOver x.id
    | none => s) s1
/-- TASK at its work queue (R303, R316). -/
def State.doTask (s : State) (c : CopyCtx) : State :=
  let q := c.o.r.n
  let answer (s : State) (st : Nat) : State :=
    ((s.dropOp c).putReg c.o.r.group .s (c.o.r.ds.getD 0) (RegWord.of (BitVec.ofNat 32 st))).sbFall
      c.o.r.group c.o.r.sb
  if !s.wqOn q ∨ s.wqPart q ≠ c.gd.part then answer s 2
  else if s.wqPosted q = 2 ^ s.wqLog q then answer s 1
  else
    let va := s.wqSlot q (s.wqTail q)
    match s.copyReach c va true with
    | (.ok pa, s1) =>
      answer ((s1.physWrite pa (c.o.r.words.flatMap wordBytes)).setWqTail q (s1.wqTail q + 1)) 0
    | (.wait st, s1) => s1.updOp c fun o => { o with st := st }
    | (.full, s1) => s1
    | (.err code, s1) => s1.copyFail c va code
/-- The bytes of a WGET answer are written (R300). -/
def State.getWritten (s : State) (c : CopyCtx) (data : List Byte) : State :=
  match c.o.r.segs with
  | [] => s.dropOp c
  | g :: _ =>
    match s.copyWrite c c.o.r.dspace [(g.dst, data.take g.len)] with
    | (r, s1) => s1.copyThen c r g.dst fun s2 _ => (s2.nextSeg c).addCount g.win.toNat false g.len
/-- Performs an operation that its group's order allows. -/
def State.performCopy (s : State) (c : CopyCtx) : State :=
  match c.o.r.kind with
  | .lzrsv =>
    let ref := slotRef (c.w 0) (c.w 1) 0
    let (id, s1) := (s.dropOp c).name
    s1.ask ⟨id, .lzrsv c.o.r.group (c.o.r.ds.getD 0) (c.o.r.sb.getD 0), c.core, c.gd.part, some ref, ref.pkg, 0,
      s.now⟩ (.lzReq id ref c.o.r.n c.gd.part s.pkg)
  | .lzcancel =>
    let ref := slotRef (c.w 0) (c.w 1) (c.w 2)
    let (id, s1) := ((s.dropOp c).dropPackets c.core ref).name
    s1.ask ⟨id, .lzcancel c.o.r.group (c.o.r.sb.getD 0), c.core, c.gd.part, some ref, ref.pkg, 0, s.now⟩
      (.lzCancel id ref s.pkg)
  | .task => s.doTask c
  | .wget =>
    if c.o.data.isEmpty then s.getReq c else s.getWritten c c.o.data
  | _ =>
    let (r, a, s1) := s.gather c c.o.r.segs c.o.data.length c.o.data
    s1.copyThen c r a fun s2 b => s2.copySend c b
/-- COPY_OPERATION_PERFORM (R281, R283). -/
def execCopyOperationPerform (core idx : Nat) (s : State) : Out :=
  match (s.core core).copyOps[idx]? with
  | none => off "COPY_OPERATION_PERFORM: no such operation"
  | some o =>
    match s.copyCtx core o with
    | none => .fault (.dangling "copy operation")
    | some c => if s.copyAllowed c then .next (s.performCopy c) else off "COPY_OPERATION_PERFORM: held"

end Sys2Proof.Machine
end

