-- ==== Sys2Proof/Machine/Waiters.lean ====
section
/-! DEFINITION. What waits on translations and lines: its performance, parking and failure (R228, R229,
R376); the events that end a wait (R227 to R229, R418). -/

namespace Sys2Proof.Machine

/-! ## What a waiter is -/

/-- The core in whose TLB a waiter's translation is cached. -/
def State.waiterCore (s : State) (w : Waiter) : Option Nat :=
  match w with
  | .acc g _ _ => (s.group g).map fun x => coreOf x.track
  | .drain c _ => some c
  | .copy c _ _ => some c
  | .fetch g _ => (s.group g).map fun x => coreOf x.track
  | .fill c _ => some c
  | .notify _ => none
  | .pref c _ => some c
  | .icache c _ => some c
  | .clause t => some (coreOf t)
  | .device => none
def State.copyWait (s : State) (core id : Nat) : Option CopyCtx :=
  match (s.core core).copyOps.find? fun o => o.id == id with
  | some o => s.copyCtx core o
  | none => none
/-- The fault record of a waiter's page (R320), and whether the waiter parks under R229's record for its
instruction. -/
def State.waiterRec (s : State) (die : Nat) (w : Waiter) (write : Bool) (va : Nat) : FaultRec :=
  match w with
  | .acc g r i => match s.accCtx g r i with
    | some c => s.accRec c
    | none => s.dieRec 0 die
  | .copy c _ id => match s.copyWait c id with
    | some x => { s.groupRec 0 x.o.r.group with
        flags := s.privFlag x.o.r.group, iaddr := x.o.r.iaddr, addr := va, smask := s.missing x write va }
    | none => s.dieRec 0 die
  | .fetch g e => match s.group g with
    | some x => { s.groupRec 0 g with flags := s.privFlag g, iaddr := ((find e x.split).map (·.pc.toNat)).getD 0, addr := va }
    | none => s.dieRec 0 die
  | .fill c name => match (s.core c).adfills.find? fun f => f.name == name with
    | some f => { s.groupRec 0 f.group with flags := s.privFlag f.group, iaddr := f.iaddr, addr := va }
    | none => s.dieRec 0 die
  | .drain .. => { s.dieRec 0 die with addr := va }
  | .notify _ => { s.dieRec 0 die with addr := va }
  | .pref .. => { s.dieRec 0 die with addr := va }
  | .icache .. => { s.dieRec 0 die with addr := va }
  | .clause _ => { s.dieRec 0 die with addr := va }
  | .device => { s.dieRec 0 die with addr := va }
/-- A line has come for a unit of the device, or the error in its place: its stores are made, or its next read meets the
error (R227, R369; log 14). -/
def State.deviceLine (s : State) (die line : Nat) : State :=
  let s1 := s.flushLine line
  match s.homeErr die line with
  | some code => if s1.unseen line && !(s1.devErrs.any fun x => x.1 == line) then
      { s1 with devErrs := s1.devErrs ++ [(line, code)] } else s1
  | none => s1
/-- The wait of a waiter ends, and what waited goes on: an access is performed, a fragment or a unit tries
again. `line` is the line that has come, if the wait was for one. -/
def State.performWaiter (s : State) (die : Nat) (line : Option Nat) (w : Waiter) : State :=
  match w with
  | .acc g r i =>
    if (s.accCtx g r i).any fun c => c.a.st == .done then s
    else
      let s1 := s.setAcc g r i .pend
      match s1.accCtx g r i with
      | some c => if s1.allowed c then s1.performAcc c else s1
      | none => s1
  | .drain c id =>
    let s1 := s.updCore c fun k => { k with
      wtb := k.wtb.map fun x => if x.id == id then { x with waiting := false } else x }
    match (s1.core c).wtb.find? fun x => x.id == id with
    | some x => s1.drain c x
    | none => s1
  | .copy c _ id =>
    match s.copyWait c id with
    | some x =>
      let s1 := s.updOp x fun o => { o with st := .pend }
      match s1.copyWait c id with
      | some y => if s1.copyAllowed y then s1.performCopy y else s1
      | none => s1
    | none => s
  | .fetch g e => s.fetchAgain g e
  | .fill c name => s.updCore c fun k => { k with
      adfills := k.adfills.map fun f => if f.name = name then { f with parked := false } else f }
  | .pref c fill =>
    match line with
    | some l => match s.ent die l with
      | some e => if fill && (find l (s.core c).cache).isNone then
          s.updCore c fun k => k.allocate l ((s.linePart l).map (·.partid) |>.getD 0)
            (bytesLine (k.overlay (l * 128) (lineBytes e.data 0 128)))
          else s
      | none => s
    | none => s
  | .notify _ => s
  | .icache c part =>
    match line with
    | some l => match s.homeErr die l, s.ent die l with
      | some code, _ => s.noteErr c part l code
      | none, some e => s.fillIcache c l part e.data
      | none, none => s
    | none => s
  | .clause _ => s
  | .device => match line with
    | some l => s.deviceLine die l
    | none => s
/-- A waiter meets a non-replayable outcome at an address (R228, R229, R257); a malformed entry, at a level (R341). -/
def State.failWaiter (s : State) (w : Waiter) (va code : Nat) (lvl : Nat := 0) : State :=
  match w with
  | .acc g r i => match s.accCtx g r i with
    | some c => if c.a.st = .done then s else s.accFail c 0x14 code
    | none => s
  | .copy c _ id => match s.copyWait c id with
    | some x => s.copyFail x va code
    | none => s
  | .fetch g e => s.fetchFails g e va code lvl
  | .fill c name => s.updCore c fun k => { k with
      adfills := k.adfills.map fun f =>
        if f.name = name then { f with parked := false, outcome := some code } else f }
  | .drain c id => match (s.core c).wtb.find? fun x => x.id == id with
    | some x => s.wtError x code
    | none => s
  | .notify _ => s
  | .pref .. => s
  | .icache .. => s
  | .clause t => s.noteWalk t va code lvl
  | .device => s
/-- How far a waiter's access has come. -/
def State.markWaiter (s : State) (w : Waiter) (st : AccSt) : State :=
  match w with
  | .acc g r i => s.setAcc g r i st
  | .copy c _ id => match s.copyWait c id with
    | some x => s.updOp x fun o => { o with st := st }
    | none => s
  | .fill c name => s.updCore c fun k => { k with
      adfills := k.adfills.map fun f => if f.name = name then { f with parked := st == .parked } else f }
  | _ => s
/-- A waiter's access is done already: of an atomic, with the other lanes of its line (R250). -/
def State.waiterOver (s : State) (w : Waiter) : Bool :=
  match w with
  | .acc g r i => (s.accCtx g r i).any fun c => c.a.st == .done
  | _ => false
/-- A waiter's access waits in the parked space (R229); it waits in its engine while that is full. PREF and CCTL never
park, and a clause's fetch learns the outcome of its walk. -/
def State.parkWaiter (s : State) (die : Nat) (part : BitVec 16) (w : Waiter) (write : Bool) (va kind : Nat) :
    State :=
  let quiet := match w with
    | .acc g r i => (s.accCtx g r i).filter fun c => c.r.kind.quiet
    | _ => none
  match w, quiet with
  | .clause t, _ => s.noteWalk t va kind 0
  | _, some c => s.accDone c []
  | _, none =>
    let kind := if w matches .fill .. then 0x24 else kind
    if s.waiterOver w then s
    else match s.park die part va write w kind (s.waiterRec die w write va) with
    | some s1 => s1.markWaiter w .parked
    | none => s.markWaiter w .pend
/-- A walk of a die has found no leaf: an access parks, or fails; a unit outside the cores meets the outcome when it tries
again (R228, R229). -/
def State.walkFails (s : State) (die : Nat) (part : BitVec 16) (x : Waiter × Bool × Nat) (code lvl : Nat) : State :=
  if x.1 matches .device | .notify _ then
    s.updDie die fun d => { d with walked := d.walked ++ [(part, x.2.2 / 4096, code, lvl)] }
  else if code = 0x18 then s.parkWaiter die part x.1 x.2.1 x.2.2 0x18
  else s.failWaiter x.1 x.2.2 code lvl

/-! ## WALK_COMPLETE (R228) -/

/-- A leaf in the translation cache of a die and the TLB of a waiter's core. -/
def State.fillFor (s : State) (die : Nat) (w : Waiter) (t : Trans) : State :=
  match s.waiterCore w with
  | some c => s.fillTrans c t
  | none => s.updDie die fun d => { d with tcache := insTrans 16 tcacheSet t d.tcache }
/-- A walk has read its entries: what it has come to reaches each access that waits for it. -/
def State.walkEnds (s : State) (die : Nat) (w : Walk) (r : WalkRes) : State :=
  let fails (code lvl : Nat) : State := w.waiters.foldl (fun s x => s.walkFails die w.part x code lvl) s
  match r with
  | .leaf b pa wr h =>
    let t : Trans := ⟨w.part, w.va / 2 ^ b, b, pa, wr, h⟩
    w.waiters.foldl (fun s x => s.performWaiter die none x.1) (w.waiters.foldl (fun s x => s.fillFor die x.1 t) s)
  | .notPresent => fails 0x18 0
  | .region lvl => fails 1 lvl
  | .tableErr => fails 4 0
/-- WALK_COMPLETE: walk `idx` of a die, once the tables that it reads are at hand (R227); one whose line it cannot read
ends it with the table error. -/
def execWalkComplete (die idx : Nat) (s : State) : Out :=
  match (s.die die).walks[idx]? with
  | none => off "WALK_COMPLETE"
  | some w =>
    let ends (s : State) (r : WalkRes) : Out :=
      .next ((s.updDie die fun d => { d with walks := dropNth idx d.walks }).walkEnds die w r)
    match s.see die (s.tableLines w.part w.va) with
    | (.ok, s1) => ends s1 (s1.walk w.part w.va)
    | (.err _, s1) => ends s1 .tableErr
    | (.wait true, s1) => .next s1
    | (.wait false, _) => off "WALK_COMPLETE: a table's line is awaited"

/-! ## ATS (R227, R418) -/

/-- The waiters that try again by themselves, and meet a refusal then. -/
def Waiter.retries : Waiter → Bool
  | .acc .. | .copy .. | .drain .. => false
  | _ => true
/-- ATS_RESPONSE (R227): the host answers a pending request; a refusal is met by each access that waited
for it. -/
def execAtsResponse (idx : Nat) (a : AtsAnswer) (s : State) : Out :=
  match s.atsPending[idx]? with
  | none => off "ATS_RESPONSE"
  | some q =>
    let same (x : AtsReq) : Bool := x.pasid == q.pasid && x.addr == q.addr
    let ws := (s.atsPending.filter same).map (·.waiter)
    let s1 := { s with
      atsPending := s.atsPending.filter fun x => !same x
      atsCache := s.atsCache.filter fun e => !(e.pasid == q.pasid && e.addr == q.addr) }
    match a with
    | .translated h =>
      .next (ws.foldl (fun s w => s.performWaiter ((s.waiterCore w).map dieOf |>.getD 0) none w)
        { s1 with atsCache := s1.atsCache ++ [⟨q.pasid, q.addr, some (h.toNat / 4096)⟩] })
    | .refused =>
      let clear (s : State) : State := { s with
        atsCache := s.atsCache.filter fun e => !(e.pasid == q.pasid && e.addr == q.addr) }
      let refuse (s : State) : State := { clear s with
        atsCache := (clear s).atsCache ++ [⟨q.pasid, q.addr, none⟩] }
      let s2 := ws.foldl (fun s w =>
        (refuse s).performWaiter ((s.waiterCore w).map dieOf |>.getD 0) none w) s1
      .next (if ws.any Waiter.retries then refuse s2 else clear s2)
/-- ATS_INVALIDATION (R418): held while a store that used a translation has still to be issued. -/
def execAtsInvalidation (pasid addr len : Nat) (s : State) : Out :=
  let hit (e : AtsEnt) : Bool := e.pasid == pasid && decide (addr < (e.addr + 1) * 4096) &&
    decide (e.addr * 4096 < addr + len)
  let pages := ((s.atsCache ++ s.atsOld).filter hit).filterMap (·.host)
  if s.cores.any fun c => c.2.wtb.any fun w => w.pa / 2 ^ 48 == 1 && pages.contains (w.pa % 2 ^ 48 / 4096) then
    off "ATS_INVALIDATION: an access that used the translation has not been issued"
  else .next { s with
    atsCache := s.atsCache.filter fun e => !hit e
    atsOld := s.atsOld.filter fun e => !hit e }

/-! ## The replay doorbell (R229, R416) -/

/-- Whether a doorbell value names a parked access. -/
def Parked.named (p : Parked) (v : Word) : Bool :=
  p.kind != cancelled &&
  (v.getLsbD 30 || match p.recIdx with
    | some i => i % 4096 == v.toNat % 4096
    | none => false)
/-- A parked access leaves the parked space and tries again, which walks again (R229): accesses and copies perform in
the order in which they were parked, what translates no more parks again under a new record. -/
def State.unpark (s : State) (die : Nat) (p : Parked) : State :=
  let queue (s : State) : State := s.updDie die fun d => { d with replays := d.replays ++ [p.waiter] }
  match p.waiter with
  | .acc g r i => if s.waiterOver p.waiter then s else queue (s.setAcc g r i .pend)
  | .copy .. => queue (s.markWaiter p.waiter .pend)
  | w => s.performWaiter die none w
/-- Replays the named accesses of a die. -/
def State.replayDie (s : State) (v : Word) (die : Nat) : State :=
  let named := (s.die die).parked.filter fun p => p.named v
  named.foldl (fun s p => s.unpark die p) (s.updDie die fun d => { d with
    parked := d.parked.filter fun p => !p.named v, walked := [], replays := d.replays.filter s.replaying })
/-- REPLAY_DOORBELL (R229): it comes after the host's earlier writes, which the walks and the replayed accesses see
(R442). -/
def execReplayDoorbell (v : Word) (s : State) : Out :=
  if v.getLsbD 31 then off "REPLAY_DOORBELL: bit 31 cancels"
  else if s.devBusy then off "REPLAY_DOORBELL: earlier writes are under way"
  else onReady s "REPLAY_DOORBELL: not ready" (.next ((List.range 8).foldl (fun s d => s.replayDie v d) s))
/-- The sectors of a page that cancelled copies of one instruction would have read or written (R288). -/
def cancelMask (named : List Parked) (p : Parked) : List Parked × Nat :=
  let mates := named.filter fun q => q.waiter.same p.waiter && q.part == p.part && q.va / 4096 == p.va / 4096
  (mates, (mates.map fun q => q.va % 4096 / 128).eraseDups.foldl (fun m i => m + 2 ^ i) 0)
/-- A cancelled access takes the outcome of code 8 (R229, R257); the copies of one instruction and page share a record
with their sectors (R288, R294). -/
def State.cancel (s : State) (named : List Parked) (p : Parked) : State :=
  let (mates, mask) := cancelMask named p
  match p.waiter with
  | .copy c _ id => match s.copyWait c id with
    | none => s
    | some x =>
      if x.o.r.kind matches .cpy | .cpyt then
        (if mates.head? = some p then s.copyRecord x p.va mask 8 else s).copyLost x
      else if x.o.r.kind = .lzsend then s.sendLost x p.va mask 8
      else s.failWaiter p.waiter p.va 8
  | w => s.failWaiter w p.va 8
/-- Cancels the named accesses of a die. A unit outside the cores meets it when it tries again. -/
def State.cancelDie (s : State) (v : Word) (die : Nat) : State :=
  let named := (s.die die).parked.filter fun p => p.named v
  let unit (p : Parked) : Bool := p.waiter matches .device | .notify _
  let s1 := s.updDie die fun d => { d with
    parked := (d.parked.filter fun p => !named.contains p || unit p).map fun p =>
      if named.contains p then { p with kind := cancelled } else p }
  named.foldl (fun s p => if unit p then s else s.cancel named p) s1
/-- CANCEL_DOORBELL (R229). -/
def execCancelDoorbell (v : Word) (s : State) : Out :=
  if v.getLsbD 31 then
    onReady s "CANCEL_DOORBELL: not ready" (.next ((List.range 8).foldl (fun s d => s.cancelDie v d) s))
  else off "CANCEL_DOORBELL: bit 31 is clear"

end Sys2Proof.Machine
end

