-- ==== Sys2Proof/Machine/Saves.lean ====
section
/-! DEFINITION. Saving, restoring and migrating groups (R51, R69, R121, R212, R331 to R336, R350), service requests and
their replies (R328 to R330), waiting fault records (R321). -/

namespace Sys2Proof.Machine

/-! ## When a group can be saved (R332, R333) -/

/-- A fragment counts as stopped: at a safe point, joining, deferred, waiting or held; every fragment, where each
stops at its next clause boundary (R328, R332). The end of a wait that is due has been applied (R180). -/
def fragStopped (reason : Nat) (f : Frag) : Bool :=
  f.due.isNone && (reason == 2 || reason == 3 || f.stop.isSome || f.held || f.state == .joining ||
    f.state == .deferred || f.state == .waiting)
/-- The group's track is between two clauses (R180). -/
def State.offTrack (s : State) (grp : Group) : Bool := (s.track grp.track).run.isNone
/-- A record has left its engine, apart from accesses parked under R229. -/
def MemRec.left (r : MemRec) : Bool := r.lanes.all fun x => x.st == .done || x.st == .parked
/-- The reads that a tile's pending terms wait for are held by translation faults (R212). -/
def Core.fillsHeld (k : Core) (p : Nat) : Bool :=
  ((look Tile.start p k.tiles).replay.all fun r => r.terms.all fun t =>
    k.adfills.all fun f => f.parked || !(f.bind == t.b && f.id == t.id))
/-- The logical tiles whose readability a record waits for (R204, R209). -/
def MatKind.waitsFor (k : MatKind) (grp : Group) : List Nat :=
  match k with
  | .accst a .. => [a]
  | .accmovTo a .. => [a]
  | .accmovFrom a .. => [a]
  | .accscl a .. => [a]
  | .accwait a all => if all then grp.amap.map (·.1) else [a]
  | _ => []
/-- The issued records at the head of the matrix queue have finished (R212), but one that waits for the adapter terms of
its own tile, whose reads are then held, and an ADINV, which starts again (log 27). Issued records behind an unissued one
are saved with it: R212 names the records that have not issued, and R185 lets no record pass another (DESIGN CHOICE,
log 44). -/
def Core.matLeft (k : Core) (grp : Group) : Bool :=
  match grp.matq with
  | [] => true
  | r :: _ => !r.issued || ((r.kind.waitsFor grp).any fun a => match grp.phys a with
      | some p => !(look Tile.start p k.tiles).replay.isEmpty
      | none => false) ||
    match r.kind with
    | .adinv .. => true
    | _ => false
/-- The group's records have left their engines, and its release is made: at device scope (R261), where the core's whole
write-through buffer drains (R223), and at system scope for SVC (R260, R272, R328). -/
def State.recordsLeft (s : State) (g : Nat) (grp : Group) : Bool :=
  let core := coreOf grp.track
  let k := s.core core
  (grp.memq.all (·.left)) &&
  (k.matUnit.all fun o => o.members.all fun m => m.group != g) && (grp.amap.all fun m => k.fillsHeld m.2) &&
  k.matLeft grp &&
  (s.copyRecs.all fun r => r.group != g) && (s.copyOpsAll.all fun o => o.r.group != g || o.st == .parked) &&
  (s.sends.all fun x => x.group != g) && k.wtb.isEmpty &&
  (grp.reason != 3 || ((s.hostPosted.all fun p => p.1 != g) && s.nodePosted.all fun p => p.1 != g))
/-- A group can be saved between two clauses of its track (R180, R332, R333); one with a parity error stops at that
boundary instead (R122). -/
def State.canSave (s : State) (g : Nat) (grp : Group) : Bool :=
  grp.resid == .bound && grp.preempt && !grp.parity && !grp.split.isEmpty && (grp.split.all fun e => fragStopped grp.reason e.2) &&
  s.offTrack grp && s.recordsLeft g grp
/-- The live-mask word that a save applies (R69, R328, R332, R333): all ones for a full save. -/
def savedMask (grp : Group) : DWord :=
  if grp.reason = 2 then BitVec.allOnes 64
  else if grp.reason = 3 then
    match grp.svc.bind fun c => find c.entry grp.split with
    | some f => f.stop.getD (BitVec.allOnes 64)
    | none => BitVec.allOnes 64
  else grp.split.foldl (fun m e => m ||| e.2.stop.getD 0) 0

/-! ## The save slot (R226, R333) -/

/-- Words of a table from a key up, and their poison bits, in the order of the slot. -/
def slotWords (m : SMap RegWord) (key n : Nat) : List Byte :=
  (List.range n).flatMap fun i => wordBytes (look RegWord.zero (key + i) m).val
def slotMarks (m : SMap RegWord) (key n : Nat) : List Byte :=
  (List.range (n / 8)).map fun j => BitVec.ofNat 8 ((List.range 8).foldl (fun x b =>
    x + bits01 ((look RegWord.zero (key + 8 * j + b) m).ecc == .poisoned) * 2 ^ b) 0)
/-- Bytes of a slot that cannot be read (R216). -/
def State.slotLost (s : State) (a n : Nat) : Bool := (List.range n).any fun i => s.lostAt (a + i)
/-- Words read back from a slot, poisoned where marked, or where the line that held them is lost (R216; log 14). -/
def State.readWords (s : State) (a marks key : Nat) : Nat → SMap RegWord → SMap RegWord
  | 0, m => m
  | n + 1, m =>
    let w := BitVec.ofNat 32 (s.physNat (a + 4 * n) 4)
    let bad := (s.physByte (marks + n / 8)).getLsbD (n % 8) || s.slotLost (a + 4 * n) 4 || s.slotLost (marks + n / 8) 1
    s.readWords a marks key n (put RegWord.zero (key + n) (if bad then RegWord.poison w else RegWord.of w) m)
def named (live : DWord) (i : Nat) : Bool := live.getLsbD i
/-- The blocks of v and s registers that a mask names, and its tiles, within the declarations (R69). -/
def namedV (live : DWord) (g : Grid) : List Nat := (List.range g.vcount).filter fun r => named live (32 + r / 8)
def namedS (live : DWord) : List Nat := (List.range 128).filter fun r => named live (16 + r / 8)
def namedT (live : DWord) (g : Grid) : List Nat := (List.range g.tilesDecl).filter (named live)
/-- Slot offsets of a tile: its elements, rank accumulator, row ids and poison bits. -/
def slotTile (g : Grid) (t : Nat) : Nat := 0x1000 + 132 * g.vcount + 12736 * t
def FState.code : FState → Nat
  | .ready => 0 | .joining => 1 | .waiting => 2 | .deferred => 3 | .parked => 4
/-- An entry of the split table in the field order of R36, packed (log 27). -/
def Frag.bits (f : Frag) : Nat :=
  1 + f.mask.toNat * 2 ^ 1 + f.pc.toNat * 2 ^ 33 + f.rcv.toNat * 2 ^ 90 + f.depth.toNat * 2 ^ 147 +
  bits01 f.defer * 2 ^ 153 + f.age % 128 * 2 ^ 154 + FState.code f.state * 2 ^ 161 + f.word % 32 * 2 ^ 164
/-- The header from 0x230 to 0x26F. -/
def slotHeader (grp : Group) (live : DWord) (tileFlags : Nat) : List Byte :=
  leBytes 8 grp.gang.toNat ++ leBytes 8 live.toNat ++ leBytes 4 grp.fltstat.toNat ++
  leBytes 4 (grp.cursor % 32 + grp.batch % 2 ^ 16 * 2 ^ 16) ++ leBytes 8 grp.trapvec.toNat ++
  (List.range 4).flatMap (fun i => wordBytes (look 0 i grp.trapinfo)) ++
  (List.range 8).flatMap (fun i => leBytes 1 (look 0 i grp.sb)) ++
  leBytes 4 (grp.reason % 8 + ((grp.svc.map (·.ticket)).getD 0) * 2 ^ 16) ++ leBytes 4 tileFlags ++ leBytes 16 0
/-- Words and marks at two addresses. -/
def wordStores (a marks : Nat) (m : SMap RegWord) (key n : Nat) : List (Nat × List Byte) :=
  [(a, slotWords m key n), (marks, slotMarks m key n)]
/-- A tile at its place. -/
def tileStores (a : Nat) (t : Tile) : List (Nat × List Byte) :=
  wordStores a (a + 12352) t.elems 0 2048 ++ wordStores (a + 8192) (a + 12608) t.rank 0 1024 ++
  [(a + 12288, (List.range 32).flatMap fun r => leBytes 2 (t.rowId r))]
/-- A tile read back. -/
def State.getTile (s : State) (a : Nat) (flag : Bool) : Tile :=
  { elems := s.readWords a (a + 12352) 0 2048 [], rank := s.readWords (a + 8192) (a + 12608) 0 1024 [],
    rowIds := (List.range 32).foldl (fun m r => put 0 r (BitVec.ofNat 16 (s.physNat (a + 12288 + 2 * r) 2)) m) [],
    replay := [], flag := flag }

/-! ## GROUP_SAVE (R121, R212, R333) -/

/-- The device reads stored words: the table after it, and the errors counted (R119, R121). -/
def examine (m : SMap RegWord) (keys : Nat → Bool) : SMap RegWord × Nat × Nat :=
  let hit (e : Ecc) : Nat := (m.filter fun x => keys x.1 && x.2.ecc == e).length
  ((m.map fun x => if keys x.1 then (x.1, x.2.seen) else x).filter fun x => x.2 != RegWord.zero, hit .single, hit .double)
/-- One save event for each poisoned word among some registers (R121). The spec does not say what INFO holds for an s
register, which has no lane: it holds the register's number alone, as for a v register, and LANE is 0 with its valid
bit clear (DESIGN CHOICE, log 55). -/
def State.saveEvents (s : State) (g : Nat) (m : SMap RegWord) (info lane : Nat → Nat) : State :=
  (m.filter fun x => x.2.ecc == .poisoned).foldl (fun s x =>
    s.report { s.groupRec 0x30 g with info := info x.1, lane := lane x.1 }) s
/-- The split table while its group has no track: every entry is parked (R181); a YIELD keeps what is left of its
counts (log 27). -/
def savedFrag (k : Track) (f : Frag) : Frag :=
  { f with
    state := .parked
    prev := f.state
    stop := none
    wait := match f.wait with
      | .yield c n => .yield (c - k.clauses) (n - k.steps)
      | w => w }
/-- What a save stores of a group whose words the device has examined. -/
def slotStores (a : Nat) (grp : Group) (gd : Grid) (live : DWord) (tiles : List (Nat × Tile)) : List (Nat × List Byte) :=
  let flags := tiles.foldl (fun n t => n + bits01 t.2.flag * 2 ^ t.1) 0
  ((List.range 16).filter fun j => named live (16 + j)).flatMap
    (fun j => wordStores (a + 32 * j) (a + 0x200 + j) grp.s (8 * j) 8) ++
  ((List.range 8).filter fun r => r == 0 || named live (8 + r)).map
    (fun r => (a + 0x210 + 4 * r, wordBytes (look 0 r grp.k))) ++
  [(a + 0x230, slotHeader grp live flags)] ++
  (if gd.usesXc then [(a + 0x280, (List.range 8).flatMap fun i => leBytes 20 (look 0 i grp.xc).toNat)] else []) ++
  (if gd.usesF then [(a + 0x320, (List.range 4).flatMap fun i => leBytes 32 (look 0 i grp.f).toNat)] else []) ++
  [(a + 0x3A0, ((List.range 16).flatMap fun e => leBytes 24 (((find e grp.split).map Frag.bits).getD 0)) ++ leBytes 736 0)] ++
  (namedV live gd).flatMap (fun r => wordStores (a + 0x1000 + 132 * r) (a + 0x1000 + 132 * r + 128) grp.v (32 * r) 32) ++
  tiles.flatMap fun t => tileStores (a + slotTile gd t.1) t.2
/-- Writes the slot of a group, as one store of the device (R216, R226). -/
def State.writeSlot (s : State) (a : Nat) (grp : Group) (gd : Grid) (live : DWord) (core : Nat) : State :=
  let tiles := (namedT live gd).filterMap fun t => (grp.phys t).map fun p => (t, s.tile core p)
  s.physStores ((slotStores a grp gd live tiles).map fun x => (x.1, wholeBytes x.2))
/-- The handed-over matrix records go to their place in the slot, in the device's own format, whose bytes the spec does
not give: the bytes are a free value, and `slotMat` holds what they stand for (R212, R333; log 15). -/
def State.slotRecords (s : State) (g a : Nat) (matq : List MatRec) : State :=
  if matq.isEmpty then s else
  let (x, s1) := s.draw
  (s1.physWrite (a + 0x800) (leBytes 2048 x)).updGroup g fun y => { y with
    matq := []
    slotMat := matq.map fun r => match r.kind with
      | .adinv all id _ => { r with kind := .adinv all id none, started := false }
      | _ => r }
/-- Saves a group: registers examined, slot written, track slot, words and tiles freed. R121 asks for a save event for
a register; none is entered for a poisoned tile element or rank word, of which R212 says only that its marker is saved
(DESIGN CHOICE, log 55). -/
def State.save (s : State) (g : Nat) (grp : Group) (gd : Grid) (tm : Team) : State :=
  let core := coreOf grp.track
  let live := savedMask grp
  let (v, cv, uv) := examine grp.v fun k => named live (32 + k / 256)
  let (sr, cs, us) := examine grp.s fun k => named live (16 + k / 8)
  let onTiles (s : State) (t : Nat) : State := match grp.phys t with
    | some p =>
      let x := s.tile core p
      let (e, ce, ue) := examine x.elems fun _ => true
      let (r, cr, ur) := examine x.rank fun _ => true
      (s.setTile core p { x with elems := e, rank := r }).updCore core (·.count (ce + cr) (ue + ur))
    | none => s
  let s1 := (namedT live gd).foldl onTiles (s.updCore core (·.count (cv + cs) (uv + us)))
  let grp1 := { grp with v := v, s := sr }
  let s2 := (s1.saveEvents g (v.filter fun x => named live (32 + x.1 / 256)) (· / 32) (128 + · % 32)).saveEvents g
    (sr.filter fun x => named live (16 + x.1 / 8)) id fun _ => 0
  let a := slotBase gd tm grp.idx
  let s3 := (s2.writeSlot a { grp1 with split := grp.split.map fun e => (e.1, savedFrag (s.track grp.track) e.2) }
    gd live core).slotRecords g a grp.matq
  let keep := (namedT live gd).filterMap fun t => (grp.phys t).map fun p =>
    (t, (s.tile core p).replay.map fun r => { r with terms := r.terms.map fun x => { x with uses := [] } })
  let s4 := (s3.unbind g).updCore core fun k => { k with
    tiles := k.tiles.filter fun e => !(grp.amap.any fun m => m.2 == e.1) }
  let s5 := s4.updGroup g fun x => { x with
    v := [], s := [], amap := [], kept := keep, live := live, resid := .saved, preempt := false,
    split := x.split.map fun e => (e.1, savedFrag (s.track grp.track) e.2) }
  if grp.reason = 3 then { s5 with svcWait := s5.svcWait ++ [g] } else s5
/-- GROUP_SAVE (R333) of the group that `pick` names. -/
def execGroupSave (s : State) : Out :=
  match s.group s.pick with
  | none => off "GROUP_SAVE"
  | some grp =>
    match s.grid grp.grid, s.team grp.team with
    | some gd, some tm =>
      if gd.st ≠ .aborted ∧ s.canSave s.pick grp then .next (s.save s.pick grp gd tm) else off "GROUP_SAVE"
    | _, _ => off "GROUP_SAVE"
/-- PREEMPT_FORCE (R332) of the group that `pick` names: 20 µs after the request. -/
def execPreemptForce (s : State) : Out :=
  match s.group s.pick with
  | none => off "PREEMPT_FORCE"
  | some grp =>
    if grp.resid = .bound ∧ grp.preempt ∧ (grp.reason = 1 ∨ grp.reason = 4) ∧ grp.since + 2000 ≤ s.now then
      .next (s.updGroup s.pick fun x => { x with reason := 2 })
    else off "PREEMPT_FORCE"

/-! ## GROUP_RESTORE (R51, R69, R334) -/

/-- An entry takes its previous state with age 0; a sleep is over (R181). -/
def restoredFrag (k : Track) (f : Frag) : Frag :=
  match f.wait with
  | .sleep _ => { f with age := 0, state := .ready, wait := .none }
  | .yield c n => { f with age := 0, state := f.prev, wait := .yield (c + k.clauses) (n + k.steps) }
  | _ => { f with age := 0, state := f.prev }
/-- The v words that the reply of an SVC gives (R330). -/
def replyWords (grp : Group) : List Nat :=
  match grp.svc with
  | some c => (lanesOf c.lanes).flatMap fun i => (List.range 16).map fun j => vkey (c.va + j) i
  | none => []
/-- The registers of a group as its slot gives them: every unnamed one reads 0 (R69, R334), and so do the bits that a
register keeps zero (R5, R114, R322). Where a line of the header is lost, the group has a parity error (R122, R216;
log 14). -/
def State.readSlot (s : State) (a : Nat) (grp : Group) (gd : Grid) : Group :=
  let vAt (m : SMap RegWord) (key n : Nat) : SMap RegWord :=
    s.readWords (a + slotWordOff .v key) (a + 0x1000 + 132 * (key / 32) + 128 + key % 32 / 8) key n m
  let one (m : SMap RegWord) (key : Nat) : SMap RegWord :=
    let w := BitVec.ofNat 32 (s.physNat (a + slotWordOff .v key) 4)
    let (o, i) := slotPoison .v key
    put RegWord.zero key (if (s.physByte (a + o)).getLsbD i || s.slotLost (a + slotWordOff .v key) 4 || s.slotLost (a + o) 1 then RegWord.poison w else RegWord.of w) m
  let v := (replyWords grp).foldl one ((namedV grp.live gd).foldl (fun m r => vAt m (32 * r) 32) [])
  let sAt (m : SMap RegWord) (r : Nat) : SMap RegWord :=
    let w := BitVec.ofNat 32 (s.physNat (a + 4 * r) 4)
    put RegWord.zero r (if (s.physByte (a + 0x200 + r / 8)).getLsbD (r % 8) || s.slotLost (a + 4 * r) 4 ||
        s.slotLost (a + 0x200 + r / 8) 1 then RegWord.poison w else RegWord.of w) m
  let sd := match grp.svc with
    | some c => [c.sd]
    | none => []
  { grp with
    v := v
    parity := s.slotLost (a + 0x210) 0x5F0
    s := (namedS grp.live ++ sd).foldl sAt []
    k := (List.range 8).foldl (fun m r => if r == 0 || named grp.live (8 + r) then
      put 0 r (BitVec.ofNat 32 (s.physNat (a + 0x210 + 4 * r) 4)) m else m) []
    gang := BitVec.ofNat 64 (s.physNat (a + 0x230) 8 % 2 ^ 50)
    fltstat := BitVec.ofNat 32 (s.physNat (a + 0x240) 4 % 2 ^ 16)
    cursor := s.physNat (a + 0x244) 1 % 32
    trapvec := BitVec.ofNat 64 (s.physNat (a + 0x248) 8)
    trapinfo := (List.range 4).foldl (fun m i =>
      put 0 i (BitVec.ofNat 32 (s.physNat (a + 0x250 + 4 * i) 4 % if i = 1 then 2 ^ 30 else 2 ^ 32)) m) []
    xc := if gd.usesXc then (List.range 8).foldl (fun m i =>
      put 0 i (BitVec.ofNat 160 (s.physNat (a + 0x280 + 20 * i) 20 % 2 ^ 144)) m) [] else []
    f := if gd.usesF then (List.range 4).foldl (fun m i =>
      put 0 i (BitVec.ofNat 256 (s.physNat (a + 0x320 + 32 * i) 32)) m) [] else [] }
/-- A saved tile on a reserved physical tile, with its replay entries, which look their blocks up afresh (R212). -/
def State.restoreTile (s : State) (core g : Nat) (gd : Grid) (a : Nat) (x : Nat × List ReplayRow) : State :=
  match (s.core core).unusedTile with
  | none => s
  | some p =>
    let flag := (s.physByte (a + 0x26C)).getLsbD x.1
    let rows := x.2.map fun r => { r with group := g }
    let s1 := (s.setTile core p { s.getTile (a + slotTile gd x.1) flag with replay := rows }).updGroup g fun y =>
      { y with amap := ins x.1 p y.amap }
    (rows.flatMap (·.terms)).foldl (fun s t => s.fetchNeeds core gd.part g t.iaddr t.b t.id t.needs) s1
/-- Restores a group on a track of its team's core. -/
def State.restore (s : State) (g : Nat) (grp : Group) (gd : Grid) (tm : Team) (t : Nat) : State :=
  let core := coreOf t
  let a := slotBase gd tm grp.idx
  let g1 := s.readSlot a grp gd
  let s1 := ((s.acquire core .dev).setGroup g { g1 with
    resid := .bound, reason := 0, live := 0, preempt := false, svc := none, kept := [], slotMat := [], mig := false,
    matq := g1.slotMat ++ g1.matq, split := g1.split.map fun e => (e.1, restoredFrag (s.track t) e.2) }).bindTo g t
  (grp.kept.foldl (fun s x => s.restoreTile core g gd a x) s1).driveTiles core
/-- The track on which a ready group can be restored on a core, if the core can bind it and hold its tiles (R331). -/
def State.restoreTrack (s : State) (core : Nat) (gd : Grid) : Option Nat :=
  if gd.tilesDecl ≤ s.freeTiles core then
    match s.tracksFor core gd 1 with
    | some [t] => some t
    | _ => none
  else none
/-- The lines of a slot that a restore reads. -/
def slotLines (a : Nat) (grp : Group) (gd : Grid) : List Nat :=
  let span (o n : Nat) : List Nat := (List.range (n / 128 + 2)).map fun i => (a + o + min (128 * i) (n - 1)) / 128
  (span 0 0x1000 ++ (namedV grp.live gd).flatMap (fun r => span (0x1000 + 132 * r) 132) ++
    (replyWords grp).flatMap (fun k => span (0x1000 + 132 * (k / 32)) 132) ++
    (grp.kept.flatMap fun x => span (slotTile gd x.1) 12736)).eraseDups
/-- GROUP_RESTORE (R331, R334) of the group that `pick` names, between two clauses of its track (R180), once what its slot
holds is at hand (R226). -/
def execGroupRestore (s : State) : Out :=
  match s.group s.pick with
  | none => off "GROUP_RESTORE"
  | some grp =>
    match s.grid grp.grid, s.team grp.team with
    | some gd, some tm =>
      match s.restoreTrack tm.core gd with
      | some t =>
        let lines := slotLines (slotBase gd tm grp.idx) grp gd
        if grp.resid = .ready ∧ gd.st ≠ .aborted ∧ tm.migrate.isNone ∧ (s.track t).run.isNone then
          if lines.any s.unseen then
            match s.see (dieOf tm.core) (lines.filter s.unseen) with
            | (.wait false, _) => off "GROUP_RESTORE: a line of the slot is awaited"
            | (.err _, s1) => .next ((s1.restore s.pick grp gd tm t).updGroup s.pick fun x => { x with parity := true })
            | (_, s1) => .next s1
          else .next ((lines.foldl (fun s l => s.scrubHome l) s).restore s.pick grp gd tm t)
        else off "GROUP_RESTORE"
      | none => off "GROUP_RESTORE: the core cannot bind it"
    | _, _ => off "GROUP_RESTORE"

/-! ## TEAM_MIGRATION (R335, R336, R350) -/

/-- A pre-emption request reaches a group (R332): one of the driver's holds the group saved after a migration too. -/
def Group.request (x : Group) (reason now : Nat) (mig : Bool) : Group :=
  if x.resid = .bound ∧ !x.split.isEmpty then
    if x.preempt then { x with mig := x.mig && mig }
    else { x with preempt := true, reason := reason, since := now, mig := mig }
  else x
/-- The target: the driver's, or, where a ready group cannot be restored on its core, another core of the die, of which
the device may take any that admits the team (R331), a hot or avoided one only when no other does (R46). -/
def State.migTargets (s : State) (t : Team) (gd : Grid) (n : Nat) : List Nat :=
  let ok (c : Nat) : Bool := c != t.core && s.admits c t.grid gd n true
  match t.migrate with
  | some c => [c].filter ok
  | none =>
    let fit := (s.liveCores.filter fun c => dieOf c == dieOf t.core).filter ok
    let cool := fit.filter fun c => !(s.core c).marked
    if cool.isEmpty then fit else cool
/-- The team must migrate: commanded, or to restore a group (R331). -/
def State.mustMigrate (s : State) (t : Team) (gd : Grid) : Bool :=
  t.migrate.isSome || ((t.groups.any fun g => ((s.group g).map fun x => x.resid == .ready).getD false) &&
    (s.restoreTrack t.core gd).isNone)
/-- The lowest base of the allocation at the target; one with FIFO banks keeps its place within a bank (log 27). -/
def State.migBase (s : State) (core : Nat) (t : Team) (gd : Grid) : Option Nat :=
  let allocs := (s.allocsAt core).map fun x => (x.2.base, x.2.size)
  if ((s.core t.core).fifo.any fun e => overlap (e.1 * 65536) 65536 t.base t.size) then
    ((0 :: allocs.map fun a => a.1 + a.2).map fun x => x + (t.base % 65536 + 65536 - x % 65536) % 65536).filter
      (fun b => decide (b + t.size ≤ gd.banks * 65536) && allocs.all fun a => a.2 == 0 || !overlap a.1 a.2 b t.size) |>.foldl
      (fun best b => match best with
        | none => some b
        | some x => some (min x b)) none
  else lowestBase allocs gd.scr (gd.banks * 65536)
/-- Copies one zone with its slots to a free zone number and a free run of slots of another core, with the generations they
have (DESIGN CHOICE, log 41); none without them. -/
def State.moveZone (s : State) (old new : Nat) (zn : Nat) (z : Zone) : Option State :=
  let k := s.core old
  match (s.core new).freeZone, (s.core new).freeRun z.count with
  | some n, some first =>
    let slots := k.slots.filter fun e => e.2.zone == zn
    let place (i : Nat) : Nat := first + (i - z.first)
    let s1 := s.updCore new fun q => { q with
      zones := ins n { z with first := first } q.zones
      slots := slots.foldl (fun m e => ins (place e.1) { e.2 with zone := n } m) q.slots
      slotWaits := q.slotWaits ++ (k.slotWaits.filter fun w => slots.any fun e => e.1 == w.slot).map fun w =>
        { w with slot := place w.slot } }
    some (s1.updCore old fun q => { q with
      zones := ins zn { Zone.blank with gen := z.gen } q.zones
      slots := q.slots.filter fun e => e.2.zone != zn
      slotWaits := q.slotWaits.filter fun w => !(slots.any fun e => e.1 == w.slot) })
  | _, _ => none
def State.moveZones (s : State) (old new : Nat) : List (Nat × Zone) → Option State
  | [] => some s
  | (n, z) :: l => match s.moveZone old new n z with
    | some s1 => s1.moveZones old new l
    | none => none
/-- Steps 4 to 6: the contents of the allocation, its FIFO counters, the forwarding entries. -/
def State.moveAlloc (s : State) (id : Nat) (t : Team) (new base slot : Nat) : State :=
  let k := s.core t.core
  let cells := (k.scratch.filter fun c => decide (t.base ≤ c.1) && decide (c.1 < t.base + t.size)).map fun c =>
    (c.1 - t.base + base, c.2)
  let banks := k.fifo.filter fun e => overlap (e.1 * 65536) 65536 t.base t.size
  let s1 := s.updCore new fun q => { q with
    scratch := cells.foldl (fun m c => wrByte m c.1 c.2) q.scratch
    fifo := banks.foldl (fun m e => ins ((e.1 * 65536 - t.base + base) / 65536) e.2 m) q.fifo }
  let renew (f : Fwd) : Fwd := if f.team = id then { f with core := new, newBase := base, til := s.now + 400000 } else f
  let s2 : State := { s1 with cores := s1.cores.map fun e => (e.1, { e.2 with fwds := e.2.fwds.map fun f =>
    (f.1, renew f.2) }) }
  s2.updCore t.core fun q => { (q.clearFifos t.base t.size) with
    fwds := ins slot ⟨t.base, t.size, id, new, base, s.now + 400000⟩ q.fwds }
def Core.freeFwd (k : Core) : Option Nat := (List.range 32).find? fun i => (find i k.fwds).isNone
/-- The migration of a team, all of whose groups are saved or over. -/
def State.migrate (s : State) (id : Nat) (t : Team) (gd : Grid) (new : Nat) : Option State :=
  match s.migBase new t gd, (s.core t.core).freeFwd with
  | some base, some slot =>
    let zs := (s.core t.core).zones.filter fun e => e.2.used && e.2.team == id
    let s1 := s.updCore new fun k => k.takeTeam gd.banks base t.size
    match s1.moveZones t.core new zs with
    | none => none
    | some s2 =>
      let s3 := (s2.moveAlloc id t new base slot).updTeam id fun x => { x with
        core := new, base := base, migrate := none }
      some (t.groups.foldl (fun s g => match s.group g with
        | some x =>
          if x.resid = .bound then (s.unbind g).updGroup g fun x => { x with resid := .dead, amap := [] }
          else s.updGroup g fun x => { x with
            track := 128 * new, resid := if x.mig && x.resid == .saved then .ready else x.resid, mig := false }
        | none => s) s3)
  | _, _ => none
/-- TEAM_MIGRATION (R331, R335) of the team that `pick` names: it asks for the save of every group that is still bound,
and, when all are saved, moves the team. -/
def execTeamMigration (s : State) : Out :=
  match s.team s.pick with
  | none => off "TEAM_MIGRATION"
  | some t =>
    match s.grid t.grid with
    | none => off "TEAM_MIGRATION"
    | some gd =>
      let gs := t.groups.filterMap s.group
      let left := gs.filter fun x => !x.over (gd.st == .aborted)
      if t.phase ≠ .running ∨ gd.st = .aborted ∨ !s.mustMigrate t gd then off "TEAM_MIGRATION"
      else if (left.any fun x => x.resid == .bound && !x.preempt) then
        .next (t.groups.foldl (fun s g => s.updGroup g fun x => x.request 4 s.now true) s)
      else if (left.any fun x => x.resid == .bound) || !(gs.all fun x => x.resid != .bound ||
          (x.memq.isEmpty && x.matq.isEmpty)) then off "TEAM_MIGRATION: groups are not saved"
      else
        let cs := s.migTargets t gd left.length
        let (x, s1) := if t.migrate.isSome then (0, s) else s.draw
        match cs[x % cs.length]? with
        | none => off "TEAM_MIGRATION: no core admits the team"
        | some c => match s1.migrate s.pick t gd c with
          | some s2 => .next s2
          | none => off "TEAM_MIGRATION: no free forwarding, zone or slot entry"
/-- FORWARDING_EXPIRY (R336, R350). -/
def execForwardingExpiry (core idx : Nat) (s : State) : Out :=
  match find idx (s.core core).fwds with
  | some f =>
    if f.til ≤ s.now then .next (s.updCore core fun k => { k with fwds := del idx k.fwds })
    else off "FORWARDING_EXPIRY"
  | none => off "FORWARDING_EXPIRY"

/-! ## Service requests (R329, R330) -/

/-- A host physical address. -/
def hostAddr (a : DWord) (ofs : Nat) : Nat := 2 ^ 48 + (a.toNat + ofs) % 2 ^ 48
/-- The header unit of a request. -/
def svcHeader (s : State) (grp : Group) (gd : Grid) (tm : Team) (c : SvcCall) : List Byte :=
  leBytes 4 c.no.toNat ++ leBytes 4 c.lanes.toNat ++ leBytes 1 c.blocks.length ++ leBytes 1 (bits01 c.sp) ++
  leBytes 2 c.ticket ++ leBytes 4 (s.pkg.toNat + dieOf c.core * 2 ^ 18 + c.core % 24 * 2 ^ 21) ++
  leBytes 2 gd.queue ++ leBytes 2 grp.idx ++ leBytes 4 gd.ring ++ leBytes 4 (teamIndex gd tm) ++ leBytes 4 0 ++
  leBytes 8 c.iaddr ++ leBytes 20 0 ++ leBytes 4 s.sys.srtail.toNat
/-- Writes the units of a request into the ring. -/
def State.ringWrite (s : State) : Nat → List (List Byte) → State
  | _, [] => s
  | n, u :: l => (s.physWrite (hostAddr s.sys.srbase (64 * (n % 2 ^ s.sys.srlog2))) u).ringWrite (n + 1) l
/-- SERVICE_REQUEST_WRITE (R329): the oldest request, once the ring has room. -/
def execServiceRequestWrite (s : State) : Out :=
  match s.svcWait with
  | [] => off "SERVICE_REQUEST_WRITE"
  | g :: rest =>
    match s.group g with
    | none => off "SERVICE_REQUEST_WRITE"
    | some grp =>
      match grp.svc, s.grid grp.grid, s.team grp.team with
      | some c, some gd, some tm =>
        let n := c.blocks.length + 1
        if (s.sys.srtail - s.sys.srhead).toNat + n ≤ 2 ^ s.sys.srlog2 then
          let s1 := s.ringWrite s.sys.srtail.toNat (svcHeader s grp gd tm c :: c.blocks.map fun b => b.flatMap wordBytes)
          .next (State.msix { s1 with
            svcWait := rest, sys := { s1.sys with srtail := s1.sys.srtail + BitVec.ofNat 32 n } } 1)
        else off "SERVICE_REQUEST_WRITE: the ring lacks room"
      | _, _, _ => off "SERVICE_REQUEST_WRITE"
/-- The reply is read into the save of its group, which becomes ready to resume (R330). -/
def State.reply (s : State) (g t : Nat) (grp : Group) (c : SvcCall) (core : Nat) : State :=
  let a := 2112 * t
  let word (ofs : Nat) : Word := BitVec.ofNat 32 (s.physNat (hostAddr s.sys.rpbase (a + ofs)) 4)
  if (word 0).getLsbD 0 then (s.abortGrid grp.grid false).freeTicket t
  else
    let s1 := (s.acquire core .sys).putReg g .s c.sd (RegWord.of (word 0))
    let s2 := (lanesOf c.lanes).foldl (fun s i => (List.range 16).foldl (fun s j =>
      s.putReg g .v (vkey (c.va + j) i) (RegWord.of (word (64 + 64 * i + 4 * j)))) s) s1
    (s2.updGroup g fun x => { x with resid := .ready }).freeTicket t
/-- RESUME_DOORBELL (R330): a free ticket is a service-error event; the reply of a discarded group only frees its ticket
(log 27). -/
def execResumeDoorbell (v : DWord) (s : State) : Out :=
  let t := v.toNat
  if !s.boot.ready || s.devBusy then off "RESUME_DOORBELL: not ready, or stores before it are to be made"
  else match find t s.tickets with
  | none => .next (s.report { s.dieRec 0x36 0 with detail := t % 2 ^ 32 })
  | some g =>
    match s.group g with
    | none => .next (s.freeTicket t)
    | some grp =>
      match grp.svc, s.grid grp.grid, s.team grp.team with
      | some c, some gd, some tm =>
        if gd.st = .aborted ∨ gd.st = .done ∨ grp.resid = .dead then .next (s.freeTicket t)
        else if grp.resid = .saved ∧ !s.svcWait.contains g then .next (s.reply g t grp c tm.core)
        else off "RESUME_DOORBELL: the request is not yet in the service ring"
      | _, _, _ => .next (s.freeTicket t)

/-! ## Waiting fault records (R321) -/

/-- Parked accesses whose record has just been written learn its index. -/
def State.noteIndex (s : State) (r : FaultRec) (idx : Nat) : State :=
  let mine (die : Nat) (p : Parked) : Bool :=
    let q := s.waiterRec die p.waiter p.write p.va
    let unit := p.waiter matches .device | .notify _
    p.recIdx.isNone && p.kind == r.kind && p.va / 4096 == r.addr / 4096 &&
    (unit || q.group == r.group && q.iaddr == r.iaddr && q.team == r.team && q.ridx == r.ridx && q.queue == r.queue &&
      q.src == r.src)
  let note (die : Nat) (p : Parked) : Parked := if mine die p then { p with recIdx := some idx } else p
  { s with dies := s.dies.map fun d => (d.1, { d.2 with parked := d.2.parked.map (note d.1) }) }
/-- FAULT_RECORD_WRITE (R321): the oldest waiting record, once the ring has room and the tokens of its line are at hand,
which are asked for (R369; log 14). -/
def execFaultRecordWrite (s : State) : Out :=
  match s.fqPend with
  | [] => off "FAULT_RECORD_WRITE"
  | (g, r) :: rest =>
    if s.fqRoom ∧ !s.fqStorable then
      let d := s.devDie s.fqLine
      if ((s.sreq d s.fqLine).map fun q => q.waiters.contains (.device, true)).getD false then
        off "FAULT_RECORD_WRITE: the tokens of its line are awaited"
      else .next (s.request d s.fqLine true .device)
    else if s.fqRoom then
      let s1 := ({ s with fqPend := rest }.noteIndex r s.sys.fqtail.toNat).putRecord r
      .next (if rest.any fun e => e.1 == g then s1 else s1.updGroup g fun x => { x with stopped := false })
    else off "FAULT_RECORD_WRITE: the ring is full"
/-- DEPCTR_HOST_WRITE (R367). -/
def execDepctrHostWrite (c : Nat) (v : BitVec 16) (s : State) : Out :=
  if c < 4096 then onReady s "DEPCTR_HOST_WRITE: not ready" (.next (s.setDep c v.toNat)) else off "DEPCTR_HOST_WRITE"

end Sys2Proof.Machine
end

