-- ==== Sys2Proof/Machine/Tokens.lean ====
section
/-! DEFINITION. The events of the Dvoros protocol: what slices and homes do with messages, persistent
requests, recounts and incarnations (R368 to R398), and the patrol scrub (R216). -/

namespace Sys2Proof.Machine

/-! ## Receiving -/

/-- The tokens that a message carries. -/
def Msg.tokens : Msg → Nat
  | .tok _ p | .putt _ p | .rack _ p => p.count
  | _ => 0
/-- Messages of the recovery logic, which no die sends (R371). -/
def Msg.recovery : Msg → Bool
  | .down .. | .up .. => true
  | _ => false
/-- Adds to a die's stale-token count (R352, R372, R392). -/
def State.staleAt (s : State) (d : Nat) : State := s.updDie d fun x => { x with stale := satInc x.stale }
/-- Takes the Dvoros message that `pick` names at its die (R372): one from an old incarnation, tokens at a die that has
just rejoined (R395), and all that reach a failed die, are discarded. -/
def onToken (s : State) (what : String) (mine : Msg → Bool) (k : State → Nat → Nat → Msg → State) : Out :=
  match s.net[s.pick]? with
  | none => off what
  | some f =>
    match f.dest with
    | .die i =>
      match s.ownDie i with
      | none => off what
      | some d =>
        if !mine f.msg || decide (maxAge ≤ Flight.age f s.now) then off what
        else if (s.die d).failed then .next { s with net := dropNth s.pick s.net }
        else
          let s1 := { s with net := dropNth s.pick s.net }
          let old := !Msg.recovery f.msg && look 0 f.src (s.die d).known != f.inc
          let early := Msg.tokens f.msg != 0 && (s.die d).upUntil.isSome
          .next (if old || early then (if Msg.tokens f.msg != 0 then s1.staleAt d else s1) else k s1 d f.src f.msg)
    | _ => off what
/-- a is greater than b modulo 2^16 (R381). -/
def newer (a b : BitVec 16) : Bool := a != b && decide ((a - b).toNat < 2 ^ 15)

/-! ## Slices -/

/-- Every access that waits on a line tries again, the line's request being over unless its PREQ is outstanding
(R379) and `all` does not end that too. -/
def State.retryLine (s : State) (d line : Nat) (all : Bool) : State :=
  match s.sreq d line with
  | none => s
  | some r =>
    let s1 := if r.phase = .persistent ∧ !all then s.setSreq d line { r with waiters := [] } else s.dropSreq d line
    r.waiters.foldl (fun s w => s.performWaiter d (some line) w.1) s1
/-- Performs waiting accesses in order while the entry allows; answers those that remain (R376). -/
def State.performLine (s : State) (d line : Nat) : List (Waiter × Bool) → List (Waiter × Bool) × State
  | [] => ([], s)
  | (w, wr) :: l =>
    if s.satisfied d line wr then (s.performWaiter d (some line) w).performLine d line l else ((w, wr) :: l, s)
/-- Accesses that could not be performed wait again (R373). -/
def State.waitAgain (s : State) (d line : Nat) (l : List (Waiter × Bool)) : State :=
  l.foldl (fun s w => s.request d line w.2 w.1) s
/-- Sends PREQ for a line (R378, R379). -/
def State.sendPreq (s : State) (d line : Nat) (write : Bool) : State :=
  match s.lineHome line with
  | some h => s.post d (.die h) (.preq line write (sliceOf line))
  | none => s
/-- Outstanding requests of a slice whose lines have one home, with their lines. -/
def State.sameHome (s : State) (d line : Nat) : List (Nat × SliceReq) :=
  (s.sreqs.filter fun e => e.1 / 2 ^ 45 == d && sliceOf (e.1 % 2 ^ 45) == sliceOf line &&
    s.lineHome (e.1 % 2 ^ 45) == s.lineHome line).map fun e => (e.1 % 2 ^ 45, e.2)
/-- With no PREQ outstanding at their home, the line that waited longest for it sends its PREQ (R379). -/
def State.unblock (s : State) (d line : Nat) : State :=
  if (s.sameHome d line).any fun e => e.2.phase == .persistent then s
  else match ((s.sameHome d line).filter fun e => e.2.phase == .blocked).foldl
      (fun (b : Option (Nat × SliceReq)) e => match b with
        | none => some e
        | some x => if e.2.since < x.2.since then some e else some x) none with
  | some e => (s.setSreq d e.1 { e.2 with phase := .persistent, since := s.now }).sendPreq d e.1 e.2.write
  | none => s
/-- The requester's own active request is satisfied: the accesses are performed, then PDONE (R383). -/
def State.finishOwn (s : State) (d line h : Nat) (e : PEnt) : State :=
  let ws := ((s.sreq d line).map (·.waiters)).getD []
  let (rest, s1) := (s.dropSreq d line).performLine d line ws
  let s2 := (s1.setPent d (sliceOf line) h { e with forwarded := true }).post d (.die h) (.pdone line e.seq)
  (s2.waitAgain d line rest).unblock d line
/-- The error response of a line reaches its requester (R216, R394; log 31): each access that waits meets it, and the
requester's own active request has no more to wait for (R383). -/
def State.errArrives (s : State) (d line code : Nat) : State :=
  let s0 := { s with errAt := some (d, line, code) }
  match s.lineHome line with
  | none => s
  | some h =>
    let e := s.pent d (sliceOf line) h
    let own := e.on && e.line == line && e.die == s.islDie d && !e.forwarded
    let s1 := { s0.retryLine d line own with errAt := none }
    if own then
      ((s1.setPent d (sliceOf line) h { e with forwarded := true }).post d (.die h) (.pdone line e.seq)).unblock d line
    else s1
/-- What a slice does for a line whose entry has changed (R376, R383). -/
def State.serveLine (s : State) (d line : Nat) : State :=
  match s.lineHome line with
  | none => s
  | some h =>
    let e := s.pent d (sliceOf line) h
    if e.on && e.line == line && e.die == s.islDie d && !e.forwarded && s.satisfied d line e.write then
      s.finishOwn d line h e
    else
      match s.sreq d line with
      | none => s
      | some r =>
        if !s.satisfied d line r.write then s
        else if r.phase = .persistent then
          let (rest, s1) := (s.setSreq d line { r with waiters := [] }).performLine d line r.waiters
          s1.waitAgain d line rest
        else
          let (rest, s1) := (s.dropSreq d line).performLine d line r.waiters
          s1.waitAgain d line rest
/-- The obligation of a holder while another's request for the line is active (R382, R374). -/
def State.oblige (s : State) (d line : Nat) : State :=
  match s.lineHome line, s.ent d line with
  | some h, some x =>
    let e := s.pent d (sliceOf line) h
    if !e.on || e.line != line || e.die == s.islDie d then s
    else if e.write then s.giveAll d line e.die
    else if e.forwarded || !x.crown then s
    else ((s.setPent d (sliceOf line) h { e with forwarded := true }).giveOne d line e.die).notePred d line e.die
  | _, _ => s
/-- A slice answers GETS or GETX from a die (R375), with the error response where the line's home is down (R394). -/
def State.sliceAnswer (s : State) (d line src : Nat) (write : Bool) : State :=
  if ((s.lineHome line).map fun h => (s.die d).down.contains h).getD false then s.post d (.die src) (.err line 7)
  else match s.activeAt d line with
  | some e => if e.die != src then s else if write then s.giveAll d line src else s.giveOne d line src
  | none => if write then s.giveAll d line src else s.giveOne d line src
/-- Whether tokens of a serial are stale at a slice (R392). -/
def State.staleFor (s : State) (d line : Nat) (serial : BitVec 4) : Bool :=
  match s.ent d line with
  | some e => e.serial != serial
  | none => s.filters.any fun f => f.die == d && f.line == line && f.serial == serial
/-- TOK at a slice (R376, R392). -/
def State.tokArrives (s : State) (d src line : Nat) (p : TokPay) : State :=
  if s.staleFor d line p.serial then s.staleAt d
  else (((s.addTokens d line p).notePred d line src).oblige d line).serveLine d line

/-! ## Homes -/

def State.updHome (s : State) (d : Nat) (f : Home → Home) : State :=
  s.updDie d fun x => { x with home := f x.home }
/-- The data of a line in HBM. -/
def State.homeLine (s : State) (line : Nat) : Line := bytesLine (rdBytes s.mem (line * 128) 128)
/-- Writes a line of HBM whole, which takes its poison away (R216). -/
def State.setHomeLine (s : State) (line : Nat) (l : Line) : State :=
  State.setSide { s with mem := wrBytes s.mem (line * 128) (lineBytes l 0 128) } line
    { s.sideOf line with poison := false, symErr := 0 }
/-- A line of the extents has its tokens at its pool node (R397). -/
def State.atNode (s : State) (line : Nat) : Bool := (s.extentOf (line * 128)).isSome
def Home.recount (h : Home) (line : Nat) : Option Recount := h.recounts.find? fun r => r.line == line
/-- The active request for a line, while it is not being recounted. -/
def Home.activeFor (h : Home) (line : Nat) : Option Active :=
  match h.active with
  | some a => if a.req.line == line && (h.recount line).isNone then some a else none
  | none => none
def State.setActive (s : State) (d : Nat) (a : Option Active) : State :=
  s.updHome d fun h => { h with active := a }
/-- The error response of a poisoned line from its home to a requester (R216, R391; log 31). -/
def State.errorTo (s : State) (d isl line : Nat) : State := s.post d (.die isl) (.err line 5)
/-- The same to the requester of the active request. -/
def State.errorActive (s : State) (d : Nat) (a : Active) : State := s.errorTo d a.req.die a.req.line
/-- The home gives all its tokens to a die, with the crown's data (R375, R382). -/
def State.homeAll (s0 : State) (d line isl : Nat) : State :=
  let s := if (s0.sideOf line).crown then s0.scrubLine d line else s0
  let x := s.sideOf line
  if x.count = 0 then s
  else if x.crown && x.poison then s.errorTo d isl line
  else (s.setSide line { x with count := 0, crown := false }).post d (.die isl)
    (.tok line ⟨x.count, x.crown, x.serial, if x.crown then some (s.homeLine line) else none, false⟩)
/-- The home answers a read with the crown: one plain token and the data, or the crown (R375). -/
def State.homeOne (s0 : State) (d line isl : Nat) : State :=
  let s := if (s0.sideOf line).crown then s0.scrubLine d line else s0
  let x := s.sideOf line
  if x.count = 0 || !x.crown then s
  else if x.poison then s.errorTo d isl line
  else if 2 ≤ x.count then (s.setSide line { x with count := x.count - 1 }).post d (.die isl)
    (.tok line ⟨1, false, x.serial, some (s.homeLine line), false⟩)
  else s.homeAll d line isl
/-- The obligation of the home as a holder, for its active request (R382). -/
def State.homeOblige (s : State) (d line : Nat) : State :=
  if s.atNode line then s
  else match (s.die d).home.activeFor line with
    | none => s
    | some a =>
      if a.req.write then s.homeAll d line a.req.die
      else if a.forwarded || !(s.sideOf line).crown then s
      else (s.setActive d (some { a with forwarded := true })).homeOne d line a.req.die
/-- The new address of a line whose page this home has just migrated (R231). -/
def Home.movedLine (h : Home) (now line : Nat) : Option Nat :=
  (h.forwards.find? fun f => f.1 == line / 32 && decide (now < f.2.2)).map fun f => f.2.1 * 32 + line % 32
/-- A requester's wait for a line goes on under the line's new address (R231; log 30), and the line that waited for its
PREQ sends its own (R379). -/
def State.rekey (s : State) (isl line new : Nat) : State :=
  match s.ownDie isl with
  | none => s
  | some d =>
    match s.sreq d line with
    | none => s
    | some r => State.unblock (match s.sreq d new with
      | some q => (s.dropSreq d line).setSreq d new { q with waiters := q.waiters ++ r.waiters }
      | none => (s.dropSreq d line).setSreq d new r) d line
/-- Whether this home is migrating a line's page (R231). -/
def Home.blocks (h : Home) (line : Nat) : Bool := h.moving.any fun m => m.page == line / 32
/-- A request for a page that is being migrated is queued, in arrival order (R231, R277). -/
def State.holdReq (s : State) (d : Nat) (r : HReq) : State :=
  s.updHome d fun h => { h with
    moving := h.moving.map fun m => if m.page = r.line / 32 then { m with hold := m.hold ++ [r] } else m }
/-- The home answers GETS or GETX from a die (R375, R385), queues it while the page migrates, or forwards it to the
page's new home (R231). -/
def State.homeAnswer (s : State) (d line src : Nat) (write : Bool) : State :=
  if (s.die d).home.blocks line then s.holdReq d ⟨src, sliceOf line, write, line⟩
  else match (s.die d).home.movedLine s.now line with
  | some new =>
    let s1 := s.rekey src line new
    match s1.homeDest new with
    | some h => s1.route d ⟨if write then .getx new .home else .gets new .home, src,
        look 0 src (s.die d).known, h, 0, s.now, false⟩
    | none => s1
  | none =>
    if ((s.die d).home.recount line).isSome then s
    else match (s.die d).home.active with
      | some a => if a.req.line == line then s
          else if write then s.homeAll d line src else s.homeOne d line src
      | none => if write then s.homeAll d line src else s.homeOne d line src
/-- Tokens reach the home: forwarded at once to an active request, or added, with dirty data written
(R377, R382, R389). -/
def State.homeTake (s0 : State) (d line : Nat) (p : TokPay) : State :=
  let s := if (s0.sideOf line).crown then s0.scrubLine d line else s0
  let x := s.sideOf line
  let n := x.count + p.count
  let crown := x.crown || p.crown
  let data := if p.crown then p.data.getD (s.homeLine line) else s.homeLine line
  let dirty := p.crown && p.dirty
  let keep (s : State) (y : Side) : State :=
    if dirty then (s.setSide line y).setHomeLine line data else s.setSide line y
  let send (s : State) (isl k : Nat) (c : Bool) : State := s.post d (.die isl)
    (.tok line ⟨k, c, x.serial, if crown then some data else none, c && dirty⟩)
  match (s.die d).home.activeFor line with
  | none => keep s { x with count := n, crown := crown }
  | some a =>
    if x.poison && crown && !dirty && !p.crown then
      (s.setSide line { x with count := n, crown := crown }).errorActive d a
    else if a.req.write then
      State.post (s.setSide line { x with count := 0, crown := false }) d (.die a.req.die)
        (.tok line ⟨n, crown, x.serial, if crown then some data else none, dirty⟩)
    else if a.forwarded || !crown then keep s { x with count := n, crown := crown }
    else
      let s1 := s.setActive d (some { a with forwarded := true })
      if 2 ≤ n then send (keep s1 { x with count := n - 1, crown := true }) a.req.die 1 false
      else send (s1.setSide line { x with count := 0, crown := false }) a.req.die n true
/-- Sends to the dies that serve a request for a line, and to the pool node of an extent's line (R388, R397). -/
def State.toSet (s : State) (d line req : Nat) (m : Msg) : State :=
  let s1 := s.postAll d (s.serveSet d line req) m
  if s.atNode line then s1.postHome d line m else s1

/-! ### Turns (R380) -/

/-- Activates a request: PACT with the next sequence, and the home's own tokens (R380, R382). -/
def State.activate (s : State) (d : Nat) (r : HReq) : State :=
  let h := (s.die d).home
  let seq := h.seq + 1
  let s1 := s.updHome d fun h => { h with seq := seq, active := some ⟨r, seq, s.now, false, false⟩ }
  (s1.toSet d r.line r.die (.pact r.line r.die r.slice r.write seq h.turnNo)).homeOblige d r.line
/-- The order of a turn: requester die, then slice. -/
def HReq.before (a b : HReq) : Bool := decide (a.die < b.die) || (a.die == b.die && decide (a.slice ≤ b.slice))
def insReq (r : HReq) : List HReq → List HReq
  | [] => [r]
  | x :: l => if r.before x then r :: x :: l else x :: insReq r l
/-- Activates the next request: of the open turn, then those handed over by a migration, then of a new turn
(R380). -/
def State.nextTurn (s : State) (d : Nat) : State :=
  let h := (s.die d).home
  if h.active.isSome then s
  else match h.turn with
    | r :: l => (s.updHome d fun h => { h with turn := l }).activate d r
    | [] =>
      match h.handed with
      | r :: l => (s.updHome d fun h => { h with handed := l }).activate d r
      | [] =>
        match h.pending.foldr insReq [] with
        | r :: l => (s.updHome d fun h => { h with
            turn := l, pending := [], turnNo := h.turnNo + 1 }).activate d r
        | [] => s
/-- The active request ends: PDEACT, then the next (R383). -/
def State.endActive (s : State) (d : Nat) : State :=
  match (s.die d).home.active with
  | none => s
  | some a => ((s.setActive d none).toSet d a.req.line a.req.die (.pdeact a.req.line a.seq)).nextTurn d

/-! ### Recounts (R387 to R391) -/

/-- The recount of a line closes (R391). At a line of an extent the serial advances here and the pool node, which has the
tokens and the data, is told by a RACK of the old serial without tokens (R397; log 48). -/
def State.closeRecount (s : State) (d line : Nat) : State :=
  match (s.die d).home.recount line with
  | none => s
  | some r =>
    let x := s.sideOf line
    let lost := !x.crown && !s.atNode line
    let s1 := s.updHome d fun h => { h with
      recounts := h.recounts.filter fun q => q.line != line
      closed := ((h.closed.filter fun c => c.1 != line) ++ [(line, s.now)]).drop
        ((h.closed.filter fun c => c.1 != line).length - 63) }
    let s2 := if s.atNode line then
        (s1.setSide line { x with serial := r.serial + 1 }).postHome d line (.rack line ⟨0, false, r.serial, none, false⟩)
      else s1.setSide line { x with count := 256, crown := true, serial := r.serial + 1, poison := x.poison || lost }
    let s3 := if lost then s2.report { s2.dieRec 0x35 d with addr := line * 128, flags := 0x10 } else s2
    match (s3.die d).home.active with
    | some a =>
      if a.req.line = line then
        (s3.setActive d (some { a with recounting := false, since := s.now, forwarded := false })).homeOblige
          d line
      else s3
    | none => s3
/-- A die's answer to a recount is no longer awaited; the recount closes after the last (R389). -/
def State.answered (s : State) (d line isl : Nat) : State :=
  match (s.die d).home.recount line with
  | none => s
  | some r =>
    let left := r.pending.filter fun i => i != isl
    let s1 := s.updHome d fun h => { h with
      recounts := h.recounts.map fun q => if q.line = line then { q with pending := left } else q }
    if left.isEmpty then s1.closeRecount d line else s1

/-- A die's answer to the recall of a migrating page is no longer awaited (R231). -/
def Moving.answered (m : Moving) (line isl : Nat) : Moving :=
  { m with left := m.left.map fun e => if e.1 = line then (e.1, e.2.filter fun i => i != isl) else e }
def State.recalled (s : State) (d line isl : Nat) : State :=
  s.updHome d fun h => { h with moving := h.moving.map fun m => m.answered line isl }

/-! ## Events -/

/-- GETS (R375). -/
def execGets (s : State) : Out :=
  onToken s "GETS" (· matches .gets ..) fun s d src m =>
    match m with
    | .gets line r =>
      let s1 := if r = .slice then s else s.homeAnswer d line src false
      if r = .home then s1 else s1.sliceAnswer d line src false
    | _ => s
/-- GETX (R375). -/
def execGetx (s : State) : Out :=
  onToken s "GETX" (· matches .getx ..) fun s d src m =>
    match m with
    | .getx line r =>
      let s1 := if r = .slice then s else s.homeAnswer d line src true
      if r = .home then s1 else s1.sliceAnswer d line src true
    | _ => s
/-- TOK (R376), or the error response in its place (log 31). -/
def execTok (s : State) : Out :=
  onToken s "TOK" (fun m => m matches .tok .. || m matches .err ..) fun s d src m =>
    match m with
    | .tok line p => s.tokArrives d src line p
    | .err line code => s.errArrives d line code
    | _ => s
/-- Tokens at the home, stale where their serial is not the line's (R377, R392). -/
def State.homeTokens (s : State) (d line : Nat) (p : TokPay) : State :=
  if p.serial != (s.sideOf line).serial then (if p.count = 0 then s else s.staleAt d)
  else s.homeTake d line p
/-- PUTT (R377). -/
def execPutt (s : State) : Out :=
  onToken s "PUTT" (· matches .putt ..) fun s d _ m =>
    match m with
    | .putt line p => s.homeTokens d line p
    | _ => s
/-- PREQ (R379, R380). -/
def execPreq (s : State) : Out :=
  onToken s "PREQ" (· matches .preq ..) fun s d src m =>
    match m with
    | .preq line w slice =>
      if (s.die d).down.contains src then s
      else if (s.die d).home.blocks line then s.holdReq d ⟨src, slice, w, line⟩
      else match (s.die d).home.movedLine s.now line with
      | some new => match (s.lineHome new) with
        | some h => s.route d ⟨.preq new w (sliceOf new), src, look 0 src (s.die d).known, .die h, 0, s.now, false⟩
        | none => s
      | none => (s.updHome d fun h => { h with
        pending := (h.pending.filter fun r => !(r.die == src && r.slice == slice)) ++
          [⟨src, slice, w, line⟩] }).nextTurn d
    | _ => s
/-- PACT (R381 to R383). -/
def execPact (s : State) : Out :=
  onToken s "PACT" (· matches .pact ..) fun s d _ m =>
    match m with
    | .pact line rd rs w seq turn =>
      match s.lineHome line with
      | none => s
      | some h =>
        let e := s.pent d (sliceOf line) h
        if (e.last.map fun l => newer seq l).getD true then
          ((s.setPent d (sliceOf line) h ⟨true, rd, rs, w, line, turn, seq, some seq, false⟩).oblige d
            line).serveLine d line
        else s
    | _ => s
/-- PDONE (R383). -/
def execPdone (s : State) : Out :=
  onToken s "PDONE" (· matches .pdone ..) fun s d _ m =>
    match m with
    | .pdone _ seq =>
      match (s.die d).home.active with
      | some a => if a.seq = seq then s.endActive d else s
      | none => s
    | _ => s
/-- PDEACT (R381). -/
def execPdeact (s : State) : Out :=
  onToken s "PDEACT" (· matches .pdeact ..) fun s d _ m =>
    match m with
    | .pdeact line seq =>
      match s.lineHome line with
      | none => s
      | some h =>
        let e := s.pent d (sliceOf line) h
        let ref := if e.on then some e.seq else e.last
        if (ref.map fun r => newer r seq).getD false then s
        else s.setPent d (sliceOf line) h { PEnt.none with last := some seq }
    | _ => s
/-- TRANSIENT_REISSUE (R378): 4 µs are 400 ticks. Nothing more goes out for an extent that is being revoked, and the
accesses that wait get its error response (R411). -/
def execTransientReissue (d line : Nat) (s : State) : Out :=
  match s.sreq d line with
  | none => off "TRANSIENT_REISSUE"
  | some r =>
    if r.phase = .transient ∧ r.since + 400 ≤ s.now ∧ s.revokes line then .next (s.retryLine d line false)
    else if r.phase = .transient ∧ r.since + 400 ≤ s.now ∧ !s.silent d then
      .next ((s.setSreq d line { r with phase := .reissued, since := s.now }).sendReq d line r.write
        (s.egressMask line))
    else off "TRANSIENT_REISSUE"
/-- TRANSIENT_ABANDON (R378, R379): PREQ, or a wait for the slice's PREQ at that home. -/
def execTransientAbandon (d line : Nat) (s : State) : Out :=
  match s.sreq d line with
  | none => off "TRANSIENT_ABANDON"
  | some r =>
    if r.phase = .reissued ∧ r.since + 400 ≤ s.now ∧ !s.silent d then
      if s.revokes line then .next (s.retryLine d line false)
      else if (s.sameHome d line).any fun e => e.2.phase == .persistent then
        .next (s.setSreq d line { r with phase := .blocked, since := s.now })
      else .next ((s.setSreq d line { r with phase := .persistent, since := s.now }).sendPreq d line r.write)
    else off "TRANSIENT_ABANDON"
/-- Passes the active request of a home to a recount (R383, R386). -/
def State.toRecount (s : State) (d : Nat) : State :=
  match (s.die d).home.active with
  | some a => s.setActive d (some { a with recounting := true })
  | none => s
/-- PERSISTENT_TIMEOUT (R383) at the die that `pick` names: 50 µs are 5,000 ticks. -/
def execPersistentTimeout (s : State) : Out :=
  match (s.die s.pick).home.active with
  | some a =>
    if !a.recounting ∧ a.since + 5000 ≤ s.now then .next (s.toRecount s.pick) else off "PERSISTENT_TIMEOUT"
  | none => off "PERSISTENT_TIMEOUT"
/-- LOSS (R386). -/
def execLoss (s : State) : Out :=
  onToken s "LOSS" (· matches .loss ..) fun s d _ _ => s.toRecount d
/-- RECOUNT_OPEN (R387, R389): 2 ms are 200,000 ticks. -/
def execRecountOpen (d line : Nat) (s : State) : Out :=
  let h := (s.die d).home
  match h.active with
  | none => off "RECOUNT_OPEN"
  | some a =>
    let early := h.closed.any fun c => c.1 == line && decide (s.now < c.2 + maxAge)
    if a.recounting ∧ a.req.line = line ∧ (h.recount line).isNone ∧ !early ∧ h.recounts.length < 8 then
      let sn := (s.sideOf line).serial
      let set := s.serveSet d line a.req.die
      let s1 := s.updDie d fun x => { x with
        recounts := satInc x.recounts
        home := { x.home with recounts := x.home.recounts ++ [⟨line, sn, set, s.now⟩] } }
      let s2 := s1.postAll d set (.recall line sn)
      .next (if set.isEmpty then s2.closeRecount d line else s2)
    else off "RECOUNT_OPEN"
/-- RECALL_RESEND (R389): every 200 µs, 20,000 ticks; in the same way to what a migrating page still awaits (R231). -/
def execRecallResend (d line : Nat) (s : State) : Out :=
  match (s.die d).home.recount line with
  | none =>
    match (s.die d).home.moving.find? fun m => m.page == line / 32 with
    | none => off "RECALL_RESEND"
    | some m =>
      let left := m.left.filter fun e => !e.2.isEmpty
      if m.stage = 1 ∧ m.sent + 20000 ≤ s.now ∧ !left.isEmpty then
        .next (left.foldl (fun s e => s.postAll d e.2 (.recall e.1 (s.sideOf e.1).serial)) (s.updHome d fun h =>
          { h with moving := h.moving.map fun x => if x.page = m.page then { x with sent := s.now } else x }))
      else off "RECALL_RESEND"
  | some r =>
    if r.sent + 20000 ≤ s.now then
      .next ((s.updHome d fun h => { h with
        recounts := h.recounts.map fun q => if q.line = line then { q with sent := s.now } else q }).postAll d
        r.pending (.recall line r.serial))
    else off "RECALL_RESEND"
/-- Room in the recall filter of a line's slice: 64 entries (R390). -/
def State.filterRoom (s : State) (d line : Nat) (serial : BitVec 4) : Bool :=
  (s.filters.any fun f => f.die == d && f.line == line && f.serial == serial) ||
  decide ((s.filters.filter fun f => f.die == d && sliceOf f.line == sliceOf line).length < 64)
/-- A requester whose active request is recounted sends PDONE again once it is re-served (R383, R391). -/
def State.reArm (s : State) (d line : Nat) : State :=
  match s.lineHome line with
  | some h =>
    let e := s.pent d (sliceOf line) h
    if e.on && e.line == line && e.die == s.islDie d then s.setPent d (sliceOf line) h { e with forwarded := false }
    else s
  | none => s
/-- RECALL (R390); it waits while the filter is full. The tokens go to the die that recounts; to the pool node where it is
the one that recalls them, for an extent that it revokes (R233): its messages bear no island die's number (log 48). -/
def execRecall (s : State) : Out :=
  match s.net[s.pick]? with
  | some ⟨.recall line sn, _, _, .die i, _, _, _⟩ =>
    let send (s : State) (d src : Nat) (p : TokPay) : State :=
      if src < 128 then s.post d (.die src) (.rack line p) else s.postHome d line (.rack line p)
    if ((s.ownDie i).map fun d => s.filterRoom d line sn).getD false then
      onToken s "RECALL" (· matches .recall ..) fun s d src _ =>
        let known := s.filters.any fun f => f.die == d && f.line == line && f.serial == sn
        let s0 := if known then s else { s with filters := s.filters ++ [⟨d, line, sn, s.now + maxAge⟩] }
        let s1 := s0.reArm d line
        match s.ent d line with
        | some e =>
          if e.serial = sn then send (s1.dropEnt d line) d src ⟨e.count, e.crown, sn,
            if e.crown then some e.data else none, e.crown && e.dirty⟩
          else send s1 d src ⟨0, false, sn, none, false⟩
        | none => send s1 d src ⟨0, false, sn, none, false⟩
    else off "RECALL: the filter is full"
  | _ => off "RECALL"
/-- RECALL_FILTER_EXPIRY (R390): entry `idx`, of die `d`. -/
def execRecallFilterExpiry (d idx : Nat) (s : State) : Out :=
  match s.filters[idx]? with
  | some f =>
    if f.die = d ∧ f.til ≤ s.now then .next { s with filters := dropNth idx s.filters }
    else off "RECALL_FILTER_EXPIRY"
  | none => off "RECALL_FILTER_EXPIRY"
/-- RACK (R389). The tokens of an extent's line go on to its pool node (R397). -/
def execRack (s : State) : Out :=
  onToken s "RACK" (· matches .rack ..) fun s d src m =>
    match m with
    | .rack line p =>
      let current := ((s.die d).home.recount line).map (·.serial) == some p.serial
      let s1 := if !s.atNode line then s.homeTokens d line p
        else if p.count = 0 then s
        else if p.serial != (s.sideOf line).serial then s.staleAt d
        else s.postHome d line (.putt line p)
      if current then s1.answered d line src else s1.recalled d line src
    | _ => s
/-- DOWN (R394): what a die does when one is declared failed. -/
def State.markDown (s : State) (d isl : Nat) : State :=
  let s1 := s.updDie d fun x => { x with
    down := if x.down.contains isl then x.down else x.down ++ [isl]
    home := { x.home with
      pending := x.home.pending.filter fun r => r.die != isl
      turn := x.home.turn.filter fun r => r.die != isl
      handed := x.home.handed.filter fun r => r.die != isl
      moving := x.home.moving.map fun m => { m with
        hold := m.hold.filter fun r => r.die != isl
        left := m.left.map fun e => (e.1, e.2.filter fun i => i != isl) } } }
  let s2 := { s1 with ptab := (List.range 16).foldl (fun m sl => del (pkey d sl isl) m) s1.ptab }
  let s3 := match (s2.die d).home.active with
    | some a => if a.req.die = isl then s2.endActive d else s2
    | none => s2
  let s4 := ((s3.die d).home.recounts.map (·.line)).foldl (fun s line => s.answered d line isl) s3
  ((s4.sreqs.filter fun e => e.1 / 2 ^ 45 == d && s4.lineHome (e.1 % 2 ^ 45) == some isl).map
    fun e => e.1 % 2 ^ 45).foldl (fun s line => s.retryLine d line true) s4
def execDown (s : State) : Out :=
  onToken s "DOWN" (· matches .down ..) fun s d _ m =>
    match m with
    | .down isl => s.markDown d isl
    | _ => s
/-- UP (R395). -/
def execUp (s : State) : Out :=
  onToken s "UP" (· matches .up ..) fun s d _ m =>
    match m with
    | .up isl inc => s.updDie d fun x => { x with
        known := put 0 isl inc x.known, down := x.down.filter fun i => i != isl }
    | _ => s
/-- UP_HOLDOFF_EXPIRY (R395): the die that `pick` names sends the requests that it has held back. -/
def execUpHoldoffExpiry (s : State) : Out :=
  let d := s.pick
  match (s.die d).upUntil with
  | some t =>
    if t ≤ s.now then
      let s1 := s.updDie d fun x => { x with upUntil := none }
      let held := (s1.sreqs.filter fun e => e.1 / 2 ^ 45 == d).map fun e => (e.1 % 2 ^ 45, e.2)
      .next (held.foldl (fun s e =>
        (s.setSreq d e.1 { e.2 with phase := .transient, since := s.now }).sendReq d e.1 e.2.write
          (s.predicted d e.1)) s1)
    else off "UP_HOLDOFF_EXPIRY"
  | none => off "UP_HOLDOFF_EXPIRY"
/-- DIE_REJOIN (R395): the die that `pick` names, which has failed or is held to be down by another of the package. -/
def execDieRejoin (s : State) : Out :=
  let d := s.pick
  let me := s.islDie d
  if d < 8 ∧ ((s.die d).failed || (List.range 8).any fun e => e != d && (s.die e).down.contains me) then
    let inc := (s.die d).incarn + 1
    let s1 := { s with
      lines := s.lines.filter fun e => e.1 / 2 ^ 45 != d
      sreqs := s.sreqs.map fun (e : Nat × SliceReq) =>
        if e.1 / 2 ^ 45 = d then (e.1, { e.2 with phase := .transient, since := s.now }) else e
      ptab := s.ptab.filter fun e => e.1 / 2048 != d
      filters := s.filters.filter fun f => f.die != d }
    let s2 := s1.updDie d fun x => { x with
      incarn := inc, known := put 0 me inc x.known, upUntil := some (s.now + maxAge), failed := false
      home := Home.empty }
    .next (s2.postAll d ((List.range (8 * s.enum.islsize)).filter fun i => i != me) (.up me inc))
  else off "DIE_REJOIN"
/-- PATROL_SCRUB (R216) of a line of a die's HBM. -/
def execPatrolScrub (die line : Nat) (s : State) : Out :=
  if (s.lineHome line).bind s.ownDie = some die ∧ s.atNode line = false then .next (s.scrubLine die line)
  else off "PATROL_SCRUB"
/-- MESSAGE_AGE_EXPIRY (R372) of the message that `pick` names: of those that travel, that wait at the
egress, or that wait in ports and have no flit framed (log 49). -/
def execMessageAgeExpiry (s : State) : Out :=
  let n := s.net.length
  let m := n + s.egress.length
  match s.net[s.pick]?, s.egress[s.pick - n]? with
  | some f, _ =>
    if s.expired f then .next { s with net := dropNth s.pick s.net } else off "MESSAGE_AGE_EXPIRY"
  | none, some f =>
    if maxAge ≤ Flight.age f s.now then .next { s with egress := dropNth (s.pick - n) s.egress } else off "MESSAGE_AGE_EXPIRY"
  | none, none =>
    let all := (List.range 36).flatMap fun p => (s.port p).queue.zipIdx.map fun x => (p, x.2, x.1)
    match all[s.pick - m]? with
    | some (p, i, f) =>
      if maxAge ≤ Flight.age f s.now ∧ (0 < i ∨ (s.port p).part = 0) then .next (s.updPort p fun k => { k with queue := dropNth i k.queue })
      else off "MESSAGE_AGE_EXPIRY"
    | none => off "MESSAGE_AGE_EXPIRY"
/-- MIGRATION_FORWARD_EXPIRY (R231). -/
def execMigrationForwardExpiry (d idx : Nat) (s : State) : Out :=
  match (s.die d).home.forwards[idx]? with
  | some f =>
    if f.2.2 ≤ s.now then .next (s.updHome d fun h => { h with forwards := dropNth idx h.forwards })
    else off "MIGRATION_FORWARD_EXPIRY"
  | none => off "MIGRATION_FORWARD_EXPIRY"

end Sys2Proof.Machine
end

