-- ==== Sys2Proof/Machine/Windows.lean ====
section
/-! DEFINITION. Window traffic at its target and at its initiator, and WCNT (R298 to R302, R346, R363, R412 to
R414). -/

namespace Sys2Proof.Machine

/-! ## WCNT (R363) -/

/-- WCNT (R363). -/
def execWcnt (f : FmtWcnt) (s : State) : Out :=
  onUniformS s f.sp [f.sn.toNat, f.sn.toNat + 1] fun s c r =>
    let w := r.sNat f.sn.toNat % 2 ^ 16
    let t := r.sWord (f.sn.toNat + 1)
    let part := c.grid.part
    if !f.w ∨ s.wcntMet c.die w part f.rem t.toNat then
      let (v, s1) := (s.setGroup c.g c.grp).wcntEnd c.grp part w f.aq f.rem
      .next ((s1.putReg c.g .s f.ds.toNat (RegWord.of v)).stepOn c f.sp)
    else .next (s.waitHere c c.grp (.wcnt f.ds.toNat w t f.aq f.rem) f.sp)

/-! ## Ingress (R298, R301, R302, R414) -/

/-- The die of this package at which a message has arrived. -/
def State.flightDie (s : State) (f : Flight) : Nat :=
  match f.dest with
  | .die i => (s.ownDie i).getD 0
  | _ => (s.ownDie f.src).getD 0
/-- What an access needs of the window it names (R298, R299). -/
inductive WinUse | read | write | reduce
  deriving DecidableEq, Repr
def winAllows (e : Nat) (u : WinUse) : Bool :=
  match u with
  | .read => winRead e
  | .write => winWrite e
  | .reduce => winReduce e
/-- Ranges, as offset and length, within a window that allows the use. -/
def winAccepts (e : Nat) (part : BitVec 16) (u : WinUse) (l : List (Nat × Nat)) : Bool :=
  winValid e part && winAllows e u && l.all fun x => decide (x.1 + x.2 ≤ winSize e)
/-- A refusal by the target: its record (R298, R320; log 22). -/
def State.refuse (s : State) (die : Nat) (src : BitVec 18) (w : WinRef) : State :=
  s.report { s.dieRec 0x2B die with
    addr := w.off.toNat, detail := 0, detail2 := src.toNat + w.win.toNat * 2 ^ 32 }
/-- Physical addresses of the bytes of ranges of a window; the packet waits at the ingress while a
translation waits (log 24). -/
inductive Place | ok (pas : List (List Nat)) | wait | refused
  deriving DecidableEq, Repr
/-- The addresses of n bytes from a virtual address, looked up at each page's first byte. -/
def State.placeBytes (s : State) (die : Nat) (part : BitVec 16) (write : Bool) :
    Nat → Nat → Nat → Place × State
  | 0, _, _ => (.ok [[]], s)
  | fuel + 1, va, n =>
    if n = 0 then (.ok [[]], s)
    else
      let m := min n (4096 - va % 4096)
      match s.devReach die part va m write .device (s.dieRec 0 die) with
      | (.wait, s1) => (.wait, s1)
      | (.fail _, s1) => (.refused, s1)
      | (.pa a, s1) =>
        match s1.placeBytes die part write fuel (va + m) (n - m) with
          | (.ok l, s2) => (.ok [(List.range m).map (a + ·) ++ l.headD []], s2)
          | r => r
def State.place (s : State) (die : Nat) (part : BitVec 16) (write : Bool) (base : Nat) :
    List (Nat × Nat) → Place × State
  | [] => (.ok [], s)
  | (o, n) :: l =>
    match s.placeBytes die part write (n / 4096 + 2) ((base + o) % 2 ^ 64) n with
    | (.ok x, s1) =>
      match s1.place die part write base l with
      | (.ok y, s2) => (.ok (x ++ y), s2)
      | r => r
    | r => r
/-- Stores bytes at addresses, one for each. -/
def State.putAll (s : State) : List (Nat × Byte) → State
  | [] => s
  | (a, b) :: l => (s.setWinByte a b).putAll l
/-- Stores bytes of a packet; a line that they write whole is poisoned no more (R216). -/
def State.storeAll (s : State) (l : List (Nat × Byte)) : State :=
  let lines := (l.map fun x => x.1 / 128).eraseDups.filter fun n =>
    (List.range 128).all fun i => l.any fun x => x.1 == 128 * n + i
  (lines.foldl (fun s n => s.setSide n { s.sideOf n with poison := false, symErr := 0 }) s).putAll l
def State.getAll (s : State) (l : List Nat) : List Byte := l.map s.physByte
/-- The answer of a target to an initiator. -/
def State.winAnswer (s : State) (die : Nat) (src : BitVec 18) (req : Nat) (ok : Bool) (data : List Byte) :
    State := s.post die (.pkg src) (.winAck req ok data)
/-- The packet that `pick` names, with the entry that it has read: one that arrives, or, beyond those, one that waits. -/
def State.winTake (s : State) : Option (Flight × Option Nat × State) :=
  if s.pick < s.net.length then s.netTake.map fun x => (x.1, none, x.2)
  else (s.winWait[s.pick - s.net.length]?).map fun w =>
    (w.flight, some w.entry, { s with winWait := dropNth (s.pick - s.net.length) s.winWait })
/-- The packet that `pick` names in `s0` waits, in its place. -/
def State.winHold (s0 s : State) (f : Flight) (e : Nat) : State :=
  let i := if s0.pick < s0.net.length then s0.winWait.length else s0.pick - s0.net.length
  { s with winWait := s.winWait.take i ++ ⟨f, e⟩ :: s.winWait.drop i }
/-- What a packet has at its ingress: the state before it was taken, itself, its die, the entry it has read. -/
structure WinCtx where
  s0 : State
  f : Flight
  die : Nat
  e : Option Nat
/-- Goes on with a packet whose window accepts it, or refuses it; the entry is read once (R347). -/
def WinCtx.ingress (c : WinCtx) (s : State) (w : WinRef) (part : BitVec 16) (u : WinUse) (l : List (Nat × Nat))
    (no : State → State) (yes : State → Nat → List (List Nat) → State) : State :=
  let (e, s1) := match c.e with
    | some e => (e, s)
    | none => (s.winEntry c.die w.win.toNat, s.fillWin c.die w.win.toNat)
  if winAccepts e part u l then
    match s1.place c.die part (u != .read) (winBase e) l with
    | (.wait, s2) => c.s0.winHold s2 c.f e
    | (.refused, s2) => no s2
    | (.ok pas, s2) => yes s2 e pas
  else no s1
/-- A WPUT packet (R298, R300). -/
def WinCtx.putArrives (c : WinCtx) (s : State) (req : Nat) (w : WinRef) (part : BitVec 16) (src : BitVec 18)
    (ps : List (Nat × List Byte)) : State :=
  c.ingress s w part .write (ps.map fun p => (p.1, p.2.length))
    (fun s => (s.refuse c.die src w).winAnswer c.die src req false [])
    (fun s _ pas =>
      let bytes := (pas.zip (ps.map (·.2))).flatMap fun x => x.1.zip x.2
      ((s.storeAll bytes).addCount w.win.toNat true bytes.length).winAnswer c.die src req true [])
/-- A WGET packet. -/
def WinCtx.getArrives (c : WinCtx) (s : State) (req : Nat) (w : WinRef) (part : BitVec 16) (src : BitVec 18)
    (ps : List (Nat × Nat)) : State :=
  c.ingress s w part .read ps
    (fun s => (s.refuse c.die src w).winAnswer c.die src req false [])
    (fun s _ pas => s.winAnswer c.die src req true (pas.flatMap s.getAll))
/-- The largest finite value of an element type, as binary32 (R301). -/
def wireMax (ty : WTy) : Dy :=
  match fread (WTy.fmt ty) false (FFmt.maxPat (WTy.fmt ty)) with
  | .fin d _ => d
  | _ => ⟨0, 0⟩
/-- The sum of a hop (R301): the sender's element and the local one. -/
def wireAdd (ty : WTy) (sat : Bool) (a b : BitVec 48) : BitVec 48 :=
  if ty = .i32 then a + b
  else
    let x := (fread f32 false (a.toNat % 2 ^ 32)).add .rne (fread f32 false (b.toNat % 2 ^ 32))
    let p := fread f32 false (fround f32 .rne false false x)
    let m := wireMax ty
    let q : El := match p with
      | .fin d neg => if sat then
          (if m.lt d then .fin m false else if d.lt m.neg then .fin m.neg true else .fin d neg) else p
      | .inf neg => if sat then .fin (if neg then m.neg else m) neg else p
      | .nan => p
    BitVec.ofNat 48 (fround f32 .rne false false q)
/-- What is stored of a sum: the element type by RNE, or the low 32 bits (R301). -/
def storedElem (ty : WTy) (x : BitVec 48) : Nat :=
  if ty = .i32 then x.toNat % 2 ^ 32
  else fround (WTy.fmt ty) .rne false false (fread f32 false (x.toNat % 2 ^ 32))
/-- Reduces elements in turn: at the target each is stored, at a hop its sum goes on (R301). -/
def State.reduce (s : State) (ty : WTy) (sat store : Bool) :
    List (List Nat × Nat × BitVec 48) → List (Nat × BitVec 48) × State
  | [] => ([], s)
  | (pas, o, x) :: l =>
    let y := wireAdd ty sat x (wireElem ty (leNat (s.getAll pas)))
    let s1 := if store then s.storeAll (pas.zip (leBytes (WTy.bytes ty) (storedElem ty y))) else s
    let (r, s2) := s1.reduce ty sat store l
    ((o, y) :: r, s2)
/-- A WRED packet: combined at this ingress and stored, or forwarded with its age (R301, R414). A package that is not
assigned reaches no other: where its own window forwards to one, the sum is dropped and nothing answers the sender, whose
request is not timed, so its count does not rise (DESIGN CHOICE, log 63). -/
def WinCtx.redArrives (c : WinCtx) (s : State) (req : Nat) (w : WinRef) (part : BitVec 16)
    (src : BitVec 18) (ty : WTy) (sat : Bool) (es : List (Nat × BitVec 48)) : State :=
  let n := WTy.bytes ty
  c.ingress s w part .reduce (es.map fun e => (e.1, n))
    (fun s => (s.refuse c.die src w).winAnswer c.die src req false [])
    (fun s e pas =>
      let (out, s1) := s.reduce ty sat (!winForward e) ((pas.zip es).map fun x => (x.1, x.2.1, x.2.2))
      if winForward e then
        let w2 : WinRef := ⟨winFwdPkg e, winFwdWin e, w.off⟩
        s1.route c.die { c.f with
          msg := .winRed req w2 part src ty sat out
          src := s.islDie c.die
          inc := (s.die c.die).incarn
          dest := .pkg (winFwdPkg e) }
      else (s1.addCount w.win.toNat true (n * es.length)).winAnswer c.die src req true [])
/-- A block of which lines may still come: none is delivered at an age of 2 ms (R402). -/
def McRecv.live (r : McRecv) (now : Nat) : Bool := decide (now < r.since + maxAge)
/-- One line of a multicast block at a member (R302, R412): stored, or refused with the whole block; the member answers
after its last line (log 39). -/
def WinCtx.mcLine (c : WinCtx) (s : State) (r : McRecv) (w : WinRef) (i : Nat) (data : List Byte) : State :=
  let left := r.left.filter (· != i)
  let others := s.mcRecvs.filter fun x => x.live s.now && !(x.src == r.src && x.id == r.id && x.member == r.member)
  let s1 := { s with mcRecvs := if left.isEmpty then others else others ++ [{ r with left := left }] }
  let s2 := match r.pas with
    | some pas => (s1.storeAll ((pas.getD i []).zip data)).addCount w.win.toNat true data.length
    | none => s1.refuse c.die r.src { w with off := w.off + BitVec.ofNat 64 (128 * i) }
  if left.isEmpty then s2.post c.die (.node (Config.mcNode r.src)) (.winMcAns r.id r.member r.pas.isSome) else s2
/-- A line of a multicast block: the first one judges the window for every line of the block. -/
def WinCtx.mcArrives (c : WinCtx) (s : State) (id member : Nat) (w : WinRef) (part : BitVec 16) (src : BitVec 18)
    (lines i : Nat) (data : List Byte) : State :=
  match s.mcRecvs.find? fun r => r.live s.now && r.src == src && r.id == id && r.member == member with
  | some r => if r.left.contains i then c.mcLine s r w i data else s
  | none =>
    let judged (s : State) (pas : Option (List (List Nat))) : State :=
      if i < lines then c.mcLine s ⟨src, id, member, w.win, pas, List.range lines, s.now⟩ w i data else s
    c.ingress s w part .write ((List.range lines).map fun j => (w.off.toNat + 128 * j, 128))
      (fun s => judged s none) (fun s _ pas => judged s (some pas))
/-- WINDOW_PACKET_INGRESS (R298): the packet that `pick` names. -/
def execWindowPacketIngress (s : State) : Out :=
  match s.winTake with
  | some (f, e, s1) =>
    let c : WinCtx := ⟨s, f, s.flightDie f, e⟩
    match f.msg with
    | .winPut req w part src ps => .next (c.putArrives s1 req w part src ps)
    | .winGet req w part src ps => .next (c.getArrives s1 req w part src ps)
    | .winRed req w part src ty sat es => .next (c.redArrives s1 req w part src ty sat es)
    | .winMc g m w part src n i bs => .next (c.mcArrives s1 g m w part src n i bs)
    | _ => off "WINDOW_PACKET_INGRESS"
  | none => off "WINDOW_PACKET_INGRESS"

/-! ## Answers at the initiator (R300, R302, R413) -/

/-- The bytes of a WGET answer come to the operation that asked for them (R300); an answer of another length is none
(DESIGN CHOICE, log 39). -/
def State.getAnswer (s : State) (core op : Nat) (data : List Byte) : State :=
  s.updCore core fun k => { k with
    copyOps := k.copyOps.map fun o => if o.id == op then { o with data := data, st := .pend } else o }
/-- WINDOW_ACKNOWLEDGEMENT (R300): counts the bytes that were sent; a refusal adds to ERRCNT (R298). -/
def execWindowAcknowledgement (s : State) : Out :=
  match s.netTake with
  | some (⟨.winAck req ok data, _, _, _, _, _, _⟩, s1) =>
    match s1.req req with
    | some r =>
      let s2 := s1.dropReq req
      match r.kind with
      | .wput win _ bytes =>
        let s3 := s2.addCount win.toNat false bytes
        .next (if ok then s3 else s3.addErr win.toNat)
      | .wget win _ op bytes =>
        .next (if !ok then (s2.endOp r.core op).addErr win.toNat
          else if data.length = bytes then s2.getAnswer r.core op data else s1)
      | _ => .next s1
    | none => .next s1
  | _ => off "WINDOW_ACKNOWLEDGEMENT"
/-- Writes the 64 bytes of an acknowledgement at the group table's address (R302); none where the entry
gives no address in force. -/
def State.ackBytes (s0 s : State) (f : Flight) (r : Req) (ack : Nat) (bits : Nat) (k : State → State) : State :=
  if ack % 64 ≠ 0 then k s
  else match s.devReach (dieOf r.core) r.part ack 64 true .device (s.dieRec 0 (dieOf r.core)) with
    | (.wait, s1) => s0.winHold s1 f 0
    | (.fail _, s1) => k s1
    | (.pa a, s1) => k (s1.physWrite a (leBytes 64 bits))
/-- MULTICAST_ACK (R302, R413): the bits, the block's bytes at LCNT, and for each valid member that failed
a record, with DETAIL 1 where there is no answer (R453), and ERRCNT of its window. -/
def execMulticastAck (s : State) : Out :=
  match s.winTake with
  | some (f, _, s1) =>
    match f.msg with
    | .mcAck req bits =>
      match s1.req req with
      | some r =>
        match r.kind with
        | .mcast win _ bytes ack ms lost =>
          let good := ms.filter fun m => bits.getLsbD m.1
          let bad := ms.filter fun m => !bits.getLsbD m.1
          .next (s.ackBytes s1 f r ack (good.foldl (fun n m => n + 2 ^ m.1) 0) fun s2 =>
            bad.foldl (fun s m => (s.refused r.core (bits01 lost) m.2.2 r.off).addErr m.2.2.toNat)
              ((s2.dropReq req).addCount win.toNat false bytes))
        | _ => .next s1
      | none => .next s1
    | _ => off "MULTICAST_ACK"
  | none => off "MULTICAST_ACK"

end Sys2Proof.Machine
end

