-- ==== Sys2Proof/Machine/Commands.lean ====
section
/-! DEFINITION. The commands of BAR0's command interfaces (R231, R314, R332, R335, R345, R347, R417). -/

namespace Sys2Proof.Machine

/-! ## Command interfaces (R417): 0 launch, 1 migration, 2 repartition, 3 window-invalidate -/

/-- n bytes of a command buffer as a number. -/
def State.cmd (s : State) (i ofs n : Nat) : Nat :=
  leNat ((List.range n).map fun j => look 0 (256 * i + ofs + j) s.sys.cmdBuf)
/-- A finished command: STATUS, and MSI-X vector 2. -/
def State.cmdEnd (s : State) (i st : Nat) : State :=
  State.msix { s with sys := { s.sys with cmdStatus := put 0 i st s.sys.cmdStatus } } 2
/-- Runs the command of a code that an interface has started. -/
def onCmd (s : State) (i code : Nat) (what : String) (k : Out) : Out :=
  if look 0 i s.sys.cmdStatus = 1 ∧ s.cmd i 0 1 = code then k else off what
/-- A launch command names a grid. -/
def State.cmdNames (s : State) (g : Grid) : Bool :=
  !g.firmware && g.queue == s.cmd 0 2 2 && g.ring == s.cmd 0 4 4
/-- The grid that a launch command names, while it has not ended. -/
def State.cmdGrid (s : State) : Option (Nat × Grid) := s.grids.find? fun e => s.cmdNames e.2 && !e.2.ended
/-- A grid holds cores of a collective partition; one that has ended holds them until R313 step 4. -/
def State.holdsColl (s : State) (k : Nat) : Bool := s.cores.any fun e => e.2.coll == some k
/-- The grid whose collective partition a launch command releases (R314). -/
def State.cmdColl (s : State) : Option (Nat × Grid) :=
  s.grids.find? fun e => s.cmdNames e.2 && (!e.2.ended || s.holdsColl e.1)
def State.cmdTeam (s : State) (grid : Nat) (g : Grid) (idx : Nat) : Option (Nat × Team) :=
  s.teams.find? fun e => e.2.grid == grid && e.2.phase == .running && teamIndex g e.2 == idx

/-! ## Launch interface (R314, R332, R335) -/

/-- ABORT (R314). -/
def execAbort (s : State) : Out :=
  onCmd s 0 1 "ABORT" (.next (match s.cmdGrid with
    | some (k, _) => (s.abortGrid k ((s.cmd 0 1 1).testBit 0)).cmdEnd 0 2
    | none => s.cmdEnd 0 2))
/-- RELEASE_PARTITION (R314). -/
def execReleasePartition (s : State) : Out :=
  onCmd s 0 2 "RELEASE_PARTITION" (.next (match s.cmdColl with
    | some (k, g) =>
      let free (c : Core) : Core := if c.coll = some k then { c with coll := none } else c
      let s1 := s.setGrid k { g with coll := [], collWant := false }
      State.cmdEnd { s1 with cores := s1.cores.map fun e => (e.1, free e.2) } 0 2
    | none => s.cmdEnd 0 2))
/-- The groups that a pre-emption names: of a grid, a team or a core; none where the command names nothing. -/
def State.preemptSet (s : State) : Option (List Nat) :=
  let x := s.cmd 0 8 4
  match s.cmd 0 1 1, s.cmdGrid with
  | 0, some (k, _) => some ((s.groups.filter fun e => e.2.grid == k).map (·.1))
  | 1, some (k, g) => (s.cmdTeam k g x).map fun t => t.2.groups
  | 2, _ => if s.liveCore x then some ((s.groups.filter fun e => coreOf e.2.track == x).map (·.1)) else none
  | _, _ => none
/-- PRE_EMPT (R332): the request, and, when every group is saved or over, its completion. -/
def execPreEmpt (s : State) : Out :=
  onCmd s 0 3 "PRE_EMPT" (match s.preemptSet with
    | none => .next (s.cmdEnd 0 4)
    | some gs =>
      let on := (gs.filterMap s.group).filter fun x => x.resid == .bound && !x.split.isEmpty
      if on.isEmpty then .next (s.cmdEnd 0 2)
      else if on.any fun x => !x.preempt || x.mig then
        .next (gs.foldl (fun s g => s.updGroup g fun x => x.request 1 s.now false) s)
      else off "PRE_EMPT: groups are not saved")
/-- MIGRATE (R335): the order, and, when the team has moved, its completion. -/
def execMigrate (s : State) : Out :=
  onCmd s 0 4 "MIGRATE" (match s.cmdGrid with
    | none => .next (s.cmdEnd 0 4)
    | some (k, g) => match s.cmdTeam k g (s.cmd 0 8 4) with
      | none => .next (s.cmdEnd 0 4)
      | some (id, t) =>
        let n := s.cmd 0 12 2
        let core := 24 * dieOf t.core + n
        if 24 ≤ n ∨ !s.liveCore core then .next (s.cmdEnd 0 4)
        else if t.core = core ∧ t.migrate.isNone then .next (s.cmdEnd 0 2)
        else if t.migrate.isNone then .next (s.setTeam id { t with migrate := some core })
        else off "MIGRATE: the team has not moved")
/-- RESUME (R417): every saved group of the grid that awaits no reply of a service call is ready to resume. -/
def execResume (s : State) : Out :=
  onCmd s 0 5 "RESUME" (.next (match s.cmdGrid with
    | none => s.cmdEnd 0 4
    | some (k, _) =>
      let go (x : Group) : Group :=
        if x.grid = k ∧ x.resid = .saved ∧ x.svc.isNone then { x with resid := .ready } else x
      State.cmdEnd { s with groups := s.groups.map fun e => (e.1, go e.2) } 0 2))

/-! ## Repartition (R344, R345) -/

/-- The entry of R344 in the buffer's bytes 128 to 255, if it is valid; `bad` tells a breach of its rules. -/
def entryPart (e : Nat) : Part :=
  { partid := BitVec.ofNat 16 e, dies := BitVec.ofNat 8 (e / 2 ^ 24), pasid := BitVec.ofNat 20 (e / 2 ^ 32),
    root := BitVec.ofNat 52 (e / 2 ^ 64), idies := BitVec.ofNat 128 (e / 2 ^ 128),
    ranges := ((List.range 8).map fun i => (fld e (256 + 64 * i) 4, fld e (260 + 64 * i) 10,
      fld e (270 + 64 * i) 10)).filter fun r => r.2.2 != 0 }
def rangeClash (a b : Nat × Nat × Nat) : Bool := a.1 == b.1 && overlap a.2.1 a.2.2 b.2.1 b.2.2
/-- The rules of R344 for an entry of the table at an index. -/
def State.entryOk (s : State) (idx e : Nat) : Bool :=
  let p := entryPart e
  let others := s.parts.filter fun x => x.1 != idx
  decide (fld e 17 7 = 0) && decide (fld e 52 12 = 0) && decide (fld e 64 64 % 2 ^ 21 = 0) &&
  decide (fld e 64 64 < 2 ^ 52) && ((List.range 8).all fun i => fld e (280 + 64 * i) 40 == 0) &&
  decide (e / 2 ^ 768 = 0) &&
  (fld e 16 1 == 0 ||
    (p.ranges.all (fun r => decide (r.1 < 16) && decide (r.2.1 + r.2.2 ≤ 768)) &&
     others.all fun x => x.2.dies &&& p.dies == 0 && !(x.2.ranges.any fun a => p.ranges.any (rangeClash a))))
/-- Empties the caches of a die and of its cores (R345). -/
def State.emptyDie (s : State) (d : Nat) : State :=
  let lines := (s.lines.filter fun e => e.1 / 2 ^ 45 == d).map fun e => e.1 % 2 ^ 45
  let s1 := lines.foldl (fun s l => s.evict d l) s
  { s1 with cores := s1.cores.map fun e => (e.1, if dieOf e.1 = d then { e.2 with cache := [] } else e.2) }
/-- The partition of a die, by the table. -/
def partOf (parts : SMap Part) (d : Nat) : Option (BitVec 16) :=
  (parts.find? fun e => e.2.dies.getLsbD d).map fun e => e.2.partid
/-- The steps of R345. The entry that goes is remembered until no request sent under it can be in the fabric. -/
def State.repartition (s : State) (idx e : Nat) : State :=
  let old := find idx s.parts
  let new := if fld e 16 1 = 1 then some (entryPart e) else none
  let parts := match new with
    | some p => ins idx p s.parts
    | none => del idx s.parts
  let moved := (List.range 8).filter fun d => partOf s.parts d != partOf parts d
  let s1 := moved.foldl State.emptyDie s
  let s2 := { s1 with dies := s1.dies.map fun x => (x.1, { x.2 with predictor := [] }) }
  let inval (s : State) (p : Option Part) : State := match p with
    | some q => (s.dropTrans q.partid none).dropAts fun a => a.pasid == q.pasid.toNat
    | none => s
  let s3 := inval (inval s2 old) new
  let s4 := { s3 with
    parts := parts
    oldParts := (s3.oldParts.filter fun p => decide (s.now < p.2)) ++ old.toList.map fun p => (p, s.now + maxAge) }
  (List.range 8).foldl (fun s d => s.updDie d fun x => { x with partid := (partOf parts d).getD 0 }) s4
/-- REPARTITION (R345): busy while a grid of an affected partition is taken and has not ended. -/
def execRepartition (s : State) : Out :=
  let idx := s.cmd 2 1 1
  let e := s.cmd 2 128 128
  onCmd s 2 1 "REPARTITION" (.next (
    if 8 ≤ idx ∨ !s.entryOk idx e then s.cmdEnd 2 4
    else
      let old := ((find idx s.parts).map fun p => [p.partid]).getD []
      let ids := if fld e 16 1 = 1 then (entryPart e).partid :: old else old
      let zones := s.cores.any fun c => c.2.zones.any fun z => z.2.used && z.2.isOpen &&
        ((s.team z.2.team).bind fun t => s.grid t.grid).map (fun g => ids.contains g.part) == some true
      if zones || s.grids.any fun g => !g.2.ended && ids.contains g.2.part then s.cmdEnd 2 3
      else (s.repartition idx e).cmdEnd 2 2))
/-- The window that a packet names at its target. -/
def Msg.winOf : Msg → Option Nat
  | .winPut _ w _ _ _ | .winGet _ w _ _ _ | .winRed _ w _ _ _ _ _ | .winMc _ _ w _ _ _ _ _ => some w.win.toNat
  | _ => none
/-- WINDOW_INVALIDATE (R347): every cached copy is dropped; it completes when no packet that read the old entry is
left. -/
def execWindowInvalidate (s : State) : Out :=
  let w := s.cmd 3 2 2
  let drop (d : Die) : Die := { d with wcache := del w d.wcache }
  let s1 := { s with dies := s.dies.map fun e => (e.1, drop e.2) }
  onCmd s 3 1 "WINDOW_INVALIDATE"
    (if (s.winWait.any fun x => Msg.winOf x.flight.msg == some w) ||
        s.mcRecvs.any fun r => r.win.toNat == w && r.live s.now then .next s1
     else .next (s1.cmdEnd 3 2))

end Sys2Proof.Machine
end

