-- ==== Sys2Proof/Machine/Exchange.lean ====
section
/-! DEFINITION. The exchange instructions (R151 to R162). -/

namespace Sys2Proof.Machine

/-- The two passes of R151 and R152: `reads` names the words of the source pass, `res` gives every
active lane's result from the registers as they stood; the group that is left besides comes from `grp`. -/
def runExchange (s : State) (f : FmtT) (reads : Nat → List (Bank × Nat))
    (res : Ctx → RegFile → List Nat → Nat → Nat)
    (grp : Ctx → RegFile → List Nat → Group := fun c _ _ => c.grp) : Out :=
  onTrack s fun c =>
    let ls := c.lanes
    if ls.isEmpty then .next (s.advance c c.grp c.trk f.m.sp 1)
    else
      let pass := laneSteps ls.length
      let (r, bad) := laneLoop reads (fun r _ => r) ls (RegFile.of c.grp c.trk)
      match bad with
      | some p => .next (s.regDone c r (some p) (ls.headD 0) f.m.sp pass)
      | none =>
        let c' := { c with grp := grp c r ls }
        if f.d.isS then
          .next (s.regDone c' (r.writeBack f.m f.d 0 (res c r ls 0)) none 0 f.m.sp pass)
        else
          .next (s.regDone c' (ls.foldl (fun q i => q.writeBack f.m f.d i (res c r ls i)) r) none 0
            f.m.sp (2 * pass))

/-! ## Moves between lanes (R153) -/

/-- A move: `src` gives lane i's source lane, from B[i] as n32. -/
def moveLanes (s : State) (f : FmtT) (bWords : Nat → List (Bank × Nat))
    (src : Ctx → RegFile → Nat → Int) : Out :=
  let w := dBits f.d
  runExchange s f (fun i => srcWords f.a i ++ bWords i ++ srcWords f.c i) fun c r ls i =>
    let x := src c r i
    if 0 ≤ x ∧ ls.contains x.toNat then r.operand f.a x.toNat w else r.operand f.c i w
def bLane (f : FmtT) (r : RegFile) (i : Nat) : Nat := r.operand f.b i 32 % 2 ^ 32
/-- XSHF (R153): lane i ∓ B[i], exactly. -/
def execXshf (f : FmtT) (s : State) : Out :=
  moveLanes s f (srcWords f.b) fun _ r i =>
    if f.fn = 0 then (i : Int) - bLane f r i else (i : Int) + bLane f r i
/-- XROT (R153): modulo 32. -/
def execXrot (f : FmtT) (s : State) : Out :=
  moveLanes s f (srcWords f.b) fun _ r i =>
    (if f.fn = 0 then (i : Int) - bLane f r i else (i : Int) + bLane f r i) % 32
/-- XBFLY (R153). -/
def execXbfly (f : FmtT) (s : State) : Out :=
  moveLanes s f (srcWords f.b) fun _ r i => (i ^^^ (bLane f r i % 32) : Nat)
/-- XBCST (R153). -/
def execXbcst (f : FmtT) (s : State) : Out :=
  moveLanes s f (srcWords f.b) fun _ r i => (bLane f r i % 32 : Nat)
/-- The lower position of switch j at a stage that exchanges over bit b (R158). -/
def switchPos (b j : Nat) : Nat := j / 2 ^ b * 2 ^ (b + 1) + j % 2 ^ b
/-- |4 − s| (R158). -/
def stageBit (s : Nat) : Nat := if s ≤ 4 then 4 - s else s - 4
/-- One stage of R159 over the values at the positions. -/
def benesStage (xc : Nat) (s : Nat) (val : List Nat) : List Nat :=
  let b := stageBit s
  (List.range 16).foldl (fun v j =>
    let p := switchPos b j
    if xc.testBit (16 * s + j) then
      setNth p (v.getD (p + 2 ^ b) 0) (setNth (p + 2 ^ b) (v.getD p 0) v)
    else v) val
/-- origin(i) of R159, for every position. -/
def benes (xc : Nat) : List Nat :=
  (List.range 9).foldl (fun v s => benesStage xc s v) (List.range 32)
/-- XPERM (R153, R159). -/
def execXperm (f : FmtT) (s : State) : Out :=
  moveLanes s f (fun _ => []) fun c _ i =>
    ((benes (look 0 f.fn.toNat c.grp.xc).toNat).getD i 0 : Nat)

/-! ## Scans and reductions (R154, R155) -/

/-- The operations of R154. -/
def scanOp (op a b : Nat) : Nat :=
  let fl (g : El → El → El) : Nat :=
    fround f32 .rne false false (g (fread f32 false a) (fread f32 false b))
  match op with
  | 0x0 => (a + b) % 2 ^ 32
  | 0x1 => fl (El.add .rne)
  | 0x2 => if sgn a 32 ≤ sgn b 32 then a else b
  | 0x3 => if sgn a 32 ≤ sgn b 32 then b else a
  | 0x4 => min a b
  | 0x5 => max a b
  | 0x6 => fl El.minNum
  | 0x7 => fl El.maxNum
  | 0x8 => a &&& b
  | 0x9 => a ||| b
  | _ => a ^^^ b
/-- The identities of R154. -/
def scanId (op : Nat) : Nat :=
  match op with
  | 0x2 => 0x7FFFFFFF
  | 0x3 => 0x80000000
  | 0x4 => 0xFFFFFFFF
  | 0x6 => 0x7FC00000
  | 0x7 => 0x7FC00000
  | 0x8 => 0xFFFFFFFF
  | _ => 0
/-- The value carried through a list of lanes: the first value unchanged, then op by op (R155). -/
def carry (op : Nat) (val : Nat → Nat) : List Nat → Option Nat
  | [] => none
  | i :: l => some (l.foldl (fun run j => scanOp op run (val j)) (val i))
/-- The operation and the segment size of a control byte (R154). -/
def ctlOp (f : FmtT) : Nat := fld f.b.num.toNat 0 4
def ctlSeg (f : FmtT) : Nat := 2 ^ fld f.b.num.toNat 4 3
def sameSeg (f : FmtT) (i : Nat) (ls : List Nat) : List Nat :=
  ls.filter fun j => j / ctlSeg f = i / ctlSeg f
/-- XSCAN (R155). -/
def execXscan (f : FmtT) (s : State) : Out :=
  runExchange s f (srcWords f.a) fun _ r ls i =>
    let val (j : Nat) := r.operand f.a j 32
    let seg := (sameSeg f i ls).filter fun j => if f.fn = 0 then decide (j ≤ i) else decide (j < i)
    (carry (ctlOp f) val seg).getD (scanId (ctlOp f))
/-- XRED (R155). -/
def execXred (f : FmtT) (s : State) : Out :=
  runExchange s f (srcWords f.a) fun _ r ls i =>
    (carry (ctlOp f) (fun j => r.operand f.a j 32) (if f.d.isS then ls else sameSeg f i ls)).getD 0
/-- VOTE (R156). -/
def execVote (f : FmtT) (s : State) : Out :=
  runExchange s f (srcWords f.a) fun _ r ls _ =>
    let val (j : Nat) := r.operand f.a j 32
    match f.fn.toNat with
    | 0 => (maskOf (ls.filter fun j => val j != 0)).toNat
    | 1 => bits01 (ls.any fun j => val j != 0)
    | 2 => bits01 (ls.all fun j => val j != 0)
    | _ => bits01 (ls.all fun j => val j == val (ls.headD 0))
/-- Equality of keys (R157): bitwise, or as binary32 under .num. -/
def keyEq (num : Bool) (a b : Nat) : Bool :=
  if num then (fread f32 false a).cmp (fread f32 false b) == .eq else a == b
/-- MATCH (R157). -/
def execXmatch (f : FmtT) (s : State) : Out :=
  let w := 32 * Width.count f.a.width
  let eq (r : RegFile) (i j : Nat) : Bool :=
    keyEq (f.fn.getLsbD 0) (r.operand f.a i w) (r.operand f.a j w)
  runExchange s f (srcWords f.a)
    (fun _ r ls i => (maskOf (ls.filter fun j => eq r i j)).toNat)
    fun c r ls =>
      if f.fn.getLsbD 1 then
        c.kWrite c.grp (f.b.num.toNat % 8)
          (maskOf (ls.filter fun i => !(ls.any fun j => decide (j < i) && eq r i j))) (maskOf ls)
      else c.grp

/-! ## Permutation registers (R160, R161) -/

/-- The lane-to-position map of R161, from the destination of each active lane. -/
def placeLanes (dest : Nat → Nat) (ls : List Nat) : List Nat :=
  let first := ls.foldl (fun (pi : List (Option Nat)) i =>
    if pi.contains (some (dest i)) then pi else setNth i (some (dest i)) pi)
    (List.replicate 32 none)
  let full := (List.range 32).foldl (fun (pi : List (Option Nat)) p =>
    if (pi.getD p none).isSome then pi
    else setNth p ((List.range 32).find? fun t => !pi.contains (some t)) pi) first
  full.map fun x => x.getD 0
/-- The bit of an xc register that stage s's switch at lower global position p is (R158, R161). -/
def switchBit (s p : Nat) : Nat :=
  let b := stageBit s
  16 * s + (p / 2 ^ (b + 1) * 2 ^ b + p % 2 ^ b)
/-- The inner loop of R161 from input x, whose side is set. -/
def routeLoop (pi : List Nat) (h : Nat) : Nat → Nat → List (Option Bool) → List (Option Bool)
  | 0, _, side => side
  | n + 1, x, side =>
    let y := x ^^^ h
    let sx := (side.getD x none).getD false
    let side1 := setNth y (some (!sx)) side
    let z := (firstIdx (fun v => v == (pi.getD y 0) ^^^ h) pi).getD 0
    if (side1.getD z none).isSome then side1
    else routeLoop pi h n z (setNth z (some sx) side1)
/-- The sides of R161's inputs at one level. -/
def routeSides (pi : List Nat) (h : Nat) : List Bool :=
  ((List.range h).foldl (fun (side : List (Option Bool)) p =>
    if (side.getD p none).isSome then side else routeLoop pi h 32 p (setNth p (some false) side))
    (List.replicate (2 * h) none)).map fun x => x.getD false
/-- route(π, L, hi) of R161 as the list of the switch bits that are set; `n` is 4 − L. -/
def route : Nat → List Nat → Nat → List Nat
  | 0, pi, hi => if pi.getD 0 0 = 1 then [switchBit 4 (2 * hi)] else []
  | n + 1, pi, hi =>
    let h := 2 ^ (n + 1)
    let lvl := 3 - n
    let side := routeSides pi h
    let at_ (q : Nat) : Nat := hi * 2 ^ (n + 2) + q
    let inv (v : Nat) : Nat := (firstIdx (fun x => x == v) pi).getD 0
    let front := ((List.range h).filter fun j => side.getD j false).map fun j => switchBit lvl (at_ j)
    let back := ((List.range h).filter fun j => side.getD (inv j) false).map
      fun j => switchBit (8 - lvl) (at_ j)
    let sub (c : Bool) : List Nat := (List.range h).map fun i =>
      (pi.getD (if side.getD i false == c then i else i + h) 0) % h
    front ++ back ++ route n (sub false) (2 * hi) ++ route n (sub true) (2 * hi + 1)
/-- The setting of R161 for a permutation. -/
def xcOf (pi : List Nat) : BitVec 160 :=
  (route 4 pi 0).foldl (fun x b => x ||| (1#160 <<< b)) 0
/-- XGEN (R161). -/
def execXgen (sp : Bool) (xd : BitVec 3) (a : BitVec 8) (s : State) : Out :=
  onTrack s fun c =>
    let ls := c.lanes
    if ls.isEmpty then .next (s.advance c c.grp c.trk sp 1)
    else
      let (r, bad) := laneLoop (fun i => [(Bank.v, vkey a.toNat i)]) (fun r _ => r) ls
        (RegFile.of c.grp c.trk)
      let x := xcOf (placeLanes (fun i => (r.get .v (vkey a.toNat i)).val.toNat % 32) ls)
      let grp := match bad with
        | none => { c.grp with xc := put 0 xd.toNat x c.grp.xc }
        | some _ => c.grp
      .next (s.regDone { c with grp := grp } r bad (ls.headD 0) sp (laneSteps ls.length))
/-- XSET (R160): from s registers, or 20 bytes of the team scratchpad read at the instruction's step,
which waits with empty steps for what R245 and R246 order before it. -/
def execXset (sp : Bool) (xd : BitVec 3) (mem : Bool) (sn : BitVec 8) (s : State) : Out :=
  onTrack s fun c =>
    let n := sn.toNat
    let reads := (List.range (if mem then 1 else 5)).map fun j => (Bank.s, n + j)
    let r0 := RegFile.of c.grp c.trk
    let set (x : Nat) : Group :=
      { c.grp with xc := put 0 xd.toNat (BitVec.ofNat 160 (x % 2 ^ 144)) c.grp.xc }
    if c.run.cursor = some 32 then .next (s.regDone c r0 none 0 sp 1)
    else
      let (r, bad) := r0.touchAll reads
      if bad then .next (s.regDone c r (some 32) 0 sp 1)
      else if !mem then .next (s.regDone { c with grp := set (r.value reads) } r none 0 sp 1)
      else
        let t := r.value reads
        let s1 := s.countErrors c r
        match scratchCheck c.team.size t 20 4 with
        | some kind => .next ((s1.setGroup c.g (c.grp.withRegs r)).precise c kind 0 none t 0)
        | none =>
          if s.holdsBack c.core c.grid.part c.team c.grp.memq ⟨.scratch, t, 20⟩ then
            .next (s.setTrack c.t { c.trk with steps := c.trk.steps + 1 })
          else if (s.core c.core).fifoTouch (c.team.base + t) 20 then
            .next ((s.regDone c r none 0 sp 1).impreciseFault c.g
              { s.groupRec 0x12 c.g with iaddr := c.iaddr, addr := t })
          else
            let x := leNat (s.scrRead c.core (c.team.base + t) 20)
            .next (s.regDone { c with grp := set x } r none 0 sp 1)

end Sys2Proof.Machine
end

