-- ==== Sys2Proof/Machine/Migration.lean ====
section
/-! DEFINITION. Page migration (R231), the invalidation of translations in an island (R327), and the messages with which
packages of an island do both (log 30, log 46). -/

namespace Sys2Proof.Machine

/-! ## The old home's steps (R231) -/

/-- The lines of a page. -/
def pageLines (page : Nat) : List Nat := (List.range 32).map (page * 32 + ·)
def State.movingAt (s : State) (d page : Nat) : Option Moving := (s.die d).home.moving.find? fun m => m.page == page
def State.updMoving (s : State) (d page : Nat) (f : Moving → Moving) : State :=
  s.updHome d fun h => { h with moving := h.moving.map fun m => if m.page = page then f m else m }
/-- No recount and no persistent request for a line of the page is left at the home: both are finished first. -/
def Home.quiet (h : Home) (page : Nat) : Bool :=
  let free (line : Nat) : Bool := line / 32 != page
  (h.recounts.all fun r => free r.line) && (h.pending.all fun r => free r.line) && (h.turn.all fun r => free r.line) &&
  (h.handed.all fun r => free r.line) && (h.active.map fun a => free a.req.line).getD true
/-- Step 2: every token of the 32 lines is recalled. -/
def State.recallPage (s : State) (d page : Nat) : State :=
  let left := (pageLines page).map fun l => (l, s.recallSet d l)
  let s1 := s.updMoving d page fun m => { m with stage := 1, left := left, sent := s.now }
  left.foldl (fun s e => s.postAll d e.2 (.recall e.1 (s.sideOf e.1).serial)) s1
/-- The end of the recall of a line: tokens that are still missing are recreated as a recount recreates them (R391). -/
def State.gathered (s : State) (d line : Nat) : State :=
  let x := s.sideOf line
  if x.crown && x.count == 256 then s
  else
    let s1 := s.setSide line { x with count := 256, crown := true, serial := x.serial + 1, poison := x.poison || !x.crown }
    if x.crown then s1 else s1.report { s1.dieRec 0x35 d with addr := line * 128, flags := 0x10 }
/-- Step 3: the new home takes a line with its serial and its poison; the package keeps no other copy of it. -/
def State.takeLine (s : State) (line : Nat) (l : Line) (serial : BitVec 4) (poison : Bool) : State :=
  let s1 := (List.range 8).foldl (fun s d => s.dropEnt d line) s
  State.setSide { s1 with mem := wrBytes s1.mem (line * 128) (lineBytes l 0 128) } line ⟨256, true, serial, poison, 0⟩
/-- The new home has the page, and queues what arrives for it until the queued requests of the old home are there
(R231 step 5; log 30). -/
def State.takePage (s : State) (new : Nat) (lines : List (Line × BitVec 4 × Bool)) : State :=
  let s1 := lines.zipIdx.foldl (fun s x => s.takeLine (new * 32 + x.2) x.1.1 x.1.2.1 x.1.2.2) s
  match (s.lineHome (new * 32)).bind s.ownDie with
  | some n => s1.updHome n fun h => { h with moving := h.moving ++ [⟨0, 0, 0, new, new, 0, 8, [], s.now, []⟩] }
  | none => s1
def State.pageData (s : State) (page : Nat) : List (Line × BitVec 4 × Bool) :=
  (pageLines page).map fun l => (s.homeLine l, (s.sideOf l).serial, (s.sideOf l).poison)
/-- The die of this package that is a page's home. -/
def State.pageHome (s : State) (page : Nat) : Option Nat := (s.lineHome (page * 32)).bind s.ownDie
/-- A wait for a line of the page goes on under the line's new address, a buffered store and a store of the device go there,
and no core keeps a line of either page (R270; log 30). -/
def State.rekeyPage (s : State) (page new : Nat) : State :=
  let s1 := (List.range 8).foldl (fun s d => (pageLines page).foldl (fun s l =>
    s.rekey (s.islDie d) l (new * 32 + l % 32)) s) s
  let at_ (pa : Nat) : Nat := if pa / 4096 = page then new * 4096 + pa % 4096 else pa
  let pa (w : WtStore) : WtStore := { w with pa := at_ w.pa }
  let gone (line : Nat) : Bool := line / 32 == page || line / 32 == new
  let core (k : Core) : Core := { k with
    wtb := k.wtb.map pa
    cache := k.cache.filter fun e => !gone e.1
    icache := k.icache.filter fun e => !gone (e.1 / 2 ^ 16) }
  { s1 with
    cores := s1.cores.map fun e => (e.1, core e.2)
    devStores := s1.devStores.map fun x => (at_ x.1, x.2) }
/-- Step 4: every package of the island drops its translations of the page and turns to the new page, once before the leaf
is written and once more when it has been (log 30). -/
def State.turnPage (s : State) (d : Nat) (m : Moving) (stage : Nat) : State :=
  (State.updMoving (s.rekeyPage m.page m.new) d m.page fun m => { m with stage := stage }).startInval d m.part
    (some m.va) (some (m.page, m.new)) true (.page d m.page)
/-- Step 4: the new leaf entry, at device scope. -/
def State.writeLeaf (s : State) (d : Nat) (m : Moving) : State :=
  let e := s.physNat m.leaf 8
  (s.physWrite m.leaf (leBytes 8 (e - ptePa e + m.new * 4096))).updMoving d m.page fun m => { m with stage := 5 }
/-- Step 5 at the new home: the queued requests are activated in their order, before all others and before what has
arrived there since it took the page. -/
def State.handQueue (s : State) (page : Nat) (l : List HReq) : State :=
  match (s.lineHome (page * 32)).bind s.ownDie with
  | some n =>
    let held := ((s.movingAt n page).map (·.hold)).getD []
    (s.updHome n fun h => { h with
      moving := h.moving.filter fun m => m.page != page
      handed := h.handed ++ (l ++ held).eraseDups }).nextTurn n
  | none => s
/-- A queued request under the line's new address: of its slice there. -/
def HReq.toPage (r : HReq) (new : Nat) : HReq :=
  let l := new * 32 + r.line % 32
  ⟨r.die, sliceOf l, r.write, l⟩
/-- Reports the end of a migration to the package whose driver ordered it. -/
def State.migReport (s : State) (d by_ page st : Nat) : State :=
  if (s.ownDie by_).isSome then s.cmdEnd 1 st else s.post d (.die by_) (.migDone page st)
/-- Step 5, and the end. -/
def State.endMove (s : State) (d : Nat) (m : Moving) : State :=
  let l := (m.hold.map fun r => r.toPage m.new).eraseDups
  let s1 := s.updHome d fun h => { h with
    moving := h.moving.filter fun x => x.page != m.page
    forwards := h.forwards ++ [(m.page, m.new, s.now + maxAge)] }
  let s2 := if (s1.pageHome m.new).isSome then s1.handQueue m.new l
    else match s1.homeDest (m.new * 32) with
      | some h => s1.post d h (.migReqs m.new (l.map fun r => (r.die, r.slice, r.write, r.line)))
      | none => s1
  s2.migReport d m.by_ m.page 2
/-- The next step of a migration at its old home, once what it waits for has come. -/
def State.moveOn (s : State) (d : Nat) (m : Moving) : Out :=
  if m.stage = 0 then
    (if (s.die d).home.quiet m.page then .next (s.recallPage d m.page) else off "PAGE_MIGRATION: a request is active")
  else if m.stage = 1 then
    if m.left.any fun e => !e.2.isEmpty then off "PAGE_MIGRATION: a RACK is awaited"
    else
      let s1 := (pageLines m.page).foldl (fun s l => s.gathered d l) s
      if (s1.pageHome m.new).isSome then .next ((s1.takePage m.new (s1.pageData m.page)).turnPage d m 3)
      else match s1.homeDest (m.new * 32) with
        | some h => .next ((s1.updMoving d m.page fun m => { m with stage := 2 }).post d h
            (.migPage m.new (s1.pageData m.page)))
        | none => off "PAGE_MIGRATION: no home"
  else if m.stage = 4 then
    (match s.see d [m.leaf / 128] with
    | (.ok, s1) => .next (s1.writeLeaf d m)
    | (.wait true, s1) => .next s1
    | _ => off "PAGE_MIGRATION: the leaf entry is awaited")
  else if m.stage = 5 then
    (if s.devStores.any fun x => x.1 / 128 == m.leaf / 128 then off "PAGE_MIGRATION: the leaf entry is awaited"
     else .next (s.turnPage d m 6))
  else if m.stage = 7 then .next (s.endMove d m)
  else off "PAGE_MIGRATION: a copy or an invalidation is awaited"

/-! ## Messages between packages -/

/-- A migration begins at the old home, unless the page is migrating already: its lines are blocked (step 1). -/
def State.startMove (s : State) (d by_ : Nat) (part : BitVec 16) (va leaf page new : Nat) : State :=
  if (s.movingAt d page).isSome then s.migReport d by_ page 3
  else s.updHome d fun h => { h with moving := h.moving ++ [⟨part, va, leaf, page, new, by_, 0, [], 0, []⟩] }
/-- Takes the message that `pick - n` names, if it is one of the two packages' own. -/
def onMail (s : State) (n : Nat) (what : String) (k : State → Nat → Nat → Msg → Option State) : Out :=
  match s.net[s.pick - n]? with
  | some f => match f.dest with
    | .die i => match s.ownDie i with
      | some d =>
        if s.expired f then off what
        else match k { s with net := dropNth (s.pick - n) s.net } d f.src f.msg with
          | some t => .next t
          | none => off what
      | none => off what
    | _ => off what
  | none => off what
/-- What a package does with a message of a migration. -/
def State.migMail (s : State) (d src : Nat) (m : Msg) : Option State :=
  match m with
  | .migOrder part va leaf page new => some (s.startMove d src part va leaf page new)
  | .migPage new lines => some ((s.takePage new lines).post d (.die src) (.migPageAck new))
  | .migPageAck new =>
    match (s.die d).home.moving.find? fun m => m.new == new && m.stage == 2 with
    | some m => some (s.turnPage d m 3)
    | none => some s
  | .migReqs page l => some (s.handQueue page (l.map fun r => ⟨r.1, r.2.1, r.2.2.1, r.2.2.2⟩))
  | .migDone page st =>
    some (if s.migPage = some page then { s.cmdEnd 1 st with migPage := none } else s)
  | _ => none

/-! ## PAGE_MIGRATION -/

/-- The migration that the command has ordered is under way, here or at another package. -/
def State.moveOrdered (s : State) : Bool :=
  s.migPage.isSome || (List.range 8).any fun d => (s.die d).home.moving.any fun m =>
    m.stage != 8 && (s.ownDie m.by_).isSome
/-- The command starts at the old home, or is sent there; an entry that cannot be read makes it invalid (log 30). -/
def State.orderMove (s : State) : Out :=
  let part := BitVec.ofNat 16 (s.cmd 1 2 2)
  let va := s.cmd 1 8 8 % 2 ^ 57 / 4096 * 4096
  let leaf := s.cmd 1 16 8
  let new := s.cmd 1 24 8
  onCmd s 1 1 "PAGE_MIGRATION" (if s.moveOrdered then off "PAGE_MIGRATION: under way" else
    match s.see 0 (s.tableLines part va ++ if leaf / 2 ^ 48 = 0 then [leaf / 128] else []) with
    | (.wait true, s1) => .next s1
    | (.wait false, _) => off "PAGE_MIGRATION: a table entry is awaited"
    | (.err _, s1) => .next (s1.cmdEnd 1 4)
    | (.ok, s) => match s.part part, s.walk part va with
      | some p, .leaf 12 pa _ false =>
        let page := pa / 4096
        if pa / 2 ^ 48 ≠ 0 ∨ new / 2 ^ 48 ≠ 0 ∨ new % 4096 ≠ 0 ∨ !p.holds new ∨ leaf / 2 ^ 48 ≠ 0 ∨
            ptePa (s.physNat leaf 8) ≠ pa ∨ new = pa
        then .next (s.cmdEnd 1 4)
        else match s.lineHome (pa / 128) with
          | none => .next (s.cmdEnd 1 4)
          | some h => match s.ownDie h with
            | some d => .next (s.startMove d h part va leaf page (new / 4096))
            | none =>
              .next (State.post { s with migPage := some page } 0 (.die h) (.migOrder part va leaf page (new / 4096)))
      | _, _ => .next (s.cmdEnd 1 4))
/-- PAGE_MIGRATION (R231): `pick` 0 is the command; 1 to 8 the oldest migration from a die's home that can go on; from 9
on a message. -/
def execPageMigration (s : State) : Out :=
  if s.pick = 0 then s.orderMove
  else if s.pick < 9 then
    match (s.die (s.pick - 1)).home.moving.find? fun m => (s.moveOn (s.pick - 1) m) matches .next _ with
    | some m => s.moveOn (s.pick - 1) m
    | none => off "PAGE_MIGRATION"
  else onMail s 9 "PAGE_MIGRATION" State.migMail

/-! ## Invalidations (R327) -/

/-- The walks that began before an invalidation have finished, and every package has answered. -/
def State.invalDone (s : State) (t : Tlbi) : Bool :=
  t.acks.isEmpty && t.walks.all fun w => !((s.die w.1).walks.any fun x => x.part == w.2.part && x.va == w.2.va)
/-- What the end of an invalidation does. -/
def State.invalEnd (s : State) (e : TlbiEnd) : State :=
  match e with
  | .group g sb => s.sbFall g (some sb)
  | .page d page =>
    match s.movingAt d page with
    | some _ => s.updMoving d page fun m => { m with stage := m.stage + 1 }
    | none => s
  | .reply d id => s.post 0 (.die d) (.tlbiAck id)
/-- What a package does with a message of an invalidation. -/
def State.invalMail (s : State) (d src : Nat) (m : Msg) : Option State :=
  match m with
  | .tlbi id part va moved =>
    let s1 := match moved with
      | some (page, new) => s.rekeyPage page new
      | none => s
    some (s1.startInval d part va none false (.reply src id))
  | .tlbiAck id =>
    let note (t : Tlbi) : Tlbi := if t.id = id then { t with acks := t.acks.filter fun i => i != src / 8 } else t
    some { s with tlbis := s.tlbis.map note }
  | _ => none
/-- TLBI_COMPLETION (R327): the invalidation that `pick` names, or beyond them a message. One that awaits answers asks
again after 2 ms, when what it sent is no more. -/
def execTlbiCompletion (s : State) : Out :=
  match s.tlbis[s.pick]? with
  | some t =>
    if s.invalDone t then .next (State.invalEnd { s with tlbis := dropNth s.pick s.tlbis } t.fin)
    else if !t.acks.isEmpty ∧ t.sent + maxAge ≤ s.now then
      .next (t.acks.foldl (fun s i => s.post 0 (.die (8 * i)) (.tlbi t.id t.part t.va t.moved))
        { s with tlbis := updNth s.pick (fun t => { t with sent := s.now }) s.tlbis })
    else off "TLBI_COMPLETION: a walk runs, or an answer is awaited"
  | none => onMail s s.tlbis.length "TLBI_COMPLETION" State.invalMail

end Sys2Proof.Machine
end

