-- ==== Sys2Proof/Machine/HostPort.lean ====
section
/-! DEFINITION. The host port, boot, attestation, monitors and power (R8, R46, R416 to R426). -/

namespace Sys2Proof.Machine

/-! ## Reset and boot (R420) -/

/-- A reset: the device discards all its state but serial flash. What lies outside it, and the model's own schedule,
clock and names, go on. -/
def State.restart (s : State) : State :=
  { State.fresh s.flash with
    agenda := s.agenda, pick := s.pick, freeCtr := s.freeCtr, now := s.now, nextId := s.nextId,
    hostMem := s.hostMem, poolMem := s.poolMem }
/-- The boot sequence has ended, with success or failure. -/
def Boot.ended (b : Boot) : Bool := b.ready || b.failed
/-- POWER_ON_RESET (R420). -/
def execPowerOnReset (s : State) : Out := .next s.restart
/-- CONVENTIONAL_RESET (R420); after a critical trip only a power-on reset ends the hold (R426). -/
def execConventionalReset (s : State) : Out :=
  if s.tripped then off "CONVENTIONAL_RESET: thermal trip" else .next s.restart
/-- RESET (R421): a write of the RESET register. -/
def execReset (v : Word) (s : State) : Out :=
  if s.tripped || !s.boot.ended then off "RESET: BAR0 is not decoded"
  else .next (if v = 0x5A5A0001#32 then s.restart else s)
/-- The unit map that flash marks current. -/
def Flash.current (f : Flash) : List Byte := if f.curB then f.mapB else f.mapA
/-- The boot sequence stops with a failure code. -/
def State.bootFail (s : State) (code : Nat) : State := { s with boot := { s.boot with code := code, failed := true } }
def State.bootNext (s : State) : State := { s with boot := { s.boot with step := s.boot.step + 1 } }
/-- The measurements of R422. -/
def State.measure (s : State) (m : UnitMap) : SMap (BitVec 384) :=
  [(1, Config.romDigest), (2, Config.sha384 s.flash.current), (3, Config.sha384 s.flash.image),
   (4, Config.sha384 (leBytes 4 m.floor))]
/-- The enumeration table of a unit map (R13 to R15); the fields of R22, which no map gives, are those of
`Enum.reset`. -/
def enumOf (m : UnitMap) : Enum :=
  { Enum.reset with
    published := true, grade := m.grade, coremask := m.coremask.map (· &&& 0x1FFFFFF#32), links := m.links,
    stackMask := m.stackMask, sliceMask := m.sliceMask }
/-- One boot step. Step 6 keeps an assignment that has come before it: only a reset takes one back (R22). -/
def State.bootOne (s : State) : State :=
  match s.boot.step, s.boot.map with
  | 1, _ =>
    if Config.mapSigOk s.flash.current then
      State.bootNext { s with boot := { s.boot with map := some (Config.unitMap s.flash.current) } }
    else s.bootFail 1
  | 2, some m => if s.flash.floor ≤ m.floor then s.bootNext else s.bootFail 2
  | 3, some m => State.bootNext { s with boot := { s.boot with bifurcated := m.bifurcate } }
  | 4, some m =>
    if Config.imageSigOk s.flash.image && decide (m.floor ≤ Config.imageVersion s.flash.image) then
      State.bootNext { s with boot := { s.boot with measures := s.measure m } }
    else s.bootFail 3
  | 5, _ =>
    if Config.hbmTrains then
      State.bootNext { s with side := [], dies := s.dies.map fun e => (e.1, { e.2 with incarn := 0 }) }
    else s.bootFail 4
  | 6, some m =>
    let s1 := { s with enum := { enumOf m with
      pkgid := s.enum.pkgid, pkgValid := s.enum.pkgValid, islpos := s.enum.islpos, islsize := s.enum.islsize } }
    if s1.gradeMet then s1.bootNext else s.bootFail 5
  | _, _ => { s with boot := { s.boot with ready := true } }
/-- BOOT_STEP (R420). -/
def execBootStep (s : State) : Out :=
  if s.tripped || s.boot.ended then off "BOOT_STEP" else .next s.bootOne
/-- A grid that the boot firmware launches (R118): no queue carries it. -/
def State.firmwareGrid (s : State) (lrec : BitVec 512) : Out :=
  if s.boot.ready ∧ s.grids.length < 4096 then
    let (id, s1) := s.name
    let part := BitVec.ofNat 16 (fld lrec.toNat 0x180 16)
    .next (s1.setGrid id { s1.newGrid lrec 16384 0 id part with firmware := true })
  else off "firmware grid"

/-! ## Configuration space (R415, R420) -/

/-- The bits of a configuration word that a write can change: command, BAR addresses, MSI-X control, AER mask and
severity, ATS and PASID enables. The offsets are PCI Express's (log 61). -/
def cfgMask (ofs : Nat) : Word :=
  if ofs = 0x04 then 0x0406#32
  else if ofs = 0x10 then 0xFC000000#32
  else if ofs = 0x14 ∨ ofs = 0x1C then 0xFFFFFFFF#32
  else if ofs = 0x18 then 0xFFFE0000#32
  else if ofs = 0x80 then 0xC0000000#32
  else if ofs = 0x108 ∨ ofs = 0x10C then 0x00100000#32
  else if ofs = 0x154 then 0x80000000#32
  else if ofs = 0x164 then 0x00010000#32
  else 0
/-- The fixed bits of a configuration word: identity and class (R415), two 64-bit non-prefetchable BARs, and the
capabilities PCI Express, MSI-X with 4 vectors, AER, ATS, PASID, resizable BAR (BAR0 fixed at 64 MiB) and DOE, in a chain
that holds no IDE, SR-IOV or PRI (R8). -/
def cfgFixed (ofs : Nat) : Word :=
  if ofs = 0x00 then 0x05081E9C#32
  else if ofs = 0x04 then 0x00100000#32
  else if ofs = 0x08 then (Config.cfgWord 8 &&& 0xFF#32) ||| 0x12000000#32
  else if ofs = 0x10 ∨ ofs = 0x18 then 4
  else if ofs = 0x34 then 0x40
  else if ofs = 0x40 then 0x00028010#32
  else if ofs = 0x80 then 0x00030011#32
  else if ofs = 0x100 then 0x15020001#32
  else if ofs = 0x150 then 0x1601000F#32
  else if ofs = 0x160 then 0x1701001B#32
  else if ofs = 0x170 then 0x19010015#32
  else if ofs = 0x174 then 0x00000400#32
  else if ofs = 0x178 then 0x00000620#32
  else if ofs = 0x190 then 0x0002002E#32
  else if (0x44 ≤ ofs ∧ ofs < 0x7C) ∨ ofs = 0x84 ∨ ofs = 0x88 ∨ (0x110 ≤ ofs ∧ ofs < 0x14C) ∨ ofs = 0x154 ∨ ofs = 0x164 then Config.cfgWord ofs &&& ~~~cfgMask ofs
  else 0
def State.doeOf (s : State) (fn : Nat) : Doe := look Doe.idle fn s.sys.doe
def State.setDoe (s : State) (fn : Nat) (x : Doe) : State :=
  { s with sys := { s.sys with doe := put Doe.idle fn x s.sys.doe } }
/-- The link's capabilities: 128 GT/s, 16 lanes or 8 (R8, R415). -/
def State.linkCap (s : State) : Word :=
  (Config.cfgWord 0x4C &&& ~~~0x3FF#32) ||| (if s.functions = 2 then 0x087#32 else 0x107#32)
/-- A word of a function's configuration space; 0x104 is AER's uncorrectable error status, 0x190 on the DOE mailbox. -/
def State.cfgRead (s : State) (fn ofs : Nat) : Word :=
  let m := s.doeOf fn
  if ofs = 0x4C then s.linkCap
  else if ofs = 0x19C then BitVec.ofNat 32 ((if m.busy then 1 else 0) + (if m.out.isEmpty then 0 else 2 ^ 31))
  else if ofs = 0x1A4 then m.out.headD 0
  else cfgFixed ofs ||| s.cfgSet fn ofs
/-- A write of the DOE mailbox: abort or go (control), a word of a data object, or the next word of the answer. -/
def State.doeWrite (s : State) (fn ofs : Nat) (w : Word) : State :=
  let m := s.doeOf fn
  if ofs = 0x198 then
    (if w.getLsbD 0 then s.setDoe fn Doe.idle
     else if w.getLsbD 31 && !m.inp.isEmpty then s.setDoe fn { m with busy := true }
     else s)
  else if ofs = 0x1A0 then (if m.busy then s else s.setDoe fn { m with inp := m.inp ++ [w] })
  else if ofs = 0x1A4 then s.setDoe fn { m with out := m.out.drop 1 }
  else s
/-- A write of a configuration word (R415): the writable bits; bits of AER's status are cleared by ones. -/
def State.cfgWrite (s : State) (fn ofs : Nat) (w : Word) : State :=
  let old := s.cfgSet fn ofs
  let new := if ofs = 0x104 then old &&& ~~~w else w &&& cfgMask ofs
  if 0x198 ≤ ofs ∧ ofs < 0x1A8 then s.doeWrite fn ofs w
  else State.msixRelease { s with sys := { s.sys with cfg := put 0 (cfgKey fn ofs) new s.sys.cfg } } fn
/-- The host writes a word of a function's MSI-X table; the spec does not say where in the BARs it lies (log 61). -/
def State.msixWrite (s : State) (fn idx : Nat) (w : Word) : Out :=
  if s.tripped || !s.boot.ready || decide (s.functions ≤ fn) || decide (16 ≤ idx) then off "MSI-X table"
  else
    let dflt : Word := if idx % 4 = 3 then 1#32 else 0
    let v := if idx % 4 = 0 then w &&& ~~~3#32 else if idx % 4 = 3 then w &&& 1#32 else w
    .next (State.msixRelease { s with sys := { s.sys with msixTab := put dflt (16 * fn + idx) v s.sys.msixTab } } fn)
/-- A read of a function's MSI-X table, or of its pending bits after it. -/
def State.msixRead (s : State) (fn idx : Nat) : Out :=
  if s.tripped || !s.boot.ready || decide (s.functions ≤ fn) || decide (16 < idx) then off "MSI-X table"
  else
    let pend := (List.range 4).foldl (fun n v => n + (if s.sys.msixPend.contains (4 * fn + v) then 2 ^ v else 0)) 0
    let v : Word := if idx = 16 then BitVec.ofNat 32 pend else s.msixWord fn idx
    .next { s with sys := { s.sys with hostReply := .value (v.setWidth 64) } }
/-- An Unsupported Request: the completion, and AER's status of the function (R8, R416). -/
def State.unsupported (s : State) (fn : Nat) : State :=
  { s with sys := { s.sys with
    hostReply := .unsupported
    cfg := put 0 (cfgKey fn 0x104) (look 0 (cfgKey fn 0x104) s.sys.cfg ||| 0x00100000#32) s.sys.cfg } }
/-- CONFIG_REQUEST (R420): a read of a function's configuration space. -/
def execConfigRequest (fn ofs : Nat) (s : State) : Out :=
  let r : HostReply :=
    if !s.boot.ended then .retryStatus
    else if fn < s.functions then .value ((s.cfgRead fn (ofs % 4096 / 4 * 4)).setWidth 64) else .unsupported
  if s.tripped then off "CONFIG_REQUEST: thermal trip"
  else .next { s with sys := { s.sys with hostReply := r } }
/-- The host writes a configuration word; until boot has ended the request is answered with retry status (R420). -/
def State.configWrite (s : State) (fn ofs : Nat) (w : Word) : Out :=
  if s.tripped then off "configuration write: thermal trip"
  else if !s.boot.ended then .next { s with sys := { s.sys with hostReply := .retryStatus } }
  else if fn < s.functions then .next (s.cfgWrite fn (ofs % 4096 / 4 * 4) w)
  else .next { s with sys := { s.sys with hostReply := .unsupported } }

/-! ## Unit-map update (R421) -/

def Umc.staged (u : Umc) : List Byte := (List.range u.umlen.toNat).map fun i => look 0 i u.umbuf
/-- The status that a commit ends in. -/
def State.commitStatus (s : State) : Nat :=
  let n := s.umc.umlen.toNat
  if n < 256 ∨ 57344 < n ∨ n % 8 ≠ 0 then 5
  else if !Config.mapSigOk s.umc.staged then 3
  else if (Config.unitMap s.umc.staged).floor < s.flash.floor then 4
  else if !Config.flashWrites s.umc.staged then 6
  else 2
/-- A write of UMCMD: the commit begins, and UMSTAT is busy (R421 step 1). -/
def State.commitStart (s : State) (v : Word) : State :=
  if v ≠ 0x5A5A0002#32 ∨ s.umc.umstat = 1 then s else { s with umc := { s.umc with umstat := 1 } }
/-- The end of the commit (R421 steps 2 to 5). -/
def State.commitEnd (s : State) : State :=
  let st := s.commitStatus
  let map := s.umc.staged
  let fl := if st ≠ 2 then s.flash
    else if s.flash.curB then { s.flash with mapA := map, curB := false }
    else { s.flash with mapB := map, curB := true }
  { s with umc := { s.umc with umstat := st }, flash := fl }
/-- UMCMD_COMMIT (R421): `pick` 0 is the write of UMCMD, any other the end of the commit that is under way. What comes
between them finds UMSTAT busy, and a reset there leaves flash as it was (log 70). -/
def execUmcmdCommit (v : Word) (s : State) : Out :=
  if s.tripped || !s.boot.ended then off "UMCMD_COMMIT: BAR0 is not decoded"
  else if s.pick = 0 then .next (s.commitStart v)
  else if s.umc.umstat = 1 then .next s.commitEnd else off "UMCMD_COMMIT: no commit is under way"

/-! ## Writes of BAR0 (R416, R417, R421, R425) -/

def State.setSys (s : State) (f : Sys → Sys) : State := { s with sys := f s.sys }
/-- The four command interfaces: the interface, and the offset within it. -/
def cmdPlace (ofs : Nat) : Option (Nat × Nat) :=
  if 0x30000 ≤ ofs ∧ ofs < 0x31000 then some ((ofs - 0x30000) / 0x400, ofs % 0x400) else none
/-- Whether an interface has a command of a code (R417). -/
def cmdKnown (i code : Nat) : Bool :=
  decide (1 ≤ code) && decide (code ≤ if i = 0 then 5 else 1)
/-- A write to a command interface. -/
def State.cmdWrite (s : State) (i ofs : Nat) (w : Word) : State :=
  if look 0 i s.sys.cmdStatus = 1 then s
  else if ofs < 0x100 then s.setSys fun y => { y with
    cmdBuf := (wordBytes w).zipIdx.foldl (fun m b => put 0 (256 * i + ofs + b.2) b.1 m) y.cmdBuf }
  else if ofs = 0x100 then
    if cmdKnown i (s.cmd i 0 1) then s.setSys fun y => { y with cmdStatus := put 0 i 1 y.cmdStatus }
    else s.cmdEnd i 4
  else s
/-- The registers that other events write: their offsets belong to those events. -/
def ownEvent (ofs : Nat) : Bool :=
  [0x1008, 0x1018, 0x11000, 0x20020, 0x1000010].contains ofs ||
  (decide (0x80000 ≤ ofs) && decide (ofs < 0x84000)) || (decide (0x100A00 ≤ ofs) && decide (ofs < 0x100A20))
/-- Writes one word of the boot block. -/
def State.bootWrite (s : State) (ofs : Nat) (w : Word) : State :=
  if s.umc.umstat = 1 then s
  else if ofs = 0x1010 then { s with umc := { s.umc with umlen := w } }
  else if 0x2000 ≤ ofs ∧ ofs < 0x2000 + 57344 then
    { s with umc := { s.umc with
      umbuf := (wordBytes w).zipIdx.foldl (fun m b => put 0 (ofs - 0x2000 + b.2) b.1 m) s.umc.umbuf } }
  else s
/-- Writes one word of the host-writable system registers (R117). -/
def State.sysRegWrite (s : State) (ofs : Nat) (w : Word) : State :=
  let n := (ofs - 0x40000) / 8
  let half := ofs / 4 % 2
  if 0x20 ≤ n ∧ n ≤ 0x26 ∧ n % 2 = 0 then
    let i := (n - 0x20) / 2
    s.setSys fun y => { y with wqbase := put 0 i (setHalf (look 0 i y.wqbase) half w) y.wqbase }
  else if n = 0x30 ∧ half = 0 then s.setSys fun y => { y with snapctl := snapctlOf w }
  else if 0x1000 ≤ n ∧ n < 0x1008 ∧ half = 0 then s.updDie (n - 0x1000) fun d => { d with monthr := monthrOf w }
  else s
/-- Writes one word of the registers of a ready device. -/
def State.barWrite (s : State) (ofs : Nat) (w : Word) : State :=
  let half := ofs / 4 % 2
  match cmdPlace ofs with
  | some (i, o) => s.cmdWrite i o w
  | none =>
    if ofs / 8 = 0x2000 then s.setSys fun y => { y with fqbase := setHalf y.fqbase half w }
    else if ofs = 0x10008 then s.setSys fun y => { y with fqhead := w }
    else if ofs / 8 = 0x4000 then s.setSys fun y => { y with srbase := setHalf y.srbase half w }
    else if ofs = 0x20008 then
      if 6 ≤ w.toNat ∧ w.toNat ≤ 16 then s.setSys fun y => { y with srlog2 := w.toNat } else s
    else if ofs = 0x2000C then s.setSys fun y => { y with srhead := w }
    else if ofs / 8 = 0x4003 then s.setSys fun y => { y with rpbase := setHalf y.rpbase half w }
    else if 0x40000 ≤ ofs ∧ ofs < 0x50000 then s.sysRegWrite ofs w
    else if ofs / 8 = 0xA000 then s.setSys fun y => { y with wtbase := setHalf y.wtbase half w }
    else if ofs / 8 = 0xA001 then s.setSys fun y => { y with mgbase := setHalf y.mgbase half w }
    else if ofs = 0x110000 then s.setSys fun y => { y with pwrcap := min (max w.toNat 400) 3200 }
    else s
/-- The boot block of BAR0. -/
def inBoot (ofs : Nat) : Bool := decide (0x1000 ≤ ofs) && decide (ofs < 0x10000)
/-- A word write. -/
def State.wordWrite (s : State) (ofs : Nat) (w : Word) : State :=
  if inBoot ofs then s.bootWrite ofs w else s.barWrite ofs w
/-- Whether an access is one that R416 or R420 answers with Unsupported Request. -/
def State.unsupportedAccess (s : State) (bar ofs size : Nat) : Bool :=
  (bar == 0 && (!(size == 4 || size == 8) || ofs % size != 0 || (s.boot.failed && !inBoot ofs))) ||
  (bar == 2 && s.boot.failed)
/-- BAR0_UNSUPPORTED_ACCESS (R416, R420), through the function that `pick` names. -/
def execBar0UnsupportedAccess (bar ofs size : Nat) (_write : Bool) (s : State) : Out :=
  if !s.tripped ∧ s.boot.ended ∧ s.unsupportedAccess bar ofs size then
    .next (s.unsupported (s.pick % s.functions))
  else off "BAR0_UNSUPPORTED_ACCESS"
/-- ALERT_CLEAR (R424): a write of a die's alert status. -/
def execAlertClear (die : Nat) (v : Word) (s : State) : Out :=
  if die < 8 then
    onReady s "ALERT_CLEAR: not ready" (.next (s.updDie die fun d => { d with alerts := d.alerts &&& ~~~(v.setWidth 2) }))
  else off "ALERT_CLEAR"
/-- SNTRIG (R337, R423). -/
def execSntrig (v : Word) (s : State) : Out :=
  onReady s "SNTRIG: not ready" (.next (if s.sys.snapctl.getLsbD 2 then s.snapshot 2 0 v else s))

/-- A write of one word of a register that has an event of its own (R416). -/
def State.ownWrite (s : State) (ofs : Nat) (w : Word) : State :=
  let run (o : Out) : State := match o with
    | .next t => t
    | _ => s
  if ofs = 0x1008 then run (execReset w s)
  else if ofs = 0x1018 then s.commitStart w
  else if ofs = 0x11000 then run (if w.getLsbD 31 then execCancelDoorbell w s else execReplayDoorbell w s)
  else if ofs = 0x1000010 then run (execSntrig w s)
  else if 0x80000 ≤ ofs ∧ ofs < 0x84000 then run (execDepctrHostWrite ((ofs - 0x80000) / 4) (w.setWidth 16) s)
  else if 0x100A00 ≤ ofs ∧ ofs < 0x100A20 then run (execAlertClear ((ofs - 0x100A00) / 4) w s)
  else s
/-- REGISTER_WRITE (R416): 4 bytes, or 8, the lower word first. Read-only and reserved offsets keep nothing (R5). A write
of 4 bytes to a register that has an event of its own is that event, and so is one of 8 bytes to the resume doorbell; the
upper half of that doorbell alone holds no ticket and does nothing. -/
def execRegisterWrite (ofs : Nat) (wide : Bool) (v : DWord) (s : State) : Out :=
  let words := if wide then [(ofs, v.setWidth 32), (ofs + 4, (v >>> 32).setWidth 32)] else [(ofs, v.setWidth 32)]
  if s.tripped || !s.boot.ended || (s.boot.failed && !inBoot ofs) || decide (0x4000000 ≤ ofs) ||
      decide (ofs % (if wide then 8 else 4) ≠ 0) || (!wide && ownEvent ofs) || ofs == 0x20020 then off "REGISTER_WRITE"
  else .next (words.foldl (fun s x => if ownEvent x.1 then s.ownWrite x.1 x.2 else s.wordWrite x.1 x.2) s)

/-! ## Reads of BAR0 (R409, R416, R423, R424) -/

/-- A number's 32-bit word i. -/
def wordOf (x i : Nat) : Word := BitVec.ofNat 32 (x / 2 ^ (32 * i))
/-- The directory of the snapshot map: each block with the offset of its record. -/
def snapDir : Nat → List SnapBlk → List (Nat × SnapBlk)
  | _, [] => []
  | o, b :: l => (o, b) :: snapDir ((o + b.length + 63) / 64 * 64) l
/-- A word of the snapshot map. -/
def State.snapWord (s : State) (ofs : Nat) : Word :=
  let bs := s.sys.snapMap
  let n := bs.length
  let dir := snapDir ((0x40 + 16 * n + 63) / 64 * 64) bs
  if ofs = 0 then s.sys.sntag
  else if ofs = 4 then BitVec.ofNat 32 n
  else if ofs = 8 then s.sys.snapstat
  else if ofs < 0x40 then 0
  else if ofs < 0x40 + 16 * n then
    match dir[(ofs - 0x40) / 16]? with
    | some (o, b) => wordOf (b.btype + b.die * 2 ^ 8 + b.index * 2 ^ 16 + o * 2 ^ 32 + b.length * 2 ^ 64 + 2 ^ 96)
        (ofs / 4 % 4)
    | none => 0
  else match dir.find? fun e => decide (e.1 ≤ ofs) && decide (ofs < e.1 + e.2.length) with
    | some (o, b) => wordOf b.bits ((ofs - o) / 4)
    | none => 0
/-- Droop events of a core in the last 1 ms (R424). -/
def Core.droopCount (k : Core) (now : Nat) : Nat := (k.droops.filter fun t => decide (now < t + 100000)).length
/-- A word of the monitor block. -/
def State.monitorWord (s : State) (ofs : Nat) : Word :=
  let core := ofs % 0x400 / 4
  if ofs < 0x300 then (s.core core).temp.signExtend 32
  else if 0x400 ≤ ofs ∧ ofs < 0x700 then
    BitVec.ofNat 32 (min ((s.core core).droopCount s.now) 65535 + bits01 (s.core core).avoided.isSome * 2 ^ 31)
  else if 0x800 ≤ ofs ∧ ofs < 0x900 then
    let i := (ofs - 0x800) / 4
    (look 0 (i % 8) (s.die (i / 8)).hbmTemp).signExtend 32
  else if 0x900 ≤ ofs ∧ ofs < 0xA00 then look 0 (ofs / 4 % 8) (s.die ((ofs - 0x900) / 32)).procMon
  else if 0xA00 ≤ ofs ∧ ofs < 0xA20 then (s.die ((ofs - 0xA00) / 4)).alerts.setWidth 32
  else 0
/-- A word of the extent map (R409). -/
def State.extentWord (s : State) (ofs : Nat) : Word :=
  match find (ofs / 32) s.extents with
  | some e =>
    let g := e.grant
    wordOf (ofs / 32 + 2 ^ 15 + g.part.toNat * 2 ^ 16 + bits01 g.participating * 2 ^ 32 + bits01 e.revoking * 2 ^ 33 +
      g.homedie * 2 ^ 40 + g.pages * 2 ^ 64 + g.node.toNat * 2 ^ 96 + g.cntext.toNat * 2 ^ 128) (ofs / 4 % 8)
  | none => 0
/-- A word of the counter block. -/
def State.counterWord (s : State) (ofs : Nat) : Word :=
  if ofs < 0x4000 then (look 0 (ofs / 4) s.depctr).setWidth 32
  else if ofs < 0x4040 then
    let d := s.die ((ofs - 0x4000) / 8)
    if ofs / 4 % 2 = 0 then d.stale else d.recounts
  else if 0x4100 ≤ ofs ∧ ofs < 0x4400 then (s.core ((ofs - 0x4100) / 4)).drops
  else 0
def halfOf (x : DWord) (ofs : Nat) : Word := if ofs / 4 % 2 = 0 then x.setWidth 32 else (x >>> 32).setWidth 32
/-- A word of the boot block. -/
def State.bootWord (s : State) (ofs : Nat) : Word :=
  if ofs = 0x1000 then BitVec.ofNat 32 (s.boot.step + s.boot.code * 2 ^ 8 + bits01 s.boot.ready * 2 ^ 31)
  else if ofs = 0x1010 then s.umc.umlen
  else if ofs = 0x1020 then BitVec.ofNat 32 s.umc.umstat
  else 0
/-- A word of the command interfaces. -/
def State.cmdWord (s : State) (i ofs : Nat) : Word :=
  if ofs < 0x100 then BitVec.ofNat 32 (s.cmd i ofs 4)
  else if ofs = 0x108 then BitVec.ofNat 32 (look 0 i s.sys.cmdStatus) else 0
/-- A word of the host-writable system registers. -/
def State.sysRegWord (s : State) (ofs : Nat) : Word :=
  let n := (ofs - 0x40000) / 8
  if 0x20 ≤ n ∧ n ≤ 0x26 ∧ n % 2 = 0 then halfOf (look 0 ((n - 0x20) / 2) s.sys.wqbase) ofs
  else if n = 0x30 ∧ ofs % 8 = 0 then s.sys.snapctl
  else if 0x1000 ≤ n ∧ n < 0x1008 ∧ ofs % 8 = 0 then (s.die (n - 0x1000)).monthr
  else 0
/-- A word of BAR0. -/
def State.barWord (s : State) (ofs : Nat) : Word :=
  let y := s.sys
  if inBoot ofs then s.bootWord ofs
  else if ofs < 0x240 then s.enumWord (ofs / 4)
  else match cmdPlace ofs with
  | some (i, o) => s.cmdWord i o
  | none =>
    if ofs / 8 = 0x2000 then halfOf y.fqbase ofs
    else if ofs = 0x10008 then y.fqhead
    else if ofs = 0x1000C then y.fqtail
    else if ofs = 0x10010 then y.fqlost
    else if ofs / 8 = 0x4000 then halfOf y.srbase ofs
    else if ofs = 0x20008 then BitVec.ofNat 32 y.srlog2
    else if ofs = 0x2000C then y.srhead
    else if ofs = 0x20010 then y.srtail
    else if ofs / 8 = 0x4003 then halfOf y.rpbase ofs
    else if 0x40000 ≤ ofs ∧ ofs < 0x50000 then s.sysRegWord ofs
    else if ofs / 8 = 0xA000 then halfOf y.wtbase ofs
    else if ofs / 8 = 0xA001 then halfOf y.mgbase ofs
    else if 0x80000 ≤ ofs ∧ ofs < 0x90000 then s.counterWord (ofs - 0x80000)
    else if 0x100000 ≤ ofs ∧ ofs < 0x110000 then s.monitorWord (ofs - 0x100000)
    else if ofs = 0x110000 then BitVec.ofNat 32 y.pwrcap
    else if ofs = 0x110004 then BitVec.ofNat 32 y.pwrnow
    else if 0x110010 ≤ ofs ∧ ofs < 0x110030 then BitVec.ofNat 32 (s.die ((ofs - 0x110010) / 4)).freq
    else if 0x200000 ≤ ofs ∧ ofs < 0x220000 then s.extentWord (ofs - 0x200000)
    else if 0x1000000 ≤ ofs ∧ ofs < 0x2000000 then s.snapWord (ofs - 0x1000000)
    else 0
/-- A read of BAR0 (R416): an aligned access of 4 or 8 bytes; a read of BAR2 gives no register (R5). -/
def State.barRead (s : State) (bar ofs size : Nat) : Out :=
  if s.tripped || !s.boot.ended || s.unsupportedAccess bar ofs size then off "BAR read"
  else
    let v : DWord := if bar ≠ 0 then 0
      else if size = 8 then ((s.barWord (ofs + 4)).setWidth 64 <<< 32) ||| (s.barWord ofs).setWidth 64
      else (s.barWord ofs).setWidth 64
    .next (s.setSys fun y => { y with hostReply := .value v })

/-! ## Attestation (R8, R422); message codes are those of SPDM (log 28) -/

/-- An answer of the responder; an error carries its code. It comes through the mailbox of the function that `pick` names, as
a data object of type 1 (SPDM) of vendor 1 (PCI-SIG), whose data object there is done with (log 28). -/
def State.spdmSay (s : State) (code : Nat) (body : List Nat) : State :=
  let ws := Config.spdmWords code body
  State.setDoe (s.setSys fun y => { y with hostReply := .spdm code body }) (s.pick % s.functions)
    ⟨[], false, 0x00010001#32 :: BitVec.ofNat 32 (ws.length + 2) :: ws⟩
def State.spdmErr (s : State) (e : Nat) : State := s.spdmSay 0x7F [e]
/-- A request that the responder answers once it has negotiated what comes before. -/
def onSpdm (s : State) (what : String) (before : Bool) (k : State) : Out :=
  if s.tripped || !s.boot.ended then off what else .next (if before then k else s.spdmErr 0x04)
def bytesNat (l : List Byte) : List Nat := l.map (·.toNat)
/-- GET_VERSION (R8): versions 1.2 and 1.3. -/
def execGetVersion (s : State) : Out :=
  onSpdm s "GET_VERSION" true (State.spdmSay { s with spdm := ⟨1, false, false⟩ } 0x04 [0x12, 0x13])
/-- GET_CAPABILITIES. -/
def execGetCapabilities (ver : Nat) (s : State) : Out :=
  onSpdm s "GET_CAPABILITIES" (s.spdm.version != 0) (if ver = 0x12 ∨ ver = 0x13 then
    State.spdmSay { s with spdm := ⟨ver, true, false⟩ } 0x61 [ver] else s.spdmErr 0x41)
/-- NEGOTIATE_ALGORITHMS: bit 7 of the offered set is ECDSA P-384, bit 1 SHA-384 as hash. -/
def execNegotiateAlgorithms (algs : Nat) (s : State) : Out :=
  onSpdm s "NEGOTIATE_ALGORITHMS" s.spdm.caps (if algs.testBit 7 ∧ algs.testBit 1 then
    State.spdmSay { s with spdm := { s.spdm with algs := true } } 0x63 [0x82] else s.spdmErr 0x01)
/-- GET_DIGESTS: the digest of slot 0. -/
def execGetDigests (s : State) : Out :=
  onSpdm s "GET_DIGESTS" s.spdm.algs (s.spdmSay 0x01 [0x01, (Config.sha384 Config.certChain).toNat])
/-- GET_CERTIFICATE (R422): a portion of the chain of slot 0. -/
def execGetCertificate (slot ofs len : Nat) (s : State) : Out :=
  onSpdm s "GET_CERTIFICATE" s.spdm.algs (if slot = 0 ∧ ofs < Config.certChain.length then
    s.spdmSay 0x02 (slot :: (Config.certChain.length - min (ofs + len) Config.certChain.length) ::
      bytesNat ((Config.certChain.drop ofs).take len))
    else s.spdmErr 0x01)
/-- CHALLENGE (R422): signed with the identity key over the chain's digest, the measurements and the nonce. -/
def execChallenge (slot : Nat) (nonce : BitVec 256) (s : State) : Out :=
  let d := (Config.sha384 Config.certChain).toNat
  let ms := s.boot.measures.map fun m => m.2.toNat
  onSpdm s "CHALLENGE" s.spdm.algs (if slot = 0 then
    s.spdmSay 0x03 (d :: ms ++ [(Config.spdmSign (d :: ms ++ [nonce.toNat])).toNat]) else s.spdmErr 0x01)
/-- GET_MEASUREMENTS (R422): index 0 counts them, 0xFF asks for all. -/
def execGetMeasurements (index : Nat) (nonce : BitVec 256) (s : State) : Out :=
  let ms := s.boot.measures
  let body := if index = 0 then [ms.length]
    else (ms.filter fun m => index == 0xFF || m.1 == index).flatMap fun m => [m.1, m.2.toNat]
  onSpdm s "GET_MEASUREMENTS" s.spdm.algs (if index = 0 ∨ index = 0xFF ∨ (find index ms).isSome then
    s.spdmSay 0x60 (body ++ [(Config.spdmSign (body ++ [nonce.toNat])).toNat]) else s.spdmErr 0x01)

/-! ## Monitors (R46, R424, R426) -/

/-- A critical trip: the package holds itself in reset (R426). -/
def State.trip (s : State) : State := { s.restart with tripped := true }
/-- Sets an alert bit of a die and sends vector 3 (R424). -/
def State.alert (s : State) (die bit : Nat) : State :=
  State.msix (s.updDie die fun d => { d with alerts := d.alerts ||| (1#2 <<< bit) }) 3
/-- The temperature alert of a sample (R424). -/
def State.tempAlert (s : State) (core : Nat) (t thr : Int) : State :=
  let die := dieOf core
  let marked := (s.die die).hotMark.contains core
  if thr ≤ t ∧ !marked then
    (s.updDie die fun d => { d with hotMark := d.hotMark ++ [core] }).alert die 0
  else if t ≤ thr - 20 ∧ marked then s.updDie die fun d => { d with hotMark := d.hotMark.filter (· != core) }
  else s
/-- A core whose sensor is read: a live one, or, while there is no enumeration table, any (R426). -/
def State.sensed (s : State) (core : Nat) : Bool := s.liveCore core || (!s.enum.published && decide (core < 192))
/-- The thermal ceiling of a die after a sample (R426). -/
def State.ceilings (s : State) (die : Nat) (t : Int) : State :=
  let cool := ((List.range 24).map (24 * die + ·)).all fun c => !s.sensed c || decide ((s.core c).temp.toInt < 400)
  if 420 ≤ t then s.updDie die fun d => { d with ceiling := 1000 }
  else if cool then s.updDie die fun d => { d with ceiling := 1800 }
  else s
/-- TEMPERATURE_SAMPLE (R46, R424, R426): in units of 0.25 °C. -/
def execTemperatureSample (core : Nat) (t : BitVec 16) (s : State) : Out :=
  let x := t.toInt
  if s.tripped || !s.sensed core then off "TEMPERATURE_SAMPLE"
  else if 460 ≤ x then .next s.trip
  else
    let s1 := s.updCore core fun k => { k with
      temp := t, hot := if 380 ≤ x then true else if x < 356 then false else k.hot }
    let thr := 4 * (((s.die (dieOf core)).monthr.toNat % 256 : Nat) : Int)
    .next ((s1.tempAlert core x thr).ceilings (dieOf core) x)
/-- DROOP_EVENT (R46, R424) at the core that `pick` names. -/
def execDroopEvent (s : State) : Out :=
  let core := s.pick
  let die := dieOf core
  let k := s.core core
  let before := k.droopCount s.now
  let thr := fld (s.die die).monthr.toNat 8 8
  if s.tripped || !s.boot.ready || !s.liveCore core then off "DROOP_EVENT"
  else
    let s1 := s.setCore core { k with
      droops := k.droops.filter (fun t => decide (s.now < t + 100000)) ++ [s.now]
      avoided := if 9 ≤ before + 1 then some s.now else k.avoided }
    let marks := (s.die die).droopMark.filter fun c => c != core || decide (thr < before)
    let s2 := s1.updDie die fun d => { d with droopMark := marks }
    .next (if thr < before + 1 ∧ !marks.contains core then
        (s2.updDie die fun d => { d with droopMark := marks ++ [core] }).alert die 1
      else s2)
/-- AVOIDED_EXPIRY (R46) at the core that `pick` names: after 4 ms. -/
def execAvoidedExpiry (s : State) : Out :=
  match (s.core s.pick).avoided with
  | some t =>
    if t + 400000 ≤ s.now then .next (s.updCore s.pick fun k => { k with avoided := none }) else off "AVOIDED_EXPIRY"
  | none => off "AVOIDED_EXPIRY"
/-- HBM_TEMPERATURE_SAMPLE (R426): sensor 0 to 3 of stack 0 to 15, two to a die. -/
def execHbmTemperatureSample (stack sensor : Nat) (t : BitVec 16) (s : State) : Out :=
  let x := t.toInt
  let die := stack / 2
  let bit : BitVec 2 := 1#2 <<< (stack % 2)
  if s.tripped || decide (16 ≤ stack) || decide (4 ≤ sensor) then off "HBM_TEMPERATURE_SAMPLE"
  else if 420 ≤ x then .next s.trip
  else .next (s.updDie die fun d =>
    let m := put 0 (4 * (stack % 2) + sensor) t d.hbmTemp
    let cool := (List.range 4).all fun i => decide ((look 0 (4 * (stack % 2) + i) m).toInt < 360)
    { d with
      hbmTemp := m
      refresh2 := if 380 ≤ x then d.refresh2 ||| bit else if cool then d.refresh2 &&& ~~~bit else d.refresh2 })
/-- PROCESS_MONITOR_SAMPLE (R424). -/
def execProcessMonitorSample (die mon : Nat) (v : Word) (s : State) : Out :=
  if s.tripped || !s.boot.ready || decide (8 ≤ die) || decide (8 ≤ mon) then off "PROCESS_MONITOR_SAMPLE"
  else .next (s.updDie die fun d => { d with procMon := put 0 mon v d.procMon })

/-! ## Power (R425) -/

/-- The power limit of a die after 1 ms. -/
def powerStep (limit now cap : Nat) : Nat :=
  if cap < now then max 1000 (limit - 100)
  else if 20 * now < 19 * cap then min 1800 (limit + 100)
  else limit
/-- POWER_TICK (R425): PWRNOW, then every die's power limit and clock. -/
def execPowerTick (watts : Nat) (s : State) : Out :=
  if s.tripped || !s.boot.ready then off "POWER_TICK"
  else
    let s1 := s.setSys fun y => { y with pwrnow := watts }
    .next ((List.range 8).foldl (fun s d => s.updDie d fun x =>
      let l := powerStep x.powerLimit watts s.sys.pwrcap
      { x with powerLimit := l, freq := min (min l x.ceiling) 1800 }) s1)

end Sys2Proof.Machine
end

