-- ==== Sys2Proof/Machine/Ports.lean ====
section
/-! DEFINITION. The events of the Filwick ports and the die links: frames, keys, assignment, failures
(R17, R399 to R408, R453), and the extent map (R409 to R411). -/

namespace Sys2Proof.Machine

/-! ## Failures (R17, R405) -/

/-- LOSS to every home of the island (R386). -/
def State.sendLoss (s : State) (die link : Nat) : State :=
  s.postAll die (List.range (8 * s.enum.islsize)) (.loss link)
/-- The die-link failure event of a port (R317, R405). -/
def State.portEvent (s : State) (p : Nat) : State :=
  s.report { s.dieRec 0x34 (portDie p) with info := 16 + p }
/-- Aborts the fill of the slot to which a lost packet was going (R405, R294), answered or not. -/
def State.abortFill (s : State) (p : Nat) (f : Flight) : State :=
  match f.msg with
  | .lzPacket req slot _ _ _ =>
    s.abortSlot (match s.req req with
      | some r => r.core
      | none => 24 * portDie p) slot 1
  | _ => s
/-- An inbound packet that the failing link loses: its slot here is aborted (R294). -/
def State.abortInbound (s : State) (f : Flight) : State :=
  match f.msg with
  | .lzPacket _ slot _ _ _ => if slot.pkg = s.pkg then s.slotAbort slot 1 else s
  | _ => s
/-- The multicast whose pieces all leave through one port (R412). -/
def Msg.train (m : Msg) : Option Nat :=
  match m with
  | .mcSet req .. | .mcLine req .. | .mcClose req => some req
  | _ => none
/-- A new request to an extent that is being revoked (R411). -/
def State.barred (s : State) (m : Msg) : Bool :=
  match m with
  | .gets line _ | .getx line _ | .preq line _ _ => s.revokes line
  | _ => false
/-- The die of this package that sends a message: its source, or for a request of another package the old home that
forwards it to a page's new home (R231, R400). -/
def State.sendDie (s : State) (f : Flight) : Nat :=
  match s.ownDie f.src with
  | some d => d
  | none =>
    let line := match f.msg with
      | .gets l _ | .getx l _ | .preq l _ _ => some l
      | _ => none
    (line.bind fun l => (List.range 8).find? fun d => (s.die d).home.forwards.any fun x => x.2.1 == l / 32).getD 0
/-- Routes messages again from their own dies, the pieces of one multicast through one port (R400, R412); what is too old,
or no longer allowed out, goes no further (R402, R411). -/
def State.reroute (s : State) : List (Nat × Nat) → List Flight → State
  | _, [] => s
  | via, f :: l =>
    if s.barred f.msg || decide (maxAge ≤ Flight.age f s.now) then s.reroute via l
    else match Msg.train f.msg with
    | none => (s.route (s.sendDie f) f).reroute via l
    | some r => match via.find? fun x => x.1 == r with
      | some x => (s.enqueue x.2 f).reroute via l
      | none => match s.bestPort (s.sendDie f) (s.portsFor f.dest) with
        | some p => (s.enqueue p f).reroute ((r, p) :: via) l
        | none => State.reroute { s with egress := s.egress ++ [f] } via l
/-- A link fails (R405): the retry buffer is lost, with what was partly framed and what was arriving; what waits in the
port takes other ports. -/
def State.linkFails (s : State) (p : Nat) (arriving : List Flight) : State :=
  let k := s.port p
  let begun := if k.part = 0 then [] else k.queue.take 1
  let lost := (k.retry.flatMap (·.2) ++ begun).eraseDups
  let s1 := s.updPort p fun k => { k with
    st := .down, retry := [], queue := [], part := 0, fails := 0, resends := 0, rekeyAt := none, txSwitched := false,
    rxSwitched := false, skipTo := false, txKey := 0, rxKey := 0, nextTx := 0, nextRx := 0, ephem := 0, since := s.now }
  let s2 := s1.reroute [] (k.queue.drop begun.length)
  let s3 := (s2.sendLoss (portDie p) (16 + p)).portEvent p
  arriving.foldl State.abortInbound (lost.foldl (fun s f => s.abortFill p f) s3)
/-- DIE_LINK_FAILURE (R17, R386) of the link that `pick` names; its first end acts, or the second where the first one's
die has failed. -/
def execDieLinkFailure (s : State) : Out :=
  let l := s.pick
  if l < 10 ∧ !s.linkDown.contains l then
    let d := if (s.die (linkEnds l).1).failed then (linkEnds l).2 else (linkEnds l).1
    let s1 := { s with linkDown := s.linkDown ++ [l] }
    .next ((s1.sendLoss d l).report { s1.dieRec 0x34 d with info := l })
  else off "DIE_LINK_FAILURE"

/-! ## Frames (R403, R404) -/

/-- The next frame to arrive is the one at which a rekey takes effect (R406). -/
def Port.turnRx (p : Port) : Port :=
  if p.rekeyAt = some p.rx ∧ !p.rxSwitched then
    { p with
      rx := 0, rxKey := p.nextRx, rxSwitched := true
      rekeyAt := if p.txSwitched then none else p.rekeyAt }
  else p
/-- Assignment messages and their acknowledgements are all that an unassigned package takes (R408). -/
def State.accepts (s : State) (m : Msg) : Bool := s.enum.pkgValid || m matches .assignAck ..
/-- Puts something on a port's link. -/
def Port.put (k : Port) (l : List Wire) : Port := { k with wire := k.wire ++ l }
/-- A message as it comes in at a port: a window packet is handled at the die whose port received it (R414). -/
def State.incoming (s : State) (p : Nat) (f : Flight) : Flight :=
  let here := f.msg matches .winPut .. | .winGet .. | .winRed .. | .winMc ..
  { f with since := s.now, outer := true, dest := if here then .die (s.islDie (portDie p)) else f.dest }
/-- FRAME_RECEIVE (R403, R404): a frame whose tag verifies under the expected number delivers its messages and is
acknowledged; any other is asked for again, or fails the link. -/
def execFrameReceive (p : Nat) (f : Frame) (s : State) : Out :=
  let k := (s.port p).turnRx
  if p ≥ 36 ∨ k.st ≠ .up then off "FRAME_RECEIVE"
  else if f.tagOk && f.seq == k.rx then
    let s1 := s.setPort p ({ k with rx := k.rx + 1, fails := 0, skipTo := false }.put [.ack k.rx])
    let ms := (f.msgs.filter fun x => s.accepts x.msg && decide (x.aged < maxAge)).map (s.incoming p)
    .next { s1 with net := s1.net ++ ms }
  else if k.skipTo && f.seq != k.rx then .next (s.setPort p k)
  else if k.containment || decide (8 ≤ k.fails + 1) then .next ((s.setPort p k).linkFails p f.msgs)
  else .next (s.setPort p ({ k with fails := k.fails + 1, skipTo := true }.put [.retry k.rx]))
/-- FRAME_ACKNOWLEDGEMENT (R404). -/
def execFrameAcknowledgement (p : Nat) (seq : BitVec 64) (s : State) : Out :=
  let k := s.port p
  if k.st = .up ∧ (k.retry.any fun r => r.1 == seq) then
    .next (s.setPort p { k with
      retry := k.retry.filter fun r => r.1 != seq
      acked := seq + 1, ackSince := s.now, resends := 0 })
  else off "FRAME_ACKNOWLEDGEMENT"
/-- RETRY_REQUEST (R404): the frame and every later one go out again. -/
def execRetryRequest (p : Nat) (seq : BitVec 64) (s : State) : Out :=
  let k := s.port p
  let again := (k.retry.dropWhile fun r => r.1 != seq).map fun r => Wire.frame r.1 r.2
  if k.st ≠ .up then off "RETRY_REQUEST"
  else if k.containment || decide (8 ≤ k.resends + 1) || again.isEmpty then .next (s.linkFails p [])
  else .next (s.setPort p ({ k with resends := k.resends + 1 }.put again))
/-- LINK_ACK_TIMEOUT (R404) at the port that `pick` names: 20 µs are 2,000 ticks. -/
def execLinkAckTimeout (s : State) : Out :=
  let k := s.port s.pick
  if k.st = .up ∧ !k.retry.isEmpty ∧ k.ackSince + 2000 ≤ s.now then .next (s.linkFails s.pick [])
  else off "LINK_ACK_TIMEOUT"
/-- Up to n frames of a port: with 64 frames not acknowledged and more to send, the sender runs past the end of its retry
buffer and the link fails (R404). -/
def State.portFrames (s : State) (p : Nat) : Nat → State
  | 0 => s
  | n + 1 =>
    let k := s.port p
    if k.st ≠ .up ∨ k.queue.isEmpty then s
    else if 64 ≤ k.retry.length then s.linkFails p []
    else (s.setPort p (k.frame s.now)).portFrames p n
/-- What the ports send in n ticks: at most one frame each per tick (log 49). -/
def State.sendFrames (s : State) (n : Nat) : State :=
  let busy := (s.ports.filter fun e => !e.2.queue.isEmpty).map fun e => (e.1, min n (e.2.queued + 1))
  busy.foldl (fun s e => s.portFrames e.1 e.2)
    { s with ports := s.ports.map fun e => (e.1, { e.2 with wire := [] }) }
/-- EGRESS_WAIT_RELEASE (R453) of the message that `pick` names, with the other pieces of its multicast (R412); no
new request goes to an extent that is being revoked (R411). -/
def execEgressWaitRelease (s : State) : Out :=
  match s.egress[s.pick]? with
  | none => off "EGRESS_WAIT_RELEASE"
  | some f =>
    let same (x : Flight) : Bool := (Msg.train f.msg).isSome && Msg.train x.msg == Msg.train f.msg
    match s.bestPort (s.sendDie f) (s.portsFor f.dest) with
    | some p =>
      if s.barred f.msg || decide (maxAge ≤ Flight.age f s.now) then off "EGRESS_WAIT_RELEASE"
      else if (Msg.train f.msg).isNone then .next (State.enqueue { s with egress := dropNth s.pick s.egress } p f)
      else .next ((s.egress.filter same).foldl (fun s x => s.enqueue p x)
        { s with egress := s.egress.filter fun x => !same x })
    | none => off "EGRESS_WAIT_RELEASE"

/-! ## States of a port, keys (R406, R407) -/

/-- PORT_RESTART (R407) of the port that `pick` names. -/
def execPortRestart (s : State) : Out :=
  if s.pick < 36 ∧ (s.port s.pick).st = .down then
    .next (s.updPort s.pick fun k => { k with st := .training, since := s.now })
  else off "PORT_RESTART"
/-- A fresh ephemeral secret for a port, whose public key goes out with the certificate (R406). -/
def State.sendKey (s : State) (p : Nat) : State :=
  let (e, s1) := s.draw
  s1.updPort p fun k => { k with ephem := e }.put [.key (Config.ecPublic e) Config.identCert]
/-- LANES_TRAINED (R407): keying begins. -/
def execLanesTrained (s : State) : Out :=
  if (s.port s.pick).st = .training then
    .next ((s.updPort s.pick fun k => { k with st := .keying, since := s.now }).sendKey s.pick)
  else off "LANES_TRAINED"
/-- PORT_TIMEOUT (R407): 100 ms are 10,000,000 ticks. Training can fail before; keying fails at KEY_EXCHANGE. -/
def execPortTimeout (s : State) : Out :=
  let k := s.port s.pick
  if k.st = .training ∨ (k.st = .keying ∧ k.since + 10000000 ≤ s.now) then
    .next ((s.updPort s.pick fun k => { k with st := .down, ephem := 0, since := s.now }).portEvent s.pick)
  else off "PORT_TIMEOUT"
/-- The bytes of a hash or of a shared secret, the most significant first. -/
def be48 (x : BitVec 384) : List Byte := (leBytes 48 x.toNat).reverse
/-- H of R406 over both public keys and certificates, those of the end with the lower serial number first (log 8). -/
def Port.keyHash (x : Port) (k : KeyMsg) : BitVec 384 :=
  let own := (Config.ecPublic x.ephem, Config.identCert)
  let l := if Config.certSerial < k.certSerial then [own, (k.pub, k.cert)] else [(k.pub, k.cert), own]
  Config.sha384 (l.flatMap (·.1) ++ l.flatMap (·.2))
/-- Key and salt of a direction, as one number (R406 step 4). -/
def dirKey (z h : BitVec 384) (d : Nat) : BitVec 288 :=
  let hash (x : Nat) : Nat := (Config.sha384 (be48 z ++ be48 h ++ [BitVec.ofNat 8 x])).toNat
  BitVec.ofNat 288 (hash d / 2 ^ 128 * 2 ^ 32 + hash (d + 2) / 2 ^ 352)
/-- The keys of the transmit and the receive direction agreed with a peer (R406). -/
def Port.agree (x : Port) (k : KeyMsg) : BitVec 288 × BitVec 288 :=
  let z := Config.ecShared x.ephem k.pub
  let lower := decide (Config.certSerial < k.certSerial)
  let key (own : Bool) : BitVec 288 := dirKey z (x.keyHash k) (if lower == own then 1 else 2)
  (key true, key false)
/-- The verification against the fabric root key that the unit map carries (R406, R408): it fails while the boot sequence
has verified no map. -/
def State.verifies (s : State) (ok : List Byte → Bool) : Bool :=
  match s.boot.map with
  | some m => ok m.rootKey
  | none => false
/-- A peer's certificate chain and its signature of the hash verify (R406 step 3). -/
def State.keyOk (s : State) (x : Port) (k : KeyMsg) : Bool :=
  s.verifies fun root => Config.keyOk root k.cert (x.keyHash k) k.sig
/-- The port signs the hash (R406 step 2). -/
def Port.sign (x : Port) (k : KeyMsg) : Port := x.put [.sign (Config.identSign (x.keyHash k))]
/-- KEY_EXCHANGE (R406, R407): the peer's part has come; the port signs, and with the peer's signature verified it is
keyed. -/
def execKeyExchange (p : Nat) (k : KeyMsg) (s : State) : Out :=
  let x := s.port p
  if p ≥ 36 ∨ x.st ≠ .keying then off "KEY_EXCHANGE"
  else if s.keyOk x k then
    .next (s.setPort p { x.sign k with
      st := .up, tx := 0, rx := 0, acked := 0, fails := 0, resends := 0, retry := [], skipTo := false,
      txKey := (x.agree k).1, rxKey := (x.agree k).2, rekeyAt := none, txSwitched := false, rxSwitched := false,
      ephem := 0, since := s.now, ackSince := s.now })
  else .next ((s.updPort p fun x => { x.sign k with st := .down, ephem := 0, since := s.now }).portEvent p)
/-- REKEY (R406, R407) that takes effect at frame `n` of each direction. -/
def execRekey (p : Nat) (k : KeyMsg) (n : BitVec 64) (s : State) : Out :=
  let x := s.port p
  let due := decide (2 ^ 32 - 2 ^ 20 ≤ x.tx.toNat) || decide (2 ^ 32 - 2 ^ 20 ≤ x.rx.toNat)
  if p ≥ 36 ∨ x.st ≠ .up ∨ x.rekeyAt.isSome ∨ !due ∨ n.toNat < x.tx.toNat ∨ n.toNat < x.rx.toNat ∨
      2 ^ 32 < n.toNat then off "REKEY"
  else
    let s1 := s.sendKey p
    let y := s1.port p
    if s.keyOk y k then
      .next (s1.setPort p { y.sign k with
        nextTx := (y.agree k).1, nextRx := (y.agree k).2, rekeyAt := some n, txSwitched := false, rxSwitched := false,
        ephem := 0 })
    else .next ((s1.setPort p (y.sign k)).linkFails p [])

/-! ## Assignment (R408) -/

/-- Integrity modes and reach maps of the ports. -/
def State.setMaps (s : State) (a : Assign) : State :=
  let s1 := a.modes.foldl (fun s m => s.updPort m.1 fun k => { k with containment := m.2 }) s
  let s2 := a.direct.foldl (fun s m => s.updPort m.1 fun k => { k with direct := m.2 }) s1
  a.onward.foldl (fun s m => s.updPort m.1 fun k => { k with onward := m.2 }) s2
/-- Writes what an assignment gives, the valid bit last. -/
def State.assign (s : State) (a : Assign) : State :=
  let s1 := s.setMaps a
  { s1 with enum := { s1.enum with
    islpos := a.islpos, islsize := a.islsize, pkgid := a.pkgid, pkgValid := true } }
/-- The contents of two assignments are identical. -/
def Assign.same (a b : Assign) : Bool :=
  a.pkgid == b.pkgid && a.islpos == b.islpos && a.islsize == b.islsize && a.modes == b.modes && a.direct == b.direct &&
  a.onward == b.onward
/-- The status of an assignment (R408): after acceptance, 0 on another port for identical contents, else 2. -/
def State.assignStatus (s : State) (p : Nat) (a : Assign) : Nat :=
  if !s.verifies (Config.assignSigOk · a) then 1
  else if s.enum.pkgValid then
    (match s.accepted with
      | some (q, b) => if q ≠ p ∧ Assign.same a b then 0 else 2
      | none => 2)
  else if a.islsize = 0 ∨ 16 < a.islsize ∨ a.islsize ≤ a.islpos then 3 else 0
/-- ASSIGNMENT (R408) at a port. -/
def execAssignment (p : Nat) (a : Assign) (s : State) : Out :=
  if p ≥ 36 ∨ (s.port p).st ≠ .up then off "ASSIGNMENT"
  else
    let st := s.assignStatus p a
    let s1 := if st = 0 ∧ !s.enum.pkgValid then { s.assign a with accepted := some (p, a) } else s
    let die := portDie p
    .next (s1.enqueue p ⟨.assignAck st, s1.islDie die, (s1.die die).incarn, .node (Config.portNode p), 0,
      s.now, false⟩)

/-! ## Extents (R409 to R411) -/

/-- New requests to extents that are being revoked do not leave: those at an egress, and those in a port of which no flit
has gone out (R411). -/
def State.stopRequests (s : State) : State :=
  let keep (k : Port) : Port :=
    let begun := if k.part = 0 then 0 else 1
    { k with queue := k.queue.take begun ++ (k.queue.drop begun).filter fun f => !s.barred f.msg }
  { s with egress := s.egress.filter fun f => !s.barred f.msg, ports := s.ports.map fun e => (e.1, keep e.2) }
/-- REVOKE_NOTICE (R411) of the extent that `pick` names. -/
def execRevokeNotice (s : State) : Out :=
  match find s.pick s.extents with
  | some e =>
    if e.revoking then off "REVOKE_NOTICE"
    else .next (State.stopRequests { s with extents := ins s.pick { e with revoking := true } s.extents })
  | none => off "REVOKE_NOTICE"
/-- The line that a Dvoros message is about. -/
def Msg.lineOf (m : Msg) : Option Nat :=
  match m with
  | .gets l _ | .getx l _ | .tok l _ | .putt l _ | .preq l _ _ | .recall l _ | .rack l _ | .err l _ => some l
  | _ => none
/-- Nothing of the package is outstanding at an extent: no tokens, no request, no message, no store (R233). -/
def State.drained (s : State) (ext : Nat) : Bool :=
  let of (line : Nat) : Bool := line * 128 / 2 ^ 48 == 2 && fld (line * 128) 36 12 == ext
  (s.lines.all fun e => !of (e.1 % 2 ^ 45)) && (s.sreqs.all fun e => !of (e.1 % 2 ^ 45)) &&
  (s.flights.all fun f => !((Msg.lineOf f.msg).map of).getD false) && s.nodePosted.all fun p => p.2.2 != ext
/-- EXTENT_GRANT (R409): at most 2^24 pages. No grant replaces one that is being revoked, nor one of another partition while
an access to it is outstanding (R411). -/
def execExtentGrant (g : Grant) (s : State) : Out :=
  let free : Bool := match find g.extno.toNat s.extents with
    | some e => !e.revoking && (e.grant.part == g.part || s.drained g.extno.toNat)
    | none => true
  if s.enum.pkgValid ∧ g.pages ≤ 2 ^ 24 ∧ free then
    .next { s with extents := ins g.extno.toNat ⟨g, false⟩ s.extents }
  else off "EXTENT_GRANT"
/-- REVOKED_CONFIRMATION (R233, R411), which the node sends once all outstanding requests are drained. -/
def execRevokedConfirmation (s : State) : Out :=
  match find s.pick s.extents with
  | some e =>
    if !e.revoking then off "REVOKED_CONFIRMATION"
    else if s.drained s.pick then .next { s with extents := del s.pick s.extents }
    else off "REVOKED_CONFIRMATION: requests are outstanding"
  | none => off "REVOKED_CONFIRMATION"

end Sys2Proof.Machine
end

