-- ==== Sys2Proof/Machine/Special.lean ====
section
/-! DEFINITION. The special functions and division (R112, R113, R150). A result that the spec only bounds
is the free value of Config.special where that value keeps the bound, and otherwise the nearest binary32
value (log 7). -/

namespace Sys2Proof.Machine

/-! ## Exact quotients and roots -/

/-- The integer square root of a number below 4^k. -/
def isqrt : Nat → Nat → Nat
  | 0, _ => 0
  | k + 1, n =>
    let r := 2 * isqrt k (n / 4)
    if (r + 1) * (r + 1) ≤ n then r + 1 else r
/-- A positive quotient to 128 further bits, its last bit saying that something was cut off. -/
def divDy (x y : Dy) : Dy :=
  let n := x.m.natAbs * 2 ^ 128
  let q := n / y.m.natAbs
  ⟨2 * q + (if n % y.m.natAbs = 0 then 0 else 1), x.e - y.e - 129⟩
/-- A positive root to more than 30 bits, its last bit saying that something was cut off. -/
def sqrtDy (x : Dy) : Dy :=
  let odd : Nat := (x.e % 2).toNat
  let n := x.m.natAbs * 2 ^ (64 + odd)
  let r := isqrt 64 n
  ⟨2 * r + (if r * r = n then 0 else 1), (x.e - odd - 64) / 2 - 1⟩

/-! ## Enclosures of the functions, as multiples of 2^−256 -/

/-- ln 2 and π ÷ 2, as multiples of 2^−256, truncated. -/
def ln2Fix : Nat :=
  0xb17217f7d1cf79abc9e3b39803f2f6af40f343267298b62d8a0d175b8baafa2b
def halfPiFix : Nat :=
  0x1921fb54442d18469898cc51701b839a252049c1114cf98e804177d4c76273644
def fixOne : Nat := 2 ^ 256
/-- The partial sums of e^t. -/
def expSum (t : Nat) : Nat → Nat → Nat → Nat → Nat
  | 0, _, _, acc => acc
  | n + 1, k, term, acc => expSum t n (k + 1) (term * t / (fixOne * k)) (acc + term)
/-- The partial sums of sin t (from the term t, k = 2) and of cos t (from the term 1, k = 1). -/
def trigSum (t2 : Int) : Nat → Int → Int → Int → Int
  | 0, _, _, acc => acc
  | n + 1, k, term, acc =>
    trigSum t2 n (k + 2) (-(term * t2 / (fixOne * (k * (k + 1))))) (acc + term)
/-- The partial sums of the series of artanh z. -/
def atanhSum (z2 : Nat) : Nat → Nat → Nat → Nat → Nat
  | 0, _, _, acc => acc
  | n + 1, k, p, acc => atanhSum z2 n (k + 2) (p * z2 / fixOne) (acc + p / k)
/-- Two exact values between which a value lies; one and the same where the value is exact. -/
structure Near where
  lo : Dy
  hi : Dy
  deriving DecidableEq, Repr
/-- The value that is negated. -/
def Near.neg (n : Near) : Near := ⟨n.hi.neg, n.lo.neg⟩
/-- A value computed to within 2^−240 of its scale. -/
def Near.of (x : Int) (e : Int) : Near := ⟨⟨x - 2 ^ 16, e - 256⟩, ⟨x + 2 ^ 16, e - 256⟩⟩
/-- floor(x × 2^256) for an exact value. -/
def fixOf (x : Dy) : Int := if 0 ≤ x.e + 256 then x.m * 2 ^ (x.e + 256).toNat else x.m / 2 ^ (-(x.e + 256)).toNat
/-- 1 / x of a positive x. -/
def rcpNear (x : Dy) : Near :=
  let q := divDy ⟨1, 0⟩ x
  if q.m % 2 = 0 then ⟨q, q⟩ else ⟨⟨q.m - 1, q.e⟩, ⟨q.m + 1, q.e⟩⟩
/-- 1 / √x of a positive x, whose integer part is below 2^25: the root of 4^96 / x, cut off. -/
def rsqNear (x : Dy) : Near :=
  let odd : Int := x.e % 2
  let m := x.m.natAbs * 2 ^ odd.toNat
  let r := isqrt 96 (4 ^ 96 / m)
  let e := -96 - (x.e - odd) / 2
  ⟨⟨r, e⟩, ⟨if r * r * m = 4 ^ 96 then r else r + 1, e⟩⟩
/-- 2^x. -/
def exp2Near (x : Dy) : Near :=
  let f := fixOf x
  Near.of (expSum ((f % fixOne).toNat * ln2Fix / fixOne) 80 1 fixOne 0) (f / fixOne)
/-- log2 of a positive x = m × 2^e. -/
def log2Near (x : Dy) : Near :=
  let n := bitLen x.m.natAbs - 1
  let m := x.m.natAbs * fixOne / 2 ^ n
  let z := (m - fixOne) * fixOne / (m + fixOne)
  let ln := 2 * atanhSum (z * z / fixOne) 90 1 z 0
  Near.of ((x.e + n) * fixOne + (ln * fixOne / ln2Fix : Nat)) 0
def sqTimes : Nat → Nat → Nat
  | 0, x => x
  | n + 1, x => sqTimes n (x * x / fixOne)
/-- tanh of a positive x: e^−2x by eight halvings; from 64 up, within 2^−180 of 1. -/
def tanhNear (x : Dy) : Near :=
  let f := (fixOf x).toNat
  if 64 * fixOne ≤ f then ⟨⟨2 ^ 180 - 1, -180⟩, ⟨1, 0⟩⟩
  else
    let e := fixOne * fixOne / sqTimes 8 (expSum (2 * f / 256) 80 1 fixOne 0)
    Near.of (((fixOne - e) * fixOne / (fixOne + e) : Nat) : Int) 0
/-- sin 2πx, or cos 2πx, for x ≥ 0. -/
def trigNear (cos : Bool) (x : Dy) : Near :=
  let f := (fixOf x).toNat % fixOne
  let quad := (4 * f / fixOne + bits01 cos) % 4
  let t : Int := (4 * f % fixOne * halfPiFix / fixOne : Nat)
  let t2 := t * t / fixOne
  let sin := trigSum t2 60 2 t 0
  let cosv := trigSum t2 60 1 fixOne 0
  Near.of (match quad with
    | 0 => sin
    | 1 => cosv
    | 2 => -sin
    | _ => -cosv) 0

/-! ## Bounds (R112) -/

/-- |v − x| ≤ b. -/
def within (v x b : Dy) : Bool :=
  let d := v.add x.neg
  !b.lt (if d.m < 0 then d.neg else d)
/-- The exponent of an ulp: the distance of the binary32 values that bracket x; at a power of two the coarser of the
two distances (log 7). -/
def ulpExp (x : Dy) : Int := max (x.e + bitLen x.m.natAbs - 24) (-149)
/-- Within n ulp of every value that an enclosure holds, the ulp that of its finer end. -/
def inUlps (n : Nat) (x : Near) (v : Dy) : Bool :=
  let b : Dy := ⟨n, min (ulpExp x.lo) (ulpExp x.hi)⟩
  within v x.lo b && within v x.hi b
/-- The free result of function `code` on pattern x where it keeps the bound `ok`, else the value
nearest the enclosure (log 7). -/
def boundedFree (code : Nat) (x : Nat) (ok : Dy → Bool) (near : Near) : El :=
  let nearest := fread f32 false (rne32 (El.ofDy near.lo false)).toNat
  match nearest, fread f32 false (Config.special code (BitVec.ofNat 32 x)).toNat with
  | .fin _ _, .fin d n => if ok d then .fin d n else nearest
  | _, _ => nearest
/-- −1 ≤ v ≤ 1. -/
def unitRange (v : Dy) : Bool := within v ⟨0, 0⟩ ⟨1, 0⟩
/-- The integer that an exact value is, if it is one. -/
def Dy.int? (x : Dy) : Option Int :=
  if 0 ≤ x.e then some (x.m * 2 ^ x.e.toNat)
  else if x.m % 2 ^ (-x.e).toNat = 0 then some (x.m / 2 ^ (-x.e).toNat) else none

/-! ## The functions on a value (R113), and on a pattern -/

/-- RCP; a reciprocal beyond the largest finite value rounds to infinity (DESIGN CHOICE, log 34). -/
def rcp (x : Nat) (v : El) : El :=
  match v with
  | .nan => .nan
  | .inf n => .fin ⟨0, 0⟩ n
  | .fin d n =>
    if d.m = 0 then .inf n
    else
      let near := if n then (rcpNear d.neg).neg else rcpNear d
      boundedFree 0 x (inUlps 1 near) near
/-- RSQ. -/
def rsq (x : Nat) (v : El) : El :=
  match v with
  | .nan => .nan
  | .inf n => if n then .nan else .fin ⟨0, 0⟩ false
  | .fin d n =>
    if d.m = 0 then .inf n
    else if n then .nan
    else
      boundedFree 1 x (inUlps 2 (rsqNear d)) (rsqNear d)
/-- SQRT before rounding: exact, or with the bit that says it is not. -/
def sqrtEl (v : El) : El :=
  match v with
  | .nan => .nan
  | .inf n => if n then .nan else .inf false
  | .fin d n => if d.m = 0 then .fin d n else if n then .nan else .fin (sqrtDy d) false
/-- FDIV before rounding. -/
def fdivEl (a b : El) : El :=
  match a, b with
  | .nan, _ => .nan
  | _, .nan => .nan
  | .inf _, .inf _ => .nan
  | .inf x, .fin _ y => .inf (x != y)
  | .fin _ x, .inf y => .fin ⟨0, 0⟩ (x != y)
  | .fin a x, .fin b y =>
    if b.m = 0 then (if a.m = 0 then .nan else .inf (x != y))
    else if a.m = 0 then .fin ⟨0, 0⟩ (x != y)
    else
      let q := divDy a b
      .fin (if x = y then q else q.neg) (x != y)
/-- EXP2. -/
def exp2 (x : Nat) (v : El) : El :=
  match v with
  | .nan => .nan
  | .inf n => if n then .fin ⟨0, 0⟩ false else .inf false
  | .fin d _ =>
    if !d.lt ⟨128, 0⟩ then .inf false
    else if !(Dy.lt ⟨-150, 0⟩ d) then .fin ⟨0, 0⟩ false
    else match d.int? with
      | some n => .fin ⟨1, n⟩ false
      | none => boundedFree 2 x (inUlps 2 (exp2Near d)) (exp2Near d)
/-- LOG2; exact for a power of two. -/
def log2 (x : Nat) (v : El) : El :=
  match v with
  | .nan => .nan
  | .inf n => if n then .nan else .inf false
  | .fin d n =>
    if d.m = 0 then .inf true
    else if n then .nan
    else
      let k := bitLen d.m.natAbs - 1
      if d.m = 2 ^ k then El.ofDy ⟨d.e + k, 0⟩ false
      else boundedFree 3 x (inUlps 2 (log2Near d)) (log2Near d)
/-- TANH: the magnitude never exceeds 1.0. -/
def tanh (x : Nat) (v : El) : El :=
  match v with
  | .nan => .nan
  | .inf n => .fin ⟨if n then -1 else 1, 0⟩ n
  | .fin d n =>
    if d.m = 0 then .fin d n
    else
      let p := tanhNear (if n then d.neg else d)
      let near := if n then p.neg else p
      boundedFree 6 x (fun y => inUlps 2 near y && unitRange y) near
/-- Four times an exact value, as an integer if it is one. -/
def quarters (d : Dy) : Option Int := Dy.int? ⟨d.m, d.e + 2⟩
/-- 2^−22 absolute up to |x| = 2^20; [−1, 1] everywhere. -/
def trigOk (d : Dy) (near : Near) (y : Dy) : Bool :=
  unitRange y &&
    (!within d ⟨0, 0⟩ ⟨1, 20⟩ || (within y near.lo ⟨1, -22⟩ && within y near.hi ⟨1, -22⟩))
/-- SINR. -/
def sinr (x : Nat) (v : El) : El :=
  match v with
  | .nan => .nan
  | .inf _ => .nan
  | .fin d n =>
    match quarters d with
    | some q =>
      if q % 4 = 1 then .fin ⟨1, 0⟩ false
      else if q % 4 = 3 then .fin ⟨-1, 0⟩ true
      else .fin ⟨0, 0⟩ n
    | none =>
      let p := trigNear false (if n then d.neg else d)
      let near := if n then p.neg else p
      boundedFree 4 x (trigOk d near) near
/-- COSR. -/
def cosr (x : Nat) (v : El) : El :=
  match v with
  | .nan => .nan
  | .inf _ => .nan
  | .fin d n =>
    match quarters d with
    | some q =>
      if q % 4 = 0 then .fin ⟨1, 0⟩ false
      else if q % 4 = 2 then .fin ⟨-1, 0⟩ true
      else .fin ⟨0, 0⟩ false
    | none =>
      let near := trigNear true (if n then d.neg else d)
      boundedFree 5 x (trigOk d near) near

/-! ## Instructions (R150) -/

/-- The operand of a function: a subnormal pattern under DAZ is the zero of its sign. -/
def dazPat (p : Option Pfx) (x : Nat) : Nat :=
  let x := x % 2 ^ 32
  if pfxDaz p && x % 2 ^ 31 < 2 ^ 23 then x / 2 ^ 31 * 2 ^ 31 else x
/-- A function that ignores RM. -/
def special1 (s : State) (f : FmtT) (op : Nat → El → El) : Out :=
  aluT1 s f 32 fun p a =>
    let x := dazPat p a
    fround f32 .rne (pfxSat p) (pfxFtz p) (op x (fread f32 false x))
/-- RCP (R150). -/
def execRcp (f : FmtT) (s : State) : Out := special1 s f rcp
/-- RSQ (R150). -/
def execRsq (f : FmtT) (s : State) : Out := special1 s f rsq
/-- SQRT (R150): rounded by RM. -/
def execSqrt (f : FmtT) (s : State) : Out :=
  aluT1 s f 32 fun p a => fin32 p (sqrtEl (rd32 p a))
/-- EXP2 (R150). -/
def execExp2 (f : FmtT) (s : State) : Out := special1 s f exp2
/-- LOG2 (R150). -/
def execLog2 (f : FmtT) (s : State) : Out := special1 s f log2
/-- SINR (R150). -/
def execSinr (f : FmtT) (s : State) : Out := special1 s f sinr
/-- COSR (R150). -/
def execCosr (f : FmtT) (s : State) : Out := special1 s f cosr
/-- TANH (R150). -/
def execTanh (f : FmtT) (s : State) : Out := special1 s f tanh
/-- FDIV (R150): rounded by RM. -/
def execFdiv (f : FmtT) (s : State) : Out :=
  aluT2 s f 32 32 fun p a b => fin32 p (fdivEl (rd32 p a) (rd32 p b))

end Sys2Proof.Machine
end

