-- ==== Sys2Proof/Machine/Dispatch.lean ====
section
/-! DEFINITION. The dispatch of an instruction or an event to its meaning: one arm per constructor. -/

namespace Sys2Proof.Machine

def exec (i : Instr) (s : State) : Host.Outcome State Fault Refusal :=
  match i with
  | .nop sp => Sys2Proof.Machine.execNop sp s
  | .iadd f => Sys2Proof.Machine.execIadd f s
  | .isub f => Sys2Proof.Machine.execIsub f s
  | .iaddi f => Sys2Proof.Machine.execIaddi f s
  | .imul f => Sys2Proof.Machine.execImul f s
  | .imulh f => Sys2Proof.Machine.execImulh f s
  | .imad f => Sys2Proof.Machine.execImad f s
  | .imadw f => Sys2Proof.Machine.execImadw f s
  | .idiv f => Sys2Proof.Machine.execIdiv f s
  | .irem f => Sys2Proof.Machine.execIrem f s
  | .imin f => Sys2Proof.Machine.execImin f s
  | .imax f => Sys2Proof.Machine.execImax f s
  | .iabs f => Sys2Proof.Machine.execIabs f s
  | .ineg f => Sys2Proof.Machine.execIneg f s
  | .isad f => Sys2Proof.Machine.execIsad f s
  | .iadd3 f => Sys2Proof.Machine.execIadd3 f s
  | .lea f => Sys2Proof.Machine.execLea f s
  | .and f => Sys2Proof.Machine.execAnd f s
  | .or f => Sys2Proof.Machine.execOr f s
  | .xor f => Sys2Proof.Machine.execXor f s
  | .andn f => Sys2Proof.Machine.execAndn f s
  | .not f => Sys2Proof.Machine.execNot f s
  | .shl f => Sys2Proof.Machine.execShl f s
  | .shr f => Sys2Proof.Machine.execShr f s
  | .sar f => Sys2Proof.Machine.execSar f s
  | .rol f => Sys2Proof.Machine.execRol f s
  | .fshl f => Sys2Proof.Machine.execFshl f s
  | .fshr f => Sys2Proof.Machine.execFshr f s
  | .bfx f => Sys2Proof.Machine.execBfx f s
  | .bfi f => Sys2Proof.Machine.execBfi f s
  | .popc f => Sys2Proof.Machine.execPopc f s
  | .clz f => Sys2Proof.Machine.execClz f s
  | .ctz f => Sys2Proof.Machine.execCtz f s
  | .brev f => Sys2Proof.Machine.execBrev f s
  | .bytp f => Sys2Proof.Machine.execBytp f s
  | .icmp f => Sys2Proof.Machine.execIcmp f s
  | .isel f => Sys2Proof.Machine.execIsel f s
  | .iclamp f => Sys2Proof.Machine.execIclamp f s
  | .mov f => Sys2Proof.Machine.execMov f s
  | .movi f => Sys2Proof.Machine.execMovi f s
  | .movih f => Sys2Proof.Machine.execMovih f s
  | .movs m d sel => Sys2Proof.Machine.execMovs m d sel s
  | .movk sp nwb d ka => Sys2Proof.Machine.execMovk sp nwb d ka s
  | .kmov sp kd a => Sys2Proof.Machine.execKmov sp kd a s
  | .kop sp kd ka kb tt => Sys2Proof.Machine.execKop sp kd ka kb tt s
  | .kpopc sp nwb d ka => Sys2Proof.Machine.execKpopc sp nwb d ka s
  | .kfind sp nwb d hi ka => Sys2Proof.Machine.execKfind sp nwb d hi ka s
  | .cvt f => Sys2Proof.Machine.execCvt f s
  | .pack f => Sys2Proof.Machine.execPack f s
  | .spread f => Sys2Proof.Machine.execSpread f s
  | .fadd f => Sys2Proof.Machine.execFadd f s
  | .fsub f => Sys2Proof.Machine.execFsub f s
  | .fmul f => Sys2Proof.Machine.execFmul f s
  | .ffma f => Sys2Proof.Machine.execFfma f s
  | .fmin f => Sys2Proof.Machine.execFmin f s
  | .fmax f => Sys2Proof.Machine.execFmax f s
  | .fsgn f => Sys2Proof.Machine.execFsgn f s
  | .fcmp f => Sys2Proof.Machine.execFcmp f s
  | .fclass f => Sys2Proof.Machine.execFclass f s
  | .frnd f => Sys2Proof.Machine.execFrnd f s
  | .hadd2 f => Sys2Proof.Machine.execHadd2 f s
  | .hmul2 f => Sys2Proof.Machine.execHmul2 f s
  | .hfma2 f => Sys2Proof.Machine.execHfma2 f s
  | .hmin2 f => Sys2Proof.Machine.execHmin2 f s
  | .hmax2 f => Sys2Proof.Machine.execHmax2 f s
  | .dot4 f => Sys2Proof.Machine.execDot4 f s
  | .dot2 f => Sys2Proof.Machine.execDot2 f s
  | .idot4 f => Sys2Proof.Machine.execIdot4 f s
  | .rcp f => Sys2Proof.Machine.execRcp f s
  | .rsq f => Sys2Proof.Machine.execRsq f s
  | .sqrt f => Sys2Proof.Machine.execSqrt f s
  | .exp2 f => Sys2Proof.Machine.execExp2 f s
  | .log2 f => Sys2Proof.Machine.execLog2 f s
  | .sinr f => Sys2Proof.Machine.execSinr f s
  | .cosr f => Sys2Proof.Machine.execCosr f s
  | .tanh f => Sys2Proof.Machine.execTanh f s
  | .fdiv f => Sys2Proof.Machine.execFdiv f s
  | .xshf f => Sys2Proof.Machine.execXshf f s
  | .xrot f => Sys2Proof.Machine.execXrot f s
  | .xbfly f => Sys2Proof.Machine.execXbfly f s
  | .xbcst f => Sys2Proof.Machine.execXbcst f s
  | .xscan f => Sys2Proof.Machine.execXscan f s
  | .xred f => Sys2Proof.Machine.execXred f s
  | .xset sp xd mem sn => Sys2Proof.Machine.execXset sp xd mem sn s
  | .xperm f => Sys2Proof.Machine.execXperm f s
  | .xgen sp xd a => Sys2Proof.Machine.execXgen sp xd a s
  | .xmatch f => Sys2Proof.Machine.execXmatch f s
  | .vote f => Sys2Proof.Machine.execVote f s
  | .bra sp op ks tgt => Sys2Proof.Machine.execBra sp op ks tgt s
  | .braSplit sp ks tgt rcv => Sys2Proof.Machine.execBraSplit sp ks tgt rcv s
  | .switch sp n a dflt rcv => Sys2Proof.Machine.execSwitch sp n a dflt rcv s
  | .call sp tgt rcv => Sys2Proof.Machine.execCall sp tgt rcv s
  | .ret sp a => Sys2Proof.Machine.execRet sp a s
  | .jmpi sp a => Sys2Proof.Machine.execJmpi sp a s
  | .recon sp rcv => Sys2Proof.Machine.execRecon sp rcv s
  | .exit sp => Sys2Proof.Machine.execExit sp s
  | .yield sp cnt => Sys2Proof.Machine.execYield sp cnt s
  | .trap sp code => Sys2Proof.Machine.execTrap sp code s
  | .svc sp sd va no => Sys2Proof.Machine.execSvc sp sd va no s
  | .bkpt sp code => Sys2Proof.Machine.execBkpt sp code s
  | .sleep sp c => Sys2Proof.Machine.execSleep sp c s
  | .ld f => Sys2Proof.Machine.execLd f s
  | .ldsb f => Sys2Proof.Machine.execLdsb f s
  | .ldzb f => Sys2Proof.Machine.execLdzb f s
  | .ldsh f => Sys2Proof.Machine.execLdsh f s
  | .ldzh f => Sys2Proof.Machine.execLdzh f s
  | .st f => Sys2Proof.Machine.execSt f s
  | .stb f => Sys2Proof.Machine.execStb f s
  | .sth f => Sys2Proof.Machine.execSth f s
  | .ldl f => Sys2Proof.Machine.execLdl f s
  | .stl f => Sys2Proof.Machine.execStl f s
  | .ldc f => Sys2Proof.Machine.execLdc f s
  | .stc f => Sys2Proof.Machine.execStc f s
  | .atom f => Sys2Proof.Machine.execAtom f s
  | .atoml f => Sys2Proof.Machine.execAtoml f s
  | .cas f => Sys2Proof.Machine.execCas f s
  | .casl f => Sys2Proof.Machine.execCasl f s
  | .red f => Sys2Proof.Machine.execRed f s
  | .fence sp sem scope => Sys2Proof.Machine.execFence sp sem scope s
  | .cctl f => Sys2Proof.Machine.execCctl f s
  | .pref f => Sys2Proof.Machine.execPref f s
  | .fpush f => Sys2Proof.Machine.execFpush f s
  | .fpushOn f => Sys2Proof.Machine.execFpushOn f s
  | .fpop f => Sys2Proof.Machine.execFpop f s
  | .fpopOff f => Sys2Proof.Machine.execFpopOff f s
  | .fpopCount f => Sys2Proof.Machine.execFpopCount f s
  | .cpy f => Sys2Proof.Machine.execCpy f s
  | .cpyt sp bar be dc sn => Sys2Proof.Machine.execCpyt sp bar be dc sn s
  | .cpycl sp ds scope => Sys2Proof.Machine.execCpycl sp ds scope s
  | .waitb sp ds all sn => Sys2Proof.Machine.execWaitb sp ds all sn s
  | .lzopen f => Sys2Proof.Machine.execLzopen f s
  | .lzclose sp hp => Sys2Proof.Machine.execLzclose sp hp s
  | .lzrsv sp ds sb hp len => Sys2Proof.Machine.execLzrsv sp ds sb hp len s
  | .lzsend f => Sys2Proof.Machine.execLzsend f s
  | .lzfree sp hp slot => Sys2Proof.Machine.execLzfree sp hp slot s
  | .lzstat sp ds sb w hp slot => Sys2Proof.Machine.execLzstat sp ds sb w hp slot s
  | .lzcancel sp gs sb hp => Sys2Proof.Machine.execLzcancel sp gs sb hp s
  | .wput f => Sys2Proof.Machine.execWput f s
  | .wget f => Sys2Proof.Machine.execWget f s
  | .wred f => Sys2Proof.Machine.execWred f s
  | .wmcast f => Sys2Proof.Machine.execWmcast f s
  | .wcnt f => Sys2Proof.Machine.execWcnt f s
  | .depdec sp mode c cnt => Sys2Proof.Machine.execDepdec sp mode c cnt s
  | .task sp ds sb sn q => Sys2Proof.Machine.execTask sp ds sb sn q s
  | .bara f => Sys2Proof.Machine.execBara f s
  | .barw sp bar sc sn => Sys2Proof.Machine.execBarw sp bar sc sn s
  | .bars f => Sys2Proof.Machine.execBars f s
  | .barinit f => Sys2Proof.Machine.execBarinit f s
  | .barx sp bar sc cnt => Sys2Proof.Machine.execBarx sp bar sc cnt s
  | .barq sp bar sc ds => Sys2Proof.Machine.execBarq sp bar sc ds s
  | .gang sp sn => Sys2Proof.Machine.execGang sp sn s
  | .gangOff sp => Sys2Proof.Machine.execGangOff sp s
  | .mma f => Sys2Proof.Machine.execMma f s
  | .mmad f => Sys2Proof.Machine.execMmad f s
  | .mmup sp acc bbase => Sys2Proof.Machine.execMmup sp acc bbase s
  | .fbset sp fr sn => Sys2Proof.Machine.execFbset sp fr sn s
  | .adset sp sn => Sys2Proof.Machine.execAdset sp sn s
  | .accld f => Sys2Proof.Machine.execAccld f s
  | .accst f => Sys2Proof.Machine.execAccst f s
  | .accz sp acc => Sys2Proof.Machine.execAccz sp acc s
  | .accmov f => Sys2Proof.Machine.execAccmov f s
  | .accwait sp acc all sb => Sys2Proof.Machine.execAccwait sp acc all sb s
  | .adinv sp all id => Sys2Proof.Machine.execAdinv sp all id s
  | .accscl f => Sys2Proof.Machine.execAccscl f s
  | .rdsr sp d sr => Sys2Proof.Machine.execRdsr sp d sr s
  | .wrsr sp a sr => Sys2Proof.Machine.execWrsr sp a sr s
  | .cyc sp d => Sys2Proof.Machine.execCyc sp d s
  | .snap sp tag => Sys2Proof.Machine.execSnap sp tag s
  | .eret sp => Sys2Proof.Machine.execEret sp s
  | .tlbiPage sp isl sb sa => Sys2Proof.Machine.execTlbiPage sp isl sb sa s
  | .tlbiPart sp isl sb => Sys2Proof.Machine.execTlbiPart sp isl sb s
  | .reset v => Sys2Proof.Machine.execReset v s
  | .configRequest fn off => Sys2Proof.Machine.execConfigRequest fn off s
  | .umcmdCommit v => Sys2Proof.Machine.execUmcmdCommit v s
  | .registerWrite off wide v => Sys2Proof.Machine.execRegisterWrite off wide v s
  | .bar0UnsupportedAccess bar off size write => Sys2Proof.Machine.execBar0UnsupportedAccess bar off size write s
  | .doorbell q t => Sys2Proof.Machine.execDoorbell q t s
  | .replayDoorbell v => Sys2Proof.Machine.execReplayDoorbell v s
  | .cancelDoorbell v => Sys2Proof.Machine.execCancelDoorbell v s
  | .resumeDoorbell v => Sys2Proof.Machine.execResumeDoorbell v s
  | .migrationForwardExpiry die idx => Sys2Proof.Machine.execMigrationForwardExpiry die idx s
  | .depctrHostWrite c v => Sys2Proof.Machine.execDepctrHostWrite c v s
  | .alertClear die v => Sys2Proof.Machine.execAlertClear die v s
  | .sntrig v => Sys2Proof.Machine.execSntrig v s
  | .atsInvalidation pasid addr len => Sys2Proof.Machine.execAtsInvalidation pasid addr len s
  | .getCapabilities ver => Sys2Proof.Machine.execGetCapabilities ver s
  | .negotiateAlgorithms algs => Sys2Proof.Machine.execNegotiateAlgorithms algs s
  | .getCertificate slot off len => Sys2Proof.Machine.execGetCertificate slot off len s
  | .challenge slot nonce => Sys2Proof.Machine.execChallenge slot nonce s
  | .getMeasurements index nonce => Sys2Proof.Machine.execGetMeasurements index nonce s
  | .temperatureSample core t => Sys2Proof.Machine.execTemperatureSample core t s
  | .hbmTemperatureSample stack sensor t => Sys2Proof.Machine.execHbmTemperatureSample stack sensor t s
  | .processMonitorSample die mon v => Sys2Proof.Machine.execProcessMonitorSample die mon v s
  | .powerTick watts => Sys2Proof.Machine.execPowerTick watts s
  | .patrolScrub die line => Sys2Proof.Machine.execPatrolScrub die line s
  | .sleepExpiry group entry => Sys2Proof.Machine.execSleepExpiry group entry s
  | .yieldExpiry group entry => Sys2Proof.Machine.execYieldExpiry group entry s
  | .forwardingExpiry core idx => Sys2Proof.Machine.execForwardingExpiry core idx s
  | .memoryAccessPerform group rec lane => Sys2Proof.Machine.execMemoryAccessPerform group rec lane s
  | .writeThroughDrain core idx => Sys2Proof.Machine.execWriteThroughDrain core idx s
  | .walkComplete die idx => Sys2Proof.Machine.execWalkComplete die idx s
  | .atsResponse idx a => Sys2Proof.Machine.execAtsResponse idx a s
  | .fifoRecordPerform core bank => Sys2Proof.Machine.execFifoRecordPerform core bank s
  | .extentGrant g => Sys2Proof.Machine.execExtentGrant g s
  | .copyOperationPerform core idx => Sys2Proof.Machine.execCopyOperationPerform core idx s
  | .lzCloseExpiry core slot => Sys2Proof.Machine.execLzCloseExpiry core slot s
  | .frameReceive port f => Sys2Proof.Machine.execFrameReceive port f s
  | .frameAcknowledgement port seq => Sys2Proof.Machine.execFrameAcknowledgement port seq s
  | .retryRequest port seq => Sys2Proof.Machine.execRetryRequest port seq s
  | .keyExchange port k => Sys2Proof.Machine.execKeyExchange port k s
  | .rekey port k at_ => Sys2Proof.Machine.execRekey port k at_ s
  | .assignment port a => Sys2Proof.Machine.execAssignment port a s
  | .transientReissue die line => Sys2Proof.Machine.execTransientReissue die line s
  | .transientAbandon die line => Sys2Proof.Machine.execTransientAbandon die line s
  | .recountOpen die line => Sys2Proof.Machine.execRecountOpen die line s
  | .recallResend die line => Sys2Proof.Machine.execRecallResend die line s
  | .recallFilterExpiry die idx => Sys2Proof.Machine.execRecallFilterExpiry die idx s
  | .adapterSliceArrival core idx => Sys2Proof.Machine.execAdapterSliceArrival core idx s
  | .powerOnReset => Sys2Proof.Machine.execPowerOnReset s
  | .conventionalReset => Sys2Proof.Machine.execConventionalReset s
  | .bootStep => Sys2Proof.Machine.execBootStep s
  | .abort => Sys2Proof.Machine.execAbort s
  | .releasePartition => Sys2Proof.Machine.execReleasePartition s
  | .preEmpt => Sys2Proof.Machine.execPreEmpt s
  | .migrate => Sys2Proof.Machine.execMigrate s
  | .resume => Sys2Proof.Machine.execResume s
  | .pageMigration => Sys2Proof.Machine.execPageMigration s
  | .repartition => Sys2Proof.Machine.execRepartition s
  | .windowInvalidate => Sys2Proof.Machine.execWindowInvalidate s
  | .getVersion => Sys2Proof.Machine.execGetVersion s
  | .getDigests => Sys2Proof.Machine.execGetDigests s
  | .droopEvent => Sys2Proof.Machine.execDroopEvent s
  | .avoidedExpiry => Sys2Proof.Machine.execAvoidedExpiry s
  | .dispatchTake => Sys2Proof.Machine.execDispatchTake s
  | .collectiveSelect => Sys2Proof.Machine.execCollectiveSelect s
  | .placeCluster => Sys2Proof.Machine.execPlaceCluster s
  | .drainingMark => Sys2Proof.Machine.execDrainingMark s
  | .carveOutApply => Sys2Proof.Machine.execCarveOutApply s
  | .clauseChoice => Sys2Proof.Machine.execClauseChoice s
  | .clauseFetch => Sys2Proof.Machine.execClauseFetch s
  | .faultRecordWrite => Sys2Proof.Machine.execFaultRecordWrite s
  | .preemptForce => Sys2Proof.Machine.execPreemptForce s
  | .groupSave => Sys2Proof.Machine.execGroupSave s
  | .groupRestore => Sys2Proof.Machine.execGroupRestore s
  | .teamMigration => Sys2Proof.Machine.execTeamMigration s
  | .teamEnd => Sys2Proof.Machine.execTeamEnd s
  | .gridEnd => Sys2Proof.Machine.execGridEnd s
  | .serviceRequestWrite => Sys2Proof.Machine.execServiceRequestWrite s
  | .flushReadCompletion => Sys2Proof.Machine.execFlushReadCompletion s
  | .revokeNotice => Sys2Proof.Machine.execRevokeNotice s
  | .revokedConfirmation => Sys2Proof.Machine.execRevokedConfirmation s
  | .coalesce => Sys2Proof.Machine.execCoalesce s
  | .lzrsvRequest => Sys2Proof.Machine.execLzrsvRequest s
  | .lzrsvReply => Sys2Proof.Machine.execLzrsvReply s
  | .lzPacketArrival => Sys2Proof.Machine.execLzPacketArrival s
  | .lzAcknowledgement => Sys2Proof.Machine.execLzAcknowledgement s
  | .lzAbort => Sys2Proof.Machine.execLzAbort s
  | .lzAbortRetry => Sys2Proof.Machine.execLzAbortRetry s
  | .lzCancelArrival => Sys2Proof.Machine.execLzCancelArrival s
  | .lzCancelAck => Sys2Proof.Machine.execLzCancelAck s
  | .requestTimeout => Sys2Proof.Machine.execRequestTimeout s
  | .windowPacketIngress => Sys2Proof.Machine.execWindowPacketIngress s
  | .windowAcknowledgement => Sys2Proof.Machine.execWindowAcknowledgement s
  | .multicastAck => Sys2Proof.Machine.execMulticastAck s
  | .messageAgeExpiry => Sys2Proof.Machine.execMessageAgeExpiry s
  | .egressWaitRelease => Sys2Proof.Machine.execEgressWaitRelease s
  | .linkAckTimeout => Sys2Proof.Machine.execLinkAckTimeout s
  | .portRestart => Sys2Proof.Machine.execPortRestart s
  | .lanesTrained => Sys2Proof.Machine.execLanesTrained s
  | .portTimeout => Sys2Proof.Machine.execPortTimeout s
  | .dieLinkFailure => Sys2Proof.Machine.execDieLinkFailure s
  | .gets => Sys2Proof.Machine.execGets s
  | .getx => Sys2Proof.Machine.execGetx s
  | .tok => Sys2Proof.Machine.execTok s
  | .putt => Sys2Proof.Machine.execPutt s
  | .preq => Sys2Proof.Machine.execPreq s
  | .pact => Sys2Proof.Machine.execPact s
  | .pdone => Sys2Proof.Machine.execPdone s
  | .pdeact => Sys2Proof.Machine.execPdeact s
  | .persistentTimeout => Sys2Proof.Machine.execPersistentTimeout s
  | .loss => Sys2Proof.Machine.execLoss s
  | .recall => Sys2Proof.Machine.execRecall s
  | .rack => Sys2Proof.Machine.execRack s
  | .down => Sys2Proof.Machine.execDown s
  | .up => Sys2Proof.Machine.execUp s
  | .upHoldoffExpiry => Sys2Proof.Machine.execUpHoldoffExpiry s
  | .rendezvousIssue => Sys2Proof.Machine.execRendezvousIssue s
  | .matrixRecordHead => Sys2Proof.Machine.execMatrixRecordHead s
  | .matrixChunk => Sys2Proof.Machine.execMatrixChunk s
  | .barrierArrivalMessage => Sys2Proof.Machine.execBarrierArrivalMessage s
  | .tlbiCompletion => Sys2Proof.Machine.execTlbiCompletion s
  | .dieRejoin => Sys2Proof.Machine.execDieRejoin s

end Sys2Proof.Machine
end

