-- ==== Sys2Proof/Machine/Holds.lean ====
section
/-! DEFINITION. The steps for which a track holds a read until a result can be read (R28, log 60). -/

namespace Sys2Proof.Machine

/-- What one step of an instruction reads and writes, registers and single lanes of k registers by one number each, and
after how many steps its results can be read. -/
structure Access where
  reads : List Nat
  writes : List Nat
  lat : Nat
  deriving DecidableEq, Repr
/-- The number of a word, of a lane's bit of a k register, of an xc and of an f register. -/
def wordKey (x : Bank × Nat) : Nat :=
  x.2 + 2 ^ 16 * (match x.1 with
    | .v => 0
    | .s => 1
    | .l => 2)
def kKey (k i : Nat) : Nat := 3 * 2 ^ 16 + vkey k i
def xcKey {n : Nat} (x : BitVec n) : Nat := 4 * 2 ^ 16 + x.toNat
def fKey (n : BitVec 2) : Nat := 5 * 2 ^ 16 + n.toNat
def sKeys (l : List Nat) : List Nat := l.map fun n => wordKey (.s, n)
def readKeys (l : List Src) (i : Nat) : List Nat := l.flatMap fun x => (srcWords x i).map wordKey
def dstKeys (d : Dst) (i : Nat) : List Nat := (dstWords d i).map wordKey
def writeKeys (m : Mods) (d : Dst) (i : Nat) : List Nat :=
  (if m.nwb then [] else dstKeys d i) ++ (if m.lc then [wordKey (.l, vkey m.ln.toNat i)] else [])

/-- The long-latency instructions (R28). -/
def longLatency (i : Instr) : Bool :=
  i matches .idiv _ | .irem _ | .fdiv _ | .sqrt _ | .rcp _ | .rsq _ | .exp2 _ | .log2 _ | .sinr _ | .cosr _ | .tanh _ |
    .xgen ..
/-- The steps after which a result can be read: one for a mask instruction (R134), else four or twelve (R28). -/
def latency (i : Instr) : Nat :=
  if longLatency i then 12 else if i matches .kmov .. | .kop .. then 1 else 4
/-- The operands that an instruction of format T reads; a field that it does not use is not read (R61). -/
def readsT (i : Instr) (f : FmtT) : List Src :=
  match i with
  | .iabs _ | .ineg _ | .not _ | .popc _ | .clz _ | .ctz _ | .brev _ | .mov _ | .fclass _ | .frnd _ | .rcp _ | .rsq _
  | .sqrt _ | .exp2 _ | .log2 _ | .sinr _ | .cosr _ | .tanh _ | .xscan _ | .xred _ | .vote _ | .xmatch _ => [f.a]
  | .fsgn _ => if f.fn.toNat ≤ 2 then [f.a, f.b] else [f.a]
  | .imad _ | .imadw _ | .isad _ | .iadd3 _ | .fshl _ | .fshr _ | .bfi _ | .bytp _ | .iclamp _ | .ffma _ | .hfma2 _
  | .dot4 _ | .dot2 _ | .idot4 _ | .xshf _ | .xrot _ | .xbfly _ | .xbcst _ => [f.a, f.b, f.c]
  | .xperm _ => [f.a, f.c]
  | _ => [f.a, f.b]
/-- Instructions whose active set is k0, under any prefix (R26, R134): a uniform one, a mask instruction, NOP and a
transfer of the whole fragment have none. -/
def perLaneInstr (i : Instr) : Bool :=
  match fmtT i with
  | some f => !f.m.uni
  | none => match i with
    | .iaddi f => !f.m.uni
    | .cvt f => !f.m.uni
    | .movi f | .movih f => !f.m.uni
    | .movs m _ _ => !m.uni
    | .icmp _ | .fcmp _ | .xgen .. | .braSplit .. | .switch .. | .svc .. | .mma _ | .mmad _ | .mmup .. | .accmov _
    | .wred _ => true
    | .ret _ a | .jmpi _ a => a.kind != .s
    | .ld f | .ldsb f | .ldzb f | .ldsh f | .ldzh f | .ldl f | .ldc f | .st f | .stb f | .sth f | .stl f | .stc f =>
      !f.m.uni
    | .atom f | .atoml f | .cas f | .casl f | .red f => !f.m.uni
    | .cctl f => !f.m.uni
    | .pref f => !f.m.uni
    | .fpush f | .fpushOn f | .fpop f | .fpopOff f | .fpopCount f => !f.m.uni
    | .cpy f | .wput f | .wget f => !f.m.uni
    | _ => false

/-- The lanes of k registers that an instruction reads whole (R37). -/
def Ctx.kAll {n : Nat} (c : Ctx) (k : BitVec n) : List Nat := (lanesOf c.frag.mask).map (kKey k.toNat)
/-- The lanes that MZ sets to zero (R68). -/
def Ctx.zeroed (c : Ctx) : Mask :=
  match c.run.pfx with
  | some p => if p.mz then c.k0 &&& ~~~(c.k p.gm.toNat) else 0
  | none => 0
/-- What the choice of the active set reads: k0, and a prefix's governing mask (R134). -/
def Ctx.governing (c : Ctx) : List Nat :=
  c.kAll (0#3) ++ match c.run.pfx with
    | some p => c.kAll p.gm
    | none => []
/-- The steps of a pass over lanes, which are at least four (R26). -/
def padded (l : List Access) : List Access := l ++ List.replicate (4 - l.length) ⟨[], [], 4⟩
/-- Something written at the last step of a pass. -/
def writtenLast (l : List Access) (w : List Nat) (lat : Nat) : List Access :=
  match l.reverse with
  | a :: rest => (⟨a.reads, a.writes ++ w, lat⟩ :: rest).reverse
  | [] => []
/-- One step for each lane, or one for the fragment (R26). -/
def laneAccs (c : Ctx) (uni : Bool) (lat : Nat) (rd wr : Nat → List Nat) : List Access :=
  if uni then [⟨rd 0, wr 0, lat⟩] else
    ((lanesOf (c.act ||| c.zeroed)).filter fun i => decide (c.run.cursor.getD 0 ≤ i)).map fun i =>
      ⟨if c.zeroed.getLsbD i then [] else rd i, wr i, lat⟩
/-- An exchange reads in its source pass and writes in its write pass; with an s destination it makes the source pass
only, and writes at its last step (R151). -/
def exchAccs (c : Ctx) (m : Mods) (d : Dst) (rd wr : Nat → List Nat) : List Access :=
  let source := padded (c.lanes.map fun i => ⟨rd i, [], 4⟩)
  if c.lanes.isEmpty then []
  else if d.isS then writtenLast source (writeKeys m d 0) 4
  else source ++ c.lanes.map fun i => ⟨[], wr i, 4⟩
def exchange (i : Instr) : Bool :=
  i matches .xshf _ | .xrot _ | .xbfly _ | .xbcst _ | .xscan _ | .xred _ | .xperm _ | .xmatch _ | .vote _
/-- The steps of an instruction of format T. -/
def accessesT (c : Ctx) (i : Instr) (f : FmtT) : List Access :=
  let rd (j : Nat) : List Nat := readKeys (readsT i f) j ++
    (if i matches .isel _ then [kKey f.fn.toNat j] else []) ++ if i matches .xperm _ then [xcKey f.fn] else []
  let wr (j : Nat) : List Nat := writeKeys f.m f.d j ++
    if (i matches .xmatch _) && f.fn.getLsbD 1 then [kKey (f.b.num.toNat % 8) j] else []
  if exchange i then exchAccs c f.m f.d rd wr else laneAccs c f.m.uni (latency i) rd wr
/-- What each step of an instruction reads, and what results it produces for its track; what the memory, copy and matrix
engines return is tracked otherwise (R29). -/
def accesses (c : Ctx) (i : Instr) : List Access :=
  let lat := latency i
  let one (rd wr : List Nat) : List Access := [⟨rd, wr, lat⟩]
  let lanes (uni : Bool) (rd wr : Nat → List Nat) : List Access := laneAccs c uni lat rd wr
  let addr (uni : Bool) (l : List Src) : List Access := lanes uni (readKeys l) fun _ => []
  let matrix (regs : List Nat) (rd : Nat → List Nat) : List Access :=
    lanes false (fun j => (if j = c.lanes.headD 0 then regs else []) ++ rd j) fun _ => []
  match fmtT i with
  | some f => accessesT c i f
  | none => match i with
    | .iaddi f => lanes f.m.uni (readKeys [f.a]) (writeKeys f.m f.d)
    | .cvt f => lanes f.m.uni (readKeys [f.a]) (writeKeys f.m f.d)
    | .movi f => lanes f.m.uni (fun _ => []) (writeKeys f.m f.d)
    | .movih f => lanes f.m.uni (fun _ => []) (writeKeys f.m ⟨f.d.isS, .single, f.d.num + 1⟩)
    | .movs m d _ => lanes m.uni (fun _ => []) (writeKeys m d)
    | .icmp f | .fcmp f => lanes false (fun j => readKeys [f.a, f.b] j ++
        if f.jop = .none then [] else [kKey f.kj.toNat j]) fun j => [kKey f.kd.toNat j]
    | .movk _ _ d ka | .kpopc _ _ d ka | .kfind _ _ d _ ka => one (c.kAll ka) (dstKeys d 0)
    | .kmov _ kd (.k ka) => one (c.kAll ka) (c.kAll kd)
    | .kmov _ kd (.s n) => one (sKeys [n.toNat]) (c.kAll kd)
    | .kmov _ kd (.imm _) => one [] (c.kAll kd)
    | .kop _ kd ka kb _ => one (c.kAll ka ++ c.kAll kb) (c.kAll kd)
    | .xgen _ xd a =>
      writtenLast (padded (lanes false (fun j => [wordKey (.v, vkey a.toNat j)]) fun _ => []))
        (if c.lanes.isEmpty then [] else [xcKey xd]) lat
    | .xset _ xd mem sn => one (sKeys (n1 sn (if mem then 1 else 5))) [xcKey xd]
    | .rdsr _ d _ | .cyc _ d => one [] (dstKeys d 0)
    | .barq _ _ _ ds => one [] (sKeys (n1 ds 2))
    | .bra _ op ks _ => one (if op = .always then [] else c.kAll ks ++ c.kAll (0#3)) []
    | .braSplit _ ks _ _ => one (c.kAll ks) []
    | .switch _ _ a _ _ | .ret _ a | .jmpi _ a => addr (a.kind == .s) [a]
    | .svc _ _ va _ => lanes false (fun j => (List.range 16).map fun n => wordKey (.v, vkey (va.toNat + n) j)) fun _ => []
    | .ld f | .ldsb f | .ldzb f | .ldsh f | .ldzh f | .ldl f | .ldc f => addr f.m.uni [f.base]
    | .st f | .stb f | .sth f | .stl f | .stc f =>
      lanes f.m.uni (fun j => readKeys [f.base] j ++ dstKeys f.d j) fun _ => []
    | .atom f | .atoml f | .cas f | .casl f | .red f => addr f.m.uni [f.base, f.b]
    | .cctl f => addr f.m.uni [f.base]
    | .pref f => addr f.m.uni [f.base]
    | .fpush f => lanes f.m.uni (fun j => readKeys [f.base] j ++ dstKeys f.d j) fun _ => []
    | .fpushOn f | .fpop f | .fpopOff f | .fpopCount f => addr f.m.uni [f.base]
    | .cpy f | .wput f | .wget f => addr f.m.uni [f.daddr, f.saddr]
    | .wred f => addr false [f.daddr, f.saddr]
    | .mma f => matrix (sKeys (xS f) ++ [fKey f.fba, fKey f.fbb]) fun j => [wordKey (.v, vkey f.idx.toNat j)]
    | .mmad f => matrix (sKeys (xS f) ++ [fKey f.fba, fKey f.fbb]) fun j =>
        [wordKey (.v, vkey f.idx.toNat j), wordKey (.v, vkey f.adp.toNat j)]
    | .mmup _ _ b => matrix (sKeys (regsFrom (2 * b.toNat) 2)) fun _ => []
    | .accmov f => matrix [] fun j => if f.dir then
        (List.range (Width.count f.w)).map fun n => wordKey (.v, vkey (f.vn.toNat + n) j) else []
    | .fbset _ fr sn => one (sKeys (n1 sn 8)) [fKey fr]
    | _ => one (sKeys (sOther i)) []
/-- The steps of an instruction with the read of its active set, at the first step and also where no lane is active
(R134). -/
def stepAccs (c : Ctx) (i : Instr) : List Access :=
  let gov := if perLaneInstr i then c.governing else []
  match accesses c i with
  | a :: l => { a with reads := gov ++ a.reads } :: l
  | [] => [⟨gov, [], 4⟩]
/-- Charges the steps of an instruction from step t: where it ends, and what is ready when. -/
def chargeAccs : List Access → Nat → List (Nat × Nat) → Nat × List (Nat × Nat)
  | [], t, rd => (t, rd)
  | a :: l, t, rd =>
    let due := (rd.filter fun x => a.reads.contains x.1).foldl (fun m x => max m x.2) t
    chargeAccs l (due + 1) (a.writes.map (fun k => (k, due + a.lat)) ++ rd.filter fun x => !a.writes.contains x.1)
/-- The empty steps that an instruction is held for are charged, and its results noted (R28); one that a cursor of 32
gives as done reads nothing (R323). -/
def State.holdReads (s : State) (i : Instr) : State :=
  match s.ctx with
  | none => s
  | some c =>
    if c.run.cursor = some 32 then s else
    let accs := stepAccs c i
    let mine := (c.trk.ready.filter fun x => x.1 == c.g).map (·.2)
    let (t, rd) := chargeAccs accs c.trk.steps mine
    let steps := t - accs.length
    let rest := c.trk.ready.filter fun x => x.1 != c.g
    s.setTrack c.t { c.trk with
      steps := steps
      ready := (rest ++ rd.map fun x => (c.g, x)).filter fun x => decide (steps < x.2.2) }

end Sys2Proof.Machine
end

