-- ==== Sys2Proof/Machine/Run.lean ====
section
/-! DEFINITION. What a step does around `exec`: the next word of a running clause, the passing of time,
and what the environment does to the machine (log 3). -/

namespace Sys2Proof.Machine

/-! ## The next word of a running clause -/

/-- What a track does next. -/
inductive Next
  | idle
  | hold
  | finish
  | bad (kind : Nat)
  | instr (i : Instr) (pfx : Option Pfx) (pos : Nat)
  deriving DecidableEq, Repr
/-- Word n of the running clause, with its kind; words are numbered from 1. -/
def Run.word (r : Run) (n : Nat) : Option (DWord × WordKind) :=
  match r.words[n - 1]?, (wordKinds r.words .instr)[n - 1]? with
  | some w, some k => some (w, k)
  | _, _ => none
/-- An instruction word as it is executed: decoded, or the fault kind of R73. -/
def nextInstr (w : DWord) (pfx : Option Pfx) (pos : Nat) (pend : List Nat) : Next :=
  match decode w with
  | .ok i => if (sRegs i).any pend.contains then .hold else .instr i pfx pos
  | .error .unassigned => .bad 0x02
  | .error _ => .bad 0x03
/-- What the track does next: an instruction, with the prefix before it (R67, R68); empty steps while
an s register that it names is still to be written (R358); the end of the clause, where no instruction
word is left (R323). -/
def State.nextOn (s : State) (t : Nat) : Next :=
  match (s.track t).run with
  | none => .idle
  | some r =>
    if !r.fetched then .idle
    else match r.word r.pos with
      | some (w, .instr) =>
        if opOf w = 2 then
          match decodePfx w, r.word (r.pos + 1) with
          | .ok p, some (v, _) => nextInstr v (some p) (r.pos + 1) (s.dsPending r.group)
          | _, _ => .bad 0x03
        else nextInstr w none r.pos (s.dsPending r.group)
      | _ => .finish
/-- The track about to execute an instruction at `pos`, under a prefix, after the steps for which it is held (R28). -/
def State.aim (s : State) (t : Nat) (i : Instr) (pfx : Option Pfx) (pos : Nat) : State :=
  let k : Track := { s.track t with run := (s.track t).run.map fun r => { r with pfx := pfx, pos := pos } }
  State.holdReads { s.setTrack t k with focus := some t } i
/-- An empty step (R28, R358). -/
def State.emptyStep (s : State) (t : Nat) : State := s.updTrack t fun k => { k with steps := k.steps + 1 }
/-- A clause resumed at a word after which no instruction stands ends there (R323). -/
def State.finishClause (s : State) (t : Nat) : State :=
  match ({ s with focus := some t } : State).ctx with
  | some c => s.transfer c c.grp false c.nextHdr 0
  | none => s
/-- A word that validation would have refused (R73). -/
def State.badWord (s : State) (t kind : Nat) : State :=
  match ({ s with focus := some t } : State).ctx with
  | some c => s.precise c kind 0 none 0 0
  | none => s

/-! ## Time (R26, R425) -/

/-- The clocks of a die in n ticks. -/
def State.clocks (s : State) (d n : Nat) : Nat := n * (s.die d).freq / 100
/-- n ticks of 10 ns pass: every core's cycle counter counts its die's clocks (R325, R425), and a track that serves
some group but executes no clause makes empty steps (R176, log 13); the ports send their frames (log 49). -/
def State.elapse (s : State) (n : Nat) : State :=
  let idle (e : Nat × Track) : Nat × Track :=
    if e.2.run.isNone && !e.2.slots.isEmpty then
      (e.1, { e.2 with steps := e.2.steps + s.clocks (dieOf (coreOf e.1)) n })
    else e
  let s1 : State := { s with now := s.now + n, tracks := s.tracks.map idle }
  (s1.liveCores.foldl (fun s c => s.updCore c fun k =>
    { k with cycle := k.cycle + BitVec.ofNat 64 (s.clocks (dieOf c) n) }) s1).sendFrames n

/-! ## What a particle changes (R119, R122) -/

/-- A stored word after an upset: a second flipped bit makes a single error double. -/
def RegWord.hit (w : RegWord) (e : Ecc) : RegWord :=
  match w.ecc with
  | .clean => ⟨w.val, e⟩
  | .single => ⟨w.val, if e = .clean then .single else .double⟩
  | x => ⟨w.val, x⟩
def State.upset (s : State) (u : Upset) : State :=
  let hit (k : Nat) (e : Ecc) (m : SMap RegWord) : SMap RegWord :=
    put RegWord.zero k ((look RegWord.zero k m).hit e) m
  let tile (c t : Nat) (f : Tile → Tile) : State :=
    s.updCore c fun k => { k with tiles := upd t f k.tiles }
  match u with
  | .v g k e => s.updGroup g fun x => { x with v := hit k e x.v }
  | .s g k e => s.updGroup g fun x => { x with s := hit k e x.s }
  | .latch t k => s.updTrack t fun x => { x with latches := hit k .poisoned x.latches }
  | .tile c t k e => tile c t fun x => { x with elems := hit k e x.elems }
  | .rank c t k e => tile c t fun x => { x with rank := hit k e x.rank }
  | .parity g => s.updGroup g fun x => { x with parity := true }
  | .die d =>
    let all := (List.range (8 * s.enum.islsize)).filter fun i => i != s.islDie d
    let s1 := State.updDie { s with
      lines := s.lines.filter fun e => e.1 / 2 ^ 45 != d
      ptab := s.ptab.filter fun e => e.1 / 2048 != d
      filters := s.filters.filter fun f => f.die != d } d fun x => { x with failed := true }
    match (List.range 8).find? fun i => !(s1.die i).failed with
    | some i => s1.postAll i all (.down (s.islDie d))
    | none => s1
  | .hbm line n =>
    if s.tokenLine line && ((s.lineHome line).bind s.ownDie).isSome then
      s.setSide line { s.sideOf line with symErr := min 2 ((s.sideOf line).symErr + n) }
    else s

/-! ## Writes from outside -/

/-- The host writes at a physical address (R419): its own memory, or, once the device is ready, island HBM through the
port (R442). -/
def State.hostWrites (s : State) (a : Nat) (bs : List Byte) : State :=
  if a / 2 ^ 48 = 1 then s.physWrite a bs
  else if a / 2 ^ 48 = 0 ∧ s.boot.ready ∧ s.regionOk a ∧ s.regionOk (a + bs.length - 1) then s.physWrite a bs
  else s
/-- The pool nodes have acknowledged every store they have been sent (R272). -/
def State.nodeAck (s : State) : State := { s with nodePosted := [] }
/-- Pool memory changes at its node. -/
def State.poolWrites (s : State) (a : Nat) (bs : List Byte) : State :=
  { s with poolMem := wrBytes s.poolMem a bs }

end Sys2Proof.Machine
end

