-- ==== Sys2Proof/Machine/Step.lean ====
section
/-! DEFINITION. The step: one move of the schedule (log 3). -/

namespace Sys2Proof.Machine

/-- One step of a track that is executing a clause. -/
def runTrack (t : Nat) (s : State) : Host.Outcome State Fault Refusal :=
  match s.nextOn t with
  | .idle => .refused (.notEnabled "track: no clause is executing")
  | .hold => .next (s.emptyStep t)
  | .finish => .next (s.finishClause t)
  | .bad k => .next (s.badWord t k)
  | .instr i p pos => exec i (s.aim t i p pos)
/-- One move. -/
def move (m : Move) (s : State) : Host.Outcome State Fault Refusal :=
  match m with
  | .event i n =>
    if (encode i).isNone then exec i { s with pick := n }
    else .refused (.notEnabled "an instruction executes only on a track")
  | .run t => runTrack t s
  | .elapse n => .next (s.elapse n)
  | .hostWrite a bs => .next (s.hostWrites a bs)
  | .poolWrite a bs => .next (s.poolWrites a bs)
  | .poolAck => .next s.nodeAck
  | .barRead b o n => s.barRead b o n
  | .configWrite f o w => s.configWrite f o w
  | .msixWrite f i w => s.msixWrite f i w
  | .msixRead f i => s.msixRead f i
  | .upset u => .next (s.upset u)
  | .firmwareGrid r => s.firmwareGrid r
/-- The step: the first move of the agenda; one tick of time when the agenda is empty. -/
def step (s : State) : Host.Outcome State Fault Refusal :=
  match s.agenda with
  | [] => .next (s.elapse 1)
  | m :: rest => move m { s with agenda := rest }

/-! ## An instruction as the next one (log 11) -/

/-- The launch record of a grid of one team of one full group, which declares all it can: 256 v
registers, 8 tiles, 128 barriers. -/
def oneGroupRecord : BitVec 512 :=
  BitVec.ofNat 512 (1 * 2 ^ 256 + 1 * 2 ^ 272 + 1 * 2 ^ 288 + 32 * 2 ^ 304 +
    (1 + 1 * 2 ^ 3 + 31 * 2 ^ 6 + 8 * 2 ^ 11 + 128 * 2 ^ 15) * 2 ^ 320)
/-- Its grid, team and group, as admission and launch leave them (R164, R353). -/
def oneGrid : Grid :=
  { lrec := oneGroupRecord, queue := 0, ring := 0, order := 0, st := .running, reject := 0, next := 1,
    waitSince := 0, firmware := false, skip := false, collWant := false, coll := [],
    ended := false }
def oneTeam : Team :=
  { grid := 0, cluster := 0, member := 0, x := 0, y := 0, z := 0, core := 0, base := 0, size := 0,
    groups := [0],
    bars := (List.range 128).map fun i => (i, ⟨1, 0, 0, 0, .arr, false, false, false, false, false, false⟩),
    binding := ⟨0, 0, 0, 0⟩, phase := .running, migrate := none }
def oneGroup : Group :=
  { team := 0, grid := 0, idx := 0, nlanes := 32, track := 0, v := [], s := [],
    k := [(0, BitVec.allOnes 32)], xc := [], f := [], amap := [], gang := 0, cursor := 0, fltstat := 0,
    trapvec := 0, trapinfo := [],
    split := [(0, newFrag 0 (BitVec.allOnes 32) (BitVec.allOnes 57) 0 none)],
    sb := [], batch := 0, batches := [], closed := 0, scopes := [], memq := [], matq := [], pendFaults := [],
    parity := false, resid := .bound, reason := 0, live := 0, since := 0, preempt := false, svc := none,
    kept := [], slotMat := [], mig := false, stopped := false }
/-- A clause of 16 words in execution: the instruction word and 15 words of zero, for its case words
and its live-mask word. -/
def oneRun (w : DWord) : Run :=
  { group := 0, entry := 0, hdr := 0, header := 0xAFF8000000000000#64,
    words := w :: List.replicate 15 0, pos := 1, pfx := none, cursor := none, redo := false,
    fetched := true, claim := 1, walked := [], errs := [] }
/-- The state with an instruction word as the next word of a running clause, on track 0. -/
def State.withFetchWord (s : State) (_nbits w : Nat) : State :=
  { s with
    agenda := .run 0 :: s.agenda
    grids := ins 0 oneGrid s.grids
    teams := ins 0 oneTeam s.teams
    groups := ins 0 oneGroup s.groups
    tracks := ins 0 { s.track 0 with
      slots := [(0, 0)], run := some (oneRun (BitVec.ofNat 64 w)) } s.tracks }

end Sys2Proof.Machine
end

