-- ==== Sys2Proof/WellFormed.lean ====
section
/-! DEFINITION. Which instructions the fields admit (R58 to R64 and the instructions' own field rules),
for a kernel's declarations. -/

namespace Sys2Proof

/-- An instruction (not an event) whose fields break no rule of the spec for a launch that declares `k`. -/
def wellFormed (k : Decl) (i : Instr) : Bool := (encode i).isSome && fieldsOk k i

end Sys2Proof
end

