-- ==== Sys2Proof/Safety.lean ====
section
/-! DEFINITION. What every state of a run keeps, and the terms in which claims are stated: what an
instruction finds, what it reads, what it leaves unchanged. -/

namespace Sys2Proof.Machine

/-- The memories are in canonical form. -/
def State.memOk (s : State) : Bool := Memory.wf s.mem && Memory.wf s.hostMem && Memory.wf s.poolMem

/-! ## Registers -/

/-- The registers that an instruction finds. -/
def Ctx.regs (c : Ctx) : RegFile := RegFile.of c.grp c.trk
/-- The registers of a group, and the latches of a track, in a state. -/
def State.regsOf (s : State) (g t : Nat) : RegFile :=
  match s.group g with
  | some x => RegFile.of x (s.track t)
  | none => ⟨[], [], (s.track t).latches, 0, 0⟩
/-- No word of a list is uncorrectable: a read of it gives its value (R119). -/
abbrev Readable (r : RegFile) (ws : List (Bank × Nat)) : Prop :=
  ∀ p ∈ ws, (r.get p.1 p.2).ecc = .clean ∨ (r.get p.1 p.2).ecc = .single
/-- The lanes in which a prefix with MZ writes zeros (R68). -/
def Ctx.zeroLanes (c : Ctx) : List Nat :=
  match c.run.pfx with
  | some p =>
    if p.mz then (lanesOf (c.k0 &&& ~~~(c.k p.gm.toNat))).filter fun i => decide (c.run.cursor.getD 0 ≤ i)
    else []
  | none => []
/-- The clause goes on after the instruction. -/
def State.goesOn (t : State) (c : Ctx) : Prop := (t.track c.t).run.isSome = true

/-! ## Frames -/

/-- Beside the registers and masks of the group nothing changes but the executing track, the group's
entry of the split table and its cursor, and the error counters of the cores. -/
def OnlyRegisters (s t : State) (c : Ctx) : Prop :=
  t = { s with cores := t.cores, groups := t.groups, tracks := t.tracks } ∧
  (∀ k, t.core k = { s.core k with rfce := (t.core k).rfce, rfue := (t.core k).rfue }) ∧
  (∀ g, g ≠ c.g → t.group g = s.group g) ∧
  (∀ k, k ≠ c.t → t.track k = s.track k) ∧
  ∃ x f, t.group c.g = some x ∧
    x = { c.grp with v := x.v, s := x.s, k := x.k, cursor := x.cursor, split := x.split } ∧
    (∀ e, e ≠ c.run.entry → find e x.split = find e c.grp.split) ∧
    find c.run.entry x.split = some f ∧ f.mask = c.frag.mask ∧ f.rcv = c.frag.rcv ∧
    f.depth = c.frag.depth ∧ f.state = c.frag.state
/-- The mask registers of the group are as before. -/
def MasksKept (t : State) (c : Ctx) : Prop := ∃ x, t.group c.g = some x ∧ x.k = c.grp.k
/-- Every v and s register word but those of a set holds what it held. -/
def RegsKept (t : State) (c : Ctx) (written : Bank × Nat → Prop) : Prop :=
  ∀ b k, b ≠ .l → ¬ written (b, k) →
    ((t.regsOf c.g c.t).get b k).val = (c.regs.get b k).val

/-! ## Instructions that compute a register -/

/-- What an instruction of formats T, RI, L or V does (R26, R31, R34, R58, R68): where every word it reads is
readable, each executing lane, or the uniform instruction once, writes `val` of the registers as they
stood to D unless NWB, and to latch LN with LC; the lanes that MZ names write 0; nothing else changes. -/
def Computes (i : Instr) (m : Mods) (d : Dst) (reads : Nat → List (Bank × Nat))
    (val : RegFile → Nat → Option Pfx → Nat) : Prop :=
  ∀ s c, s.ctx = some c → d.isS = m.uni →
    (m.uni = false → (∀ l ∈ c.lanes, Readable c.regs (reads l)) →
      ∃ t, exec i s = .next t ∧ OnlyRegisters s t c ∧ MasksKept t c ∧
        (m.nwb = false →
          (∀ l ∈ c.lanes, (t.regsOf c.g c.t).value (dstWords d l) =
            val c.regs l c.run.pfx % 2 ^ (32 * Width.count d.width)) ∧
          ∀ l ∈ c.zeroLanes, (t.regsOf c.g c.t).value (dstWords d l) = 0) ∧
        (m.lc = true → t.goesOn c →
          (∀ l ∈ c.lanes, ((t.regsOf c.g c.t).get .l (vkey m.ln.toNat l)).val =
            BitVec.ofNat 32 (val c.regs l c.run.pfx)) ∧
          ∀ l ∈ c.zeroLanes, ((t.regsOf c.g c.t).get .l (vkey m.ln.toNat l)).val = 0) ∧
        RegsKept t c fun w => m.nwb = false ∧ ∃ l ∈ c.lanes ++ c.zeroLanes, w ∈ dstWords d l) ∧
    (m.uni = true → c.run.cursor ≠ some 32 → Readable c.regs (reads 0) →
      ∃ t, exec i s = .next t ∧ OnlyRegisters s t c ∧ MasksKept t c ∧
        (m.nwb = false → (t.regsOf c.g c.t).value (dstWords d 0) =
          val c.regs 0 none % 2 ^ (32 * Width.count d.width)) ∧
        RegsKept t c fun w => m.nwb = false ∧ w ∈ dstWords d 0)
/-- A format T instruction on A. -/
def Computes1 (i : Instr) (f : FmtT) (w : Nat) (op : Option Pfx → Nat → Nat) : Prop :=
  Computes i f.m f.d (srcWords f.a) fun r l p => op p (r.operand f.a l w)
/-- A format T instruction on A and B. -/
def Computes2 (i : Instr) (f : FmtT) (wa wb : Nat) (op : Option Pfx → Nat → Nat → Nat) : Prop :=
  Computes i f.m f.d (fun l => srcWords f.a l ++ srcWords f.b l)
    fun r l p => op p (r.operand f.a l wa) (r.operand f.b l wb)
/-- A format T instruction on A, B and C. -/
def Computes3 (i : Instr) (f : FmtT) (wa wb wc : Nat) (op : Option Pfx → Nat → Nat → Nat → Nat) :
    Prop :=
  Computes i f.m f.d (fun l => srcWords f.a l ++ srcWords f.b l ++ srcWords f.c l)
    fun r l p => op p (r.operand f.a l wa) (r.operand f.b l wb) (r.operand f.c l wc)

/-! ## Completion -/

/-- The cores are as before, but for their error counters. -/
def CoresKept (s t : State) : Prop :=
  ∀ k, t.core k = { s.core k with rfce := (t.core k).rfce, rfue := (t.core k).rfue }
/-- Nothing but groups, tracks and error counters has changed. -/
def Only (s t : State) : Prop :=
  t = { s with cores := t.cores, groups := t.groups, tracks := t.tracks } ∧ CoresKept s t
/-- The same, and a name has been given out for a record. -/
def OnlyNamed (s t : State) : Prop :=
  t = { s with nextId := s.nextId + 1, cores := t.cores, groups := t.groups, tracks := t.tracks } ∧
  CoresKept s t
/-- An instruction has completed, its group as `g` says but for register words, its cursor and its split
table, whose other entries are as before, and no register word but those of a set has changed. -/
def Completes (s t : State) (c : Ctx) (g : Group) (written : Bank × Nat → Prop) : Prop :=
  (∀ k, k ≠ c.g → t.group k = s.group k) ∧ (∀ k, k ≠ c.t → t.track k = s.track k) ∧
  (∃ x f, t.group c.g = some x ∧
    x = { g with v := x.v, s := x.s, cursor := x.cursor, split := x.split } ∧
    (∀ e, e ≠ c.run.entry → find e x.split = find e c.grp.split) ∧
    find c.run.entry x.split = some f ∧ f.mask = c.frag.mask ∧ f.rcv = c.frag.rcv ∧
    f.depth = c.frag.depth ∧ f.state = c.frag.state) ∧
  RegsKept t c written
/-- No register word. -/
def noWord : Bank × Nat → Prop := fun _ => False
/-- Some s registers. -/
def sWords (ns : List Nat) : Bank × Nat → Prop := fun w => w.1 = .s ∧ w.2 ∈ ns
/-- The value of an s register after an instruction, and before it. -/
def State.sOf (t : State) (c : Ctx) (n : Nat) : Word := ((t.regsOf c.g c.t).get .s n).val
def Ctx.sOf (c : Ctx) (n : Nat) : Word := (c.regs.get .s n).val
/-- s registers by number are readable. -/
abbrev SReadable (c : Ctx) (ns : List Nat) : Prop := Readable c.regs (ns.map fun n => (Bank.s, n))
/-- A mask register has been written for the fragment's lanes below the group's count, and no other one
(R24, R37, R134). -/
def MaskWritten (t : State) (c : Ctx) (kd : Nat) (bits : Nat → Bool) : Prop :=
  ∃ x, t.group c.g = some x ∧ (∀ j, j ≠ kd → look 0 j x.k = look 0 j c.grp.k) ∧
    ∀ l, l < 32 → (look 0 kd x.k).getLsbD l =
      if c.frag.mask.getLsbD l = true ∧ l < c.grp.nlanes then bits l else (look 0 kd c.grp.k).getLsbD l
/-- The result of an exact integer: modulo 2^w, or under SAT the nearest value of the type (R92, R126). -/
def satOr (p : Option Pfx) (signed : Bool) (w : Nat) (exact : Int) (wrapped : Nat) : Nat :=
  if pfxSat p then (max (imin signed w) (min exact (imax signed w)) % 2 ^ w).toNat else wrapped
/-- r is m / k rounded to an integer (R98). -/
def RoundsTo (rnd : Rnd) (m : Int) (k : Nat) (r : Int) : Prop :=
  match rnd with
  | .rne => 2 * (m - r * k).natAbs ≤ k ∧ (2 * (m - r * k).natAbs = k → r % 2 = 0)
  | .rtz => r.natAbs * k ≤ m.natAbs ∧ m.natAbs < (r.natAbs + 1) * k ∧ 0 ≤ r * m
  | .up => m ≤ r * k ∧ (r - 1) * k < m
  | .down => r * k ≤ m ∧ m < (r + 1) * k
  | .away => 2 * (m - r * k).natAbs ≤ k ∧ (2 * (m - r * k).natAbs = k → m.natAbs ≤ r.natAbs * k)

/-! ## Exchanges between lanes -/

/-- What an exchange instruction does (R151, R152): with no executing lane nothing; otherwise, where the
words read are readable, every executing lane (or the instruction once, for an s destination) gets
`res` of the registers as they stood. -/
def Exchanges (i : Instr) (f : FmtT) (reads : Nat → List (Bank × Nat))
    (res : Ctx → RegFile → List Nat → Nat → Nat) : Prop :=
  ∀ s c, s.ctx = some c →
    (c.lanes = [] → ∃ t, exec i s = .next t ∧ Only s t ∧ Completes s t c c.grp noWord) ∧
    (c.lanes ≠ [] → (∀ l ∈ c.lanes, Readable c.regs (reads l)) →
      ∃ t, exec i s = .next t ∧ Only s t ∧
        (f.m.nwb = false →
          (f.d.isS = false → ∀ l ∈ c.lanes, (t.regsOf c.g c.t).value (dstWords f.d l) =
            res c c.regs c.lanes l % 2 ^ (32 * Width.count f.d.width)) ∧
          (f.d.isS = true → (t.regsOf c.g c.t).value (dstWords f.d 0) =
            res c c.regs c.lanes 0 % 2 ^ (32 * Width.count f.d.width))) ∧
        Completes s t c c.grp fun w => f.m.nwb = false ∧
          ((f.d.isS = false ∧ ∃ l ∈ c.lanes, w ∈ dstWords f.d l) ∨ (f.d.isS = true ∧ w ∈ dstWords f.d 0)))

/-! ## Control -/

/-- The clause has ended, and the fragment is at `pc` with a key; every other entry keeps its lanes, its pc
and its key. -/
def TransfersTo (s t : State) (c : Ctx) (pc rcv : VAddr) (depth : BitVec 6) : Prop :=
  (∀ k, k ≠ c.g → t.group k = s.group k) ∧ (∀ k, k ≠ c.t → t.track k = s.track k) ∧
  (t.track c.t).run = none ∧ (t.track c.t).latches = [] ∧
  ∃ x f, t.group c.g = some x ∧
    x = { c.grp with v := x.v, s := x.s, cursor := x.cursor, split := x.split } ∧
    find c.run.entry x.split = some f ∧ f.pc = pc ∧ f.word = 0 ∧ f.mask = c.frag.mask ∧ f.rcv = rcv ∧
    f.depth = depth ∧
    ∀ e, e ≠ c.run.entry → (find e x.split).map (fun f => (f.mask, f.pc, f.rcv, f.depth)) =
      (find e c.grp.split).map fun f => (f.mask, f.pc, f.rcv, f.depth)
/-- Every active lane has come to an entry of the split table that stands at the lane's target. -/
def LanesReach (t : State) (c : Ctx) (target : Nat → VAddr) : Prop :=
  ∃ x, t.group c.g = some x ∧ ∀ l ∈ lanesOf c.k0, ∃ e f, find e x.split = some f ∧
    f.mask.getLsbD l = true ∧ f.pc = target l

/-! ## Waiting fragments -/

/-- The group lies on its core, on the track that executes its clause. -/
abbrev Ctx.seated (c : Ctx) : Prop := c.grp.resid = .bound ∧ c.grp.track = c.t
/-- The clause has ended and its fragment waits; no register word but those of a set has changed (R27, R36). -/
def WaitsFor (s t : State) (c : Ctx) (w : Wait) (written : Bank × Nat → Prop) : Prop :=
  (∀ k, k ≠ c.g → t.group k = s.group k) ∧ (∀ k, k ≠ c.t → t.track k = s.track k) ∧
  (t.track c.t).run = none ∧
  (∃ x f, t.group c.g = some x ∧
    x = { c.grp with v := x.v, s := x.s, cursor := x.cursor, split := x.split } ∧
    (∀ e, e ≠ c.run.entry → find e x.split = find e c.grp.split) ∧
    find c.run.entry x.split = some f ∧ f.state = .waiting ∧ f.wait = w ∧ f.mask = c.frag.mask ∧
    f.rcv = c.frag.rcv ∧ f.depth = c.frag.depth) ∧
  RegsKept t c written
/-- A message has been sent from a die of this package to a home on the same die (R355, R371). -/
def State.sent (s t : State) (die : Nat) (m : Msg) : Prop :=
  t.net = s.net ++ [⟨m, s.islDie die, (s.die die).incarn, .die (s.islDie die), 0, s.now, false⟩]

/-! ## Exceptions (R322) -/

/-- A fragment has entered the trap handler: what FLTSTAT and TRAPINFO hold, the fragment at TRAPVEC, every
other entry held, its clause ended. -/
def EntersTrap (t : State) (c : Ctx) (kind cursor : Nat) (resume info : DWord) : Prop :=
  (t.track c.t).run = none ∧ (t.track c.t).latches = [] ∧
  ∃ x f, t.group c.g = some x ∧ fld x.fltstat.toNat 0 8 = kind ∧ fld x.fltstat.toNat 8 5 = cursor ∧
    x.fltstat.getLsbD 13 = true ∧ x.fltstat.getLsbD 14 = false ∧
    look 0 0 x.trapinfo = resume.setWidth 32 ∧ look 0 1 x.trapinfo = (resume >>> 32).setWidth 32 ∧
    look 0 2 x.trapinfo = info.setWidth 32 ∧ look 0 3 x.trapinfo = (info >>> 32).setWidth 32 ∧
    find c.run.entry x.split = some f ∧ f.pc = c.grp.trapvec.setWidth 57 ∧ f.mask = c.frag.mask ∧
    f.state = .ready ∧
    (∀ e, e ≠ c.run.entry → (find e x.split).map (·.held) = (find e c.grp.split).map fun _ => true) ∧
    x.k = c.grp.k
/-- The grid of the executing group has been aborted (R314, R318). -/
def AbortsGrid (t : State) (c : Ctx) : Prop :=
  (t.track c.t).run = none ∧ ∃ g, t.grid c.grp.grid = some g ∧ g.st = .aborted
/-- A fault of an instruction: entry to the handler where the group traps, otherwise the abort of a grid
that still runs; and with room in the ring, to whose line the device can store, its record is entered (R318, R319,
R322; log 14). -/
def Faults (s t : State) (c : Ctx) (kind cursor : Nat) (resume info : DWord) : Prop :=
  (s.traps c.grp kind = true → EntersTrap t c kind cursor resume info) ∧
  (s.traps c.grp kind = false → c.grid.st = .running → AbortsGrid t c) ∧
  (s.fqReady = true → t.sys.fqtail = s.sys.fqtail + 1)

/-! ## Records handed over -/

/-- The lanes of a memory instruction: those that execute, or the uniform one. -/
def Ctx.memLanes (c : Ctx) (uni : Bool) : List Nat := if uni then [32] else c.lanes
/-- What a memory instruction does (R235, R236, R239): where its scoreboard has room, its words are readable
and its addresses pass their checks, one record joins the group's memory queue, with an access for each
lane at that lane's address, and the scoreboard rises. -/
def HandsOver (i : Instr) (m : Mo) (h : Hand) (reads : Nat → List (Bank × Nat))
    (addr : RegFile → Nat → Nat) (check : Ctx → Nat → Option Nat) (data : RegFile → Nat → List Byte) :
    Prop :=
  ∀ s c, s.ctx = some c → (∀ n, h.sb = some n → look 0 n c.grp.sb ≠ 255) →
    (m.uni = true → c.run.cursor ≠ some 32) → c.memLanes m.uni ≠ [] → h.parts ≠ 0 →
    (∀ l ∈ c.memLanes m.uni, Readable c.regs (reads l) ∧ check c (addr c.regs l) = none) →
    ∃ t, exec i s = .next t ∧ OnlyNamed s t ∧
      Completes s t c { c.grp with
        memq := c.grp.memq ++ [⟨s.nextId, h.kind, h.space, h.size, h.order, h.scope, h.na, h.dst, h.sb,
          c.iaddr, (c.memLanes m.uni).flatMap fun l =>
            lanesAcc h l (addr c.regs l % 2 ^ 57) (data c.regs l)⟩]
        sb := match h.sb with
          | some n => put 0 n (look 0 n c.grp.sb + 1) c.grp.sb
          | none => c.grp.sb } noWord
/-- A record joins a core's copy queue, and the core is otherwise as before (R278). -/
def CopyQueued (s t : State) (c : Ctx) (r : CopyRec) : Prop :=
  (∀ k, k ≠ c.core → t.core k = s.core k) ∧
  t.core c.core = { s.core c.core with
    copyq := (s.core c.core).copyq ++ [r]
    rfce := (t.core c.core).rfce, rfue := (t.core c.core).rfue }
/-- A record joins a group's matrix queue (R184). -/
def Group.withMat (g : Group) (id : Nat) (k : MatKind) (iaddr : Nat) (sb : Option Nat) (issued : Bool) :
    Group :=
  { g with
    matq := g.matq ++ [⟨id, k, iaddr, sb, issued, false⟩]
    sb := match sb with
      | some n => put 0 n (look 0 n g.sb + 1) g.sb
      | none => g.sb }
/-- A per-lane instruction of the matrix unit or a uniform one that hands its record over. -/
def MatHandsOver (i : Instr) (pre : Ctx → Prop) (k : Ctx → MatKind) (sb : Option Nat) (issued : Bool) :
    Prop :=
  ∀ s c, s.ctx = some c → pre c → (∀ n, sb = some n → look 0 n c.grp.sb ≠ 255) →
    ∃ t, exec i s = .next t ∧ OnlyNamed s t ∧
      Completes s t c (c.grp.withMat s.nextId (k c) c.iaddr sb issued) noWord

/-! ## Messages -/

/-- The message that the schedule names has come to a die of this package: it is not too old, from its
sender's present incarnation, the die has not failed, and its tokens come to no die that has just rejoined (R372, R394,
R395). -/
def State.delivers (s : State) (d src : Nat) (m : Msg) : Prop :=
  ∃ f i, s.net[s.pick]? = some f ∧ f.msg = m ∧ f.src = src ∧ f.dest = .die i ∧ s.ownDie i = some d ∧
    Flight.age f s.now < maxAge ∧ look 0 src (s.die d).known = f.inc ∧
    (s.die d).failed = false ∧ (Msg.tokens m = 0 ∨ (s.die d).upUntil = none)
/-- The same state without that message. -/
def State.without (s : State) : State := { s with net := dropNth s.pick s.net }
/-- A state's messages hold one from a die of this package to a die. -/
def State.holds (t s : State) (d dst : Nat) (m : Msg) : Prop :=
  ⟨m, s.islDie d, (s.die d).incarn, .die dst, 0, s.now, false⟩ ∈ t.net

/-! ## Commands -/

/-- A command interface has started the command of a code (R417). -/
abbrev State.started (s : State) (i code : Nat) : Prop := look 0 i s.sys.cmdStatus = 1 ∧ s.cmd i 0 1 = code

end Sys2Proof.Machine
end

