-- ==== Sys2Proof/Certificates/Slice0/Obligations.lean ====
section
/-! DEFINITION. The statements for the provers. A statement that rests on a convention of the model's own names the row
of the assumption log. -/

open Sys2Proof Sys2Proof.Machine

/-! ## The machine -/

/-- R71, R58 to R63: the words of a few instructions, written out from the field tables of the spec, decode to
those instructions: NOP; IADD v5, v3, s7 (i32); LD of v9 from the pair s4 at offset 8, scoreboard 2;
BRA.any k2 by +3 words; BARA of barrier 5 with s6; RDSR of FLTSTAT to s6.
R72, R67: a word whose opcode the map does not assign decodes to nothing but the unassigned opcode; a prefix
word is no instruction; and what decodes has an assigned opcode that is not the prefix's. -/
def Obligations.DecodesTableWords : Prop :=
  (decode 0x0100000000000000#64 = .ok (.nop false) ∧
   decode 0x080002801A038000#64 =
     .ok (.iadd ⟨⟨false, false, false, false, 0⟩, ⟨false, .single, 5⟩, ⟨.v, .single, 3⟩, ⟨.s, .single, 7⟩,
       ⟨.v, .single, 0⟩, 0⟩) ∧
   decode 0x800004A820001080#64 =
     .ok (.ld ⟨⟨false, false⟩, ⟨false, .single, 9⟩, ⟨.s, .pair, 4⟩, 8, 2, .core, .weak, false⟩) ∧
   decode 0x7001100000300000#64 = .ok (.bra false .any 2 3) ∧
   decode 0xC040280600000001#64 = .ok (.bara ⟨false, 5, false, false, 6, 1⟩) ∧
   decode 0xE042030000000001#64 = .ok (.rdsr false ⟨true, .single, 6⟩ 1)) ∧
  ((∀ w, assigned (opOf w) = false → decode w = .error .unassigned) ∧
   (∀ w, opOf w = 2 → decode w = .error .prefixWord) ∧
   (∀ w i, decode w = .ok i → assigned (opOf w) = true ∧ opOf w ≠ 2))

/-- R68, R67, R358 (the model's schedule, log 3): where the next word of the clause that a track is executing
decodes to an instruction, and no s register that it names is still to be written, a step that runs
the track executes exactly that instruction, at that word, with no prefix, or under the prefix word that
stands before it, after the empty steps for which it is held. -/
def Obligations.StepRunsTheDecodedInstruction : Prop :=
  ∀ s t r i w rest, s.agenda = .run t :: rest → (s.track t).run = some r → r.fetched = true →
    (sRegs i).any (s.dsPending r.group).contains = false → decode w = .ok i →
    (r.word r.pos = some (w, .instr) → opOf w ≠ 2 →
      step s = exec i ({ s with agenda := rest }.aim t i none r.pos)) ∧
    (∀ v p, r.word r.pos = some (v, .instr) → opOf v = 2 → decodePfx v = .ok p →
      (∃ k, r.word (r.pos + 1) = some (w, k)) →
      step s = exec i ({ s with agenda := rest }.aim t i (some p) (r.pos + 1)))

/-- The model's schedule (log 3): a step whose next move is an event, which has no word, executes that event
with the schedule's choice; a move that names an instruction as an event is refused.
R27, R28, R52 (the track's own moves, log 3): a track that runs no clause is not run; an instruction whose
s register is still to be written takes an empty step; a clause in which no instruction word is left ends,
and its fragment stands at the header that follows. -/
def Obligations.StepFollowsTheSchedule : Prop :=
  (∀ s i n rest, s.agenda = .event i n :: rest →
     (encode i = none → step s = exec i { s with agenda := rest, pick := n }) ∧
     ((encode i).isSome = true → ∃ why, step s = .refused (.notEnabled why))) ∧
  ((∀ s t, (s.track t).run = none → ∃ why, runTrack t s = .refused (.notEnabled why)) ∧
   (∀ s t r w i, (s.track t).run = some r → r.fetched = true → r.word r.pos = some (w, .instr) → opOf w ≠ 2 →
     decode w = .ok i → (sRegs i).any (s.dsPending r.group).contains = true →
     runTrack t s = .next (s.setTrack t { s.track t with steps := (s.track t).steps + 1 })) ∧
   (∀ s t c, ({ s with focus := some t } : State).ctx = some c → c.run.fetched = true →
     c.run.word c.run.pos = none →
     ∃ u, runTrack t s = .next u ∧ TransfersTo s u c c.nextHdr c.frag.rcv c.frag.depth))

/-- R70, R52, R27: NOP changes no register and costs one step. Where it is not the last word of its clause and no safe
point, the clause goes on to the next word with no prefix; otherwise the clause ends, its latches are cleared and the
fragment stands at the header that follows. -/
def Obligations.NopAdvancesItsClause : Prop :=
  ∀ s c sp, s.ctx = some c →
    ∃ t, exec (.nop sp) s = .next t ∧ Only s t ∧ Completes s t c c.grp noWord ∧
      (t.track c.t).steps = c.trk.steps + 1 ∧
      (sp = false → c.run.pos < c.run.words.length →
        (t.track c.t).run = some { c.run with pos := c.run.pos + 1, pfx := none, cursor := none } ∧
        (t.track c.t).latches = c.trk.latches) ∧
      (sp = true ∨ c.run.words.length ≤ c.run.pos →
        TransfersTo s t c c.nextHdr c.frag.rcv c.frag.depth)

/-- R117, R22, R277, R329, R340, R352, R394, R425: after a power-on reset the state holds the values the spec gives:
MONTHR 0x0864, a FREQ of 1,800 MHz and its limits on every die, the system registers and counters of R117 and
R352 at 0, SRLOG2 6, the power cap 3,200 W, no package id, an island of one package, every incarnation 0, the
tables of R340 invalid and the queues of R277 empty. -/
def Obligations.ResetLeavesTheStatedValues : Prop :=
  (∀ d, (State.reset.die d).monthr = 0x0864#32 ∧ (State.reset.die d).partid = 0 ∧
    (State.reset.die d).freq = 1800 ∧ (State.reset.die d).powerLimit = 1800 ∧
    (State.reset.die d).incarn = 0 ∧ (∀ i, look 0 i (State.reset.die d).known = 0) ∧
    (State.reset.die d).stale = 0 ∧ (State.reset.die d).recounts = 0 ∧ (State.reset.die d).tcache = [] ∧
    (State.reset.die d).predictor = [] ∧ (State.reset.die d).parked = []) ∧
  (∀ c, (State.reset.core c).carve = 0 ∧ (State.reset.core c).replay = 0 ∧
    (State.reset.core c).rfce = 0 ∧ (State.reset.core c).rfue = 0 ∧ (State.reset.core c).drops = 0 ∧
    (State.reset.core c).cycle = 0 ∧ (State.reset.core c).tlb = [] ∧ (State.reset.core c).adcache = [] ∧
    (State.reset.core c).zones = [] ∧ (State.reset.core c).slots = [] ∧ (State.reset.core c).fwds = [] ∧
    (State.reset.core c).copyq = [] ∧ (State.reset.core c).wtb = [] ∧ (State.reset.core c).fifo = []) ∧
  State.reset.sys.fqtail = State.reset.sys.fqhead ∧ State.reset.fqPend = [] ∧ State.reset.devStores = [] ∧
  State.reset.sys.snapctl = 0 ∧ State.reset.sys.snapstat = 0 ∧ State.reset.sys.srlog2 = 6 ∧
  State.reset.sys.pwrcap = 3200 ∧
  (∀ n, look 0 n State.reset.sys.wqbase = 0) ∧ (∀ n, look 0 n State.reset.depctr = 0) ∧
  State.reset.parts = [] ∧ State.reset.ptab = [] ∧
  State.reset.enum.pkgValid = false ∧ State.reset.enum.islpos = 0 ∧ State.reset.enum.islsize = 1

/-- At reset the memories are in canonical form, the model's own (log 1). -/
def Obligations.ResetMemoriesAreCanonical : Prop :=
  State.reset.memOk = true

/-- Every step keeps the canonical form of the memories, the model's own (log 1): island HBM, host memory and pool
memory. -/
def Obligations.StepsKeepTheMemoriesCanonical : Prop :=
  ∀ s t, s.memOk = true → step s = .next t → t.memOk = true

/-- Every well-formed instruction decodes from the word that it encodes to: no bit of any encoding is
dropped. -/
def Obligations.DecodeInvertsEncode : Prop :=
  ∀ k i w, encode i = some w → wellFormed k i = true → decode w = .ok i

/-! ## Integer, logic and bits -/

/-- R92, R126, R127: the integer arithmetic modulo 2^w, and under SAT clamped to the type, of w = 32 or 64 bits
by D's width and of the signedness of FN. That IADDI under SAT reads its extended immediate under an unsigned FN as an
unsigned number is the model's reading (log 29, DEDUCED).
R128: division by zero gives the type's extreme on the dividend's side and leaves the dividend as remainder; the
one quotient that does not fit wraps, or is clamped under SAT; otherwise the quotient is truncated and the
remainder has the dividend's sign. -/
def Obligations.IntegerArithmetic : Prop :=
  ((∀ f, let w := dBits f.d; let g := fnSigned f.fn
     Computes2 (.iadd f) f w w (fun p a b => satOr p g w (ival g w a + ival g w b)
       (BitVec.ofNat w a + BitVec.ofNat w b).toNat) ∧
     Computes2 (.isub f) f w w (fun p a b => satOr p g w (ival g w a - ival g w b)
       (BitVec.ofNat w a - BitVec.ofNat w b).toNat) ∧
     Computes2 (.imul f) f w w (fun p a b => satOr p g w (ival g w a * ival g w b)
       (BitVec.ofNat w a * BitVec.ofNat w b).toNat) ∧
     Computes3 (.imad f) f w w w (fun p a b c => satOr p g w (ival g w a * ival g w b + ival g w c)
       (BitVec.ofNat w a * BitVec.ofNat w b + BitVec.ofNat w c).toNat) ∧
     Computes3 (.iadd3 f) f w w w (fun p a b c => satOr p g w (ival g w a + ival g w b + ival g w c)
       (BitVec.ofNat w a + BitVec.ofNat w b + BitVec.ofNat w c).toNat) ∧
     Computes1 (.ineg f) f w (fun p a => satOr p true w (-ival true w a) (-BitVec.ofNat w a).toNat) ∧
     Computes1 (.iabs f) f w (fun p a => satOr p true w (ival true w a).natAbs
       ((ival true w a).natAbs % 2 ^ w)) ∧
     Computes3 (.isad f) f w w w (fun p a b c =>
       satOr p g w ((ival g w a - ival g w b).natAbs + ival g w c)
         ((BitVec.ofNat w (ival g w a - ival g w b).natAbs + BitVec.ofNat w c).toNat)) ∧
     Computes2 (.imulh f) f w w (fun _ a b => ((ival g w a * ival g w b).shiftRight w % 2 ^ w).toNat) ∧
     Computes2 (.imin f) f w w (fun _ a b => if ival g w a ≤ ival g w b then a % 2 ^ w else b % 2 ^ w) ∧
     Computes2 (.imax f) f w w (fun _ a b => if ival g w a ≤ ival g w b then b % 2 ^ w else a % 2 ^ w) ∧
     Computes3 (.iclamp f) f w w w (fun _ a b c =>
       let m := if ival g w a ≤ ival g w b then b % 2 ^ w else a % 2 ^ w
       if ival g w m ≤ ival g w c then m else c % 2 ^ w)) ∧
   (∀ f, let g := fnSigned f.fn
     Computes3 (.imadw f) f 32 32 64 fun p a b c =>
       satOr p g 64 (ival g 32 a * ival g 32 b + ival g 64 c)
         ((ival g 32 a * ival g 32 b + ival g 64 c) % 2 ^ 64).toNat) ∧
   (∀ f, Computes2 (.lea f) f (if f.a.width = .pair then 64 else 32) 64 fun _ a b =>
     (((if f.a.width = .pair then BitVec.ofNat 64 a else (BitVec.ofNat 32 a).signExtend 64) <<< f.fn.toNat) +
       BitVec.ofNat 64 b).toNat) ∧
   (∀ f, let w := dBits f.d; let g := fnSigned f.fn
     Computes (.iaddi f) f.m f.d (srcWords f.a) fun r l p =>
       let a := r.operand f.a l w
       let i := (f.imm.signExtend w).toNat
       satOr p g w (ival g w a + ival g w i) (BitVec.ofNat w a + f.imm.signExtend w).toNat)) ∧
  (∀ f, let w := dBits f.d; let g := fnSigned f.fn
     Computes2 (.idiv f) f w w (fun p a b =>
       let x := ival g w a; let y := ival g w b
       if y = 0 then ((if x < 0 then imin g w else imax g w) % 2 ^ w).toNat
       else if g = true ∧ x = imin g w ∧ y = -1 then
         ((if pfxSat p then imax g w else imin g w) % 2 ^ w).toNat
       else (x.tdiv y % 2 ^ w).toNat) ∧
     Computes2 (.irem f) f w w (fun _ a b =>
       let x := ival g w a; let y := ival g w b
       if y = 0 then a % 2 ^ w
       else if g = true ∧ x = imin g w ∧ y = -1 then 0
       else (x.tmod y % 2 ^ w).toNat))

/-- R129: the bitwise operations, shifts and rotations, at the width of D.
R129, R130: counts of bits at A's width, reversal, and the fields that BFX, BFI and BYTP move: POS is B[7:0], LEN
is B[15:8], cut to w − POS. -/
def Obligations.BitwiseInstructions : Prop :=
  (∀ f, let w := dBits f.d
     Computes2 (.and f) f w w (fun _ a b => (BitVec.ofNat w a &&& BitVec.ofNat w b).toNat) ∧
     Computes2 (.or f) f w w (fun _ a b => (BitVec.ofNat w a ||| BitVec.ofNat w b).toNat) ∧
     Computes2 (.xor f) f w w (fun _ a b => (BitVec.ofNat w a ^^^ BitVec.ofNat w b).toNat) ∧
     Computes2 (.andn f) f w w (fun _ a b => (BitVec.ofNat w a &&& ~~~BitVec.ofNat w b).toNat) ∧
     Computes1 (.not f) f w (fun _ a => (~~~BitVec.ofNat w a).toNat) ∧
     Computes2 (.shl f) f w 32 (fun _ a b => if w ≤ b then 0 else a <<< b % 2 ^ w) ∧
     Computes2 (.shr f) f w 32 (fun _ a b => if w ≤ b then 0 else a >>> b % 2 ^ w) ∧
     Computes2 (.sar f) f w 32 (fun _ a b =>
       if a < 2 ^ w then ((BitVec.ofNat w a).sshiftRight (min b w)).toNat
       else (sgn a w / 2 ^ (min b w) % 2 ^ w).toNat) ∧
     Computes2 (.rol f) f w 32 (fun _ a b =>
       (a * 2 ^ (b % w) ||| a / 2 ^ (w - b % w)) % 2 ^ w) ∧
     Computes3 (.fshl f) f w w 32 (fun _ a b c => (a * 2 ^ w + b) * 2 ^ (c % w) / 2 ^ w % 2 ^ w) ∧
     Computes3 (.fshr f) f w w 32 (fun _ a b c => (a * 2 ^ w + b) / 2 ^ (c % w) % 2 ^ w)) ∧
  ((∀ f, let w := aBits f.a
     Computes1 (.popc f) f w (fun _ a => (List.range w).countP fun i => a.testBit i) ∧
     Computes1 (.clz f) f w (fun _ a => w - bitLen (a % 2 ^ w)) ∧
     Computes1 (.ctz f) f w (fun _ a =>
       ((List.range w).takeWhile fun i => !a.testBit i).length)) ∧
   (∀ f, let w := dBits f.d
     Computes1 (.brev f) f w (fun _ a => (BitVec.ofNat w a).reverse.toNat) ∧
     Computes2 (.bfx f) f w 32 (fun _ a b =>
       let pos := b % 256
       let n := if w ≤ pos then 0 else min (b / 256 % 256) (w - pos)
       let x := a / 2 ^ pos % 2 ^ n
       if fnSigned f.fn = true ∧ n ≠ 0 ∧ 2 ^ (n - 1) ≤ x then 2 ^ w - 2 ^ n + x else x) ∧
     Computes3 (.bfi f) f w 32 w (fun _ a b c =>
       let pos := b % 256
       let n := if w ≤ pos then 0 else min (b / 256 % 256) (w - pos)
       c - c / 2 ^ pos % 2 ^ n * 2 ^ pos + a % 2 ^ n * 2 ^ pos)) ∧
   (∀ f, Computes3 (.bytp f) f 32 32 32 fun _ a b c =>
     let src := b * 2 ^ 32 + a
     let byte (j : Nat) : Nat :=
       let sel := c / 2 ^ (4 * j) % 16
       let x := src / 2 ^ (8 * (sel % 8)) % 256
       if sel < 8 then x else if 128 ≤ x then 255 else 0
     byte 0 + byte 1 * 2 ^ 8 + byte 2 * 2 ^ 16 + byte 3 * 2 ^ 24))

/-! ## Floating point -/

/-- R142, R143, R144, R145, R150: binary32 arithmetic: operands read under DAZ, an exact result rounded once by RM
under SAT and FTZ; FSGN moves sign bits alone, FCLASS answers one bit. -/
def Obligations.Binary32Arithmetic : Prop :=
  ∀ f,
    Computes2 (.fadd f) f 32 32 (fun p a b => fin32 p ((rd32 p a).add (pfxRm p) (rd32 p b))) ∧
    Computes2 (.fsub f) f 32 32 (fun p a b => fin32 p ((rd32 p a).add (pfxRm p) (rd32 p b).negate)) ∧
    Computes2 (.fmul f) f 32 32 (fun p a b => fin32 p ((rd32 p a).mul (rd32 p b))) ∧
    Computes3 (.ffma f) f 32 32 32 (fun p a b c =>
      fin32 p (((rd32 p a).mul (rd32 p b)).add (pfxRm p) (rd32 p c))) ∧
    Computes2 (.fmin f) f 32 32 (fun p a b => fin32 p ((rd32 p a).minNum (rd32 p b))) ∧
    Computes2 (.fmax f) f 32 32 (fun p a b => fin32 p ((rd32 p a).maxNum (rd32 p b))) ∧
    Computes1 (.frnd f) f 32 (fun p a => fin32 p ((rd32 p a).integral (pfxRm p))) ∧
    Computes2 (.fdiv f) f 32 32 (fun p a b => fin32 p (fdivEl (rd32 p a) (rd32 p b))) ∧
    Computes1 (.sqrt f) f 32 (fun p a => fin32 p (sqrtEl (rd32 p a))) ∧
    Computes1 (.fclass f) f 32 (fun _ a =>
      2 ^ fclassBit (fmtOf f.fn.toNat) (a % 2 ^ (fmtOf f.fn.toNat).bits)) ∧
    (f.fn.toNat ≤ 2 → Computes2 (.fsgn f) f 32 32 fun _ a b =>
      a % 2 ^ 31 + 2 ^ 31 * (if f.fn = 0 then b / 2 ^ 31 % 2 else if f.fn = 1 then 1 - b / 2 ^ 31 % 2
        else (a / 2 ^ 31 + b / 2 ^ 31) % 2)) ∧
    (3 ≤ f.fn.toNat → Computes1 (.fsgn f) f 32 fun _ a =>
      a % 2 ^ 31 + 2 ^ 31 * (if f.fn = 3 then 0 else 1 - a / 2 ^ 31 % 2))

/-- R147, R148, R149: the packed halves, element by element; the dot products, exact sums rounded once; IDOT4, exact,
wrapped or clamped. -/
def Obligations.PackedAndDotProducts : Prop :=
  ∀ f, let ff := halfFmt f.fn
    let lo (p : Option Pfx) (x : Nat) : El := fread ff (pfxDaz p) (x % 2 ^ 16)
    let hi (p : Option Pfx) (x : Nat) : El := fread ff (pfxDaz p) (x / 2 ^ 16 % 2 ^ 16)
    let out (p : Option Pfx) (x y : El) : Nat :=
      fround ff (pfxRm p) (pfxSat p) (pfxFtz p) x + fround ff (pfxRm p) (pfxSat p) (pfxFtz p) y * 2 ^ 16
    Computes2 (.hadd2 f) f 32 32 (fun p a b =>
      out p ((lo p a).add (pfxRm p) (lo p b)) ((hi p a).add (pfxRm p) (hi p b))) ∧
    Computes2 (.hmul2 f) f 32 32 (fun p a b => out p ((lo p a).mul (lo p b)) ((hi p a).mul (hi p b))) ∧
    Computes3 (.hfma2 f) f 32 32 32 (fun p a b c =>
      out p (((lo p a).mul (lo p b)).add (pfxRm p) (lo p c))
        (((hi p a).mul (hi p b)).add (pfxRm p) (hi p c))) ∧
    Computes2 (.hmin2 f) f 32 32 (fun p a b => out p ((lo p a).minNum (lo p b)) ((hi p a).minNum (hi p b))) ∧
    Computes2 (.hmax2 f) f 32 32 (fun p a b => out p ((lo p a).maxNum (lo p b)) ((hi p a).maxNum (hi p b))) ∧
    Computes3 (.dot2 f) f 32 32 32 (fun p a b c => fin32 p (El.sum (pfxRm p)
      [(lo p a).mul (lo p b), (hi p a).mul (hi p b), rd32 p c])) ∧
    Computes3 (.dot4 f) f 32 32 32 (fun p a b c =>
      let fa := if f.fn.getLsbD 0 then e5m2 else e4m3
      let fb := if f.fn.getLsbD 1 then e5m2 else e4m3
      let pr (e : Nat) : El := (fread fa false (a / 2 ^ (8 * e) % 2 ^ 8)).mul
        (fread fb false (b / 2 ^ (8 * e) % 2 ^ 8))
      fin32 p (El.sum (pfxRm p) [pr 0, pr 1, pr 2, pr 3, rd32 p c])) ∧
    Computes3 (.idot4 f) f 32 32 32 (fun p a b c =>
      let x (e : Nat) : Int := ival (!f.fn.getLsbD 0) 8 (a / 2 ^ (8 * e) % 2 ^ 8)
      let y (e : Nat) : Int := ival (!f.fn.getLsbD 1) 8 (b / 2 ^ (8 * e) % 2 ^ 8)
      let sum := ival true 32 c + x 0 * y 0 + x 1 * y 1 + x 2 * y 2 + x 3 * y 3
      satOr p true 32 sum (sum % 2 ^ 32).toNat)

/-- R112, R113, R150: the special functions: the exact cases of the table, and elsewhere the value of the function
`op`, rounded to nearest; the operand of a subnormal pattern under DAZ is the zero of its sign.
Where the manual gives only a bound, the result is a free value kept within the bound of an enclosure of the function's
value, or the binary32 value nearest that (log 7); of RCP and RSQ the enclosure is shown to hold 1/x and 1/√x. -/
def Obligations.SpecialFunctions : Prop :=
  (∀ f,
    Computes1 (.rcp f) f 32 (fun p a => fround f32 .rne (pfxSat p) (pfxFtz p)
      (rcp (dazPat p a) (fread f32 false (dazPat p a)))) ∧
    Computes1 (.rsq f) f 32 (fun p a => fround f32 .rne (pfxSat p) (pfxFtz p)
      (rsq (dazPat p a) (fread f32 false (dazPat p a)))) ∧
    Computes1 (.exp2 f) f 32 (fun p a => fround f32 .rne (pfxSat p) (pfxFtz p)
      (exp2 (dazPat p a) (fread f32 false (dazPat p a)))) ∧
    Computes1 (.log2 f) f 32 (fun p a => fround f32 .rne (pfxSat p) (pfxFtz p)
      (log2 (dazPat p a) (fread f32 false (dazPat p a)))) ∧
    Computes1 (.sinr f) f 32 (fun p a => fround f32 .rne (pfxSat p) (pfxFtz p)
      (sinr (dazPat p a) (fread f32 false (dazPat p a)))) ∧
    Computes1 (.cosr f) f 32 (fun p a => fround f32 .rne (pfxSat p) (pfxFtz p)
      (cosr (dazPat p a) (fread f32 false (dazPat p a)))) ∧
    Computes1 (.tanh f) f 32 (fun p a => fround f32 .rne (pfxSat p) (pfxFtz p)
      (tanh (dazPat p a) (fread f32 false (dazPat p a))))) ∧
  (∀ x, rcp x .nan = .nan ∧ rsq x .nan = .nan ∧ exp2 x .nan = .nan ∧ log2 x .nan = .nan ∧
    sinr x .nan = .nan ∧ cosr x .nan = .nan ∧ tanh x .nan = .nan) ∧
  (∀ x n, rcp x (.inf n) = .fin ⟨0, 0⟩ n ∧ rcp x (.fin ⟨0, 0⟩ n) = .inf n ∧
    rsq x (.fin ⟨0, 0⟩ n) = .inf n ∧ rsq x (.inf true) = .nan ∧ rsq x (.inf false) = .fin ⟨0, 0⟩ false ∧
    exp2 x (.inf true) = .fin ⟨0, 0⟩ false ∧ exp2 x (.inf false) = .inf false ∧
    log2 x (.fin ⟨0, 0⟩ n) = .inf true ∧ log2 x (.inf true) = .nan ∧ log2 x (.inf false) = .inf false ∧
    sinr x (.inf n) = .nan ∧ cosr x (.inf n) = .nan ∧ tanh x (.fin ⟨0, 0⟩ n) = .fin ⟨0, 0⟩ n) ∧
  (∀ x (d : Dy), 0 < d.m → rsq x (.fin d.neg true) = .nan ∧ log2 x (.fin d.neg true) = .nan) ∧
  (∀ x (n : Int) z, -150 < n → n < 128 → exp2 x (.fin ⟨n, 0⟩ z) = .fin ⟨1, n⟩ false) ∧
  (∀ x (k : Nat) (e : Int), log2 x (.fin ⟨2 ^ k, e⟩ false) = El.ofDy ⟨e + k, 0⟩ false) ∧
  (∀ x (d : Dy), 0 < d.m →
    rcp x (.fin d false) = boundedFree 0 x (inUlps 1 (rcpNear d)) (rcpNear d) ∧
    rsq x (.fin d false) = boundedFree 1 x (inUlps 2 (rsqNear d)) (rsqNear d) ∧
    Dy.lt ⟨1, 0⟩ ((rcpNear d).lo.mul d) = false ∧ Dy.lt ((rcpNear d).hi.mul d) ⟨1, 0⟩ = false ∧
    Dy.lt ⟨1, 0⟩ (((rsqNear d).lo.mul (rsqNear d).lo).mul d) = false ∧
    Dy.lt (((rsqNear d).hi.mul (rsqNear d).hi).mul d) ⟨1, 0⟩ = false) ∧
  (∀ code x ok near v n, boundedFree code x ok near = .fin v n →
    ok v = true ∨ .fin v n = fread f32 false (rne32 (El.ofDy near.lo false)).toNat)

/-- R98, R100, R115, R116, R132, R133, R138 to R140: the moves, special registers, conversions and packings, and the choice
by a mask register. A conversion to an integer gives one of its type, extended to 32 or 64 bits: of a number what it
rounds to, kept to the type's range, of NaN 0; of an integer its low bits, or under SAT, where the type is not wider, the
nearest value of the type (of a type and itself log 54); one to a float is rounded once. -/
def Obligations.MovesAndConversions : Prop :=
  (∀ f, Computes1 (.mov f) f (dBits f.d) fun _ a => a) ∧
  (∀ f, Computes (.movi f) f.m f.d (fun _ => []) fun _ _ _ => (f.imm.signExtend (dBits f.d)).toNat) ∧
  (∀ f, Computes (.movih f) f.m ⟨f.d.isS, .single, f.d.num + 1⟩ (fun _ => []) fun _ _ _ => f.imm.toNat) ∧
  (∀ f, Computes (.cvt f) f.m f.d (srcWords f.a) fun r l _ =>
    convert f.dty f.sty f.rnd f.sat (r.operand f.a l (if Ty.bitsOf f.sty = 64 then 64 else 32))) ∧
  (∀ dt st rnd sat x, let w := Ty.bitsOf dt; let lo := imin (Ty.signed dt) w; let hi := imax (Ty.signed dt) w
    let y := x % 2 ^ Ty.bitsOf st
    (Ty.isInt dt = true → ∃ n : Int, lo ≤ n ∧ n ≤ hi ∧
      convert dt st rnd sat x = (n % 2 ^ (if w = 64 then 64 else 32)).toNat ∧
      (Ty.isInt st = true → if sat = true ∧ w ≤ Ty.bitsOf st then n = max lo (min (tyVal st y) hi)
        else (n - tyVal st y) % 2 ^ w = 0) ∧
      (Ty.isInt st = false → match fread (Ty.fmt st) false y with
        | .nan => n = 0
        | .inf neg => n = if neg then lo else hi
        | .fin d _ => ∃ r, n = max lo (min r hi) ∧ RoundsTo rnd (d.m * 2 ^ d.e.toNat) (2 ^ (-d.e).toNat) r)) ∧
    (Ty.isInt dt = false → convert dt st rnd sat x = fround (Ty.fmt dt) rnd sat false
      (if Ty.isInt st then .fin ⟨tyVal st y, 0⟩ (decide (tyVal st y < 0)) else fread (Ty.fmt st) false y))) ∧
  (∀ f, Computes2 (.pack f) f 32 32 fun _ a b =>
    if f.fn = 0 then b % 2 ^ 16 * 2 ^ 16 + a % 2 ^ 16
    else if f.fn = 1 then b / 2 ^ 16 % 2 ^ 16 * 2 ^ 16 + a / 2 ^ 16 % 2 ^ 16
    else b / 2 ^ 16 % 2 ^ 16 * 2 ^ 16 + a % 2 ^ 16) ∧
  (∀ f, Computes (.spread f) f.m f.d (srcWords f.a) fun r l _ =>
    let a := r.operand f.a l 32
    if f.fn = 0 then a / 2 ^ l % 2
    else if f.fn = 1 then a / 2 ^ (8 * l) % 256
    else if a / 2 ^ (8 * l) % 256 < 128 then a / 2 ^ (8 * l) % 256
    else 2 ^ 32 - 256 + a / 2 ^ (8 * l) % 256) ∧
  (∀ m d sel s c, s.ctx = some c → d.isS = m.uni →
    (m.uni = false → ∃ t, exec (.movs m d sel) s = .next t ∧ OnlyRegisters s t c ∧ MasksKept t c ∧
      (m.nwb = false → ∀ l ∈ c.lanes, (t.regsOf c.g c.t).value (dstWords d l) =
        specialReg s c sel.toNat l % 2 ^ (32 * Width.count d.width)) ∧
      RegsKept t c fun w => m.nwb = false ∧ ∃ l ∈ c.lanes ++ c.zeroLanes, w ∈ dstWords d l) ∧
    (m.uni = true → c.run.cursor ≠ some 32 →
      ∃ t, exec (.movs m d sel) s = .next t ∧ OnlyRegisters s t c ∧ MasksKept t c ∧
        (m.nwb = false → (t.regsOf c.g c.t).value (dstWords d 0) =
          specialReg s c sel.toNat 0 % 2 ^ (32 * Width.count d.width)) ∧
        RegsKept t c fun w => m.nwb = false ∧ w ∈ dstWords d 0)) ∧
  (∀ s c l, specialReg s c 0x00 l = l ∧ specialReg s c 0x01 l = c.grp.nlanes ∧ specialReg s c 0x02 l = c.grp.idx ∧
    specialReg s c 0x03 l = c.team.x ∧ specialReg s c 0x04 l = c.team.y ∧ specialReg s c 0x05 l = c.team.z ∧
    specialReg s c 0x06 l = c.team.x % c.grid.cols ∧ specialReg s c 0x07 l = c.team.y % c.grid.rows ∧
    specialReg s c 0x08 l = c.grid.gx ∧ specialReg s c 0x09 l = c.grid.gy ∧ specialReg s c 0x0A l = c.grid.gz ∧
    specialReg s c 0x0B l = c.core ∧ specialReg s c 0x0C l = c.core / 24 ∧
    specialReg s c 0x0D l = (if s.enum.pkgValid then s.enum.pkgid.toNat else 0) ∧
    specialReg s c 0x0E l = c.grid.part.toNat ∧ specialReg s c 0x0F l = (s.die (c.core / 24)).incarn.toNat ∧
    specialReg s c 0x10 l = c.grp.gang.toNat) ∧
  (∀ f s c, s.ctx = some c → f.d.isS = false →
    (∀ l ∈ c.lanes, Readable c.regs (srcWords f.a l ++ srcWords f.b l)) →
    ∃ t, exec (.isel f) s = .next t ∧ OnlyRegisters s t c ∧ MasksKept t c ∧
      (f.m.nwb = false → ∀ l ∈ c.lanes, (t.regsOf c.g c.t).value (dstWords f.d l) =
        (if (c.k f.fn.toNat).getLsbD l then c.regs.operand f.a l (dBits f.d)
         else c.regs.operand f.b l (dBits f.d)) % 2 ^ (32 * Width.count f.d.width)) ∧
      RegsKept t c fun w => f.m.nwb = false ∧ ∃ l ∈ c.lanes ++ c.zeroLanes, w ∈ dstWords f.d l)

/-- R37, R134 to R137: the mask instructions, once for the fragment whatever k0 holds. KFIND answers the lowest or the
highest set lane, or 32; KOP's truth table has the bit 2 × kA + kB. -/
def Obligations.MaskInstructions : Prop :=
  (∀ sp nwb d ka s c, s.ctx = some c → c.run.cursor ≠ some 32 →
    (∃ t, exec (.movk sp nwb d ka) s = .next t ∧ Only s t ∧
      Completes s t c c.grp (fun w => nwb = false ∧ w ∈ dstWords d 0) ∧
      (nwb = false → (t.regsOf c.g c.t).value (dstWords d 0) = (c.k ka.toNat).toNat)) ∧
    (∃ t, exec (.kpopc sp nwb d ka) s = .next t ∧ Only s t ∧
      Completes s t c c.grp (fun w => nwb = false ∧ w ∈ dstWords d 0) ∧
      (nwb = false → (t.regsOf c.g c.t).value (dstWords d 0) =
        (List.range 32).countP fun i => (c.k ka.toNat).getLsbD i)) ∧
    ∀ hi, ∃ t, exec (.kfind sp nwb d hi ka) s = .next t ∧ Only s t ∧ ∃ n,
      Completes s t c c.grp (fun w => nwb = false ∧ w ∈ dstWords d 0) ∧
      (nwb = false → (t.regsOf c.g c.t).value (dstWords d 0) = n) ∧
      (c.k ka.toNat = 0 → n = 32) ∧
      (c.k ka.toNat ≠ 0 → (c.k ka.toNat).getLsbD n = true ∧
        ∀ i, (c.k ka.toNat).getLsbD i = true → if hi then i ≤ n else n ≤ i)) ∧
  (∀ sp kd a s c, s.ctx = some c → c.run.cursor ≠ some 32 →
    (∀ sn, a = .s sn → SReadable c [sn.toNat]) →
    ∃ t x, exec (.kmov sp kd a) s = .next t ∧ Only s t ∧ t.group c.g = some x ∧
      Completes s t c { c.grp with k := x.k } noWord ∧
      MaskWritten t c kd.toNat (match a with
        | .k ka => (c.k ka.toNat).getLsbD
        | .s sn => (c.sOf sn.toNat).getLsbD
        | .imm v => v.getLsbD)) ∧
  (∀ sp kd ka kb tt s c, s.ctx = some c → c.run.cursor ≠ some 32 →
    ∃ t x, exec (.kop sp kd ka kb tt) s = .next t ∧ Only s t ∧ t.group c.g = some x ∧
      Completes s t c { c.grp with k := x.k } noWord ∧
      MaskWritten t c kd.toNat fun l => tt.getLsbD
        ((if (c.k ka.toNat).getLsbD l then 2 else 0) + if (c.k kb.toNat).getLsbD l then 1 else 0))

/-- R64, R131, R146: a comparison writes one bit of kD for each executing lane, joined with kJ as JOP says; lanes that do
not execute keep theirs. The conditions hold as R64's table has them; of floating-point values NaN is unordered and the
two zeros are equal. -/
def Obligations.Comparisons : Prop :=
  let holds (i : Instr) (f : FmtK) (w : Nat) (cmp : Nat → Nat → Bool) : Prop :=
    ∀ s c, s.ctx = some c → (∀ l ∈ c.lanes, Readable c.regs (srcWords f.a l ++ srcWords f.b l)) →
      ∃ t x, exec i s = .next t ∧ Only s t ∧ t.group c.g = some x ∧
        Completes s t c { c.grp with k := x.k } noWord ∧ (∀ j, j ≠ f.kd.toNat → look 0 j x.k = look 0 j c.grp.k) ∧
        ∀ l, l < 32 → (look 0 f.kd.toNat x.k).getLsbD l =
          if l ∈ c.lanes ∧ c.frag.mask.getLsbD l = true ∧ l < c.grp.nlanes then
            let r := cmp (c.regs.operand f.a l w) (c.regs.operand f.b l w)
            let k := (c.k f.kj.toNat).getLsbD l
            match f.jop with
            | .none => r
            | .and => r && k
            | .or => r || k
            | .xor => r ^^ k
          else (look 0 f.kd.toNat c.grp.k).getLsbD l
  (∀ f, holds (.icmp f) f (if Ty.bitsOf f.ty = 64 then 64 else 32) fun a b =>
    condInt f.cond (tyVal f.ty a) (tyVal f.ty b)) ∧
  (∀ f, holds (.fcmp f) f 32 fun a b =>
    condFloat f.cond ((fread (Ty.fmt f.ty) false (a % 2 ^ (Ty.fmt f.ty).bits)).cmp
      (fread (Ty.fmt f.ty) false (b % 2 ^ (Ty.fmt f.ty).bits)))) ∧
  (∀ a b, condInt .eq a b = decide (a = b) ∧ condInt .ne a b = decide (a ≠ b) ∧ condInt .lt a b = decide (a < b) ∧
    condInt .le a b = decide (a ≤ b) ∧ condInt .gt a b = decide (b < a) ∧ condInt .ge a b = decide (b ≤ a)) ∧
  (∀ c, (condFloat c .lt = true ↔ c ∈ [.ne, .lt, .le, .ord, .neo, .ltu, .leu]) ∧
    (condFloat c .eq = true ↔ c ∈ [.eq, .le, .ge, .ord, .equ, .leu, .geu]) ∧
    (condFloat c .gt = true ↔ c ∈ [.ne, .gt, .ge, .ord, .neo, .gtu, .geu]) ∧
    (condFloat c .un = true ↔ c ∈ [.ne, .uno, .equ, .ltu, .leu, .gtu, .geu])) ∧
  (∀ a, El.cmp .nan a = .un ∧ El.cmp a .nan = .un) ∧
  (∀ m n, El.cmp (.inf m) (.inf n) = if m = n then .eq else if m then .lt else .gt) ∧
  (∀ d m n, El.cmp (.inf m) (.fin d n) = (if m then .lt else .gt) ∧
    El.cmp (.fin d n) (.inf m) = if m then .gt else .lt) ∧
  (∀ x y m n, let v (d : Dy) : Int := d.m * 2 ^ (d.e - min x.e y.e).toNat
    El.cmp (.fin x m) (.fin y n) = if v x < v y then .lt else if v y < v x then .gt else .eq)

/-! ## Exchanges -/

/-- R153, R158, R159: the moves between lanes: A of the lane that B or the permutation register names where that lane
executes, otherwise C of the lane itself. The lane that a permutation register names is found from the last stage of
its switches to the first.
R154, R155, R156: scans and reductions carry a segment's first value through its executing lanes in ascending
order; a vote looks at all of them. -/
def Obligations.LaneMovesScansAndVotes : Prop :=
  (let pick (f : FmtT) (r : RegFile) (ls : List Nat) (l : Nat) (src : Int) : Nat :=
     if 0 ≤ src ∧ src.toNat ∈ ls then r.operand f.a src.toNat (dBits f.d) else r.operand f.c l (dBits f.d)
   let b (f : FmtT) (r : RegFile) (l : Nat) : Nat := r.operand f.b l 32 % 2 ^ 32
   let reads (f : FmtT) (l : Nat) : List (Bank × Nat) := srcWords f.a l ++ srcWords f.b l ++ srcWords f.c l
   (∀ f, Exchanges (.xshf f) f (reads f) fun _ r ls l =>
     pick f r ls l (if f.fn = 0 then (l : Int) - b f r l else (l : Int) + b f r l)) ∧
   (∀ f, Exchanges (.xrot f) f (reads f) fun _ r ls l =>
     pick f r ls l ((if f.fn = 0 then (l : Int) - b f r l else (l : Int) + b f r l) % 32)) ∧
   (∀ f, Exchanges (.xbfly f) f (reads f) fun _ r ls l => pick f r ls l ((l ^^^ b f r l % 32 : Nat) : Int)) ∧
   (∀ f, Exchanges (.xbcst f) f (reads f) fun _ r ls l => pick f r ls l ((b f r l % 32 : Nat) : Int)) ∧
   (∀ f, Exchanges (.xperm f) f (fun l => srcWords f.a l ++ srcWords f.c l) fun c r ls l =>
     pick f r ls l (((benes (look 0 f.fn.toNat c.grp.xc).toNat).getD l 0 : Nat) : Int)) ∧
   (∀ x i, i < 32 → (benes x).getD i 0 = (List.range 9).foldr (fun stage p =>
     let b := if stage ≤ 4 then 4 - stage else stage - 4
     let switch := p / 2 ^ (b + 1) * 2 ^ b + p % 2 ^ b
     if x.testBit (16 * stage + switch) then p ^^^ 2 ^ b else p) i)) ∧
  (let seg (f : FmtT) (ls : List Nat) (l : Nat) : List Nat :=
     ls.filter fun j => j / ctlSeg f = l / ctlSeg f
   let through (f : FmtT) (r : RegFile) (ls : List Nat) : Option Nat :=
     match ls with
     | [] => none
     | j :: js => some (js.foldl (fun x k => scanOp (ctlOp f) x (r.operand f.a k 32)) (r.operand f.a j 32))
   (∀ f, Exchanges (.xscan f) f (srcWords f.a) fun _ r ls l =>
     (through f r ((seg f ls l).filter fun j => if f.fn = 0 then decide (j ≤ l) else decide (j < l))).getD
       (scanId (ctlOp f))) ∧
   (∀ f, Exchanges (.xred f) f (srcWords f.a) fun _ r ls l =>
     (through f r (if f.d.isS then ls else seg f ls l)).getD 0) ∧
   (∀ f, Exchanges (.vote f) f (srcWords f.a) fun _ r ls _ =>
     let val (j : Nat) : Nat := r.operand f.a j 32
     if f.fn = 0 then (maskOf (ls.filter fun j => val j != 0)).toNat
     else if f.fn = 1 then (if ∃ j ∈ ls, val j ≠ 0 then 1 else 0)
     else if f.fn = 2 then (if ∀ j ∈ ls, val j ≠ 0 then 1 else 0)
     else if ∀ j ∈ ls, val j = val (ls.headD 0) then 1 else 0) ∧
   (∀ a b, let num (g : El → El → El) : Nat :=
       fround f32 .rne false false (g (fread f32 false a) (fread f32 false b))
     scanOp 0x0 a b = (a + b) % 2 ^ 32 ∧ scanOp 0x1 a b = num (El.add .rne) ∧
     scanOp 0x2 a b = (if sgn a 32 ≤ sgn b 32 then a else b) ∧ scanOp 0x3 a b = (if sgn a 32 ≤ sgn b 32 then b else a) ∧
     scanOp 0x4 a b = (if a ≤ b then a else b) ∧ scanOp 0x5 a b = (if a ≤ b then b else a) ∧
     scanOp 0x6 a b = num El.minNum ∧ scanOp 0x7 a b = num El.maxNum ∧ scanOp 0x8 a b = a &&& b ∧
     scanOp 0x9 a b = a ||| b ∧ scanOp 0xA a b = a ^^^ b) ∧
   (List.range 11).map scanId =
     [0, 0, 0x7FFFFFFF, 0x80000000, 0xFFFFFFFF, 0, 0x7FC00000, 0x7FC00000, 0xFFFFFFFF, 0, 0])

/-- R157: MATCH gives each executing lane the set of executing lanes whose key equals its own; with a mask
register named, that register gets the lowest lane of each set.
R158, R160, R161: XSET takes bits 143:0 of five s registers, or of 20 bytes of the scratchpad that nothing orders
before it; XGEN takes the setting that the routing algorithm gives for a permutation of the lanes: the lowest lane that names a
position gets it, and each other lane, ascending, the lowest position that is then left. -/
def Obligations.MatchAndPermutationRegisters : Prop :=
  (∀ f s c, s.ctx = some c → f.d.isS = false → c.lanes ≠ [] →
     (∀ l ∈ c.lanes, Readable c.regs (srcWords f.a l)) →
     let same (i j : Nat) : Bool := keyEq (f.fn.getLsbD 0)
       (c.regs.operand f.a i (32 * Width.count f.a.width)) (c.regs.operand f.a j (32 * Width.count f.a.width))
     ∃ t x, exec (.xmatch f) s = .next t ∧ Only s t ∧ t.group c.g = some x ∧
       Completes s t c { c.grp with k := x.k }
         (fun w => f.m.nwb = false ∧ ∃ l ∈ c.lanes, w ∈ dstWords f.d l) ∧
       (f.m.nwb = false → ∀ l ∈ c.lanes, ∀ j, j < 32 →
         ((t.regsOf c.g c.t).value (dstWords f.d l)).testBit j = (decide (j ∈ c.lanes) && same l j)) ∧
       (f.fn.getLsbD 1 = false → x.k = c.grp.k) ∧
       (f.fn.getLsbD 1 = true → ∀ l ∈ c.lanes, l < c.grp.nlanes →
         (look 0 (f.b.num.toNat % 8) x.k).getLsbD l = decide (∀ j ∈ c.lanes, j < l → same l j = false))) ∧
  ((∀ sp xd sn s c, s.ctx = some c → c.run.cursor ≠ some 32 →
     SReadable c ((List.range 5).map (sn.toNat + ·)) →
     ∃ t, exec (.xset sp xd false sn) s = .next t ∧ Only s t ∧
       Completes s t c { c.grp with xc := put 0 xd.toNat (BitVec.ofNat 160
         (c.regs.value ((List.range 5).map fun j => (Bank.s, sn.toNat + j)) % 2 ^ 144)) c.grp.xc } noWord) ∧
   (∀ sp xd sn s c, s.ctx = some c → c.run.cursor ≠ some 32 → SReadable c [sn.toNat] →
     scratchCheck c.team.size (c.sOf sn.toNat).toNat 20 4 = none →
     s.holdsBack c.core c.grid.part c.team c.grp.memq ⟨.scratch, (c.sOf sn.toNat).toNat, 20⟩ = false →
     (s.core c.core).fifoTouch (c.team.base + (c.sOf sn.toNat).toNat) 20 = false →
     ∃ t, exec (.xset sp xd true sn) s = .next t ∧ Only s t ∧
       Completes s t c { c.grp with xc := put 0 xd.toNat (BitVec.ofNat 160
         (leNat (s.scrRead c.core (c.team.base + (c.sOf sn.toNat).toNat) 20) % 2 ^ 144)) c.grp.xc }
         noWord) ∧
   (∀ sp xd a s c, s.ctx = some c → c.lanes ≠ [] →
     (∀ l ∈ c.lanes, Readable c.regs [(.v, vkey a.toNat l)]) →
     ∃ t, exec (.xgen sp xd a) s = .next t ∧ Only s t ∧
       Completes s t c { c.grp with xc := put 0 xd.toNat (xcOf (placeLanes
         (fun l => (c.regs.get .v (vkey a.toNat l)).val.toNat % 32) c.lanes)) c.grp.xc } noWord) ∧
   (∀ dest ls, (∀ l, dest l < 32) → (∀ l ∈ ls, l < 32) → ls.Pairwise (· < ·) →
     let p := placeLanes dest ls
     let first (l : Nat) : Prop := l ∈ ls ∧ ∀ j ∈ ls, j < l → dest j ≠ dest l
     p.length = 32 ∧ (∀ q, q < 32 → q ∈ p) ∧ (∀ l, first l → p.getD l 32 = dest l) ∧
     ∀ i j, i < j → j < 32 → ¬ first i → ¬ first j → p.getD i 32 < p.getD j 32))

/-! ## Control flow -/

/-- R163, R165, R172 to R175: the transfers of a whole fragment. BRA takes its target where its condition on the
fragment's lanes holds, and goes on otherwise; CALL sets the reconvergence address where RCV is not zero and
counts the depth; a uniform RET or JMPI goes to the pair it reads; RECON sets the reconvergence address
alone, at its own step (log 67); EXIT gives up the fragment's lanes and its entry. At a resume-lane cursor of 32 (R323)
BRA, CALL, RECON and EXIT count as complete. -/
def Obligations.WholeFragmentTransfers : Prop :=
  (∀ sp op ks tgt s c, s.ctx = some c → c.run.cursor ≠ some 32 →
    (braTaken op c.k0 (c.k ks.toNat) = true → ∃ t, exec (.bra sp op ks tgt) s = .next t ∧ Only s t ∧
      TransfersTo s t c (c.target tgt) c.frag.rcv c.frag.depth) ∧
    (braTaken op c.k0 (c.k ks.toNat) = false → ∃ t, exec (.bra sp op ks tgt) s = .next t ∧ Only s t ∧
      Completes s t c c.grp noWord) ∧
    (braTaken op c.k0 (c.k ks.toNat) = true ↔ (match op with
      | .always => True
      | .any => ∃ l ∈ lanesOf c.k0, (c.k ks.toNat).getLsbD l = true
      | .all => c.k0 ≠ 0 ∧ ∀ l ∈ lanesOf c.k0, (c.k ks.toNat).getLsbD l = true
      | .none => ∀ l ∈ lanesOf c.k0, (c.k ks.toNat).getLsbD l = false))) ∧
  (∀ sp tgt rcv s c, s.ctx = some c → c.run.cursor ≠ some 32 → ∃ t, exec (.call sp tgt rcv) s = .next t ∧ Only s t ∧
    TransfersTo s t c (c.target tgt) (if rcv = 0 then c.frag.rcv else c.target rcv) (c.frag.depth + 1)) ∧
  (∀ sp a s c, s.ctx = some c → a.kind = .s → c.run.cursor ≠ some 32 → Readable c.regs (srcWords a 0) →
    (∃ t, exec (.ret sp a) s = .next t ∧ Only s t ∧
      TransfersTo s t c (BitVec.ofNat 57 (c.regs.operand a 0 64)) c.frag.rcv (c.frag.depth - 1)) ∧
    ∃ t, exec (.jmpi sp a) s = .next t ∧ Only s t ∧
      TransfersTo s t c (BitVec.ofNat 57 (c.regs.operand a 0 64)) c.frag.rcv c.frag.depth) ∧
  (∀ sp rcv s c, s.ctx = some c → c.run.cursor ≠ some 32 → sp = false → c.run.pos < c.run.words.length →
    ∃ t x f, exec (.recon sp rcv) s = .next t ∧ Only s t ∧ t.group c.g = some x ∧
      find c.run.entry x.split = some f ∧ f.rcv = c.target rcv ∧ f.mask = c.frag.mask ∧
      f.depth = c.frag.depth ∧ f.pc = c.frag.pc) ∧
  (∀ sp s c, s.ctx = some c → c.run.cursor ≠ some 32 → ∃ t x, exec (.exit sp) s = .next t ∧ Only s t ∧ t.group c.g = some x ∧
    find c.run.entry x.split = none ∧ (t.track c.t).run = none ∧
    ∀ j, j < 8 → look 0 j x.k = look 0 j c.grp.k &&& ~~~c.frag.mask) ∧
  (∀ sp op ks tgt rcv s c, s.ctx = some c → c.run.cursor = some 32 →
    ∀ i ∈ [Instr.bra sp op ks tgt, .call sp tgt rcv, .recon sp rcv, .exit sp],
      ∃ t, exec i s = .next t ∧ Only s t ∧ Completes s t c c.grp noWord)

/-- R167 to R169, R174, R179: the transfers whose lanes choose their own targets. Where the split table has room
for the targets, every active lane comes to an entry that stands at its own target. -/
def Obligations.LanesReachTheirTargets : Prop :=
  (∀ sp ks tgt rcv s c, s.ctx = some c →
    let target (l : Nat) : VAddr :=
      if l ∈ c.lanes ∧ (c.k ks.toNat).getLsbD l = true then c.target tgt else c.nextHdr
    (targetsOf c.frag.mask ((lanesOf c.k0).map fun l => (l, target l))).length ≤
      c.grp.freeEntries.length →
    ∃ t, exec (.braSplit sp ks tgt rcv) s = .next t ∧ Only s t ∧ (t.track c.t).run = none ∧
      LanesReach t c target) ∧
  (∀ sp n a dflt rcv s c, s.ctx = some c →
    (∀ l ∈ c.lanes, Readable c.regs (srcWords a l)) →
    let target (l : Nat) : VAddr :=
      match (c.cases n).find? fun x => decide (l ∈ c.lanes) && x.value.toNat == c.regs.operand a l 32 with
      | some x => c.target x.target
      | none => c.target dflt
    (targetsOf c.frag.mask ((lanesOf c.k0).map fun l => (l, target l))).length ≤
      c.grp.freeEntries.length →
    ∃ t, exec (.switch sp n a dflt rcv) s = .next t ∧ Only s t ∧ (t.track c.t).run = none ∧
      LanesReach t c target) ∧
  (∀ sp a s c, s.ctx = some c → a.kind ≠ .s →
    (∀ l ∈ c.lanes, Readable c.regs (srcWords a l)) →
    let target (l : Nat) : VAddr :=
      if l ∈ c.lanes then BitVec.ofNat 57 (c.regs.operand a l 64) else c.nextHdr
    (targetsOf c.frag.mask ((lanesOf c.k0).map fun l => (l, target l))).length ≤
      c.grp.freeEntries.length →
    (∃ t, exec (.ret sp a) s = .next t ∧ Only s t ∧ (t.track c.t).run = none ∧ LanesReach t c target) ∧
    ∃ t, exec (.jmpi sp a) s = .next t ∧ Only s t ∧ (t.track c.t).run = none ∧ LanesReach t c target)

/-- R176, R177, R44: YIELD and SLEEP with a count put the fragment to wait until so many clauses or steps of the
track, or until a value of the core's cycle counter; with a count of zero they only end the clause. The
waits end when that has come, and not before. At a resume-lane cursor of 32 (R323) both count as complete.
The end of a wait is an event of the schedule, between two clauses of the track (R180, log 3, log 38). -/
def Obligations.YieldsAndSleeps : Prop :=
  let waits (i : Instr) (w : Ctx → State → Wait) : Prop := ∀ s c, s.ctx = some c → c.run.cursor ≠ some 32 →
    ∃ t x f, exec i s = .next t ∧ Only s t ∧ (t.track c.t).run = none ∧ t.group c.g = some x ∧
      find c.run.entry x.split = some f ∧ f.state = .waiting ∧ f.wait = w c s ∧ f.mask = c.frag.mask ∧
      x.k = c.grp.k
  (∀ sp (n : BitVec 6), n ≠ 0 → waits (.yield sp n) fun c _ =>
    .yield (c.trk.clauses + n.toNat) (c.trk.steps + 1 + 4 * n.toNat)) ∧
  (∀ sp (n : Word), n ≠ 0 → waits (.sleep sp n) fun c s =>
    .sleep ((s.core c.core).cycle.toNat + n.toNat)) ∧
  (∀ sp s c, s.ctx = some c → c.run.cursor ≠ some 32 →
    (∃ t, exec (.yield sp 0) s = .next t ∧ Only s t ∧
      TransfersTo s t c c.nextHdr c.frag.rcv c.frag.depth) ∧
    ∃ t, exec (.sleep sp 0) s = .next t ∧ Only s t ∧
      TransfersTo s t c c.nextHdr c.frag.rcv c.frag.depth) ∧
  (∀ sp n m s c, s.ctx = some c → c.run.cursor = some 32 → ∀ i ∈ [Instr.yield sp n, .sleep sp m],
    ∃ t, exec i s = .next t ∧ Only s t ∧ Completes s t c c.grp noWord) ∧
  (∀ g e s x, s.group g = some x → x.resid = .bound → ∀ f, find e x.split = some f → f.state = .waiting →
    ∀ til, f.wait = .sleep til →
    ((s.track x.track).run = none → til ≤ (s.core (coreOf x.track)).cycle.toNat → ∃ t, exec (.sleepExpiry g e) s = .next t ∧
      t = s.setGroup g (x.setFrag e { f with state := .ready, wait := .none })) ∧
    ((s.core (coreOf x.track)).cycle.toNat < til → ∃ why, exec (.sleepExpiry g e) s =
      .refused (.notEnabled why))) ∧
  (∀ g e s x, s.group g = some x → x.resid = .bound → ∀ f, find e x.split = some f → f.state = .waiting →
    ∀ n m, f.wait = .yield n m →
    ((s.track x.track).run = none → n ≤ (s.track x.track).clauses ∨ m ≤ (s.track x.track).steps → ∃ t,
      exec (.yieldExpiry g e) s = .next t ∧
      t = s.setGroup g (x.setFrag e { f with state := .ready, wait := .none })) ∧
    ((s.track x.track).clauses < n ∧ (s.track x.track).steps < m → ∃ why,
      exec (.yieldExpiry g e) s = .refused (.notEnabled why)))

/-! ## Exceptions -/

/-- R322, R326, R178: TRAP enters the handler with kind 0x09, its code as information, and the header that follows
as the place to resume; so does BKPT with kind 0x08 where the group traps, and otherwise it is a YIELD 0.
A TRAP of a group that does not trap aborts its grid. At a resume-lane cursor of 32 both count as complete (R323). -/
def Obligations.TrapsEnterTheHandler : Prop :=
  (∀ sp code s c, s.ctx = some c → c.run.cursor ≠ some 32 → ∃ t, exec (.trap sp code) s = .next t ∧
    (t.track c.t).steps = c.trk.steps + 1 ∧
    Faults s t c 0x09 0 (resumePair c.nextHdr 0) (code.setWidth 64)) ∧
  (∀ sp code s c, s.ctx = some c → c.run.cursor ≠ some 32 →
    (s.traps c.grp 0x08 = true → ∃ t, exec (.bkpt sp code) s = .next t ∧
      Faults s t c 0x08 0 (resumePair c.nextHdr 0) (code.setWidth 64)) ∧
    (s.traps c.grp 0x08 = false → ∃ t, exec (.bkpt sp code) s = .next t ∧ Only s t ∧
      TransfersTo s t c c.nextHdr c.frag.rcv c.frag.depth)) ∧
  (∀ sp code s c, s.ctx = some c → c.run.cursor = some 32 → ∀ i ∈ [Instr.trap sp code, .bkpt sp code],
      ∃ t, exec i s = .next t ∧ Only s t ∧ Completes s t c c.grp noWord) ∧
  (∀ (s : State) (x : Group) kind, s.traps x kind = true ↔
    x.trapvec ≠ 0 ∧ x.fltstat.getLsbD 13 = false ∧ kind ≠ 7 ∧
    ∀ g, s.grid x.grid = some g → g.firmware = false)

/-- R323: ERET of a privileged group leaves privileged mode, releases the held entries and continues at the header
and word of TRAPINFO; from word 0 on as a fresh arrival, otherwise with the resumed instruction at the
resume-lane cursor, or counted complete where FLTSTAT says so. -/
def Obligations.EretReturnsFromTheHandler : Prop :=
  ∀ sp s c, s.ctx = some c → s.privileged c.grp = true → c.run.cursor ≠ some 32 →
    let w := fld ((look 0 1 c.grp.trapinfo).toNat) 25 5
    ∃ t x f, exec (.eret sp) s = .next t ∧ Only s t ∧ t.group c.g = some x ∧ (t.track c.t).run = none ∧
      x.fltstat.getLsbD 13 = false ∧ x.fltstat.getLsbD 15 = false ∧
      (∀ i, i ≠ 13 → i ≠ 15 → x.fltstat.getLsbD i = c.grp.fltstat.getLsbD i) ∧
      find c.run.entry x.split = some f ∧ f.state = .ready ∧ f.held = c.frag.held ∧ f.mask = c.frag.mask ∧
      f.pc.toNat = ((look 0 0 c.grp.trapinfo).toNat + (look 0 1 c.grp.trapinfo).toNat * 2 ^ 32) % 2 ^ 57 ∧
      f.word = w ∧
      (w ≠ 0 → f.cursor = some (if c.grp.fltstat.getLsbD 15 then 32 else fld c.grp.fltstat.toNat 8 5)) ∧
      (w = 0 → f.cursor = none ∧ f.fresh = true) ∧
      (∀ e f', e ≠ c.run.entry → find e x.split = some f' → f'.held = false)

/-- R118, R323 to R325, R327: RDSR, WRSR, ERET and TLBI are privileged: a group that is not privileged takes the
precise privilege fault, kind 0x04, at the instruction, unless the resume-lane cursor of 32 counts the instruction
complete, of any group. -/
def Obligations.PrivilegedInstructionsFault : Prop :=
  ∀ i, (∃ sp d sr, i = .rdsr sp d sr) ∨ (∃ sp a sr, i = .wrsr sp a sr) ∨ (∃ sp, i = .eret sp) ∨
      (∃ sp isl sb sa, i = .tlbiPage sp isl sb sa) ∨ (∃ sp isl sb, i = .tlbiPart sp isl sb) →
    ∀ s c, s.ctx = some c →
      (s.privileged c.grp = false → c.run.cursor ≠ some 32 →
        ∃ t, exec i s = .next t ∧ Faults s t c 0x04 0 (resumePair c.run.hdr c.resumeWord) 0) ∧
      (c.run.cursor = some 32 →
        (∀ sp, i = .eret sp → ∃ t, exec i s = .next t ∧ Only s t ∧ TransfersTo s t c c.nextHdr c.frag.rcv c.frag.depth) ∧
        ((∀ sp, i ≠ .eret sp) → ∃ t, exec i s = .next t ∧ Only s t ∧ Completes s t c c.grp noWord))

/-- R30, R119, R120: a lane that meets an uncorrectable word takes the register-file-error fault, kind 0x06, with the
cursor at that lane. Stated of the integer, bit, floating-point, packed and special instructions of format T, of IADDI, CVT
and the comparisons.
R319, R320, R419: the record of a TRAP, in a ring that lies in island HBM or in host memory: its fields at their offsets
and its phase byte at the ring's slot of the running index, as the device reads memory, where the device can store to the
slot's line (log 14). -/
def Obligations.UncorrectableWordsFaultAndAreRecorded : Prop :=
  (let bad (r : RegFile) (ws : List (Bank × Nat)) : Prop :=
     ∃ p ∈ ws, (r.get p.1 p.2).ecc = .double ∨ (r.get p.1 p.2).ecc = .poisoned
   let faults (i : Instr) (reads : Nat → List (Bank × Nat)) : Prop :=
     ∀ s c, s.ctx = some c → c.run.pfx = none → ∀ j ∈ c.lanes,
       (∀ l ∈ c.lanes, l < j → Readable c.regs (reads l)) → bad c.regs (reads j) →
       ∃ t, exec i s = .next t ∧ Faults s t c 0x06 j (resumePair c.run.hdr c.run.pos) 0
   (∀ f, f.m.uni = false → f.d.isS = false → ∀ mk ∈ [Instr.mov, .ineg, .iabs, .not, .popc, .clz, .ctz, .brev, .frnd,
       .sqrt, .fclass, .rcp, .rsq, .exp2, .log2, .sinr, .cosr, .tanh, .spread],
     faults (mk f) (srcWords f.a)) ∧
   (∀ f, f.m.uni = false → f.d.isS = false → ∀ mk ∈ [Instr.iadd, .isub, .imul, .imulh, .idiv, .irem, .imin, .imax, .lea,
       .and, .or, .xor, .andn, .shl, .shr, .sar, .rol, .bfx, .fadd, .fsub, .fmul, .fmin, .fmax, .fdiv, .hadd2, .hmul2,
       .hmin2, .hmax2, .pack, .isel],
     faults (mk f) fun l => srcWords f.a l ++ srcWords f.b l) ∧
   (∀ f, f.m.uni = false → f.d.isS = false → ∀ mk ∈ [Instr.imad, .iadd3, .isad, .iclamp, .imadw, .fshl, .fshr, .bfi, .bytp,
       .ffma, .hfma2, .dot2, .dot4, .idot4],
     faults (mk f) fun l => srcWords f.a l ++ srcWords f.b l ++ srcWords f.c l) ∧
   (∀ f, f.m.uni = false → f.d.isS = false → faults (.iaddi f) (srcWords f.a) ∧
     ∀ v : FmtV, v.m.uni = false → v.d.isS = false → faults (.cvt v) (srcWords v.a)) ∧
   (∀ f : FmtK, ∀ mk ∈ [Instr.icmp, .fcmp], faults (mk f) fun l => srcWords f.a l ++ srcWords f.b l)) ∧
  (∀ sp code s c, s.ctx = some c → c.run.cursor ≠ some 32 → s.fqReady = true →
     s.sys.fqbase.toNat % 64 = 0 →
     (s.sys.fqbase.toNat / 2 ^ 48 = 0 ∧ s.tokenLine s.fqLine = true) ∨
       (s.sys.fqbase.toNat / 2 ^ 48 = 1 ∧ s.sys.fqbase.toNat % 2 ^ 48 + 2 ^ 18 ≤ 2 ^ 48 ∧ s.devStores = []) →
     ∃ t, exec (.trap sp code) s = .next t ∧ t.sys.fqtail = s.sys.fqtail + 1 ∧
       let n := s.sys.fqtail.toNat
       let a := s.sys.fqbase.toNat + 64 * (n % 4096)
       let rd (o k : Nat) : Nat := t.physNat (a + o) k
       let tr := s.traps c.grp 9
       rd 0 1 = 9 ∧
       rd 1 1 = 2 + (if tr then 4 else 8) + (if s.privileged c.grp then 64 else 0) ∧ rd 2 1 = 0 ∧
       rd 3 1 = (dieOf (coreOf c.grp.track) + coreOf c.grp.track % 24 * 8) % 256 ∧
       rd 4 4 = c.grid.ring % 2 ^ 32 ∧ rd 8 2 = c.grid.queue % 2 ^ 16 ∧ rd 0x0A 1 = c.grp.idx % 256 ∧
       rd 0x0B 1 = 0 ∧ rd 0x0C 4 = teamIndex c.grid c.team % 2 ^ 32 ∧ rd 0x10 8 = c.iaddr ∧ rd 0x18 8 = 0 ∧
       rd 0x20 4 = 0 ∧ rd 0x24 4 = 0 ∧ rd 0x28 8 = 0 ∧
       rd 0x30 4 = (s.core (coreOf c.grp.track)).cycle.toNat % 2 ^ 32 ∧ rd 0x34 11 = 0 ∧
       rd 0x3F 1 = n / 4096 % 2 * 128)

/-- R328: an SVC with a ticket free and its blocks readable parks the group: the call holds the lanes, the number and
16 words of each active lane; one free ticket is taken; the fragment stands at the next clause. With no
free ticket it waits for one.
Which free ticket is taken is a free value (log 16). -/
def Obligations.ServiceCallsParkTheGroup : Prop :=
  ∀ sp sd va no s c, s.ctx = some c → c.run.cursor = none →
    (∀ l ∈ c.lanes, Readable c.regs (svcWords va.toNat l)) →
    (s.freeTickets ≠ [] → ∃ t x call f, exec (.svc sp sd va no) s = .next t ∧ t.group c.g = some x ∧
      x.svc = some call ∧ x.preempt = true ∧ x.reason = 3 ∧ call.lanes = c.k0 ∧ call.no = no ∧
      call.sd = sd.toNat ∧ call.ticket ∈ s.freeTickets ∧ find call.ticket t.tickets = some c.g ∧
      call.blocks = (lanesOf c.k0).map (fun l => (svcWords va.toNat l).map fun w => (c.regs.get w.1 w.2).val) ∧
      (t.track c.t).run = none ∧ find c.run.entry x.split = some f ∧ f.pc = c.nextHdr ∧
      t.mem = s.mem ∧ t.sys = s.sys) ∧
    (s.freeTickets = [] → ∃ t x f, exec (.svc sp sd va no) s = .next t ∧ t.group c.g = some x ∧
      find c.run.entry x.split = some f ∧ f.state = .waiting ∧ f.wait = .ticket ∧ Only s t)

/-! ## Memory instructions -/

/-- R235 to R240, R242, R243: the loads and stores hand one record over, with the bytes of D's width or of the
instruction; quad and octet accesses are one for each aligned 8-byte part. Nothing else changes: no byte of memory
does. -/
def Obligations.LoadsAndStoresHandOver : Prop :=
  let size (n : Nat) : Nat := min n 8
  let parts (n : Nat) : Nat := if n ≤ 8 then 1 else n / 8
  let ld (mk : FmtM → Instr) (e : Ext) (n : FmtM → Nat) : Prop := ∀ f,
    HandsOver (mk f) f.m ⟨.load e, .global, size (n f), parts (n f), f.order, f.scope, f.na, some f.d,
      some f.sb.toNat⟩ (srcWords f.base) (ea64 f.base f.off) (fun _ => globalCheck (n f))
      (fun _ _ => List.replicate (n f) 0)
  let st (mk : FmtM → Instr) (n : FmtM → Nat) : Prop := ∀ f,
    HandsOver (mk f) f.m ⟨.store, .global, size (n f), parts (n f), f.order, f.scope, false, none, none⟩
      (fun l => srcWords f.base l ++ dstWords f.d l) (ea64 f.base f.off) (fun _ => globalCheck (n f))
      (fun r l => leBytes (n f) (r.value (dstWords f.d l)))
  let wide (f : FmtM) : Nat := 4 * Width.count f.d.width
  ld .ld .plain wide ∧ ld .ldsb .sext (fun _ => 1) ∧ ld .ldzb .zext (fun _ => 1) ∧
  ld .ldsh .sext (fun _ => 2) ∧ ld .ldzh .zext (fun _ => 2) ∧ st .st wide ∧ st .stb (fun _ => 1) ∧
  st .sth (fun _ => 2) ∧
  (∀ f, HandsOver (.ldl f) f.m ⟨.load .plain, .scratch, size (wide f), parts (wide f), f.order, f.scope, f.na,
      some f.d, some f.sb.toNat⟩ (srcWords f.base) (ta32 f.base f.off)
      (fun c a => scratchCheck c.team.size a (wide f) (wide f)) (fun _ _ => List.replicate (wide f) 0)) ∧
  (∀ f, HandsOver (.stl f) f.m ⟨.store, .scratch, size (wide f), parts (wide f), f.order, f.scope, false, none,
      none⟩ (fun l => srcWords f.base l ++ dstWords f.d l) (ta32 f.base f.off)
      (fun c a => scratchCheck c.team.size a (wide f) (wide f))
      (fun r l => leBytes (wide f) (r.value (dstWords f.d l)))) ∧
  (∀ f, HandsOver (.ldc f) f.m ⟨.load .plain, .cluster, size (wide f), parts (wide f), f.order, f.scope, f.na,
      some f.d, some f.sb.toNat⟩ (srcWords f.base) (ta32 f.base f.off)
      (fun c => clusterCheck (c.grid.rows * c.grid.cols) c.grid.scr (wide f))
      (fun _ _ => List.replicate (wide f) 0)) ∧
  (∀ f, HandsOver (.stc f) f.m ⟨.store, .cluster, size (wide f), parts (wide f), f.order, f.scope, false, none,
      none⟩ (fun l => srcWords f.base l ++ dstWords f.d l) (ta32 f.base f.off)
      (fun c => clusterCheck (c.grid.rows * c.grid.cols) c.grid.scr (wide f))
      (fun r l => leBytes (wide f) (r.value (dstWords f.d l))))

/-- R247, R248, R251, R253, R366: the atomics hand over an access of their type's size with the bytes of B, two values
for a compare and swap; FENCE and the whole-cache forms of CCTL hand over one access without an address; CCTL and
PREF one for each lane. -/
def Obligations.AtomicsAndCacheControlHandOver : Prop :=
  let at_ (mk : FmtA → Instr) (glob : Bool) (kind : FmtA → MemKind) (ret : Bool) (m : Nat) : Prop := ∀ f,
    let n := Ty.bitsOf f.ty / 8
    HandsOver (mk f) f.m ⟨kind f, if glob then .global else .scratch, n, 1, f.order, f.scope, false,
      if ret then some f.d else none, if ret then some 7 else none⟩
      (fun l => srcWords f.base l ++ srcWords f.b l) (if glob then ea64 f.base 0 else ta32 f.base 0)
      (fun c a => if glob then globalCheck n a else scratchCheck c.team.size a n n)
      (fun r l => leBytes (m * n) (r.operand f.b l (8 * n)))
  at_ .atom true (fun f => .atom f.aop f.ty true) true 1 ∧
  at_ .atoml false (fun f => .atom f.aop f.ty true) true 1 ∧
  at_ .cas true (fun f => .cas f.ty) true 2 ∧ at_ .casl false (fun f => .cas f.ty) true 2 ∧
  at_ .red true (fun f => .atom f.aop f.ty false) false 1 ∧
  (∀ sp sem scope, HandsOver (.fence sp sem scope) ⟨sp, true⟩
    ⟨.fence sem, .scratch, 0, 1, .weak, scope, false, none, none⟩ (fun _ => []) (fun _ _ => 0)
    (fun _ _ => none) (fun _ _ => [])) ∧
  (∀ f, f.cop = .ivc ∨ f.cop = .ivi → HandsOver (.cctl f) f.m
    ⟨.cctl f.cop, .global, 0, 1, .weak, .core, false, none, some f.sb.toNat⟩ (srcWords f.base)
    (ea64 f.base f.off) (fun _ a => if canonical a then none else some 0x13) (fun _ _ => [])) ∧
  (∀ f, f.cop = .ivcall ∨ f.cop = .iviall → HandsOver (.cctl f) ⟨f.m.sp, true⟩
    ⟨.cctl f.cop, .global, 0, 1, .weak, .core, false, none, some f.sb.toNat⟩ (fun _ => [])
    (fun _ _ => 0) (fun _ _ => none) (fun _ _ => [])) ∧
  (∀ f, HandsOver (.pref f) f.m ⟨.pref f.x, .global, 0, 1, .weak, .core, f.na, none, none⟩ (srcWords f.base)
    (ea64 f.base f.off) (fun _ a => if canonical a then none else some 0x13) (fun _ _ => []))

/-- R254, R255: the FIFO forms hand over an access to the bank that their address names, which lies wholly within the
team's allocation. -/
def Obligations.FifoFormsHandOver : Prop :=
  let ff (mk : FmtF → Instr) (kind : MemKind) (n : FmtF → Nat) (dst : FmtF → Option Dst)
      (sb : FmtF → Option Nat) (reads : FmtF → Nat → List (Bank × Nat)) : Prop := ∀ f,
    HandsOver (mk f) f.m ⟨kind, .fifo, n f, 1, .weak, .core, false, dst f, sb f⟩
      (fun l => srcWords f.base l ++ reads f l) (fun r l => r.operand f.base l 32)
      (fun c t => let b := (c.team.base + t) / 65536
        if c.team.base ≤ b * 65536 ∧ (b + 1) * 65536 ≤ c.team.base + c.team.size then none else some 0x11)
      (fun r l => leBytes (n f) (r.value (dstWords f.d l)))
  let wide (f : FmtF) : Nat := 4 * Width.count f.d.width
  ff .fpush .push wide (fun _ => none) (fun _ => none) (fun f => dstWords f.d) ∧
  ff .fpushOn .pushOn (fun _ => 0) (fun _ => none) (fun _ => none) (fun _ _ => []) ∧
  ff .fpop .pop wide (fun f => some f.d) (fun f => some f.sb.toNat) (fun _ _ => []) ∧
  ff .fpopOff .popOff (fun _ => 0) (fun _ => none) (fun _ => none) (fun _ _ => []) ∧
  ff .fpopCount .popCount (fun _ => 4) (fun f => some f.d) (fun f => some f.sb.toNat) (fun _ _ => [])

/-- R238, R239, R30: the first lane whose address fails a check faults: region, kind 0x13, then alignment, kind 0x10,
for a global address; bounds, kind 0x11, then alignment for a scratchpad address. The cursor is that lane;
with UNI it is 0. -/
def Obligations.AddressFaults : Prop :=
  let faults (i : Instr) (uni : Bool) (reads : Nat → List (Bank × Nat)) (addr : RegFile → Nat → Nat)
      (kind : Ctx → Nat → Option Nat) (sb : Option Nat) : Prop :=
    ∀ s c, s.ctx = some c → (∀ n, sb = some n → look 0 n c.grp.sb ≠ 255) →
      (uni = true → c.run.cursor ≠ some 32) → ∀ j ∈ c.memLanes uni,
      (∀ l ∈ c.memLanes uni, l ≤ j → Readable c.regs (reads l)) →
      (∀ l ∈ c.memLanes uni, l < j → kind c (addr c.regs l) = none) → ∀ k, kind c (addr c.regs j) = some k →
      ∃ t, exec i s = .next t ∧ Faults s t c k (if uni then 0 else j)
        (resumePair c.run.hdr c.resumeWord) (BitVec.ofNat 64 (addr c.regs j))
  let glob (n : Nat) (_ : Ctx) (a : Nat) : Option Nat :=
    if canonical a = false then some 0x13 else if a % n ≠ 0 then some 0x10 else none
  let scr (n : Nat) (c : Ctx) (a : Nat) : Option Nat :=
    if c.team.size < a + n then some 0x11 else if a % n ≠ 0 then some 0x10 else none
  (∀ f, faults (.ld f) f.m.uni (srcWords f.base) (ea64 f.base f.off) (glob (4 * Width.count f.d.width))
    (some f.sb.toNat)) ∧
  (∀ f, faults (.sth f) f.m.uni (fun l => srcWords f.base l ++ dstWords f.d l) (ea64 f.base f.off) (glob 2)
    none) ∧
  (∀ f, faults (.atom f) f.m.uni (fun l => srcWords f.base l ++ srcWords f.b l) (ea64 f.base 0)
    (glob (Ty.bitsOf f.ty / 8)) (some 7)) ∧
  (∀ f, faults (.stl f) f.m.uni (fun l => srcWords f.base l ++ dstWords f.d l) (ta32 f.base f.off)
    (scr (4 * Width.count f.d.width)) none)

/-! ## The copy engine -/

/-- R278, R282, R283: a CPY whose lanes' addresses pass their checks puts one record into the core's copy queue, with a
piece of 2^(SIZE + 2) bytes for each lane, and joins the group's open batch; no byte is moved yet.
R278, R299: WPUT, WGET and WRED queue one record with a piece for each lane: the local side under the checks of its
space, the offset in the window aligned to the access. -/
def Obligations.CopiesAreQueued : Prop :=
  (∀ f s c, s.ctx = some c → c.lanes ≠ [] →
     let n := 2 ^ (f.size.toNat + 2)
     let src (l : Nat) : Nat := c.regs.operand f.saddr l (spaceBits f.sspace)
     let dst (l : Nat) : Nat := c.regs.operand f.daddr l (spaceBits f.dspace)
     (∀ l ∈ c.lanes, Readable c.regs (srcWords f.saddr l ++ srcWords f.daddr l) ∧
       spaceCheck c f.sspace n n (src l) = none ∧ spaceCheck c f.dspace n n (dst l) = none) →
     ∃ t r b, exec (.cpy f) s = .next t ∧ CopyQueued s t c r ∧ r.group = c.g ∧ r.kind = .cpy ∧
       r.sspace = f.sspace ∧ r.dspace = f.dspace ∧ r.batch = some b ∧
       r.bar = (if f.be then some f.bar.toNat else none) ∧
       r.segs = c.lanes.map (fun l => ⟨src l, dst l, n, l, 0, 0⟩) ∧
       (∃ x, t.group c.g = some x ∧ ∃ y ∈ x.batches, y.id = b ∧ y.closed = false) ∧
       t = { s with nextId := t.nextId, cores := t.cores, groups := t.groups, tracks := t.tracks } ∧
       Completes s t c { c.grp with batches := ((t.group c.g).map (·.batches)).getD [] } noWord) ∧
  (let holds (i : Instr) (kind : CopyKind) (get : Bool) (daddr saddr : Src) (sp : Space) (size : BitVec 4) :
       Prop := ∀ s c, s.ctx = some c → c.lanes ≠ [] →
     let n := 2 ^ (size.toNat + 2)
     let loc (l : Nat) : Nat := c.regs.operand saddr l (spaceBits sp)
     let q (l : Nat) : Nat := c.regs.operand daddr l 128
     let ofs (l : Nat) : Nat := q l / 2 ^ 64 % 2 ^ 64
     (∀ l ∈ c.lanes, Readable c.regs (srcWords daddr l ++ srcWords saddr l) ∧
       spaceCheck c sp n n (loc l) = none ∧ ofs l % n = 0) →
     ∃ t r, exec i s = .next t ∧ CopyQueued s t c r ∧ r.group = c.g ∧ r.kind = kind ∧ r.batch = none ∧
       r.segs = c.lanes.map (fun l => ⟨if get then ofs l else loc l, if get then loc l else ofs l, n, l,
         BitVec.ofNat 18 (q l), BitVec.ofNat 16 (q l / 2 ^ 32)⟩) ∧
       t = { s with nextId := s.nextId + 1, cores := t.cores, groups := t.groups, tracks := t.tracks } ∧
       Completes s t c c.grp noWord
   (∀ f, holds (.wput f) .wput false f.daddr f.saddr f.sspace f.size) ∧
   (∀ f, holds (.wget f) .wget true f.daddr f.saddr f.sspace f.size) ∧
   (∀ f, holds (.wred f) (.wred f.ty f.sat) false f.daddr f.saddr f.sspace f.size))

/-- R278, R286, R293, R296, R302, R303: the uniform instructions of the copy engine queue one record each: CPYT where its
descriptor keeps the rules; LZSEND where its grant is no error and its addresses are aligned; LZRSV,
LZCANCEL and TASK, whose scoreboard rises; WMCAST where its source passes its checks and HBM reads without error. What
of a multicast header and of its members is looked at is the model's choice (log 39, log 43). -/
def Obligations.UniformCopiesAreQueued : Prop :=
  let queues (i : Instr) (s : State) (c : Ctx) (joins : Bool) (sb : Option Nat) (p : CopyRec → Prop) : Prop :=
    ∃ t r, exec i s = .next t ∧ CopyQueued s t c r ∧ r.group = c.g ∧ r.iaddr = c.iaddr ∧
      r.batch.isSome = joins ∧ r.sb = sb ∧ p r ∧
      t = { s with nextId := t.nextId, cores := t.cores, groups := t.groups, tracks := t.tracks } ∧
      Completes s t c { c.grp with
        batches := ((t.group c.g).map (·.batches)).getD []
        sb := match sb with
          | some n => put 0 n (look 0 n c.grp.sb + 1) c.grp.sb
          | none => c.grp.sb } noWord
  (∀ sp bar be dc sn s c, s.ctx = some c → c.run.cursor ≠ some 32 →
    SReadable c ((List.range 24).map (sn.toNat + ·)) →
    let d := tensorOf ((List.range 24).map fun i => (c.sOf (sn.toNat + i)).toNat)
    d.ok c.team.size = true → queues (.cpyt sp bar be dc sn) s c true none fun r =>
      r.kind = .cpyt ∧ r.segs = d.segs ∧ r.bar = (if be then some bar.toNat else none) ∧
      r.dep = if dc then some (fld d.w4 16 12) else none) ∧
  (∀ f s c, s.ctx = some c → c.run.cursor ≠ some 32 → SReadable c (srcS f.daddr ++ srcS f.saddr) →
    f.saddr.kind = .s → f.daddr.kind = .s → f.daddr.width = .quad →
    let q := f.daddr.num.toNat
    let n := 2 ^ (f.size.toNat + 2)
    let src := c.regs.operand f.saddr 0 (spaceBits f.sspace)
    let ofs := (c.sOf (q + 3)).toNat
    (c.sOf (q + 2)).toNat < 2 ^ 28 → spaceCheck c f.sspace n 1 src = none → src % min n 128 = 0 →
    ofs % min n 128 = 0 → queues (.lzsend f) s c true none fun r =>
      r.kind = .lzsend ∧ r.segs = [⟨src, ofs, n, 0, 0, 0⟩] ∧
      r.words = [c.sOf q, c.sOf (q + 1), c.sOf (q + 2)] ∧
      r.bar = if f.be then some f.bar.toNat else none) ∧
  (∀ sp ds sb (hp : BitVec 6) len s c, s.ctx = some c → c.run.cursor ≠ some 32 →
    SReadable c [2 * hp.toNat, 2 * hp.toNat + 1] → look 0 (BitVec.toNat sb) c.grp.sb ≠ 255 →
    queues (.lzrsv sp ds sb hp len) s c false (some sb.toNat) fun r =>
      r.kind = .lzrsv ∧ r.words = [c.sOf (2 * hp.toNat), c.sOf (2 * hp.toNat + 1)] ∧
      r.n = len.toNat ∧ r.ds = some (BitVec.toNat ds)) ∧
  (∀ sp (gs : BitVec 7) sb (hp : BitVec 6) s c, s.ctx = some c → c.run.cursor ≠ some 32 →
    SReadable c [gs.toNat, 2 * hp.toNat, 2 * hp.toNat + 1] → look 0 (BitVec.toNat sb) c.grp.sb ≠ 255 →
    (c.sOf gs.toNat).toNat < 2 ^ 28 →
    queues (.lzcancel sp gs sb hp) s c false (some sb.toNat) fun r =>
      r.kind = .lzcancel ∧
      r.words = [c.sOf (2 * hp.toNat), c.sOf (2 * hp.toNat + 1), c.sOf gs.toNat]) ∧
  (∀ sp ds sb (sn : BitVec 7) q s c, s.ctx = some c → c.run.cursor ≠ some 32 →
    SReadable c ((List.range 16).map (sn.toNat + ·)) → look 0 (BitVec.toNat sb) c.grp.sb ≠ 255 →
    queues (.task sp ds sb sn q) s c false (some sb.toNat) fun r =>
      r.kind = .task ∧ r.words = (List.range 16).map (fun i => c.sOf (sn.toNat + i)) ∧
      r.n = q.toNat ∧ r.ds = some (BitVec.toNat ds)) ∧
  (∀ f s c, s.ctx = some c → c.run.cursor ≠ some 32 → SReadable c (srcS f.daddr ++ srcS f.saddr) →
    f.saddr.kind = .s → f.daddr.kind = .s → f.daddr.width = .quad →
    let q := f.daddr.num.toNat
    let n := 2 ^ (f.size.toNat + 2)
    let src := c.regs.operand f.saddr 0 (spaceBits f.sspace)
    let ofs := (c.sOf (q + 2)).toNat + (c.sOf (q + 3)).toNat * 2 ^ 32
    let h := s.mcHeader (fld (c.sOf q).toNat 0 12)
    let holds (r : CopyRec) (ok : Bool) : Prop :=
      r.kind = .wmcast ∧ r.segs = [⟨src, ofs, n, 0, 0, 0⟩] ∧ r.n = n ∧
      r.words.take 5 = [BitVec.ofNat 32 (fld (c.sOf q).toNat 0 12), c.sOf (q + 1) &&& 0xFFFF,
        c.sOf (q + 2), c.sOf (q + 3), if ok then 1 else 0]
    spaceCheck c f.sspace n n src = none → ofs % n = 0 →
    (mcOk h c.grid.part = false → queues (.wmcast f) s c false none fun r => holds r false) ∧
    (mcOk h c.grid.part = true →
      (∀ l, (s.sideOf l).symErr = 0) →
      ∀ a, (s.devReach c.die c.grid.part (mcList h) (8 * mcCount h) false .device
          { s.groupRec 0 c.g with flags := s.privFlag c.g, iaddr := c.iaddr }).1 =
        .pa a →
      ∃ t r, exec (.wmcast f) s = .next t ∧ CopyQueued s t c r ∧ r.group = c.g ∧ r.batch = none ∧
        r.sb = none ∧ holds r true ∧ r.words[5]? = some (BitVec.ofNat 32 (mcCount h)) ∧
        mcMembersOf (r.words.drop 8) = s.mcMembers a (mcCount h) ∧
        t = { s with
          nextId := t.nextId, dies := t.dies, atsCache := t.atsCache, cores := t.cores,
          groups := t.groups, tracks := t.tracks } ∧
        Completes s t c c.grp noWord))

/-! ## Batches, dependence counters, window counters -/

/-- R285, R362: CPYCL closes the open batch under the next number, which it writes. WAITB goes on where every closed
batch that it names is complete, with a bit for each of the 16 last that failed; otherwise it waits.
A number that the 16 last do not name reads as complete (log 42). -/
def Obligations.BatchesCloseAndAreAwaited : Prop :=
  (∀ sp (ds : BitVec 7) scope s c, s.ctx = some c → c.run.cursor ≠ some 32 →
    (c.grp.batches.filter fun b => !b.closed).length ≤ 1 →
    (∀ e ∈ c.grp.split, ∀ d n a, e.2.wait ≠ .batch d n a) →
    ∃ t x, exec (.cpycl sp ds scope) s = .next t ∧ t.group c.g = some x ∧
      t = { s with nextId := t.nextId, groups := t.groups, tracks := t.tracks } ∧
      (∀ b ∈ x.batches, b.closed = true) ∧ x.batch = (c.grp.batch + 1) % 2 ^ 16 ∧
      x.closed = c.grp.closed + 1 ∧ t.sOf c ds.toNat = BitVec.ofNat 32 ((c.grp.batch + 1) % 2 ^ 16) ∧
      look 0 x.batch x.scopes = Scope.rank scope ∧
      Completes s t c { c.grp with batch := x.batch, closed := x.closed, batches := x.batches, scopes := x.scopes }
        (sWords [ds.toNat])) ∧
  (∀ sp (ds : BitVec 7) all (sn : BitVec 7) s c, s.ctx = some c → c.seated → c.run.cursor ≠ some 32 →
    (all = false → SReadable c [sn.toNat]) →
    let n := if all then c.grp.batch else (c.sOf sn.toNat).toNat % 2 ^ 16
    let due : Prop := ∀ b ∈ c.grp.batches, b.closed = true →
      b.done = true ∨ (all = false ∧ 2 ^ 15 ≤ (n + 2 ^ 16 - b.num) % 2 ^ 16)
    (due → ∃ t, exec (.waitb sp ds all sn) s = .next t ∧
      t = { s with freeCtr := t.freeCtr, cores := t.cores, groups := t.groups, tracks := t.tracks } ∧
      Completes s t c c.grp (sWords [ds.toNat]) ∧
      ∀ j, j < 16 →
        let age := (c.grp.batch + 2 ^ 16 - (n + 2 ^ 16 - j) % 2 ^ 16) % 2 ^ 16
        age < 16 ∨ c.grp.closed ≤ age →
        ((t.sOf c ds.toNat).getLsbD j = true ↔ age < c.grp.closed ∧ ∃ b ∈ c.grp.batches,
          b.closed = true ∧ b.done = true ∧ b.err = true ∧ b.num = (n + 2 ^ 16 - j) % 2 ^ 16)) ∧
    (¬ due → ∃ t, exec (.waitb sp ds all sn) s = .next t ∧ Only s t ∧
      WaitsFor s t c (.batch ds.toNat ((c.sOf sn.toNat).toNat % 2 ^ 16) all) noWord))

/-- R364, R367, R309: DEPDEC changes its dependence counter at its step once its release is complete: down to 0 at the
least, set, or up to 65,535 at the most; an armed record whose counter then holds 0 becomes ready. Until the
release is complete the change waits as a record of the memory queue.
R363: WCNT writes the counter of a window that is valid for the partition, 0 otherwise, and with AQ empties the
core cache; WCNT.wait waits until the window is valid and the counter has come to T modulo 2^32. -/
def Obligations.CountersAreReadAndChanged : Prop :=
  (∀ sp mode (n : BitVec 12) (cnt : BitVec 16) s c, s.ctx = some c → c.run.cursor ≠ some 32 →
     let old := (look 0 n.toNat s.depctr).toNat
     let new := match mode with
       | .dec => old - cnt.toNat
       | .set => cnt.toNat
       | .add => min (old + cnt.toNat) 65535
     (s.released c.g s.nextId .dev = true → ∃ t, exec (.depdec sp mode n cnt) s = .next t ∧
       t = { s with depctr := t.depctr, grids := t.grids, groups := t.groups, tracks := t.tracks } ∧
       Completes s t c c.grp noWord ∧ look 0 n.toNat t.depctr = BitVec.ofNat 16 new ∧
       (∀ m, m ≠ n.toNat → look 0 m t.depctr = look 0 m s.depctr) ∧
       ∀ k, t.grid k = (s.grid k).map fun g =>
         if g.st = .armed ∧ fld g.arm 0 12 = n.toNat ∧ new = 0 then
           { g with st := .ready, waitSince := s.now } else g) ∧
     (s.released c.g s.nextId .dev = false → ∃ t, exec (.depdec sp mode n cnt) s = .next t ∧ OnlyNamed s t ∧
       Completes s t c { c.grp with
         memq := c.grp.memq ++ [⟨s.nextId, .dep mode n.toNat cnt.toNat, .global, 0, .weak, .dev, false, none,
           none, c.iaddr, [⟨32, 0, 0, [], .pend⟩]⟩] } noWord)) ∧
  (∀ (f : FmtWcnt) s c, s.ctx = some c → c.seated → c.run.cursor ≠ some 32 →
     SReadable c [f.sn.toNat, f.sn.toNat + 1] →
     let w := (c.sOf f.sn.toNat).toNat % 2 ^ 16
     let tgt := c.sOf (f.sn.toNat + 1)
     let valid := winValid (s.winEntry c.die w) c.grid.part
     let met : Prop := valid = true ∧ (s.winCount w f.rem + 2 ^ 32 - tgt.toNat) % 2 ^ 32 < 2 ^ 31
     (f.w = false ∨ met → ∃ t, exec (.wcnt f) s = .next t ∧ Completes s t c c.grp (sWords [f.ds.toNat]) ∧
       t = { s with cores := t.cores, groups := t.groups, tracks := t.tracks } ∧
       t.sOf c f.ds.toNat = (if valid then BitVec.ofNat 32 (s.winCount w f.rem) else 0) ∧
       (f.aq = true → (t.core c.core).cache = [])) ∧
     (f.w = true → ¬ met → ∃ t, exec (.wcnt f) s = .next t ∧ Only s t ∧
       WaitsFor s t c (.wcnt f.ds.toNat w tgt f.aq f.rem) noWord))

/-! ## Named barriers -/

/-- R355, R356: an event at a barrier: an arrival counts up and carries its error flag, a withdrawal lowers the
expected count, bytes add up to 2^32 − 1 at the most, an initialisation clears the counts. After each the barrier
completes where its mode's counts have come: counts 0, phase turned, the error kept as the last one.
The step at which a message is judged is the model's (log 4, log 38).
R355, R358: a message to a barrier takes effect at its home when no earlier one of its group is on its way there and
its release is complete: the barrier takes its event, and an arrival writes the phase that it found. -/
def Obligations.BarriersCountAndComplete : Prop :=
  (∀ (b : Barrier) x,
     (∀ ev, b.event x ev =
       (let m := b.take x ev
        if (m.mode = .arr ∧ m.expa ≤ m.arra) ∨ (m.mode = .byte ∧ m.expb ≤ m.arrb) ∨
           (m.mode = .both ∧ m.expa ≤ m.arra ∧ m.expb ≤ m.arrb) then
          { m with
            lerr := m.err || (m.mode != .arr && decide (m.expb < m.arrb)), err := false, arra := 0, arrb := 0
            phase := !m.phase, lfull := m.full, full := false }
        else m)) ∧
     (∀ n e, b.arra + n < 4096 → b.take x (.arrive n e) = { b with arra := b.arra + n, err := b.err || e }) ∧
     (∀ e, b.arra + 1 < 4096 → b.take x (.slot e) =
       { b with arra := b.arra + 1, err := b.err || e, full := b.full || !e }) ∧
     (∀ n, b.take x (.withdraw n) = { b with expa := b.expa - n }) ∧
     (∀ n, b.take x (.bytes n) = { b with arrb := min (b.arrb + n) (2 ^ 32 - 1) }) ∧
     (∀ m a (w : Word) sc, b.take x (.init m a w sc) =
       { b with
         mode := m, scope := sc, arra := 0, arrb := 0, err := false, full := false, expa := a
         expb := if m = .arr then b.expb else w.toNat })) ∧
  (∀ s, ∀ f, s.net[s.pick]? = some f → ∀ team bar ev group ds rel, f.msg = .bar team bar ev group ds rel →
     ∀ b, s.barrier team bar = some b →
     (s.barReady s.pick team bar group rel = true → rel = none →
       ∃ t x, exec .barrierArrivalMessage s = .next t ∧ t.barrier team bar = some (b.event x ev) ∧
         t.net = dropNth s.pick s.net ∧
         ∀ g, group = some g → ∀ d, ds = some d → ∀ y, s.group g = some y → ∀ u, y.resid = .bound →
           (b.event x ev).phase = b.phase → ((t.regsOf g u).get .s d).val = if b.phase then 1 else 0) ∧
     (s.barReady s.pick team bar group rel = true → ∃ t, exec .barrierArrivalMessage s = .next t) ∧
     (∀ g, group = some g → ∀ i, rel = some i → s.released g i (barScope b) = false →
       ∃ why, exec .barrierArrivalMessage s = .refused (.notEnabled why)))

/-- R354, R357, R358, R359, R360: the barrier instructions at a barrier whose home is the group's own core: BARA performs
its arrival and writes the phase it found; BARW goes on where the phase is no longer the one it names, with the
result of the last completion, and waits otherwise; BARS does both; BARINIT and BARX are their events; BARQ writes
two words. An event that its home takes later goes there as a message. That an arrival at a barrier of the own core takes
effect at its instruction's step, and that a waiter which it releases is due until its track's next clause boundary, is the
model's reading (log 38). -/
def Obligations.BarrierInstructions : Prop :=
  (∀ (s : State) c, s.ctx = some c → s.barHome c false = some c.grp.team) ∧
  (∀ (s : State) c, s.ctx = some c → ∀ h, s.barHome c true = some h → ∃ x, (h, x) ∈ s.teams ∧ x.grid = c.team.grid ∧
    x.cluster = c.team.cluster ∧ x.member = 0) ∧
  (∀ (f : FmtBara) s c, s.ctx = some c → c.seated → c.run.cursor ≠ some 32 → ∀ h, s.barHome c f.sc = some h →
    s.barDirect c h f.bar.toNat = true → ∀ b, s.barrier h f.bar.toNat = some b →
    b.arra + f.cnt.toNat < 4096 →
    let b1 := b.event 0 (.arrive f.cnt.toNat f.e)
    let ph : Word := if b.phase then 1 else 0
    (∃ t, exec (.bara f) s = .next t ∧ t.barrier h f.bar.toNat = some b1 ∧
      (b1.phase = b.phase → t = { s with teams := t.teams, groups := t.groups, tracks := t.tracks } ∧
        Completes s t c c.grp (sWords [f.ds.toNat]) ∧ t.sOf c f.ds.toNat = ph) ∧
      (b1.phase ≠ b.phase → ∀ g, g ≠ c.g → ∀ x, s.group g = some x → ∀ e y, find e x.split = some y →
        y.last = .waiting → ∀ p sn, y.wait = .bar h f.bar.toNat p sn none → p ≠ b1.phase →
        ∃ x' y', t.group g = some x' ∧ find e x'.split = some y' ∧
          if x.resid ≠ .bound then y'.prev = .ready
          else if (s.track x.track).run.isSome = true then y'.due.isSome = true else y'.state = .ready)) ∧
    ∃ t, exec (.bars f) s = .next t ∧ t.barrier h f.bar.toNat = some b1 ∧
      (b1.phase = b.phase → t = { s with teams := t.teams, groups := t.groups, tracks := t.tracks } ∧
        t.sOf c f.ds.toNat = ph ∧
        WaitsFor s t c (.bar h f.bar.toNat b.phase f.ds.toNat none) (sWords [f.ds.toNat])) ∧
      (b1.phase ≠ b.phase → t.sOf c f.ds.toNat = b1.result)) ∧
  (∀ (f : FmtBara) s c, s.ctx = some c → c.run.cursor ≠ some 32 → c.t < 24576 →
    ∀ h, s.barHome c f.sc = some h → s.barDirect c h f.bar.toNat = false →
    let m : Msg := .bar h f.bar.toNat (.arrive f.cnt.toNat f.e) (some c.g) (some f.ds.toNat) (some s.nextId)
    (∃ t, exec (.bara f) s = .next t ∧ s.sent t c.die m ∧
      t = { s with nextId := s.nextId + 1, net := t.net, groups := t.groups, tracks := t.tracks } ∧
      Completes s t c c.grp noWord) ∧
    ∃ t, exec (.bars f) s = .next t ∧ s.sent t c.die m ∧
      t = { s with nextId := s.nextId + 1, net := t.net, groups := t.groups, tracks := t.tracks } ∧
      WaitsFor s t c (.bar h f.bar.toNat false f.ds.toNat (some s.nextId)) noWord) ∧
  (∀ sp (bar : BitVec 7) sc (sn : BitVec 7) s c, s.ctx = some c → c.seated → c.run.cursor ≠ some 32 →
    SReadable c [sn.toNat] → ∀ h, s.barHome c sc = some h → ∀ b, s.barrier h bar.toNat = some b →
    let ph := (c.sOf sn.toNat).getLsbD 0
    (b.phase ≠ ph → ∃ t, exec (.barw sp bar sc sn) s = .next t ∧ Only s { t with cores := s.cores } ∧
      Completes s t c c.grp (sWords [sn.toNat]) ∧
      t.sOf c sn.toNat = BitVec.ofNat 32 ((if b.phase then 1 else 0) + if b.lerr then 2 else 0) ∧
      (b.scope = true ∨ b.lfull = true → (t.core c.core).cache = [])) ∧
    (b.phase = ph → ∃ t, exec (.barw sp bar sc sn) s = .next t ∧ Only s t ∧
      WaitsFor s t c (.bar h bar.toNat ph sn.toNat none) noWord)) ∧
  (let sends (i : Instr) (sc : Bool) (bar : Nat) (reads : List Nat) (ev : Ctx → BarEv) : Prop :=
    ∀ s c, s.ctx = some c → c.run.cursor ≠ some 32 → SReadable c reads → ∀ h, s.barHome c sc = some h →
      (h = c.grp.team → s.barPending c.g h bar = false → ∀ b, s.barrier h bar = some b →
        ∃ t, exec i s = .next t ∧ t.barrier h bar = some (b.event 0 (ev c)) ∧
          ((b.event 0 (ev c)).phase = b.phase →
            t = { s with teams := t.teams, cores := t.cores, groups := t.groups, tracks := t.tracks } ∧
            CoresKept s t ∧ Completes s t c c.grp noWord)) ∧
      (h ≠ c.grp.team ∨ s.barPending c.g h bar = true → c.t < 24576 → ∃ t, exec i s = .next t ∧
        s.sent t c.die (.bar h bar (ev c) (some c.g) none none) ∧
        t = { s with net := t.net, cores := t.cores, groups := t.groups, tracks := t.tracks } ∧
        CoresKept s t ∧ Completes s t c c.grp noWord)
   (∀ f, sends (.barinit f) f.sc f.bar.toNat (if f.mode = .arr then [] else [f.sn.toNat]) fun c =>
      .init f.mode f.cnt.toNat (c.sOf f.sn.toNat) f.sc) ∧
   ∀ sp (bar : BitVec 7) sc (cnt : BitVec 12), sends (.barx sp bar sc cnt) sc bar.toNat [] fun _ =>
      .withdraw cnt.toNat) ∧
  (∀ sp (bar : BitVec 7) sc (ds : BitVec 7) s c, s.ctx = some c → c.run.cursor ≠ some 32 →
    ∀ h, s.barHome c sc = some h → ∀ b, s.barrier h bar.toNat = some b →
    ∃ t, exec (.barq sp bar sc ds) s = .next t ∧ Only s t ∧
      Completes s t c c.grp (sWords [ds.toNat, ds.toNat + 1]) ∧
      (let w := (t.sOf c ds.toNat).toNat
       fld w 0 12 = b.arra % 2 ^ 12 ∧ fld w 12 12 = b.expa % 2 ^ 12 ∧ w.testBit 24 = b.phase ∧
       w.testBit 25 = b.err ∧ w.testBit 26 = b.lerr ∧ fld w 27 2 = BarMode.code b.mode ∧
       w.testBit 29 = b.scope ∧ fld w 30 2 = 0) ∧
      t.sOf c (ds.toNat + 1) = BitVec.ofNat 32 b.arrb)

/-! ## Landing zones of the own team -/

/-- R291, R292, R296, R297, R317, R320: LZOPEN takes the lowest free zone number and run of slots and writes the
handle, or a status where none is free; LZCLOSE closes a zone whose slots are not all at rest; LZFREE frees a slot
that has come to its end; LZSTAT writes a slot's state, or waits for its end with its scoreboard up. A zone or slot
that the team does not own is the landing-zone fault, kind 0x2A. -/
def Obligations.LandingZoneInstructions : Prop :=
  (∀ (f : FmtLzopen) s c, s.ctx = some c → c.run.cursor ≠ some 32 →
    let n := f.slots.toNat + 1
    let dp := 2 * f.dp.toNat
    let k := s.core c.core
    let fits := s.zoneFits c (f.gran.toNat * 256) (n * (f.kib.toNat + 1) * 1024)
    (fits = false → ∃ t, exec (.lzopen f) s = .next t ∧
      Faults s t c 0x2A 0 (resumePair c.run.hdr c.resumeWord) 0) ∧
    (fits = true → ∃ t, exec (.lzopen f) s = .next t ∧ Completes s t c c.grp (sWords [dp, dp + 1]) ∧
      (k.freeZone = none → t.sOf c dp = 0 ∧ (t.sOf c (dp + 1)).toNat / 2 ^ 28 = 1) ∧
      (∀ zn, k.freeZone = some zn → k.freeRun n = none →
        t.sOf c dp = 0 ∧ (t.sOf c (dp + 1)).toNat / 2 ^ 28 = 2) ∧
      ∀ zn first, k.freeZone = some zn → k.freeRun n = some first → ∃ z, find zn (t.core c.core).zones = some z ∧
        z.isOpen = true ∧ z.used = true ∧ z.team = c.grp.team ∧ z.base = f.gran.toNat * 256 ∧
        z.kib = f.kib.toNat + 1 ∧ z.count = n ∧ z.first = first ∧ z.bar = f.bar.toNat ∧ z.be = f.be ∧
        z.closing = none ∧ z.gen = (match find zn k.zones with
          | some y => y.gen + 1
          | none => 1) ∧
        t.sOf c dp = BitVec.ofNat 32 (s.pkg.toNat + c.die % 8 * 2 ^ 18 + c.core % 24 % 32 * 2 ^ 21 +
          zn % 16 * 2 ^ 26) ∧ t.sOf c (dp + 1) = z.gen.setWidth 32 ∧
        ∀ j, j < n → find (first + j) (t.core c.core).slots = some ⟨zn, .free, 0, 0, 0, false, 0⟩)) ∧
  (∀ sp (hp : BitVec 6) s c, s.ctx = some c → c.run.cursor ≠ some 32 →
    SReadable c [2 * hp.toNat, 2 * hp.toNat + 1] → rising (s.core c.core).slots = true →
    ∀ zn z, s.ownZone c (c.sOf (2 * hp.toNat)).toNat (c.sOf (2 * hp.toNat + 1)).toNat = some (zn, z) →
    find zn (s.core c.core).zones = some z →
    (∃ i sl, find i (s.core c.core).slots = some sl ∧ sl.zone = zn ∧ SlotSt.isOpen sl.st = true) →
    ∃ t, exec (.lzclose sp hp) s = .next t ∧
      find zn (t.core c.core).zones = some { z with isOpen := false, closing := some s.now }) ∧
  (∀ sp (hp : BitVec 6) (slot : BitVec 8) s c, s.ctx = some c → c.run.cursor ≠ some 32 →
    SReadable c [2 * hp.toNat, 2 * hp.toNat + 1] →
    ∀ zn z, s.ownZone c (c.sOf (2 * hp.toNat)).toNat (c.sOf (2 * hp.toNat + 1)).toNat = some (zn, z) →
    ∀ i sl, s.zoneSlot c.core zn z slot.toNat = some (i, sl) →
    (z.closing = none → sl.st = .full ∨ sl.st = .failed ∨ sl.st = .cancelled →
      ∃ t, exec (.lzfree sp hp slot) s = .next t ∧ Completes s t c c.grp noWord ∧
        find i (t.core c.core).slots = some { sl with st := .free } ∧
        t = { s with cores := t.cores, groups := t.groups, tracks := t.tracks }) ∧
    (sl.st = .free ∨ sl.st = .reserved ∨ sl.st = .filling → ∃ t, exec (.lzfree sp hp slot) s = .next t ∧
      Faults s t c 0x2A 0 (resumePair c.run.hdr c.resumeWord) 0) ∧
    (∀ (ds : BitVec 7) sb w, w = false ∨ sl.st = .full ∨ sl.st = .failed ∨ sl.st = .cancelled →
      ∃ t, exec (.lzstat sp ds sb w hp slot) s = .next t ∧ Only s t ∧
        Completes s t c c.grp (sWords [ds.toNat]) ∧
        t.sOf c ds.toNat = BitVec.ofNat 32 (SlotSt.code sl.st + (if sl.err then 8 else 0) + sl.cause * 16 +
          sl.gen.toNat * 2 ^ 8 + sl.arrived / 4 * 2 ^ 16)) ∧
    (∀ (ds : BitVec 7) (sb : BitVec 3), sl.st = .free ∨ sl.st = .reserved ∨ sl.st = .filling →
      look 0 sb.toNat c.grp.sb ≠ 255 → ∃ t, exec (.lzstat sp ds sb true hp slot) s = .next t ∧
        Completes s t c { c.grp with sb := put 0 sb.toNat (look 0 sb.toNat c.grp.sb + 1) c.grp.sb } noWord ∧
        (t.core c.core).slotWaits = (s.core c.core).slotWaits ++ [⟨i, c.g, ds.toNat, sb.toNat⟩])) ∧
  (∀ i (hp : BitVec 6), (∃ sp, i = .lzclose sp hp) ∨ (∃ sp slot, i = .lzfree sp hp slot) ∨
      (∃ sp ds sb w slot, i = .lzstat sp ds sb w hp slot) → ∀ s c, s.ctx = some c → c.run.cursor ≠ some 32 →
    SReadable c [2 * hp.toNat, 2 * hp.toNat + 1] →
    s.ownZone c (c.sOf (2 * hp.toNat)).toNat (c.sOf (2 * hp.toNat + 1)).toNat = none →
    ∃ t, exec i s = .next t ∧ Faults s t c 0x2A 0 (resumePair c.run.hdr c.resumeWord) 0)

/-! ## Gangs, format-block descriptors, the matrix queue -/

/-- R361, R192, R188: GANG takes an s pair that lists two to six groups of the team, each once, the own group among them,
and keeps the own position in bits 41:39; GANG.off clears %gang; FBSET takes eight s registers that keep the table
of R191, sets VALID, and hands a record to the matrix queue (R184). What breaks the rules is the precise matrix-operand fault, kind 0x20. -/
def Obligations.GangsAndDescriptors : Prop :=
  (∀ sp (sn : BitVec 7) s c, s.ctx = some c → c.run.cursor ≠ some 32 →
    SReadable c [sn.toNat, sn.toNat + 1] →
    let p := (c.sOf sn.toNat).toNat + (c.sOf (sn.toNat + 1)).toNat * 2 ^ 32
    let size := p / 2 ^ 36 % 8
    let member (i : Nat) : Nat := p / 2 ^ (6 * i) % 64
    let good : Prop := 1 ≤ size ∧ size ≤ 5 ∧ (∀ i, i ≤ size → member i < c.grid.ngroups) ∧
      (∀ i j, i < j → j ≤ size → member i ≠ member j) ∧ p % 2 ^ 36 / 2 ^ (6 * (size + 1)) = 0 ∧
      p / 2 ^ 50 = 0 ∧ ∃ i, i ≤ size ∧ member i = c.grp.idx
    (good → ∃ t x i, exec (.gang sp sn) s = .next t ∧ t.group c.g = some x ∧ i ≤ size ∧
      member i = c.grp.idx ∧ Completes s t c { c.grp with gang := x.gang } noWord ∧ Only s t ∧
      x.gang.toNat = p % 2 ^ 39 + i * 2 ^ 39 + p / 2 ^ 42 * 2 ^ 42) ∧
    (¬ good → ∃ t, exec (.gang sp sn) s = .next t ∧
      Faults s t c 0x20 0 (resumePair c.run.hdr c.resumeWord) 0)) ∧
  (∀ sp s c, s.ctx = some c → c.run.cursor ≠ some 32 → ∃ t, exec (.gangOff sp) s = .next t ∧ Only s t ∧
    Completes s t c { c.grp with gang := 0 } noWord) ∧
  (∀ sp (fr : BitVec 2) (sn : BitVec 7) s c, s.ctx = some c → c.run.cursor ≠ some 32 →
    SReadable c ((List.range 8).map (sn.toNat + ·)) →
    let w := BitVec.ofNat 256 (c.regs.value ((List.range 8).map fun i => (Bank.s, sn.toNat + i)))
    (descOk w = true → ∃ t, exec (.fbset sp fr sn) s = .next t ∧ OnlyNamed s t ∧
      Completes s t c { c.grp.withMat s.nextId .fbset c.iaddr none true with
        f := put 0 fr.toNat (w ||| (1#256 <<< 31)) c.grp.f } noWord) ∧
    (descOk w = false → ∃ t, exec (.fbset sp fr sn) s = .next t ∧
      Faults s t c 0x20 0 (resumePair c.run.hdr c.resumeWord) 0))

/-- R184 to R188, R193, R195, R197, R201, R203, R205 to R209: each matrix instruction whose operands pass its checks hands
one record to the group's matrix queue, with what it has read; nothing of a tile changes at its step. Of the two vectors of
ACCSCL only those that SC and BI name are checked (log 59). -/
def Obligations.MatrixInstructionsHandOver : Prop :=
  let uni (c : Ctx) (ns : List Nat) : Prop := c.run.cursor ≠ some 32 ∧ SReadable c ns
  let pair (c : Ctx) (n : Nat) : Nat := (c.sOf n).toNat + (c.sOf (n + 1)).toNat * 2 ^ 32
  let joint (mmad : Bool) (i : FmtX → Instr) : Prop := ∀ f : FmtX,
    let a := 2 * f.abase.toNat
    let b := 2 * f.bbase.toNat
    MatHandsOver (i f)
      (fun c => c.lanes ≠ [] ∧ SReadable c [a, a + 1, b, b + 1] ∧
        (∀ l ∈ c.lanes, Readable c.regs ((Bank.v, vkey f.idx.toNat l) ::
          if mmad then [(Bank.v, vkey f.adp.toNat l)] else [])) ∧
        jointCheck f mmad c c.regs = none ∧ ∀ l ∈ c.lanes, rowCheck f c c.regs l = none)
      (fun c => .joint f.acc.toNat ⟨mmad, f.z, look 0 f.fba.toNat c.grp.f, look 0 f.fbb.toNat c.grp.f,
        c.lanes.map fun l => (l, (c.regs.get .v (vkey f.idx.toNat l)).val,
          if mmad then (c.regs.get .v (vkey f.adp.toNat l)).val.setWidth 16 else 0),
        BitVec.ofNat 64 (pair c a), BitVec.ofNat 64 (pair c b), f.kch.toNat + 1, c.grp.gang⟩)
      none false
  joint false .mma ∧ joint true .mmad ∧
  (∀ sp acc (b : BitVec 7), MatHandsOver (.mmup sp acc b)
    (fun c => c.lanes ≠ [] ∧ SReadable c [2 * b.toNat, 2 * b.toNat + 1] ∧
      (c.sOf (2 * b.toNat + 1)).toNat % 64 = 0)
    (fun c => .up acc.toNat c.lanes ((c.sOf (2 * b.toNat + 1)).toNat / 64)) none true) ∧
  (∀ sp (sn : BitVec 7), MatHandsOver (.adset sp sn)
    (fun c => uni c [sn.toNat, sn.toNat + 1, sn.toNat + 2, sn.toNat + 3] ∧ pair c sn.toNat % 64 = 0 ∧
      pair c sn.toNat < 2 ^ 57 ∧ (c.sOf (sn.toNat + 3)).toNat < 2 ^ 16)
    (fun c => .adset ⟨pair c sn.toNat, (c.sOf (sn.toNat + 2)).toNat % 2 ^ 16,
      BitVec.ofNat 16 ((c.sOf (sn.toNat + 2)).toNat / 2 ^ 16), (c.sOf (sn.toNat + 3)).setWidth 16⟩) none true) ∧
  (∀ sp all id, MatHandsOver (.adinv sp all id) (fun c => c.run.cursor ≠ some 32)
    (fun _ => .adinv all id.toNat none) none true) ∧
  (let tile (c : Ctx) (f : FmtAcc) : Prop :=
     let base := (c.sOf f.sn.toNat).toNat
     let n := 64 * TTy.bytes f.ty
     uni c [f.sn.toNat] ∧ base % 16 = 0 ∧ f.pitch.toNat % 16 = 0 ∧ n ≤ f.pitch.toNat ∧
       base + 31 * f.pitch.toNat + n ≤ c.team.size
   let sb (f : FmtAcc) : Option Nat := if f.sbe then some f.sb.toNat else none
   (∀ f, MatHandsOver (.accld f) (tile · f)
      (fun c => .accld f.acc.toNat f.ty (c.sOf f.sn.toNat).toNat f.pitch.toNat) (sb f) false) ∧
   ∀ f, MatHandsOver (.accst f) (tile · f)
      (fun c => .accst f.acc.toNat f.ty f.sat (c.sOf f.sn.toNat).toNat f.pitch.toNat) (sb f) true) ∧
  (∀ sp acc, MatHandsOver (.accz sp acc) (fun c => c.run.cursor ≠ some 32) (fun _ => .accz acc.toNat) none true) ∧
  (∀ (f : FmtAccmov),
    let w := Width.count f.w
    let words (l : Nat) : List (Bank × Nat) := (List.range w).map fun j => (Bank.v, vkey (f.vn.toNat + j) l)
    (f.dir = false → MatHandsOver (.accmov f) (fun c => c.lanes ≠ [])
      (fun c => .accmovTo f.acc.toNat f.vn.toNat w f.col.toNat c.lanes) (some f.sb.toNat) true) ∧
    (f.dir = true → MatHandsOver (.accmov f) (fun c => c.lanes ≠ [] ∧ ∀ l ∈ c.lanes, Readable c.regs (words l))
      (fun c => .accmovFrom f.acc.toNat w f.col.toNat
        (c.lanes.map fun l => (l, (words l).map fun k => (c.regs.get k.1 k.2).val))) none true)) ∧
  (∀ sp acc all sb, MatHandsOver (.accwait sp acc all sb) (fun c => c.run.cursor ≠ some 32)
    (fun _ => .accwait acc.toNat all) (some sb.toNat) true) ∧
  (∀ f : FmtAccscl, MatHandsOver (.accscl f)
    (fun c => uni c [f.sn.toNat, f.sn.toNat + 1] ∧
      let n := if f.ax then 64 else 32
      (f.sc = true → (c.sOf f.sn.toNat).toNat % 4 = 0 ∧ (c.sOf f.sn.toNat).toNat + 4 * n ≤ c.team.size) ∧
      (f.bi = true → (c.sOf (f.sn.toNat + 1)).toNat % 4 = 0 ∧
        (c.sOf (f.sn.toNat + 1)).toNat + 4 * n ≤ c.team.size))
    (fun c => .accscl f.acc.toNat f.ax f.sc f.bi (c.sOf f.sn.toNat).toNat (c.sOf (f.sn.toNat + 1)).toNat)
    none false)

/-! ## System registers -/

/-- R117, R325, R337: RDSR of a privileged group writes the system registers from SR up to its s registers; WRSR of one
register writes the writable bits of it and nothing else; CYC writes the core's cycle counter; SNAP takes a snapshot
under its tag where SNAPCTL bits 0 and 1 are set, and else does nothing. -/
def Obligations.SystemRegisters : Prop :=
  (∀ sp (d : Dst) (sr : BitVec 12) s c, s.ctx = some c → s.privileged c.grp = true → c.run.cursor ≠ some 32 →
    ∃ t, exec (.rdsr sp d sr) s = .next t ∧ Only s t ∧
      Completes s t c c.grp (sWords ((List.range (Width.count d.width)).map (d.num.toNat + ·))) ∧
      ∀ i, i < Width.count d.width → t.sOf c (d.num.toNat + i) = s.sysWord c.grp c.core (sr.toNat + i)) ∧
  (∀ (s : State) (g : Group) k,
    s.sysWord g k 0 = 0x05080000#32 ||| BitVec.ofNat 32 (256 * s.enum.grade.toNat + Config.stepping.toNat) ∧
    s.sysWord g k 1 = g.fltstat ∧ s.sysWord g k 2 = g.trapvec.setWidth 32 ∧
    s.sysWord g k 3 = (g.trapvec >>> 32).setWidth 32 ∧
    (∀ i, i < 4 → s.sysWord g k (4 + i) = look 0 i g.trapinfo) ∧
    s.sysWord g k 0x10 = (s.die (dieOf k)).partid.setWidth 32 ∧
    (∀ i, i < 4 → s.sysWord g k (0x20 + 2 * i) = (look 0 i s.sys.wqbase).setWidth 32 ∧
      s.sysWord g k (0x21 + 2 * i) = (look 0 i s.sys.wqbase >>> 32).setWidth 32) ∧
    s.sysWord g k 0x30 = s.sys.snapctl ∧ s.sysWord g k 0x31 = s.sys.snapstat ∧
    s.sysWord g k 0x40 = (s.die (dieOf k)).monthr ∧ s.sysWord g k 0x50 = (s.core k).carve.setWidth 32 ∧
    s.sysWord g k 0x60 = (s.core k).replay ∧ s.sysWord g k 0x61 = (s.core k).rfce ∧
    s.sysWord g k 0x62 = (s.core k).rfue) ∧
  (∀ sp (a : Src) (sr : BitVec 12) s c, s.ctx = some c → s.privileged c.grp = true → c.run.cursor ≠ some 32 →
    a.width = .single → SReadable c [a.num.toNat] →
    let w := c.sOf a.num.toNat
    let half (x : DWord) (odd : Bool) : DWord :=
      if odd then (x &&& 0xFFFFFFFF#64) ||| (w.setWidth 64 <<< 32) else (x &&& 0xFFFFFFFF00000000#64) ||| w.setWidth 64
    let writes (g : Group) (u : State → State) : Prop := ∃ t, exec (.wrsr sp a sr) s = .next t ∧
      Completes s t c g noWord ∧
      t = { u s with cores := t.cores, groups := t.groups, tracks := t.tracks } ∧ CoresKept (u s) t
    (sr = 1 → writes { c.grp with fltstat := (c.grp.fltstat &&& ~~~0x9F00#32) ||| (w &&& 0x9F00#32) } id) ∧
    (sr = 2 ∨ sr = 3 → writes { c.grp with trapvec := half c.grp.trapvec (sr = 3) } id) ∧
    (4 ≤ sr.toNat ∧ sr.toNat ≤ 7 → writes { c.grp with
      trapinfo := put 0 (sr.toNat - 4) (if sr = 5 then w &&& 0x3FFFFFFF#32 else w) c.grp.trapinfo } id) ∧
    (∀ i, i < 4 → sr.toNat = 0x20 + 2 * i ∨ sr.toNat = 0x21 + 2 * i → writes c.grp fun s => { s with
      sys := { s.sys with wqbase := put 0 i (half (look 0 i s.sys.wqbase) (sr.getLsbD 0)) s.sys.wqbase } }) ∧
    (sr = 0x30 → writes c.grp fun s => { s with sys := { s.sys with snapctl := w &&& 0xFF0F#32 } }) ∧
    (sr = 0x40 → writes c.grp fun s =>
      s.setDie (dieOf c.core) { s.die (dieOf c.core) with monthr := w &&& 0xFFFF#32 }) ∧
    (sr = 0x50 → w.toNat % 256 ∈ [0, 8, 16, 24, 32, 40, 44] → writes c.grp fun s => s.setCore c.core
      { s.core c.core with
        carve := ((s.core c.core).carve &&& 0xFF00#16) ||| BitVec.ofNat 16 (w.toNat % 256) }) ∧
    (sr = 0x50 → w.toNat % 256 ∉ [0, 8, 16, 24, 32, 40, 44] → s.fqReady = true →
      ∃ t, exec (.wrsr sp a sr) s = .next t ∧ Completes s t c c.grp noWord ∧ CoresKept s t ∧
        t.sys.fqtail = s.sys.fqtail + 1)) ∧
  (∀ sp (d : Dst) s c, s.ctx = some c → c.run.cursor ≠ some 32 → ∃ t, exec (.cyc sp d) s = .next t ∧ Only s t ∧
    Completes s t c c.grp (sWords [d.num.toNat, d.num.toNat + 1]) ∧
    (t.sOf c d.num.toNat).toNat + (t.sOf c (d.num.toNat + 1)).toNat * 2 ^ 32 = (s.core c.core).cycle.toNat) ∧
  (∀ sp tag s c, s.ctx = some c → c.run.cursor ≠ some 32 → ∃ t, exec (.snap sp tag) s = .next t ∧
    Completes s t c c.grp noWord ∧ Only { s with sys := t.sys } t ∧
    (s.sys.snapctl.getLsbD 0 = true → s.sys.snapctl.getLsbD 1 = true → t.sys.sntag = tag ∧
      t.sys.snapctl = s.sys.snapctl &&& ~~~1#32 ∧ t.sys.snapMap = snapAll s ∧
      t.sys.snapstat = BitVec.ofNat 32 (3 + tag.toNat % 2 ^ 16 * 2 ^ 16)) ∧
    (s.sys.snapctl.getLsbD 0 = false ∨ s.sys.snapctl.getLsbD 1 = false → t.sys = s.sys))

/-- R327: TLBI of a privileged group drops from every translation cache of the package the translations of its partition,
of one page or all, and raises its scoreboard, which falls when the walks that were in progress have ended and, with ISL,
the other packages of the island have answered. The ATS translations of the partition's PASID go as well, and no others
(log 46). Memory stays as it is. -/
def Obligations.TranslationsAreInvalidated : Prop :=
  let drops (i : Instr) (sb : Nat) (reads : List Nat) (isl : Bool) (va : Ctx → Option Nat) : Prop :=
    ∀ s c, s.ctx = some c → s.privileged c.grp = true → c.run.cursor ≠ some 32 → SReadable c reads →
      look 0 sb c.grp.sb ≠ 255 → ∃ t x, exec i s = .next t ∧
        Completes s t c { c.grp with sb := put 0 sb (look 0 sb c.grp.sb + 1) c.grp.sb } noWord ∧
        t = { s with
          nextId := s.nextId + 1, tlbis := t.tlbis, atsCache := t.atsCache, atsOld := t.atsOld, net := t.net
          egress := t.egress, ports := t.ports, dies := t.dies, cores := t.cores, groups := t.groups
          tracks := t.tracks } ∧
        (∀ e, e ∈ t.atsCache ↔ e ∈ s.atsCache ∧ ∀ p, s.part c.grid.part = some p → e.pasid ≠ p.pasid.toNat) ∧
        t.tlbis = s.tlbis ++ [x] ∧
        x = ⟨s.nextId, c.grid.part, va c, none, .group c.g sb, x.walks, if isl then s.others else [], s.now⟩ ∧
        (∀ d, d < 8 → ∀ w ∈ (s.die d).walks, w.part = c.grid.part → (d, w) ∈ x.walks) ∧
        ∀ k x, (x ∈ (t.core k).tlb ∨ x ∈ (t.die k).tcache) → x.part = c.grid.part →
          ∃ a, va c = some a ∧ x.vpage ≠ a / 2 ^ x.bits
  (∀ sp isl (sb : BitVec 3) (sa : BitVec 7), drops (.tlbiPage sp isl sb sa) sb.toNat [sa.toNat, sa.toNat + 1] isl
    fun c => some (((c.sOf sa.toNat).toNat + (c.sOf (sa.toNat + 1)).toNat * 2 ^ 32) % 2 ^ 57)) ∧
  (∀ sp isl (sb : BitVec 3), drops (.tlbiPart sp isl sb) sb.toNat [] isl fun _ => none) ∧
  (∀ s x, s.tlbis[s.pick]? = some x →
    (x.acks = [] → (∀ w ∈ x.walks, ∀ y ∈ (s.die w.1).walks, ¬ (y.part = w.2.part ∧ y.va = w.2.va)) →
      ∃ t, exec .tlbiCompletion s = .next t ∧ t.tlbis = dropNth s.pick s.tlbis ∧
        ∀ g sb, x.fin = .group g sb → t = { s with tlbis := t.tlbis, groups := t.groups } ∧
          ∀ q, s.group g = some q → q.resid = .bound → ∃ y, t.group g = some y ∧
            y = { q with sb := put 0 sb (look 0 sb q.sb - 1) q.sb }) ∧
    (x.acks ≠ [] → x.sent + maxAge ≤ s.now → ∃ t, exec .tlbiCompletion s = .next t ∧
      t.tlbis = updNth s.pick (fun y => { y with sent := s.now }) s.tlbis) ∧
    ((x.acks ≠ [] ∧ s.now < x.sent + maxAge) ∨
      (x.acks = [] ∧ ∃ w ∈ x.walks, ∃ y ∈ (s.die w.1).walks, y.part = w.2.part ∧ y.va = w.2.va) →
      ∃ why, exec .tlbiCompletion s = .refused (.notEnabled why)))

/-! ## Memory accesses -/

/-- R236, R239, R242 to R246, R223, R256 (access by access, log 4): an access of a group that lies on its core
performs when the group's order allows it: not before the earlier ones to the same bytes, nor, as a release,
before what it releases. A scratchpad access then reads or writes its core's scratchpad; a global store
enters the write-through buffer with its physical address, and every part of its lane with it; a fence that acquires empties the core cache.
What overlaps is judged as log 37 says. -/
def Obligations.MemoryAccessesPerform : Prop :=
  ∀ g r idx s, ∀ c, s.accCtx g r idx = some c → c.grp.resid = .bound →
    let run := exec (.memoryAccessPerform g r idx) s
    let isDone (t : State) : Prop := ∀ x, t.group g = some x → ∀ q ∈ x.memq, q.id = c.r.id →
      ∀ a, q.lanes[idx]? = some a → a.st = .done
    let quiet (t : State) : Prop := t.mem = s.mem ∧ t.hostMem = s.hostMem ∧ t.poolMem = s.poolMem ∧
      t.lines = s.lines
    let a := c.team.base + c.a.addr
    (s.allowed c = true → ∃ t, run = .next t) ∧
    (s.allowed c = false → ∃ why, run = .refused (.notEnabled why)) ∧
    (c.r.order = .release → s.released g c.r.id c.r.scope = false → s.allowed c = false) ∧
    (∀ q ∈ c.grp.memq, ∀ x ∈ q.lanes, q.id < c.r.id → x.st ≠ .done → q.space = c.r.space →
      c.r.space ≠ .cluster → c.r.space ≠ .fifo → c.r.kind.isDep = false → overlap x.addr q.size c.a.addr c.r.size = true →
      s.allowed c = false) ∧
    (s.allowed c = true → c.r.space = .scratch → (s.core c.core).fifoTouch a c.r.size = false →
      (c.r.kind = .store → ∃ t, run = .next t ∧ isDone t ∧ quiet t ∧
        (∀ k, k ≠ c.core → t.core k = s.core k) ∧
        t.core c.core = { s.core c.core with scratch := wrBytes (s.core c.core).scratch a c.a.data }) ∧
      ∀ e, c.r.kind = .load e → ∀ u, ∃ t, run = .next t ∧ isDone t ∧ quiet t ∧
        (t.core c.core).scratch = (s.core c.core).scratch ∧
        (t.regsOf g u).value (accWords c.r c.a) =
          extended c.r.kind c.r.size (leNat (rdBytes (s.core c.core).scratch a c.r.size)) %
            2 ^ (32 * (accWords c.r c.a).length)) ∧
    (s.allowed c = true → c.r.space = .global → c.r.kind = .store → ∀ pa,
      (s.reach c.core c.part c.a.addr true c.waiter (s.accRec c)).1 = .ok pa →
      (s.core c.core).wtRoom pa = true →
      ∃ t, run = .next t ∧ isDone t ∧ quiet t ∧ t.nextId = s.nextId + c.parts.length ∧
        (idx, c.a) ∈ c.parts ∧ (∀ x ∈ c.parts, x.2.lane = c.a.lane) ∧
        (t.core c.core).wtb = (s.core c.core).wtb ++ c.parts.zipIdx.map fun x =>
          ⟨s.nextId + x.2, pa / 4096 * 4096 + x.1.2.addr % 4096, x.1.2.data, g, c.r.id, c.a.lane, c.r.iaddr,
            x.1.2.addr, false⟩) ∧
    (s.allowed c = true → ∀ sem, c.r.kind = .fence sem → ∃ t, run = .next t ∧ isDone t ∧ quiet t ∧
      (t.core c.core).cache =
        if sem ≠ .rel ∧ Scope.rank c.r.scope ≠ 0 then [] else (s.core c.core).cache) ∧
    (s.allowed c = true → ∀ mode i n, c.r.kind = .dep mode i n → ∃ t, run = .next t ∧ isDone t ∧ quiet t ∧
      t.depctr = put 0 i (BitVec.ofNat 16 (depNew mode (look 0 i s.depctr).toNat n)) s.depctr)

/-- R223, R243, R244, R234, R369: the oldest store of a line leaves the write-through buffer, with the other parts of its
lane: to host memory, posted; to its line in the die's slice, where the die holds all tokens, which makes the line dirty;
and without them it waits on the line's request. A completed flush read finds every host store that was posted at the host.
R255, R256: at a bank the oldest waiting record performs: a push that fits raises tail by its words, a pop of words
that are there raises head, FPUSH.on and FPOP.off begin and end FIFO mode, FPOP.count writes the count, 0 of a bank that is
not in FIFO mode; what must wait waits, while no control form stands behind it. -/
def Obligations.BuffersAndFifosDrain : Prop :=
  ((∀ core idx s, ∀ w, (s.core core).drainable idx = some w →
     let run := exec (.writeThroughDrain core idx) s
     let line := w.pa / 128
     let parts := (s.core core).wtb.filter w.sameLane
     let dropped (t : State) : Prop :=
       (t.core core).wtb = (s.core core).wtb.filter fun x => !w.sameLane x
     (∃ t, run = .next t) ∧
     (s.drainWhole core line = none →
       (w.pa / 2 ^ 48 = 1 → (∀ x ∈ parts, x.pa / 2 ^ 48 = 1 ∧ x.pa % 2 ^ 48 + x.data.length ≤ 2 ^ 48) →
         (∀ x ∈ s.devStores, x.1 / 2 ^ 48 ≠ 1) → ∃ t, run = .next t ∧ dropped t ∧
         t = { s with
           cores := t.cores
           hostMem := parts.foldl (fun m x => wrBytes m (x.pa % 2 ^ 48) x.data) s.hostMem
           hostPosted := s.hostPosted ++ [(w.group, w.mrec)] }) ∧
       (w.pa / 2 ^ 48 ≠ 1 → s.tokenLine line = true →
         (∀ e, s.ent (dieOf core) line = some e → e.count = 256 → e.valid = true →
           (∀ x ∈ parts, x.pa / 128 = line) → ∃ t x, run = .next t ∧
           dropped t ∧ t = { s with cores := t.cores, lines := t.lines } ∧ t.ent (dieOf core) line = some x ∧
           x = { e with
             data := parts.foldl (fun d x => setLineBytes d (x.pa % 128) x.data) e.data, dirty := true, lru := x.lru }) ∧
         (s.canWrite (dieOf core) line = false → s.homeErr (dieOf core) line = none → ∃ t q, run = .next t ∧
           t.mem = s.mem ∧ t.lines = s.lines ∧ (∀ x ∈ (t.core core).wtb, x.id = w.id → x.waiting = true) ∧
           t.sreq (dieOf core) line = some q ∧ (Waiter.drain core w.id, true) ∈ q.waiters)))) ∧
   (∀ core idx s, (s.core core).drainable idx = none →
     ∃ why, exec (.writeThroughDrain core idx) s = .refused (.notEnabled why)) ∧
   (∀ s, s.hostPosted ≠ [] → exec .flushReadCompletion s = .next { s with hostPosted := [] })) ∧
  (∀ core bank s w rest, (s.core core).fifoq.filter (fun x => x.bank == bank) = w :: rest →
     ∀ c l, s.bankAccs core w = some (c, l) →
     let run := exec (.fifoRecordPerform core bank) s
     let words := l.length * (c.r.size / 4)
     let after (t : State) (f : Option Fifo) : Prop :=
       find bank (t.core core).fifo = f ∧ (t.core core).fifoq = (s.core core).fifoq.erase w
     (c.r.kind = .pushOn → ∃ t, run = .next t ∧ after t (some ⟨0, 0⟩)) ∧
     (find bank (s.core core).fifo = none → c.r.kind = .popOff ∨ c.r.kind = .popCount →
       ∃ t, run = .next t ∧ after t none ∧ (c.r.kind = .popCount → ∀ i a, l = [(i, a)] → ∀ u, c.grp.resid = .bound →
         (t.regsOf w.group u).value (accWords c.r a) = 0)) ∧
     ∀ f, find bank (s.core core).fifo = some f →
       (c.r.kind = .popOff → ∃ t, run = .next t ∧ after t none) ∧
       (c.r.kind = .popCount → ∃ t, run = .next t ∧ after t (some f)) ∧
       (c.r.kind = .push → f.count + words ≤ 16384 →
         ∃ t, run = .next t ∧ after t (some ⟨f.head, f.tail + BitVec.ofNat 16 words⟩)) ∧
       (c.r.kind = .pop → words ≤ f.count →
         ∃ t, run = .next t ∧ after t (some ⟨f.head + BitVec.ofNat 16 words, f.tail⟩) ∧
           ∀ i a, l = [(i, a)] → ∀ u, c.grp.resid = .bound → c.r.size = 4 →
             (t.regsOf w.group u).value (accWords c.r a) =
               leNat (rdBytes (s.core core).scratch (slotAddr bank f.head) 4) %
                 2 ^ (32 * (accWords c.r a).length)) ∧
       (rest = [] → (c.r.kind = .push ∧ 16384 < f.count + words) ∨ (c.r.kind = .pop ∧ f.count < words) →
         ∃ why, run = .refused (.notEnabled why)))

/-! ## Clauses -/

/-- R44: a track at a clause boundary that serves a group makes its choice. Of the ready fragments, the oldest of those
that have been passed over 64 times or more; without one, a fragment of the best priority, one that yielded only where
all of that priority have. With none ready nothing is chosen.
R56, R53, R54, R225: a chosen fragment's clause is fetched; it runs only with a well-formed header, of the words that
its COUNT says, each of which passes validation, and with its header's waits met; otherwise nothing of it runs. -/
def Obligations.ClausesAreChosenAndValidated : Prop :=
  ((∀ s, (s.track s.pick).run = none → (s.track s.pick).slots ≠ [] → ∃ t, exec .clauseChoice s = .next t ∧
     (∀ k, k ≠ s.pick → t.track k = s.track k) ∧
     ∀ r, (t.track s.pick).run = some r → r.fetched = false ∧ r.pfx = none ∧ (t.track s.pick).latches = [] ∧
       (t.track s.pick).clauses = (s.track s.pick).clauses + 1) ∧
   (∀ s, (s.track s.pick).run ≠ none ∨ (s.track s.pick).slots = [] →
     ∃ why, exec .clauseChoice s = .refused (.notEnabled why)) ∧
   ∀ last cs,
     (chooseFrag last cs = none ↔ cs.filter (fun c => decide (64 ≤ c.age) || decide (c.prio ≤ 3)) = []) ∧
     ∀ c, chooseFrag last cs = some c → c ∈ cs ∧
       ((∃ x ∈ cs, 64 ≤ x.age) → 64 ≤ c.age ∧ ∀ x ∈ cs, x.age ≤ c.age) ∧
       ((∀ x ∈ cs, x.age < 64) → (∀ x ∈ cs, c.prio ≤ x.prio) ∧
         (c.yld = true → ∀ x ∈ cs, x.prio = c.prio → x.yld = true) ∧
         ∀ x ∈ cs, x.prio = c.prio → x.yld = c.yld →
           (c.pos + 128 - (last + 1)) % 128 ≤ (x.pos + 128 - (last + 1)) % 128)) ∧
  (∀ s, ∀ r grp gd f, s.toFetch s.pick = some (r, grp, gd, f) → ∃ t, exec .clauseFetch s = .next t ∧
     (∀ k, k ≠ s.pick → t.track k = s.track k) ∧
     ∀ q, (t.track s.pick).run = some q → q.fetched = true →
       headerOk q.header = true ∧ q.words.length = countOf q.header ∧ r.hdr.toNat % 8 = 0 ∧ q.hdr = r.hdr ∧
       checkWords (declOf gd) q.header q.words .instr 1 = none ∧ q.pos ≤ q.words.length + 1 ∧
       (∀ i, i < 8 → bit q.header (43 + i) = true → look 0 i grp.sb = 0))

/-! ## Translation -/

/-- R227 to R229, R257, R418: the end of a walk caches its leaf, for a unit that waits for it; parks the accesses of a
page that is not present, with a record; and poisons the destination of an access that meets a wrong entry; a unit of
the device meets the outcome when it tries again. The tables' lines are at hand and without error (log 14).
The host's answer to an ATS request is cached, or refused once; its invalidation drops what it covers. The replay
doorbell lets the accesses it names go on, while no earlier write of the device is under way: a fragment at the next
clause boundary (R180), loads, stores and copies in the order in which they were parked. The cancel doorbell leaves none
of them parked.
A wrong table entry and a refused translation are as log 32 and log 47 take them. -/
def Obligations.TranslationsAreAnswered : Prop :=
  (∀ die idx s, ∀ w, (s.die die).walks[idx]? = some w →
    let run := exec (.walkComplete die idx) s
    (∀ l ∈ s.tableLines w.part w.va, s.unseen l = false ∧ s.lost l = false ∧ (s.sideOf l).symErr = 0) →
    (∃ t, run = .next t) ∧
    (∀ b pa wr h, s.walk w.part w.va = .leaf b pa wr h → w.waiters ≠ [] → (∀ x ∈ w.waiters, x.1 = .device) →
      ∃ t, run = .next t ∧ t = { s with dies := t.dies } ∧ (∀ d, d ≠ die → t.die d = s.die d) ∧
        (t.die die).walks = dropNth idx (s.die die).walks ∧
        (t.die die).tcache.head? = some ⟨w.part, w.va / 2 ^ b, b, pa, wr, h⟩) ∧
    (s.walk w.part w.va = .notPresent → ∀ x wr va, w.waiters = [(x, wr, va)] →
      (∀ k, x ≠ .clause k) → (∀ k n, x ≠ .fill k n) → x ≠ .device → (∀ n, x ≠ .notify n) →
      (∀ g r i, x = .acc g r i → ∀ c, s.accCtx g r i = some c → c.r.kind.quiet = false ∧ c.a.st ≠ .done) →
      (s.die die).parked.length + (s.die die).replays.length < 8192 → ∃ t, run = .next t ∧ ∃ p, (t.die die).parked.getLast? = some p ∧
        p = ⟨w.part, va, wr, x, p.recIdx, 0x18⟩ ∧ (t.die die).parked = (s.die die).parked ++ [p]) ∧
    (s.walk w.part w.va = .notPresent → ∀ x wr va, w.waiters = [(x, wr, va)] → x = .device → ∃ t, run = .next t ∧
      t = { s with dies := t.dies } ∧ (t.die die).walked = (s.die die).walked ++ [(w.part, va / 4096, 0x18, 0)]) ∧
    ((∃ l, s.walk w.part w.va = .region l) ∨ s.walk w.part w.va = .tableErr → ∀ x wr va,
      w.waiters = [(x, wr, va)] → ∀ g r i, x = .acc g r i → ∀ c, s.accCtx g r i = some c → c.grp.resid = .bound →
      c.a.st ≠ .done → c.r.kind.quiet = false → ∀ d, c.r.dst = some d → ∀ u, ∃ t, run = .next t ∧ ∀ p ∈ dstWords d c.a.lane, ((t.regsOf g u).get p.1 p.2).ecc = .poisoned)) ∧
  (∀ idx s, ∀ q, s.atsPending[idx]? = some q → ∀ a, (∃ t, exec (.atsResponse idx a) s = .next t) ∧
    ((∀ x ∈ s.atsPending, x.pasid = q.pasid → x.addr = q.addr → x.waiter = .device) →
      exec (.atsResponse idx a) s = .next { s with
        atsPending := s.atsPending.filter fun x => !(x.pasid == q.pasid && x.addr == q.addr)
        atsCache := (s.atsCache.filter fun e => !(e.pasid == q.pasid && e.addr == q.addr)) ++
          [⟨q.pasid, q.addr, match a with
            | .translated h => some (h.toNat / 4096)
            | .refused => none⟩] })) ∧
  (∀ pasid addr len s,
    let hit (e : AtsEnt) : Bool := e.pasid == pasid && decide (addr < (e.addr + 1) * 4096) &&
      decide (e.addr * 4096 < addr + len)
    (∀ k ∈ s.cores, ∀ w ∈ k.2.wtb, w.pa / 2 ^ 48 = 1 → ∀ e ∈ s.atsCache ++ s.atsOld, hit e = true →
      e.host ≠ some (w.pa % 2 ^ 48 / 4096)) →
    exec (.atsInvalidation pasid addr len) s =
      .next { s with
        atsCache := s.atsCache.filter fun e => !hit e
        atsOld := s.atsOld.filter fun e => !hit e }) ∧
  (∀ v s, s.boot.ready = true → v.getLsbD 31 = false →
    (s.devBusy = true → ∃ why, exec (.replayDoorbell v) s = .refused (.notEnabled why)) ∧
    (s.devBusy = false → ∃ t, exec (.replayDoorbell v) s = .next t) ∧
    (s.devBusy = false → (∀ d, d < 8 → ∀ p ∈ (s.die d).parked, p.named v = false) →
      ∃ t, exec (.replayDoorbell v) s = .next t ∧ t = { s with dies := t.dies } ∧ ∀ d, d < 8 → t.die d =
        { s.die d with walked := [], replays := (s.die d).replays.filter s.replaying }) ∧
    (s.devBusy = false → ∀ d, d < 8 → ∀ p, (s.die d).parked.filter (fun p => p.named v) = [p] →
      (∀ d', d' < 8 → d' ≠ d → ∀ p ∈ (s.die d').parked, p.named v = false) →
      let left (t : State) : Prop := (t.die d).parked = (s.die d).parked.filter fun q => !q.named v
      let turn (t : State) : Prop := (t.die d).replays = (s.die d).replays.filter s.replaying ++ [p.waiter]
      (∀ g e, p.waiter = .fetch g e → ∀ x, s.group g = some x → ∀ f, find e x.split = some f → f.wait = .fetch →
        x.resid = .bound → ∃ t x' f', exec (.replayDoorbell v) s = .next t ∧ t.group g = some x' ∧
          find e x'.split = some f' ∧ left t ∧
          ((s.track x.track).run = none → f' = { f with state := .ready, wait := .none, due := none }) ∧
          ((s.track x.track).run ≠ none → f' = { f with wait := .none, due := some [] })) ∧
      (∀ g r i, p.waiter = .acc g r i → ∀ c, s.accCtx g r i = some c → c.a.st ≠ .done →
        ∃ t c', exec (.replayDoorbell v) s = .next t ∧ left t ∧ turn t ∧ t.accCtx g r i = some c' ∧
          c'.a = { c.a with st := .pend }) ∧
      ∀ k n id, p.waiter = .copy k n id → ∀ x, s.copyWait k id = some x →
        ∃ t y, exec (.replayDoorbell v) s = .next t ∧ left t ∧ turn t ∧ t.copyWait k id = some y ∧
          y.o = { x.o with st := .pend })) ∧
  (∀ v s, s.boot.ready = true → v.getLsbD 31 = true → ∃ t, exec (.cancelDoorbell v) s = .next t ∧
    ∀ d, d < 8 → ∀ p ∈ (t.die d).parked, p.named v = false)

/-! ## Tokens -/

/-- R369 to R372, R375 to R377, R392: what a die does with a request or with tokens that come to it, while no persistent
request is active for the line: the crown answers GETS with a token and its data, every holder answers GETX with all
it has, tokens add to those of their slice or home, dirty data is written home, and tokens from an old incarnation or
of an old serial are discarded and counted. A home whose line is poisoned, and a slice whose line's home is down, answers
with an error (R216, R394).
Message order and ages are as log 48 takes them, the error response as log 31. -/
def Obligations.TokensMoveBetweenHolders : Prop :=
  ∀ s d src line,
    let idle : Prop := (s.die d).home.active = none ∧ (s.die d).home.recount line = none ∧
      (s.die d).home.blocks line = false ∧ (s.die d).home.movedLine s.now line = none ∧ (s.sideOf line).symErr = 0
    let down : Prop := ∃ h, s.lineHome line = some h ∧ h ∈ (s.die d).down
    let sends (t : State) (m : Msg) : Prop := t.net = dropNth s.pick s.net ++
      [⟨m, s.islDie d, (s.die d).incarn, .die src, 0, s.now, false⟩]
    let same (t : State) : Prop := t = { s with
      net := t.net, lines := t.lines, side := t.side, dies := t.dies, mem := t.mem }
    let x := s.sideOf line
    let hbm := bytesLine (rdBytes s.mem (line * 128) 128)
    ((s.ownDie src).isSome = true →
      (down → s.delivers d src (.getx line .slice) → ∃ t, exec .getx s = .next t ∧ same t ∧ t.lines = s.lines ∧
        sends t (.err line 7)) ∧
      (¬ down → s.activeAt d line = none → ∀ e, s.ent d line = some e →
        (s.delivers d src (.gets line .slice) →
          (e.crown = false → exec .gets s = .next s.without) ∧
          (e.crown = true → 2 ≤ e.count → ∃ t, exec .gets s = .next t ∧ same t ∧
            t.ent d line = some { e with count := e.count - 1 } ∧
            sends t (.tok line ⟨1, false, e.serial, some e.data, false⟩)) ∧
          (e.crown = true → e.count < 2 → ∃ t, exec .gets s = .next t ∧ same t ∧ t.ent d line = none ∧
            sends t (.tok line ⟨e.count, true, e.serial, some e.data, e.dirty⟩))) ∧
        (s.delivers d src (.getx line .slice) → ∃ t, exec .getx s = .next t ∧ same t ∧ t.ent d line = none ∧
          sends t (.tok line ⟨e.count, e.crown, e.serial, if e.crown then some e.data else none,
            e.crown && e.dirty⟩))) ∧
      (idle → x.count ≠ 0 → (x.crown && x.poison) = false →
        (s.delivers d src (.gets line .home) →
          (x.crown = false → exec .gets s = .next s.without) ∧
          (x.crown = true → 2 ≤ x.count → ∃ t, exec .gets s = .next t ∧ same t ∧
            t.sideOf line = { x with count := x.count - 1 } ∧
            sends t (.tok line ⟨1, false, x.serial, some hbm, false⟩))) ∧
        (s.delivers d src (.getx line .home) → ∃ t, exec .getx s = .next t ∧ same t ∧
          t.sideOf line = { x with count := 0, crown := false } ∧
          sends t (.tok line ⟨x.count, x.crown, x.serial, if x.crown then some hbm else none, false⟩))) ∧
      (idle → x.count ≠ 0 → x.crown = true → x.poison = true → s.delivers d src (.getx line .home) →
        ∃ t, exec .getx s = .next t ∧ same t ∧ t.sideOf line = x ∧ sends t (.err line 5))) ∧
    (∀ p, s.delivers d src (.tok line p) →
      (s.staleFor d line p.serial = true → ∃ t, exec .tok s = .next t ∧ same t ∧
        t.lines = s.lines ∧ (t.die d).stale = satInc (s.die d).stale) ∧
      (s.staleFor d line p.serial = false → s.activeAt d line = none → s.sreq d line = none →
        ∀ e, s.ent d line = some e → ∃ t, exec .tok s = .next t ∧ same t ∧ t.net = dropNth s.pick s.net ∧
          ∃ y, t.ent d line = some y ∧ y.count = e.count + p.count ∧ y.crown = (e.crown || p.crown) ∧
          y.valid = (e.valid || p.data.isSome) ∧ y.serial = e.serial ∧ (e.valid = true → y.data = e.data) ∧
          (e.valid = false → ∀ l, p.data = some l → y.data = l))) ∧
    (∀ p, s.delivers d src (.putt line p) → p.serial = x.serial → x.symErr = 0 → (s.die d).home.activeFor line = none →
      ∃ t, exec .putt s = .next t ∧ same t ∧ t.net = dropNth s.pick s.net ∧
        (t.sideOf line).count = x.count + p.count ∧ (t.sideOf line).crown = (x.crown || p.crown) ∧
        (p.crown = false ∨ p.dirty = false → t.mem = s.mem) ∧
        (p.crown = true → p.dirty = true → ∀ l, p.data = some l → (t.sideOf line).poison = false ∧
          (∀ i, i < 128 → rdByte t.mem (128 * line + i) = lineByte l i) ∧
          ∀ a, a / 128 ≠ line → rdByte t.mem a = rdByte s.mem a)) ∧
    ∀ f, s.net[s.pick]? = some f → ∀ i p, f.dest = .die i → s.ownDie i = some d → Flight.age f s.now < maxAge → (s.die d).failed = false →
      look 0 f.src (s.die d).known ≠ f.inc → p.count ≠ 0 →
      (f.msg = .tok line p → ∃ t, exec .tok s = .next t ∧ same t ∧ t.lines = s.lines ∧ t.side = s.side ∧
        (t.die d).stale = satInc (s.die d).stale) ∧
      (f.msg = .putt line p → ∃ t, exec .putt s = .next t ∧ same t ∧ t.lines = s.lines ∧ t.side = s.side ∧
        (t.die d).stale = satInc (s.die d).stale) ∧
      (f.msg = .gets line .both → exec .gets s = .next s.without)

/-- R378 to R383: a request that is not served is sent again to every die of its mask after 4 µs, and after 4 µs more
becomes a persistent one, or waits for its slice's; the home activates one at a time with the next sequence number, and
the slices hold it until it is done; a home whose request is not done in 50 µs recounts its line. A request that only
the masks before a repartition let out is served under these (R345).
The table stands at the slice of the line, the model's reading (log 48). -/
def Obligations.PersistentRequestsAreServed : Prop :=
  (∀ d line s r, s.sreq d line = some r → r.since + 400 ≤ s.now → s.silent d = false → s.revokes line = false →
    (r.phase = .transient → s.tokenLine line = true → ∃ t, exec (.transientReissue d line) s = .next t ∧
      t.sreq d line = some { r with phase := .reissued, since := s.now } ∧ t.lines = s.lines ∧
      ∀ i, i ∈ s.egressMask line → i ≠ s.islDie d → (s.ownDie i).isSome = true → ∃ role,
        t.holds s d i (if r.write then .getx line role else .gets line role)) ∧
    (r.phase = .reissued →
      ((∃ e ∈ s.sameHome d line, e.2.phase = .persistent) → exec (.transientAbandon d line) s =
        .next (s.setSreq d line { r with phase := .blocked, since := s.now })) ∧
      ∀ h, (∀ e ∈ s.sameHome d line, e.2.phase ≠ .persistent) → s.lineHome line = some h →
        (s.ownDie h).isSome = true → ∃ t, exec (.transientAbandon d line) s = .next t ∧
          t.sreq d line = some { r with phase := .persistent, since := s.now } ∧
          t.holds s d h (.preq line r.write (sliceOf line)))) ∧
  (∀ s d src line w slice, s.delivers d src (.preq line w slice) →
    (src ∈ (s.die d).down → exec .preq s = .next s.without) ∧
    ((s.die d).home.blocks line = false → (s.die d).home.movedLine s.now line = none →
      src ∉ (s.die d).down → ∀ a, (s.die d).home.active = some a → ∃ t, exec .preq s = .next t ∧
      t = { s.without with dies := t.dies } ∧ (∀ k, k ≠ d → t.die k = s.die k) ∧
      (t.die d).home = { (s.die d).home with
        pending := ((s.die d).home.pending.filter fun r => !(r.die == src && r.slice == slice)) ++
          [⟨src, slice, w, line⟩] }) ∧
    ((s.die d).home.blocks line = false → (s.die d).home.movedLine s.now line = none →
      src ∉ (s.die d).down → (s.die d).home.active = none → (s.die d).home.turn = [] →
      (s.die d).home.handed = [] → (s.die d).home.pending = [] → (s.sideOf line).bad = false →
      ∃ t a, exec .preq s = .next t ∧ (t.die d).home.active = some a ∧ a.req = ⟨src, slice, w, line⟩ ∧
        a.seq = (s.die d).home.seq + 1 ∧ (t.die d).home.seq = (s.die d).home.seq + 1 ∧
        (t.die d).home.pending = [] ∧ (t.die d).home.turnNo = (s.die d).home.turnNo + 1 ∧
        ∀ i, i ∈ s.serveSet d line src → (s.ownDie i).isSome = true → t.holds s d i
          (.pact line src slice w ((s.die d).home.seq + 1) ((s.die d).home.turnNo + 1)))) ∧
  (∀ s d src line rd rs w seq turn, s.delivers d src (.pact line rd rs w seq turn) →
    ∀ h, s.lineHome line = some h →
    let e := s.pent d (sliceOf line) h
    (∀ l, e.last = some l → newer seq l = false → exec .pact s = .next s.without) ∧
    ((∀ l, e.last = some l → newer seq l = true) →
      (∃ t, exec .pact s = .next t ∧ ∃ forwarded, t.pent d (sliceOf line) h =
        ⟨true, rd, rs, w, line, turn, seq, some seq, forwarded⟩) ∧
      (s.ent d line = none → s.sreq d line = none → exec .pact s = .next (s.without.setPent d (sliceOf line) h
        ⟨true, rd, rs, w, line, turn, seq, some seq, false⟩)) ∧
      ∀ x, s.ent d line = some x → w = true → rd ≠ s.islDie d → (s.ownDie rd).isSome = true →
        s.sreq d line = none → ∃ t, exec .pact s = .next t ∧ t.ent d line = none ∧
          t.holds s d rd (.tok line ⟨x.count, x.crown, x.serial, if x.crown then some x.data else none,
            x.crown && x.dirty⟩))) ∧
  (∀ s d src line seq, s.delivers d src (.pdone line seq) →
    (∀ a, (s.die d).home.active = some a → a.seq ≠ seq → exec .pdone s = .next s.without) ∧
    ∀ a, (s.die d).home.active = some a → a.seq = seq → (s.die d).home.turn = [] →
      (s.die d).home.handed = [] → (s.die d).home.pending = [] → ∃ t, exec .pdone s = .next t ∧
        (t.die d).home = { (s.die d).home with active := none } ∧
        ∀ i, i ∈ s.serveSet d a.req.line a.req.die → (s.ownDie i).isSome = true →
          t.holds s d i (.pdeact a.req.line seq)) ∧
  (∀ s d src line seq, s.delivers d src (.pdeact line seq) → ∀ h, s.lineHome line = some h →
    let e := s.pent d (sliceOf line) h
    let ref := if e.on then some e.seq else e.last
    (∀ r, ref = some r → newer r seq = true → exec .pdeact s = .next s.without) ∧
    ((∀ r, ref = some r → newer r seq = false) → exec .pdeact s =
      .next (s.without.setPent d (sliceOf line) h ⟨false, 0, 0, false, 0, 0, 0, some seq, false⟩))) ∧
  (∀ s : State, ∀ a, (s.die s.pick).home.active = some a → a.recounting = false →
    (a.since + 5000 ≤ s.now → ∃ t, exec .persistentTimeout s = .next t ∧ t = { s with dies := t.dies } ∧
      (∀ k, k ≠ s.pick → t.die k = s.die k) ∧ (t.die s.pick).home =
        { (s.die s.pick).home with active := some { a with recounting := true } }) ∧
    (s.now < a.since + 5000 → ∃ why, exec .persistentTimeout s = .refused (.notEnabled why)))

/-- R386 to R392, R394 to R396, R345, R372, R216, R231: recounts and recovery. A loss passes the active request to a recount; the
recount asks every die of the recall set, and again every 200 µs; each answers with all it holds of that serial and
discards that serial from then on, and the home adds its tokens, its crown and its data to its own; after the last
answer the line has its 256 tokens at home under a new serial, and the active request is served again. DOWN and
UP change what a die knows of another; one that rejoins has no entry, a new incarnation and 2 ms of silence.
A message of 2 ms is destroyed.
Messages of 2 ms are destroyed by an event of their own (log 48). -/
def Obligations.RecountsRestoreTokens : Prop :=
  (∀ s d src link, s.delivers d src (.loss link) → ∃ t, exec .loss s = .next t ∧
    t = { s.without with dies := t.dies } ∧ (∀ k, k ≠ d → t.die k = s.die k) ∧
    (t.die d).home = { (s.die d).home with
      active := (s.die d).home.active.map fun a => { a with recounting := true } }) ∧
  (∀ (s : State) d line req i, let part := (s.linePart line).map fun p => p.idies
    (i ∈ s.recallSet d line ↔ ((i < 128 ∧ ∃ m, part = some m ∧ m.getLsbD i = true) ∨ s.lineHome line = some i) ∧
      i ∉ (s.die d).down) ∧
    (req ∈ s.egressMask line ∨ req ∉ s.oldMask line → s.serveSet d line req = s.recallSet d line)) ∧
  (∀ d line s a, (s.die d).home.active = some a → (s.die d).failed = false → a.recounting = true → a.req.line = line →
    (s.die d).home.recount line = none → (s.die d).home.recounts.length < 8 →
    (∀ c ∈ (s.die d).home.closed, c.1 = line → c.2 + maxAge ≤ s.now) →
    let set := s.serveSet d line a.req.die
    set ≠ [] →
    ∃ t, exec (.recountOpen d line) s = .next t ∧ (t.die d).recounts = satInc (s.die d).recounts ∧
      (t.die d).home.recounts = (s.die d).home.recounts ++
        [⟨line, (s.sideOf line).serial, set, s.now⟩] ∧
      ∀ i, i ∈ set → (s.ownDie i).isSome = true →
        t.holds s d i (.recall line (s.sideOf line).serial)) ∧
  (∀ d line s r, (s.die d).home.recount line = some r → (s.die d).failed = false →
    (r.sent + 20000 ≤ s.now → ∃ t, exec (.recallResend d line) s = .next t ∧
      (t.die d).home.recount line = some { r with sent := s.now } ∧
      ∀ i, i ∈ r.pending → (s.ownDie i).isSome = true → t.holds s d i (.recall line r.serial)) ∧
    (s.now < r.sent + 20000 → ∃ why, exec (.recallResend d line) s = .refused (.notEnabled why))) ∧
  (∀ s d src line sn, s.delivers d src (.recall line sn) → s.filterRoom d line sn = true →
    (128 ≤ src → ∀ e, s.ent d line = some e → e.serial = sn → exec .recall s = .next
      (State.postHome (State.dropEnt (State.reArm { s.without with filters :=
        if (s.filters.any fun f => f.die == d && f.line == line && f.serial == sn) then s.filters
        else s.filters ++ [⟨d, line, sn, s.now + maxAge⟩] } d line) d line) d line
        (.rack line ⟨e.count, e.crown, sn, if e.crown then some e.data else none, e.crown && e.dirty⟩))) ∧
    (src < 128 → (s.ownDie src).isSome = true → ∃ t, exec .recall s = .next t ∧
      (∃ f ∈ t.filters, f.die = d ∧ f.line = line ∧ f.serial = sn) ∧
      (∀ e, s.ent d line = some e → e.serial = sn → t.ent d line = none ∧ t.holds s d src
        (.rack line ⟨e.count, e.crown, sn, if e.crown then some e.data else none, e.crown && e.dirty⟩)) ∧
      ((∀ e, s.ent d line = some e → e.serial ≠ sn) → t.lines = s.lines ∧
        t.holds s d src (.rack line ⟨0, false, sn, none, false⟩)))) ∧
  (∀ s d src line r p, (s.die d).home.recount line = some r → s.delivers d src (.rack line p) → p.serial = r.serial →
    (s.sideOf line).serial = r.serial → (s.sideOf line).symErr = 0 →
    let left := r.pending.filter fun i => i != src
    let x := s.sideOf line
    let n := x.count + p.count
    let crown := x.crown || p.crown
    let dirty := p.crown && p.dirty
    (s.atNode line = true → p.count ≠ 0 → left ≠ [] → ∃ t, exec .rack s = .next t ∧
      t = (s.without.postHome d line (.putt line p)).updHome d (fun h => { h with
        recounts := h.recounts.map fun q => if q.line = line then { q with pending := left } else q })) ∧
    (s.atNode line = false →
      (left ≠ [] → ∃ t, exec .rack s = .next t ∧ (t.die d).home.recount line = some { r with pending := left } ∧
        t.sideOf line = { x with count := n, crown := crown, poison := x.poison && !dirty } ∧
        (dirty = false → t.mem = s.mem) ∧ (dirty = true → ∀ l, p.data = some l →
          (∀ i, i < 128 → rdByte t.mem (128 * line + i) = lineByte l i) ∧
          ∀ a, a / 128 ≠ line → rdByte t.mem a = rdByte s.mem a)) ∧
      (left = [] → ∀ a, (s.die d).home.active = some a → a.req.line = line → (s.ownDie a.req.die).isSome = true →
        crown = true → x.poison = false →
        let l := if dirty then p.data.getD (s.homeLine line) else s.homeLine line
        ∃ t, exec .rack s = .next t ∧ (t.die d).home.recount line = none ∧
          (t.die d).home.active = some { a with recounting := false, since := s.now, forwarded := !a.req.write } ∧
          (a.req.write = true → t.sideOf line = { x with count := 0, crown := false, serial := r.serial + 1 } ∧
            t.holds s d a.req.die (.tok line ⟨256, true, r.serial + 1, some l, false⟩)) ∧
          (a.req.write = false → t.sideOf line = { x with count := 255, crown := true, serial := r.serial + 1 } ∧
            t.holds s d a.req.die (.tok line ⟨1, false, r.serial + 1, some l, false⟩))))) ∧
  (∀ s d src line r, (s.die d).home.recount line = some r →
    s.delivers d src (.rack line ⟨0, false, r.serial, none, false⟩) → s.atNode line = false →
    (s.sideOf line).serial = r.serial → (s.sideOf line).symErr = 0 →
    s.sys.fqbase.toNat % 64 = 0 → s.fqLine ≠ line → (r.pending.filter fun i => i != src) = [] →
    ((s.die d).home.active = none → ∃ t, exec .rack s = .next t ∧
      (t.die d).home.recount line = none ∧
      t.sideOf line = { s.sideOf line with
        count := 256, crown := true, serial := r.serial + 1,
        poison := (s.sideOf line).poison || !(s.sideOf line).crown })) ∧
  (∀ d idx s f, s.filters[idx]? = some f → f.die = d → f.til ≤ s.now →
    exec (.recallFilterExpiry d idx) s = .next { s with filters := dropNth idx s.filters }) ∧
  (∀ s d src isl, s.delivers d src (.down isl) → (s.die d).home.active = none →
    (s.die d).home.recounts = [] → s.sreqs = [] → ∃ t, exec .down s = .next t ∧ isl ∈ (t.die d).down ∧
      (t.die d).home.pending = (s.die d).home.pending.filter (fun r => r.die != isl) ∧
      (t.die d).home.turn = (s.die d).home.turn.filter (fun r => r.die != isl) ∧
      ∀ sl, sl < 16 → t.pent d sl isl = PEnt.none) ∧
  (∀ s d src isl inc, s.delivers d src (.up isl inc) → ∃ t, exec .up s = .next t ∧
    t = { s.without with dies := t.dies } ∧ (∀ k, k ≠ d → t.die k = s.die k) ∧
    t.die d = { s.die d with
      known := put 0 isl inc (s.die d).known, down := (s.die d).down.filter fun i => i != isl }) ∧
  (∀ s til, (s.die s.pick).upUntil = some til →
    (til ≤ s.now → ∃ t, exec .upHoldoffExpiry s = .next t ∧ (t.die s.pick).upUntil = none) ∧
    (s.now < til → ∃ why, exec .upHoldoffExpiry s = .refused (.notEnabled why))) ∧
  (∀ s e, s.pick < 8 → e < 8 → e ≠ s.pick → s.islDie s.pick ∈ (s.die e).down →
    let d := s.pick
    ∃ t, exec .dieRejoin s = .next t ∧ (t.die d).incarn = (s.die d).incarn + 1 ∧
      look 0 (s.islDie d) (t.die d).known = (s.die d).incarn + 1 ∧
      (t.die d).upUntil = some (s.now + maxAge) ∧ (t.die d).home = Home.empty ∧
      (∀ line, line < 2 ^ 45 → t.ent d line = none) ∧ (∀ f ∈ t.filters, f.die ≠ d) ∧
      ∀ k line, k ≠ d → line < 2 ^ 45 → t.ent k line = s.ent k line) ∧
  (∀ line s d, (s.lineHome line).bind s.ownDie = some d → s.atNode line = false →
    ((s.sideOf line).symErr = 0 → exec (.patrolScrub d line) s = .next s) ∧
    ((s.sideOf line).symErr = 1 → exec (.patrolScrub d line) s =
      .next (s.setSide line { s.sideOf line with symErr := 0 })) ∧
    (2 ≤ (s.sideOf line).symErr → ∃ t, exec (.patrolScrub d line) s = .next t ∧
      (s.sys.fqbase.toNat % 64 = 0 → s.fqLine ≠ line →
        t.sideOf line = { s.sideOf line with poison := true, symErr := 0 }) ∧
      (s.fqReady = true → t.sys.fqtail = s.sys.fqtail + 1))) ∧
  (∀ s f, s.net[s.pick]? = some f → s.ages f = true →
    (maxAge ≤ Flight.age f s.now → exec .messageAgeExpiry s = .next s.without) ∧
    (Flight.age f s.now < maxAge → ∃ why, exec .messageAgeExpiry s = .refused (.notEnabled why))) ∧
  (∀ s k f, s.egress[k]? = some f → s.pick = s.net.length + k → maxAge ≤ Flight.age f s.now →
    exec .messageAgeExpiry s = .next { s with egress := dropNth k s.egress }) ∧
  (∀ d idx s f, (s.die d).home.forwards[idx]? = some f → f.2.2 ≤ s.now →
    ∃ t, exec (.migrationForwardExpiry d idx) s = .next t ∧ t = { s with dies := t.dies } ∧
      (∀ k, k ≠ d → t.die k = s.die k) ∧
      t.die d = { s.die d with
        home := { (s.die d).home with forwards := dropNth idx (s.die d).home.forwards } })

/-! ## Ports, links, extents -/

/-- R403 to R408, R453, R17, R386: a port sends frames of five flits, in order, until their number reaches 2^32, and keeps
each until it is acknowledged. A frame that verifies under the expected number delivers its messages and is acknowledged;
any other is asked for again, at most 7 times, and in containment mode fails the link at once, as does
an acknowledgement that does not come in 20 µs; a failed link is Down, its retry buffer lost, and every home is told.
A restarted port trains, exchanges keys and is Up. One valid assignment gives the package its place. Signatures are
verified against the root key of the unit map. A grant waits until the accesses to the old one are over, and a notice
of revocation stops the requests that have not left (R402, R409 to R411).
Flit counts, and keys and chains, which are uninterpreted, are as log 8, log 21 and log 49 take them. -/
def Obligations.PortsCarryFrames : Prop :=
  let one (s t : State) (p : Nat) (k : Port) : Prop :=
    t = { s with ports := t.ports } ∧ t.port p = k ∧ ∀ q, q ≠ p → t.port q = s.port q
  let fails (s t : State) (p : Nat) : Prop := (t.port p).st = .down ∧ (t.port p).retry = [] ∧
    ((s.die (portDie p)).failed = false → ∀ i, i < 8 * s.enum.islsize → (s.ownDie i).isSome = true → t.holds s (portDie p) i (.loss (16 + p)))
  (∀ (k : Port) now, k.st = .up → k.rekeyAt = none → k.queue ≠ [] →
    (∀ f l, k.queue = f :: l → k.part < flits f.msg) → (∀ f ∈ k.queue, Flight.age f now < maxAge) →
    (k.tx.toNat < 2 ^ 32 → ∃ ms, (k.frame now).retry = k.retry ++ [(k.tx, ms)] ∧ ms ≠ [] ∧
      (k.frame now).tx = k.tx + 1 ∧ (k.frame now).wire = k.wire ++ [.frame k.tx ms] ∧
      (k.frame now).queued = k.queued - 5 ∧
      ∀ f l, (k.frame now).queue = f :: l → (k.frame now).part < flits f.msg) ∧
    (2 ^ 32 ≤ k.tx.toNat → k.frame now = k)) ∧
  (∀ (k : Port) now, k.rekeyAt = none → k.part = 0 → ∀ r ∈ (k.frame now).retry,
    r ∈ k.retry ∨ ∀ f ∈ r.2, Flight.age f now < maxAge) ∧
  (∀ p f s, p < 36 → (s.port p).st = .up → (s.port p).rekeyAt = none →
    let k := s.port p
    let run := exec (.frameReceive p f) s
    (f.tagOk = true → f.seq = k.rx → s.enum.pkgValid = true → (∀ m ∈ f.msgs, m.aged < maxAge) →
      ∃ t, run = .next t ∧ t = { s with ports := t.ports, net := t.net } ∧
        t.port p = { k with rx := k.rx + 1, fails := 0, skipTo := false, wire := k.wire ++ [.ack k.rx] } ∧
        t.net = s.net ++ f.msgs.map (s.incoming p)) ∧
    (f.tagOk = false ∨ f.seq ≠ k.rx →
      (k.skipTo = true → f.seq ≠ k.rx → ∃ t, run = .next t ∧ one s t p k) ∧
      (k.skipTo = false ∨ f.seq = k.rx →
        (k.containment = false → k.fails < 7 →
          ∃ t, run = .next t ∧ one s t p { k with
            fails := k.fails + 1, skipTo := true, wire := k.wire ++ [.retry k.rx] }) ∧
        (k.containment = true ∨ 7 ≤ k.fails → ∃ t, run = .next t ∧ fails s t p)))) ∧
  (∀ p f s, (s.port p).st ≠ .up → (s.port p).rekeyAt = none →
    ∃ why, exec (.frameReceive p f) s = .refused (.notEnabled why)) ∧
  (∀ p seq s, (s.port p).st = .up →
    let k := s.port p
    ((k.retry.any fun r => r.1 == seq) = true → ∃ t, exec (.frameAcknowledgement p seq) s = .next t ∧
      one s t p { k with
        retry := k.retry.filter (fun r => r.1 != seq), acked := seq + 1, ackSince := s.now, resends := 0 }) ∧
    (k.containment = false → k.resends < 7 → (k.retry.any fun r => r.1 == seq) = true →
      ∃ t, exec (.retryRequest p seq) s = .next t ∧ one s t p { k with
        resends := k.resends + 1
        wire := k.wire ++ (k.retry.dropWhile fun r => r.1 != seq).map fun r => Wire.frame r.1 r.2 }) ∧
    (k.containment = true ∨ 7 ≤ k.resends ∨ (k.retry.any fun r => r.1 == seq) = false →
      ∃ t, exec (.retryRequest p seq) s = .next t ∧ fails s t p)) ∧
  (∀ s, (s.port s.pick).st = .up → (s.port s.pick).retry ≠ [] →
    ((s.port s.pick).ackSince + 2000 ≤ s.now → ∃ t, exec .linkAckTimeout s = .next t ∧ fails s t s.pick) ∧
    (s.now < (s.port s.pick).ackSince + 2000 →
      ∃ why, exec .linkAckTimeout s = .refused (.notEnabled why))) ∧
  (∀ s f, s.egress[s.pick]? = some f →
    ∀ p, s.bestPort (s.sendDie f) (s.portsFor f.dest) = some p → Flight.age f s.now < maxAge →
    s.barred f.msg = false →
    (Msg.train f.msg = none → ∃ t, exec .egressWaitRelease s = .next t ∧ t.egress = dropNth s.pick s.egress ∧
      one { s with egress := t.egress } t p { s.port p with queue := (s.port p).queue ++ [f] }) ∧
    ∀ n, Msg.train f.msg = some n → ∃ t, exec .egressWaitRelease s = .next t ∧
      (∀ x ∈ s.egress, Msg.train x.msg = some n → x ∈ (t.port p).queue ∧ x ∉ t.egress)) ∧
  (∀ s, s.pick < 36 → (s.port s.pick).st = .down → ∃ t, exec .portRestart s = .next t ∧
    one s t s.pick { s.port s.pick with st := .training, since := s.now }) ∧
  (∀ s, (s.port s.pick).st = .training → ∃ t, exec .lanesTrained s = .next t ∧
    ∃ e, one { s with freeCtr := t.freeCtr } t s.pick { s.port s.pick with
      st := .keying, since := s.now, ephem := e
      wire := (s.port s.pick).wire ++ [.key (Config.ecPublic e) Config.identCert] }) ∧
  (∀ s, (s.port s.pick).st = .training ∨
    ((s.port s.pick).st = .keying ∧ (s.port s.pick).since + 10000000 ≤ s.now) → ∃ t, exec .portTimeout s = .next t ∧
      (t.port s.pick).st = .down ∧ (s.fqReady = true → t.sys.fqtail = s.sys.fqtail + 1)) ∧
  (∀ (s : State) x k,
    (∀ m, s.boot.map = some m → s.keyOk x k = Config.keyOk m.rootKey k.cert (x.keyHash k) k.sig) ∧
    (s.boot.map = none → s.keyOk x k = false)) ∧
  (∀ p k s, p < 36 → (s.port p).st = .keying → ∃ t, exec (.keyExchange p k) s = .next t ∧
    (t.port p).wire = (s.port p).wire ++ [.sign (Config.identSign ((s.port p).keyHash k))] ∧
    (s.keyOk (s.port p) k = true → (t.port p).st = .up ∧ (t.port p).tx = 0 ∧
      (t.port p).rx = 0 ∧ (t.port p).retry = [] ∧ (t.port p).rekeyAt = none ∧
      (t.port p).txKey = ((s.port p).agree k).1 ∧ (t.port p).rxKey = ((s.port p).agree k).2) ∧
    (s.keyOk (s.port p) k = false → (t.port p).st = .down)) ∧
  (∀ p k (n : BitVec 64) s, p < 36 → (s.port p).st = .up → (s.port p).rekeyAt = none →
    2 ^ 32 - 2 ^ 20 ≤ (s.port p).tx.toNat ∨ 2 ^ 32 - 2 ^ 20 ≤ (s.port p).rx.toNat →
    (s.port p).tx.toNat ≤ n.toNat → (s.port p).rx.toNat ≤ n.toNat → n.toNat ≤ 2 ^ 32 →
    let y := (s.sendKey p).port p
    (s.keyOk y k = true → ∃ t, exec (.rekey p k n) s = .next t ∧ (t.port p).rekeyAt = some n ∧
      (t.port p).wire = y.wire ++ [.sign (Config.identSign (y.keyHash k))] ∧
      (t.port p).tx = (s.port p).tx ∧ (t.port p).txKey = (s.port p).txKey ∧
      (t.port p).nextTx = (y.agree k).1 ∧ (t.port p).nextRx = (y.agree k).2 ∧ (t.port p).txSwitched = false ∧ (t.port p).rxSwitched = false) ∧
    (s.keyOk y k = false → ∃ t, exec (.rekey p k n) s = .next t ∧ fails s t p ∧
      (t.port p).wire = y.wire ++ [.sign (Config.identSign (y.keyHash k))])) ∧
  (∀ p a s, p < 36 → (s.port p).st = .up →
    let ok := s.verifies (Config.assignSigOk · a)
    ∃ t, exec (.assignment p a) s = .next t ∧
    (∃ f, (t.port p).queue = (s.port p).queue ++ [f] ∧ ∃ n, f.msg = .assignAck n ∧
      (ok = false → n = 1) ∧ (ok = true → (s.enum.pkgValid = true → n = 0 ∨ n = 2) ∧
        (s.enum.pkgValid = false → n = if 1 ≤ a.islsize ∧ a.islsize ≤ 16 ∧ a.islpos < a.islsize then 0 else 3))) ∧
    (s.enum.pkgValid = true ∨ ok = false ∨ a.islsize = 0 ∨ 16 < a.islsize ∨
      a.islsize ≤ a.islpos → t.enum = s.enum) ∧
    (s.enum.pkgValid = false → ok = true → 1 ≤ a.islsize → a.islsize ≤ 16 →
      a.islpos < a.islsize →
      t.enum = { s.enum with islpos := a.islpos, islsize := a.islsize, pkgid := a.pkgid, pkgValid := true } ∧
      (∀ q b, a.modes = [(q, b)] → (t.port q).containment = b) ∧
      (∀ q l, a.direct = [(q, l)] → (t.port q).direct = l) ∧
      ∀ q l, a.onward = [(q, l)] → (t.port q).onward = l)) ∧
  (∀ s, s.pick < 10 → s.pick ∉ s.linkDown →
    let d := if (s.die (linkEnds s.pick).1).failed then (linkEnds s.pick).2 else (linkEnds s.pick).1
    ∃ t, exec .dieLinkFailure s = .next t ∧
    t.linkDown = s.linkDown ++ [s.pick] ∧ (s.fqReady = true → t.sys.fqtail = s.sys.fqtail + 1) ∧
    ((s.die d).failed = false → ∀ i, i < 8 * s.enum.islsize → (s.ownDie i).isSome = true →
      t.holds s d i (.loss s.pick))) ∧
  (∀ g s, s.enum.pkgValid = true → g.pages ≤ 2 ^ 24 →
    let free : Prop := ∀ e, find g.extno.toNat s.extents = some e →
      e.revoking = false ∧ (e.grant.part = g.part ∨ s.drained g.extno.toNat = true)
    (free → exec (.extentGrant g) s = .next { s with extents := ins g.extno.toNat ⟨g, false⟩ s.extents }) ∧
    (¬ free → ∃ why, exec (.extentGrant g) s = .refused (.notEnabled why))) ∧
  (∀ s e, find s.pick s.extents = some e →
    (e.revoking = false → ∃ t, exec .revokeNotice s = .next t ∧ t = { s with
      extents := ins s.pick { e with revoking := true } s.extents, egress := t.egress, ports := t.ports } ∧
      t.egress = (s.egress.filter fun f => !t.barred f.msg) ∧
      ∀ p, (s.port p).part = 0 → t.port p = { s.port p with
        queue := (s.port p).queue.filter fun f => !t.barred f.msg }) ∧
    (e.revoking = true → s.drained s.pick = true →
      exec .revokedConfirmation s = .next { s with extents := del s.pick s.extents }) ∧
    (s.drained s.pick = false → ∃ why, exec .revokedConfirmation s = .refused (.notEnabled why)))

/-! ## Copies, landing zones, windows: what follows their queues -/

/-- R280, R281, R283, R284, R303, R316, R293, R453: the coalescer turns the record at the head of a core's copy queue into
operations, of one source line and one destination line each; a scratchpad copy moves its bytes, all read before any is
written, and counts them at its barrier; TASK appends to a work queue that is on and of its partition and has room;
LZRSV becomes a request.
Outcomes of errors that the spec does not state are the model's (log 23); one event is one operation (log 4). -/
def Obligations.CopyOperationsPerform : Prop :=
  (∀ s r rest, (s.core s.pick).copyq = r :: rest → ∃ t, exec .coalesce s = .next t ∧ t.mem = s.mem ∧
    (∀ k, k ≠ s.pick → t.core k = s.core k) ∧ (t.core s.pick).copyq = rest ∧
    (t.core s.pick).copyOps.map (fun o => (o.r, o.st, o.data)) =
      (s.core s.pick).copyOps.map (fun o => (o.r, o.st, o.data)) ++
        r.ops.map (fun l => ({ r with segs := l }, .pend, []))) ∧
  (∀ s, (s.core s.pick).copyq = [] → ∃ why, exec .coalesce s = .refused (.notEnabled why)) ∧
  (∀ r : CopyRec, r.kind = .cpy → ∀ l ∈ r.ops, (∀ g ∈ l, g ∈ r.segs) ∧ (∀ g ∈ l, ∀ h ∈ l,
    g.src / 128 = h.src / 128 ∧ g.dst / 128 = h.dst / 128) ∧ (l.map (·.dst)).Nodup) ∧
  ∀ core idx s o, (s.core core).copyOps[idx]? = some o → ∀ c, s.copyCtx core o = some c →
    let run := exec (.copyOperationPerform core idx) s
    let gone (t : State) : Prop := ∀ x ∈ (t.core core).copyOps, x.id ≠ o.id
    let a (x : Nat) : Nat := c.tm.base + x
    (s.copyAllowed c = true → ∃ t, run = .next t) ∧
    (s.copyAllowed c = false → ∃ why, run = .refused (.notEnabled why)) ∧
    (s.copyAllowed c = true → o.r.kind = .cpy → o.r.sspace = .sp → o.r.dspace = .sp → ∀ g, o.r.segs = [g] →
      o.data = [] → o.r.dep = none → 0 < g.len →
      (s.core c.tm.core).fifoTouch (a g.src) g.len = false →
      (s.core c.tm.core).fifoTouch (a g.dst) g.len = false →
      ∃ t, run = .next t ∧ gone t ∧
        (t.core c.tm.core).scratch = wrBytes (s.core c.tm.core).scratch (a g.dst)
          (rdBytes (s.core c.tm.core).scratch (a g.src) g.len) ∧
        ∀ b, o.r.bar = some b → ∀ x, s.barrier o.r.team b = some x →
          ∃ y, t.barrier o.r.team b = some (x.event y (.bytes (coverage [g])))) ∧
    (∀ u, s.copyAllowed c = true → o.r.kind = .task → c.grp.resid = .bound →
      let q := o.r.n
      let answers (t : State) (st : Word) : Prop := gone t ∧
        ((t.regsOf o.r.group u).get .s (o.r.ds.getD 0)).val = st
      (s.wqOn q = false ∨ s.wqPart q ≠ c.gd.part → ∃ t, run = .next t ∧ answers t 2 ∧ t.mem = s.mem) ∧
      (s.wqOn q = true → s.wqPart q = c.gd.part →
        (s.wqPosted q = 2 ^ s.wqLog q → ∃ t, run = .next t ∧ answers t 1 ∧ t.mem = s.mem) ∧
        (s.wqPosted q ≠ 2 ^ s.wqLog q → ∀ pa, (s.copyReach c (s.wqSlot q (s.wqTail q)) true).1 = .ok pa →
          ∃ t, run = .next t ∧ answers t 0 ∧ t.wqTail q = (s.wqTail q + 1) % 2 ^ 32))) ∧
    (s.copyAllowed c = true → o.r.kind = .lzrsv →
      let ref := slotRef (o.r.words.getD 0 0).toNat (o.r.words.getD 1 0).toNat 0
      (ref.pkg = s.pkg → ∃ t, run = .next t ∧ gone t ∧
        t.reqs = s.reqs ++ [⟨s.nextId, .lzrsv o.r.group (o.r.ds.getD 0) (o.r.sb.getD 0), core, c.gd.part,
          some ref, ref.pkg, 0, s.now⟩] ∧
        ∃ f ∈ t.net, f.msg = .lzReq s.nextId ref o.r.n c.gd.part s.pkg ∧ f.dest = .pkg ref.pkg) ∧
      (ref.pkg ≠ s.pkg → s.enum.pkgValid = false → c.grp.resid = .bound → ∃ t, run = .next t ∧ gone t ∧
        ∀ u, ((t.regsOf o.r.group u).get .s (o.r.ds.getD 0)).val.toNat / 2 ^ 28 = 5))

/-- R292 to R297, R352, R453: what comes to a landing zone's core and to a sender: a reservation takes the first FREE slot
or says why not; a packet within a slot that is open is written and counted, any other is dropped or fails the slot;
an abort or a cancel ends an open slot; the answers settle the request, its register and its scoreboard.
Where several refusals of a reservation hold, the order in which they are judged is the model's (log 68). -/
def Obligations.LandingZonesReceive : Prop :=
  let replies (t : State) (m : Msg) (src : BitVec 18) : Prop := ∃ f ∈ t.net, f.msg = m ∧ f.dest = .pkg src
  (∀ s f, s.net[s.pick]? = some f → s.expired f = false → ∀ req slot len part, f.msg = .lzReq req slot len part s.pkg →
    (∃ t, exec .lzrsvRequest s = .next t) ∧
    let refuses (st : Nat) : Prop := ∃ t, exec .lzrsvRequest s = .next t ∧ t.cores = s.cores ∧
      ∃ f ∈ t.net, f.dest = .pkg s.pkg ∧ ∃ w, f.msg = .lzRep req w ∧ w.toNat / 2 ^ 28 = st
    (s.zoneSeat slot = none → refuses 3) ∧
    ∀ core zn z, s.zoneSeat slot = some (core, zn, z) →
      (z.closing.isSome = true → refuses 3) ∧
      (z.closing = none →
        (z.gen ≠ slot.zgen → refuses 2) ∧
        (z.gen = slot.zgen →
          (s.teamPart z.team ≠ some part → refuses 6) ∧
          (s.teamPart z.team = some part →
            (z.bytes < len → refuses 4) ∧
            (len ≤ z.bytes →
              (s.freeSlot core zn z = none → refuses 1) ∧
              ∀ k i sl, s.freeSlot core zn z = some (k, i, sl) → ∃ t, exec .lzrsvRequest s = .next t ∧
                find i (t.core core).slots = some ⟨zn, .reserved, sl.gen + 1, len, 0, false, 0⟩ ∧
                replies t (.lzRep req (BitVec.ofNat 32 (k + (sl.gen + 1).toNat * 256))) s.pkg))))) ∧
  (∀ s f, s.net[s.pick]? = some f → s.expired f = false → ∀ req w, f.msg = .lzRep req w → ∀ q, s.req req = some q →
    ∀ g ds sb, q.kind = .lzrsv g ds sb → ∀ x, s.group g = some x → x.resid = .bound → ∀ u, ∃ t y, exec .lzrsvReply s = .next t ∧
      t.req req = none ∧ t.group g = some y ∧ look 0 sb y.sb = look 0 sb x.sb - 1 ∧
      ((t.regsOf g u).get .s ds).val = w) ∧
  (∀ s f, s.net[s.pick]? = some f → s.expired f = false → ∀ req slot ofs data, f.msg = .lzPacket req slot ofs data s.pkg →
    let run := exec .lzPacketArrival s
    (s.zoneSeat slot = none → s.liveCore (SlotRef.coreNo slot) = true → ∃ t, run = .next t ∧
      (t.core (SlotRef.coreNo slot)).drops = satInc (s.core (SlotRef.coreNo slot)).drops ∧ replies t (.lzAck req false) s.pkg) ∧
    ∀ core zn z i sl, s.slotSeat slot = some (core, zn, z, i, sl) → ∀ tm, s.team z.team = some tm →
      z.closing = none →
      let n := data.length
      let a := tm.base + z.base + slot.slot * z.bytes + ofs
      (sl.st.isOpen = true → sl.expected < sl.arrived + n ∨ sl.expected < ofs + n → ∃ t, run = .next t ∧
        find i (t.core core).slots = some { sl with st := .failed, err := true, cause := 4 } ∧
        (t.core core).scratch = (s.core core).scratch ∧ replies t (.lzAck req false) s.pkg) ∧
      (sl.st.isOpen = true → sl.arrived + n ≤ sl.expected → ofs + n ≤ sl.expected →
        (s.core core).fifoOverlap a n = false → ∃ t, run = .next t ∧
          find i (t.core core).slots = some { sl with
            st := if sl.arrived + n = sl.expected then .full else .filling, arrived := sl.arrived + n } ∧
          (t.core core).scratch = wrBytes (s.core core).scratch a data ∧ replies t (.lzAck req true) s.pkg)) ∧
  (∀ s f, s.net[s.pick]? = some f → s.expired f = false → ∀ req ok, f.msg = .lzAck req ok → ∀ q, s.req req = some q →
    ∀ id bytes, q.kind = .lzsend id bytes → ∀ x, s.sends.find? (fun y => y.id == id) = some x →
    ∃ t, exec .lzAcknowledgement s = .next t ∧ t.req req = none ∧
      (ok = true → x.bar = none → 2 ≤ x.left →
        t.sends = s.sends.map fun y => if y.id == id then { y with left := y.left - 1 } else y)) ∧
  (∀ s f, s.net[s.pick]? = some f → s.expired f = false → ∀ req, f.msg = .lzAbortAck req → exec .lzAcknowledgement s =
    .next { s.without with reqs := s.reqs.filter fun r => r.id != req }) ∧
  (∀ s f, s.net[s.pick]? = some f → s.expired f = false → ∀ req slot cause, f.msg = .lzAbort req slot cause s.pkg →
    ∃ t, exec .lzAbort s = .next t ∧ replies t (.lzAbortAck req) s.pkg ∧
      ∀ core zn z i sl, s.slotSeat slot = some (core, zn, z, i, sl) → z.closing = none →
        sl.st.isOpen = true →
        find i (t.core core).slots = some { sl with st := .failed, err := true, cause := cause }) ∧
  (∀ s q, s.reqs[s.pick]? = some q → ∀ cause til, q.kind = .lzabort cause til → ∀ slot, q.slot = some slot →
    (til ≤ s.now → exec .lzAbortRetry s = .next { s with reqs := dropNth s.pick s.reqs }) ∧
    (s.now < til → q.pkg = s.pkg → ∃ t, exec .lzAbortRetry s = .next t ∧ t.reqs = s.reqs ∧
      replies t (.lzAbort q.id slot cause s.pkg) s.pkg)) ∧
  (∀ s f, s.net[s.pick]? = some f → s.expired f = false → ∀ req slot, f.msg = .lzCancel req slot s.pkg →
    ∃ t, exec .lzCancelArrival s = .next t ∧ replies t (.lzCancelAck req) s.pkg ∧
      ∀ core zn z i sl, s.slotSeat slot = some (core, zn, z, i, sl) → z.closing = none →
        (sl.st.isOpen = true →
          find i (t.core core).slots = some { sl with st := .cancelled, err := true, cause := 3 }) ∧
        (sl.st = .failed → find i (t.core core).slots = some { sl with st := .free })) ∧
  (∀ s f, s.net[s.pick]? = some f → s.expired f = false → ∀ req, f.msg = .lzCancelAck req → ∀ q, s.req req = some q →
    ∀ g sb, q.kind = .lzcancel g sb → ∀ x, s.group g = some x → x.resid = .bound → ∃ t y, exec .lzCancelAck s = .next t ∧
      t.req req = none ∧ t.group g = some y ∧ look 0 sb y.sb = look 0 sb x.sb - 1) ∧
  (∀ core i s sl, find i (s.core core).slots = some sl → ∀ z, find sl.zone (s.core core).zones = some z →
    ∀ til, z.closing = some til → sl.st.isOpen = true →
    (til + 10000000 ≤ s.now → ∃ t, exec (.lzCloseExpiry core i) s = .next t ∧
      find i (t.core core).slots = none) ∧
    (s.now < til + 10000000 → ∃ why, exec (.lzCloseExpiry core i) s = .refused (.notEnabled why))) ∧
  (∀ s q, s.reqs[s.pick]? = some q → q.pkg ≠ s.pkg → q.kind.timed = true → q.since + 400000 ≤ s.now →
    ∃ t, exec .requestTimeout s = .next t ∧
      ∀ g ds sb, q.kind = .lzrsv g ds sb → ∀ x, s.group g = some x → x.resid = .bound → ∀ u,
        t.reqs = dropNth s.pick s.reqs ∧ ((t.regsOf g u).get .s ds).val.toNat / 2 ^ 28 = 5)

/-- R298, R300, R302, R346, R413: a window packet at its target is refused, with a record, where its window does not
accept it; a read that it accepts is answered with the bytes of the window, a write is stored; a multicast block is judged
with its first line. The answer settles the request of the initiator and adds the bytes sent to LCNT of the window; the
bytes of a read go to the operation that asked for them.
The fields of a refusal's record and the outcome of a target's error are the model's (log 22, log 23); so are that the
first line of a block judges it, the node that its answer goes to, and that an answer of another length is none (log 39). -/
def Obligations.WindowPacketsArrive : Prop :=
  let replies (t : State) (m : Msg) (src : BitVec 18) : Prop := ∃ f ∈ t.net, f.msg = m ∧ f.dest = .pkg src
  (∀ s f, s.net[s.pick]? = some f → s.expired f = false →
    let run := exec .windowPacketIngress s
    let die := s.flightDie f
    (∀ req w part ps, f.msg = .winGet req w part s.pkg ps →
      let e := s.winEntry die w.win.toNat
      (winAccepts e part .read ps = false → ∃ t, run = .next t ∧ replies t (.winAck req false []) s.pkg ∧
        (s.fqReady = true → t.sys.fqtail = s.sys.fqtail + 1)) ∧
      (winAccepts e part .read ps = true → ∀ pas,
        ((s.without.fillWin die w.win.toNat).place die part false (winBase e) ps).1 = .ok pas →
        ∃ t, run = .next t ∧ t.mem = s.mem ∧ replies t (.winAck req true (pas.flatMap s.getAll)) s.pkg)) ∧
    (∀ req w part ps, f.msg = .winPut req w part s.pkg ps →
      let e := s.winEntry die w.win.toNat
      let ranges := ps.map fun p => (p.1, p.2.length)
      (winAccepts e part .write ranges = false → ∃ t, run = .next t ∧
        replies t (.winAck req false []) s.pkg ∧ (s.fqReady = true → t.sys.fqtail = s.sys.fqtail + 1)) ∧
      (winAccepts e part .write ranges = true → ∀ pas,
        ((s.without.fillWin die w.win.toNat).place die part true (winBase e) ranges).1 = .ok pas →
        ∃ t, run = .next t ∧ replies t (.winAck req true []) s.pkg ∧
          ∀ ofs data, ps = [(ofs, data)] → ∀ as, pas = [as] → as.length = data.length → as.Nodup →
            s.groups = [] → s.devStores = [] → (∀ a ∈ as, s.lost (a / 128) = false) → (∀ a ∈ as, a < s.winAddr w.win.toNat + 0x20 ∨ s.winAddr w.win.toNat + 0x24 ≤ a) →
            as.map t.physByte = data ∧
            t.winCount w.win.toNat true = (s.winCount w.win.toNat true + data.length) % 2 ^ 32)) ∧
    (∀ req w part ty sat es, f.msg = .winRed req w part s.pkg ty sat es →
      (∃ t, run = .next t) ∧
      (winAccepts (s.winEntry die w.win.toNat) part .reduce (es.map fun x => (x.1, WTy.bytes ty)) = false →
        ∃ t, run = .next t ∧ replies t (.winAck req false []) s.pkg)) ∧
    (∀ g m w part n i bs, f.msg = .winMc g m w part s.pkg n i bs → (∃ t, run = .next t) ∧
      ((∀ r ∈ s.mcRecvs, r.src = s.pkg → r.id = g → r.member = m → r.live s.now = false) → i < n →
        winAccepts (s.winEntry die w.win.toNat) part .write
          ((List.range n).map fun j => (w.off.toNat + 128 * j, 128)) = false → ∃ t, run = .next t ∧
        (s.fqReady = true → t.sys.fqtail = s.sys.fqtail + 1) ∧
        (n = 1 → s.enum.pkgValid = true → ∃ f ∈ t.egress ++ (List.range 36).flatMap fun p => (t.port p).queue,
          f.msg = .winMcAns g m false ∧ f.dest = .node (Config.mcNode s.pkg)) ∧
        (1 < n → ∃ r ∈ t.mcRecvs, r.id = g ∧ r.member = m ∧ r.pas = none ∧
          r.left = (List.range n).filter fun j => j != i)))) ∧
  (∀ s f, s.net[s.pick]? = some f → s.expired f = false → ∀ req ok data, f.msg = .winAck req ok data → ∀ q, s.req req = some q →
    (∀ win team bytes, q.kind = .wput win team bytes → ∃ t, exec .windowAcknowledgement s = .next t ∧
      t.req req = none ∧
      (s.groups = [] → t.winCount win.toNat false = (s.winCount win.toNat false + bytes) % 2 ^ 32)) ∧
    ∀ win team op bytes, q.kind = .wget win team op bytes →
      (ok = true → data.length = bytes → ∃ t, exec .windowAcknowledgement s = .next t ∧ t.req req = none ∧
        t.mem = s.mem ∧ (t.core q.core).copyOps = (s.core q.core).copyOps.map fun o =>
          if o.id == op then { o with data := data, st := .pend } else o) ∧
      (ok = true → data.length ≠ bytes → exec .windowAcknowledgement s = .next s.without) ∧
      (ok = false → ∃ t, exec .windowAcknowledgement s = .next t ∧ t.req req = none ∧
        (t.core q.core).copyOps = (s.core q.core).copyOps.filter (fun o => o.id != op) ∧
        s.winCount win.toNat false = t.winCount win.toNat false)) ∧
  (∀ s f, s.net[s.pick]? = some f → s.expired f = false → ∀ req bits, f.msg = .mcAck req bits →
    ∀ q, s.req req = some q → ∀ win team bytes ack ms lost, q.kind = .mcast win team bytes ack ms lost →
    (∃ t, exec .multicastAck s = .next t) ∧ (ack % 64 ≠ 0 → ∃ t, exec .multicastAck s = .next t ∧ t.req req = none ∧
      ((∀ m ∈ ms, bits.getLsbD m.1 = true) → s.groups = [] →
        t.winCount win.toNat false = (s.winCount win.toNat false + bytes) % 2 ^ 32)))

/-! ## The matrix unit -/

/-- R185, R187, R190, R194, R196, R199, R200, R203, R204, R206 to R209 (record by record, log 4): the head of a group's
matrix queue takes effect when its tile is readable and its scratchpad bytes are free, and leaves the queue: ADSET
binds, ACCZ and ACCLD give a tile new elements, ACCST and ACCMOV read and write them, ACCSCL scales them, ACCWAIT waits,
ADINV drops adapter entries. A joint record issues through its latch; each chunk of it adds to the rows of its
tiles. An adapter slice that has come in fills an entry.
Where the spec gives no outcome the model's conventions of log 44 hold. -/
def Obligations.MatrixRecordsTakeEffect : Prop :=
  let el (s : State) (core p m n : Nat) : RegWord := look RegWord.zero (ekey m n) (s.tile core p).elems
  (∀ s c, s.matCtx s.pick = some c →
    let run := exec .matrixRecordHead s
    let k := s.core c.core
    let done (t : State) : Prop := ∃ y, t.group c.g = some y ∧
      y.matq = c.grp.matq.filter (fun q => q.id != c.r.id) ∧
      (∀ n, c.r.sb = some n → look 0 n y.sb = look 0 n c.grp.sb - 1) ∧ (c.r.sb = none → y.sb = c.grp.sb)
    let quiet (t : State) : Prop := t = { s with groups := t.groups, cores := t.cores }
    let clean (p : Nat) : Prop := ∀ m n, m < 32 → n < 64 → (el s c.core p m n).ecc = .clean
    (∀ acc j, c.r.kind = .joint acc j → ∃ why, run = .refused (.notEnabled why)) ∧
    (∀ b, c.r.kind = .adset b → ∃ t, run = .next t ∧ done t ∧
      t = { s with groups := t.groups, teams := t.teams } ∧
      t.team c.grp.team = some { c.team with binding := b }) ∧
    (∀ acc, c.r.kind = .accz acc → ∀ p, s.physOf c.g acc = some p →
      (s.inFlight c.core p = true → ∃ why, run = .refused (.notEnabled why)) ∧
      (s.readable c.core c.g acc = true → ∃ t, run = .next t ∧ done t ∧ quiet t ∧
        ∀ m n, el t c.core p m n = RegWord.zero)) ∧
    (∀ acc ty base pitch, c.r.kind = .accld acc ty base pitch → ∀ p, s.physOf c.g acc = some p →
      s.readable c.core c.g acc = true → s.matClear c (tileRows base pitch (TTy.bytes ty)) = true →
      let es := TTy.bytes ty
      ∃ t, run = .next t ∧ done t ∧ quiet t ∧ ∀ m n, m < 32 → n < 64 →
        let x := fld (leNat (rdBytes k.scratch (c.team.base + (base + m * pitch)) (64 * es))) (8 * es * n) (8 * es)
        (el t c.core p m n).val = BitVec.ofNat 32 (rne32 (fread (TTy.fmt ty) false x)).toNat) ∧
    (∀ acc ty sat base pitch, c.r.kind = .accst acc ty sat base pitch → ∀ p, s.physOf c.g acc = some p →
      let es := TTy.bytes ty
      (s.readable c.core c.g acc = false → ∃ why, run = .refused (.notEnabled why)) ∧
      (s.readable c.core c.g acc = true → s.matClear c (tileRows base pitch es) = true →
        (s.flagged c.core c.g acc = true → ∃ t, run = .next t ∧ (t.core c.core).scratch = k.scratch) ∧
        (s.flagged c.core c.g acc = false → clean p → 64 * es ≤ pitch →
          (∀ m, m < 32 → k.fifoTouch (c.team.base + (base + m * pitch)) (64 * es) = false) →
          ∃ t, run = .next t ∧ done t ∧ quiet t ∧ ∀ m n, m < 32 → n < 64 →
            rdBytes (t.core c.core).scratch (c.team.base + base + m * pitch + n * es) es =
              leBytes es (fround (TTy.fmt ty) .rne sat false
                (fread f32 false (el s c.core p m n).val.toNat))))) ∧
    (∀ acc vn w col lanes, c.r.kind = .accmovTo acc vn w col lanes → ∀ u p, s.physOf c.g acc = some p →
      s.readable c.core c.g acc = true → s.flagged c.core c.g acc = false →
      (∀ i ∈ lanes, i < 32 ∧ ∀ j, j < w → (el s c.core p i (col + j)).ecc = .clean) → lanes.Nodup →
      ∃ t, run = .next t ∧ done t ∧ quiet t ∧ ∀ i ∈ lanes, ∀ j, j < w →
        (t.regsOf c.g u).get .v (vkey (vn + j) i) = el s c.core p i (col + j)) ∧
    (∀ acc w col rows, c.r.kind = .accmovFrom acc w col rows → ∀ i ws, rows = [(i, ws)] → ∀ p, s.physOf c.g acc = some p →
      s.readable c.core c.g acc = true → ∃ t, run = .next t ∧ done t ∧ quiet t ∧
        ∀ j x, ws[j]? = some x → (el t c.core p i (col + j)).val = x) ∧
    (∀ acc, c.r.kind = .accwait acc false →
      (s.readable c.core c.g acc = false → ∃ why, run = .refused (.notEnabled why)) ∧
      (s.readable c.core c.g acc = true → s.flagged c.core c.g acc = false → ∃ t, run = .next t ∧ done t ∧
        t = { s with groups := t.groups })) ∧
    (∀ acc, c.r.kind = .accwait acc true → s.allReadable c = true →
      (∀ m ∈ c.grp.amap, s.flagged c.core c.g m.1 = false) → ∃ t, run = .next t ∧ done t ∧
        t = { s with groups := t.groups }) ∧
    (∀ acc col sc bi sb bb, c.r.kind = .accscl acc col sc bi sb bb → ∀ p, s.physOf c.g acc = some p →
      let n := if col then 64 else 32
      s.readable c.core c.g acc = true →
      s.matClear c ((if sc then [(sb, 4 * n)] else []) ++ (if bi then [(bb, 4 * n)] else [])) = true → clean p →
      ∃ t, run = .next t ∧ done t ∧ quiet t ∧ ∀ m n, m < 32 → n < 64 →
        let vec (a : Nat) : El := fread f32 false
          (leNat (rdBytes k.scratch (c.team.base + (a + 4 * (if col then n else m))) 4))
        let a := fread f32 false (el s c.core p m n).val.toNat
        let y := if sc then a.mul (vec sb) else a
        (el t c.core p m n).val = BitVec.ofNat 32 (rne32 (if bi then y.add .rne (vec bb) else y)).toNat) ∧
    (∀ acc lanes nb, c.r.kind = .up acc lanes nb → ∀ p, s.physOf c.g acc = some p →
      (s.inFlight c.core p = true → ∃ why, run = .refused (.notEnabled why)) ∧
      (s.inFlight c.core p = false → ∃ t, run = .next t ∧
        ((∀ i ∈ lanes, (s.tile c.core p).rowId i = 0) → done t ∧ t = { s with groups := t.groups }))) ∧
    (∀ all id b, c.r.kind = .adinv all id b → b = none →
      let names (e : AdEntry) : Prop := e.handle = c.team.binding.handle ∧ (all = true ∨ e.id = id)
      (∀ e ∈ k.adcache, names e → k.pinned e.name = false) → ∃ t, run = .next t ∧ done t ∧ quiet t ∧
        ∀ e ∈ (t.core c.core).adcache, ¬ names e)) ∧
  (∀ s c acc j, s.jointHead s.pick = some (c, acc, j) → j.gang = 0 → j.z = false →
    ∀ p, s.physOf c.g acc = some p →
    let kc := (chunkLen (descOf j.fa) (descOf j.fb)).getD 0
    (s.matClear c (jointRanges j kc) = false → ∃ why, exec .rendezvousIssue s = .refused (.notEnabled why)) ∧
    (s.matClear c (jointRanges j kc) = true →
      (s.rowsBad (c, acc, j) = true → ∃ t, exec .rendezvousIssue s = .next t ∧
        t.flagged c.core c.g acc = true ∧ (t.core c.core).matUnit = (s.core c.core).matUnit) ∧
      (s.rowsBad (c, acc, j) = false → ∃ t, exec .rendezvousIssue s = .next t ∧
        (t.core c.core).matUnit.dropLast = (s.core c.core).matUnit ∧
        ∃ o, (t.core c.core).matUnit.getLast? = some o ∧ o.b.length = j.kch ∧ o.kc = kc ∧
          o.bind = c.team.binding ∧
          o.members.map (fun m => (m.group, m.mrec, m.acc, m.tile)) = [(s.pick, c.r.id, acc, p)]))) ∧
  (∀ s o rest, (s.core s.pick).matUnit = o :: rest → ∃ t, exec .matrixChunk s = .next t ∧
    (o.b.length ≤ 1 → (t.core s.pick).matUnit = rest) ∧
    (1 < o.b.length → (t.core s.pick).matUnit = o.next :: rest ∧
      ∀ m, o.members = [m] → ∀ r, m.rows = [r] → r.id = 0 →
        (∀ n, (el s s.pick m.tile r.row n).ecc = .clean) → ∀ n, ∀ y, (o.b.headD [])[n]? = some y →
        (el t s.pick m.tile r.row n).val =
          BitVec.ofNat 32 (chunkAcc (el s s.pick m.tile r.row n).val.toNat (r.a.headD []) y))) ∧
  (∀ s, (s.core s.pick).matUnit = [] → ∃ why, exec .matrixChunk s = .refused (.notEnabled why)) ∧
  ∀ core idx s f, (s.core core).adfills[idx]? = some f →
    (∀ x, f.outcome = some x → ∃ t, exec (.adapterSliceArrival core idx) s = .next t ∧
      ∀ y ∈ (t.core core).adfills, y.name ≠ f.name) ∧
    (f.outcome = none → f.parked = true →
      ∃ why, exec (.adapterSliceArrival core idx) s = .refused (.notEnabled why)) ∧
    (f.outcome = none → f.parked = false → ∀ bs,
      let d := adDesc bs
      let s1 := (s.devRead core f.part (.fill core f.name) [(f.bind.table + 64 * f.id, 64)]).2
      (s.devRead core f.part (.fill core f.name) [(f.bind.table + 64 * f.id, 64)]).1 = .bytes bs →
      (d.ok = false → ∃ t, exec (.adapterSliceArrival core idx) s = .next t ∧
        ∀ y ∈ (t.core core).adfills, y.name ≠ f.name) ∧
      (d.ok = true → ∀ x, (s1.devRead core f.part (.fill core f.name) (d.ranges f.proj f.block)).1 = .bytes x →
        (((s1.devRead core f.part (.fill core f.name) (d.ranges f.proj f.block)).2.core core).adRoom
          (adSet f.id (f.proj, f.block))).isSome = true →
        ∃ t, exec (.adapterSliceArrival core idx) s = .next t ∧
          (∀ y ∈ (t.core core).adfills, y.name ≠ f.name) ∧ ∃ e ∈ (t.core core).adcache, e.name = f.name ∧
            e.handle = f.bind.handle ∧ e.id = f.id ∧ e.proj = f.proj ∧ e.block = f.block ∧
            e.data = d.layout f.proj f.block x))

/-! ## Grids, teams -/

/-- R40 to R43, R48, R219, R221, R304 to R313: a doorbell moves its queue's tail; the dispatcher takes the record at its
head into a grid slot; a grid that may place a cluster gets the rectangle of R41, with a team and its groups at their
start; a grid that has waited 1 ms marks a rectangle to drain; an idle core applies a carve-out; a team whose groups
have exited ends; a grid that is over decrements its counter, writes its completion word and frees its slot.
Records that are not readable, carve-outs and waiting times are as log 25, log 26 and log 50 take them; that a running grid
goes on placing without being the first served is log 53. -/
def Obligations.GridsRunFromLaunchToEnd : Prop :=
  (∀ q v s, q < 16384 → s.boot.ready = true →
    let x : Nat := BitVec.toNat v % 2 ^ 32
    (s.wqOn q = false → exec (.doorbell q v) s = .next s) ∧
    (s.wqOn q = true → dist32 x (s.wqHead q) ≤ 2 ^ s.wqLog q →
      ∃ t, exec (.doorbell q v) s = .next t ∧ t.wqTail q = x) ∧
    (s.wqOn q = true → 2 ^ s.wqLog q < dist32 x (s.wqHead q) → ∃ t, exec (.doorbell q v) s = .next t ∧
      (s.fqReady = true → t.sys.fqtail = s.sys.fqtail + 1))) ∧
  (∀ s, let q := s.pick
    q < 16384 → s.boot.ready = true → s.gradeMet = true → s.wqOn q = true → s.wqPosted q ≠ 0 →
    s.grids.length < 4096 →
    let r := s.devReach 0 (s.wqPart q) (s.wqSlot q (s.wqHead q)) 64 false .device
      { s.dieRec 0 0 with queue := q, ridx := s.wqHead q }
    let u := r.2
    (∀ c, r.1 = .fail c → exec .dispatchTake s = .next u) ∧
    ∀ a, r.1 = .pa a → ∃ t g, exec .dispatchTake s = .next t ∧ t.grid s.nextId = some g ∧
      g.lrec = BitVec.ofNat 512 (u.physNat a 64) ∧ g.queue = q ∧ g.ring = s.wqHead q ∧
      t.wqHead q = (s.wqHead q + 1) % 2 ^ 32 ∧
      (g.lanes = 0 ∨ 2048 < g.lanes ∨ g.part ≠ u.wqPart q ∨ shapeOk g.rows g.cols = false →
        g.st = .rejected) ∧
      (u.recordCode g (u.wqPart q) = 0 → g.st = if g.arm.testBit 15 = true ∧ look 0 (fld g.arm 0 12) s.depctr ≠ 0
        then .armed else .ready)) ∧
  (∀ s g, s.grid s.pick = some g →
    let n := fld g.collF 8 5
    let dies := (List.range 8).filter fun d => g.collF.testBit d
    let cs := dies.flatMap fun d => s.collOn d n
    g.st = .ready → g.collWant = true → g.coll = [] → s.startable g = true → s.collHeld < 8 →
    cs.length = n * dies.length → cs ≠ [] → ∃ t, exec .collectiveSelect s = .next t ∧
      t.grid s.pick = some { g with coll := cs } ∧ ∀ c ∈ cs, (t.core c).coll = some s.pick) ∧
  (∀ s g, s.grid s.pick = some g → s.mayPlace s.pick g = true → (g.st = .running ∨ s.firstServed g = true) →
    ∀ r, s.rectFor s.pick g = some r → ∃ t h, exec .placeCluster s = .next t ∧ t.grid s.pick = some h ∧
      h.next = g.next + 1 ∧ h.st = .running ∧
      ∀ core, r = [core] → ∃ tm, t.team s.nextId = some tm ∧ tm.grid = s.pick ∧ tm.cluster = g.next ∧
        tm.member = 0 ∧ tm.core = core ∧ tm.size = g.scr ∧ tm.phase = .running ∧
        tm.groups.length = g.ngroups ∧ (∀ i, i < g.barsDecl → ∃ b, find i tm.bars = some b ∧
          b.expa = g.ngroups ∧ b.arra = 0 ∧ b.mode = .arr ∧ b.phase = false) ∧
        ∀ i, i < g.ngroups → ∃ x f, t.group (s.nextId + 1 + i) = some x ∧ x.idx = i ∧ x.team = s.nextId ∧
          coreOf x.track = core ∧ x.nlanes = g.lanesIn i ∧ look 0 0 x.k = below (g.lanesIn i) ∧
          (look RegWord.zero 0 x.s).val = BitVec.ofNat 32 g.args ∧
          (look RegWord.zero 1 x.s).val = BitVec.ofNat 32 (g.args / 2 ^ 32) ∧
          (∀ n, 2 ≤ n → look RegWord.zero n x.s = RegWord.zero) ∧ x.v = [] ∧ x.fltstat = 0 ∧
          x.trapvec = BitVec.ofNat 64 g.trapv ∧ find 0 x.split = some f ∧ f.pc = BitVec.ofNat 57 g.kaddr ∧
          f.mask = below (g.lanesIn i) ∧ f.state = .ready) ∧
  (∀ s g, s.grid s.pick = some g → s.mayPlace s.pick g = true → g.waitSince + 100000 ≤ s.now →
    s.rectFor s.pick g = none → (∀ e ∈ s.dies, e.2.draining.map (·.grid) ≠ some s.pick) →
    ∀ r, s.bestRect s.pick g ((s.partDies g.part).filter fun d => (s.die d).draining.isNone) false = some r →
    ∃ t, exec .drainingMark s = .next t ∧ t = { s with dies := t.dies } ∧
      (t.die (dieOf (r.headD 0))).draining = some ⟨s.pick, r⟩) ∧
  (∀ s, let k := s.core s.pick
    let want := k.carve.toNat % 256
    s.liveCore s.pick = true → s.idleCore s.pick = true → k.wtb = [] →
    (s.die (dieOf s.pick)).draining = none → want ≠ k.applied →
    ∃ t, exec .carveOutApply s = .next t ∧ t = { s with cores := t.cores } ∧
      (t.core s.pick).applied = want ∧ (t.core s.pick).carve.toNat % 256 = want ∧
      ∀ a, rdByte (t.core s.pick).scratch a = if a < want * 65536 then rdByte k.scratch a else 0) ∧
  (∀ s x, s.team s.pick = some x → x.phase = .running →
    (∀ g ∈ x.groups, ∀ y, s.group g = some y → y.resid = .bound ∧ y.split = []) →
    s.recordsDone s.pick x.groups = true → ∃ t, exec .teamEnd s = .next t ∧
      (∀ y, t.team s.pick = some y → y.phase = .freed ∨ y.phase = .gone) ∧
      ∀ g ∈ x.groups, ∀ y, t.group g = some y → y.resid = .dead) ∧
  (∀ s g, s.grid s.pick = some g → ∀ st, s.gridOver s.pick g = some st →
    (st = .rejected ∨ s.gridReleased s.pick = true) →
    (g.notify = 0 → ∃ t, exec .gridEnd s = .next t ∧ t.grid s.pick = none ∧
      (g.ended = false → g.doneF.testBit 15 = true → st ≠ .rejected → g.skip = false →
        look 0 (fld g.doneF 0 12) t.depctr =
          BitVec.ofNat 16 ((look 0 (fld g.doneF 0 12) s.depctr).toNat - 1))) ∧
    (g.ended = true → g.notify ≠ 0 → ∀ a, (s.devReach 0 g.part g.notify 8 true (.notify s.pick)
        { s.dieRec 0 0 with queue := g.queue, ridx := g.ring, addr := g.notify }).1 = .pa a →
      ∃ t, exec .gridEnd s = .next t ∧ t.grid s.pick = none ∧ t.physNat a 8 = g.word st % 2 ^ 64))

/-! ## Saved groups -/

/-- R331 to R336, R350, R329, R330, R321, R367: a group that can be saved has the registers that its live mask names written
to its slot and leaves its track, and a ready one comes back with them, every other register 0; a pre-emption that has
waited 20 µs takes everything; a team moves with its scratchpad and a forwarding entry; a service request enters
its ring, and its reply makes its group ready; a waiting fault record is written when the ring has room and the tokens of
its line are at hand.
Free tickets, slots and migration are as log 16 and log 27 take them, stores of the device and the scrub of what it reads
as log 14. -/
def Obligations.GroupsAreSavedAndRestored : Prop :=
  (∀ s grp, s.group s.pick = some grp → ∀ gd, s.grid grp.grid = some gd → ∀ tm, s.team grp.team = some tm →
    let a := slotBase gd tm grp.idx
    (gd.st ≠ .aborted → s.canSave s.pick grp = true → ∃ t y, exec .groupSave s = .next t ∧
      t.group s.pick = some y ∧ y.resid = .saved ∧ y.live = savedMask grp ∧ y.v = [] ∧ y.s = [] ∧
      (grp.reason = 3 → t.svcWait = s.svcWait ++ [s.pick]) ∧
      t.physNat (a + 0x210) 4 = (look 0 0 grp.k).toNat ∧ t.physNat (a + 0x238) 8 = (savedMask grp).toNat ∧
      t.physNat (a + 0x240) 4 = grp.fltstat.toNat ∧
      (canon RegWord.zero grp.s = true → ∀ r, r < 128 → (savedMask grp).getLsbD (16 + r / 8) = true →
        t.physNat (a + 4 * r) 4 = (look RegWord.zero r grp.s).val.toNat)) ∧
    (s.canSave s.pick grp = false → ∃ why, exec .groupSave s = .refused (.notEnabled why)) ∧
    (grp.resid = .bound → grp.preempt = true → grp.reason = 1 ∨ grp.reason = 4 → grp.since + 2000 ≤ s.now →
      ∃ t, exec .preemptForce s = .next t ∧ t = { s with groups := t.groups } ∧
        t.group s.pick = some { grp with reason := 2 }) ∧
    (∀ u, grp.resid = .ready → gd.st ≠ .aborted → tm.migrate = none → ∀ trk,
      s.restoreTrack tm.core gd = some trk → (s.track trk).run = none →
      (∀ l ∈ slotLines a grp gd, s.unseen l = false ∧ (s.sideOf l).symErr = 0) → ∃ t y, exec .groupRestore s = .next t ∧
        t.group s.pick = some y ∧ y.resid = .bound ∧ y.track = trk ∧ y.svc = none ∧
        y.fltstat = BitVec.ofNat 32 (s.physNat (a + 0x240) 4 % 2 ^ 16) ∧
        look 0 0 y.k = BitVec.ofNat 32 (s.physNat (a + 0x210) 4) ∧
        ∀ r, r < 128 → grp.svc = none → ((t.regsOf s.pick u).get .s r).val =
          if grp.live.getLsbD (16 + r / 8) then BitVec.ofNat 32 (s.physNat (a + 4 * r) 4) else 0)) ∧
  (∀ s x, s.team s.pick = some x → ∀ gd, s.grid x.grid = some gd → x.phase = .running → gd.st ≠ .aborted →
    (s.mustMigrate x gd = true → (∃ g ∈ x.groups, ∃ y, s.group g = some y ∧ y.resid = .bound ∧ y.split ≠ [] ∧
        y.preempt = false) → ∃ t, exec .teamMigration s = .next t ∧ t = { s with groups := t.groups } ∧
      ∀ g ∈ x.groups, ∀ y, s.group g = some y → y.resid = .bound → y.split ≠ [] → y.preempt = false →
        t.group g = some { y with preempt := true, reason := 4, since := s.now, mig := true }) ∧
    ∀ c, x.migrate = some c → (∀ g ∈ x.groups, ∀ y, s.group g = some y → y.resid ≠ .bound) → c ≠ x.core →
      s.admits c x.grid gd ((x.groups.filterMap s.group).filter fun y => !y.over false).length true = true →
      ∀ b, s.migBase c x gd = some b → ∀ i, (s.core x.core).freeFwd = some i →
      (∀ e ∈ (s.core x.core).zones, e.2.used = false ∨ e.2.team ≠ s.pick) →
      Memory.wf (s.core x.core).scratch = true →
      ∃ t y, exec .teamMigration s = .next t ∧ t.team s.pick = some y ∧ y.core = c ∧ y.base = b ∧
        y.migrate = none ∧ find i (t.core x.core).fwds = some ⟨x.base, x.size, s.pick, c, b, s.now + 400000⟩ ∧
        (∀ o, o < x.size → rdByte (t.core c).scratch (b + o) = rdByte (s.core x.core).scratch (x.base + o)) ∧
        ∀ g ∈ x.groups, ∀ z, t.group g = some z → z.track = 128 * c) ∧
  (∀ core i s f, find i (s.core core).fwds = some f →
    (f.til ≤ s.now → ∃ t, exec (.forwardingExpiry core i) s = .next t ∧ find i (t.core core).fwds = none ∧
      ∀ j, j ≠ i → find j (t.core core).fwds = find j (s.core core).fwds) ∧
    (s.now < f.til → ∃ why, exec (.forwardingExpiry core i) s = .refused (.notEnabled why))) ∧
  (∀ s g rest, s.svcWait = g :: rest → ∀ grp, s.group g = some grp → ∀ c, grp.svc = some c →
    ∀ gd, s.grid grp.grid = some gd → ∀ tm, s.team grp.team = some tm →
    let n := c.blocks.length + 1
    (2 ^ s.sys.srlog2 < (s.sys.srtail - s.sys.srhead).toNat + n →
      ∃ why, exec .serviceRequestWrite s = .refused (.notEnabled why)) ∧
    ((s.sys.srtail - s.sys.srhead).toNat + n ≤ 2 ^ s.sys.srlog2 → ∃ t, exec .serviceRequestWrite s = .next t ∧
      t.svcWait = rest ∧ t.sys.srtail = s.sys.srtail + BitVec.ofNat 32 n ∧
      (s.devStores = [] → s.sys.srlog2 ≤ 20 → s.sys.srbase.toNat % 64 = 0 → (∀ b ∈ c.blocks, b.length = 16) →
        let u (o : Nat) : Nat := hostAddr s.sys.srbase (64 * (s.sys.srtail.toNat % 2 ^ s.sys.srlog2) + o)
        t.physNat (u 0) 1 = c.no.toNat % 256 ∧ t.physNat (u 8) 1 = c.blocks.length % 256 ∧
        t.physNat (u 10) 1 = c.ticket % 256))) ∧
  (∀ v s, s.devBusy = true → ∃ why, exec (.resumeDoorbell v) s = .refused (.notEnabled why)) ∧
  (∀ v s, s.boot.ready = true → s.devBusy = false →
    (find (BitVec.toNat v) s.tickets = none → ∃ t, exec (.resumeDoorbell v) s = .next t ∧
      (s.fqReady = true → t.sys.fqtail = s.sys.fqtail + 1)) ∧
    ∀ g, find (BitVec.toNat v) s.tickets = some g → ∀ grp, s.group g = some grp → ∀ c, grp.svc = some c →
      ∀ gd, s.grid grp.grid = some gd → ∀ tm, s.team grp.team = some tm → gd.st = .running → grp.resid = .saved →
      g ∉ s.svcWait →
      let word := s.physNat (hostAddr s.sys.rpbase (2112 * BitVec.toNat v)) 4
      ∃ t, exec (.resumeDoorbell v) s = .next t ∧ find (BitVec.toNat v) t.tickets = none ∧
        (word % 2 = 0 → ∃ y, t.group g = some y ∧ y.resid = .ready) ∧
        (word % 2 = 1 → ∃ h, t.grid grp.grid = some h ∧ h.st = .aborted)) ∧
  (∀ s x rest, s.fqPend = x :: rest →
    (s.fqReady = true → ∃ t, exec .faultRecordWrite s = .next t ∧
      t.fqPend = rest ∧ t.sys.fqtail = s.sys.fqtail + 1 ∧
      ((∀ e ∈ rest, e.1 ≠ x.1) → ∀ y, t.group x.1 = some y → y.stopped = false)) ∧
    (s.fqRoom = true → s.fqStorable = false → s.sreq (s.devDie s.fqLine) s.fqLine = none →
      exec .faultRecordWrite s = .next (s.request (s.devDie s.fqLine) s.fqLine true .device))) ∧
  (∀ s, s.fqRoom = false → s.fqPend ≠ [] →
    ∃ why, exec .faultRecordWrite s = .refused (.notEnabled why)) ∧
  (∀ c v s, c < 4096 → s.boot.ready = true → ∃ t, exec (.depctrHostWrite c v) s = .next t ∧
    t = { s with depctr := t.depctr, grids := t.grids } ∧ look 0 c t.depctr = v ∧
    (∀ k, k ≠ c → look 0 k t.depctr = look 0 k s.depctr) ∧
    ∀ k g, s.grid k = some g → ∃ h, t.grid k = some h ∧
      (v = 0 → g.st = .armed → fld g.arm 0 12 = c → h.st = .ready) ∧
      (v ≠ 0 ∨ g.st ≠ .armed ∨ fld g.arm 0 12 ≠ c → h = g))

/-! ## Commands -/

/-- R417, R314, R332, R335, R231, R345, R347: what each command of a command interface does once it is started: its
STATUS ends at 2 where it is done, 3 or 4 where it is turned away, and the machine holds its effect.
When a command completes, and what a turned-away one answers where the spec does not say, is the model's (log
27, log 51); so are the stages of a page migration, its events and its messages (log 30). -/
def Obligations.CommandsTakeEffect : Prop :=
  (∀ s, s.started 0 1 → ∃ t, exec .abort s = .next t ∧ look 0 0 t.sys.cmdStatus = 2 ∧
    ∀ k g, s.cmdGrid = some (k, g) → s.grid k = some g →
      (∀ j, j ≠ k → t.grid j = s.grid j) ∧
      (g.st = .armed ∨ g.st = .ready ∨ g.st = .running →
        t.grid k = some { g with st := .aborted, skip := (s.cmd 0 1 1).testBit 0 })) ∧
  (∀ s, s.started 0 2 → ∃ t, exec .releasePartition s = .next t ∧ look 0 0 t.sys.cmdStatus = 2 ∧
    ∀ k g, s.cmdGrid = some (k, g) → s.grid k = some g →
      t.grid k = some { g with coll := [], collWant := false } ∧
      ∀ core, (t.core core).coll = if (s.core core).coll = some k then none else (s.core core).coll) ∧
  (∀ s, s.started 0 3 →
    (s.preemptSet = none → ∃ t, exec .preEmpt s = .next t ∧ look 0 0 t.sys.cmdStatus = 4) ∧
    ∀ gs, s.preemptSet = some gs →
      ((∀ g ∈ gs, ∀ x, s.group g = some x → x.resid = .bound → x.split = []) →
        ∃ t, exec .preEmpt s = .next t ∧ look 0 0 t.sys.cmdStatus = 2) ∧
      ((∃ g ∈ gs, ∃ x, s.group g = some x ∧ x.resid = .bound ∧ x.split ≠ [] ∧ x.preempt = false) →
        ∃ t, exec .preEmpt s = .next t ∧ t = { s with groups := t.groups } ∧
          (∀ g, g ∉ gs → t.group g = s.group g) ∧
          ∀ g ∈ gs, ∀ x, s.group g = some x → x.resid = .bound → x.split ≠ [] → x.preempt = false →
            t.group g = some { x with preempt := true, reason := 1, since := s.now, mig := false })) ∧
  (∀ s, s.started 0 4 →
    (s.cmdGrid = none → ∃ t, exec .migrate s = .next t ∧ look 0 0 t.sys.cmdStatus = 4) ∧
    ∀ k g, s.cmdGrid = some (k, g) → ∀ id tm, s.cmdTeam k g (s.cmd 0 8 4) = some (id, tm) →
      let core := 24 * dieOf tm.core + s.cmd 0 12 2
      (24 ≤ s.cmd 0 12 2 ∨ s.liveCore core = false →
        ∃ t, exec .migrate s = .next t ∧ look 0 0 t.sys.cmdStatus = 4) ∧
      (s.cmd 0 12 2 < 24 → s.liveCore core = true → tm.migrate = none →
        (tm.core = core → ∃ t, exec .migrate s = .next t ∧ look 0 0 t.sys.cmdStatus = 2) ∧
        (tm.core ≠ core → ∃ t, exec .migrate s = .next t ∧
          t = { s with teams := t.teams } ∧ t.team id = some { tm with migrate := some core }))) ∧
  (∀ s, s.started 0 5 → ∃ t, exec .resume s = .next t ∧
    (s.cmdGrid = none → look 0 0 t.sys.cmdStatus = 4) ∧
    ∀ k g, s.cmdGrid = some (k, g) → look 0 0 t.sys.cmdStatus = 2 ∧
      ∀ n x, s.group n = some x → ∃ y, t.group n = some y ∧
        y = if x.grid = k ∧ x.resid = .saved ∧ x.svc = none then { x with resid := .ready } else x) ∧
  (∀ s, s.pick = 0 → s.started 1 1 → let part := BitVec.ofNat 16 (s.cmd 1 2 2)
    let va := s.cmd 1 8 8 % 2 ^ 57 / 4096 * 4096
    let leaf := s.cmd 1 16 8
    let new := s.cmd 1 24 8
    let r := s.see 0 (s.tableLines part va ++ if leaf / 2 ^ 48 = 0 then [leaf / 128] else [])
    let u := r.2
    let ends (n : Nat) : Prop := ∃ t, exec .pageMigration s = .next t ∧ look 0 1 t.sys.cmdStatus = n
    (s.moveOrdered = true → ∃ why, exec .pageMigration s = .refused (.notEnabled why)) ∧
    (s.moveOrdered = false →
      (r.1 = .wait true → exec .pageMigration s = .next u) ∧
      (r.1 = .wait false → ∃ why, exec .pageMigration s = .refused (.notEnabled why)) ∧
      (∀ c, r.1 = .err c → ends 4) ∧
      (r.1 = .ok → (u.part part = none → ends 4) ∧
        ∀ p, u.part part = some p → ∀ pa w, u.walk part va = .leaf 12 pa w false →
          (2 ^ 48 ≤ pa ∨ 2 ^ 48 ≤ new ∨ new % 4096 ≠ 0 ∨ p.holds new = false ∨ 2 ^ 48 ≤ leaf ∨
            ptePa (u.physNat leaf 8) ≠ pa ∨ new = pa → ends 4) ∧
          (pa < 2 ^ 48 → new < 2 ^ 48 → new % 4096 = 0 → p.holds new = true → leaf < 2 ^ 48 →
            ptePa (u.physNat leaf 8) = pa → new ≠ pa → ∀ h, u.lineHome (pa / 128) = some h →
            (u.ownDie h = none → exec .pageMigration s = .next (State.post { u with migPage := some (pa / 4096) } 0 (.die h)
              (.migOrder part va leaf (pa / 4096) (new / 4096)))) ∧
            ∀ d, u.ownDie h = some d →
              (u.movingAt d (pa / 4096) = none → exec .pageMigration s = .next (u.updHome d fun x => { x with
                moving := x.moving ++ [⟨part, va, leaf, pa / 4096, new / 4096, h, 0, [], 0, []⟩] })) ∧
              ∀ m, u.movingAt d (pa / 4096) = some m → ends 3)))) ∧
  (∀ s d, d < 8 → s.pick = d + 1 → ∀ m l, (s.die d).home.moving = m :: l → (∀ x ∈ l, x.page ≠ m.page) →
    let at_ (t : State) (n : Nat) : Prop := t.movingAt d m.page = some { m with stage := n }
    (m.stage = 0 → (s.die d).home.quiet m.page = true →
      ∃ t, exec .pageMigration s = .next t ∧ t.movingAt d m.page = some { m with
        stage := 1, sent := s.now, left := (List.range 32).map fun j => (m.page * 32 + j, s.recallSet d (m.page * 32 + j)) }) ∧
    (m.stage = 1 → (∀ e ∈ m.left, e.2 = []) → m.new ≠ m.page →
      (∀ j, j < 32 → (s.sideOf (m.page * 32 + j)).crown = true ∧ (s.sideOf (m.page * 32 + j)).count = 256) →
      ((s.pageHome m.new).isSome = true → ∃ t, exec .pageMigration s = .next t ∧ at_ t 3 ∧
        (∃ x ∈ t.tlbis, x.fin = .page d m.page) ∧ ∀ j, j < 32 → t.homeLine (m.new * 32 + j) = s.homeLine (m.page * 32 + j) ∧
          let x := s.sideOf (m.page * 32 + j)
          t.sideOf (m.new * 32 + j) = ⟨256, true, x.serial, x.poison, 0⟩) ∧
      (s.pageHome m.new = none → ∀ h, s.homeDest (m.new * 32) = some h → ∃ t, exec .pageMigration s = .next t ∧ at_ t 2 ∧ t.mem = s.mem)) ∧
    (m.stage = 4 → (s.see d [m.leaf / 128]).1 = .ok → ∃ t, exec .pageMigration s = .next t ∧ at_ t 5 ∧
      let e := (s.see d [m.leaf / 128]).2.physNat m.leaf 8
      t.physNat m.leaf 8 = (e - ptePa e + m.new * 4096) % 2 ^ 64) ∧
    (m.stage = 5 → (∀ x ∈ s.devStores, x.1 / 128 ≠ m.leaf / 128) → ∃ t, exec .pageMigration s = .next t ∧
      at_ t 6 ∧ ∃ x ∈ t.tlbis, x.fin = .page d m.page) ∧
    (m.stage = 7 → (s.ownDie m.by_).isSome = true →
      ∃ t, exec .pageMigration s = .next t ∧ look 0 1 t.sys.cmdStatus = 2 ∧ t.movingAt d m.page = none ∧
        (m.page, m.new, s.now + 200000) ∈ (t.die d).home.forwards)) ∧
  (∀ s f, s.net[s.pick - 9]? = some f → 9 ≤ s.pick → s.expired f = false → ∀ i, f.dest = .die i → ∀ d, s.ownDie i = some d →
    let u : State := { s with net := dropNth (s.pick - 9) s.net }
    (∀ page st, f.msg = .migDone page st → s.migPage = some page → exec .pageMigration s =
      .next { u.cmdEnd 1 st with migPage := none }) ∧
    (∀ part va leaf page new, f.msg = .migOrder part va leaf page new → s.movingAt d page = none →
      exec .pageMigration s = .next (u.updHome d fun x => { x with
        moving := x.moving ++ [⟨part, va, leaf, page, new, f.src, 0, [], 0, []⟩] })) ∧
    (∀ m, (s.die d).home.moving = [m] → f.msg = .migPageAck m.new → m.stage = 2 →
      ∃ t, exec .pageMigration s = .next t ∧ t.movingAt d m.page = some { m with stage := 3 } ∧
        ∃ x ∈ t.tlbis, x.fin = .page d m.page)) ∧
  (∀ s, s.started 2 1 → let idx := s.cmd 2 1 1
    let e := s.cmd 2 128 128
    let ids := (if fld e 16 1 = 1 then [(entryPart e).partid] else []) ++
      ((find idx s.parts).map fun p => [p.partid]).getD []
    (8 ≤ idx ∨ s.entryOk idx e = false →
      ∃ t, exec .repartition s = .next t ∧ t = { s with sys := t.sys } ∧ look 0 2 t.sys.cmdStatus = 4) ∧
    (idx < 8 → s.entryOk idx e = true →
      let zones := s.cores.any fun c => c.2.zones.any fun z => z.2.used && z.2.isOpen &&
        ((s.team z.2.team).bind fun m => s.grid m.grid).map (fun g => ids.contains g.part) == some true
      (zones = true ∨ (∃ g ∈ s.grids, g.2.ended = false ∧ g.2.part ∈ ids) →
        ∃ t, exec .repartition s = .next t ∧ t = { s with sys := t.sys } ∧ look 0 2 t.sys.cmdStatus = 3) ∧
      (zones = false → (∀ g ∈ s.grids, g.2.ended = false → g.2.part ∉ ids) →
        ∃ t, exec .repartition s = .next t ∧ look 0 2 t.sys.cmdStatus = 2 ∧
          find idx t.parts = (if fld e 16 1 = 1 then some (entryPart e) else none) ∧
          (∀ j, j ≠ idx → find j t.parts = find j s.parts) ∧
          ∀ d, d < 8 → (t.die d).partid =
            ((t.parts.find? fun x => x.2.dies.getLsbD d).map fun x => x.2.partid).getD 0))) ∧
  (∀ s, s.started 3 1 → ∃ t, exec .windowInvalidate s = .next t ∧
    ((∀ x ∈ s.winWait, Msg.winOf x.flight.msg ≠ some (s.cmd 3 2 2)) →
      (∀ r ∈ s.mcRecvs, r.win.toNat = s.cmd 3 2 2 → r.live s.now = false) → look 0 3 t.sys.cmdStatus = 2) ∧
    ((∃ x ∈ s.winWait, Msg.winOf x.flight.msg = some (s.cmd 3 2 2)) → t.sys = s.sys) ∧
    ∀ d, find (s.cmd 3 2 2) (t.die d).wcache = none ∧
      ∀ w, w ≠ s.cmd 3 2 2 → find w (t.die d).wcache = find w (s.die d).wcache) ∧
  (∀ i ev s, (ev, i) ∈ [(Instr.abort, 0), (.releasePartition, 0), (.preEmpt, 0), (.migrate, 0), (.resume, 0),
    (.pageMigration, 1), (.repartition, 2), (.windowInvalidate, 3)] →
    (ev = .pageMigration → s.pick = 0) → look 0 i s.sys.cmdStatus ≠ 1 → ∃ why, exec ev s = .refused (.notEnabled why))

/-! ## The host's port -/

/-- R415, R420, R421, R426: after any reset the device stands before its first boot step with nothing of its state kept
but serial flash; each step passes or fails with its code; a conventional reset does not end a thermal trip; a commit of a
unit map is busy until its end, which writes flash or says why not; configuration requests are retried until boot has ended.
The map's contents and the signatures are uninterpreted; what a reset keeps outside the device is the model's
(log 8 to log 10, log 51), and so are the failure of a map whose cores miss its grade (log 62), the two events of a commit
(log 70) and the identity word and second function of configuration space (log 61). -/
def Obligations.ResetsAndBoot : Prop :=
  (∀ s ev, ev = Instr.powerOnReset ∨ (ev = .conventionalReset ∧ s.tripped = false) ∨
      (ev = .reset 0x5A5A0001#32 ∧ s.tripped = false ∧ Boot.ended s.boot = true) →
    ∃ t, exec ev s = .next t ∧ t.flash = s.flash ∧ t.boot = Boot.start ∧ t.tripped = false ∧ t.sys = Sys.reset ∧
      t.enum = Enum.reset ∧ t.parts = [] ∧ t.extents = [] ∧ t.depctr = [] ∧ t.dies = [] ∧ t.cores = [] ∧
      t.tracks = [] ∧ t.groups = [] ∧ t.teams = [] ∧ t.grids = [] ∧ t.lines = [] ∧ t.side = [] ∧ t.mem = [] ∧
      t.net = [] ∧ t.devStores = [] ∧ t.hostMem = s.hostMem ∧ t.poolMem = s.poolMem) ∧
  (∀ s v, s.tripped = false → Boot.ended s.boot = true → v ≠ 0x5A5A0001#32 → exec (.reset v) s = .next s) ∧
  (∀ s, s.tripped = true → ∃ why, exec .conventionalReset s = .refused (.notEnabled why)) ∧
  (∀ s, s.tripped = false → Boot.ended s.boot = false →
    let fails (n : Nat) : Prop := ∃ t, exec .bootStep s = .next t ∧
      t = { s with boot := { s.boot with code := n, failed := true } }
    let passes : Prop := ∃ t, exec .bootStep s = .next t ∧ t.boot.step = s.boot.step + 1 ∧ t.boot.failed = false ∧
      t.flash = s.flash
    (s.boot.step = 1 → (Config.mapSigOk s.flash.current = false → fails 1) ∧
      (Config.mapSigOk s.flash.current = true → passes ∧ ∃ t, exec .bootStep s = .next t ∧
        t.boot.map = some (Config.unitMap s.flash.current))) ∧
    ∀ m, s.boot.map = some m →
      (s.boot.step = 2 → (m.floor < s.flash.floor → fails 2) ∧ (s.flash.floor ≤ m.floor → passes)) ∧
      (s.boot.step = 3 → passes ∧ ∃ t, exec .bootStep s = .next t ∧ t.boot.bifurcated = m.bifurcate) ∧
      (s.boot.step = 4 → (Config.imageSigOk s.flash.image = false ∨ Config.imageVersion s.flash.image < m.floor →
          fails 3) ∧
        (Config.imageSigOk s.flash.image = true → m.floor ≤ Config.imageVersion s.flash.image → passes ∧
          ∃ t, exec .bootStep s = .next t ∧ t.boot.measures.map (·.1) = [1, 2, 3, 4])) ∧
      (s.boot.step = 5 → (Config.hbmTrains = false → fails 4) ∧ (Config.hbmTrains = true → passes)) ∧
      (s.boot.step = 6 → let e := { enumOf m with
          pkgid := s.enum.pkgid, pkgValid := s.enum.pkgValid, islpos := s.enum.islpos, islsize := s.enum.islsize }
        (State.gradeMet { s with enum := e } = false → fails 5) ∧
        (State.gradeMet { s with enum := e } = true → passes ∧ ∃ t, exec .bootStep s = .next t ∧ t.enum = e)) ∧
      (s.boot.step = 7 → ∃ t, exec .bootStep s = .next t ∧ t = { s with boot := { s.boot with ready := true } })) ∧
  (∀ s, Boot.ended s.boot = true → ∃ why, exec .bootStep s = .refused (.notEnabled why)) ∧
  (∀ s v, s.tripped = false → Boot.ended s.boot = true →
    (s.pick = 0 → v ≠ 0x5A5A0002#32 ∨ s.umc.umstat = 1 → exec (.umcmdCommit v) s = .next s) ∧
    (s.pick = 0 → v = 0x5A5A0002#32 → s.umc.umstat ≠ 1 →
      exec (.umcmdCommit v) s = .next { s with umc := { s.umc with umstat := 1 } }) ∧
    (s.pick ≠ 0 → s.umc.umstat ≠ 1 → ∃ why, exec (.umcmdCommit v) s = .refused (.notEnabled why)) ∧
    (s.pick ≠ 0 → s.umc.umstat = 1 →
      let n := s.umc.umlen.toNat
      let map := (List.range n).map fun i => look 0 i s.umc.umbuf
      ∃ t, exec (.umcmdCommit v) s = .next t ∧ t = { s with flash := t.flash, umc := t.umc } ∧
        (n < 256 ∨ 57344 < n ∨ n % 8 ≠ 0 → t.umc.umstat = 5 ∧ t.flash = s.flash) ∧
        (256 ≤ n → n ≤ 57344 → n % 8 = 0 →
          (Config.mapSigOk map = false → t.umc.umstat = 3 ∧ t.flash = s.flash) ∧
          (Config.mapSigOk map = true →
            ((Config.unitMap map).floor < s.flash.floor → t.umc.umstat = 4 ∧ t.flash = s.flash) ∧
            (s.flash.floor ≤ (Config.unitMap map).floor →
              (Config.flashWrites map = false → t.umc.umstat = 6 ∧ t.flash = s.flash) ∧
              (Config.flashWrites map = true → t.umc.umstat = 2 ∧ t.flash.current = map ∧
                t.flash.image = s.flash.image)))))) ∧
  (∀ s fn o, s.tripped = false → ∃ t, exec (.configRequest fn o) s = .next t ∧
    t = { s with sys := { s.sys with hostReply := t.sys.hostReply } } ∧
    (Boot.ended s.boot = false → t.sys.hostReply = .retryStatus) ∧
    (Boot.ended s.boot = true → fn = 0 → o = 0 → t.sys.hostReply = .value 0x05081E9C#64) ∧
    (Boot.ended s.boot = true → fn = 1 → s.boot.ready = false ∨ s.boot.bifurcated = false →
      t.sys.hostReply = .unsupported))

/-- R416, R417, R421 to R425: a 4-byte write of BAR0 by the host writes the register at its offset, one of 8 bytes the
lower word first; offsets that are read-only or reserved keep nothing; an access that is not an aligned one of 4 or 8
bytes is answered with Unsupported Request; alert bits are cleared by ones; SNTRIG takes a snapshot where it is
enabled.
A start with an unknown code ends with STATUS 4, the model's reading (log 51); the error bit of an unsupported request is
at PCI Express's offset (log 61). -/
def Obligations.HostAccessesReachTheRegisters : Prop :=
  (∀ s v, s.tripped = false → s.boot.ready = true → s.boot.failed = false →
    let w : Word := BitVec.truncate 32 v
    let wr (o : Nat) (k : Sys → Prop) : Prop := ∃ t, exec (.registerWrite o false v) s = .next t ∧
      t = { s with sys := t.sys } ∧ k t.sys
    wr 0x10000 (fun y => y = { s.sys with fqbase := setHalf s.sys.fqbase 0 w }) ∧
    wr 0x10004 (fun y => y = { s.sys with fqbase := setHalf s.sys.fqbase 1 w }) ∧
    wr 0x10008 (fun y => y = { s.sys with fqhead := w }) ∧ wr 0x1000C (fun y => y = s.sys) ∧
    wr 0x20000 (fun y => y = { s.sys with srbase := setHalf s.sys.srbase 0 w }) ∧
    wr 0x20008 (fun y => y = if 6 ≤ w.toNat ∧ w.toNat ≤ 16 then { s.sys with srlog2 := w.toNat } else s.sys) ∧
    wr 0x2000C (fun y => y = { s.sys with srhead := w }) ∧
    wr 0x20018 (fun y => y = { s.sys with rpbase := setHalf s.sys.rpbase 0 w }) ∧
    wr 0x50000 (fun y => y = { s.sys with wtbase := setHalf s.sys.wtbase 0 w }) ∧
    wr 0x50008 (fun y => y = { s.sys with mgbase := setHalf s.sys.mgbase 0 w }) ∧
    wr 0x110000 (fun y => y = { s.sys with pwrcap := min (max w.toNat 400) 3200 }) ∧
    (∀ o, o % 4 = 0 → 0x110040 ≤ o → o < 0x200000 → wr o fun y => y = s.sys) ∧
    (∀ i, i < 4 → let o := 0x30000 + 0x400 * i
      (look 0 i s.sys.cmdStatus = 1 → wr o (fun y => y = s.sys) ∧ wr (o + 0x100) fun y => y = s.sys) ∧
      (look 0 i s.sys.cmdStatus ≠ 1 → (∀ k j, k < 64 → j < 4 → wr (o + 4 * k) fun y =>
          look 0 (256 * i + 4 * k + j) y.cmdBuf = BitVec.extractLsb' (8 * j) 8 w) ∧
        (1 ≤ s.cmd i 0 1 → s.cmd i 0 1 ≤ (if i = 0 then 5 else 1) →
          wr (o + 0x100) fun y => y = { s.sys with cmdStatus := put 0 i 1 s.sys.cmdStatus }) ∧
        (s.cmd i 0 1 = 0 ∨ (if i = 0 then 5 else 1) < s.cmd i 0 1 →
          wr (o + 0x100) fun y => look 0 i y.cmdStatus = 4))) ∧
    ∃ t, exec (.registerWrite 0x10000 true v) s = .next t ∧
      t = { s with sys := { s.sys with fqbase := v } }) ∧
  (∀ s bar o n w, s.tripped = false → Boot.ended s.boot = true → s.unsupportedAccess bar o n = true →
    ∃ t, exec (.bar0UnsupportedAccess bar o n w) s = .next t ∧
      t = { s with sys := { s.sys with hostReply := .unsupported, cfg := t.sys.cfg } } ∧
      (look 0 (cfgKey (s.pick % s.functions) 0x104) t.sys.cfg).getLsbD 20 = true) ∧
  (∀ (s : State) o n, n ≠ 4 → n ≠ 8 → s.unsupportedAccess 0 o n = true) ∧
  (∀ (s : State) o n, o % n ≠ 0 → s.unsupportedAccess 0 o n = true) ∧
  (∀ s die v, die < 8 → s.boot.ready = true → ∃ t, exec (.alertClear die v) s = .next t ∧
    t = { s with dies := t.dies } ∧ ∀ i, i < 2 →
      (t.die die).alerts.getLsbD i = ((s.die die).alerts.getLsbD i && !BitVec.getLsbD v i)) ∧
  (∀ s v, s.boot.ready = true → ∃ t, exec (.sntrig v) s = .next t ∧ t = { s with sys := t.sys } ∧
    (s.sys.snapctl.getLsbD 0 = true → s.sys.snapctl.getLsbD 2 = true →
      t.sys.sntag = v ∧ t.sys.snapctl.getLsbD 0 = false ∧ t.sys.snapstat.getLsbD 0 = true) ∧
    (s.sys.snapctl.getLsbD 0 = false ∨ s.sys.snapctl.getLsbD 2 = false → t = s))

/-- R8, R422 (message codes as log 28 takes them): the responder answers each request in the order of negotiation, with an
error that it was not expected out of that order, and names its certificate chain and its four measurements; the answer
lies in the mailbox. -/
def Obligations.ResponderAnswersInOrder : Prop :=
  (∀ s ev, s.tripped = false → Boot.ended s.boot = true →
    (s.spdm.version = 0 → (∃ v, ev = Instr.getCapabilities v) →
      ∃ t, exec ev s = .next t ∧ t.sys.hostReply = .spdm 0x7F [0x04]) ∧
    (s.spdm.caps = false → (∃ a, ev = Instr.negotiateAlgorithms a) →
      ∃ t, exec ev s = .next t ∧ t.sys.hostReply = .spdm 0x7F [0x04]) ∧
    (s.spdm.algs = false → (ev = Instr.getDigests ∨ (∃ a b c, ev = .getCertificate a b c) ∨
        (∃ a b, ev = .challenge a b) ∨ ∃ a b, ev = .getMeasurements a b) →
      ∃ t, exec ev s = .next t ∧ t.sys.hostReply = .spdm 0x7F [0x04])) ∧
  (∀ s, s.tripped = false → Boot.ended s.boot = true →
    (∃ t, exec .getVersion s = .next t ∧ t.sys.hostReply = .spdm 0x04 [0x12, 0x13] ∧
      t.spdm = ⟨1, false, false⟩ ∧ (t.doeOf (s.pick % s.functions)).out =
        let ws := Config.spdmWords 0x04 [0x12, 0x13]
        0x00010001#32 :: BitVec.ofNat 32 (ws.length + 2) :: ws) ∧
    (s.spdm.version ≠ 0 → ∀ v, v = 0x12 ∨ v = 0x13 → ∃ t, exec (.getCapabilities v) s = .next t ∧
      t.sys.hostReply = .spdm 0x61 [v] ∧ t.spdm = ⟨v, true, false⟩) ∧
    (s.spdm.caps = true → ∀ a, a.testBit 7 = true → a.testBit 1 = true →
      ∃ t, exec (.negotiateAlgorithms a) s = .next t ∧ t.spdm = { s.spdm with algs := true }) ∧
    (s.spdm.algs = true →
      (∃ t, exec .getDigests s = .next t ∧
        t.sys.hostReply = .spdm 0x01 [0x01, (Config.sha384 Config.certChain).toNat]) ∧
      (∀ o n, ∃ t, exec (.getCertificate 0 o n) s = .next t ∧ t.sys.hostReply =
        if o < Config.certChain.length then
          .spdm 0x02 (0 :: (Config.certChain.length - min (o + n) Config.certChain.length) ::
            ((Config.certChain.drop o).take n).map (·.toNat))
        else .spdm 0x7F [0x01]) ∧
      (∀ nonce, ∃ t sig, exec (.challenge 0 nonce) s = .next t ∧ t.sys.hostReply = .spdm 0x03
        ((Config.sha384 Config.certChain).toNat :: s.boot.measures.map (·.2.toNat) ++ [sig])) ∧
      (∀ nonce, ∃ t sig, exec (.getMeasurements 0 nonce) s = .next t ∧
        t.sys.hostReply = .spdm 0x60 [s.boot.measures.length, sig]) ∧
      ∀ nonce i m, find i s.boot.measures = some m → i ≠ 0 → i ≠ 0xFF → rising s.boot.measures = true →
        ∃ t sig, exec (.getMeasurements i nonce) s = .next t ∧ t.sys.hostReply = .spdm 0x60 [i, m.toNat, sig]))

/-- R46, R424 to R426: at 115 °C a core's sensor, and at 105 °C a stack's, holds the package in reset; a core is hot
from 95 °C until it falls below 89 °C; a ninth droop in 1 ms marks a core avoided for 4 ms; the alerts are set at the
thresholds of MONTHR; a power tick moves every die's clock by 100 MHz.
The readings come from outside (log 51). -/
def Obligations.MonitorsActAtTheirThresholds : Prop :=
  (∀ s core v, s.tripped = false → s.boot.ready = true → s.liveCore core = true →
    let x := BitVec.toInt v
    let thr : Int := 4 * (((s.die (dieOf core)).monthr.toNat % 256 : Nat) : Int)
    (460 ≤ x → ∃ t, exec (.temperatureSample core v) s = .next t ∧ t.tripped = true ∧ t.boot = Boot.start ∧
      t.cores = []) ∧
    (x < 460 → ∃ t, exec (.temperatureSample core v) s = .next t ∧ (t.core core).temp = v ∧
      (380 ≤ x → (t.core core).hot = true) ∧ (x < 356 → (t.core core).hot = false) ∧
      (356 ≤ x → x < 380 → (t.core core).hot = (s.core core).hot) ∧
      (420 ≤ x → (t.die (dieOf core)).ceiling = 1000) ∧
      (thr ≤ x → core ∉ (s.die (dieOf core)).hotMark → (t.die (dieOf core)).alerts.getLsbD 0 = true ∧
        core ∈ (t.die (dieOf core)).hotMark) ∧
      (x ≤ thr - 20 → core ∉ (t.die (dieOf core)).hotMark) ∧
      (thr - 20 < x → x < thr → (t.die (dieOf core)).hotMark = (s.die (dieOf core)).hotMark))) ∧
  (∀ s, s.tripped = false → s.boot.ready = true → s.liveCore s.pick = true → ∃ t, exec .droopEvent s = .next t ∧
    (t.core s.pick).droops = ((s.core s.pick).droops.filter fun u => decide (s.now < u + 100000)) ++ [s.now] ∧
    (8 ≤ (s.core s.pick).droopCount s.now → (t.core s.pick).avoided = some s.now) ∧
    ((s.core s.pick).droopCount s.now < 8 → (t.core s.pick).avoided = (s.core s.pick).avoided) ∧
    (fld (s.die (dieOf s.pick)).monthr.toNat 8 8 < (s.core s.pick).droopCount s.now + 1 →
      s.pick ∉ (s.die (dieOf s.pick)).droopMark → (t.die (dieOf s.pick)).alerts.getLsbD 1 = true)) ∧
  (∀ s u, (s.core s.pick).avoided = some u →
    (u + 400000 ≤ s.now → ∃ t, exec .avoidedExpiry s = .next t ∧ t = { s with cores := t.cores } ∧
      (t.core s.pick).avoided = none) ∧
    (s.now < u + 400000 → ∃ why, exec .avoidedExpiry s = .refused (.notEnabled why))) ∧
  (∀ s stack sensor v, s.tripped = false → s.boot.ready = true → stack < 16 → sensor < 4 →
    (420 ≤ BitVec.toInt v → ∃ t, exec (.hbmTemperatureSample stack sensor v) s = .next t ∧ t.tripped = true) ∧
    (BitVec.toInt v < 420 → ∃ t, exec (.hbmTemperatureSample stack sensor v) s = .next t ∧
      look 0 (4 * (stack % 2) + sensor) (t.die (stack / 2)).hbmTemp = v ∧
      (380 ≤ BitVec.toInt v → (t.die (stack / 2)).refresh2.getLsbD (stack % 2) = true) ∧
      (360 ≤ BitVec.toInt v → BitVec.toInt v < 380 →
        (t.die (stack / 2)).refresh2 = (s.die (stack / 2)).refresh2))) ∧
  (∀ s die mon v, s.tripped = false → s.boot.ready = true → die < 8 → mon < 8 →
    ∃ t, exec (.processMonitorSample die mon v) s = .next t ∧ t = { s with dies := t.dies } ∧
      look 0 mon (t.die die).procMon = v) ∧
  (∀ s watts, s.tripped = false → s.boot.ready = true → ∃ t, exec (.powerTick watts) s = .next t ∧
    t.sys = { s.sys with pwrnow := watts } ∧ ∀ d, d < 8 →
      (s.sys.pwrcap < watts → (t.die d).powerLimit = max 1000 ((s.die d).powerLimit - 100)) ∧
      (20 * watts < 19 * s.sys.pwrcap → (t.die d).powerLimit = min 1800 ((s.die d).powerLimit + 100)) ∧
      (watts ≤ s.sys.pwrcap → 19 * s.sys.pwrcap ≤ 20 * watts → (t.die d).powerLimit = (s.die d).powerLimit) ∧
      (t.die d).freq = min (min (t.die d).powerLimit (s.die d).ceiling) 1800)
end

