-- ==== Sys2Proof/Laws/Sparse.lean ====
section
/-! SUPPORT. The laws of the sparse tables and of the byte memories: what a read answers after a write,
and that every memory operation keeps the canonical form. -/

namespace Sys2Proof.Machine

variable {β : Type}

/-! ## Reads after writes -/

@[simp] theorem find_ins_self (k : Nat) (v : β) (m : SMap β) : find k (ins k v m) = some v := by
  induction m with
  | nil => simp [ins, find]
  | cons e m ih =>
    obtain ⟨j, x⟩ := e
    simp only [ins]
    split
    · simp [find, Nat.ne_of_lt ‹_›, ih]
    · split <;> simp [find]
theorem find_ins_ne {k k' : Nat} (h : k' ≠ k) (v : β) (m : SMap β) :
    find k' (ins k v m) = find k' m := by
  induction m with
  | nil => simp [ins, find, h.symm]
  | cons e m ih =>
    obtain ⟨j, x⟩ := e
    simp only [ins]
    split
    · simp [find, ih]
    · split
      · subst j; simp [find, h.symm]
      · simp [find, h.symm]
@[simp] theorem find_del_self (k : Nat) (m : SMap β) : find k (del k m) = none := by
  induction m with
  | nil => rfl
  | cons e m ih =>
    obtain ⟨j, x⟩ := e
    simp only [del]
    split
    · exact ih
    · simp [find, *]
theorem find_del_ne {k k' : Nat} (h : k' ≠ k) (m : SMap β) : find k' (del k m) = find k' m := by
  induction m with
  | nil => rfl
  | cons e m ih =>
    obtain ⟨j, x⟩ := e
    simp only [del]
    split
    · subst j; simp [find, h.symm, ih]
    · simp [find, ih]
theorem look_ins_ne (d : β) {k k' : Nat} (h : k' ≠ k) (v : β) (m : SMap β) :
    look d k' (ins k v m) = look d k' m := by
  simp [look, find_ins_ne h]
@[simp] theorem look_ins_self (d : β) (k : Nat) (v : β) (m : SMap β) : look d k (ins k v m) = v := by
  simp [look]
@[simp] theorem look_put_self [DecidableEq β] (d : β) (k : Nat) (v : β) (m : SMap β) :
    look d k (put d k v m) = v := by
  unfold put
  split <;> simp [look, *]
theorem look_put_ne [DecidableEq β] (d : β) {k k' : Nat} (h : k' ≠ k) (v : β) (m : SMap β) :
    look d k' (put d k v m) = look d k' m := by
  unfold put
  split <;> simp [look, find_ins_ne h, find_del_ne h]
theorem find_upd_self (k : Nat) (f : β → β) (m : SMap β) : find k (upd k f m) = (find k m).map f := by
  unfold upd
  split <;> simp [*]
theorem find_upd_ne {k k' : Nat} (h : k' ≠ k) (f : β → β) (m : SMap β) :
    find k' (upd k f m) = find k' m := by
  unfold upd
  split
  · exact find_ins_ne h _ _
  · rfl

/-! ## The canonical form -/

/-- Every key of a table is above `b`. -/
def above (b : Nat) (m : SMap β) : Prop := ∀ e ∈ m, b < e.1
/-- A table rises exactly when each key is below all that follow. -/
theorem rising_cons (i : Nat) (x : β) (m : SMap β) :
    rising ((i, x) :: m) = true ↔ above i m ∧ rising m = true := by
  induction m generalizing i x with
  | nil => simp [rising, above]
  | cons e m ih =>
    obtain ⟨j, y⟩ := e
    rw [rising, Bool.and_eq_true, decide_eq_true_eq, ih j y]
    constructor
    · rintro ⟨h, a, r⟩
      refine ⟨?_, a, r⟩
      intro e he
      rcases List.mem_cons.1 he with rfl | he
      · exact h
      · exact Nat.lt_trans h (a e he)
    · rintro ⟨a, r⟩
      exact ⟨a _ List.mem_cons_self, r⟩
theorem mem_del {e : Nat × β} {k : Nat} {m : SMap β} (h : e ∈ del k m) : e ∈ m := by
  induction m with
  | nil => exact h
  | cons a m ih =>
    obtain ⟨j, x⟩ := a
    simp only [del] at h
    split at h
    · exact List.mem_cons_of_mem _ (ih h)
    · rcases List.mem_cons.1 h with rfl | h
      · exact List.mem_cons_self
      · exact List.mem_cons_of_mem _ (ih h)
theorem mem_ins {e : Nat × β} {k : Nat} {v : β} {m : SMap β} (h : e ∈ ins k v m) :
    e = (k, v) ∨ e ∈ m := by
  induction m with
  | nil => simpa [ins] using h
  | cons a m ih =>
    obtain ⟨j, x⟩ := a
    simp only [ins] at h
    split at h
    · rcases List.mem_cons.1 h with rfl | h
      · exact .inr List.mem_cons_self
      · exact (ih h).imp_right (List.mem_cons_of_mem _)
    · split at h
      · rcases List.mem_cons.1 h with rfl | h
        · exact .inl rfl
        · exact .inr (List.mem_cons_of_mem _ h)
      · exact (List.mem_cons.1 h)
theorem rising_del (k : Nat) (m : SMap β) (h : rising m = true) : rising (del k m) = true := by
  induction m with
  | nil => rfl
  | cons e m ih =>
    obtain ⟨j, x⟩ := e
    rw [rising_cons] at h
    simp only [del]
    split
    · exact ih h.2
    · exact (rising_cons _ _ _).2 ⟨fun e he => h.1 e (mem_del he), ih h.2⟩
theorem rising_ins (k : Nat) (v : β) (m : SMap β) (h : rising m = true) : rising (ins k v m) = true := by
  induction m with
  | nil => rfl
  | cons e m ih =>
    obtain ⟨j, x⟩ := e
    have h' := (rising_cons _ _ _).1 h
    simp only [ins]
    split
    · rename_i hj
      refine (rising_cons _ _ _).2 ⟨fun e he => ?_, ih h'.2⟩
      rcases mem_ins he with rfl | he
      · exact hj
      · exact h'.1 e he
    · split
      · subst j; exact (rising_cons _ _ _).2 h'
      · refine (rising_cons _ _ _).2 ⟨fun e he => ?_, h⟩
        have hk : k < j := by omega
        rcases List.mem_cons.1 he with rfl | he
        · exact hk
        · exact Nat.lt_trans hk (h'.1 e he)
/-- A write keeps the canonical form of a table. -/
theorem canon_put [DecidableEq β] (d : β) (k : Nat) (v : β) (m : SMap β) (h : canon d m = true) :
    canon d (put d k v m) = true := by
  simp only [canon, Bool.and_eq_true, List.all_eq_true, decide_eq_true_eq] at h ⊢
  unfold put
  split
  · exact ⟨rising_del _ _ h.1, fun e he => h.2 e (mem_del he)⟩
  · rename_i hv
    refine ⟨rising_ins _ _ _ h.1, fun e he => ?_⟩
    rcases mem_ins he with rfl | he
    · exact hv
    · exact h.2 e he

/-! ## Memories -/

@[simp] theorem rdByte_wrByte_self (m : List Host.Cell) (a : Nat) (v : Byte) :
    rdByte (wrByte m a v) a = v := look_put_self _ _ _ _
theorem rdByte_wrByte_ne {a b : Nat} (h : b ≠ a) (m : List Host.Cell) (v : Byte) :
    rdByte (wrByte m a v) b = rdByte m b := look_put_ne _ h _ _
/-- Writing a byte keeps the canonical form. -/
theorem wf_wrByte {m : List Host.Cell} (h : Memory.wf m = true) (a : Nat) (v : Byte) :
    Memory.wf (wrByte m a v) = true := canon_put _ _ _ _ h
/-- Writing bytes keeps the canonical form. -/
theorem wf_wrBytes {m : List Host.Cell} (h : Memory.wf m = true) (a : Nat) (bs : List Byte) :
    Memory.wf (wrBytes m a bs) = true := by
  induction bs generalizing m a with
  | nil => exact h
  | cons b bs ih => exact ih (wf_wrByte h a b) (a + 1)
/-- A write of bytes leaves every address outside them alone. -/
theorem rdByte_wrBytes_ne {x : Nat} (bs : List Byte) (m : List Host.Cell) (a : Nat)
    (h : x < a ∨ a + bs.length ≤ x) : rdByte (wrBytes m a bs) x = rdByte m x := by
  induction bs generalizing m a with
  | nil => rfl
  | cons b bs ih =>
    simp only [List.length_cons] at h
    rw [wrBytes, ih _ _ (by omega), rdByte_wrByte_ne (by omega)]

end Sys2Proof.Machine
end

