-- ==== Sys2Proof/Laws/State.lean ====
section
/-! SUPPORT. The fields of the state after each of its updates, and what the accessors read after them. -/

namespace Sys2Proof.Machine

/-! ## The updates that go through a setter -/

@[simp] theorem updDie_eq (s : State) (d : Nat) (f : Die → Die) : s.updDie d f = s.setDie d (f (s.die d)) := rfl
@[simp] theorem updCore_eq (s : State) (c : Nat) (f : Core → Core) :
    s.updCore c f = s.setCore c (f (s.core c)) := rfl
@[simp] theorem updTrack_eq (s : State) (t : Nat) (f : Track → Track) :
    s.updTrack t f = s.setTrack t (f (s.track t)) := rfl
@[simp] theorem updPort_eq (s : State) (p : Nat) (f : Port → Port) :
    s.updPort p f = s.setPort p (f (s.port p)) := rfl

/-! ## What an accessor reads after a setter -/

@[simp] theorem setDie_die (s : State) (k : Nat) (x : Die) : (s.setDie k x).die k = x :=
  look_put_self _ _ _ _
theorem setDie_die_ne (s : State) {k j : Nat} (h : j ≠ k) (x : Die) : (s.setDie k x).die j = s.die j :=
  look_put_ne _ h _ _
@[simp] theorem setCore_core (s : State) (k : Nat) (x : Core) : (s.setCore k x).core k = x :=
  look_put_self _ _ _ _
theorem setCore_core_ne (s : State) {k j : Nat} (h : j ≠ k) (x : Core) : (s.setCore k x).core j = s.core j :=
  look_put_ne _ h _ _
@[simp] theorem setTrack_track (s : State) (k : Nat) (x : Track) : (s.setTrack k x).track k = x :=
  look_put_self _ _ _ _
theorem setTrack_track_ne (s : State) {k j : Nat} (h : j ≠ k) (x : Track) : (s.setTrack k x).track j = s.track j :=
  look_put_ne _ h _ _
@[simp] theorem setPort_port (s : State) (k : Nat) (x : Port) : (s.setPort k x).port k = x :=
  look_put_self _ _ _ _
theorem setPort_port_ne (s : State) {k j : Nat} (h : j ≠ k) (x : Port) : (s.setPort k x).port j = s.port j :=
  look_put_ne _ h _ _
@[simp] theorem setGroup_group (s : State) (k : Nat) (x : Group) : (s.setGroup k x).group k = some x :=
  find_ins_self _ _ _
theorem setGroup_group_ne (s : State) {k j : Nat} (h : j ≠ k) (x : Group) : (s.setGroup k x).group j = s.group j :=
  find_ins_ne h _ _
@[simp] theorem updGroup_group (s : State) (k : Nat) (f : Group → Group) : (s.updGroup k f).group k = (s.group k).map f :=
  find_upd_self _ _ _
theorem updGroup_group_ne (s : State) {k j : Nat} (h : j ≠ k) (f : Group → Group) :
    (s.updGroup k f).group j = s.group j := find_upd_ne h _ _
@[simp] theorem setTeam_team (s : State) (k : Nat) (x : Team) : (s.setTeam k x).team k = some x :=
  find_ins_self _ _ _
theorem setTeam_team_ne (s : State) {k j : Nat} (h : j ≠ k) (x : Team) : (s.setTeam k x).team j = s.team j :=
  find_ins_ne h _ _
@[simp] theorem updTeam_team (s : State) (k : Nat) (f : Team → Team) : (s.updTeam k f).team k = (s.team k).map f :=
  find_upd_self _ _ _
theorem updTeam_team_ne (s : State) {k j : Nat} (h : j ≠ k) (f : Team → Team) :
    (s.updTeam k f).team j = s.team j := find_upd_ne h _ _
@[simp] theorem setGrid_grid (s : State) (k : Nat) (x : Grid) : (s.setGrid k x).grid k = some x :=
  find_ins_self _ _ _
theorem setGrid_grid_ne (s : State) {k j : Nat} (h : j ≠ k) (x : Grid) : (s.setGrid k x).grid j = s.grid j :=
  find_ins_ne h _ _
@[simp] theorem updGrid_grid (s : State) (k : Nat) (f : Grid → Grid) : (s.updGrid k f).grid k = (s.grid k).map f :=
  find_upd_self _ _ _
theorem updGrid_grid_ne (s : State) {k j : Nat} (h : j ≠ k) (f : Grid → Grid) :
    (s.updGrid k f).grid j = s.grid j := find_upd_ne h _ _

/-! ## setDie -/

@[simp] theorem setDie_agenda (s : State) (d : Nat) (x : Die) : (s.setDie d x).agenda = s.agenda := rfl
@[simp] theorem setDie_focus (s : State) (d : Nat) (x : Die) : (s.setDie d x).focus = s.focus := rfl
@[simp] theorem setDie_pick (s : State) (d : Nat) (x : Die) : (s.setDie d x).pick = s.pick := rfl
@[simp] theorem setDie_freeCtr (s : State) (d : Nat) (x : Die) : (s.setDie d x).freeCtr = s.freeCtr := rfl
@[simp] theorem setDie_now (s : State) (d : Nat) (x : Die) : (s.setDie d x).now = s.now := rfl
@[simp] theorem setDie_nextId (s : State) (d : Nat) (x : Die) : (s.setDie d x).nextId = s.nextId := rfl
@[simp] theorem setDie_tripped (s : State) (d : Nat) (x : Die) : (s.setDie d x).tripped = s.tripped := rfl
@[simp] theorem setDie_boot (s : State) (d : Nat) (x : Die) : (s.setDie d x).boot = s.boot := rfl
@[simp] theorem setDie_flash (s : State) (d : Nat) (x : Die) : (s.setDie d x).flash = s.flash := rfl
@[simp] theorem setDie_umc (s : State) (d : Nat) (x : Die) : (s.setDie d x).umc = s.umc := rfl
@[simp] theorem setDie_spdm (s : State) (d : Nat) (x : Die) : (s.setDie d x).spdm = s.spdm := rfl
@[simp] theorem setDie_enum (s : State) (d : Nat) (x : Die) : (s.setDie d x).enum = s.enum := rfl
@[simp] theorem setDie_linkDown (s : State) (d : Nat) (x : Die) : (s.setDie d x).linkDown = s.linkDown := rfl
@[simp] theorem setDie_sys (s : State) (d : Nat) (x : Die) : (s.setDie d x).sys = s.sys := rfl
@[simp] theorem setDie_depctr (s : State) (d : Nat) (x : Die) : (s.setDie d x).depctr = s.depctr := rfl
@[simp] theorem setDie_parts (s : State) (d : Nat) (x : Die) : (s.setDie d x).parts = s.parts := rfl
@[simp] theorem setDie_extents (s : State) (d : Nat) (x : Die) : (s.setDie d x).extents = s.extents := rfl
@[simp] theorem setDie_atsCache (s : State) (d : Nat) (x : Die) : (s.setDie d x).atsCache = s.atsCache := rfl
@[simp] theorem setDie_atsOld (s : State) (d : Nat) (x : Die) : (s.setDie d x).atsOld = s.atsOld := rfl
@[simp] theorem setDie_atsPending (s : State) (d : Nat) (x : Die) : (s.setDie d x).atsPending = s.atsPending := rfl
@[simp] theorem setDie_cores (s : State) (d : Nat) (x : Die) : (s.setDie d x).cores = s.cores := rfl
@[simp] theorem setDie_tracks (s : State) (d : Nat) (x : Die) : (s.setDie d x).tracks = s.tracks := rfl
@[simp] theorem setDie_groups (s : State) (d : Nat) (x : Die) : (s.setDie d x).groups = s.groups := rfl
@[simp] theorem setDie_teams (s : State) (d : Nat) (x : Die) : (s.setDie d x).teams = s.teams := rfl
@[simp] theorem setDie_grids (s : State) (d : Nat) (x : Die) : (s.setDie d x).grids = s.grids := rfl
@[simp] theorem setDie_rr (s : State) (d : Nat) (x : Die) : (s.setDie d x).rr = s.rr := rfl
@[simp] theorem setDie_tickets (s : State) (d : Nat) (x : Die) : (s.setDie d x).tickets = s.tickets := rfl
@[simp] theorem setDie_svcWait (s : State) (d : Nat) (x : Die) : (s.setDie d x).svcWait = s.svcWait := rfl
@[simp] theorem setDie_lines (s : State) (d : Nat) (x : Die) : (s.setDie d x).lines = s.lines := rfl
@[simp] theorem setDie_sreqs (s : State) (d : Nat) (x : Die) : (s.setDie d x).sreqs = s.sreqs := rfl
@[simp] theorem setDie_ptab (s : State) (d : Nat) (x : Die) : (s.setDie d x).ptab = s.ptab := rfl
@[simp] theorem setDie_filters (s : State) (d : Nat) (x : Die) : (s.setDie d x).filters = s.filters := rfl
@[simp] theorem setDie_side (s : State) (d : Nat) (x : Die) : (s.setDie d x).side = s.side := rfl
@[simp] theorem setDie_mem (s : State) (d : Nat) (x : Die) : (s.setDie d x).mem = s.mem := rfl
@[simp] theorem setDie_hostMem (s : State) (d : Nat) (x : Die) : (s.setDie d x).hostMem = s.hostMem := rfl
@[simp] theorem setDie_poolMem (s : State) (d : Nat) (x : Die) : (s.setDie d x).poolMem = s.poolMem := rfl
@[simp] theorem setDie_hostPosted (s : State) (d : Nat) (x : Die) : (s.setDie d x).hostPosted = s.hostPosted := rfl
@[simp] theorem setDie_nodePosted (s : State) (d : Nat) (x : Die) : (s.setDie d x).nodePosted = s.nodePosted := rfl
@[simp] theorem setDie_net (s : State) (d : Nat) (x : Die) : (s.setDie d x).net = s.net := rfl
@[simp] theorem setDie_egress (s : State) (d : Nat) (x : Die) : (s.setDie d x).egress = s.egress := rfl
@[simp] theorem setDie_winWait (s : State) (d : Nat) (x : Die) : (s.setDie d x).winWait = s.winWait := rfl
@[simp] theorem setDie_mcRecvs (s : State) (d : Nat) (x : Die) : (s.setDie d x).mcRecvs = s.mcRecvs := rfl
@[simp] theorem setDie_reqs (s : State) (d : Nat) (x : Die) : (s.setDie d x).reqs = s.reqs := rfl
@[simp] theorem setDie_sends (s : State) (d : Nat) (x : Die) : (s.setDie d x).sends = s.sends := rfl
@[simp] theorem setDie_ports (s : State) (d : Nat) (x : Die) : (s.setDie d x).ports = s.ports := rfl
@[simp] theorem setDie_fqPend (s : State) (d : Nat) (x : Die) : (s.setDie d x).fqPend = s.fqPend := rfl
@[simp] theorem setDie_tlbis (s : State) (d : Nat) (x : Die) : (s.setDie d x).tlbis = s.tlbis := rfl
@[simp] theorem setDie_errAt (s : State) (d : Nat) (x : Die) : (s.setDie d x).errAt = s.errAt := rfl
@[simp] theorem setDie_oldParts (s : State) (d : Nat) (x : Die) : (s.setDie d x).oldParts = s.oldParts := rfl
@[simp] theorem setDie_accepted (s : State) (d : Nat) (x : Die) : (s.setDie d x).accepted = s.accepted := rfl
@[simp] theorem setDie_migPage (s : State) (d : Nat) (x : Die) : (s.setDie d x).migPage = s.migPage := rfl
@[simp] theorem setDie_devStores (s : State) (d : Nat) (x : Die) : (s.setDie d x).devStores = s.devStores := rfl
@[simp] theorem setDie_devErrs (s : State) (d : Nat) (x : Die) : (s.setDie d x).devErrs = s.devErrs := rfl

/-! ## setCore -/

@[simp] theorem setCore_agenda (s : State) (c : Nat) (x : Core) : (s.setCore c x).agenda = s.agenda := rfl
@[simp] theorem setCore_focus (s : State) (c : Nat) (x : Core) : (s.setCore c x).focus = s.focus := rfl
@[simp] theorem setCore_pick (s : State) (c : Nat) (x : Core) : (s.setCore c x).pick = s.pick := rfl
@[simp] theorem setCore_freeCtr (s : State) (c : Nat) (x : Core) : (s.setCore c x).freeCtr = s.freeCtr := rfl
@[simp] theorem setCore_now (s : State) (c : Nat) (x : Core) : (s.setCore c x).now = s.now := rfl
@[simp] theorem setCore_nextId (s : State) (c : Nat) (x : Core) : (s.setCore c x).nextId = s.nextId := rfl
@[simp] theorem setCore_tripped (s : State) (c : Nat) (x : Core) : (s.setCore c x).tripped = s.tripped := rfl
@[simp] theorem setCore_boot (s : State) (c : Nat) (x : Core) : (s.setCore c x).boot = s.boot := rfl
@[simp] theorem setCore_flash (s : State) (c : Nat) (x : Core) : (s.setCore c x).flash = s.flash := rfl
@[simp] theorem setCore_umc (s : State) (c : Nat) (x : Core) : (s.setCore c x).umc = s.umc := rfl
@[simp] theorem setCore_spdm (s : State) (c : Nat) (x : Core) : (s.setCore c x).spdm = s.spdm := rfl
@[simp] theorem setCore_enum (s : State) (c : Nat) (x : Core) : (s.setCore c x).enum = s.enum := rfl
@[simp] theorem setCore_linkDown (s : State) (c : Nat) (x : Core) : (s.setCore c x).linkDown = s.linkDown := rfl
@[simp] theorem setCore_sys (s : State) (c : Nat) (x : Core) : (s.setCore c x).sys = s.sys := rfl
@[simp] theorem setCore_depctr (s : State) (c : Nat) (x : Core) : (s.setCore c x).depctr = s.depctr := rfl
@[simp] theorem setCore_parts (s : State) (c : Nat) (x : Core) : (s.setCore c x).parts = s.parts := rfl
@[simp] theorem setCore_extents (s : State) (c : Nat) (x : Core) : (s.setCore c x).extents = s.extents := rfl
@[simp] theorem setCore_atsCache (s : State) (c : Nat) (x : Core) : (s.setCore c x).atsCache = s.atsCache := rfl
@[simp] theorem setCore_atsOld (s : State) (c : Nat) (x : Core) : (s.setCore c x).atsOld = s.atsOld := rfl
@[simp] theorem setCore_atsPending (s : State) (c : Nat) (x : Core) : (s.setCore c x).atsPending = s.atsPending := rfl
@[simp] theorem setCore_dies (s : State) (c : Nat) (x : Core) : (s.setCore c x).dies = s.dies := rfl
@[simp] theorem setCore_tracks (s : State) (c : Nat) (x : Core) : (s.setCore c x).tracks = s.tracks := rfl
@[simp] theorem setCore_groups (s : State) (c : Nat) (x : Core) : (s.setCore c x).groups = s.groups := rfl
@[simp] theorem setCore_teams (s : State) (c : Nat) (x : Core) : (s.setCore c x).teams = s.teams := rfl
@[simp] theorem setCore_grids (s : State) (c : Nat) (x : Core) : (s.setCore c x).grids = s.grids := rfl
@[simp] theorem setCore_rr (s : State) (c : Nat) (x : Core) : (s.setCore c x).rr = s.rr := rfl
@[simp] theorem setCore_tickets (s : State) (c : Nat) (x : Core) : (s.setCore c x).tickets = s.tickets := rfl
@[simp] theorem setCore_svcWait (s : State) (c : Nat) (x : Core) : (s.setCore c x).svcWait = s.svcWait := rfl
@[simp] theorem setCore_lines (s : State) (c : Nat) (x : Core) : (s.setCore c x).lines = s.lines := rfl
@[simp] theorem setCore_sreqs (s : State) (c : Nat) (x : Core) : (s.setCore c x).sreqs = s.sreqs := rfl
@[simp] theorem setCore_ptab (s : State) (c : Nat) (x : Core) : (s.setCore c x).ptab = s.ptab := rfl
@[simp] theorem setCore_filters (s : State) (c : Nat) (x : Core) : (s.setCore c x).filters = s.filters := rfl
@[simp] theorem setCore_side (s : State) (c : Nat) (x : Core) : (s.setCore c x).side = s.side := rfl
@[simp] theorem setCore_mem (s : State) (c : Nat) (x : Core) : (s.setCore c x).mem = s.mem := rfl
@[simp] theorem setCore_hostMem (s : State) (c : Nat) (x : Core) : (s.setCore c x).hostMem = s.hostMem := rfl
@[simp] theorem setCore_poolMem (s : State) (c : Nat) (x : Core) : (s.setCore c x).poolMem = s.poolMem := rfl
@[simp] theorem setCore_hostPosted (s : State) (c : Nat) (x : Core) : (s.setCore c x).hostPosted = s.hostPosted := rfl
@[simp] theorem setCore_nodePosted (s : State) (c : Nat) (x : Core) : (s.setCore c x).nodePosted = s.nodePosted := rfl
@[simp] theorem setCore_net (s : State) (c : Nat) (x : Core) : (s.setCore c x).net = s.net := rfl
@[simp] theorem setCore_egress (s : State) (c : Nat) (x : Core) : (s.setCore c x).egress = s.egress := rfl
@[simp] theorem setCore_winWait (s : State) (c : Nat) (x : Core) : (s.setCore c x).winWait = s.winWait := rfl
@[simp] theorem setCore_mcRecvs (s : State) (c : Nat) (x : Core) : (s.setCore c x).mcRecvs = s.mcRecvs := rfl
@[simp] theorem setCore_reqs (s : State) (c : Nat) (x : Core) : (s.setCore c x).reqs = s.reqs := rfl
@[simp] theorem setCore_sends (s : State) (c : Nat) (x : Core) : (s.setCore c x).sends = s.sends := rfl
@[simp] theorem setCore_ports (s : State) (c : Nat) (x : Core) : (s.setCore c x).ports = s.ports := rfl
@[simp] theorem setCore_fqPend (s : State) (c : Nat) (x : Core) : (s.setCore c x).fqPend = s.fqPend := rfl
@[simp] theorem setCore_tlbis (s : State) (c : Nat) (x : Core) : (s.setCore c x).tlbis = s.tlbis := rfl
@[simp] theorem setCore_errAt (s : State) (c : Nat) (x : Core) : (s.setCore c x).errAt = s.errAt := rfl
@[simp] theorem setCore_oldParts (s : State) (c : Nat) (x : Core) : (s.setCore c x).oldParts = s.oldParts := rfl
@[simp] theorem setCore_accepted (s : State) (c : Nat) (x : Core) : (s.setCore c x).accepted = s.accepted := rfl
@[simp] theorem setCore_migPage (s : State) (c : Nat) (x : Core) : (s.setCore c x).migPage = s.migPage := rfl
@[simp] theorem setCore_devStores (s : State) (c : Nat) (x : Core) : (s.setCore c x).devStores = s.devStores := rfl
@[simp] theorem setCore_devErrs (s : State) (c : Nat) (x : Core) : (s.setCore c x).devErrs = s.devErrs := rfl

/-! ## setTrack -/

@[simp] theorem setTrack_agenda (s : State) (t : Nat) (x : Track) : (s.setTrack t x).agenda = s.agenda := rfl
@[simp] theorem setTrack_focus (s : State) (t : Nat) (x : Track) : (s.setTrack t x).focus = s.focus := rfl
@[simp] theorem setTrack_pick (s : State) (t : Nat) (x : Track) : (s.setTrack t x).pick = s.pick := rfl
@[simp] theorem setTrack_freeCtr (s : State) (t : Nat) (x : Track) : (s.setTrack t x).freeCtr = s.freeCtr := rfl
@[simp] theorem setTrack_now (s : State) (t : Nat) (x : Track) : (s.setTrack t x).now = s.now := rfl
@[simp] theorem setTrack_nextId (s : State) (t : Nat) (x : Track) : (s.setTrack t x).nextId = s.nextId := rfl
@[simp] theorem setTrack_tripped (s : State) (t : Nat) (x : Track) : (s.setTrack t x).tripped = s.tripped := rfl
@[simp] theorem setTrack_boot (s : State) (t : Nat) (x : Track) : (s.setTrack t x).boot = s.boot := rfl
@[simp] theorem setTrack_flash (s : State) (t : Nat) (x : Track) : (s.setTrack t x).flash = s.flash := rfl
@[simp] theorem setTrack_umc (s : State) (t : Nat) (x : Track) : (s.setTrack t x).umc = s.umc := rfl
@[simp] theorem setTrack_spdm (s : State) (t : Nat) (x : Track) : (s.setTrack t x).spdm = s.spdm := rfl
@[simp] theorem setTrack_enum (s : State) (t : Nat) (x : Track) : (s.setTrack t x).enum = s.enum := rfl
@[simp] theorem setTrack_linkDown (s : State) (t : Nat) (x : Track) : (s.setTrack t x).linkDown = s.linkDown := rfl
@[simp] theorem setTrack_sys (s : State) (t : Nat) (x : Track) : (s.setTrack t x).sys = s.sys := rfl
@[simp] theorem setTrack_depctr (s : State) (t : Nat) (x : Track) : (s.setTrack t x).depctr = s.depctr := rfl
@[simp] theorem setTrack_parts (s : State) (t : Nat) (x : Track) : (s.setTrack t x).parts = s.parts := rfl
@[simp] theorem setTrack_extents (s : State) (t : Nat) (x : Track) : (s.setTrack t x).extents = s.extents := rfl
@[simp] theorem setTrack_atsCache (s : State) (t : Nat) (x : Track) : (s.setTrack t x).atsCache = s.atsCache := rfl
@[simp] theorem setTrack_atsOld (s : State) (t : Nat) (x : Track) : (s.setTrack t x).atsOld = s.atsOld := rfl
@[simp] theorem setTrack_atsPending (s : State) (t : Nat) (x : Track) : (s.setTrack t x).atsPending = s.atsPending := rfl
@[simp] theorem setTrack_dies (s : State) (t : Nat) (x : Track) : (s.setTrack t x).dies = s.dies := rfl
@[simp] theorem setTrack_cores (s : State) (t : Nat) (x : Track) : (s.setTrack t x).cores = s.cores := rfl
@[simp] theorem setTrack_groups (s : State) (t : Nat) (x : Track) : (s.setTrack t x).groups = s.groups := rfl
@[simp] theorem setTrack_teams (s : State) (t : Nat) (x : Track) : (s.setTrack t x).teams = s.teams := rfl
@[simp] theorem setTrack_grids (s : State) (t : Nat) (x : Track) : (s.setTrack t x).grids = s.grids := rfl
@[simp] theorem setTrack_rr (s : State) (t : Nat) (x : Track) : (s.setTrack t x).rr = s.rr := rfl
@[simp] theorem setTrack_tickets (s : State) (t : Nat) (x : Track) : (s.setTrack t x).tickets = s.tickets := rfl
@[simp] theorem setTrack_svcWait (s : State) (t : Nat) (x : Track) : (s.setTrack t x).svcWait = s.svcWait := rfl
@[simp] theorem setTrack_lines (s : State) (t : Nat) (x : Track) : (s.setTrack t x).lines = s.lines := rfl
@[simp] theorem setTrack_sreqs (s : State) (t : Nat) (x : Track) : (s.setTrack t x).sreqs = s.sreqs := rfl
@[simp] theorem setTrack_ptab (s : State) (t : Nat) (x : Track) : (s.setTrack t x).ptab = s.ptab := rfl
@[simp] theorem setTrack_filters (s : State) (t : Nat) (x : Track) : (s.setTrack t x).filters = s.filters := rfl
@[simp] theorem setTrack_side (s : State) (t : Nat) (x : Track) : (s.setTrack t x).side = s.side := rfl
@[simp] theorem setTrack_mem (s : State) (t : Nat) (x : Track) : (s.setTrack t x).mem = s.mem := rfl
@[simp] theorem setTrack_hostMem (s : State) (t : Nat) (x : Track) : (s.setTrack t x).hostMem = s.hostMem := rfl
@[simp] theorem setTrack_poolMem (s : State) (t : Nat) (x : Track) : (s.setTrack t x).poolMem = s.poolMem := rfl
@[simp] theorem setTrack_hostPosted (s : State) (t : Nat) (x : Track) : (s.setTrack t x).hostPosted = s.hostPosted := rfl
@[simp] theorem setTrack_nodePosted (s : State) (t : Nat) (x : Track) : (s.setTrack t x).nodePosted = s.nodePosted := rfl
@[simp] theorem setTrack_net (s : State) (t : Nat) (x : Track) : (s.setTrack t x).net = s.net := rfl
@[simp] theorem setTrack_egress (s : State) (t : Nat) (x : Track) : (s.setTrack t x).egress = s.egress := rfl
@[simp] theorem setTrack_winWait (s : State) (t : Nat) (x : Track) : (s.setTrack t x).winWait = s.winWait := rfl
@[simp] theorem setTrack_mcRecvs (s : State) (t : Nat) (x : Track) : (s.setTrack t x).mcRecvs = s.mcRecvs := rfl
@[simp] theorem setTrack_reqs (s : State) (t : Nat) (x : Track) : (s.setTrack t x).reqs = s.reqs := rfl
@[simp] theorem setTrack_sends (s : State) (t : Nat) (x : Track) : (s.setTrack t x).sends = s.sends := rfl
@[simp] theorem setTrack_ports (s : State) (t : Nat) (x : Track) : (s.setTrack t x).ports = s.ports := rfl
@[simp] theorem setTrack_fqPend (s : State) (t : Nat) (x : Track) : (s.setTrack t x).fqPend = s.fqPend := rfl
@[simp] theorem setTrack_tlbis (s : State) (t : Nat) (x : Track) : (s.setTrack t x).tlbis = s.tlbis := rfl
@[simp] theorem setTrack_errAt (s : State) (t : Nat) (x : Track) : (s.setTrack t x).errAt = s.errAt := rfl
@[simp] theorem setTrack_oldParts (s : State) (t : Nat) (x : Track) : (s.setTrack t x).oldParts = s.oldParts := rfl
@[simp] theorem setTrack_accepted (s : State) (t : Nat) (x : Track) : (s.setTrack t x).accepted = s.accepted := rfl
@[simp] theorem setTrack_migPage (s : State) (t : Nat) (x : Track) : (s.setTrack t x).migPage = s.migPage := rfl
@[simp] theorem setTrack_devStores (s : State) (t : Nat) (x : Track) : (s.setTrack t x).devStores = s.devStores := rfl
@[simp] theorem setTrack_devErrs (s : State) (t : Nat) (x : Track) : (s.setTrack t x).devErrs = s.devErrs := rfl

/-! ## setPort -/

@[simp] theorem setPort_agenda (s : State) (p : Nat) (x : Port) : (s.setPort p x).agenda = s.agenda := rfl
@[simp] theorem setPort_focus (s : State) (p : Nat) (x : Port) : (s.setPort p x).focus = s.focus := rfl
@[simp] theorem setPort_pick (s : State) (p : Nat) (x : Port) : (s.setPort p x).pick = s.pick := rfl
@[simp] theorem setPort_freeCtr (s : State) (p : Nat) (x : Port) : (s.setPort p x).freeCtr = s.freeCtr := rfl
@[simp] theorem setPort_now (s : State) (p : Nat) (x : Port) : (s.setPort p x).now = s.now := rfl
@[simp] theorem setPort_nextId (s : State) (p : Nat) (x : Port) : (s.setPort p x).nextId = s.nextId := rfl
@[simp] theorem setPort_tripped (s : State) (p : Nat) (x : Port) : (s.setPort p x).tripped = s.tripped := rfl
@[simp] theorem setPort_boot (s : State) (p : Nat) (x : Port) : (s.setPort p x).boot = s.boot := rfl
@[simp] theorem setPort_flash (s : State) (p : Nat) (x : Port) : (s.setPort p x).flash = s.flash := rfl
@[simp] theorem setPort_umc (s : State) (p : Nat) (x : Port) : (s.setPort p x).umc = s.umc := rfl
@[simp] theorem setPort_spdm (s : State) (p : Nat) (x : Port) : (s.setPort p x).spdm = s.spdm := rfl
@[simp] theorem setPort_enum (s : State) (p : Nat) (x : Port) : (s.setPort p x).enum = s.enum := rfl
@[simp] theorem setPort_linkDown (s : State) (p : Nat) (x : Port) : (s.setPort p x).linkDown = s.linkDown := rfl
@[simp] theorem setPort_sys (s : State) (p : Nat) (x : Port) : (s.setPort p x).sys = s.sys := rfl
@[simp] theorem setPort_depctr (s : State) (p : Nat) (x : Port) : (s.setPort p x).depctr = s.depctr := rfl
@[simp] theorem setPort_parts (s : State) (p : Nat) (x : Port) : (s.setPort p x).parts = s.parts := rfl
@[simp] theorem setPort_extents (s : State) (p : Nat) (x : Port) : (s.setPort p x).extents = s.extents := rfl
@[simp] theorem setPort_atsCache (s : State) (p : Nat) (x : Port) : (s.setPort p x).atsCache = s.atsCache := rfl
@[simp] theorem setPort_atsOld (s : State) (p : Nat) (x : Port) : (s.setPort p x).atsOld = s.atsOld := rfl
@[simp] theorem setPort_atsPending (s : State) (p : Nat) (x : Port) : (s.setPort p x).atsPending = s.atsPending := rfl
@[simp] theorem setPort_dies (s : State) (p : Nat) (x : Port) : (s.setPort p x).dies = s.dies := rfl
@[simp] theorem setPort_cores (s : State) (p : Nat) (x : Port) : (s.setPort p x).cores = s.cores := rfl
@[simp] theorem setPort_tracks (s : State) (p : Nat) (x : Port) : (s.setPort p x).tracks = s.tracks := rfl
@[simp] theorem setPort_groups (s : State) (p : Nat) (x : Port) : (s.setPort p x).groups = s.groups := rfl
@[simp] theorem setPort_teams (s : State) (p : Nat) (x : Port) : (s.setPort p x).teams = s.teams := rfl
@[simp] theorem setPort_grids (s : State) (p : Nat) (x : Port) : (s.setPort p x).grids = s.grids := rfl
@[simp] theorem setPort_rr (s : State) (p : Nat) (x : Port) : (s.setPort p x).rr = s.rr := rfl
@[simp] theorem setPort_tickets (s : State) (p : Nat) (x : Port) : (s.setPort p x).tickets = s.tickets := rfl
@[simp] theorem setPort_svcWait (s : State) (p : Nat) (x : Port) : (s.setPort p x).svcWait = s.svcWait := rfl
@[simp] theorem setPort_lines (s : State) (p : Nat) (x : Port) : (s.setPort p x).lines = s.lines := rfl
@[simp] theorem setPort_sreqs (s : State) (p : Nat) (x : Port) : (s.setPort p x).sreqs = s.sreqs := rfl
@[simp] theorem setPort_ptab (s : State) (p : Nat) (x : Port) : (s.setPort p x).ptab = s.ptab := rfl
@[simp] theorem setPort_filters (s : State) (p : Nat) (x : Port) : (s.setPort p x).filters = s.filters := rfl
@[simp] theorem setPort_side (s : State) (p : Nat) (x : Port) : (s.setPort p x).side = s.side := rfl
@[simp] theorem setPort_mem (s : State) (p : Nat) (x : Port) : (s.setPort p x).mem = s.mem := rfl
@[simp] theorem setPort_hostMem (s : State) (p : Nat) (x : Port) : (s.setPort p x).hostMem = s.hostMem := rfl
@[simp] theorem setPort_poolMem (s : State) (p : Nat) (x : Port) : (s.setPort p x).poolMem = s.poolMem := rfl
@[simp] theorem setPort_hostPosted (s : State) (p : Nat) (x : Port) : (s.setPort p x).hostPosted = s.hostPosted := rfl
@[simp] theorem setPort_nodePosted (s : State) (p : Nat) (x : Port) : (s.setPort p x).nodePosted = s.nodePosted := rfl
@[simp] theorem setPort_net (s : State) (p : Nat) (x : Port) : (s.setPort p x).net = s.net := rfl
@[simp] theorem setPort_egress (s : State) (p : Nat) (x : Port) : (s.setPort p x).egress = s.egress := rfl
@[simp] theorem setPort_winWait (s : State) (p : Nat) (x : Port) : (s.setPort p x).winWait = s.winWait := rfl
@[simp] theorem setPort_mcRecvs (s : State) (p : Nat) (x : Port) : (s.setPort p x).mcRecvs = s.mcRecvs := rfl
@[simp] theorem setPort_reqs (s : State) (p : Nat) (x : Port) : (s.setPort p x).reqs = s.reqs := rfl
@[simp] theorem setPort_sends (s : State) (p : Nat) (x : Port) : (s.setPort p x).sends = s.sends := rfl
@[simp] theorem setPort_fqPend (s : State) (p : Nat) (x : Port) : (s.setPort p x).fqPend = s.fqPend := rfl
@[simp] theorem setPort_tlbis (s : State) (p : Nat) (x : Port) : (s.setPort p x).tlbis = s.tlbis := rfl
@[simp] theorem setPort_errAt (s : State) (p : Nat) (x : Port) : (s.setPort p x).errAt = s.errAt := rfl
@[simp] theorem setPort_oldParts (s : State) (p : Nat) (x : Port) : (s.setPort p x).oldParts = s.oldParts := rfl
@[simp] theorem setPort_accepted (s : State) (p : Nat) (x : Port) : (s.setPort p x).accepted = s.accepted := rfl
@[simp] theorem setPort_migPage (s : State) (p : Nat) (x : Port) : (s.setPort p x).migPage = s.migPage := rfl
@[simp] theorem setPort_devStores (s : State) (p : Nat) (x : Port) : (s.setPort p x).devStores = s.devStores := rfl
@[simp] theorem setPort_devErrs (s : State) (p : Nat) (x : Port) : (s.setPort p x).devErrs = s.devErrs := rfl

/-! ## setGroup -/

@[simp] theorem setGroup_agenda (s : State) (g : Nat) (x : Group) : (s.setGroup g x).agenda = s.agenda := rfl
@[simp] theorem setGroup_focus (s : State) (g : Nat) (x : Group) : (s.setGroup g x).focus = s.focus := rfl
@[simp] theorem setGroup_pick (s : State) (g : Nat) (x : Group) : (s.setGroup g x).pick = s.pick := rfl
@[simp] theorem setGroup_freeCtr (s : State) (g : Nat) (x : Group) : (s.setGroup g x).freeCtr = s.freeCtr := rfl
@[simp] theorem setGroup_now (s : State) (g : Nat) (x : Group) : (s.setGroup g x).now = s.now := rfl
@[simp] theorem setGroup_nextId (s : State) (g : Nat) (x : Group) : (s.setGroup g x).nextId = s.nextId := rfl
@[simp] theorem setGroup_tripped (s : State) (g : Nat) (x : Group) : (s.setGroup g x).tripped = s.tripped := rfl
@[simp] theorem setGroup_boot (s : State) (g : Nat) (x : Group) : (s.setGroup g x).boot = s.boot := rfl
@[simp] theorem setGroup_flash (s : State) (g : Nat) (x : Group) : (s.setGroup g x).flash = s.flash := rfl
@[simp] theorem setGroup_umc (s : State) (g : Nat) (x : Group) : (s.setGroup g x).umc = s.umc := rfl
@[simp] theorem setGroup_spdm (s : State) (g : Nat) (x : Group) : (s.setGroup g x).spdm = s.spdm := rfl
@[simp] theorem setGroup_enum (s : State) (g : Nat) (x : Group) : (s.setGroup g x).enum = s.enum := rfl
@[simp] theorem setGroup_linkDown (s : State) (g : Nat) (x : Group) : (s.setGroup g x).linkDown = s.linkDown := rfl
@[simp] theorem setGroup_sys (s : State) (g : Nat) (x : Group) : (s.setGroup g x).sys = s.sys := rfl
@[simp] theorem setGroup_depctr (s : State) (g : Nat) (x : Group) : (s.setGroup g x).depctr = s.depctr := rfl
@[simp] theorem setGroup_parts (s : State) (g : Nat) (x : Group) : (s.setGroup g x).parts = s.parts := rfl
@[simp] theorem setGroup_extents (s : State) (g : Nat) (x : Group) : (s.setGroup g x).extents = s.extents := rfl
@[simp] theorem setGroup_atsCache (s : State) (g : Nat) (x : Group) : (s.setGroup g x).atsCache = s.atsCache := rfl
@[simp] theorem setGroup_atsOld (s : State) (g : Nat) (x : Group) : (s.setGroup g x).atsOld = s.atsOld := rfl
@[simp] theorem setGroup_atsPending (s : State) (g : Nat) (x : Group) : (s.setGroup g x).atsPending = s.atsPending := rfl
@[simp] theorem setGroup_dies (s : State) (g : Nat) (x : Group) : (s.setGroup g x).dies = s.dies := rfl
@[simp] theorem setGroup_cores (s : State) (g : Nat) (x : Group) : (s.setGroup g x).cores = s.cores := rfl
@[simp] theorem setGroup_tracks (s : State) (g : Nat) (x : Group) : (s.setGroup g x).tracks = s.tracks := rfl
@[simp] theorem setGroup_teams (s : State) (g : Nat) (x : Group) : (s.setGroup g x).teams = s.teams := rfl
@[simp] theorem setGroup_grids (s : State) (g : Nat) (x : Group) : (s.setGroup g x).grids = s.grids := rfl
@[simp] theorem setGroup_rr (s : State) (g : Nat) (x : Group) : (s.setGroup g x).rr = s.rr := rfl
@[simp] theorem setGroup_tickets (s : State) (g : Nat) (x : Group) : (s.setGroup g x).tickets = s.tickets := rfl
@[simp] theorem setGroup_svcWait (s : State) (g : Nat) (x : Group) : (s.setGroup g x).svcWait = s.svcWait := rfl
@[simp] theorem setGroup_lines (s : State) (g : Nat) (x : Group) : (s.setGroup g x).lines = s.lines := rfl
@[simp] theorem setGroup_sreqs (s : State) (g : Nat) (x : Group) : (s.setGroup g x).sreqs = s.sreqs := rfl
@[simp] theorem setGroup_ptab (s : State) (g : Nat) (x : Group) : (s.setGroup g x).ptab = s.ptab := rfl
@[simp] theorem setGroup_filters (s : State) (g : Nat) (x : Group) : (s.setGroup g x).filters = s.filters := rfl
@[simp] theorem setGroup_side (s : State) (g : Nat) (x : Group) : (s.setGroup g x).side = s.side := rfl
@[simp] theorem setGroup_mem (s : State) (g : Nat) (x : Group) : (s.setGroup g x).mem = s.mem := rfl
@[simp] theorem setGroup_hostMem (s : State) (g : Nat) (x : Group) : (s.setGroup g x).hostMem = s.hostMem := rfl
@[simp] theorem setGroup_poolMem (s : State) (g : Nat) (x : Group) : (s.setGroup g x).poolMem = s.poolMem := rfl
@[simp] theorem setGroup_hostPosted (s : State) (g : Nat) (x : Group) : (s.setGroup g x).hostPosted = s.hostPosted := rfl
@[simp] theorem setGroup_nodePosted (s : State) (g : Nat) (x : Group) : (s.setGroup g x).nodePosted = s.nodePosted := rfl
@[simp] theorem setGroup_net (s : State) (g : Nat) (x : Group) : (s.setGroup g x).net = s.net := rfl
@[simp] theorem setGroup_egress (s : State) (g : Nat) (x : Group) : (s.setGroup g x).egress = s.egress := rfl
@[simp] theorem setGroup_winWait (s : State) (g : Nat) (x : Group) : (s.setGroup g x).winWait = s.winWait := rfl
@[simp] theorem setGroup_mcRecvs (s : State) (g : Nat) (x : Group) : (s.setGroup g x).mcRecvs = s.mcRecvs := rfl
@[simp] theorem setGroup_reqs (s : State) (g : Nat) (x : Group) : (s.setGroup g x).reqs = s.reqs := rfl
@[simp] theorem setGroup_sends (s : State) (g : Nat) (x : Group) : (s.setGroup g x).sends = s.sends := rfl
@[simp] theorem setGroup_ports (s : State) (g : Nat) (x : Group) : (s.setGroup g x).ports = s.ports := rfl
@[simp] theorem setGroup_fqPend (s : State) (g : Nat) (x : Group) : (s.setGroup g x).fqPend = s.fqPend := rfl
@[simp] theorem setGroup_tlbis (s : State) (g : Nat) (x : Group) : (s.setGroup g x).tlbis = s.tlbis := rfl
@[simp] theorem setGroup_errAt (s : State) (g : Nat) (x : Group) : (s.setGroup g x).errAt = s.errAt := rfl
@[simp] theorem setGroup_oldParts (s : State) (g : Nat) (x : Group) : (s.setGroup g x).oldParts = s.oldParts := rfl
@[simp] theorem setGroup_accepted (s : State) (g : Nat) (x : Group) : (s.setGroup g x).accepted = s.accepted := rfl
@[simp] theorem setGroup_migPage (s : State) (g : Nat) (x : Group) : (s.setGroup g x).migPage = s.migPage := rfl
@[simp] theorem setGroup_devStores (s : State) (g : Nat) (x : Group) : (s.setGroup g x).devStores = s.devStores := rfl
@[simp] theorem setGroup_devErrs (s : State) (g : Nat) (x : Group) : (s.setGroup g x).devErrs = s.devErrs := rfl

/-! ## setTeam -/

@[simp] theorem setTeam_agenda (s : State) (k : Nat) (x : Team) : (s.setTeam k x).agenda = s.agenda := rfl
@[simp] theorem setTeam_focus (s : State) (k : Nat) (x : Team) : (s.setTeam k x).focus = s.focus := rfl
@[simp] theorem setTeam_pick (s : State) (k : Nat) (x : Team) : (s.setTeam k x).pick = s.pick := rfl
@[simp] theorem setTeam_freeCtr (s : State) (k : Nat) (x : Team) : (s.setTeam k x).freeCtr = s.freeCtr := rfl
@[simp] theorem setTeam_now (s : State) (k : Nat) (x : Team) : (s.setTeam k x).now = s.now := rfl
@[simp] theorem setTeam_nextId (s : State) (k : Nat) (x : Team) : (s.setTeam k x).nextId = s.nextId := rfl
@[simp] theorem setTeam_tripped (s : State) (k : Nat) (x : Team) : (s.setTeam k x).tripped = s.tripped := rfl
@[simp] theorem setTeam_boot (s : State) (k : Nat) (x : Team) : (s.setTeam k x).boot = s.boot := rfl
@[simp] theorem setTeam_flash (s : State) (k : Nat) (x : Team) : (s.setTeam k x).flash = s.flash := rfl
@[simp] theorem setTeam_umc (s : State) (k : Nat) (x : Team) : (s.setTeam k x).umc = s.umc := rfl
@[simp] theorem setTeam_spdm (s : State) (k : Nat) (x : Team) : (s.setTeam k x).spdm = s.spdm := rfl
@[simp] theorem setTeam_enum (s : State) (k : Nat) (x : Team) : (s.setTeam k x).enum = s.enum := rfl
@[simp] theorem setTeam_linkDown (s : State) (k : Nat) (x : Team) : (s.setTeam k x).linkDown = s.linkDown := rfl
@[simp] theorem setTeam_sys (s : State) (k : Nat) (x : Team) : (s.setTeam k x).sys = s.sys := rfl
@[simp] theorem setTeam_depctr (s : State) (k : Nat) (x : Team) : (s.setTeam k x).depctr = s.depctr := rfl
@[simp] theorem setTeam_parts (s : State) (k : Nat) (x : Team) : (s.setTeam k x).parts = s.parts := rfl
@[simp] theorem setTeam_extents (s : State) (k : Nat) (x : Team) : (s.setTeam k x).extents = s.extents := rfl
@[simp] theorem setTeam_atsCache (s : State) (k : Nat) (x : Team) : (s.setTeam k x).atsCache = s.atsCache := rfl
@[simp] theorem setTeam_atsOld (s : State) (k : Nat) (x : Team) : (s.setTeam k x).atsOld = s.atsOld := rfl
@[simp] theorem setTeam_atsPending (s : State) (k : Nat) (x : Team) : (s.setTeam k x).atsPending = s.atsPending := rfl
@[simp] theorem setTeam_dies (s : State) (k : Nat) (x : Team) : (s.setTeam k x).dies = s.dies := rfl
@[simp] theorem setTeam_cores (s : State) (k : Nat) (x : Team) : (s.setTeam k x).cores = s.cores := rfl
@[simp] theorem setTeam_tracks (s : State) (k : Nat) (x : Team) : (s.setTeam k x).tracks = s.tracks := rfl
@[simp] theorem setTeam_groups (s : State) (k : Nat) (x : Team) : (s.setTeam k x).groups = s.groups := rfl
@[simp] theorem setTeam_grids (s : State) (k : Nat) (x : Team) : (s.setTeam k x).grids = s.grids := rfl
@[simp] theorem setTeam_rr (s : State) (k : Nat) (x : Team) : (s.setTeam k x).rr = s.rr := rfl
@[simp] theorem setTeam_tickets (s : State) (k : Nat) (x : Team) : (s.setTeam k x).tickets = s.tickets := rfl
@[simp] theorem setTeam_svcWait (s : State) (k : Nat) (x : Team) : (s.setTeam k x).svcWait = s.svcWait := rfl
@[simp] theorem setTeam_lines (s : State) (k : Nat) (x : Team) : (s.setTeam k x).lines = s.lines := rfl
@[simp] theorem setTeam_sreqs (s : State) (k : Nat) (x : Team) : (s.setTeam k x).sreqs = s.sreqs := rfl
@[simp] theorem setTeam_ptab (s : State) (k : Nat) (x : Team) : (s.setTeam k x).ptab = s.ptab := rfl
@[simp] theorem setTeam_filters (s : State) (k : Nat) (x : Team) : (s.setTeam k x).filters = s.filters := rfl
@[simp] theorem setTeam_side (s : State) (k : Nat) (x : Team) : (s.setTeam k x).side = s.side := rfl
@[simp] theorem setTeam_mem (s : State) (k : Nat) (x : Team) : (s.setTeam k x).mem = s.mem := rfl
@[simp] theorem setTeam_hostMem (s : State) (k : Nat) (x : Team) : (s.setTeam k x).hostMem = s.hostMem := rfl
@[simp] theorem setTeam_poolMem (s : State) (k : Nat) (x : Team) : (s.setTeam k x).poolMem = s.poolMem := rfl
@[simp] theorem setTeam_hostPosted (s : State) (k : Nat) (x : Team) : (s.setTeam k x).hostPosted = s.hostPosted := rfl
@[simp] theorem setTeam_nodePosted (s : State) (k : Nat) (x : Team) : (s.setTeam k x).nodePosted = s.nodePosted := rfl
@[simp] theorem setTeam_net (s : State) (k : Nat) (x : Team) : (s.setTeam k x).net = s.net := rfl
@[simp] theorem setTeam_egress (s : State) (k : Nat) (x : Team) : (s.setTeam k x).egress = s.egress := rfl
@[simp] theorem setTeam_winWait (s : State) (k : Nat) (x : Team) : (s.setTeam k x).winWait = s.winWait := rfl
@[simp] theorem setTeam_mcRecvs (s : State) (k : Nat) (x : Team) : (s.setTeam k x).mcRecvs = s.mcRecvs := rfl
@[simp] theorem setTeam_reqs (s : State) (k : Nat) (x : Team) : (s.setTeam k x).reqs = s.reqs := rfl
@[simp] theorem setTeam_sends (s : State) (k : Nat) (x : Team) : (s.setTeam k x).sends = s.sends := rfl
@[simp] theorem setTeam_ports (s : State) (k : Nat) (x : Team) : (s.setTeam k x).ports = s.ports := rfl
@[simp] theorem setTeam_fqPend (s : State) (k : Nat) (x : Team) : (s.setTeam k x).fqPend = s.fqPend := rfl
@[simp] theorem setTeam_tlbis (s : State) (k : Nat) (x : Team) : (s.setTeam k x).tlbis = s.tlbis := rfl
@[simp] theorem setTeam_errAt (s : State) (k : Nat) (x : Team) : (s.setTeam k x).errAt = s.errAt := rfl
@[simp] theorem setTeam_oldParts (s : State) (k : Nat) (x : Team) : (s.setTeam k x).oldParts = s.oldParts := rfl
@[simp] theorem setTeam_accepted (s : State) (k : Nat) (x : Team) : (s.setTeam k x).accepted = s.accepted := rfl
@[simp] theorem setTeam_migPage (s : State) (k : Nat) (x : Team) : (s.setTeam k x).migPage = s.migPage := rfl
@[simp] theorem setTeam_devStores (s : State) (k : Nat) (x : Team) : (s.setTeam k x).devStores = s.devStores := rfl
@[simp] theorem setTeam_devErrs (s : State) (k : Nat) (x : Team) : (s.setTeam k x).devErrs = s.devErrs := rfl

/-! ## setGrid -/

@[simp] theorem setGrid_agenda (s : State) (k : Nat) (x : Grid) : (s.setGrid k x).agenda = s.agenda := rfl
@[simp] theorem setGrid_focus (s : State) (k : Nat) (x : Grid) : (s.setGrid k x).focus = s.focus := rfl
@[simp] theorem setGrid_pick (s : State) (k : Nat) (x : Grid) : (s.setGrid k x).pick = s.pick := rfl
@[simp] theorem setGrid_freeCtr (s : State) (k : Nat) (x : Grid) : (s.setGrid k x).freeCtr = s.freeCtr := rfl
@[simp] theorem setGrid_now (s : State) (k : Nat) (x : Grid) : (s.setGrid k x).now = s.now := rfl
@[simp] theorem setGrid_nextId (s : State) (k : Nat) (x : Grid) : (s.setGrid k x).nextId = s.nextId := rfl
@[simp] theorem setGrid_tripped (s : State) (k : Nat) (x : Grid) : (s.setGrid k x).tripped = s.tripped := rfl
@[simp] theorem setGrid_boot (s : State) (k : Nat) (x : Grid) : (s.setGrid k x).boot = s.boot := rfl
@[simp] theorem setGrid_flash (s : State) (k : Nat) (x : Grid) : (s.setGrid k x).flash = s.flash := rfl
@[simp] theorem setGrid_umc (s : State) (k : Nat) (x : Grid) : (s.setGrid k x).umc = s.umc := rfl
@[simp] theorem setGrid_spdm (s : State) (k : Nat) (x : Grid) : (s.setGrid k x).spdm = s.spdm := rfl
@[simp] theorem setGrid_enum (s : State) (k : Nat) (x : Grid) : (s.setGrid k x).enum = s.enum := rfl
@[simp] theorem setGrid_linkDown (s : State) (k : Nat) (x : Grid) : (s.setGrid k x).linkDown = s.linkDown := rfl
@[simp] theorem setGrid_sys (s : State) (k : Nat) (x : Grid) : (s.setGrid k x).sys = s.sys := rfl
@[simp] theorem setGrid_depctr (s : State) (k : Nat) (x : Grid) : (s.setGrid k x).depctr = s.depctr := rfl
@[simp] theorem setGrid_parts (s : State) (k : Nat) (x : Grid) : (s.setGrid k x).parts = s.parts := rfl
@[simp] theorem setGrid_extents (s : State) (k : Nat) (x : Grid) : (s.setGrid k x).extents = s.extents := rfl
@[simp] theorem setGrid_atsCache (s : State) (k : Nat) (x : Grid) : (s.setGrid k x).atsCache = s.atsCache := rfl
@[simp] theorem setGrid_atsOld (s : State) (k : Nat) (x : Grid) : (s.setGrid k x).atsOld = s.atsOld := rfl
@[simp] theorem setGrid_atsPending (s : State) (k : Nat) (x : Grid) : (s.setGrid k x).atsPending = s.atsPending := rfl
@[simp] theorem setGrid_dies (s : State) (k : Nat) (x : Grid) : (s.setGrid k x).dies = s.dies := rfl
@[simp] theorem setGrid_cores (s : State) (k : Nat) (x : Grid) : (s.setGrid k x).cores = s.cores := rfl
@[simp] theorem setGrid_tracks (s : State) (k : Nat) (x : Grid) : (s.setGrid k x).tracks = s.tracks := rfl
@[simp] theorem setGrid_groups (s : State) (k : Nat) (x : Grid) : (s.setGrid k x).groups = s.groups := rfl
@[simp] theorem setGrid_teams (s : State) (k : Nat) (x : Grid) : (s.setGrid k x).teams = s.teams := rfl
@[simp] theorem setGrid_rr (s : State) (k : Nat) (x : Grid) : (s.setGrid k x).rr = s.rr := rfl
@[simp] theorem setGrid_tickets (s : State) (k : Nat) (x : Grid) : (s.setGrid k x).tickets = s.tickets := rfl
@[simp] theorem setGrid_svcWait (s : State) (k : Nat) (x : Grid) : (s.setGrid k x).svcWait = s.svcWait := rfl
@[simp] theorem setGrid_lines (s : State) (k : Nat) (x : Grid) : (s.setGrid k x).lines = s.lines := rfl
@[simp] theorem setGrid_sreqs (s : State) (k : Nat) (x : Grid) : (s.setGrid k x).sreqs = s.sreqs := rfl
@[simp] theorem setGrid_ptab (s : State) (k : Nat) (x : Grid) : (s.setGrid k x).ptab = s.ptab := rfl
@[simp] theorem setGrid_filters (s : State) (k : Nat) (x : Grid) : (s.setGrid k x).filters = s.filters := rfl
@[simp] theorem setGrid_side (s : State) (k : Nat) (x : Grid) : (s.setGrid k x).side = s.side := rfl
@[simp] theorem setGrid_mem (s : State) (k : Nat) (x : Grid) : (s.setGrid k x).mem = s.mem := rfl
@[simp] theorem setGrid_hostMem (s : State) (k : Nat) (x : Grid) : (s.setGrid k x).hostMem = s.hostMem := rfl
@[simp] theorem setGrid_poolMem (s : State) (k : Nat) (x : Grid) : (s.setGrid k x).poolMem = s.poolMem := rfl
@[simp] theorem setGrid_hostPosted (s : State) (k : Nat) (x : Grid) : (s.setGrid k x).hostPosted = s.hostPosted := rfl
@[simp] theorem setGrid_nodePosted (s : State) (k : Nat) (x : Grid) : (s.setGrid k x).nodePosted = s.nodePosted := rfl
@[simp] theorem setGrid_net (s : State) (k : Nat) (x : Grid) : (s.setGrid k x).net = s.net := rfl
@[simp] theorem setGrid_egress (s : State) (k : Nat) (x : Grid) : (s.setGrid k x).egress = s.egress := rfl
@[simp] theorem setGrid_winWait (s : State) (k : Nat) (x : Grid) : (s.setGrid k x).winWait = s.winWait := rfl
@[simp] theorem setGrid_mcRecvs (s : State) (k : Nat) (x : Grid) : (s.setGrid k x).mcRecvs = s.mcRecvs := rfl
@[simp] theorem setGrid_reqs (s : State) (k : Nat) (x : Grid) : (s.setGrid k x).reqs = s.reqs := rfl
@[simp] theorem setGrid_sends (s : State) (k : Nat) (x : Grid) : (s.setGrid k x).sends = s.sends := rfl
@[simp] theorem setGrid_ports (s : State) (k : Nat) (x : Grid) : (s.setGrid k x).ports = s.ports := rfl
@[simp] theorem setGrid_fqPend (s : State) (k : Nat) (x : Grid) : (s.setGrid k x).fqPend = s.fqPend := rfl
@[simp] theorem setGrid_tlbis (s : State) (k : Nat) (x : Grid) : (s.setGrid k x).tlbis = s.tlbis := rfl
@[simp] theorem setGrid_errAt (s : State) (k : Nat) (x : Grid) : (s.setGrid k x).errAt = s.errAt := rfl
@[simp] theorem setGrid_oldParts (s : State) (k : Nat) (x : Grid) : (s.setGrid k x).oldParts = s.oldParts := rfl
@[simp] theorem setGrid_accepted (s : State) (k : Nat) (x : Grid) : (s.setGrid k x).accepted = s.accepted := rfl
@[simp] theorem setGrid_migPage (s : State) (k : Nat) (x : Grid) : (s.setGrid k x).migPage = s.migPage := rfl
@[simp] theorem setGrid_devStores (s : State) (k : Nat) (x : Grid) : (s.setGrid k x).devStores = s.devStores := rfl
@[simp] theorem setGrid_devErrs (s : State) (k : Nat) (x : Grid) : (s.setGrid k x).devErrs = s.devErrs := rfl

/-! ## updGroup -/

@[simp] theorem updGroup_agenda (s : State) (g : Nat) (f : Group → Group) : (s.updGroup g f).agenda = s.agenda := rfl
@[simp] theorem updGroup_focus (s : State) (g : Nat) (f : Group → Group) : (s.updGroup g f).focus = s.focus := rfl
@[simp] theorem updGroup_pick (s : State) (g : Nat) (f : Group → Group) : (s.updGroup g f).pick = s.pick := rfl
@[simp] theorem updGroup_freeCtr (s : State) (g : Nat) (f : Group → Group) : (s.updGroup g f).freeCtr = s.freeCtr := rfl
@[simp] theorem updGroup_now (s : State) (g : Nat) (f : Group → Group) : (s.updGroup g f).now = s.now := rfl
@[simp] theorem updGroup_nextId (s : State) (g : Nat) (f : Group → Group) : (s.updGroup g f).nextId = s.nextId := rfl
@[simp] theorem updGroup_tripped (s : State) (g : Nat) (f : Group → Group) : (s.updGroup g f).tripped = s.tripped := rfl
@[simp] theorem updGroup_boot (s : State) (g : Nat) (f : Group → Group) : (s.updGroup g f).boot = s.boot := rfl
@[simp] theorem updGroup_flash (s : State) (g : Nat) (f : Group → Group) : (s.updGroup g f).flash = s.flash := rfl
@[simp] theorem updGroup_umc (s : State) (g : Nat) (f : Group → Group) : (s.updGroup g f).umc = s.umc := rfl
@[simp] theorem updGroup_spdm (s : State) (g : Nat) (f : Group → Group) : (s.updGroup g f).spdm = s.spdm := rfl
@[simp] theorem updGroup_enum (s : State) (g : Nat) (f : Group → Group) : (s.updGroup g f).enum = s.enum := rfl
@[simp] theorem updGroup_linkDown (s : State) (g : Nat) (f : Group → Group) : (s.updGroup g f).linkDown = s.linkDown := rfl
@[simp] theorem updGroup_sys (s : State) (g : Nat) (f : Group → Group) : (s.updGroup g f).sys = s.sys := rfl
@[simp] theorem updGroup_depctr (s : State) (g : Nat) (f : Group → Group) : (s.updGroup g f).depctr = s.depctr := rfl
@[simp] theorem updGroup_parts (s : State) (g : Nat) (f : Group → Group) : (s.updGroup g f).parts = s.parts := rfl
@[simp] theorem updGroup_extents (s : State) (g : Nat) (f : Group → Group) : (s.updGroup g f).extents = s.extents := rfl
@[simp] theorem updGroup_atsCache (s : State) (g : Nat) (f : Group → Group) : (s.updGroup g f).atsCache = s.atsCache := rfl
@[simp] theorem updGroup_atsOld (s : State) (g : Nat) (f : Group → Group) : (s.updGroup g f).atsOld = s.atsOld := rfl
@[simp] theorem updGroup_atsPending (s : State) (g : Nat) (f : Group → Group) : (s.updGroup g f).atsPending = s.atsPending := rfl
@[simp] theorem updGroup_dies (s : State) (g : Nat) (f : Group → Group) : (s.updGroup g f).dies = s.dies := rfl
@[simp] theorem updGroup_cores (s : State) (g : Nat) (f : Group → Group) : (s.updGroup g f).cores = s.cores := rfl
@[simp] theorem updGroup_tracks (s : State) (g : Nat) (f : Group → Group) : (s.updGroup g f).tracks = s.tracks := rfl
@[simp] theorem updGroup_teams (s : State) (g : Nat) (f : Group → Group) : (s.updGroup g f).teams = s.teams := rfl
@[simp] theorem updGroup_grids (s : State) (g : Nat) (f : Group → Group) : (s.updGroup g f).grids = s.grids := rfl
@[simp] theorem updGroup_rr (s : State) (g : Nat) (f : Group → Group) : (s.updGroup g f).rr = s.rr := rfl
@[simp] theorem updGroup_tickets (s : State) (g : Nat) (f : Group → Group) : (s.updGroup g f).tickets = s.tickets := rfl
@[simp] theorem updGroup_svcWait (s : State) (g : Nat) (f : Group → Group) : (s.updGroup g f).svcWait = s.svcWait := rfl
@[simp] theorem updGroup_lines (s : State) (g : Nat) (f : Group → Group) : (s.updGroup g f).lines = s.lines := rfl
@[simp] theorem updGroup_sreqs (s : State) (g : Nat) (f : Group → Group) : (s.updGroup g f).sreqs = s.sreqs := rfl
@[simp] theorem updGroup_ptab (s : State) (g : Nat) (f : Group → Group) : (s.updGroup g f).ptab = s.ptab := rfl
@[simp] theorem updGroup_filters (s : State) (g : Nat) (f : Group → Group) : (s.updGroup g f).filters = s.filters := rfl
@[simp] theorem updGroup_side (s : State) (g : Nat) (f : Group → Group) : (s.updGroup g f).side = s.side := rfl
@[simp] theorem updGroup_mem (s : State) (g : Nat) (f : Group → Group) : (s.updGroup g f).mem = s.mem := rfl
@[simp] theorem updGroup_hostMem (s : State) (g : Nat) (f : Group → Group) : (s.updGroup g f).hostMem = s.hostMem := rfl
@[simp] theorem updGroup_poolMem (s : State) (g : Nat) (f : Group → Group) : (s.updGroup g f).poolMem = s.poolMem := rfl
@[simp] theorem updGroup_hostPosted (s : State) (g : Nat) (f : Group → Group) : (s.updGroup g f).hostPosted = s.hostPosted := rfl
@[simp] theorem updGroup_nodePosted (s : State) (g : Nat) (f : Group → Group) : (s.updGroup g f).nodePosted = s.nodePosted := rfl
@[simp] theorem updGroup_net (s : State) (g : Nat) (f : Group → Group) : (s.updGroup g f).net = s.net := rfl
@[simp] theorem updGroup_egress (s : State) (g : Nat) (f : Group → Group) : (s.updGroup g f).egress = s.egress := rfl
@[simp] theorem updGroup_winWait (s : State) (g : Nat) (f : Group → Group) : (s.updGroup g f).winWait = s.winWait := rfl
@[simp] theorem updGroup_mcRecvs (s : State) (g : Nat) (f : Group → Group) : (s.updGroup g f).mcRecvs = s.mcRecvs := rfl
@[simp] theorem updGroup_reqs (s : State) (g : Nat) (f : Group → Group) : (s.updGroup g f).reqs = s.reqs := rfl
@[simp] theorem updGroup_sends (s : State) (g : Nat) (f : Group → Group) : (s.updGroup g f).sends = s.sends := rfl
@[simp] theorem updGroup_ports (s : State) (g : Nat) (f : Group → Group) : (s.updGroup g f).ports = s.ports := rfl
@[simp] theorem updGroup_fqPend (s : State) (g : Nat) (f : Group → Group) : (s.updGroup g f).fqPend = s.fqPend := rfl
@[simp] theorem updGroup_tlbis (s : State) (g : Nat) (f : Group → Group) : (s.updGroup g f).tlbis = s.tlbis := rfl
@[simp] theorem updGroup_errAt (s : State) (g : Nat) (f : Group → Group) : (s.updGroup g f).errAt = s.errAt := rfl
@[simp] theorem updGroup_oldParts (s : State) (g : Nat) (f : Group → Group) : (s.updGroup g f).oldParts = s.oldParts := rfl
@[simp] theorem updGroup_accepted (s : State) (g : Nat) (f : Group → Group) : (s.updGroup g f).accepted = s.accepted := rfl
@[simp] theorem updGroup_migPage (s : State) (g : Nat) (f : Group → Group) : (s.updGroup g f).migPage = s.migPage := rfl
@[simp] theorem updGroup_devStores (s : State) (g : Nat) (f : Group → Group) : (s.updGroup g f).devStores = s.devStores := rfl
@[simp] theorem updGroup_devErrs (s : State) (g : Nat) (f : Group → Group) : (s.updGroup g f).devErrs = s.devErrs := rfl

/-! ## updTeam -/

@[simp] theorem updTeam_agenda (s : State) (k : Nat) (f : Team → Team) : (s.updTeam k f).agenda = s.agenda := rfl
@[simp] theorem updTeam_focus (s : State) (k : Nat) (f : Team → Team) : (s.updTeam k f).focus = s.focus := rfl
@[simp] theorem updTeam_pick (s : State) (k : Nat) (f : Team → Team) : (s.updTeam k f).pick = s.pick := rfl
@[simp] theorem updTeam_freeCtr (s : State) (k : Nat) (f : Team → Team) : (s.updTeam k f).freeCtr = s.freeCtr := rfl
@[simp] theorem updTeam_now (s : State) (k : Nat) (f : Team → Team) : (s.updTeam k f).now = s.now := rfl
@[simp] theorem updTeam_nextId (s : State) (k : Nat) (f : Team → Team) : (s.updTeam k f).nextId = s.nextId := rfl
@[simp] theorem updTeam_tripped (s : State) (k : Nat) (f : Team → Team) : (s.updTeam k f).tripped = s.tripped := rfl
@[simp] theorem updTeam_boot (s : State) (k : Nat) (f : Team → Team) : (s.updTeam k f).boot = s.boot := rfl
@[simp] theorem updTeam_flash (s : State) (k : Nat) (f : Team → Team) : (s.updTeam k f).flash = s.flash := rfl
@[simp] theorem updTeam_umc (s : State) (k : Nat) (f : Team → Team) : (s.updTeam k f).umc = s.umc := rfl
@[simp] theorem updTeam_spdm (s : State) (k : Nat) (f : Team → Team) : (s.updTeam k f).spdm = s.spdm := rfl
@[simp] theorem updTeam_enum (s : State) (k : Nat) (f : Team → Team) : (s.updTeam k f).enum = s.enum := rfl
@[simp] theorem updTeam_linkDown (s : State) (k : Nat) (f : Team → Team) : (s.updTeam k f).linkDown = s.linkDown := rfl
@[simp] theorem updTeam_sys (s : State) (k : Nat) (f : Team → Team) : (s.updTeam k f).sys = s.sys := rfl
@[simp] theorem updTeam_depctr (s : State) (k : Nat) (f : Team → Team) : (s.updTeam k f).depctr = s.depctr := rfl
@[simp] theorem updTeam_parts (s : State) (k : Nat) (f : Team → Team) : (s.updTeam k f).parts = s.parts := rfl
@[simp] theorem updTeam_extents (s : State) (k : Nat) (f : Team → Team) : (s.updTeam k f).extents = s.extents := rfl
@[simp] theorem updTeam_atsCache (s : State) (k : Nat) (f : Team → Team) : (s.updTeam k f).atsCache = s.atsCache := rfl
@[simp] theorem updTeam_atsOld (s : State) (k : Nat) (f : Team → Team) : (s.updTeam k f).atsOld = s.atsOld := rfl
@[simp] theorem updTeam_atsPending (s : State) (k : Nat) (f : Team → Team) : (s.updTeam k f).atsPending = s.atsPending := rfl
@[simp] theorem updTeam_dies (s : State) (k : Nat) (f : Team → Team) : (s.updTeam k f).dies = s.dies := rfl
@[simp] theorem updTeam_cores (s : State) (k : Nat) (f : Team → Team) : (s.updTeam k f).cores = s.cores := rfl
@[simp] theorem updTeam_tracks (s : State) (k : Nat) (f : Team → Team) : (s.updTeam k f).tracks = s.tracks := rfl
@[simp] theorem updTeam_groups (s : State) (k : Nat) (f : Team → Team) : (s.updTeam k f).groups = s.groups := rfl
@[simp] theorem updTeam_grids (s : State) (k : Nat) (f : Team → Team) : (s.updTeam k f).grids = s.grids := rfl
@[simp] theorem updTeam_rr (s : State) (k : Nat) (f : Team → Team) : (s.updTeam k f).rr = s.rr := rfl
@[simp] theorem updTeam_tickets (s : State) (k : Nat) (f : Team → Team) : (s.updTeam k f).tickets = s.tickets := rfl
@[simp] theorem updTeam_svcWait (s : State) (k : Nat) (f : Team → Team) : (s.updTeam k f).svcWait = s.svcWait := rfl
@[simp] theorem updTeam_lines (s : State) (k : Nat) (f : Team → Team) : (s.updTeam k f).lines = s.lines := rfl
@[simp] theorem updTeam_sreqs (s : State) (k : Nat) (f : Team → Team) : (s.updTeam k f).sreqs = s.sreqs := rfl
@[simp] theorem updTeam_ptab (s : State) (k : Nat) (f : Team → Team) : (s.updTeam k f).ptab = s.ptab := rfl
@[simp] theorem updTeam_filters (s : State) (k : Nat) (f : Team → Team) : (s.updTeam k f).filters = s.filters := rfl
@[simp] theorem updTeam_side (s : State) (k : Nat) (f : Team → Team) : (s.updTeam k f).side = s.side := rfl
@[simp] theorem updTeam_mem (s : State) (k : Nat) (f : Team → Team) : (s.updTeam k f).mem = s.mem := rfl
@[simp] theorem updTeam_hostMem (s : State) (k : Nat) (f : Team → Team) : (s.updTeam k f).hostMem = s.hostMem := rfl
@[simp] theorem updTeam_poolMem (s : State) (k : Nat) (f : Team → Team) : (s.updTeam k f).poolMem = s.poolMem := rfl
@[simp] theorem updTeam_hostPosted (s : State) (k : Nat) (f : Team → Team) : (s.updTeam k f).hostPosted = s.hostPosted := rfl
@[simp] theorem updTeam_nodePosted (s : State) (k : Nat) (f : Team → Team) : (s.updTeam k f).nodePosted = s.nodePosted := rfl
@[simp] theorem updTeam_net (s : State) (k : Nat) (f : Team → Team) : (s.updTeam k f).net = s.net := rfl
@[simp] theorem updTeam_egress (s : State) (k : Nat) (f : Team → Team) : (s.updTeam k f).egress = s.egress := rfl
@[simp] theorem updTeam_winWait (s : State) (k : Nat) (f : Team → Team) : (s.updTeam k f).winWait = s.winWait := rfl
@[simp] theorem updTeam_mcRecvs (s : State) (k : Nat) (f : Team → Team) : (s.updTeam k f).mcRecvs = s.mcRecvs := rfl
@[simp] theorem updTeam_reqs (s : State) (k : Nat) (f : Team → Team) : (s.updTeam k f).reqs = s.reqs := rfl
@[simp] theorem updTeam_sends (s : State) (k : Nat) (f : Team → Team) : (s.updTeam k f).sends = s.sends := rfl
@[simp] theorem updTeam_ports (s : State) (k : Nat) (f : Team → Team) : (s.updTeam k f).ports = s.ports := rfl
@[simp] theorem updTeam_fqPend (s : State) (k : Nat) (f : Team → Team) : (s.updTeam k f).fqPend = s.fqPend := rfl
@[simp] theorem updTeam_tlbis (s : State) (k : Nat) (f : Team → Team) : (s.updTeam k f).tlbis = s.tlbis := rfl
@[simp] theorem updTeam_errAt (s : State) (k : Nat) (f : Team → Team) : (s.updTeam k f).errAt = s.errAt := rfl
@[simp] theorem updTeam_oldParts (s : State) (k : Nat) (f : Team → Team) : (s.updTeam k f).oldParts = s.oldParts := rfl
@[simp] theorem updTeam_accepted (s : State) (k : Nat) (f : Team → Team) : (s.updTeam k f).accepted = s.accepted := rfl
@[simp] theorem updTeam_migPage (s : State) (k : Nat) (f : Team → Team) : (s.updTeam k f).migPage = s.migPage := rfl
@[simp] theorem updTeam_devStores (s : State) (k : Nat) (f : Team → Team) : (s.updTeam k f).devStores = s.devStores := rfl
@[simp] theorem updTeam_devErrs (s : State) (k : Nat) (f : Team → Team) : (s.updTeam k f).devErrs = s.devErrs := rfl

/-! ## updGrid -/

@[simp] theorem updGrid_agenda (s : State) (k : Nat) (f : Grid → Grid) : (s.updGrid k f).agenda = s.agenda := rfl
@[simp] theorem updGrid_focus (s : State) (k : Nat) (f : Grid → Grid) : (s.updGrid k f).focus = s.focus := rfl
@[simp] theorem updGrid_pick (s : State) (k : Nat) (f : Grid → Grid) : (s.updGrid k f).pick = s.pick := rfl
@[simp] theorem updGrid_freeCtr (s : State) (k : Nat) (f : Grid → Grid) : (s.updGrid k f).freeCtr = s.freeCtr := rfl
@[simp] theorem updGrid_now (s : State) (k : Nat) (f : Grid → Grid) : (s.updGrid k f).now = s.now := rfl
@[simp] theorem updGrid_nextId (s : State) (k : Nat) (f : Grid → Grid) : (s.updGrid k f).nextId = s.nextId := rfl
@[simp] theorem updGrid_tripped (s : State) (k : Nat) (f : Grid → Grid) : (s.updGrid k f).tripped = s.tripped := rfl
@[simp] theorem updGrid_boot (s : State) (k : Nat) (f : Grid → Grid) : (s.updGrid k f).boot = s.boot := rfl
@[simp] theorem updGrid_flash (s : State) (k : Nat) (f : Grid → Grid) : (s.updGrid k f).flash = s.flash := rfl
@[simp] theorem updGrid_umc (s : State) (k : Nat) (f : Grid → Grid) : (s.updGrid k f).umc = s.umc := rfl
@[simp] theorem updGrid_spdm (s : State) (k : Nat) (f : Grid → Grid) : (s.updGrid k f).spdm = s.spdm := rfl
@[simp] theorem updGrid_enum (s : State) (k : Nat) (f : Grid → Grid) : (s.updGrid k f).enum = s.enum := rfl
@[simp] theorem updGrid_linkDown (s : State) (k : Nat) (f : Grid → Grid) : (s.updGrid k f).linkDown = s.linkDown := rfl
@[simp] theorem updGrid_sys (s : State) (k : Nat) (f : Grid → Grid) : (s.updGrid k f).sys = s.sys := rfl
@[simp] theorem updGrid_depctr (s : State) (k : Nat) (f : Grid → Grid) : (s.updGrid k f).depctr = s.depctr := rfl
@[simp] theorem updGrid_parts (s : State) (k : Nat) (f : Grid → Grid) : (s.updGrid k f).parts = s.parts := rfl
@[simp] theorem updGrid_extents (s : State) (k : Nat) (f : Grid → Grid) : (s.updGrid k f).extents = s.extents := rfl
@[simp] theorem updGrid_atsCache (s : State) (k : Nat) (f : Grid → Grid) : (s.updGrid k f).atsCache = s.atsCache := rfl
@[simp] theorem updGrid_atsOld (s : State) (k : Nat) (f : Grid → Grid) : (s.updGrid k f).atsOld = s.atsOld := rfl
@[simp] theorem updGrid_atsPending (s : State) (k : Nat) (f : Grid → Grid) : (s.updGrid k f).atsPending = s.atsPending := rfl
@[simp] theorem updGrid_dies (s : State) (k : Nat) (f : Grid → Grid) : (s.updGrid k f).dies = s.dies := rfl
@[simp] theorem updGrid_cores (s : State) (k : Nat) (f : Grid → Grid) : (s.updGrid k f).cores = s.cores := rfl
@[simp] theorem updGrid_tracks (s : State) (k : Nat) (f : Grid → Grid) : (s.updGrid k f).tracks = s.tracks := rfl
@[simp] theorem updGrid_groups (s : State) (k : Nat) (f : Grid → Grid) : (s.updGrid k f).groups = s.groups := rfl
@[simp] theorem updGrid_teams (s : State) (k : Nat) (f : Grid → Grid) : (s.updGrid k f).teams = s.teams := rfl
@[simp] theorem updGrid_rr (s : State) (k : Nat) (f : Grid → Grid) : (s.updGrid k f).rr = s.rr := rfl
@[simp] theorem updGrid_tickets (s : State) (k : Nat) (f : Grid → Grid) : (s.updGrid k f).tickets = s.tickets := rfl
@[simp] theorem updGrid_svcWait (s : State) (k : Nat) (f : Grid → Grid) : (s.updGrid k f).svcWait = s.svcWait := rfl
@[simp] theorem updGrid_lines (s : State) (k : Nat) (f : Grid → Grid) : (s.updGrid k f).lines = s.lines := rfl
@[simp] theorem updGrid_sreqs (s : State) (k : Nat) (f : Grid → Grid) : (s.updGrid k f).sreqs = s.sreqs := rfl
@[simp] theorem updGrid_ptab (s : State) (k : Nat) (f : Grid → Grid) : (s.updGrid k f).ptab = s.ptab := rfl
@[simp] theorem updGrid_filters (s : State) (k : Nat) (f : Grid → Grid) : (s.updGrid k f).filters = s.filters := rfl
@[simp] theorem updGrid_side (s : State) (k : Nat) (f : Grid → Grid) : (s.updGrid k f).side = s.side := rfl
@[simp] theorem updGrid_mem (s : State) (k : Nat) (f : Grid → Grid) : (s.updGrid k f).mem = s.mem := rfl
@[simp] theorem updGrid_hostMem (s : State) (k : Nat) (f : Grid → Grid) : (s.updGrid k f).hostMem = s.hostMem := rfl
@[simp] theorem updGrid_poolMem (s : State) (k : Nat) (f : Grid → Grid) : (s.updGrid k f).poolMem = s.poolMem := rfl
@[simp] theorem updGrid_hostPosted (s : State) (k : Nat) (f : Grid → Grid) : (s.updGrid k f).hostPosted = s.hostPosted := rfl
@[simp] theorem updGrid_nodePosted (s : State) (k : Nat) (f : Grid → Grid) : (s.updGrid k f).nodePosted = s.nodePosted := rfl
@[simp] theorem updGrid_net (s : State) (k : Nat) (f : Grid → Grid) : (s.updGrid k f).net = s.net := rfl
@[simp] theorem updGrid_egress (s : State) (k : Nat) (f : Grid → Grid) : (s.updGrid k f).egress = s.egress := rfl
@[simp] theorem updGrid_winWait (s : State) (k : Nat) (f : Grid → Grid) : (s.updGrid k f).winWait = s.winWait := rfl
@[simp] theorem updGrid_mcRecvs (s : State) (k : Nat) (f : Grid → Grid) : (s.updGrid k f).mcRecvs = s.mcRecvs := rfl
@[simp] theorem updGrid_reqs (s : State) (k : Nat) (f : Grid → Grid) : (s.updGrid k f).reqs = s.reqs := rfl
@[simp] theorem updGrid_sends (s : State) (k : Nat) (f : Grid → Grid) : (s.updGrid k f).sends = s.sends := rfl
@[simp] theorem updGrid_ports (s : State) (k : Nat) (f : Grid → Grid) : (s.updGrid k f).ports = s.ports := rfl
@[simp] theorem updGrid_fqPend (s : State) (k : Nat) (f : Grid → Grid) : (s.updGrid k f).fqPend = s.fqPend := rfl
@[simp] theorem updGrid_tlbis (s : State) (k : Nat) (f : Grid → Grid) : (s.updGrid k f).tlbis = s.tlbis := rfl
@[simp] theorem updGrid_errAt (s : State) (k : Nat) (f : Grid → Grid) : (s.updGrid k f).errAt = s.errAt := rfl
@[simp] theorem updGrid_oldParts (s : State) (k : Nat) (f : Grid → Grid) : (s.updGrid k f).oldParts = s.oldParts := rfl
@[simp] theorem updGrid_accepted (s : State) (k : Nat) (f : Grid → Grid) : (s.updGrid k f).accepted = s.accepted := rfl
@[simp] theorem updGrid_migPage (s : State) (k : Nat) (f : Grid → Grid) : (s.updGrid k f).migPage = s.migPage := rfl
@[simp] theorem updGrid_devStores (s : State) (k : Nat) (f : Grid → Grid) : (s.updGrid k f).devStores = s.devStores := rfl
@[simp] theorem updGrid_devErrs (s : State) (k : Nat) (f : Grid → Grid) : (s.updGrid k f).devErrs = s.devErrs := rfl

end Sys2Proof.Machine
end

