-- ==== Sys2Proof/Laws/Registers.lean ====
section
/-! SUPPORT. The laws of the register file: reading with correction keeps values, a store writes what it
is given, the lanes of an instruction do not disturb each other; and with them what every instruction
that goes through `runAlu` does. -/

namespace Sys2Proof.Machine

/-! ## Reads and writes of one word -/

@[simp] theorem get_set_self (r : RegFile) (b : Bank) (k : Nat) (w : RegWord) : (r.set b k w).get b k = w := by
  cases b <;> simp [RegFile.set, RegFile.get]
theorem get_set_ne (r : RegFile) {b b' : Bank} {k k' : Nat} (h : (b', k') ≠ (b, k)) (w : RegWord) :
    (r.set b k w).get b' k' = r.get b' k' := by
  cases b <;> cases b' <;> simp_all [RegFile.set, RegFile.get, look_put_ne]
@[simp] theorem get_ce (r : RegFile) (n : Nat) (b : Bank) (k : Nat) :
    RegFile.get { r with ce := n } b k = r.get b k := by cases b <;> rfl
@[simp] theorem get_ue (r : RegFile) (n : Nat) (b : Bank) (k : Nat) :
    RegFile.get { r with ue := n } b k = r.get b k := by cases b <;> rfl
/-- Two register files hold the same values. -/
def SameVals (r q : RegFile) : Prop := ∀ b k, (r.get b k).val = (q.get b k).val
theorem SameVals.trans {r q p : RegFile} (h : SameVals r q) (h' : SameVals q p) : SameVals r p :=
  fun b k => (h b k).trans (h' b k)
/-- A read corrects or marks, and keeps every value. -/
theorem touch_vals (r : RegFile) (b : Bank) (k : Nat) : SameVals (r.touch b k).1 r := by
  intro b' k'
  unfold RegFile.touch
  by_cases h : (b', k') = (b, k)
  · obtain ⟨rfl, rfl⟩ := Prod.mk.inj h
    cases h' : (r.get b' k').ecc <;> simp [h']
  · cases h' : (r.get b k).ecc <;> simp [h', get_set_ne _ h]
/-- A readable word stays readable when another is read. -/
theorem touch_readable {r : RegFile} {b : Bank} {k : Nat} {ws : List (Bank × Nat)} (h : Readable r ws) :
    Readable (r.touch b k).1 ws := by
  intro p hp
  have hp' := h p hp
  unfold RegFile.touch
  by_cases hk : (p.1, p.2) = (b, k)
  · obtain ⟨rfl, rfl⟩ := Prod.mk.inj hk
    rcases hp' with hp' | hp' <;> simp [hp']
  · cases h' : (r.get b k).ecc <;> simp [h', get_set_ne _ hk, hp']
theorem touch_ok {r : RegFile} {b : Bank} {k : Nat}
    (h : (r.get b k).ecc = .clean ∨ (r.get b k).ecc = .single) : (r.touch b k).2 = false := by
  unfold RegFile.touch
  rcases h with h | h <;> simp [h]
theorem touchAll_vals (r : RegFile) (ws : List (Bank × Nat)) : SameVals (r.touchAll ws).1 r := by
  induction ws generalizing r with
  | nil => exact fun _ _ => rfl
  | cons p ws ih => exact (ih _).trans (touch_vals _ _ _)
theorem touchAll_readable {r : RegFile} (ws ws' : List (Bank × Nat)) (h : Readable r ws') :
    Readable (r.touchAll ws).1 ws' := by
  induction ws generalizing r with
  | nil => exact h
  | cons p ws ih => exact ih (touch_readable h)
theorem touchAll_ok {r : RegFile} (ws : List (Bank × Nat)) (h : Readable r ws) :
    (r.touchAll ws).2 = false := by
  induction ws generalizing r with
  | nil => rfl
  | cons p ws ih =>
    have h1 := touch_ok (h p List.mem_cons_self)
    have h2 := ih (touch_readable (b := p.1) (k := p.2) fun q hq => h q (List.mem_cons_of_mem _ hq))
    simp [RegFile.touchAll, h1, h2]

/-! ## Values and stores -/

theorem value_congr {r q : RegFile} {ws : List (Bank × Nat)}
    (h : ∀ p ∈ ws, (r.get p.1 p.2).val = (q.get p.1 p.2).val) : r.value ws = q.value ws := by
  induction ws with
  | nil => rfl
  | cons p ws ih =>
    simp only [RegFile.value]
    rw [h p List.mem_cons_self, ih fun q hq => h q (List.mem_cons_of_mem _ hq)]
theorem store_get_ne (r : RegFile) (ws : List (Bank × Nat)) (x : Nat) {p : Bank × Nat} (h : p ∉ ws) :
    (r.store ws x).get p.1 p.2 = r.get p.1 p.2 := by
  induction ws generalizing r x with
  | nil => rfl
  | cons q ws ih =>
    simp only [List.mem_cons, not_or] at h
    rw [RegFile.store, ih _ _ h.2, get_set_ne _ h.1]
theorem store_get_congr (r q : RegFile) (ws : List (Bank × Nat)) (x : Nat) {p : Bank × Nat} (h : p ∈ ws)
    (hn : ws.Nodup) : (r.store ws x).get p.1 p.2 = (q.store ws x).get p.1 p.2 := by
  induction ws generalizing r q x with
  | nil => cases h
  | cons a ws ih =>
    rw [List.nodup_cons] at hn
    by_cases hp : p ∈ ws
    · exact ih _ _ _ hp hn.2
    · rcases List.mem_cons.1 h with rfl | h
      · simp [RegFile.store, store_get_ne _ _ _ hp]
      · exact absurd h hp
theorem value_store (r : RegFile) (ws : List (Bank × Nat)) (x : Nat) (hn : ws.Nodup) :
    (r.store ws x).value ws = x % 2 ^ (32 * ws.length) := by
  induction ws generalizing r x with
  | nil => simp [RegFile.value, Nat.mod_one]
  | cons a ws ih =>
    rw [List.nodup_cons] at hn
    have h1 : ((r.store (a :: ws) x).get a.1 a.2) = RegWord.of (BitVec.ofNat 32 x) := by
      simp [RegFile.store, store_get_ne _ _ _ hn.1]
    have h2 : (r.store (a :: ws) x).value ws = x / 2 ^ 32 % 2 ^ (32 * ws.length) := by
      rw [RegFile.store, ih _ _ hn.2]
    obtain ⟨b, k⟩ := a
    rw [RegFile.value, h1, h2]
    simp only [RegWord.of, BitVec.toNat_ofNat, List.length_cons]
    rw [show 32 * (ws.length + 1) = 32 + 32 * ws.length by omega, Nat.pow_add, Nat.mod_mul]
@[simp] theorem dstWords_length (d : Dst) (l : Nat) : (dstWords d l).length = Width.count d.width := by
  simp [dstWords]
theorem dstWords_nodup (d : Dst) (l : Nat) : (dstWords d l).Nodup := by
  unfold dstWords
  refine List.Nodup.map ?_ List.nodup_range
  intro a b h
  cases hs : d.isS <;> simp [hs, vkey] at h <;> omega
theorem mem_dstWords_v {d : Dst} (h : d.isS = false) {l : Nat} {p : Bank × Nat} (hp : p ∈ dstWords d l) :
    p.1 = .v ∧ ∃ n, p.2 = vkey n l := by
  simp only [dstWords, h, List.mem_map] at hp
  obtain ⟨j, -, rfl⟩ := hp
  exact ⟨rfl, _, rfl⟩
theorem not_latch_dstWords (d : Dst) (l : Nat) (k : Nat) : (Bank.l, k) ∉ dstWords d l := by
  intro h
  simp only [dstWords, List.mem_map] at h
  obtain ⟨j, -, h⟩ := h
  cases hs : d.isS <;> simp [hs] at h

/-! ## Write-back -/

/-- The words that write-back changes. -/
def backWords (m : Mods) (d : Dst) (l : Nat) : List (Bank × Nat) :=
  (if m.nwb then [] else dstWords d l) ++ (if m.lc then [(.l, vkey m.ln.toNat l)] else [])
theorem writeBack_get_ne (r : RegFile) (m : Mods) (d : Dst) (l x : Nat) {p : Bank × Nat}
    (h : p ∉ backWords m d l) : (r.writeBack m d l x).get p.1 p.2 = r.get p.1 p.2 := by
  simp only [backWords, List.mem_append, not_or] at h
  unfold RegFile.writeBack
  have h1 : (if m.nwb then r else r.store (dstWords d l) x).get p.1 p.2 = r.get p.1 p.2 := by
    cases hn : m.nwb
    · rw [hn] at h; exact store_get_ne _ _ _ (by simpa using h.1)
    · rfl
  cases hl : m.lc
  · simpa using h1
  · rw [hl] at h
    simp only [if_true] at h ⊢
    rw [get_set_ne _ (by simpa using h.2), h1]
theorem writeBack_get_congr (r q : RegFile) (m : Mods) (d : Dst) (l x : Nat) {p : Bank × Nat}
    (h : p ∈ backWords m d l) :
    (r.writeBack m d l x).get p.1 p.2 = (q.writeBack m d l x).get p.1 p.2 := by
  unfold RegFile.writeBack
  by_cases hp : m.lc = true ∧ p = (.l, vkey m.ln.toNat l)
  · obtain ⟨hl, rfl⟩ := hp
    simp [hl]
  · have hd : m.nwb = false ∧ p ∈ dstWords d l := by
      simp only [backWords, List.mem_append] at h
      rcases h with h | h
      · cases hn : m.nwb <;> simp_all
      · cases hl : m.lc <;> simp_all
    have hb : p ≠ (.l, vkey m.ln.toNat l) := by
      rintro rfl; exact not_latch_dstWords _ _ _ hd.2
    have key : ∀ u : RegFile, (if m.lc then
        (if m.nwb then u else u.store (dstWords d l) x).set .l (vkey m.ln.toNat l)
          (RegWord.of (BitVec.ofNat 32 x))
        else if m.nwb then u else u.store (dstWords d l) x).get p.1 p.2 =
        (u.store (dstWords d l) x).get p.1 p.2 := by
      intro u
      cases hl : m.lc <;> simp [hd.1, get_set_ne _ (show (p.1, p.2) ≠ _ from hb)]
    exact (key r).trans ((store_get_congr _ _ _ _ hd.2 (dstWords_nodup _ _)).trans (key q).symm)
theorem writeBack_value (r : RegFile) (m : Mods) (d : Dst) (l x : Nat) (h : m.nwb = false) :
    (r.writeBack m d l x).value (dstWords d l) = x % 2 ^ (32 * Width.count d.width) := by
  rw [← dstWords_length d l, ← value_store r _ _ (dstWords_nodup d l)]
  refine value_congr fun p hp => ?_
  unfold RegFile.writeBack
  have hb : p ≠ (.l, vkey m.ln.toNat l) := by
    rintro rfl; exact not_latch_dstWords _ _ _ hp
  cases hl : m.lc <;> simp [h, get_set_ne _ (show (p.1, p.2) ≠ _ from hb)]
theorem writeBack_latch (r : RegFile) (m : Mods) (d : Dst) (l x : Nat) (h : m.lc = true) :
    ((r.writeBack m d l x).get .l (vkey m.ln.toNat l)).val = BitVec.ofNat 32 x := by
  simp [RegFile.writeBack, h, RegWord.of]

/-! ## Lanes -/

/-- The words that lane i of a per-lane instruction changes are its own, and what it writes there
depends on the values of the words it reads alone. -/
structure LaneLocal (ls : List Nat) (reads writes : Nat → List (Bank × Nat))
    (f : RegFile → Nat → RegFile) : Prop where
  keep : ∀ r i p, p ∉ writes i → (f r i).get p.1 p.2 = r.get p.1 p.2
  local_ : ∀ r q i, (∀ p ∈ reads i, (r.get p.1 p.2).val = (q.get p.1 p.2).val) →
    ∀ p ∈ writes i, ((f r i).get p.1 p.2).val = ((f q i).get p.1 p.2).val
  apart : ∀ i ∈ ls, ∀ j ∈ ls, i ≠ j → ∀ p ∈ writes i, p ∉ reads j ∧ p ∉ writes j
/-- What the lanes of an instruction do, where all their words are readable: every lane writes what it
would write alone, and no other value changes. -/
theorem laneLoop_spec {ls : List Nat} {reads writes : Nat → List (Bank × Nat)}
    {f : RegFile → Nat → RegFile} (H : LaneLocal ls reads writes f) (hn : ls.Nodup) (r : RegFile)
    (hr : ∀ i ∈ ls, Readable r (reads i)) :
    (laneLoop reads f ls r).2 = none ∧
    (∀ i ∈ ls, ∀ p ∈ writes i,
      ((laneLoop reads f ls r).1.get p.1 p.2).val = ((f r i).get p.1 p.2).val) ∧
    (∀ p : Bank × Nat, (∀ i ∈ ls, p ∉ writes i) →
      ((laneLoop reads f ls r).1.get p.1 p.2).val = (r.get p.1 p.2).val) := by
  induction ls generalizing r with
  | nil => exact ⟨rfl, by simp, fun _ _ => rfl⟩
  | cons i ls ih =>
    rw [List.nodup_cons] at hn
    have hok := touchAll_ok (reads i) (hr i List.mem_cons_self)
    obtain ⟨r1, hr1⟩ : ∃ r1, r.touchAll (reads i) = (r1, false) := ⟨_, Prod.ext rfl hok⟩
    have hs : SameVals r1 r := by have := touchAll_vals r (reads i); rwa [hr1] at this
    have e : laneLoop reads f (i :: ls) r = laneLoop reads f ls (f r1 i) := by
      simp [laneLoop, laneStep, hr1]
    have H' : LaneLocal ls reads writes f := ⟨H.keep, H.local_, fun a ha b hb =>
      H.apart a (List.mem_cons_of_mem _ ha) b (List.mem_cons_of_mem _ hb)⟩
    have out : ∀ j ∈ ls, ∀ p ∈ reads j ++ writes j, p ∉ writes i := by
      intro j hj p hp hw
      have := H.apart i List.mem_cons_self j (List.mem_cons_of_mem _ hj)
        (by rintro rfl; exact hn.1 hj) p hw
      rcases List.mem_append.1 hp with hp | hp
      · exact this.1 hp
      · exact this.2 hp
    have hr' : ∀ j ∈ ls, Readable (f r1 i) (reads j) := by
      intro j hj p hp
      rw [H.keep _ _ _ (out j hj p (List.mem_append_left _ hp))]
      have := touchAll_readable (reads i) (reads j) (hr j (List.mem_cons_of_mem _ hj))
      rw [hr1] at this
      exact this p hp
    obtain ⟨h1, h2, h3⟩ := ih H' hn.2 (f r1 i) hr'
    rw [e]
    refine ⟨h1, ?_, ?_⟩
    · intro j hj p hp
      rcases List.mem_cons.1 hj with rfl | hj
      · rw [h3 p fun a ha hpa => out a ha p (List.mem_append_right _ hpa) hp]
        exact H.local_ _ _ _ (fun q _ => hs _ _) p hp
      · rw [h2 j hj p hp]
        refine H.local_ _ _ _ (fun q hq => ?_) p hp
        rw [H.keep _ _ _ (out j hj q (List.mem_append_left _ hq))]
        exact hs _ _
    · intro p hp
      rw [h3 p fun a ha => hp a (List.mem_cons_of_mem _ ha),
        H.keep _ _ _ (hp i List.mem_cons_self)]
      exact hs _ _

end Sys2Proof.Machine
end

