-- ==== Sys2Proof/Laws/Alu.lean ====
section
/-! SUPPORT. What an instruction finds, what completing it leaves unchanged, and what every instruction
that goes through `runAlu` does. -/

namespace Sys2Proof.Machine

/-- What an instruction finds is what the state holds. -/
theorem ctx_spec {s : State} {c : Ctx} (h : s.ctx = some c) :
    s.focus = some c.t ∧ s.track c.t = c.trk ∧ c.trk.run = some c.run ∧ c.run.group = c.g ∧
    s.group c.g = some c.grp ∧ find c.run.entry c.grp.split = some c.frag ∧
    s.team c.grp.team = some c.team ∧ s.grid c.grp.grid = some c.grid := by
  unfold State.ctx at h
  split at h
  · cases h
  · rename_i t ht
    split at h
    · cases h
    · rename_i r hr
      split at h
      · cases h
      · rename_i grp hg
        split at h
        · rename_i f tm gd h1 h2 h3
          cases h
          exact ⟨ht, rfl, hr, rfl, hg, h1, h2, h3⟩
        · cases h
/-- A lane mask lists each of its lanes once. -/
theorem lanesOf_nodup (m : Mask) : (lanesOf m).Nodup := List.Nodup.filter _ List.nodup_range
theorem lt_of_mem_lanesOf {m : Mask} {i : Nat} (h : i ∈ lanesOf m) : i < 32 := by
  simp only [lanesOf, List.mem_filter, List.mem_range] at h
  exact h.1
/-- A lane's v registers are no other lane's. -/
theorem vkey_inj {n m i j : Nat} (hi : i < 32) (hj : j < 32) (h : vkey n i = vkey m j) : i = j := by
  simp only [vkey] at h; omega

/-- Counting errors changes the error counters of one core. -/
theorem countErrors_core (s : State) (c : Ctx) (r : RegFile) (k : Nat) :
    (s.countErrors c r).core k =
      { s.core k with
        rfce := ((s.countErrors c r).core k).rfce
        rfue := ((s.countErrors c r).core k).rfue } := by
  unfold State.countErrors
  split
  · rfl
  · rw [updCore_eq]
    by_cases hk : k = c.core
    · subst hk; rw [setCore_core]; rfl
    · rw [setCore_core_ne _ hk]
theorem countErrors_eq (s : State) (c : Ctx) (r : RegFile) :
    s.countErrors c r = { s with cores := (s.countErrors c r).cores } := by
  unfold State.countErrors; split <;> rfl
theorem countErrors_group (s : State) (c : Ctx) (r : RegFile) (g : Nat) :
    (s.countErrors c r).group g = s.group g := by rw [countErrors_eq]; rfl
theorem countErrors_track (s : State) (c : Ctx) (r : RegFile) (t : Nat) :
    (s.countErrors c r).track t = s.track t := by rw [countErrors_eq]; rfl

/-- The end of a clause changes the fragment's entry alone: its pc, and not its mask or key. -/
theorem endClause_spec (c : Ctx) (g : Group) (sp : Bool) (pc : VAddr) {f0 : Frag}
    (h : find c.run.entry g.split = some f0) :
    endClause c g sp pc = { g with split := (endClause c g sp pc).split } ∧
    (∀ e, e ≠ c.run.entry → find e (endClause c g sp pc).split = find e g.split) ∧
    ∃ f, find c.run.entry (endClause c g sp pc).split = some f ∧ f.mask = f0.mask ∧ f.rcv = f0.rcv ∧
      f.depth = f0.depth ∧ f.state = f0.state ∧ f.pc = pc ∧ f.word = 0 := by
  simp only [endClause, h]
  refine ⟨rfl, fun e he => find_ins_ne he _ _, _, find_ins_self _ _ _, rfl, rfl, rfl, rfl, rfl, rfl⟩
theorem settle_eq (c : Ctx) (g : Group) : c.settle g = { g with cursor := (c.settle g).cursor } := by
  unfold Ctx.settle; split <;> rfl
theorem settle_split (c : Ctx) (g : Group) : (c.settle g).split = g.split := by
  rw [settle_eq]

/-- Completing an instruction: the registers and masks are those given; the rest is kept. -/
theorem regDone_ok {s : State} {c : Ctx} (h : s.ctx = some c) (r : RegFile) (g : Group)
    (hg : g = { c.grp with k := g.k }) (cur : Nat) (sp : Bool) (n : Nat) :
    OnlyRegisters s (s.regDone { c with grp := g } r none cur sp n) c ∧
    (∃ x, (s.regDone { c with grp := g } r none cur sp n).group c.g = some x ∧ x.k = g.k ∧ x.v = r.v ∧
      x.s = r.s) ∧
    ((s.regDone { c with grp := g } r none cur sp n).goesOn c →
      ((s.regDone { c with grp := g } r none cur sp n).track c.t).latches = r.l) := by
  obtain ⟨-, ht, hrun, -, hgrp, hf, -, -⟩ := ctx_spec h
  have hsplit : g.split = c.grp.split := by rw [hg]
  unfold State.regDone State.advance
  simp only
  split
  · rename_i hlast
    refine ⟨⟨?_, ?_, ?_, ?_, ?_⟩, ?_, ?_⟩
    · unfold State.countErrors; split <;> rfl
    · exact countErrors_core s { c with grp := g } r
    · intro k hk
      show (State.setGroup _ c.g _).group k = _
      rw [setGroup_group_ne _ hk, countErrors_group]
    · intro k hk
      show (State.setTrack _ c.t _).track k = _
      rw [setTrack_track_ne _ hk]
      exact countErrors_track _ _ _ _
    · obtain ⟨h1, h2, f, h3, h4, h5, h6, h7, -⟩ := endClause_spec { c with grp := g }
        (Ctx.settle { c with grp := g } (g.withRegs r)) sp (Ctx.nextHdr { c with grp := g })
        (f0 := c.frag) (by rw [settle_split]; simpa [Group.withRegs, hsplit] using hf)
      refine ⟨_, f, setGroup_group _ _ _, ?_, ?_, h3, h4, h5, h6, h7⟩
      · rw [h1, settle_eq, hg]; rfl
      · intro e he
        rw [h2 e he, settle_split]; simp [Group.withRegs, hsplit]
    · refine ⟨_, setGroup_group _ _ _, ?_⟩
      rw [(endClause_spec { c with grp := g } (Ctx.settle { c with grp := g } (g.withRegs r)) sp
        (Ctx.nextHdr { c with grp := g }) (f0 := c.frag)
        (by rw [settle_split]; simpa [Group.withRegs, hsplit] using hf)).1, settle_eq]
      exact ⟨rfl, rfl, rfl⟩
    · intro hgo
      simp [State.goesOn] at hgo
  · refine ⟨⟨?_, ?_, ?_, ?_, ?_⟩, ?_, ?_⟩
    · unfold State.countErrors; split <;> rfl
    · exact countErrors_core s { c with grp := g } r
    · intro k hk
      show (State.setGroup _ c.g _).group k = _
      rw [setGroup_group_ne _ hk, countErrors_group]
    · intro k hk
      show (State.setTrack _ c.t _).track k = _
      rw [setTrack_track_ne _ hk]
      exact countErrors_track _ _ _ _
    · refine ⟨_, c.frag, setGroup_group _ _ _, ?_, ?_, ?_, rfl, rfl, rfl, rfl⟩
      · rw [settle_eq, hg]; rfl
      · intro e _
        rw [settle_split]; simp [Group.withRegs, hsplit]
      · rw [settle_split]; simpa [Group.withRegs, hsplit] using hf
    · refine ⟨_, setGroup_group _ _ _, ?_⟩
      rw [settle_eq]; exact ⟨rfl, rfl, rfl⟩
    · intro _
      show (State.track (State.setTrack _ c.t _) c.t).latches = _
      rw [setTrack_track]; rfl

/-! ## `runAlu` -/

/-- The words of an operand are s registers, or the lane's own. -/
def OwnWords (reads : Nat → List (Bank × Nat)) : Prop :=
  ∀ l, ∀ w ∈ reads l, w.1 = .s ∨ ∃ n, w.2 = vkey n l
theorem ownWords_src (x : Src) : OwnWords (srcWords x) := by
  intro l w hw
  unfold srcWords at hw
  cases hk : x.kind <;> simp only [hk] at hw
  · obtain ⟨j, -, rfl⟩ := List.mem_map.1 hw; exact .inr ⟨_, rfl⟩
  · obtain ⟨j, -, rfl⟩ := List.mem_map.1 hw; exact .inl rfl
  · rw [List.mem_singleton] at hw; subst hw; exact .inr ⟨_, rfl⟩
  · cases hw
theorem ownWords_append {a b : Nat → List (Bank × Nat)} (ha : OwnWords a) (hb : OwnWords b) :
    OwnWords fun l => a l ++ b l := by
  intro l w hw
  rcases List.mem_append.1 hw with hw | hw
  · exact ha l w hw
  · exact hb l w hw
/-- An operand depends on the values of its words alone. -/
theorem operand_congr {r q : RegFile} {x : Src} {l : Nat} (w : Nat)
    (h : ∀ p ∈ srcWords x l, (r.get p.1 p.2).val = (q.get p.1 p.2).val) :
    r.operand x l w = q.operand x l w := by
  unfold RegFile.operand
  cases x.kind <;> first | exact value_congr h | rfl
/-- The write-back of a per-lane instruction, with the zeros of MZ, is local to its lanes. -/
theorem laneLocal_back {ls : List Nat} (hls : ∀ i ∈ ls, i < 32) (m : Mods) {d : Dst} (hd : d.isS = false)
    {reads : Nat → List (Bank × Nat)} (ho : OwnWords reads) (z : Nat → Bool)
    (x : RegFile → Nat → Nat)
    (hx : ∀ r q i, (∀ p ∈ reads i, (r.get p.1 p.2).val = (q.get p.1 p.2).val) → x r i = x q i) :
    LaneLocal ls (fun i => if z i then [] else reads i) (backWords m d)
      fun r i => if z i then r.writeBack m d i 0 else r.writeBack m d i (x r i) where
  keep r i p hp := by split <;> exact writeBack_get_ne _ _ _ _ _ hp
  local_ r q i h p hp := by
    split
    · exact congrArg _ (writeBack_get_congr _ _ _ _ _ _ hp)
    · rename_i hz
      simp only [hz] at h
      rw [hx r q i h]
      exact congrArg _ (writeBack_get_congr _ _ _ _ _ _ hp)
  apart i hi j hj hij p hp := by
    have key : ∃ n, p.2 = vkey n i ∧ p.1 ≠ .s := by
      simp only [backWords, List.mem_append] at hp
      rcases hp with hp | hp
      · cases hn : m.nwb <;> simp only [hn] at hp
        · obtain ⟨h1, n, h2⟩ := mem_dstWords_v hd hp
          exact ⟨n, h2, by rw [h1]; decide⟩
        · cases hp
      · cases hl : m.lc <;> simp only [hl] at hp
        · cases hp
        · rw [if_pos trivial, List.mem_singleton] at hp
          subst hp; exact ⟨_, rfl, by simp⟩
    obtain ⟨n, hn, hs⟩ := key
    constructor
    · intro hr
      split at hr
      · cases hr
      · rcases ho j p hr with h | ⟨k, hk⟩
        · exact hs h
        · exact hij (vkey_inj (hls i hi) (hls j hj) (hn.symm.trans hk))
    · intro hw
      simp only [backWords, List.mem_append] at hw
      rcases hw with hw | hw
      · cases hb : m.nwb <;> simp only [hb] at hw
        · obtain ⟨-, k, hk⟩ := mem_dstWords_v hd hw
          exact hij (vkey_inj (hls i hi) (hls j hj) (hn.symm.trans hk))
        · cases hw
      · cases hl : m.lc <;> simp only [hl] at hw
        · cases hw
        · rw [if_pos trivial, List.mem_singleton] at hw
          subst hw
          exact hij (vkey_inj (hls i hi) (hls j hj) hn.symm)
theorem regsOf_eq {t : State} {g k : Nat} {x : Group} (h : t.group g = some x) :
    t.regsOf g k = RegFile.of x (t.track k) := by simp [State.regsOf, h]
/-- What a state's registers are once an instruction has left `r`. -/
theorem regsOf_done {t : State} {c : Ctx} {r : RegFile} {x : Group} (h : t.group c.g = some x)
    (hv : x.v = r.v) (hs : x.s = r.s) {b : Bank} (hb : b ≠ .l) (k : Nat) :
    (t.regsOf c.g c.t).get b k = r.get b k := by
  rw [regsOf_eq h]
  cases b
  · simp [RegFile.get, RegFile.of, hv]
  · simp [RegFile.get, RegFile.of, hs]
  · exact absurd rfl hb
theorem not_latch_of_mem {d : Dst} {l : Nat} {p : Bank × Nat} (h : p ∈ dstWords d l) : p.1 ≠ .l := by
  rintro hp
  exact not_latch_dstWords d l p.2 (by rw [← hp]; exact h)
theorem zeroLanes_mem {c : Ctx} {l : Nat} (h : l ∈ c.zeroLanes) :
    ∃ p, c.run.pfx = some p ∧ p.mz = true ∧ (c.k0 &&& ~~~(c.k p.gm.toNat)).getLsbD l = true ∧ l < 32 ∧
      c.run.cursor.getD 0 ≤ l := by
  unfold Ctx.zeroLanes at h
  split at h
  · rename_i p hp
    split at h
    · rename_i hz
      simp only [lanesOf, List.mem_filter, List.mem_range, decide_eq_true_eq] at h
      exact ⟨p, hp, hz, h.1.2, h.1.1, h.2⟩
    · cases h
  · cases h

/-- The lanes in which MZ writes zeros, as a mask. -/
def Ctx.zeroMask (c : Ctx) : Mask :=
  match c.run.pfx with
  | some p => if p.mz then c.k0 &&& ~~~(c.k p.gm.toNat) else 0
  | none => 0
/-- The lanes that an instruction visits: those that execute, and those in which MZ writes zeros. -/
def Ctx.visited (c : Ctx) : List Nat :=
  (lanesOf (c.act ||| c.zeroMask)).filter fun i => decide (c.run.cursor.getD 0 ≤ i)
theorem mem_filter_lanes {m : Mask} {n l : Nat} :
    l ∈ (lanesOf m).filter (fun i => decide (n ≤ i)) ↔ l < 32 ∧ m.getLsbD l = true ∧ n ≤ l := by
  simp only [lanesOf, List.mem_filter, List.mem_range, decide_eq_true_eq]
  exact ⟨fun h => ⟨h.1.1, h.1.2, h.2⟩, fun h => ⟨⟨h.1, h.2.1⟩, h.2.2⟩⟩
theorem mem_zeroLanes {c : Ctx} {l : Nat} : l ∈ c.zeroLanes ↔ l ∈ c.visited ∧ c.zeroMask.getLsbD l = true := by
  have key : l ∈ c.zeroLanes ↔ l < 32 ∧ c.zeroMask.getLsbD l = true ∧ c.run.cursor.getD 0 ≤ l := by
    unfold Ctx.zeroLanes Ctx.zeroMask
    cases c.run.pfx with
    | none => simp
    | some p =>
      dsimp only
      split
      · exact mem_filter_lanes
      · simp
  rw [key, Ctx.visited, mem_filter_lanes, BitVec.getLsbD_or]
  constructor
  · rintro ⟨a, b, e⟩
    exact ⟨⟨a, by rw [b]; simp, e⟩, b⟩
  · rintro ⟨⟨a, -, e⟩, b⟩
    exact ⟨a, b, e⟩
theorem mem_lanes {c : Ctx} {l : Nat} : l ∈ c.lanes ↔ l ∈ c.visited ∧ c.zeroMask.getLsbD l = false := by
  have hdis : c.act.getLsbD l = true → c.zeroMask.getLsbD l = false := by
    unfold Ctx.act Ctx.zeroMask
    cases c.run.pfx with
    | none => simp
    | some p =>
      dsimp only
      split
      · simp only [BitVec.getLsbD_and, BitVec.getLsbD_not, Bool.and_eq_true]
        rintro ⟨-, h2⟩
        simp [h2]
      · simp
  rw [Ctx.lanes, Ctx.visited, mem_filter_lanes, mem_filter_lanes, BitVec.getLsbD_or, Bool.or_eq_true]
  constructor
  · rintro ⟨a, b, e⟩
    exact ⟨⟨a, .inl b, e⟩, hdis b⟩
  · rintro ⟨⟨a, b, e⟩, f⟩
    rcases b with b | b
    · exact ⟨a, b, e⟩
    · rw [f] at b; cases b
/-- A per-lane instruction is its loop over the lanes that it visits. -/
theorem runLanes_eq (s : State) (c : Ctx) (m : Mods) (d : Dst) (reads : Nat → List (Bank × Nat))
    (f : RegFile → Nat → RegFile) :
    runLanes s c m (some d) reads f =
      match laneLoop (fun i => if c.zeroMask.getLsbD i then [] else reads i)
        (fun r i => if c.zeroMask.getLsbD i then r.writeBack m d i 0 else f r i) c.visited c.regs with
      | (r, bad) => s.regDone c r bad (bad.getD 0) m.sp (laneSteps c.visited.length) := rfl

/-- What every instruction that goes through `runAlu` does. -/
theorem runAlu_computes {i : Instr} {m : Mods} {d : Dst} {reads : Nat → List (Bank × Nat)}
    {val : RegFile → Nat → Option Pfx → Nat} (he : ∀ s, exec i s = runAlu s m d reads val)
    (ho : OwnWords reads)
    (hv : ∀ r q l p, (∀ w ∈ reads l, (r.get w.1 w.2).val = (q.get w.1 w.2).val) →
      val r l p = val q l p) : Computes i m d reads val := by
  intro s c h hd
  have hself : { c with grp := c.grp } = c := rfl
  refine ⟨?_, ?_⟩
  · -- every executing lane
    intro hu hr
    rw [hu] at hd
    have hls : ∀ i ∈ c.visited, i < 32 := fun i hi => lt_of_mem_lanesOf (List.mem_filter.1 hi).1
    have hloc := laneLocal_back hls m hd ho (fun i => c.zeroMask.getLsbD i)
      (fun r i => val r i c.run.pfx) fun r q i hq => hv r q i _ hq
    have hread : ∀ i ∈ c.visited, Readable c.regs (if c.zeroMask.getLsbD i then [] else reads i) := by
      intro i hi
      cases hzi : c.zeroMask.getLsbD i
      · exact hr i (mem_lanes.2 ⟨hi, hzi⟩)
      · intro p hp; cases hp
    obtain ⟨e1, e2, e3⟩ := laneLoop_spec hloc ((lanesOf_nodup _).filter _) c.regs hread
    generalize hR : laneLoop (fun i => if c.zeroMask.getLsbD i then [] else reads i)
      (fun r i => if c.zeroMask.getLsbD i then r.writeBack m d i 0 else r.writeBack m d i (val r i c.run.pfx))
      c.visited c.regs = R at e1 e2 e3
    obtain ⟨r, bad⟩ := R
    simp only at e1
    subst e1
    have hrun : exec i s = .next (s.regDone c r none 0 m.sp (laneSteps c.visited.length)) := by
      rw [he]
      simp only [runAlu, onTrack, h, hu, Bool.false_eq_true, if_false]
      rw [runLanes_eq, hR]
      rfl
    obtain ⟨h1, ⟨x, h2, h3, h4, h5⟩, h6⟩ := regDone_ok h r c.grp rfl 0 m.sp (laneSteps c.visited.length)
    have value : ∀ l ∈ c.visited, m.nwb = false →
        ((s.regDone c r none 0 m.sp (laneSteps c.visited.length)).regsOf c.g c.t).value (dstWords d l) =
          (if c.zeroMask.getLsbD l then 0 else val c.regs l c.run.pfx) % 2 ^ (32 * Width.count d.width) := by
      intro l hl' hn
      rw [← writeBack_value c.regs m d l _ hn]
      refine value_congr fun p hp => ?_
      rw [regsOf_done h2 h4 h5 (not_latch_of_mem hp)]
      have := e2 l hl' p (by simp [backWords, hn, hp])
      rw [this]
      split <;> rfl
    have latch : ∀ l ∈ c.visited, m.lc = true →
        (s.regDone c r none 0 m.sp (laneSteps c.visited.length)).goesOn c →
        (((s.regDone c r none 0 m.sp (laneSteps c.visited.length)).regsOf c.g c.t).get .l
          (vkey m.ln.toNat l)).val =
          BitVec.ofNat 32 (if c.zeroMask.getLsbD l then 0 else val c.regs l c.run.pfx) := by
      intro l hl' hc hgo
      rw [regsOf_eq h2, show (RegFile.of x _).get .l (vkey m.ln.toNat l) = r.get .l (vkey m.ln.toNat l) by
        simp only [RegFile.get, RegFile.of]; exact congrArg _ (h6 hgo)]
      rw [e2 l hl' (.l, vkey m.ln.toNat l) (by simp [backWords, hc])]
      split <;> exact writeBack_latch _ _ _ _ _ hc
    refine ⟨_, hrun, h1, ⟨x, h2, h3⟩, ?_, ?_, ?_⟩
    · intro hn
      refine ⟨fun l hl' => ?_, fun l hl' => ?_⟩
      · have := mem_lanes.1 hl'
        rw [value l this.1 hn, this.2]; rfl
      · have := mem_zeroLanes.1 hl'
        rw [value l this.1 hn, this.2]; simp
    · intro hc hgo
      refine ⟨fun l hl' => ?_, fun l hl' => ?_⟩
      · have := mem_lanes.1 hl'
        rw [latch l this.1 hc hgo, this.2]; rfl
      · have := mem_zeroLanes.1 hl'
        rw [latch l this.1 hc hgo, this.2]; rfl
    · intro b k hb hw
      rw [regsOf_done h2 h4 h5 hb]
      refine e3 (b, k) fun l hl' hp => hw ?_
      simp only [backWords, List.mem_append] at hp
      rcases hp with hp | hp
      · cases hn : m.nwb <;> simp only [hn] at hp
        · refine ⟨rfl, l, ?_, hp⟩
          cases hzl : c.zeroMask.getLsbD l
          · exact List.mem_append_left _ (mem_lanes.2 ⟨hl', hzl⟩)
          · exact List.mem_append_right _ (mem_zeroLanes.2 ⟨hl', hzl⟩)
        · cases hp
      · cases hc : m.lc <;> simp only [hc] at hp
        · cases hp
        · rw [if_pos trivial, List.mem_singleton, Prod.mk.injEq] at hp
          exact absurd hp.1 hb
  · -- once
    intro hu hc hr
    have hok := touchAll_ok (reads 0) hr
    obtain ⟨r1, hr1⟩ : ∃ r1, c.regs.touchAll (reads 0) = (r1, false) := ⟨_, Prod.ext rfl hok⟩
    have hs : SameVals r1 c.regs := by have := touchAll_vals c.regs (reads 0); rwa [hr1] at this
    have hval : val r1 0 none = val c.regs 0 none := hv _ _ _ _ fun w _ => hs _ _
    have hrun : exec i s = .next (s.regDone c (r1.writeBack m d 0 (val c.regs 0 none)) none 0 m.sp 1) := by
      rw [he]
      simp only [runAlu, onTrack, h, hu]
      simp only [runUniform, if_neg hc, if_true]
      rw [show (RegFile.of c.grp c.trk).touchAll (reads 0) = (r1, false) from hr1]
      simp [hval]
    obtain ⟨h1, ⟨x, h2, h3, h4, h5⟩, -⟩ :=
      regDone_ok h (r1.writeBack m d 0 (val c.regs 0 none)) c.grp rfl 0 m.sp 1
    refine ⟨_, hrun, h1, ⟨x, h2, h3⟩, ?_, ?_⟩
    · intro hn
      rw [← writeBack_value r1 m d 0 _ hn]
      exact value_congr fun p hp => by rw [regsOf_done h2 h4 h5 (not_latch_of_mem hp)]
    · intro b k hb hw
      rw [regsOf_done h2 h4 h5 hb, ← hs b k]
      refine congrArg _ (writeBack_get_ne r1 m d 0 _ (p := (b, k)) fun hp => hw ?_)
      simp only [backWords, List.mem_append] at hp
      rcases hp with hp | hp
      · cases hn : m.nwb <;> simp only [hn] at hp
        · exact ⟨rfl, hp⟩
        · cases hp
      · cases hc : m.lc <;> simp only [hc] at hp
        · cases hp
        · rw [if_pos trivial, List.mem_singleton, Prod.mk.injEq] at hp
          exact absurd hp.1 hb

end Sys2Proof.Machine
end

