-- ==== Sys2Proof/Tests/Slice0.lean ====
section
/-! SUPPORT. The model's own tests: every instruction's decoding from a word written out from the spec's encoding tables,
an ill-formed term for every check of WellFormed, a few results worked out by hand, and for every statement with
hypotheses a concrete state and operands that meet them, clause by clause. -/

namespace Sys2Proof.Tests
open Sys2Proof.Machine
-- One theorem at a time: many evaluations at once outrun the memory limit.
set_option Elab.async false

/-! ## Decoding -/

/-- Each word decodes to its instruction. -/
def decodesTo (l : List (Nat × Instr)) : Bool := l.all fun x => decodeTableWord 64 x.1 == some x.2
theorem test_decode_integer : decodesTo [
    (0x0180000000000000, .nop true),
    (0x089802801A038001, .iadd ⟨⟨true, false, false, true, 2⟩, ⟨false, .single, 5⟩, ⟨.v, .single, 3⟩, ⟨.s, .single, 7⟩, ⟨.v, .single, 0⟩, 1⟩),
    (0x0920830FD67F8000, .isub ⟨⟨false, false, true, false, 0⟩, ⟨false, .pair, 6⟩, ⟨.v, .pair, 250⟩, ⟨.imm, .single, 255⟩, ⟨.v, .single, 0⟩, 0⟩),
    (0x0A4204A05FF6E5D1, .iaddi ⟨⟨false, true, false, false, 0⟩, ⟨true, .single, 9⟩, ⟨.s, .single, 11⟩, 0xFEDCBA, 1⟩),
    (0x0B007FC018088001, .imul ⟨⟨false, false, false, false, 0⟩, ⟨false, .single, 255⟩, ⟨.latch, .single, 3⟩, ⟨.v, .single, 17⟩, ⟨.v, .single, 0⟩, 1⟩),
    (0x0C00040048050000, .imulh ⟨⟨false, false, false, false, 0⟩, ⟨false, .single, 8⟩, ⟨.v, .single, 9⟩, ⟨.v, .single, 10⟩, ⟨.v, .single, 0⟩, 0⟩),
    (0x0D00008010018021, .imad ⟨⟨false, false, false, false, 0⟩, ⟨false, .single, 1⟩, ⟨.v, .single, 2⟩, ⟨.v, .single, 3⟩, ⟨.v, .single, 4⟩, 1⟩),
    (0x0E008A00AA0B08C1, .imadw ⟨⟨false, false, false, false, 0⟩, ⟨false, .pair, 20⟩, ⟨.v, .single, 21⟩, ⟨.s, .single, 22⟩, ⟨.v, .pair, 24⟩, 1⟩),
    (0x0F4232232A330000, .idiv ⟨⟨false, true, false, false, 0⟩, ⟨true, .single, 100⟩, ⟨.s, .single, 101⟩, ⟨.s, .single, 102⟩, ⟨.v, .single, 0⟩, 0⟩),
    (0x1000108116400000, .irem ⟨⟨false, false, false, false, 0⟩, ⟨false, .single, 33⟩, ⟨.v, .single, 34⟩, ⟨.imm, .single, 128⟩, ⟨.v, .single, 0⟩, 0⟩),
    (0x1100118120128000, .imin ⟨⟨false, false, false, false, 0⟩, ⟨false, .single, 35⟩, ⟨.v, .single, 36⟩, ⟨.v, .single, 37⟩, ⟨.v, .single, 0⟩, 0⟩),
    (0x1200130138140001, .imax ⟨⟨false, false, false, false, 0⟩, ⟨false, .single, 38⟩, ⟨.v, .single, 39⟩, ⟨.v, .single, 40⟩, ⟨.v, .single, 0⟩, 1⟩),
    (0x1300148150000000, .iabs ⟨⟨false, false, false, false, 0⟩, ⟨false, .single, 41⟩, ⟨.v, .single, 42⟩, ⟨.v, .single, 0⟩, ⟨.v, .single, 0⟩, 0⟩),
    (0x1400960970000000, .ineg ⟨⟨false, false, false, false, 0⟩, ⟨false, .pair, 44⟩, ⟨.v, .pair, 46⟩, ⟨.v, .single, 0⟩, ⟨.v, .single, 0⟩, 0⟩),
    (0x1500178180188190, .isad ⟨⟨false, false, false, false, 0⟩, ⟨false, .single, 47⟩, ⟨.v, .single, 48⟩, ⟨.v, .single, 49⟩, ⟨.v, .single, 50⟩, 0⟩),
    (0x16001981A21AC009, .iadd3 ⟨⟨false, false, false, false, 0⟩, ⟨false, .single, 51⟩, ⟨.v, .single, 52⟩, ⟨.s, .single, 53⟩, ⟨.latch, .single, 1⟩, 1⟩),
    (0x17009B01BA9C0003, .lea ⟨⟨false, false, false, false, 0⟩, ⟨false, .pair, 54⟩, ⟨.v, .single, 55⟩, ⟨.s, .pair, 56⟩, ⟨.v, .single, 0⟩, 3⟩)] = true := by decide +kernel
theorem test_decode_logic : decodesTo [
    (0x1800008010018000, .and ⟨⟨false, false, false, false, 0⟩, ⟨false, .single, 1⟩, ⟨.v, .single, 2⟩, ⟨.v, .single, 3⟩, ⟨.v, .single, 0⟩, 0⟩),
    (0x1900020028030000, .or ⟨⟨false, false, false, false, 0⟩, ⟨false, .single, 4⟩, ⟨.v, .single, 5⟩, ⟨.v, .single, 6⟩, ⟨.v, .single, 0⟩, 0⟩),
    (0x1A00038040048000, .xor ⟨⟨false, false, false, false, 0⟩, ⟨false, .single, 7⟩, ⟨.v, .single, 8⟩, ⟨.v, .single, 9⟩, ⟨.v, .single, 0⟩, 0⟩),
    (0x1B00050058060000, .andn ⟨⟨false, false, false, false, 0⟩, ⟨false, .single, 10⟩, ⟨.v, .single, 11⟩, ⟨.v, .single, 12⟩, ⟨.v, .single, 0⟩, 0⟩),
    (0x1C00068070000000, .not ⟨⟨false, false, false, false, 0⟩, ⟨false, .single, 13⟩, ⟨.v, .single, 14⟩, ⟨.v, .single, 0⟩, ⟨.v, .single, 0⟩, 0⟩),
    (0x1D00880896108000, .shl ⟨⟨false, false, false, false, 0⟩, ⟨false, .pair, 16⟩, ⟨.v, .pair, 18⟩, ⟨.imm, .single, 33⟩, ⟨.v, .single, 0⟩, 0⟩),
    (0x1E000A00AA0B0000, .shr ⟨⟨false, false, false, false, 0⟩, ⟨false, .single, 20⟩, ⟨.v, .single, 21⟩, ⟨.s, .single, 22⟩, ⟨.v, .single, 0⟩, 0⟩),
    (0x1F000B80C00C8000, .sar ⟨⟨false, false, false, false, 0⟩, ⟨false, .single, 23⟩, ⟨.v, .single, 24⟩, ⟨.v, .single, 25⟩, ⟨.v, .single, 0⟩, 0⟩),
    (0x20000D00D80E0000, .rol ⟨⟨false, false, false, false, 0⟩, ⟨false, .single, 26⟩, ⟨.v, .single, 27⟩, ⟨.v, .single, 28⟩, ⟨.v, .single, 0⟩, 0⟩),
    (0x21000E80F00F8100, .fshl ⟨⟨false, false, false, false, 0⟩, ⟨false, .single, 29⟩, ⟨.v, .single, 30⟩, ⟨.v, .single, 31⟩, ⟨.v, .single, 32⟩, 0⟩),
    (0x220010811011E038, .fshr ⟨⟨false, false, false, false, 0⟩, ⟨false, .single, 33⟩, ⟨.v, .single, 34⟩, ⟨.v, .single, 35⟩, ⟨.imm, .single, 7⟩, 0⟩),
    (0x2300120128130001, .bfx ⟨⟨false, false, false, false, 0⟩, ⟨false, .single, 36⟩, ⟨.v, .single, 37⟩, ⟨.v, .single, 38⟩, ⟨.v, .single, 0⟩, 1⟩),
    (0x2400138140148150, .bfi ⟨⟨false, false, false, false, 0⟩, ⟨false, .single, 39⟩, ⟨.v, .single, 40⟩, ⟨.v, .single, 41⟩, ⟨.v, .single, 42⟩, 0⟩),
    (0x2500158960000000, .popc ⟨⟨false, false, false, false, 0⟩, ⟨false, .single, 43⟩, ⟨.v, .pair, 44⟩, ⟨.v, .single, 0⟩, ⟨.v, .single, 0⟩, 0⟩),
    (0x2600168170000000, .clz ⟨⟨false, false, false, false, 0⟩, ⟨false, .single, 45⟩, ⟨.v, .single, 46⟩, ⟨.v, .single, 0⟩, ⟨.v, .single, 0⟩, 0⟩),
    (0x2700178180000000, .ctz ⟨⟨false, false, false, false, 0⟩, ⟨false, .single, 47⟩, ⟨.v, .single, 48⟩, ⟨.v, .single, 0⟩, ⟨.v, .single, 0⟩, 0⟩),
    (0x2800188190000000, .brev ⟨⟨false, false, false, false, 0⟩, ⟨false, .single, 49⟩, ⟨.v, .single, 50⟩, ⟨.v, .single, 0⟩, ⟨.v, .single, 0⟩, 0⟩),
    (0x29001981A01A81B0, .bytp ⟨⟨false, false, false, false, 0⟩, ⟨false, .single, 51⟩, ⟨.v, .single, 52⟩, ⟨.v, .single, 53⟩, ⟨.v, .single, 54⟩, 0⟩)] = true := by decide +kernel
theorem test_decode_move : decodesTo [
    (0x2A835809D29E2B00, .icmp ⟨true, 6, 5, .or, ⟨.v, .pair, 58⟩, ⟨.s, .pair, 60⟩, .ge, .i64, 0⟩),
    (0x2B001E81F01F8005, .isel ⟨⟨false, false, false, false, 0⟩, ⟨false, .single, 61⟩, ⟨.v, .single, 62⟩, ⟨.v, .single, 63⟩, ⟨.v, .single, 0⟩, 5⟩),
    (0x2C00200208210219, .iclamp ⟨⟨false, false, false, false, 0⟩, ⟨false, .single, 64⟩, ⟨.v, .single, 65⟩, ⟨.v, .single, 66⟩, ⟨.v, .single, 67⟩, 1⟩),
    (0x2D01A41A80000000, .mov ⟨⟨false, false, false, false, 0⟩, ⟨false, .octet, 72⟩, ⟨.v, .octet, 80⟩, ⟨.v, .single, 0⟩, ⟨.v, .single, 0⟩, 0⟩),
    (0x2E002880DEADBEEF, .movi ⟨⟨false, false, false, false, 0⟩, ⟨false, .single, 81⟩, 0xDEADBEEF⟩),
    (0x2F42A90012345678, .movih ⟨⟨false, true, false, false, 0⟩, ⟨true, .pair, 82⟩, 0x12345678⟩),
    (0x3014298B00000000, .movs ⟨false, false, false, true, 1⟩ ⟨false, .single, 83⟩ 11),
    (0x31222A0600000000, .movk false true ⟨true, .single, 84⟩ 6),
    (0x3202830000000000, .kmov false 5 (.k 3)),
    (0x3202207700000000, .kmov false 4 (.s 119)),
    (0x3281C000CAFEF00D, .kmov true 3 (.imm 0xCAFEF00D)),
    (0x3300A92000000000, .kop false 1 2 4 9),
    (0x34022A8700000000, .kpopc false false ⟨true, .single, 85⟩ 7),
    (0x35022B2500000000, .kfind false false ⟨true, .single, 86⟩ true 5),
    (0x36002B8AC53B8000, .cvt ⟨⟨false, false, false, false, 0⟩, ⟨false, .single, 87⟩, ⟨.v, .pair, 88⟩, .bf16, .n64, .down, true, 0⟩),
    (0x37002C82D02D8002, .pack ⟨⟨false, false, false, false, 0⟩, ⟨false, .single, 89⟩, ⟨.v, .single, 90⟩, ⟨.v, .single, 91⟩, ⟨.v, .single, 0⟩, 2⟩),
    (0x38002E3B00000001, .spread ⟨⟨false, false, false, false, 0⟩, ⟨false, .single, 92⟩, ⟨.s, .octet, 96⟩, ⟨.v, .single, 0⟩, ⟨.v, .single, 0⟩, 1⟩)] = true := by decide +kernel
theorem test_decode_float : decodesTo [
    (0x401C0500A00F0000, .fadd ⟨⟨false, false, false, true, 3⟩, ⟨false, .single, 10⟩, ⟨.v, .single, 20⟩, ⟨.v, .single, 30⟩, ⟨.v, .single, 0⟩, 0⟩),
    (0x41000580A80F8000, .fsub ⟨⟨false, false, false, false, 0⟩, ⟨false, .single, 11⟩, ⟨.v, .single, 21⟩, ⟨.v, .single, 31⟩, ⟨.v, .single, 0⟩, 0⟩),
    (0x42000600B0100000, .fmul ⟨⟨false, false, false, false, 0⟩, ⟨false, .single, 12⟩, ⟨.v, .single, 22⟩, ⟨.v, .single, 32⟩, ⟨.v, .single, 0⟩, 0⟩),
    (0x43000680B8108158, .ffma ⟨⟨false, false, false, false, 0⟩, ⟨false, .single, 13⟩, ⟨.v, .single, 23⟩, ⟨.v, .single, 33⟩, ⟨.v, .single, 43⟩, 0⟩),
    (0x44000700C0110000, .fmin ⟨⟨false, false, false, false, 0⟩, ⟨false, .single, 14⟩, ⟨.v, .single, 24⟩, ⟨.v, .single, 34⟩, ⟨.v, .single, 0⟩, 0⟩),
    (0x45000780C8118000, .fmax ⟨⟨false, false, false, false, 0⟩, ⟨false, .single, 15⟩, ⟨.v, .single, 25⟩, ⟨.v, .single, 35⟩, ⟨.v, .single, 0⟩, 0⟩),
    (0x46000800D0120000, .fsgn ⟨⟨false, false, false, false, 0⟩, ⟨false, .single, 16⟩, ⟨.v, .single, 26⟩, ⟨.v, .single, 36⟩, ⟨.v, .single, 0⟩, 0⟩),
    (0x4700A402E82F6C80, .fcmp ⟨false, 1, 2, .and, ⟨.v, .single, 93⟩, ⟨.v, .single, 94⟩, .geu, .f16, 0⟩),
    (0x48002F8300000004, .fclass ⟨⟨false, false, false, false, 0⟩, ⟨false, .single, 95⟩, ⟨.v, .single, 96⟩, ⟨.v, .single, 0⟩, ⟨.v, .single, 0⟩, 4⟩),
    (0x4900308310000000, .frnd ⟨⟨false, false, false, false, 0⟩, ⟨false, .single, 97⟩, ⟨.v, .single, 98⟩, ⟨.v, .single, 0⟩, ⟨.v, .single, 0⟩, 0⟩),
    (0x4A001901E0230001, .hadd2 ⟨⟨false, false, false, false, 0⟩, ⟨false, .single, 50⟩, ⟨.v, .single, 60⟩, ⟨.v, .single, 70⟩, ⟨.v, .single, 0⟩, 1⟩),
    (0x4B001981E8238000, .hmul2 ⟨⟨false, false, false, false, 0⟩, ⟨false, .single, 51⟩, ⟨.v, .single, 61⟩, ⟨.v, .single, 71⟩, ⟨.v, .single, 0⟩, 0⟩),
    (0x4C001A01F0240291, .hfma2 ⟨⟨false, false, false, false, 0⟩, ⟨false, .single, 52⟩, ⟨.v, .single, 62⟩, ⟨.v, .single, 72⟩, ⟨.v, .single, 82⟩, 1⟩),
    (0x4D001A81F8248000, .hmin2 ⟨⟨false, false, false, false, 0⟩, ⟨false, .single, 53⟩, ⟨.v, .single, 63⟩, ⟨.v, .single, 73⟩, ⟨.v, .single, 0⟩, 0⟩),
    (0x4E001B0200250001, .hmax2 ⟨⟨false, false, false, false, 0⟩, ⟨false, .single, 54⟩, ⟨.v, .single, 64⟩, ⟨.v, .single, 74⟩, ⟨.v, .single, 0⟩, 1⟩),
    (0x4F001B82082582AA, .dot4 ⟨⟨false, false, false, false, 0⟩, ⟨false, .single, 55⟩, ⟨.v, .single, 65⟩, ⟨.v, .single, 75⟩, ⟨.v, .single, 85⟩, 2⟩),
    (0x50001C02102602B1, .dot2 ⟨⟨false, false, false, false, 0⟩, ⟨false, .single, 56⟩, ⟨.v, .single, 66⟩, ⟨.v, .single, 76⟩, ⟨.v, .single, 86⟩, 1⟩),
    (0x51001C82182682BB, .idot4 ⟨⟨false, false, false, false, 0⟩, ⟨false, .single, 57⟩, ⟨.v, .single, 67⟩, ⟨.v, .single, 77⟩, ⟨.v, .single, 87⟩, 3⟩),
    (0x52420520A0000000, .rcp ⟨⟨false, true, false, false, 0⟩, ⟨true, .single, 10⟩, ⟨.s, .single, 20⟩, ⟨.v, .single, 0⟩, ⟨.v, .single, 0⟩, 0⟩),
    (0x534205A0A8000000, .rsq ⟨⟨false, true, false, false, 0⟩, ⟨true, .single, 11⟩, ⟨.s, .single, 21⟩, ⟨.v, .single, 0⟩, ⟨.v, .single, 0⟩, 0⟩),
    (0x54420620B0000000, .sqrt ⟨⟨false, true, false, false, 0⟩, ⟨true, .single, 12⟩, ⟨.s, .single, 22⟩, ⟨.v, .single, 0⟩, ⟨.v, .single, 0⟩, 0⟩),
    (0x554206A0B8000000, .exp2 ⟨⟨false, true, false, false, 0⟩, ⟨true, .single, 13⟩, ⟨.s, .single, 23⟩, ⟨.v, .single, 0⟩, ⟨.v, .single, 0⟩, 0⟩),
    (0x56420720C0000000, .log2 ⟨⟨false, true, false, false, 0⟩, ⟨true, .single, 14⟩, ⟨.s, .single, 24⟩, ⟨.v, .single, 0⟩, ⟨.v, .single, 0⟩, 0⟩),
    (0x574207A0C8000000, .sinr ⟨⟨false, true, false, false, 0⟩, ⟨true, .single, 15⟩, ⟨.s, .single, 25⟩, ⟨.v, .single, 0⟩, ⟨.v, .single, 0⟩, 0⟩),
    (0x58420820D0000000, .cosr ⟨⟨false, true, false, false, 0⟩, ⟨true, .single, 16⟩, ⟨.s, .single, 26⟩, ⟨.v, .single, 0⟩, ⟨.v, .single, 0⟩, 0⟩),
    (0x594208A0D8000000, .tanh ⟨⟨false, true, false, false, 0⟩, ⟨true, .single, 17⟩, ⟨.s, .single, 27⟩, ⟨.v, .single, 0⟩, ⟨.v, .single, 0⟩, 0⟩),
    (0x5A003C03C83D0000, .fdiv ⟨⟨false, false, false, false, 0⟩, ⟨false, .single, 120⟩, ⟨.v, .single, 121⟩, ⟨.v, .single, 122⟩, ⟨.v, .single, 0⟩, 0⟩)] = true := by decide +kernel
theorem test_decode_exchange : decodesTo [
    (0x6000008010018021, .xshf ⟨⟨false, false, false, false, 0⟩, ⟨false, .single, 1⟩, ⟨.v, .single, 2⟩, ⟨.v, .single, 3⟩, ⟨.v, .single, 4⟩, 1⟩),
    (0x6100830842048850, .xrot ⟨⟨false, false, false, false, 0⟩, ⟨false, .pair, 6⟩, ⟨.v, .pair, 8⟩, ⟨.s, .single, 9⟩, ⟨.v, .pair, 10⟩, 0⟩),
    (0x6200058066028068, .xbfly ⟨⟨false, false, false, false, 0⟩, ⟨false, .single, 11⟩, ⟨.v, .single, 12⟩, ⟨.imm, .single, 5⟩, ⟨.v, .single, 13⟩, 0⟩),
    (0x6300070078080088, .xbcst ⟨⟨false, false, false, false, 0⟩, ⟨false, .single, 14⟩, ⟨.v, .single, 15⟩, ⟨.v, .single, 16⟩, ⟨.v, .single, 17⟩, 0⟩),
    (0x640003002E288000, .xscan ⟨⟨false, false, false, false, 0⟩, ⟨false, .single, 6⟩, ⟨.v, .single, 5⟩, ⟨.imm, .single, 81⟩, ⟨.v, .single, 0⟩, 0⟩),
    (0x6502038046290000, .xred ⟨⟨false, false, false, false, 0⟩, ⟨true, .single, 7⟩, ⟨.v, .single, 8⟩, ⟨.imm, .single, 82⟩, ⟨.v, .single, 0⟩, 0⟩),
    (0x6643404D00000000, .xset false 6 true 77),
    (0x67000900980000A6, .xperm ⟨⟨false, false, false, false, 0⟩, ⟨false, .single, 18⟩, ⟨.v, .single, 19⟩, ⟨.v, .single, 0⟩, ⟨.v, .single, 20⟩, 6⟩),
    (0x680280C900000000, .xgen false 5 201),
    (0x69000A80B6018002, .xmatch ⟨⟨false, false, false, false, 0⟩, ⟨false, .single, 21⟩, ⟨.v, .single, 22⟩, ⟨.imm, .single, 3⟩, ⟨.v, .single, 0⟩, 2⟩),
    (0x6A020B80C0000003, .vote ⟨⟨false, false, false, false, 0⟩, ⟨true, .single, 23⟩, ⟨.v, .single, 24⟩, ⟨.v, .single, 0⟩, ⟨.v, .single, 0⟩, 3⟩)] = true := by decide +kernel
theorem test_decode_control : decodesTo [
    (0x700000FFFF000000, .bra false .always 0 0xFFFF0),
    (0x7082901234500000, .bra true .any 5 0x12345),
    (0x7003200000100000, .bra false .all 6 1),
    (0x7003B00000200000, .bra false .none 7 2),
    (0x7001C0ABCDE54321, .braSplit false 3 0xABCDE 0x54321),
    (0x7102800280017FFE, .switch false 5 ⟨.v, .single, 2⟩ 0x8001 0x7FFE),
    (0x7200002468A13579, .call false 0x2468A 0x13579),
    (0x7301478000000000, .ret false ⟨.s, .pair, 30⟩),
    (0x74004A0000000000, .jmpi false ⟨.v, .pair, 40⟩),
    (0x75000000000FEDCB, .recon false 0xFEDCB),
    (0x7680000000000000, .exit true),
    (0x7700002D00000000, .yield false 45),
    (0x78000000AABBCCDD, .trap false 0xAABBCCDD),
    (0x7903183000001234, .svc false 99 48 0x1234),
    (0x7A00000000000055, .bkpt false 0x55),
    (0x7B000000FFFFFFFF, .sleep false 0xFFFFFFFF)] = true := by decide +kernel
theorem test_decode_memory : decodesTo [
    (0x8001840827FFF141, .ld ⟨⟨false, false⟩, ⟨false, .octet, 8⟩, ⟨.v, .pair, 4⟩, 0x3FFF8, 5, .core, .weak, true⟩),
    (0x810004A830000280, .ldsb ⟨⟨false, false⟩, ⟨false, .single, 9⟩, ⟨.s, .pair, 6⟩, 0x1, 2, .core, .weak, false⟩),
    (0x82000508600004EA, .ldzb ⟨⟨false, false⟩, ⟨false, .single, 10⟩, ⟨.v, .pair, 12⟩, 0x2, 3, .sys, .relaxed, false⟩),
    (0x8300058870000864, .ldsh ⟨⟨false, false⟩, ⟨false, .single, 11⟩, ⟨.v, .pair, 14⟩, 0x4, 1, .isl, .acquire, false⟩),
    (0x8400060880000DC0, .ldzh ⟨⟨false, false⟩, ⟨false, .single, 12⟩, ⟨.v, .pair, 16⟩, 0x6, 7, .core, .weak, false⟩),
    (0x85010808A4000000, .st ⟨⟨false, false⟩, ⟨false, .quad, 16⟩, ⟨.v, .pair, 20⟩, 0x20000, 0, .core, .weak, false⟩),
    (0x864206A89000061E, .stb ⟨⟨false, true⟩, ⟨true, .single, 13⟩, ⟨.s, .pair, 18⟩, 0x3, 0, .dev, .release, false⟩),
    (0x87000728A000040A, .sth ⟨⟨false, false⟩, ⟨false, .single, 14⟩, ⟨.s, .pair, 20⟩, 0x2, 0, .clus, .relaxed, false⟩),
    (0x8800040020002040, .ldl ⟨⟨false, false⟩, ⟨false, .single, 8⟩, ⟨.v, .single, 4⟩, 0x10, 1, .core, .weak, false⟩),
    (0x89008B00C0001000, .stl ⟨⟨false, false⟩, ⟨false, .pair, 22⟩, ⟨.v, .single, 24⟩, 0x8, 0, .core, .weak, false⟩),
    (0x8A000D00D800190C, .ldc ⟨⟨false, false⟩, ⟨false, .single, 26⟩, ⟨.v, .single, 27⟩, 0xC, 4, .clus, .acquire, false⟩),
    (0x8B000E00E800200E, .stc ⟨⟨false, false⟩, ⟨false, .single, 28⟩, ⟨.v, .single, 29⟩, 0x10, 0, .clus, .release, false⟩),
    (0x8C00040810024354, .atom ⟨⟨false, false⟩, ⟨false, .single, 8⟩, ⟨.v, .pair, 2⟩, ⟨.v, .single, 4⟩, .decw, .dev, .relaxed, .n32⟩),
    (0x8D000F00F81031A0, .atoml ⟨⟨false, false⟩, ⟨false, .single, 30⟩, ⟨.v, .single, 31⟩, ⟨.v, .single, 32⟩, .exch, .clus, .acquire, .f32⟩),
    (0x8E009109211405D8, .cas ⟨⟨false, false⟩, ⟨false, .pair, 34⟩, ⟨.v, .pair, 36⟩, ⟨.v, .quad, 40⟩, .add, .sys, .release, .i64⟩),
    (0x8F4210A112920050, .casl ⟨⟨false, true⟩, ⟨true, .single, 33⟩, ⟨.s, .single, 34⟩, ⟨.s, .pair, 36⟩, .add, .core, .relaxed, .i32⟩),
    (0x900000096600BA54, .red ⟨⟨false, false⟩, ⟨false, .single, 0⟩, ⟨.v, .pair, 44⟩, ⟨.imm, .single, 1⟩, .incw, .die, .relaxed, .n32⟩),
    (0x9143800000000000, .fence false .both .isl),
    (0x920001097002AB80, .cctl ⟨⟨false, false⟩, .ivi, ⟨.v, .pair, 46⟩, 0x155, 6⟩),
    (0x9300008980010001, .pref ⟨⟨false, false⟩, true, ⟨.v, .pair, 48⟩, 0x80, true⟩),
    (0x94009901A0000000, .fpush ⟨⟨false, false⟩, ⟨false, .pair, 50⟩, ⟨.v, .single, 52⟩, 0⟩),
    (0x94400021A8000008, .fpushOn ⟨⟨false, true⟩, ⟨false, .single, 0⟩, ⟨.s, .single, 53⟩, 0⟩),
    (0x95001B01B8000100, .fpop ⟨⟨false, false⟩, ⟨false, .single, 54⟩, ⟨.v, .single, 55⟩, 4⟩),
    (0x95400021C0000008, .fpopOff ⟨⟨false, true⟩, ⟨false, .single, 0⟩, ⟨.s, .single, 56⟩, 0⟩),
    (0x95421CA1D00000D0, .fpopCount ⟨⟨false, true⟩, ⟨true, .single, 57⟩, ⟨.s, .single, 58⟩, 3⟩)] = true := by decide +kernel
theorem test_decode_copies : decodesTo [
    (0xA000010408901C00, .cpy ⟨⟨false, false⟩, ⟨.v, .single, 4⟩, ⟨.v, .pair, 2⟩, 2, .sp, .gl, 3, true⟩),
    (0xA142ECD800000000, .cpyt false 93 true true 88),
    (0xA2404A0000000000, .cpycl false 9 .die),
    (0xA340A81400000000, .waitb false 21 false 20),
    (0xA3C0B40000000000, .waitb true 22 true 0),
    (0xA4421C303229BEEF, .lzopen ⟨false, 33, 97, true, 0xBEEF, 41, 200⟩),
    (0xA540002500000000, .lzclose false 37),
    (0xA642762300010000, .lzrsv false 78 6 35 65536),
    (0xA74182141B802C00, .lzsend ⟨⟨false, true⟩, ⟨.s, .quad, 8⟩, ⟨.s, .pair, 6⟩, 14, .gl, .gl, 5, true⟩),
    (0xA840000C000000FA, .lzfree false 12 250),
    (0xA942158900000082, .lzstat false 66 5 true 9 130),
    (0xAA426B0B00000000, .lzcancel false 77 3 11),
    (0xAB00820031440000, .wput ⟨⟨false, false⟩, ⟨.v, .quad, 8⟩, ⟨.v, .single, 12⟩, 5, .gl, .sp, 0, false⟩),
    (0xAC00840450000000, .wget ⟨⟨false, false⟩, ⟨.v, .quad, 16⟩, ⟨.v, .pair, 20⟩, 0, .gl, .gl, 0, false⟩),
    (0xAD00860070D80004, .wred ⟨false, ⟨.v, .quad, 24⟩, ⟨.v, .single, 28⟩, 3, true, .cl, .e5m2⟩),
    (0xAE41831053040000, .wmcast ⟨⟨false, true⟩, ⟨.s, .quad, 12⟩, ⟨.s, .single, 20⟩, 12, .gl, .sp, 0, false⟩),
    (0xAF437F3600000000, .wcnt ⟨false, 111, true, true, true, 54⟩),
    (0xB04200000ABCD123, .depdec false .add 0x123 0xABCD),
    (0xB141446000002AAA, .task false 40 4 96 0x2AAA)] = true := by decide +kernel
theorem test_decode_barriers : decodesTo [
    (0xC043C62D00000ABC, .bara ⟨false, 120, true, true, 45, 0xABC⟩),
    (0xC143C82E00000000, .barw false 121 false 46),
    (0xC2403C2F00000001, .bars ⟨false, 7, true, false, 47, 1⟩),
    (0xC340130500000000, .barinit ⟨false, 2, .byte, true, 5, 0⟩),
    (0xC440340000000321, .barx false 6 true 0x321),
    (0xC540283E00000000, .barq false 5 false 62),
    (0xC640002C00000000, .gang false 44),
    (0xC642000000000000, .gangOff false)] = true := by decide +kernel
theorem test_decode_matrix : decodesTo [
    (0xD002ED37FDEBE900, .mma ⟨false, 5, true, 2, 3, 77, 255, 61, 62, 9⟩),
    (0xD10044282C205000, .mmad ⟨false, 0, true, 0, 1, 10, 11, 4, 5, 0⟩),
    (0xD203000000021000, .mmup false 6 33),
    (0xD343004800000000, .fbset false 3 72),
    (0xD440004C00000000, .adset false 76),
    (0xD54226E300001000, .accld ⟨false, 4, .f16, false, true, 5, 99, 0x1000⟩),
    (0xD643CF6200000410, .accst ⟨false, 7, .e5m2, true, true, 6, 98, 0x410⟩),
    (0xD741800000000000, .accz false 3),
    (0xD80160B400000024, .accmov ⟨false, 2, true, .quad, 0, 180, 36⟩),
    (0xD9404A0000000000, .accwait false 0 true 5),
    (0xDA4000000000FEDC, .adinv false false 0xFEDC),
    (0xDB43507600000000, .accscl ⟨false, 6, true, false, true, 118⟩)] = true := by decide +kernel
theorem test_decode_system : decodesTo [
    (0xE042910000000020, .rdsr false ⟨true, .pair, 34⟩ 0x20),
    (0xE14108C000000030, .wrsr false ⟨.s, .single, 35⟩ 0x30),
    (0xE242920000000000, .cyc false ⟨true, .pair, 36⟩),
    (0xE340000087654321, .snap false 0x87654321),
    (0xE400000000000000, .eret false),
    (0xE540E03400000000, .tlbiPage false true 6 52),
    (0xE541300000000000, .tlbiPart false false 3)] = true := by decide +kernel

/-! ## Ill-formed terms -/

/-- Each term is refused, in a grid that declares 200 v registers, 6 tiles and 100 named barriers. -/
def refusedAll (l : List Instr) : Bool := l.all fun i => !wellFormed ⟨200, 6, 100⟩ i
theorem test_ill_formed_1 : refusedAll [
    .iadd ⟨⟨false, false, false, false, 0⟩, ⟨false, .single, 1⟩, ⟨.v, .single, 2⟩, ⟨.v, .single, 3⟩, ⟨.v, .single, 4⟩, 0⟩,
    .iadd ⟨⟨false, false, false, false, 0⟩, ⟨false, .single, 1⟩, ⟨.v, .single, 2⟩, ⟨.v, .single, 3⟩, ⟨.v, .single, 0⟩, 2⟩,
    .iadd ⟨⟨false, false, false, false, 0⟩, ⟨false, .single, 200⟩, ⟨.v, .single, 2⟩, ⟨.v, .single, 3⟩, ⟨.v, .single, 0⟩, 0⟩,
    .iadd ⟨⟨false, false, false, false, 0⟩, ⟨false, .single, 1⟩, ⟨.v, .single, 200⟩, ⟨.v, .single, 3⟩, ⟨.v, .single, 0⟩, 0⟩,
    .iadd ⟨⟨false, false, false, false, 0⟩, ⟨false, .single, 1⟩, ⟨.v, .single, 2⟩, ⟨.s, .single, 128⟩, ⟨.v, .single, 0⟩, 0⟩,
    .iadd ⟨⟨false, false, false, false, 0⟩, ⟨false, .pair, 1⟩, ⟨.v, .pair, 2⟩, ⟨.v, .pair, 4⟩, ⟨.v, .single, 0⟩, 0⟩,
    .iadd ⟨⟨false, false, false, false, 0⟩, ⟨false, .pair, 2⟩, ⟨.v, .pair, 3⟩, ⟨.v, .pair, 4⟩, ⟨.v, .single, 0⟩, 0⟩,
    .iadd ⟨⟨false, false, false, false, 0⟩, ⟨false, .pair, 2⟩, ⟨.v, .pair, 4⟩, ⟨.v, .single, 6⟩, ⟨.v, .single, 0⟩, 0⟩,
    .iadd ⟨⟨false, false, false, false, 0⟩, ⟨false, .quad, 4⟩, ⟨.v, .quad, 4⟩, ⟨.v, .quad, 8⟩, ⟨.v, .single, 0⟩, 0⟩,
    .iadd ⟨⟨false, false, false, false, 0⟩, ⟨true, .single, 1⟩, ⟨.v, .single, 2⟩, ⟨.v, .single, 3⟩, ⟨.v, .single, 0⟩, 0⟩,
    .iadd ⟨⟨false, true, false, false, 0⟩, ⟨true, .single, 1⟩, ⟨.v, .single, 2⟩, ⟨.s, .single, 3⟩, ⟨.v, .single, 0⟩, 0⟩,
    .iadd ⟨⟨false, true, false, false, 0⟩, ⟨false, .single, 1⟩, ⟨.s, .single, 2⟩, ⟨.s, .single, 3⟩, ⟨.v, .single, 0⟩, 0⟩,
    .iadd ⟨⟨false, true, false, false, 0⟩, ⟨true, .single, 1⟩, ⟨.latch, .single, 2⟩, ⟨.s, .single, 3⟩, ⟨.v, .single, 0⟩, 0⟩,
    .iadd ⟨⟨false, false, false, false, 0⟩, ⟨false, .pair, 2⟩, ⟨.latch, .single, 2⟩, ⟨.v, .pair, 4⟩, ⟨.v, .single, 0⟩, 0⟩,
    .iadd ⟨⟨false, false, false, false, 0⟩, ⟨false, .single, 1⟩, ⟨.latch, .single, 4⟩, ⟨.v, .single, 3⟩, ⟨.v, .single, 0⟩, 0⟩,
    .iadd ⟨⟨false, false, false, false, 0⟩, ⟨false, .single, 1⟩, ⟨.imm, .pair, 2⟩, ⟨.v, .single, 3⟩, ⟨.v, .single, 0⟩, 0⟩,
    .iadd ⟨⟨false, false, false, false, 1⟩, ⟨false, .single, 1⟩, ⟨.v, .single, 2⟩, ⟨.v, .single, 3⟩, ⟨.v, .single, 0⟩, 0⟩,
    .iadd ⟨⟨false, false, false, true, 1⟩, ⟨false, .pair, 2⟩, ⟨.v, .pair, 4⟩, ⟨.v, .pair, 6⟩, ⟨.v, .single, 0⟩, 0⟩,
    .iadd ⟨⟨false, true, false, true, 1⟩, ⟨true, .single, 2⟩, ⟨.s, .single, 4⟩, ⟨.s, .single, 6⟩, ⟨.v, .single, 0⟩, 0⟩,
    .iaddi ⟨⟨false, false, false, false, 0⟩, ⟨false, .single, 1⟩, ⟨.v, .single, 2⟩, 5, 2⟩,
    .iaddi ⟨⟨false, false, false, false, 0⟩, ⟨false, .quad, 4⟩, ⟨.v, .quad, 8⟩, 5, 0⟩,
    .imad ⟨⟨false, false, false, false, 0⟩, ⟨false, .single, 1⟩, ⟨.v, .single, 2⟩, ⟨.v, .single, 3⟩, ⟨.v, .pair, 4⟩, 0⟩,
    .imadw ⟨⟨false, false, false, false, 0⟩, ⟨false, .single, 1⟩, ⟨.v, .single, 2⟩, ⟨.v, .single, 3⟩, ⟨.v, .pair, 4⟩, 0⟩,
    .iabs ⟨⟨false, false, false, false, 0⟩, ⟨false, .single, 1⟩, ⟨.v, .single, 2⟩, ⟨.v, .single, 3⟩, ⟨.v, .single, 0⟩, 0⟩,
    .iabs ⟨⟨false, false, false, false, 0⟩, ⟨false, .single, 1⟩, ⟨.v, .single, 2⟩, ⟨.v, .single, 0⟩, ⟨.v, .single, 0⟩, 1⟩,
    .lea ⟨⟨false, false, false, false, 0⟩, ⟨false, .pair, 2⟩, ⟨.v, .single, 4⟩, ⟨.v, .single, 6⟩, ⟨.v, .single, 0⟩, 0⟩,
    .and ⟨⟨false, false, false, false, 0⟩, ⟨false, .single, 1⟩, ⟨.v, .single, 2⟩, ⟨.v, .single, 3⟩, ⟨.v, .single, 0⟩, 1⟩,
    .shl ⟨⟨false, false, false, false, 0⟩, ⟨false, .pair, 2⟩, ⟨.v, .pair, 4⟩, ⟨.v, .pair, 6⟩, ⟨.v, .single, 0⟩, 0⟩,
    .fshl ⟨⟨false, false, false, false, 0⟩, ⟨false, .pair, 2⟩, ⟨.v, .pair, 4⟩, ⟨.v, .pair, 6⟩, ⟨.v, .pair, 8⟩, 0⟩,
    .bfi ⟨⟨false, false, false, false, 0⟩, ⟨false, .single, 1⟩, ⟨.v, .single, 2⟩, ⟨.v, .single, 3⟩, ⟨.v, .single, 4⟩, 1⟩,
    .bfx ⟨⟨false, false, false, false, 0⟩, ⟨false, .single, 1⟩, ⟨.v, .single, 2⟩, ⟨.v, .single, 3⟩, ⟨.v, .single, 0⟩, 2⟩,
    .popc ⟨⟨false, false, false, false, 0⟩, ⟨false, .pair, 2⟩, ⟨.v, .pair, 4⟩, ⟨.v, .single, 0⟩, ⟨.v, .single, 0⟩, 0⟩,
    .bytp ⟨⟨false, false, false, false, 0⟩, ⟨false, .single, 1⟩, ⟨.v, .single, 2⟩, ⟨.v, .single, 3⟩, ⟨.v, .single, 4⟩, 1⟩,
    .icmp ⟨false, 1, 0, .none, ⟨.v, .single, 1⟩, ⟨.v, .single, 2⟩, .eq, .i64, 0⟩,
    .icmp ⟨false, 1, 2, .none, ⟨.v, .single, 1⟩, ⟨.v, .single, 2⟩, .eq, .i32, 0⟩,
    .icmp ⟨false, 1, 0, .none, ⟨.v, .single, 1⟩, ⟨.v, .single, 2⟩, .ord, .i32, 0⟩,
    .icmp ⟨false, 1, 0, .none, ⟨.v, .single, 1⟩, ⟨.v, .single, 2⟩, .eq, .f32, 0⟩,
    .icmp ⟨false, 1, 0, .none, ⟨.v, .single, 1⟩, ⟨.v, .single, 2⟩, .eq, .i32, 1⟩,
    .fcmp ⟨false, 1, 0, .none, ⟨.v, .single, 1⟩, ⟨.v, .single, 2⟩, .eq, .i32, 0⟩,
    .fcmp ⟨false, 1, 0, .none, ⟨.v, .pair, 1⟩, ⟨.v, .pair, 2⟩, .eq, .f32, 0⟩,
    .isel ⟨⟨false, true, false, false, 0⟩, ⟨true, .single, 1⟩, ⟨.s, .single, 2⟩, ⟨.s, .single, 3⟩, ⟨.v, .single, 0⟩, 0⟩,
    .mov ⟨⟨false, false, false, false, 0⟩, ⟨false, .single, 1⟩, ⟨.v, .single, 2⟩, ⟨.v, .single, 0⟩, ⟨.v, .single, 0⟩, 1⟩,
    .mov ⟨⟨false, false, false, false, 0⟩, ⟨false, .octet, 8⟩, ⟨.imm, .single, 3⟩, ⟨.v, .single, 0⟩, ⟨.v, .single, 0⟩, 0⟩,
    .movi ⟨⟨false, false, false, false, 0⟩, ⟨false, .quad, 4⟩, 1⟩,
    .movih ⟨⟨false, false, false, false, 0⟩, ⟨false, .single, 4⟩, 1⟩] = true := by decide +kernel
theorem test_ill_formed_2 : refusedAll [
    .movs ⟨false, false, false, false, 0⟩ ⟨false, .single, 1⟩ 17,
    .movs ⟨false, true, false, false, 0⟩ ⟨true, .single, 1⟩ 0,
    .movs ⟨false, false, false, false, 0⟩ ⟨false, .single, 1⟩ 16,
    .movk false false ⟨false, .single, 1⟩ 0,
    .kpopc false false ⟨true, .pair, 2⟩ 0,
    .kfind false false ⟨true, .single, 128⟩ false 0,
    .kmov false 1 (.s 128),
    .cvt ⟨⟨false, false, false, false, 0⟩, ⟨false, .single, 1⟩, ⟨.v, .single, 2⟩, .i64, .f32, .rne, false, 0⟩,
    .cvt ⟨⟨false, false, false, false, 0⟩, ⟨false, .single, 1⟩, ⟨.v, .single, 2⟩, .i32, .i64, .rne, false, 0⟩,
    .cvt ⟨⟨false, false, false, false, 0⟩, ⟨false, .single, 1⟩, ⟨.v, .single, 2⟩, .i32, .f32, .rne, false, 1⟩,
    .pack ⟨⟨false, false, false, false, 0⟩, ⟨false, .single, 1⟩, ⟨.v, .single, 2⟩, ⟨.v, .single, 3⟩, ⟨.v, .single, 0⟩, 3⟩,
    .spread ⟨⟨false, false, false, false, 0⟩, ⟨false, .single, 1⟩, ⟨.v, .octet, 8⟩, ⟨.v, .single, 0⟩, ⟨.v, .single, 0⟩, 1⟩,
    .spread ⟨⟨false, false, false, false, 0⟩, ⟨false, .single, 1⟩, ⟨.s, .octet, 8⟩, ⟨.v, .single, 0⟩, ⟨.v, .single, 0⟩, 3⟩,
    .spread ⟨⟨false, false, false, false, 0⟩, ⟨false, .single, 1⟩, ⟨.s, .single, 8⟩, ⟨.v, .single, 0⟩, ⟨.v, .single, 0⟩, 1⟩,
    .fadd ⟨⟨false, false, false, false, 0⟩, ⟨false, .single, 1⟩, ⟨.v, .single, 2⟩, ⟨.v, .single, 3⟩, ⟨.v, .single, 0⟩, 1⟩,
    .ffma ⟨⟨false, false, false, false, 0⟩, ⟨false, .single, 1⟩, ⟨.v, .single, 2⟩, ⟨.v, .single, 3⟩, ⟨.v, .pair, 4⟩, 0⟩,
    .fsgn ⟨⟨false, false, false, false, 0⟩, ⟨false, .single, 1⟩, ⟨.v, .single, 2⟩, ⟨.v, .single, 3⟩, ⟨.v, .single, 0⟩, 3⟩,
    .fsgn ⟨⟨false, false, false, false, 0⟩, ⟨false, .single, 1⟩, ⟨.v, .single, 2⟩, ⟨.v, .single, 0⟩, ⟨.v, .single, 0⟩, 5⟩,
    .fclass ⟨⟨false, false, false, false, 0⟩, ⟨false, .single, 1⟩, ⟨.v, .single, 2⟩, ⟨.v, .single, 0⟩, ⟨.v, .single, 0⟩, 5⟩,
    .frnd ⟨⟨false, false, false, false, 0⟩, ⟨false, .single, 1⟩, ⟨.v, .single, 2⟩, ⟨.v, .single, 0⟩, ⟨.v, .single, 0⟩, 1⟩,
    .hadd2 ⟨⟨false, false, false, false, 0⟩, ⟨false, .single, 1⟩, ⟨.v, .single, 2⟩, ⟨.v, .single, 3⟩, ⟨.v, .single, 0⟩, 2⟩,
    .hfma2 ⟨⟨false, false, false, false, 0⟩, ⟨false, .single, 1⟩, ⟨.v, .single, 2⟩, ⟨.v, .single, 3⟩, ⟨.v, .single, 4⟩, 2⟩,
    .dot4 ⟨⟨false, false, false, false, 0⟩, ⟨false, .single, 1⟩, ⟨.v, .single, 2⟩, ⟨.v, .single, 3⟩, ⟨.v, .single, 4⟩, 4⟩,
    .dot2 ⟨⟨false, false, false, false, 0⟩, ⟨false, .single, 1⟩, ⟨.v, .single, 2⟩, ⟨.v, .single, 3⟩, ⟨.v, .single, 4⟩, 2⟩,
    .rcp ⟨⟨false, false, false, false, 0⟩, ⟨false, .single, 1⟩, ⟨.v, .single, 2⟩, ⟨.v, .single, 0⟩, ⟨.v, .single, 0⟩, 1⟩,
    .fdiv ⟨⟨false, false, false, false, 0⟩, ⟨false, .single, 1⟩, ⟨.v, .single, 2⟩, ⟨.v, .single, 3⟩, ⟨.v, .single, 0⟩, 1⟩,
    .xshf ⟨⟨false, true, false, false, 0⟩, ⟨true, .single, 1⟩, ⟨.s, .single, 2⟩, ⟨.s, .single, 3⟩, ⟨.s, .single, 4⟩, 0⟩,
    .xshf ⟨⟨false, false, false, false, 0⟩, ⟨false, .single, 1⟩, ⟨.v, .single, 2⟩, ⟨.v, .single, 3⟩, ⟨.v, .single, 4⟩, 2⟩,
    .xbfly ⟨⟨false, false, false, false, 0⟩, ⟨false, .single, 1⟩, ⟨.v, .single, 2⟩, ⟨.v, .single, 3⟩, ⟨.v, .single, 4⟩, 1⟩,
    .xscan ⟨⟨false, false, false, false, 0⟩, ⟨false, .single, 1⟩, ⟨.v, .single, 2⟩, ⟨.imm, .single, 91⟩, ⟨.v, .single, 0⟩, 0⟩,
    .xscan ⟨⟨false, false, false, false, 0⟩, ⟨false, .single, 1⟩, ⟨.v, .single, 2⟩, ⟨.imm, .single, 96⟩, ⟨.v, .single, 0⟩, 0⟩,
    .xscan ⟨⟨false, false, false, false, 0⟩, ⟨false, .single, 1⟩, ⟨.v, .single, 2⟩, ⟨.v, .single, 3⟩, ⟨.v, .single, 0⟩, 0⟩,
    .xred ⟨⟨false, false, false, false, 0⟩, ⟨true, .single, 1⟩, ⟨.v, .single, 2⟩, ⟨.imm, .single, 65⟩, ⟨.v, .single, 0⟩, 0⟩,
    .xred ⟨⟨false, false, false, false, 0⟩, ⟨false, .single, 1⟩, ⟨.v, .single, 2⟩, ⟨.imm, .single, 81⟩, ⟨.v, .single, 0⟩, 1⟩,
    .xset false 0 false 12,
    .xset false 0 true 128,
    .xperm ⟨⟨false, false, false, false, 0⟩, ⟨false, .single, 1⟩, ⟨.v, .single, 2⟩, ⟨.v, .single, 3⟩, ⟨.v, .single, 4⟩, 0⟩,
    .xgen false 0 200,
    .xmatch ⟨⟨false, false, false, false, 0⟩, ⟨false, .single, 1⟩, ⟨.v, .single, 2⟩, ⟨.imm, .single, 8⟩, ⟨.v, .single, 0⟩, 2⟩,
    .xmatch ⟨⟨false, false, false, false, 0⟩, ⟨false, .single, 1⟩, ⟨.v, .single, 2⟩, ⟨.imm, .single, 1⟩, ⟨.v, .single, 0⟩, 0⟩,
    .xmatch ⟨⟨false, false, false, false, 0⟩, ⟨false, .single, 1⟩, ⟨.v, .pair, 2⟩, ⟨.v, .single, 0⟩, ⟨.v, .single, 0⟩, 1⟩,
    .xmatch ⟨⟨false, false, false, false, 0⟩, ⟨false, .single, 1⟩, ⟨.v, .single, 2⟩, ⟨.v, .single, 0⟩, ⟨.v, .single, 0⟩, 4⟩,
    .vote ⟨⟨false, false, false, false, 0⟩, ⟨true, .single, 1⟩, ⟨.v, .single, 2⟩, ⟨.v, .single, 0⟩, ⟨.v, .single, 0⟩, 4⟩,
    .vote ⟨⟨false, false, false, false, 0⟩, ⟨true, .single, 1⟩, ⟨.v, .single, 2⟩, ⟨.v, .single, 3⟩, ⟨.v, .single, 0⟩, 0⟩,
    .bra false .always 1 0] = true := by decide +kernel
theorem test_ill_formed_3 : refusedAll [
    .switch false 0 ⟨.v, .pair, 2⟩ 0 0,
    .ret false ⟨.v, .single, 2⟩,
    .jmpi false ⟨.imm, .single, 2⟩,
    .svc false 0 12 0,
    .svc false 0 192 0,
    .ld ⟨⟨false, false⟩, ⟨false, .single, 1⟩, ⟨.v, .single, 2⟩, 0, 0, .core, .weak, false⟩,
    .ld ⟨⟨false, false⟩, ⟨false, .single, 1⟩, ⟨.v, .pair, 2⟩, 0, 0, .dev, .weak, false⟩,
    .ld ⟨⟨false, false⟩, ⟨false, .single, 1⟩, ⟨.v, .pair, 2⟩, 0, 0, .core, .release, false⟩,
    .ld ⟨⟨false, false⟩, ⟨false, .quad, 4⟩, ⟨.v, .pair, 2⟩, 0, 0, .core, .acquire, false⟩,
    .ldsb ⟨⟨false, false⟩, ⟨false, .pair, 2⟩, ⟨.v, .pair, 2⟩, 0, 0, .core, .weak, false⟩,
    .ld ⟨⟨false, false⟩, ⟨false, .single, 1⟩, ⟨.imm, .single, 2⟩, 0, 0, .core, .weak, false⟩,
    .st ⟨⟨false, false⟩, ⟨false, .single, 1⟩, ⟨.v, .pair, 2⟩, 0, 1, .core, .weak, false⟩,
    .st ⟨⟨false, false⟩, ⟨false, .single, 1⟩, ⟨.v, .pair, 2⟩, 0, 0, .core, .acquire, false⟩,
    .st ⟨⟨false, false⟩, ⟨false, .single, 1⟩, ⟨.v, .pair, 2⟩, 0, 0, .core, .weak, true⟩,
    .ldl ⟨⟨false, false⟩, ⟨false, .single, 1⟩, ⟨.v, .single, 2⟩, 0, 0, .die, .relaxed, false⟩,
    .ldl ⟨⟨false, false⟩, ⟨false, .single, 1⟩, ⟨.v, .single, 2⟩, 0, 0, .core, .weak, true⟩,
    .ldc ⟨⟨false, false⟩, ⟨false, .single, 1⟩, ⟨.v, .single, 2⟩, 0, 0, .core, .relaxed, false⟩,
    .atom ⟨⟨false, false⟩, ⟨false, .single, 1⟩, ⟨.v, .pair, 2⟩, ⟨.v, .single, 4⟩, .incw, .dev, .relaxed, .i32⟩,
    .atom ⟨⟨false, false⟩, ⟨false, .single, 1⟩, ⟨.v, .pair, 2⟩, ⟨.v, .single, 4⟩, .add, .dev, .relaxed, .i64⟩,
    .atom ⟨⟨false, false⟩, ⟨false, .single, 1⟩, ⟨.v, .pair, 2⟩, ⟨.v, .single, 4⟩, .and, .dev, .relaxed, .f32⟩,
    .atom ⟨⟨false, false⟩, ⟨false, .single, 1⟩, ⟨.v, .pair, 2⟩, ⟨.v, .single, 4⟩, .add, .dev, .weak, .n32⟩,
    .red ⟨⟨false, false⟩, ⟨false, .single, 0⟩, ⟨.v, .pair, 2⟩, ⟨.v, .single, 4⟩, .exch, .dev, .relaxed, .n32⟩,
    .red ⟨⟨false, false⟩, ⟨false, .single, 1⟩, ⟨.v, .pair, 2⟩, ⟨.v, .single, 4⟩, .add, .dev, .relaxed, .n32⟩,
    .cas ⟨⟨false, false⟩, ⟨false, .single, 1⟩, ⟨.v, .pair, 2⟩, ⟨.v, .single, 4⟩, .add, .dev, .relaxed, .n32⟩,
    .cas ⟨⟨false, false⟩, ⟨false, .single, 1⟩, ⟨.v, .pair, 2⟩, ⟨.v, .pair, 4⟩, .min, .dev, .relaxed, .n32⟩,
    .cas ⟨⟨false, false⟩, ⟨false, .single, 1⟩, ⟨.v, .pair, 2⟩, ⟨.v, .pair, 4⟩, .add, .dev, .relaxed, .f32⟩,
    .atoml ⟨⟨false, false⟩, ⟨false, .single, 1⟩, ⟨.v, .single, 2⟩, ⟨.v, .single, 4⟩, .add, .dev, .relaxed, .n32⟩,
    .cctl ⟨⟨false, false⟩, .ivcall, ⟨.v, .single, 0⟩, 0, 0⟩,
    .cctl ⟨⟨false, true⟩, .iviall, ⟨.v, .single, 0⟩, 8, 0⟩,
    .cctl ⟨⟨false, false⟩, .ivc, ⟨.v, .single, 3⟩, 0, 0⟩,
    .pref ⟨⟨false, false⟩, true, ⟨.v, .pair, 2⟩, 0, false⟩,
    .fpush ⟨⟨false, false⟩, ⟨false, .quad, 4⟩, ⟨.v, .single, 2⟩, 0⟩,
    .fpush ⟨⟨false, false⟩, ⟨false, .single, 4⟩, ⟨.v, .single, 2⟩, 1⟩,
    .fpushOn ⟨⟨false, false⟩, ⟨false, .single, 0⟩, ⟨.s, .single, 2⟩, 0⟩,
    .fpop ⟨⟨false, false⟩, ⟨false, .single, 4⟩, ⟨.v, .pair, 2⟩, 0⟩,
    .fpopOff ⟨⟨false, true⟩, ⟨false, .single, 0⟩, ⟨.s, .single, 2⟩, 1⟩,
    .fpopCount ⟨⟨false, true⟩, ⟨true, .pair, 2⟩, ⟨.s, .single, 4⟩, 0⟩,
    .cpy ⟨⟨false, false⟩, ⟨.v, .pair, 2⟩, ⟨.v, .pair, 4⟩, 3, .gl, .gl, 0, false⟩,
    .cpy ⟨⟨false, false⟩, ⟨.v, .single, 2⟩, ⟨.v, .pair, 4⟩, 0, .gl, .gl, 0, false⟩,
    .cpy ⟨⟨false, false⟩, ⟨.v, .pair, 2⟩, ⟨.v, .pair, 4⟩, 0, .gl, .gl, 1, false⟩,
    .cpy ⟨⟨false, false⟩, ⟨.v, .pair, 2⟩, ⟨.v, .pair, 4⟩, 0, .gl, .gl, 100, true⟩,
    .cpy ⟨⟨false, false⟩, ⟨.imm, .single, 2⟩, ⟨.v, .pair, 4⟩, 0, .sp, .gl, 0, false⟩,
    .cpy ⟨⟨false, true⟩, ⟨.s, .pair, 2⟩, ⟨.s, .pair, 4⟩, 0, .gl, .gl, 0, false⟩,
    .cpyt false 0 false false 4,
    .cpyt false 0 false false 112] = true := by decide +kernel
theorem test_ill_formed_4 : refusedAll [
    .waitb false 0 true 1,
    .lzopen ⟨false, 0, 100, true, 0, 0, 0⟩,
    .lzrsv false 0 0 0 0,
    .lzrsv false 0 0 0 6,
    .lzrsv false 0 0 0 65540,
    .lzsend ⟨⟨false, true⟩, ⟨.s, .quad, 8⟩, ⟨.s, .pair, 6⟩, 15, .gl, .gl, 0, false⟩,
    .lzsend ⟨⟨false, true⟩, ⟨.s, .quad, 8⟩, ⟨.s, .single, 6⟩, 0, .gl, .cl, 0, false⟩,
    .lzsend ⟨⟨false, true⟩, ⟨.v, .quad, 8⟩, ⟨.s, .pair, 6⟩, 0, .gl, .gl, 0, false⟩,
    .lzstat false 0 1 false 0 0,
    .wput ⟨⟨false, false⟩, ⟨.v, .quad, 8⟩, ⟨.v, .pair, 12⟩, 6, .gl, .gl, 0, false⟩,
    .wput ⟨⟨false, false⟩, ⟨.v, .quad, 8⟩, ⟨.v, .pair, 12⟩, 0, .gl, .gl, 1, true⟩,
    .wput ⟨⟨false, false⟩, ⟨.s, .quad, 8⟩, ⟨.v, .pair, 12⟩, 0, .gl, .gl, 0, false⟩,
    .wput ⟨⟨false, false⟩, ⟨.v, .quad, 8⟩, ⟨.v, .single, 12⟩, 0, .sp, .gl, 0, false⟩,
    .wmcast ⟨⟨false, true⟩, ⟨.s, .quad, 8⟩, ⟨.s, .single, 12⟩, 4, .gl, .sp, 0, false⟩,
    .wmcast ⟨⟨false, false⟩, ⟨.v, .quad, 8⟩, ⟨.v, .single, 12⟩, 5, .gl, .sp, 0, false⟩,
    .wred ⟨false, ⟨.v, .quad, 8⟩, ⟨.v, .single, 12⟩, 0, true, .sp, .i32⟩,
    .wred ⟨false, ⟨.v, .quad, 8⟩, ⟨.v, .single, 12⟩, 6, false, .sp, .f32⟩,
    .wcnt ⟨false, 0, false, false, false, 3⟩,
    .task false 0 0 8 0,
    .task false 0 0 127 0,
    .bara ⟨false, 100, false, false, 0, 0⟩,
    .barw false 100 false 0,
    .bars ⟨false, 100, false, false, 0, 0⟩,
    .barinit ⟨false, 1, .arr, false, 2, 0⟩,
    .barinit ⟨false, 1, .byte, false, 2, 1⟩,
    .barinit ⟨false, 100, .arr, false, 0, 0⟩,
    .barx false 100 false 0,
    .barq false 100 false 0,
    .barq false 1 false 3,
    .gang false 3,
    .mma ⟨false, 6, false, 0, 0, 1, 255, 0, 0, 0⟩,
    .mma ⟨false, 0, false, 0, 0, 200, 255, 0, 0, 0⟩,
    .mma ⟨false, 0, false, 0, 0, 1, 1, 0, 0, 0⟩,
    .mma ⟨false, 0, false, 0, 0, 1, 255, 64, 0, 0⟩,
    .mma ⟨false, 0, false, 0, 0, 1, 255, 0, 64, 0⟩,
    .mmad ⟨false, 0, false, 0, 0, 1, 200, 0, 0, 0⟩,
    .mmup false 6 0,
    .mmup false 0 64,
    .fbset false 0 12,
    .fbset false 0 126,
    .adset false 2,
    .accld ⟨false, 0, .e4m3, false, false, 0, 0, 0⟩,
    .accld ⟨false, 0, .f32, true, false, 0, 0, 0⟩,
    .accld ⟨false, 0, .f32, false, false, 1, 0, 0⟩,
    .accld ⟨false, 6, .f32, false, false, 0, 0, 0⟩] = true := by decide +kernel
theorem test_ill_formed_5 : refusedAll [
    .accst ⟨false, 6, .f32, false, false, 0, 0, 0⟩,
    .accst ⟨false, 0, .f32, false, false, 1, 0, 0⟩,
    .accz false 6,
    .accmov ⟨false, 0, false, .pair, 0, 3, 0⟩,
    .accmov ⟨false, 0, false, .pair, 0, 2, 3⟩,
    .accmov ⟨false, 0, true, .pair, 1, 2, 2⟩,
    .accmov ⟨false, 6, false, .single, 0, 2, 2⟩,
    .accwait false 1 true 0,
    .accwait false 6 false 0,
    .adinv false true 1,
    .accscl ⟨false, 0, false, false, false, 0⟩,
    .accscl ⟨false, 0, false, true, false, 3⟩,
    .accscl ⟨false, 6, false, true, false, 0⟩,
    .rdsr false ⟨true, .single, 2⟩ 0x11,
    .rdsr false ⟨true, .single, 2⟩ 2,
    .wrsr false ⟨.s, .single, 2⟩ 0,
    .wrsr false ⟨.v, .single, 2⟩ 1,
    .cyc false ⟨true, .single, 2⟩,
    .tlbiPage false false 0 3] = true := by decide +kernel

/-! ## States for the tests -/

/-- Entries of a page table, as bytes of HBM. -/
def pteBytes (a e : Nat) : List Host.Cell :=
  (leBytes 8 e).zipIdx.filterMap fun b => if b.1 = 0 then none else some (a + b.2, b.1)
/-- Page tables of partition 0: VA 0 to 2 MiB at PA 0x400000, the page at VA 0x200000 at PA 0x600000, that at 0x201000 in
host memory through ATS, that at 0x202000 read-only. -/
def tables : List Host.Cell :=
  pteBytes 0x200000 0x201001 ++ pteBytes 0x201000 0x202001 ++ pteBytes 0x202000 0x400007 ++ pteBytes 0x202008 0x203001 ++
  pteBytes 0x203000 0x600007 ++ pteBytes 0x203008 0x1000000001017 ++ pteBytes 0x203010 0x602003
/-- A device that is ready, of which partition 0 has every die. -/
def dev : State :=
  { State.reset with
    boot := { Boot.start with step := 7, ready := true }
    enum := { Enum.reset with
      published := true, coremask := List.replicate 8 0xFFFFFF#32, links := 0x3FF#10
      stackMask := List.replicate 8 3, sliceMask := List.replicate 8 0xFFFF }
    parts := [(0, ⟨0, 255, 7, 0x200000, BitVec.allOnes 128, [(0, 0, 768)]⟩)]
    mem := tables }
/-- A group of 32 lanes on track 0 that executes a word. -/
def at_ (w : Nat) : State := { dev.withFetchWord 64 w with agenda := [], focus := some 0 }
def idle : State := at_ 0
def setG (f : Group → Group) (s : State) : State := s.updGroup 0 f
def setF (f : Frag → Frag) (s : State) : State := setG (fun g => { g with split := upd 0 f g.split }) s
def setR (f : Run → Run) (s : State) : State := s.updTrack 0 fun t => { t with run := t.run.map f }
def setC (f : Core → Core) (s : State) : State := s.updCore 0 f
def setD (f : Die → Die) (s : State) : State := s.updDie 0 f
def setT (f : Team → Team) (s : State) : State := s.updTeam 0 f
def setGd (f : Grid → Grid) (s : State) : State := s.updGrid 0 f
def setY (f : Sys → Sys) (s : State) : State := { s with sys := f s.sys }
/-- A started command, with bytes of its buffer. -/
def cmd (i : Nat) (bs : List (Nat × Nat)) (s : State) : State :=
  setY (fun y => { y with
    cmdStatus := [(i, 1)]
    cmdBuf := bs.foldl (fun m b => put 0 (256 * i + b.1) (BitVec.ofNat 8 b.2) m) [] }) s
/-- Work queue 0, which is on, of 4 records, its ring at VA 0x1000; `r` is the first record. -/
def wq (head tail : Nat) (r : BitVec 512) (s : State) : State :=
  { s with
    mem := wrBytes (wrBytes s.mem 0x401000 (leBytes 64 r.toNat)) 0x800000
      (leBytes 8 0x1000 ++ [2, 1, 0, 0] ++ leBytes 4 head ++ leBytes 4 tail)
    sys := { s.sys with wqbase := [(0, 0x800000)] } }
/-- The launch record of one team of one full group that declares 8 v registers and nothing else, with a field. -/
def lrec (x : Nat) : BitVec 512 :=
  BitVec.ofNat 512 (2 ^ 256 + 2 ^ 272 + 2 ^ 288 + 32 * 2 ^ 304 + (1 + 2 ^ 3) * 2 ^ 320 + x)
def setL (x : Nat) (s : State) : State := setGd (fun g => { g with lrec := lrec x }) s
/-- No track executes a clause. -/
def noRun (s : State) : State := s.updTrack 0 fun t => { t with run := none }
/-- A call of one lane, number 5, in progress. -/
def call : SvcCall := ⟨0, 1, 4, 8, 5, 3, false, [List.replicate 16 7], 8, 0⟩
/-- A record of the copy queue, with its pieces; an operation of one. -/
def crec (k : CopyKind) (l : List Seg) : CopyRec :=
  ⟨5, 0, 0, k, .sp, .sp, l, none, none, none, none, none, [], 0, 0⟩
def op (r : CopyRec) (s : State) : State :=
  setC (fun k => { k with copyOps := [⟨6, r, .pend, []⟩], tlb := [⟨0, 0, 21, 0x400000, true, false⟩] })
    (setT (fun t => { t with size := 65536 }) s)
/-- A message that has come to die 0, and the request 9 that it answers. -/
def msg (m : Msg) (s : State) : State := { s with net := [⟨m, 0, 0, .die 0, 0, 0, false⟩] }
def req (k : ReqKind) (s : State) : State := { s with reqs := [⟨9, k, 0, 0, none, 0, 0, 0⟩] }
/-- Zone 0 of core 0, with one slot of 1 KiB. -/
def zone : Zone := ⟨0, 1, true, true, 0, 0, 1, 1, 0, 0, false, none⟩
def ref : SlotRef := ⟨0, 0, 0, 0, 1, 0, 1⟩
def slot (st : SlotSt) (s : State) : State :=
  setC (fun k => { k with zones := [(0, zone)], slots := [(0, ⟨0, st, 1, 64, 0, false, 0⟩)] })
    (setT (fun t => { t with size := 65536 }) s)
def setZ (f : Zone → Zone) (s : State) : State := setC (fun k => { k with zones := upd 0 f k.zones }) s
/-- Window 3, of 256 bytes at VA 0x3000, which allows everything. -/
def win (s : State) : State :=
  { setD (fun d => { d with tcache := [⟨0, 0, 21, 0x400000, true, false⟩] }) s with
    mem := wrBytes s.mem 0x9000C0 (leBytes 8 0x3000 ++ leBytes 8 0x100 ++ [0, 0, 15])
    sys := { s.sys with wtbase := 0x900000 } }
/-- A record at the head of the group's matrix queue, its tile 0 mapped to physical tile 3, whose first element is 1.0. -/
def mat (k : MatKind) (s : State) : State :=
  setC (fun q => { q with tiles := [(3, { Tile.start with elems := [(0, ⟨0x3F800000, .clean⟩)] })] })
    (setT (fun t => { t with size := 65536 })
      (setG (fun g => { g with matq := [⟨5, k, 0, some 1, true, false⟩], sb := [(1, 1)], amap := [(0, 3)] }) s))
/-- One row of one chunk of binary16 elements. -/
def joint : JointOp := ⟨false, false, 0x80000009, 0x80000009, [(2, 64, 0)], 0, 256, 1, 0⟩
def inUnit (n : Nat) (s : State) : State :=
  setC (fun q => { q with
    matUnit := [⟨[⟨0, 5, 0, 0, 3, [⟨0, 0, List.replicate n [.fin ⟨1, 0⟩ false], List.replicate n true⟩]⟩],
      List.replicate n [[.fin ⟨1, 0⟩ false]], 0, 1, ⟨0, 0, 0, 0⟩, []⟩] }) s
/-- An adapter slice being read, whose descriptor lies in a line that die 0 holds. -/
def fill1 (desc : Nat) (s : State) : State :=
  { setC (fun k => { k with
      adfills := [⟨4, ⟨0x1000, 4, 1, 1⟩, 1, 0, 0, 0, 0, 0, false, none⟩]
      tlb := [⟨0, 0, 21, 0x400000, true, false⟩] }) s with
    lines := [(lineKey 0 32800, ⟨1, true, true, false, 0, bytesLine (leBytes 128 (desc * 2 ^ 512)), 0⟩)] }
/-- A memory record of the group, its one access still to perform. -/
def mrec (id : Nat) (k : MemKind) (sp : MemSpace) (ord : Order) (a : LaneAcc) : MemRec :=
  ⟨id, k, sp, a.data.length, ord, .dev, false, if k matches .load _ then some ⟨false, .single, 9⟩ else none, none, 8, [a]⟩
def memr (k : MemKind) (sp : MemSpace) (ord : Order) (s : State) : State :=
  setT (fun t => { t with size := 65536 })
    (setC (fun q => { q with tlb := [⟨0, 0, 21, 0x400000, true, false⟩] })
      (setG (fun g => { g with memq := [mrec 5 k sp ord ⟨0, 0, 64, [1, 2, 3, 4], .pend⟩] }) s))
/-- A store in the write-through buffer of core 0. -/
def wtb (pa : Nat) (s : State) : State := setC (fun q => { q with wtb := [⟨7, pa, [1, 2, 3, 4], 0, 3, 0, 8, 64, false⟩] }) s
/-- Die 0 holds tokens of a line. -/
def held (line n : Nat) (crown : Bool) (d : Nat) (s : State) : State :=
  { s with
    lines := [(lineKey 0 line, ⟨n, crown, true, false, 0, bytesLine (leBytes 128 d), 0⟩)]
    side := [(line, ⟨256 - n, !crown, 0, false, 0⟩)] }
/-- A record that waits at FIFO bank 0, which holds a word. -/
def fifo (k : MemKind) (n : Nat) (s : State) : State :=
  setC (fun q => { q with fifo := [(0, ⟨0, BitVec.ofNat 16 n⟩)], fifoq := [⟨0, 0, 5⟩], scratch := [(1, 7)] })
    (setT (fun t => { t with size := 65536 })
      (setG (fun g => { g with memq := [{ mrec 5 k .fifo .weak ⟨0, 0, 0, [1, 2, 3, 4], .inSlice⟩ with
        dst := some ⟨false, .single, 9⟩ }] }) s))
def barMsg (rel : Option Nat) (s : State) : State :=
  msg (.bar 0 2 (.arrive 1 false) (some 0) (some 4) rel) s
/-- A walk in progress on die 0. -/
def walk (va : Nat) (w : Waiter) (s : State) : State := setD (fun d => { d with walks := [⟨0, va, false, [(w, false, va)]⟩] }) s
def parked (s : State) : State :=
  setD (fun d => { d with parked := [⟨0, 0x200000, false, .fetch 0 0, some 3, 0x18⟩] })
    (setF (fun f => { f with state := .parked, prev := .parked, wait := .fetch }) s)
/-- A clause of one NOP at VA 0, in a line that die 0 holds, chosen and not yet fetched. -/
def clause (s : State) : State :=
  held 32768 1 false (0xA000000000000000 + 0x0100000000000000 * 2 ^ 64) (setR (fun r => { r with fetched := false })
    (setC (fun k => { k with tlb := [⟨0, 0, 21, 0x400000, true, false⟩] }) s))
/-! ## Witnesses: for every statement, and every clause of it, a state and operands that meet its hypotheses -/

/-- A context of a state, with a property. -/
theorem meets {s : State} {p : Ctx → Prop} [DecidablePred p]
    (h : (s.ctx.map fun c => decide (p c)) = some true) : ∃ c, s.ctx = some c ∧ p c := by
  cases hc : s.ctx with
  | none => simp [hc] at h
  | some c => exact ⟨c, rfl, by simpa [hc] using h⟩
/-- A value that an option holds, with a property. -/
theorem holds {α : Type} {o : Option α} {p : α → Prop} [DecidablePred p]
    (h : (o.map fun x => decide (p x)) = some true) : ∃ x, o = some x ∧ p x := by
  cases o with
  | none => simp at h
  | some x => exact ⟨x, rfl, by simpa using h⟩
abbrev m0 : Mods := ⟨false, false, false, false, 0⟩
abbrev mU : Mods := ⟨false, true, false, false, 0⟩
abbrev vr (n : BitVec 8) : Src := ⟨.v, .single, n⟩
abbrev sr (n : BitVec 8) : Src := ⟨.s, .single, n⟩
abbrev vp (n : BitVec 8) : Src := ⟨.v, .pair, n⟩
abbrev sp2 (n : BitVec 8) : Src := ⟨.s, .pair, n⟩
abbrev vd (n : BitVec 8) : Dst := ⟨false, .single, n⟩
abbrev sd (n : BitVec 8) : Dst := ⟨true, .single, n⟩
abbrev fv : FmtT := ⟨m0, vd 8, vr 0, vr 1, vr 2, 0⟩
abbrev fs : FmtT := ⟨mU, sd 8, sr 0, sr 1, sr 2, 0⟩
/-- What `Computes` asks of a per-lane and of a uniform instruction. -/
abbrev PerLane (m : Mods) (d : Dst) (c : Ctx) (reads : Nat → List (Bank × Nat)) : Prop :=
  d.isS = m.uni ∧ m.uni = false ∧ (∀ l ∈ c.lanes, Readable c.regs (reads l)) ∧ c.lanes ≠ []
abbrev Once (m : Mods) (d : Dst) (c : Ctx) (reads : Nat → List (Bank × Nat)) : Prop :=
  d.isS = m.uni ∧ m.uni = true ∧ c.run.cursor ≠ some 32 ∧ Readable c.regs (reads 0)
/-- A group of 5 lanes, of which lanes 0 and 4 execute. -/
def few : State := setG (fun g => { g with nlanes := 5, k := [(0, 17)] }) idle
/-- The same under a prefix with MZ that names k1. -/
def masked : State := setR (fun r => { r with pfx := some ⟨1, true, .rne, false, false, false⟩ })
  (setG (fun g => { g with k := [(0, 17), (1, 16)] }) few)
theorem test_meets_StepRunsTheDecodedInstruction :
    (∃ r, (dev.withFetchWord 64 0x0100000000000000).agenda = .run 0 :: [] ∧
      ((dev.withFetchWord 64 0x0100000000000000).track 0).run = some r ∧ r.fetched = true ∧
      (sRegs (.nop false)).any (dev.dsPending r.group).contains = false ∧
      decodeTableWord 64 0x0100000000000000 = some (.nop false) ∧
      r.word r.pos = some (0x0100000000000000#64, .instr) ∧ opOf 0x0100000000000000#64 ≠ 2) ∧
    ∃ r p, (at_ 0x0200040000000000).agenda = [] ∧ ((at_ 0x0200040000000000).track 0).run = some r ∧ r.fetched = true ∧
      r.word r.pos = some (0x0200040000000000#64, .instr) ∧ opOf 0x0200040000000000#64 = 2 ∧
      (decodePfx 0x0200040000000000#64).toOption = some p ∧ (r.word (r.pos + 1)).isSome = true :=
  ⟨⟨oneRun 0x0100000000000000#64, by decide +kernel⟩, oneRun 0x0200040000000000#64, ⟨0, false, .rne, true, false, false⟩,
    by decide +kernel⟩
theorem test_meets_StepFollowsTheSchedule :
    (encode (.sleepExpiry 0 0) = none ∧ (encode (.nop false)).isSome = true ∧ (dev.track 1).run = none) ∧
    (∃ r, ((barMsg none (at_ 0xC040280400000001)).track 0).run = some r ∧ r.fetched = true ∧
      r.word r.pos = some (0xC040280400000001#64, .instr) ∧ opOf 0xC040280400000001#64 ≠ 2 ∧
      decodeTableWord 64 0xC040280400000001 = some (.bara ⟨false, 5, false, false, 4, 1⟩) ∧
      (sRegs (.bara ⟨false, 5, false, false, 4, 1⟩)).any
        ((barMsg none (at_ 0xC040280400000001)).dsPending r.group).contains = true) ∧
    ∃ c, (setR (fun r => { r with pos := 17 }) idle).ctx = some c ∧ c.run.fetched = true ∧ c.run.word c.run.pos = none :=
  ⟨by decide +kernel, ⟨oneRun 0xC040280400000001#64, by decide +kernel⟩, meets (by decide +kernel)⟩
theorem test_meets_NopAdvancesItsClause :
    (∃ c, idle.ctx = some c ∧ c.run.pos < c.run.words.length) ∧
    ∃ c, (setR (fun r => { r with pos := 16 }) idle).ctx = some c ∧ c.run.words.length ≤ c.run.pos :=
  ⟨meets (by decide +kernel), meets (by decide +kernel)⟩
/-- A step that goes on, from a state in canonical form. -/
theorem test_meets_StepsKeepTheMemoriesCanonical :
    idle.memOk = true ∧ (match step (dev.withFetchWord 64 0x0100000000000000) with
      | .next t => t.memOk
      | _ => false) = true := by decide +kernel
theorem test_meets_DecodeInvertsEncode : ∃ w, encode (.imad fv) = some w ∧ wellFormed ⟨9, 0, 0⟩ (.imad fv) = true :=
  holds (by decide +kernel)
theorem test_meets_IntegerArithmetic :
    (∃ c, few.ctx = some c ∧ PerLane fv.m fv.d c fun l => srcWords fv.a l ++ srcWords fv.b l ++ srcWords fv.c l) ∧
    (∃ c, masked.ctx = some c ∧ PerLane fv.m fv.d c (srcWords fv.a) ∧ c.zeroLanes ≠ []) ∧
    ∃ c, few.ctx = some c ∧ Once fs.m fs.d c fun l => srcWords fs.a l ++ srcWords fs.b l ++ srcWords fs.c l := by
  repeat' first | decide +kernel | exact meets (by decide +kernel) | apply And.intro
theorem test_meets_BitwiseInstructions :
    (∃ c, few.ctx = some c ∧ PerLane fv.m fv.d c fun l => srcWords fv.a l ++ srcWords fv.b l ++ srcWords fv.c l) ∧
    ∃ c, few.ctx = some c ∧ Once fs.m fs.d c (srcWords fs.a) := ⟨meets (by decide +kernel), meets (by decide +kernel)⟩
theorem test_meets_Binary32Arithmetic :
    (∃ c, few.ctx = some c ∧ PerLane fv.m fv.d c fun l => srcWords fv.a l ++ srcWords fv.b l ++ srcWords fv.c l) ∧
    (∃ c, few.ctx = some c ∧ Once fs.m fs.d c (srcWords fs.a)) ∧ fv.fn.toNat ≤ 2 ∧ 3 ≤ (4#3).toNat := by
  repeat' first | decide +kernel | exact meets (by decide +kernel) | apply And.intro
theorem test_meets_PackedAndDotProducts :
    (∃ c, few.ctx = some c ∧ PerLane fv.m fv.d c fun l => srcWords fv.a l ++ srcWords fv.b l ++ srcWords fv.c l) ∧
    ∃ c, few.ctx = some c ∧ Once fs.m fs.d c (srcWords fs.a) := ⟨meets (by decide +kernel), meets (by decide +kernel)⟩
theorem test_meets_SpecialFunctions :
    (∃ c, few.ctx = some c ∧ PerLane fv.m fv.d c (srcWords fv.a)) ∧ (∃ c, few.ctx = some c ∧ Once fs.m fs.d c (srcWords fs.a)) ∧
    (0 < (⟨1, -149⟩ : Dy).m ∧ (-150 : Int) < -149 ∧ (-149 : Int) < 128 ∧ (-150 : Int) < 127 ∧ (127 : Int) < 128) ∧
    ∃ v n, boundedFree 0 0 (fun _ => false) ⟨⟨1, 0⟩, ⟨1, 0⟩⟩ = .fin v n :=
  ⟨meets (by decide +kernel), meets (by decide +kernel), by decide, ⟨0x800000, -23⟩, false, by
    have h : fread f32 false (rne32 (El.ofDy ⟨1, 0⟩ false)).toNat = .fin ⟨0x800000, -23⟩ false := by decide +kernel
    unfold boundedFree
    simp only [h]
    split <;> simp_all⟩
theorem test_meets_MovesAndConversions :
    (∃ c, few.ctx = some c ∧ PerLane m0 (vd 8) c fun l => srcWords (vr 0) l ++ srcWords (vr 1) l) ∧
    ∃ c, few.ctx = some c ∧ Once mU (sd 8) c fun _ => [] := ⟨meets (by decide +kernel), meets (by decide +kernel)⟩
theorem test_meets_MaskInstructions :
    (∃ c, few.ctx = some c ∧ c.run.cursor ≠ some 32 ∧ c.k 1 = 0 ∧ c.k 0 ≠ 0) ∧
    ∃ c, few.ctx = some c ∧ c.run.cursor ≠ some 32 ∧ ∀ sn, KSrc.s 127 = .s sn → SReadable c [sn.toNat] :=
  ⟨meets (by decide +kernel), by
    obtain ⟨c, hc, h1, h2⟩ := meets (s := few) (p := fun c => c.run.cursor ≠ some 32 ∧ SReadable c [127]) (by decide +kernel)
    exact ⟨c, hc, h1, fun sn e => by cases e; exact h2⟩⟩
theorem test_meets_Comparisons : ∃ c, few.ctx = some c ∧
    (∀ l ∈ c.lanes, Readable c.regs (srcWords (vr 0) l ++ srcWords (sr 1) l)) ∧ 4 ∈ c.lanes ∧ 1 ∉ c.lanes :=
  meets (by decide +kernel)
theorem test_meets_LaneMovesScansAndVotes :
    (∃ c, (setG (fun g => { g with k := [] }) few).ctx = some c ∧ c.lanes = []) ∧
    ∃ c, few.ctx = some c ∧ c.lanes ≠ [] ∧
      ∀ l ∈ c.lanes, Readable c.regs (srcWords fv.a l ++ srcWords fv.b l ++ srcWords fv.c l) :=
  ⟨meets (by decide +kernel), meets (by decide +kernel)⟩
theorem test_meets_MatchAndPermutationRegisters :
    (∃ c, few.ctx = some c ∧ fv.d.isS = false ∧ c.lanes ≠ [] ∧ ∀ l ∈ c.lanes, Readable c.regs (srcWords fv.a l)) ∧
    (∃ c, few.ctx = some c ∧ c.run.cursor ≠ some 32 ∧ SReadable c ((List.range 5).map (120 + ·))) ∧
    (∃ c, (setT (fun t => { t with size := 65536 }) few).ctx = some c ∧ c.run.cursor ≠ some 32 ∧ SReadable c [127] ∧
      scratchCheck c.team.size (c.sOf 127).toNat 20 4 = none ∧
      few.holdsBack c.core c.grid.part c.team c.grp.memq ⟨.scratch, (c.sOf 127).toNat, 20⟩ = false ∧
      (few.core c.core).fifoTouch (c.team.base + (c.sOf 127).toNat) 20 = false) ∧
    (∃ c, few.ctx = some c ∧ c.lanes ≠ [] ∧ ∀ l ∈ c.lanes, Readable c.regs [(.v, vkey 255 l)]) ∧
    (∀ l, (fun l => (l + 1) % 32) l < 32) ∧ (∀ l ∈ [0, 4, 31], l < 32) ∧ [0, 4, 31].Pairwise (· < ·) := by
  repeat' first | exact fun _ => Nat.mod_lt _ (by decide) | decide +kernel | exact meets (by decide +kernel) | apply And.intro
/-- The resume-lane cursor counts the word complete. -/
def done_ : State := setR (fun r => { r with cursor := some 32 }) few
theorem test_meets_WholeFragmentTransfers :
    (∃ c, few.ctx = some c ∧ c.run.cursor ≠ some 32 ∧ braTaken .any c.k0 (c.k 0) = true ∧
      braTaken .any c.k0 (c.k 1) = false) ∧
    (∃ c, done_.ctx = some c ∧ c.run.cursor = some 32) ∧
    (∃ c, few.ctx = some c ∧ (sp2 126).kind = .s ∧ c.run.cursor ≠ some 32 ∧ Readable c.regs (srcWords (sp2 126) 0)) ∧
    ∃ c, few.ctx = some c ∧ c.run.cursor ≠ some 32 ∧ c.run.pos < c.run.words.length := by
  repeat' first | decide +kernel | exact meets (by decide +kernel) | apply And.intro
/-- Lanes 0 and 4 choose different targets, and entries are free for them. -/
theorem test_meets_LanesReachTheirTargets :
    (∃ c, few.ctx = some c ∧ (targetsOf c.frag.mask ((lanesOf c.k0).map fun l =>
      (l, if l ∈ c.lanes ∧ (c.k 0).getLsbD l = true ∧ l = 4 then c.target (8 : BitVec 20) else c.nextHdr))).length ≤
        c.grp.freeEntries.length) ∧
    (∃ c, few.ctx = some c ∧ (∀ l ∈ c.lanes, Readable c.regs (srcWords (vr 2) l)) ∧
      (targetsOf c.frag.mask ((lanesOf c.k0).map fun l => (l, c.target (14 : BitVec 16)))).length ≤ c.grp.freeEntries.length) ∧
    ∃ c, few.ctx = some c ∧ (vp 2).kind ≠ .s ∧ (∀ l ∈ c.lanes, Readable c.regs (srcWords (vp 2) l)) ∧
      (targetsOf c.frag.mask ((lanesOf c.k0).map fun l =>
        (l, if l ∈ c.lanes then BitVec.ofNat 57 (c.regs.operand (vp 2) l 64) else c.nextHdr))).length ≤
        c.grp.freeEntries.length := by
  repeat' first | decide +kernel | exact meets (by decide +kernel) | apply And.intro
/-- A group of track 0 whose fragment waits, while no clause runs there. -/
def waits (w : Wait) (s : State) : State := noRun (setF (fun f => { f with state := .waiting, wait := w }) s)
theorem test_meets_YieldsAndSleeps :
    (∃ c, idle.ctx = some c ∧ c.run.cursor ≠ some 32 ∧ (1#6) ≠ 0 ∧ (1#32) ≠ 0) ∧
    (∃ c, done_.ctx = some c ∧ c.run.cursor = some 32) ∧
    (∀ til ∈ [0, 1], ∃ x, (waits (.sleep til) idle).group 0 = some x ∧ x.resid = .bound ∧
      ((find 0 x.split).map fun f => (f.state, f.wait)) = some (.waiting, .sleep til) ∧
      ((waits (.sleep til) idle).track x.track).run = none ∧
      (til ≤ ((waits (.sleep til) idle).core (coreOf x.track)).cycle.toNat ↔ til = 0)) ∧
    ∀ n ∈ [0, 1], ∃ x, (waits (.yield n 5) idle).group 0 = some x ∧ x.resid = .bound ∧
      ((find 0 x.split).map fun f => (f.state, f.wait)) = some (.waiting, .yield n 5) ∧
      ((waits (.yield n 5) idle).track x.track).run = none ∧
      (n ≤ ((waits (.yield n 5) idle).track x.track).clauses ↔ n = 0) ∧
      ((waits (.yield n 5) idle).track x.track).steps < 5 := by
  repeat' first | decide +kernel | exact meets (by decide +kernel) | exact holds (by decide +kernel) | (intro _ h; fin_cases h) | apply And.intro
/-- A group with a trap handler. -/
def traps (s : State) : State := setG (fun g => { g with trapvec := 0x4000 }) s
def inHandler (s : State) : State := setG (fun g => { g with fltstat := 0x2000 }) s
theorem test_meets_TrapsEnterTheHandler :
    (∃ c, idle.ctx = some c ∧ c.run.cursor ≠ some 32 ∧ idle.traps c.grp 0x08 = false ∧ c.grid.st = .running ∧
      idle.fqRoom = true) ∧
    (∃ c, (traps idle).ctx = some c ∧ c.run.cursor ≠ some 32 ∧ (traps idle).traps c.grp 0x08 = true) ∧
    ∃ c, done_.ctx = some c ∧ c.run.cursor = some 32 := by
  repeat' first | exact meets (by decide +kernel) | apply And.intro
theorem test_meets_EretReturnsFromTheHandler :
    (∃ c, (inHandler idle).ctx = some c ∧ (inHandler idle).privileged c.grp = true ∧ c.run.cursor ≠ some 32 ∧
      fld ((look 0 1 c.grp.trapinfo).toNat) 25 5 = 0) ∧
    ∃ c, (setG (fun g => { g with trapinfo := [(1, 0x3E000000)] }) (inHandler idle)).ctx = some c ∧ c.run.cursor ≠ some 32 ∧
      (inHandler idle).privileged c.grp = true ∧ fld ((look 0 1 c.grp.trapinfo).toNat) 25 5 = 31 :=
  ⟨meets (by decide +kernel), meets (by decide +kernel)⟩
theorem test_meets_PrivilegedInstructionsFault :
    (∃ c, idle.ctx = some c ∧ idle.privileged c.grp = false ∧ c.run.cursor ≠ some 32) ∧
    ∃ c, (setR (fun r => { r with cursor := some 32 }) idle).ctx = some c ∧ c.run.cursor = some 32 :=
  ⟨meets (by decide +kernel), meets (by decide +kernel)⟩
/-- Lane 4 reads a word that is uncorrectable, lane 0 reads none; a ring in host memory. -/
theorem test_meets_UncorrectableWordsFaultAndAreRecorded :
    (∃ c, (setG (fun g => { g with v := [(vkey 1 4, ⟨0, .double⟩)] }) few).ctx = some c ∧ c.run.pfx = none ∧ 4 ∈ c.lanes ∧
      (∀ l ∈ c.lanes, l < 4 → Readable c.regs (srcWords fv.a l ++ srcWords fv.b l)) ∧
      ∃ p ∈ srcWords fv.a 4 ++ srcWords fv.b 4, (c.regs.get p.1 p.2).ecc = .double ∨ (c.regs.get p.1 p.2).ecc = .poisoned) ∧
    (∀ p ∈ srcWords fv.a 4 ++ srcWords fv.b 4 ++ srcWords fv.c 4,
      ∃ c, (setG (fun g => { g with v := [(p.2, ⟨0, .double⟩)] }) few).ctx = some c ∧
        (∀ l ∈ c.lanes, l < 4 → Readable c.regs (srcWords fv.a l ++ srcWords fv.b l ++ srcWords fv.c l)) ∧
        (c.regs.get p.1 p.2).ecc = .double) ∧
    ∀ b ∈ [(0x700000 : Nat), 0x1000000001000], let s := setY (fun y => { y with fqbase := BitVec.ofNat 64 b }) idle
      (∃ c, s.ctx = some c ∧ c.run.cursor ≠ some 32) ∧ s.fqReady = true ∧ s.sys.fqbase.toNat % 64 = 0 ∧
      ((b / 2 ^ 48 = 0 ∧ s.tokenLine s.fqLine = true) ∨
        (b / 2 ^ 48 = 1 ∧ b % 2 ^ 48 + 2 ^ 18 ≤ 2 ^ 48 ∧ s.devStores = [])) := by
  repeat' first | (intro _ h; fin_cases h) | exact meets (by decide +kernel) | decide +kernel | apply And.intro
theorem find_of_mem {β : Type} {k : Nat} {v : β} : ∀ {m : SMap β}, (k, v) ∈ m → (find k m).isSome = true
  | (j, x) :: m, h => by
    by_cases hj : j = k
    · simp [find, hj]
    · rcases List.mem_cons.1 h with h | h
      · exact absurd (congrArg Prod.fst h).symm hj
      · simpa [find, hj] using find_of_mem h
theorem test_meets_ServiceCallsParkTheGroup :
    (∃ c, few.ctx = some c ∧ c.run.cursor = none ∧ (∀ l ∈ c.lanes, Readable c.regs (svcWords 240 l)) ∧
      (find 4095 few.tickets).isNone = true) ∧
    ∃ s : State, s.freeTickets = [] ∧ s.ctx.isSome = true := by
  refine ⟨meets (by decide +kernel), { few with tickets := (List.range 4096).map fun t => (t, 0) }, ?_, by decide +kernel⟩
  simp only [State.freeTickets, List.filter_eq_nil_iff]
  intro t ht
  have h := find_of_mem (List.mem_map_of_mem (f := fun t => (t, 0)) ht)
  simpa [Option.isSome_iff_ne_none] using h
/-- A memory instruction's hypotheses: room in its scoreboard, lanes, and addresses that pass their checks. -/
abbrev HandsOk (c : Ctx) (uni : Bool) (sb : Option Nat) (reads : Nat → List (Bank × Nat)) (chk : Nat → Option Nat) : Prop :=
  (sb.all fun n => look 0 n c.grp.sb != 255) = true ∧ (uni = true → c.run.cursor ≠ some 32) ∧ c.memLanes uni ≠ [] ∧
  ∀ l ∈ c.memLanes uni, Readable c.regs (reads l) ∧ chk l = none
/-- The same group with 64 KiB of scratchpad. -/
def room : State := setT (fun t => { t with size := 65536 }) few
theorem test_meets_LoadsAndStoresHandOver :
    (∃ c, room.ctx = some c ∧ HandsOk c false (some 0) (srcWords (vp 2)) fun l => globalCheck 32 (ea64 (vp 2) 8 c.regs l - 8)) ∧
    (∃ c, room.ctx = some c ∧ HandsOk c true none (srcWords (sp2 2)) fun l => globalCheck 4 (ea64 (sp2 2) 4 c.regs l)) ∧
    (∃ c, room.ctx = some c ∧ HandsOk c false (some 7) (srcWords (vr 2)) fun l =>
      scratchCheck c.team.size (ta32 (vr 2) 0xFFE0 c.regs l) 32 32) ∧
    ∃ c, (setL (512 * 2 ^ 352) room).ctx = some c ∧ HandsOk c false none (srcWords (vr 2)) fun l =>
      clusterCheck (c.grid.rows * c.grid.cols) c.grid.scr 4 (ta32 (vr 2) 8 c.regs l) := by
  repeat' first | decide +kernel | exact meets (by decide +kernel) | apply And.intro
theorem test_meets_AtomicsAndCacheControlHandOver :
    (∃ c, room.ctx = some c ∧ HandsOk c false (some 7) (fun l => srcWords (vp 2) l ++ srcWords (vr 4) l) fun l =>
      globalCheck 4 (ea64 (vp 2) 0 c.regs l)) ∧
    (∃ c, room.ctx = some c ∧ HandsOk c true (some 7) (fun l => srcWords (sr 2) l ++ srcWords (sp2 4) l) fun l =>
      scratchCheck c.team.size (ta32 (sr 2) 0 c.regs l) 8 8) ∧
    (∃ c, room.ctx = some c ∧ HandsOk c true none (fun _ => []) fun _ => none) ∧
    ∃ c, room.ctx = some c ∧ HandsOk c false (some 3) (srcWords (vp 2)) fun l =>
      if canonical (ea64 (vp 2) 1 c.regs l) then none else some 0x13 := by
  repeat' first | decide +kernel | exact meets (by decide +kernel) | apply And.intro
theorem test_meets_FifoFormsHandOver : ∀ uni ∈ [false, true], ∃ c, room.ctx = some c ∧
    HandsOk c uni (some 1) (srcWords (sr 2)) fun l =>
      let b := (c.team.base + c.regs.operand (sr 2) l 32) / 65536
      if c.team.base ≤ b * 65536 ∧ (b + 1) * 65536 ≤ c.team.base + c.team.size then none else some 0x11 :=
  fun uni h => by fin_cases h <;> exact meets (by decide +kernel)
/-- Lane 4 has the address of each fault of its own; lane 0 passes. -/
def addrs (x : Word) : State := setG (fun g => { g with v := [(vkey 2 4, ⟨x, .clean⟩), (vkey 3 4, ⟨if x = 0 then 0x1000000 else 0, .clean⟩)] }) room
theorem test_meets_AddressFaults :
    (∀ x ∈ [(0#32), 2#32], ∃ c, (addrs x).ctx = some c ∧ look 0 1 c.grp.sb ≠ 255 ∧ 4 ∈ c.memLanes false ∧
      (∀ l ∈ c.memLanes false, l ≤ 4 → Readable c.regs (srcWords (vp 2) l)) ∧
      (∀ l ∈ c.memLanes false, l < 4 → globalCheck 4 (ea64 (vp 2) 0 c.regs l) = none) ∧
      (if x = 0 then canonical (ea64 (vp 2) 0 c.regs 4) = false else ea64 (vp 2) 0 c.regs 4 % 4 ≠ 0)) ∧
    ∀ x ∈ [(65533#32), 6#32], ∃ c, (addrs x).ctx = some c ∧ 4 ∈ c.memLanes false ∧
      (∀ l ∈ c.memLanes false, l < 4 → scratchCheck c.team.size (ta32 (vr 2) 0 c.regs l) 4 4 = none) ∧
      (if x = 6 then ta32 (vr 2) 0 c.regs 4 % 4 ≠ 0 else c.team.size < ta32 (vr 2) 0 c.regs 4 + 4) :=
  ⟨fun x h => by fin_cases h <;> exact meets (by decide +kernel), fun x h => by fin_cases h <;> exact meets (by decide +kernel)⟩

/-- s registers of the group. -/
def srs (l : List (Nat × Nat)) (s : State) : State :=
  setG (fun g => { g with s := l.map fun x => (x.1, ⟨BitVec.ofNat 32 x.2, .clean⟩) }) s
theorem test_meets_CopiesAreQueued :
    (∃ c, room.ctx = some c ∧ c.lanes ≠ [] ∧ ∀ l ∈ c.lanes,
      Readable c.regs (srcWords (vr 0) l ++ srcWords (vp 2) l) ∧
      spaceCheck c .sp 128 128 (c.regs.operand (vr 0) l 32) = none ∧
      spaceCheck c .gl 128 128 (c.regs.operand (vp 2) l 64) = none) ∧
    ∃ c, room.ctx = some c ∧ c.lanes ≠ [] ∧ ∀ l ∈ c.lanes,
      Readable c.regs (srcWords ⟨.v, .quad, 8⟩ l ++ srcWords (vp 2) l) ∧
      spaceCheck c .gl 4 4 (c.regs.operand (vp 2) l 64) = none ∧
      c.regs.operand ⟨.v, .quad, 8⟩ l 128 / 2 ^ 64 % 2 ^ 64 % 4 = 0 :=
  ⟨meets (by decide +kernel), meets (by decide +kernel)⟩
/-- A tensor of 16 bytes (R286). -/
def tensor : State := srs [(0, 4096), (2, 8192), (5, 16), (6, 1), (7, 1), (8, 1), (9, 1)] room
/-- A multicast group of one member, package 9, window 5 (R348). -/
def group1 : State := { setD (fun d => { d with tcache := [⟨0, 0, 21, 0x400000, true, false⟩] }) room with
  sys := { room.sys with mgbase := 0xA00000 }
  mem := wrBytes (wrBytes room.mem 0xA00000 (leBytes 64 (0x1000 + 2 ^ 128 + 2 ^ 160))) 0x401000
    (leBytes 8 (2 ^ 63 + 9 + 5 * 2 ^ 18)) }
abbrev q4 : Src := ⟨.s, .quad, 4⟩
theorem test_meets_UniformCopiesAreQueued :
    (∃ c, tensor.ctx = some c ∧ c.run.cursor ≠ some 32 ∧ SReadable c ((List.range 24).map (0 + ·)) ∧
      (tensorOf ((List.range 24).map fun i => (c.sOf (0 + i)).toNat)).ok c.team.size = true) ∧
    (∃ c, room.ctx = some c ∧ c.run.cursor ≠ some 32 ∧ SReadable c (srcS q4 ++ srcS (sr 2)) ∧
      (c.sOf 6).toNat < 2 ^ 28 ∧ spaceCheck c .sp 1024 1 (c.regs.operand (sr 2) 0 32) = none ∧
      c.regs.operand (sr 2) 0 32 % min 1024 128 = 0 ∧ (c.sOf 7).toNat % min 1024 128 = 0) ∧
    (∃ c, room.ctx = some c ∧ c.run.cursor ≠ some 32 ∧ SReadable c [126, 127] ∧ look 0 7 c.grp.sb ≠ 255) ∧
    (∃ c, (srs [(8, 2 ^ 28 - 1)] room).ctx = some c ∧ SReadable c [8, 4, 5] ∧ (c.sOf 8).toNat < 2 ^ 28) ∧
    (∃ c, room.ctx = some c ∧ SReadable c ((List.range 16).map (112 + ·))) ∧
    (∃ c, room.ctx = some c ∧ SReadable c (srcS q4 ++ srcS (sr 2)) ∧
      spaceCheck c .sp 128 128 (c.regs.operand (sr 2) 0 32) = none ∧ ((c.sOf 6).toNat + (c.sOf 7).toNat * 2 ^ 32) % 128 = 0 ∧
      mcOk (room.mcHeader (fld (c.sOf 4).toNat 0 12)) c.grid.part = false) ∧
    ∃ c, group1.ctx = some c ∧ spaceCheck c .sp 128 128 (c.regs.operand (sr 2) 0 32) = none ∧
      mcOk (group1.mcHeader (fld (c.sOf 4).toNat 0 12)) c.grid.part = true ∧
      group1.side = [] ∧ Side.fresh.symErr = 0 ∧
      (group1.devReach c.die c.grid.part (mcList (group1.mcHeader 0)) (8 * mcCount (group1.mcHeader 0)) false .device
        { group1.groupRec 0 c.g with flags := group1.privFlag c.g, iaddr := c.iaddr }).1 = .pa 0x401000 := by
  repeat' first | decide +kernel | exact meets (by decide +kernel) | apply And.intro
/-- Batch 3 failed; batch 2 is not complete. -/
def batches (done : Bool) : State := setG (fun g => { g with
  batch := 3, closed := 3, batches := [⟨1, 3, .dev, true, true, true⟩, ⟨2, 2, .dev, false, true, done⟩] }) room
abbrev Due (c : Ctx) (all : Bool) (n : Nat) : Prop := ∀ b ∈ c.grp.batches, b.closed = true →
  b.done = true ∨ (all = false ∧ 2 ^ 15 ≤ (n + 2 ^ 16 - b.num) % 2 ^ 16)
theorem test_meets_BatchesCloseAndAreAwaited :
    (∃ c, room.ctx = some c ∧ c.run.cursor ≠ some 32 ∧ (c.grp.batches.filter fun b => !b.closed).length ≤ 1 ∧
      ∀ e ∈ c.grp.split, e.2.wait = .none) ∧
    (∃ c, (batches true).ctx = some c ∧ c.seated ∧ c.run.cursor ≠ some 32 ∧ Due c true c.grp.batch) ∧
    (∃ c, (batches true).ctx = some c ∧ c.seated ∧ SReadable c [4] ∧ Due c false 0) ∧
    ∃ c, (batches false).ctx = some c ∧ c.seated ∧ ¬ Due c true c.grp.batch := by
  repeat' first | decide +kernel | exact meets (by decide +kernel) | apply And.intro
/-- Window 3 counts 7 bytes; WCNT's registers name it and a target. -/
def counted (tgt : Nat) : State :=
  let s := win (srs [(0, 3), (1, tgt)] room)
  { s with mem := wrBytes s.mem 0x9000DC (leBytes 4 7) }
abbrev Met (s : State) (c : Ctx) : Prop := winValid (s.winEntry c.die ((c.sOf 0).toNat % 2 ^ 16)) c.grid.part = true ∧
  (s.winCount ((c.sOf 0).toNat % 2 ^ 16) false + 2 ^ 32 - (c.sOf 1).toNat) % 2 ^ 32 < 2 ^ 31
/-- The group has stored, and the store has not performed. -/
def storing : State :=
  setG (fun g => { g with memq := [mrec 0 .store .global .weak ⟨0, 0, 64, [1, 2, 3, 4], .pend⟩] }) { room with nextId := 9 }
theorem test_meets_CountersAreReadAndChanged :
    (∃ c, room.ctx = some c ∧ c.run.cursor ≠ some 32 ∧ room.released c.g room.nextId .dev = true) ∧
    (∃ c, storing.ctx = some c ∧ c.run.cursor ≠ some 32 ∧ storing.released c.g storing.nextId .dev = false) ∧
    (∃ c, (counted 7).ctx = some c ∧ c.seated ∧ c.run.cursor ≠ some 32 ∧ SReadable c [0, 1] ∧ Met (counted 7) c) ∧
    ∃ c, (counted 8).ctx = some c ∧ c.seated ∧ c.run.cursor ≠ some 32 ∧ SReadable c [0, 1] ∧ ¬ Met (counted 8) c := by
  repeat' first | decide +kernel | exact meets (by decide +kernel) | apply And.intro
/-- An arrival has come to the barrier's home, after the release that it names. -/
def arrival (rel : Option Nat) (s : State) : State := barMsg rel s
theorem test_meets_BarriersCountAndComplete :
    (4094 + 1 < 4096) ∧
    (∃ f, (arrival none room).net[(arrival none room).pick]? = some f ∧
      f.msg = .bar 0 2 (.arrive 1 false) (some 0) (some 4) none ∧ ((arrival none room).barrier 0 2).isSome = true ∧
      (arrival none room).barReady (arrival none room).pick 0 2 (some 0) none = true) ∧
    ∃ b, (arrival (some 5) storing).barrier 0 2 = some b ∧ storing.released 0 5 (barScope b) = false ∧
      (arrival (some 5) storing).net[(arrival (some 5) storing).pick]?.isSome = true := by
  repeat' first | decide +kernel | exact holds (by decide +kernel) | apply And.intro
abbrev HomeIs (s : State) (c : Ctx) (sc : Bool) (p : Nat → Barrier → Prop) [∀ h b, Decidable (p h b)] : Prop :=
  ((s.barHome c sc).any fun h => (s.barrier h 2).any fun b => decide (p h b)) = true
/-- The team's barrier 2 expects n arrivals. -/
def bar2 (n : Nat) : State := setT (fun t => { t with bars := [(2, newBarrier n)] }) room
/-- The team is member 1 of its cluster; member 0 is team 1. -/
def member1 : State := setT (fun t => { t with member := 1 }) { room with
  teams := room.teams ++ room.teams.map fun t => (1, { t.2 with member := 0 }) }
theorem test_meets_BarrierInstructions :
    (∃ c, member1.ctx = some c ∧ member1.barHome c false = some c.grp.team ∧ member1.barHome c true = some 1) ∧
    (∀ n ∈ [4095, 4096], ∃ c, (bar2 n).ctx = some c ∧ c.seated ∧ c.run.cursor ≠ some 32 ∧
      HomeIs (bar2 n) c false fun h b => (bar2 n).barDirect c h 2 = true ∧ b.arra + 4095 < 4096 ∧
        ((b.event 0 (.arrive 4095 false)).phase = b.phase ↔ n = 4096)) ∧
    (∃ c, member1.ctx = some c ∧ c.run.cursor ≠ some 32 ∧ c.t < 24576 ∧
      HomeIs member1 c true fun h _ => member1.barDirect c h 2 = false) ∧
    (∀ x ∈ [0, 1], ∃ c, (srs [(4, x)] (bar2 1)).ctx = some c ∧ c.seated ∧ SReadable c [4] ∧
      HomeIs (srs [(4, x)] (bar2 1)) c false fun _ b => b.phase = (c.sOf 4).getLsbD 0 ↔ x = 0) ∧
    ∃ c, (arrival none room).ctx = some c ∧ c.t < 24576 ∧ (arrival none room).barPending c.g 0 2 = true := by
  repeat' first | decide +kernel | exact meets (by decide +kernel) | (intro _ h; fin_cases h) | apply And.intro
/-- The handle of zone 0 in s4 and s5. -/
def handle (st : SlotSt) : State := srs [(4, zone.w0.toNat), (5, zone.gen.toNat)] (slot st room)
abbrev Own (s : State) (c : Ctx) (p : Nat → Zone → Nat → Slot → Bool) : Prop :=
  ((s.ownZone c (c.sOf 4).toNat (c.sOf 5).toNat).any fun z => (s.zoneSlot c.core z.1 z.2 0).any fun x =>
    p z.1 z.2 x.1 x.2) = true
theorem test_meets_LandingZoneInstructions :
    (∃ c, room.ctx = some c ∧ c.run.cursor ≠ some 32 ∧ room.zoneFits c 0 65536 = true ∧ room.zoneFits c 256 65536 = false ∧
      (room.core c.core).freeZone = some 0 ∧ (room.core c.core).freeRun 256 = some 0) ∧
    (∃ c, (setC (fun k => { k with zones := (List.range 16).map fun i => (i, zone) }) room).ctx = some c ∧
      ((setC (fun k => { k with zones := (List.range 16).map fun i => (i, zone) }) room).core c.core).freeZone = none) ∧
    (∃ c, (setC (fun k => { k with slots := [(255, ⟨5, .free, 0, 0, 0, false, 0⟩)] }) room).ctx = some c ∧
      ((setC (fun k => { k with slots := [(255, ⟨5, .free, 0, 0, 0, false, 0⟩)] }) room).core c.core).freeRun 256 = none) ∧
    (∃ c, (handle .filling).ctx = some c ∧ SReadable c [4, 5] ∧ rising ((handle .filling).core c.core).slots = true ∧
      Own (handle .filling) c fun zn z i sl => find zn ((handle .filling).core c.core).zones = some z &&
        (find i ((handle .filling).core c.core).slots = some sl && sl.zone = zn) && SlotSt.isOpen sl.st) ∧
    (∀ st ∈ [SlotSt.full, .failed, .cancelled, .free, .reserved, .filling], ∃ c, (handle st).ctx = some c ∧
      SReadable c [4, 5] ∧ look 0 1 c.grp.sb ≠ 255 ∧ Own (handle st) c fun _ z _ sl => z.closing = none && sl.st = st) ∧
    ∃ c, (slot .full room).ctx = some c ∧ SReadable c [4, 5] ∧
      (slot .full room).ownZone c (c.sOf 4).toNat (c.sOf 5).toNat = none := by
  repeat' first | decide +kernel | exact meets (by decide +kernel) | (intro _ h; fin_cases h) | apply And.intro
/-- A team of six groups; a list of members in s0 and s1. -/
def sixGroups (p : Nat) : State := setL (160 * 2 ^ 304) (srs [(0, p % 2 ^ 32), (1, p / 2 ^ 32)] room)
/-- The conditions of R361 on a list of members. -/
abbrev GoodGang (p n own : Nat) : Prop := 1 ≤ p / 2 ^ 36 % 8 ∧ p / 2 ^ 36 % 8 ≤ 5 ∧
  (∀ i ∈ List.range (p / 2 ^ 36 % 8 + 1), p / 2 ^ (6 * i) % 64 < n) ∧
  ((List.range (p / 2 ^ 36 % 8 + 1)).map fun i => p / 2 ^ (6 * i) % 64).Nodup ∧
  p % 2 ^ 36 / 2 ^ (6 * (p / 2 ^ 36 % 8 + 1)) = 0 ∧ p / 2 ^ 50 = 0 ∧
  ∃ i ∈ List.range (p / 2 ^ 36 % 8 + 1), p / 2 ^ (6 * i) % 64 = own
theorem test_meets_GangsAndDescriptors :
    (∀ p ∈ [5 * 64 + 2 ^ 36, 1 + 2 * 64 + 3 * 64 ^ 2 + 4 * 64 ^ 3 + 5 * 64 ^ 4 + 5 * 2 ^ 36], ∃ c,
      (sixGroups p).ctx = some c ∧ c.run.cursor ≠ some 32 ∧ SReadable c [0, 1] ∧
      GoodGang ((c.sOf 0).toNat + (c.sOf 1).toNat * 2 ^ 32) c.grid.ngroups c.grp.idx) ∧
    (∀ p ∈ [6 * 64 + 2 ^ 36, 2 ^ 36, 5 * 64], ∃ c, (sixGroups p).ctx = some c ∧ SReadable c [0, 1] ∧
      ¬ GoodGang ((c.sOf 0).toNat + (c.sOf 1).toNat * 2 ^ 32) c.grid.ngroups c.grp.idx) ∧
    ∀ x ∈ [9, 3], ∃ c, (srs [(0, x)] room).ctx = some c ∧ c.run.cursor ≠ some 32 ∧
      SReadable c ((List.range 8).map (0 + ·)) ∧
      (descOk (BitVec.ofNat 256 (c.regs.value ((List.range 8).map fun i => (Bank.s, 0 + i)))) = true ↔ x = 9) := by
  repeat' first | decide +kernel | exact meets (by decide +kernel) | (intro _ h; fin_cases h) | apply And.intro
/-- Formats of both sides are binary16, the row pitch 192 bytes. -/
def formats : State := setG (fun g => { g with f := [(0, 0x80000009), (1, 0x80000009)] }) room
def fx : FmtX := ⟨false, 7, false, 0, 1, 4, 5, 2, 3, 0⟩
theorem test_meets_MatrixInstructionsHandOver :
    (∃ c, formats.ctx = some c ∧ c.lanes ≠ [] ∧ SReadable c [4, 5, 6, 7] ∧
      (∀ l ∈ c.lanes, Readable c.regs [(Bank.v, vkey 4 l), (Bank.v, vkey 5 l)]) ∧ jointCheck fx true c c.regs = none ∧
      ∀ l ∈ c.lanes, rowCheck fx c c.regs l = none) ∧
    (∃ c, formats.ctx = some c ∧ c.lanes ≠ [] ∧ SReadable c [126, 127] ∧ (c.sOf 127).toNat % 64 = 0) ∧
    (∃ c, formats.ctx = some c ∧ SReadable c [0, 1, 2, 3] ∧ ((c.sOf 0).toNat + (c.sOf 1).toNat * 2 ^ 32) % 64 = 0 ∧
      (c.sOf 0).toNat + (c.sOf 1).toNat * 2 ^ 32 < 2 ^ 57 ∧ (c.sOf 3).toNat < 2 ^ 16) ∧
    (∃ c, formats.ctx = some c ∧ SReadable c [4] ∧ (c.sOf 4).toNat % 16 = 0 ∧ (c.sOf 4).toNat + 31 * 256 + 256 ≤ c.team.size ∧
      look 0 7 c.grp.sb ≠ 255) ∧
    (∃ c, formats.ctx = some c ∧ ∀ l ∈ c.lanes, Readable c.regs ((List.range 4).map fun j => (Bank.v, vkey (252 + j) l))) ∧
    ∃ c, formats.ctx = some c ∧ SReadable c [4, 5] ∧ (c.sOf 4).toNat % 4 = 0 ∧ (c.sOf 4).toNat + 4 * 64 ≤ c.team.size ∧
      (c.sOf 5).toNat % 4 = 0 ∧ (c.sOf 5).toNat + 4 * 64 ≤ c.team.size := by
  repeat' first | decide +kernel | exact meets (by decide +kernel) | apply And.intro
theorem test_meets_SystemRegisters :
    (∃ c, (inHandler room).ctx = some c ∧ (inHandler room).privileged c.grp = true ∧ c.run.cursor ≠ some 32 ∧
      SReadable c [127]) ∧
    (∃ c, (inHandler (srs [(0, 44), (1, 45)] room)).ctx = some c ∧ (c.sOf 0).toNat % 256 ∈ [0, 8, 16, 24, 32, 40, 44] ∧
      (c.sOf 1).toNat % 256 ∉ [0, 8, 16, 24, 32, 40, 44] ∧
      (inHandler (srs [(0, 44), (1, 45)] room)).fqReady = true) ∧
    (∃ s : State, s.ctx.isSome = true ∧ s.sys.snapctl.getLsbD 0 = true ∧ s.sys.snapctl.getLsbD 1 = true) ∧
    ∃ s : State, s.ctx.isSome = true ∧ s.sys.snapctl.getLsbD 0 = false :=
  ⟨meets (by decide +kernel), meets (by decide +kernel), ⟨setY (fun y => { y with snapctl := 3 }) room, by decide +kernel⟩,
    ⟨room, by decide +kernel⟩⟩
def later (n : Nat) (s : State) : State := { s with now := n }
/-- An invalidation that waits for a walk of die 0, or for a package of the island. -/
def tlbiOf (acks : List Nat) (s : State) : State :=
  { s with tlbis := [⟨0, 0, none, none, .group 0 1, [(0, ⟨0, 0x201000, false, []⟩)], acks, 0⟩] }
theorem test_meets_TranslationsAreInvalidated :
    (∃ c, (inHandler room).ctx = some c ∧ (inHandler room).privileged c.grp = true ∧ c.run.cursor ≠ some 32 ∧
      SReadable c [126, 127] ∧ look 0 7 c.grp.sb ≠ 255) ∧
    (∃ x, (tlbiOf [] room).tlbis[(tlbiOf [] room).pick]? = some x ∧ x.fin = .group 0 1 ∧ x.acks = [] ∧
      (∀ w ∈ x.walks, ∀ y ∈ ((tlbiOf [] room).die w.1).walks, ¬ (y.part = w.2.part ∧ y.va = w.2.va)) ∧
      ((room.group 0).map (·.resid)) = some .bound) ∧
    (∃ x, (tlbiOf [9] room).tlbis[(tlbiOf [9] room).pick]? = some x ∧ x.acks ≠ [] ∧
      (tlbiOf [9] room).now < x.sent + maxAge) ∧
    (∃ x, (later maxAge (tlbiOf [9] room)).tlbis[(tlbiOf [9] room).pick]? = some x ∧ x.acks ≠ [] ∧
      x.sent + maxAge ≤ (later maxAge (tlbiOf [9] room)).now) ∧
    ∃ x, (tlbiOf [] (walk 0x201000 .device room)).tlbis[(tlbiOf [] (walk 0x201000 .device room)).pick]? = some x ∧
      ∃ w ∈ x.walks, ∃ y ∈ ((tlbiOf [] (walk 0x201000 .device room)).die w.1).walks, y.part = w.2.part ∧ y.va = w.2.va := by
  repeat' first | decide +kernel | exact meets (by decide +kernel) | exact holds (by decide +kernel) | apply And.intro

/-- The access of a record at the group's queue. -/
abbrev Acc (s : State) (p : AccCtx → Prop) [DecidablePred p] : Prop := ∃ c, s.accCtx 0 5 0 = some c ∧ c.grp.resid = .bound ∧ p c
theorem test_meets_MemoryAccessesPerform :
    (∀ k ∈ [MemKind.store, .load .plain], Acc (memr k .scratch .weak few) fun c =>
      (memr k .scratch .weak few).allowed c = true ∧ c.r.kind = k ∧ c.r.space = .scratch ∧
      ((memr k .scratch .weak few).core c.core).fifoTouch (c.team.base + c.a.addr) c.r.size = false) ∧
    Acc (wtb 0x400000 (memr .store .scratch .release few)) (fun c => c.r.order = .release ∧
      (wtb 0x400000 (memr .store .scratch .release few)).released 0 c.r.id c.r.scope = false) ∧
    Acc (setG (fun g => { g with memq := mrec 4 .store .scratch .weak ⟨0, 0, 67, [1, 2, 3, 4], .pend⟩ :: g.memq })
      (memr .store .scratch .weak few)) (fun c => ∃ q ∈ c.grp.memq, ∃ x ∈ q.lanes, q.id < c.r.id ∧ x.st ≠ .done ∧
        q.space = c.r.space ∧ overlap x.addr q.size c.a.addr c.r.size = true) ∧
    Acc (memr .store .global .weak few) (fun c => (memr .store .global .weak few).allowed c = true ∧ c.r.space = .global ∧
      ((memr .store .global .weak few).reach c.core c.part c.a.addr true c.waiter
        ((memr .store .global .weak few).accRec c)).1 = .ok 0x400040 ∧
      ((memr .store .global .weak few).core c.core).wtRoom 0x400040 = true) ∧
    Acc (memr (.fence .acq) .scratch .weak few) (fun c => (memr (.fence .acq) .scratch .weak few).allowed c = true ∧
      c.r.kind = .fence .acq) ∧
    Acc (memr (.dep .add 3 5) .global .weak few) fun c => (memr (.dep .add 3 5) .global .weak few).allowed c = true ∧
      c.r.kind = .dep .add 3 5 := by
  repeat' first | decide +kernel | exact holds (by decide +kernel) | (intro _ h; fin_cases h) | apply And.intro
/-- A record at FIFO bank 0, with what it performs there. -/
abbrev AtBank (k : MemKind) (n : Nat) (p : AccCtx → List (Nat × LaneAcc) → Bool) : Prop :=
  ((fifo k n few).core 0).fifoq.filter (fun x => x.bank == 0) = [⟨0, 0, 5⟩] ∧
  (find 0 ((fifo k n few).core 0).fifo).map (·.count) = some n ∧
  ((fifo k n few).bankAccs 0 ⟨0, 0, 5⟩).any (fun x => x.1.r.kind == k && x.1.grp.resid == .bound && p x.1 x.2) = true
/-- The same record at a bank that is not in FIFO mode. -/
def noFifo (k : MemKind) : State := setC (fun q => { q with fifo := [] }) (fifo k 0 few)
theorem test_meets_BuffersAndFifosDrain :
    (∃ w, ((wtb (2 ^ 48 + 16) few).core 0).drainable 0 = some w ∧ (wtb (2 ^ 48 + 16) few).drainWhole 0 (w.pa / 128) = none ∧
      w.pa / 2 ^ 48 = 1 ∧ few.devStores = [] ∧ ∀ x ∈ ((wtb (2 ^ 48 + 16) few).core 0).wtb.filter w.sameLane,
        x.pa / 2 ^ 48 = 1 ∧ x.pa % 2 ^ 48 + x.data.length ≤ 2 ^ 48) ∧
    (∃ w, ((wtb 0x400010 (held 32768 256 true 0 few)).core 0).drainable 0 = some w ∧
      (wtb 0x400010 (held 32768 256 true 0 few)).drainWhole 0 (w.pa / 128) = none ∧ w.pa / 2 ^ 48 ≠ 1 ∧
      (wtb 0x400010 (held 32768 256 true 0 few)).tokenLine (w.pa / 128) = true ∧
      ((wtb 0x400010 (held 32768 256 true 0 few)).ent (dieOf 0) (w.pa / 128)).map (fun e => (e.count, e.valid)) =
        some (256, true) ∧
      ∀ x ∈ ((wtb 0x400010 (held 32768 256 true 0 few)).core 0).wtb.filter w.sameLane, x.pa / 128 = w.pa / 128) ∧
    (∃ w, ((wtb 0x400010 (held 32768 255 true 0 few)).core 0).drainable 0 = some w ∧
      (wtb 0x400010 (held 32768 255 true 0 few)).drainWhole 0 (w.pa / 128) = none ∧
      (wtb 0x400010 (held 32768 255 true 0 few)).canWrite (dieOf 0) (w.pa / 128) = false ∧
      (wtb 0x400010 (held 32768 255 true 0 few)).homeErr (dieOf 0) (w.pa / 128) = none) ∧
    (few.core 0).drainable 0 = none ∧ ({ few with hostPosted := [(0, 5)] } : State).hostPosted ≠ [] ∧
    AtBank .pushOn 0 (fun _ _ => true) ∧ AtBank .popOff 1 (fun _ _ => true) ∧ AtBank .popCount 1 (fun _ _ => true) ∧
    AtBank .push 16383 (fun c l => decide (16383 + l.length * (c.r.size / 4) ≤ 16384)) ∧
    AtBank .push 16384 (fun c l => decide (16384 < 16384 + l.length * (c.r.size / 4))) ∧
    AtBank .pop 1 (fun c l => decide (l.length * (c.r.size / 4) ≤ 1) && c.r.size == 4 && l.length == 1) ∧
    AtBank .pop 0 (fun c l => decide (0 < l.length * (c.r.size / 4))) ∧
    ∀ k ∈ [MemKind.popOff, .popCount], find 0 ((noFifo k).core 0).fifo = none ∧
      ((noFifo k).core 0).fifoq.filter (fun x => x.bank == 0) = [⟨0, 0, 5⟩] ∧
      ((noFifo k).bankAccs 0 ⟨0, 0, 5⟩).any (fun x => x.1.r.kind == k && x.1.grp.resid == .bound && x.2.length == 1) = true := by
  repeat' first | decide +kernel | exact holds (by decide +kernel) | apply And.intro
theorem test_meets_ClausesAreChosenAndValidated :
    ((noRun few).track (noRun few).pick).run = none ∧ ((noRun few).track (noRun few).pick).slots ≠ [] ∧
    (few.track few.pick).run ≠ none ∧
    (chooseFrag 0 [⟨0, 0, 0, 63, 0, false⟩, ⟨2, 2, 3, 64, 3, false⟩]).map (·.age) = some 64 ∧
    (chooseFrag 0 [⟨1, 1, 0, 3, 1, true⟩, ⟨2, 2, 0, 0, 1, true⟩]).map (·.slot) = some 1 ∧
    ((clause few).toFetch (clause few).pick).isSome = true := by decide +kernel
/-- A page table entry that names no table (R341), for the page at VA 0x205000. -/
def badEntry (s : State) : State := { s with mem := tables ++ pteBytes 0x203028 0x21 }
abbrev Walks (s : State) (p : Walk → Prop) [DecidablePred p] : Prop := ∃ w, (s.die 0).walks[0]? = some w ∧ p w
/-- A load of the group waits for a walk. -/
def loading (va : Nat) : State := walk va (.acc 0 5 0) (memr (.load .plain) .global .weak few)
/-- The lines of the tables on the way to a page are at hand and without error. -/
abbrev AtHand (s : State) (w : Walk) : Prop := ∀ l ∈ s.tableLines w.part w.va,
  s.unseen l = false ∧ s.lost l = false ∧ (s.sideOf l).symErr = 0
/-- An access of page 0x200000 parked under record 3, of a load or of a copy. -/
def parkedFor (x : Waiter) (s : State) : State := setD (fun d => { d with parked := [⟨0, 0x200000, false, x, some 3, 0x18⟩] }) s
theorem test_meets_TranslationsAreAnswered :
    Walks (walk 0x1000 .device few) (fun w => AtHand (walk 0x1000 .device few) w ∧ w.waiters ≠ [] ∧
      (∀ x ∈ w.waiters, x.1 = .device) ∧
      (match (walk 0x1000 .device few).walk w.part w.va with
        | .leaf .. => true
        | _ => false) = true) ∧
    Walks (loading 0x300000) (fun w => AtHand (loading 0x300000) w ∧ (loading 0x300000).walk w.part w.va = .notPresent ∧
      w.waiters = [(.acc 0 5 0, false, 0x300000)] ∧
      ((loading 0x300000).accCtx 0 5 0).any (fun c => !c.r.kind.quiet && c.a.st != .done) = true ∧
      ((loading 0x300000).die 0).parked.length + ((loading 0x300000).die 0).replays.length < 8192) ∧
    Walks (walk 0x300000 .device few) (fun w => AtHand (walk 0x300000 .device few) w ∧
      (walk 0x300000 .device few).walk w.part w.va = .notPresent ∧ w.waiters = [(.device, false, 0x300000)]) ∧
    Walks (badEntry (loading 0x205000)) (fun w => AtHand (badEntry (loading 0x205000)) w ∧
      (match (badEntry (loading 0x205000)).walk w.part w.va with
        | .region _ => true
        | .tableErr => true
        | _ => false) = true ∧ w.waiters.map (·.1) = [.acc 0 5 0] ∧
      ((badEntry (loading 0x205000)).accCtx 0 5 0).any (fun c =>
        c.grp.resid == .bound && c.a.st != .done && !c.r.kind.quiet && c.r.dst.isSome) = true) ∧
    (∃ q, ({ few with atsPending := [⟨7, 16, .device⟩] } : State).atsPending[0]? = some q ∧ q.waiter = .device) ∧
    (∀ w ∈ (wtb (2 ^ 48 + 0x5000) few).cores.flatMap (fun k => k.2.wtb), w.pa / 2 ^ 48 = 1 ∧ some 6 ≠ some (w.pa % 2 ^ 48 / 4096)) := by
  repeat' first | decide +kernel | exact holds (by decide +kernel) | apply And.intro
theorem test_meets_TranslationsAreAnswered_doorbells :
    few.boot.ready = true ∧ (3#32).getLsbD 31 = false ∧ (0x80000003#32).getLsbD 31 = true ∧ few.devBusy = false ∧
    (({ few with devStores := [(0x700000, [(1, 0)])] } : State).setSreq (few.devDie 57344) 57344 ⟨true, .transient, 0, []⟩).devBusy = true ∧
    (∀ d ∈ List.range 8, ∀ p ∈ (few.die d).parked, p.named 3 = false) ∧
    (∀ s ∈ [parked few, noRun (parked few)], s.devBusy = false ∧
      ((s.die 0).parked.filter fun p => p.named 3).map (·.waiter) = [.fetch 0 0] ∧
      ((s.group 0).bind fun x => (find 0 x.split).map fun f => (x.resid, f.wait)) = some (.bound, .fetch)) ∧
    (let s := parkedFor (.acc 0 5 0) (memr (.load .plain) .global .weak few);
      s.devBusy = false ∧ ((s.die 0).parked.filter fun p => p.named 3).map (·.waiter) = [.acc 0 5 0] ∧
      (s.accCtx 0 5 0).any (fun c => c.a.st != .done) = true) ∧
    let s := parkedFor (.copy 0 0 6) (op (crec .cpy [⟨0x200000, 0, 4, 0, 0, 0⟩]) few);
    s.devBusy = false ∧ ((s.die 0).parked.filter fun p => p.named 3).map (·.waiter) = [.copy 0 0 6] ∧
      (s.copyWait 0 6).isSome = true := by decide +kernel
/-- A check of what `State.delivers` says. -/
def comes (s : State) (d src : Nat) (m : Msg) : Bool :=
  s.net[s.pick]?.any fun f => f.msg = m && f.src = src &&
    (match f.dest with
      | .die i => s.ownDie i = some d
      | _ => false) && decide (Flight.age f s.now < maxAge) && look 0 src (s.die d).known = f.inc && !(s.die d).failed &&
    (Msg.tokens m = 0 || (s.die d).upUntil = none)
theorem delivers_of_comes {s : State} {d src : Nat} {m : Msg} (h : comes s d src m = true) : s.delivers d src m := by
  unfold comes at h
  cases hf : s.net[s.pick]? with
  | none => simp [hf] at h
  | some f =>
    simp only [hf, Option.any_some, Bool.and_eq_true, decide_eq_true_eq, Bool.or_eq_true, Bool.not_eq_true'] at h
    obtain ⟨⟨⟨⟨⟨⟨h1, h2⟩, h3⟩, h4⟩, h5⟩, h6⟩, h7⟩ := h
    cases hd : f.dest with
    | die i =>
      simp only [hd, decide_eq_true_eq] at h3
      exact ⟨f, i, hf, h1, h2, hd, h3, h4, h5, h6, h7⟩
    | pkg _ => simp [hd] at h3
    | node _ => simp [hd] at h3
/-- A message from island die 3 has come to die 0. -/
def from3 (m : Msg) (s : State) : State := { s with net := [⟨m, 3, 0, .die 0, 0, 0, false⟩] }
abbrev ln : Nat := 32768
def l0 : Line := bytesLine (leBytes 128 77)
def home0 (f : Home → Home) (s : State) : State := setD (fun d => { d with home := f d.home }) s
abbrev Quiet (s : State) : Prop := (s.die 0).home.active = none ∧ (s.die 0).home.recount ln = none ∧
  (s.die 0).home.blocks ln = false ∧ (s.die 0).home.movedLine s.now ln = none ∧ (s.sideOf ln).symErr = 0
abbrev Holds (s : State) (n : Nat) (crown : Bool) : Prop :=
  s.activeAt 0 ln = none ∧ (s.ent 0 ln).map (fun e => (e.count, e.crown)) = some (n, crown)
/-- Tokens of a line whose home is poisoned, or down. -/
def poisonedHome (s : State) : State := s.setSide ln { s.sideOf ln with poison := true }
theorem test_meets_TokensMoveBetweenHolders :
    few.ownDie 3 = some 3 ∧
    ((setD (fun d => { d with down := [0] }) few).lineHome ln = some 0 ∧
      (from3 (.getx ln .slice) (setD (fun d => { d with down := [0] }) few)).delivers 0 3 (.getx ln .slice)) ∧
    (∀ n ∈ [(1, true), (2, true), (5, false)], Holds (from3 (.gets ln .slice) (held ln n.1 n.2 77 few)) n.1 n.2 ∧
      (from3 (.gets ln .slice) (held ln n.1 n.2 77 few)).delivers 0 3 (.gets ln .slice)) ∧
    (Holds (from3 (.getx ln .slice) (held ln 255 true 77 few)) 255 true ∧
      (from3 (.getx ln .slice) (held ln 255 true 77 few)).delivers 0 3 (.getx ln .slice)) ∧
    (∀ n ∈ [(5, true), (254, false), (255, false)],
      let s := from3 (.gets ln .home) (held ln n.1 n.2 77 few)
      Quiet s ∧ (s.sideOf ln).count = 256 - n.1 ∧ (s.sideOf ln).crown = !n.2 ∧ s.delivers 0 3 (.gets ln .home)) ∧
    (let s := from3 (.getx ln .home) (held ln 5 false 77 few)
     Quiet s ∧ (s.sideOf ln).count ≠ 0 ∧ (s.sideOf ln).poison = false ∧ s.delivers 0 3 (.getx ln .home)) ∧
    (let s := from3 (.getx ln .home) (poisonedHome (held ln 5 false 77 few))
     Quiet s ∧ (s.sideOf ln).crown = true ∧ (s.sideOf ln).poison = true ∧ s.delivers 0 3 (.getx ln .home)) ∧
    (let s := from3 (.tok ln ⟨3, false, 1, none, false⟩) (held ln 5 false 77 few)
     s.delivers 0 3 (.tok ln ⟨3, false, 1, none, false⟩) ∧ s.staleFor 0 ln 1 = true) ∧
    (let s := from3 (.tok ln ⟨2, true, 0, some l0, true⟩) (held ln 5 false 77 few)
     s.delivers 0 3 (.tok ln ⟨2, true, 0, some l0, true⟩) ∧ s.staleFor 0 ln 0 = false ∧ Holds s 5 false ∧
       s.sreq 0 ln = none) ∧
    (let s := from3 (.putt ln ⟨2, true, 0, some l0, true⟩) (held ln 5 true 77 few)
     s.delivers 0 3 (.putt ln ⟨2, true, 0, some l0, true⟩) ∧ (s.sideOf ln).serial = 0 ∧ (s.sideOf ln).symErr = 0 ∧
       (s.die 0).home.activeFor ln = none) ∧
    let s := from3 (.gets ln .both) (setD (fun d => { d with known := put 0 3 2 d.known }) few)
    ∃ f, s.net[s.pick]? = some f ∧ f.dest = .die 0 ∧ s.ownDie 0 = some 0 ∧ Flight.age f s.now < maxAge ∧
      (s.die 0).failed = false ∧ look 0 f.src (s.die 0).known ≠ f.inc := by
  repeat' first
    | decide +kernel
    | exact delivers_of_comes (by decide +kernel)
    | exact holds (by decide +kernel)
    | (intro _ h; fin_cases h)
    | apply And.intro
def asks (ph : RPhase) (s : State) : State := s.setSreq 0 ln ⟨true, ph, 0, [(.device, true)]⟩
def active (r : Bool) (s : State) : State := home0 (fun h => { h with active := some ⟨⟨3, 6, true, ln⟩, 1, 0, false, r⟩ }) s
/-- The table entry of the line's slice for its home. -/
def entered (on : Bool) (seq : BitVec 16) (s : State) : State :=
  s.setPent 0 (sliceOf ln) ((s.lineHome ln).getD 0) ⟨on, 0, 0, true, ln, 1, seq, some seq, false⟩
abbrev NoTurn (s : State) : Prop := (s.die 0).home.turn = [] ∧ (s.die 0).home.handed = [] ∧ (s.die 0).home.pending = []
theorem test_meets_PersistentRequestsAreServed :
    (∃ r, (later 400 (asks .transient few)).sreq 0 ln = some r ∧ r.since + 400 ≤ (later 400 (asks .transient few)).now ∧
      (later 400 (asks .transient few)).silent 0 = false ∧ few.revokes ln = false ∧ r.phase = .transient ∧
      few.tokenLine ln = true) ∧
    (∃ r, (later 400 (asks .reissued few)).sreq 0 ln = some r ∧ r.phase = .reissued ∧
      (∀ e ∈ (later 400 (asks .reissued few)).sameHome 0 ln, e.2.phase ≠ .persistent) ∧ few.lineHome ln = some 0 ∧
      (few.ownDie 0).isSome = true) ∧
    (∃ e ∈ (State.setSreq (later 400 (asks .reissued few)) 0 (ln + 65536) ⟨true, .persistent, 0, []⟩).sameHome 0 ln,
      e.2.phase = .persistent) ∧
    (let s := from3 (.preq ln true 6) (setD (fun d => { d with down := [3] }) few)
     s.delivers 0 3 (.preq ln true 6) ∧ 3 ∈ (s.die 0).down) ∧
    (let s := from3 (.preq ln true 6) (active false few)
     s.delivers 0 3 (.preq ln true 6) ∧ (s.die 0).home.blocks ln = false ∧ (s.die 0).home.movedLine s.now ln = none ∧
       3 ∉ (s.die 0).down ∧ (s.die 0).home.active.isSome = true) ∧
    (let s := from3 (.preq ln true 6) few
     s.delivers 0 3 (.preq ln true 6) ∧ (s.die 0).home.blocks ln = false ∧ (s.die 0).home.movedLine s.now ln = none ∧
       3 ∉ (s.die 0).down ∧ (s.die 0).home.active = none ∧ NoTurn s ∧ (s.sideOf ln).bad = false) ∧
    (∀ x ∈ [(1#16), 0#16], let s := from3 (.pact ln 3 6 true 1 1) (entered false x (held ln 5 true 77 few))
     s.delivers 0 3 (.pact ln 3 6 true 1 1) ∧ s.lineHome ln = some 0 ∧
       (s.pent 0 (sliceOf ln) 0).last.map (newer 1) = some (decide (x = 0)) ∧ (s.ent 0 ln).isSome = true ∧
       s.sreq 0 ln = none) ∧
    (∀ x ∈ [(1#16), 2#16], let s := from3 (.pdone ln x) (active false few)
     s.delivers 0 3 (.pdone ln x) ∧ (s.die 0).home.active.map (·.seq) = some 1 ∧ NoTurn s) ∧
    (∀ x ∈ [(1#16), 2#16], let s := from3 (.pdeact ln 1) (entered true x few)
     s.delivers 0 3 (.pdeact ln 1) ∧ s.lineHome ln = some 0 ∧ newer x 1 = decide (x = 2)) ∧
    ∀ n ∈ [4999, 5000], ((later n (active false few)).die (later n (active false few)).pick).home.active.map
      (fun a => (a.recounting, decide (a.since + 5000 ≤ n))) = some (false, decide (n = 5000)) := by
  repeat' first | decide +kernel | exact holds (by decide +kernel) | exact delivers_of_comes (by decide +kernel) | (intro _ h; fin_cases h) | apply And.intro
def recountsOf (line : Nat) (l : List Nat) (s : State) : State := home0 (fun h => { h with recounts := [⟨line, 0, l, 0⟩] }) s
abbrev recounts (l : List Nat) (s : State) : State := recountsOf ln l s
/-- A message from a die of another package. -/
def fromDie (src : Nat) (m : Msg) (s : State) : State := { s with net := [⟨m, src, 0, .die 0, 0, 0, false⟩] }
/-- An answer that brings the crown and dirty data, and the recount of a request of die 3 that it belongs to. -/
def answer : TokPay := ⟨5, true, 0, some l0, true⟩
def asked (l : List Nat) (w : Bool) : State :=
  recounts l (home0 (fun h => { h with active := some ⟨⟨3, 6, w, ln⟩, 1, 0, false, true⟩ }) (held ln 5 true 77 few))
/-- A partition's extent at a pool node. -/
def pooled (s : State) : State := { s with extents := [(0, ⟨⟨5, 0, true, 0, 9, 3, 0⟩, false⟩)] }
theorem test_meets_RecountsRestoreTokens :
    (from3 (.loss 5) (active false few)).delivers 0 3 (.loss 5) ∧
    (∃ a, ((active true few).die 0).home.active = some a ∧ (few.die 0).failed = false ∧ a.recounting = true ∧ a.req.line = ln ∧
      ((active true few).die 0).home.recount ln = none ∧ ((active true few).die 0).home.recounts.length < 8 ∧
      ((active true few).die 0).home.closed = [] ∧ (active true few).serveSet 0 ln a.req.die ≠ []) ∧
    (3 ∈ few.egressMask ln ∧ 3 ∉ few.oldMask ln) ∧
    (∀ n ∈ [19999, 20000], ((later n (recounts [0, 3] few)).die 0).home.recount ln = some ⟨ln, 0, [0, 3], 0⟩ ∧
      (0 + 20000 ≤ n ↔ n = 20000)) ∧
    (∀ x ∈ [(0#4), 1#4], let s := from3 (.recall ln x) (held ln 5 true 77 few)
     s.delivers 0 3 (.recall ln x) ∧ s.filterRoom 0 ln x = true ∧ (s.ownDie 3).isSome = true ∧
       (s.ent 0 ln).map (·.serial) = some 0) ∧
    (let s := fromDie 200 (.recall ln 0) (held ln 5 true 77 few)
     s.delivers 0 200 (.recall ln 0) ∧ s.filterRoom 0 ln 0 = true ∧ (s.ent 0 ln).map (·.serial) = some 0) ∧
    (∀ l ∈ [[3, 5], [3]], ∀ w ∈ [false, true], let s := from3 (.rack ln answer) (asked l w)
     s.delivers 0 3 (.rack ln answer) ∧ (s.die 0).home.recount ln = some ⟨ln, 0, l, 0⟩ ∧ s.atNode ln = false ∧
       (s.sideOf ln).serial = 0 ∧ (s.sideOf ln).symErr = 0 ∧ (s.sideOf ln).poison = false ∧
       ((s.die 0).home.active.map fun a => (a.req.line, a.req.write)) = some (ln, w) ∧ (s.ownDie 3).isSome = true) ∧
    (let s := from3 (.rack (2 ^ 42) answer) (pooled (recountsOf (2 ^ 42) [3, 5] few))
     s.delivers 0 3 (.rack (2 ^ 42) answer) ∧ (s.die 0).home.recount (2 ^ 42) = some ⟨2 ^ 42, 0, [3, 5], 0⟩ ∧
       s.atNode (2 ^ 42) = true ∧ (s.sideOf (2 ^ 42)).serial = 0 ∧ (s.sideOf (2 ^ 42)).symErr = 0) ∧
    (∀ l ∈ [[3, 5], [3]], let s := from3 (.rack ln ⟨0, false, 0, none, false⟩) (recounts l few)
     s.delivers 0 3 (.rack ln ⟨0, false, 0, none, false⟩) ∧ (s.die 0).home.recount ln = some ⟨ln, 0, l, 0⟩ ∧
       s.atNode ln = false ∧ (s.sideOf ln).serial = 0 ∧ (s.sideOf ln).symErr = 0 ∧ (s.die 0).home.active = none ∧
       s.sys.fqbase.toNat % 64 = 0 ∧ s.fqLine ≠ ln) ∧
    (∃ f, ({ few with filters := [⟨0, ln, 0, 3⟩], now := 3 } : State).filters[0]? = some f ∧ f.die = 0 ∧ f.til ≤ 3) ∧
    (let s := from3 (.down 3) (home0 (fun h => { h with pending := [⟨3, 6, true, ln⟩, ⟨4, 6, true, ln⟩] }) few)
     s.delivers 0 3 (.down 3) ∧ (s.die 0).home.active = none ∧ (s.die 0).home.recounts = [] ∧ s.sreqs = []) ∧
    (from3 (.up 3 7) few).delivers 0 3 (.up 3 7) ∧
    (∀ n ∈ [2, 3], let s := later n (setD (fun d => { d with upUntil := some 3 }) few)
     (s.die s.pick).upUntil = some 3 ∧ (3 ≤ s.now ↔ n = 3)) ∧
    (let s := State.updDie few 5 fun d => { d with down := [0] }
     s.pick < 8 ∧ 5 ≠ s.pick ∧ s.islDie s.pick ∈ (s.die 5).down) ∧
    (few.lineHome ln).bind few.ownDie = some 0 ∧ few.atNode ln = false ∧ few.fqReady = true ∧
    (∀ n ∈ [0, 1, 2], ((few.setSide ln ⟨256, true, 0, false, n⟩).sideOf ln).symErr = n) ∧
    (∀ n ∈ [199999, 200000], let s := from3 (.gets 5 .both) (later n few)
     ∃ f, s.net[s.pick]? = some f ∧ s.ages f = true ∧ (maxAge ≤ Flight.age f s.now ↔ n = 200000)) ∧
    (let s : State := { later 200000 few with egress := [⟨.down 5, 1, 0, .pkg 7, 9, 0, false⟩] }
     ∃ f, s.egress[0]? = some f ∧ s.pick = s.net.length + 0 ∧ maxAge ≤ Flight.age f s.now) ∧
    ((later 7 (home0 (fun h => { h with forwards := [(0, 5, 7)] }) few)).die 0).home.forwards[0]? = some (0, 5, 7) := by
  repeat' first | decide +kernel | exact holds (by decide +kernel) | exact delivers_of_comes (by decide +kernel) | (intro _ h; fin_cases h) | apply And.intro
/-- Port 3 and a change of it. -/
def port3 (f : Port → Port) (s : State) : State := s.updPort 3 f
def upPort (s : State) : State := port3 (fun k => { k with st := .up, direct := [7], containment := false }) s
def flight : Flight := ⟨.down 5, 1, 0, .pkg 7, 9, 0, false⟩
def ofTrain : Flight := ⟨.mcClose 4, 1, 0, .pkg 7, 9, 0, false⟩
def placed (s : State) : State := { s with enum := { s.enum with pkgValid := true } }
def retries (l : List (BitVec 64)) (s : State) : State := port3 (fun k => { k with retry := l.map fun n => (n, [flight]) }) s
def assign9 : Assign := ⟨9, 1, 4, [(3, true)], [(5, [4])], [(35, [4])], []⟩
def grant5 : Grant := ⟨5, 0, true, 0, 9, 3, 0⟩
/-- Die 0 has failed. -/
def s1 : State := setD (fun d => { d with failed := true }) few
def map9 : UnitMap := ⟨3, List.replicate 8 0xFFFFFF, 0x3FF, List.replicate 8 3, List.replicate 8 0xFFFF, false, 2, [7]⟩
theorem test_meets_PortsCarryFrames :
    (∀ n ∈ [2 ^ 32 - 1, 2 ^ 32], let k := { Port.reset with st := .up, queue := [flight], tx := BitVec.ofNat 64 n }
     k.rekeyAt = none ∧ k.queue ≠ [] ∧ k.part < flits flight.msg ∧ Flight.age flight 7 < maxAge ∧ (k.tx.toNat < 2 ^ 32 ↔ n = 2 ^ 32 - 1)) ∧
    ((placed (upPort few)).port 3).st = .up ∧ ((placed (upPort few)).port 3).rekeyAt = none ∧
    ((placed (upPort few)).port 3).rx = 0 ∧ (placed (upPort few)).enum.pkgValid = true ∧ flight.aged < maxAge ∧
    ((placed (upPort few)).port 3).fails < 7 ∧
    ((port3 (fun k => { k with skipTo := true }) (upPort few)).port 3).skipTo = true ∧
    7 ≤ ((port3 (fun k => { k with fails := 7 }) (upPort few)).port 3).fails ∧
    ((port3 (fun k => { k with containment := true }) (upPort few)).port 3).containment = true ∧
    (few.port 3).st ≠ .up ∧
    (((retries [0, 1] (upPort few)).port 3).retry.any fun r => r.1 == 0) = true ∧
    ((retries [0, 1] (upPort few)).port 3).resends < 7 ∧
    (∀ n ∈ [1999, 2000], let s := later n (retries [0] (upPort { few with pick := 3 }))
     (s.port s.pick).st = .up ∧ (s.port s.pick).retry ≠ [] ∧ ((s.port s.pick).ackSince + 2000 ≤ s.now ↔ n = 2000)) ∧
    (∀ f ∈ [flight, ofTrain], let s := upPort { few with egress := [f] }
     s.egress[s.pick]? = some f ∧ s.bestPort (s.sendDie f) (s.portsFor f.dest) = some 3 ∧
       Flight.age f s.now < maxAge ∧ s.barred f.msg = false ∧ ((Msg.train f.msg).isNone = true ↔ f = flight)) ∧
    (({ few with pick := 35 } : State).port 35).st = .down ∧
    ((port3 (fun k => { k with st := .training }) few).port 3).st = .training ∧
    ((port3 (fun k => { k with st := .keying }) few).port 3).st = .keying ∧
    (let s := port3 (fun k => { k with tx := 2 ^ 32 - 2 ^ 20 }) (upPort few)
     2 ^ 32 - 2 ^ 20 ≤ (s.port 3).tx.toNat ∧ (s.port 3).tx.toNat ≤ (0xFFF00000#64).toNat ∧
       (s.port 3).rx.toNat ≤ (0xFFF00000#64).toNat ∧ (s.port 3).rekeyAt = none) ∧
    (few.enum.pkgValid = false ∧ 1 ≤ assign9.islsize ∧ assign9.islsize ≤ 16 ∧ assign9.islpos < assign9.islsize) ∧
    (∀ s ∈ [few, s1], s.pick < 10 ∧ s.pick ∉ s.linkDown) ∧
    ((few.die (linkEnds 0).1).failed = false ∧ (s1.die (linkEnds 0).1).failed = true ∧ (s1.die (linkEnds 0).2).failed = false) ∧
    (grant5.pages ≤ 2 ^ 24 ∧ (placed few).enum.pkgValid = true ∧ find 5 few.extents = none) ∧
    (let s := placed { few with extents := [(5, ⟨{ grant5 with part := 1 }, false⟩)], nodePosted := [(0, 0, 5)] }
     (find 5 s.extents).map (fun e => (e.revoking, e.grant.part)) = some (false, 1) ∧ grant5.part ≠ 1 ∧
       s.drained 5 = false) ∧
    (few.boot.map = none ∧ ({ few with boot := { few.boot with map := some map9 } } : State).boot.map = some map9) ∧
    (let s := port3 (fun k => { k with st := .keying }) few
     (s.port 3).st = .keying ∧ (s.port 3).since + 10000000 ≤ (later 10000000 s).now) ∧
    (∀ r ∈ [false, true], (find 5 ({ few with extents := [(5, ⟨grant5, r⟩)] } : State).extents).map (·.revoking) = some r) ∧
    ({ few with extents := [(5, ⟨grant5, true⟩)] } : State).drained 5 = true ∧
    ({ few with extents := [(5, ⟨grant5, true⟩)], nodePosted := [(0, 0, 5)] } : State).drained 5 = false := by
  repeat' first | decide +kernel | apply And.intro

/-- The message that the schedule names, which no age has ended. -/
abbrev Came (s : State) (m : Msg) : Prop := ∃ f, s.net[s.pick]? = some f ∧ s.expired f = false ∧ f.msg = m
def piece : Seg := ⟨0, 256, 4, 0, 0, 0⟩
/-- The operation that stands in the core's list. -/
abbrev Op (s : State) (p : CopyCtx → Prop) [DecidablePred p] : Prop :=
  ∃ c, (((s.core 0).copyOps[0]?).bind (s.copyCtx 0)) = some c ∧ c.grp.resid = .bound ∧ p c
def task : CopyRec := { crec .task [] with words := List.replicate 16 3 }
def rsv (pkg : Nat) : CopyRec :=
  { crec .lzrsv [] with words := [BitVec.ofNat 32 pkg, 1], n := 16, ds := some 4, sb := some 1 }
theorem test_meets_CopyOperationsPerform :
    ((setC (fun k => { k with copyq := [crec .cpy [piece]] }) few).core 0).copyq = [crec .cpy [piece]] ∧
    (few.core few.pick).copyq = [] ∧
    ([piece, ⟨4, 260, 4, 1, 0, 0⟩] ∈ (crec .cpy [piece, ⟨4, 260, 4, 1, 0, 0⟩]).ops) ∧
    Op (op (crec .cpy [piece]) few) (fun c => (op (crec .cpy [piece]) few).copyAllowed c = true ∧
      ((op (crec .cpy [piece]) few).core c.tm.core).fifoTouch (c.tm.base + 256) 4 = false) ∧
    Op (op { crec .cpy [⟨0, 256, 4, 0, 0, 0⟩] with sspace := .gl } (setG (fun g => { g with stopped := true }) few))
      (fun c => (op { crec .cpy [⟨0, 256, 4, 0, 0, 0⟩] with sspace := .gl }
        (setG (fun g => { g with stopped := true }) few)).copyAllowed c = true) ∧
    Op (setG (fun g => { g with memq := [mrec 1 .store .scratch .weak ⟨0, 0, 0, [1, 2, 3, 4], .pend⟩] })
      (op (crec .cpy [piece]) few)) (fun c => (setG (fun g => { g with
        memq := [mrec 1 .store .scratch .weak ⟨0, 0, 0, [1, 2, 3, 4], .pend⟩] }) (op (crec .cpy [piece]) few)).copyAllowed c =
          false) ∧
    Op (op task few) (fun c => (op task few).copyAllowed c = true ∧ (op task few).wqOn 0 = false) ∧
    Op (wq 0 1 0 (op task few)) (fun c => (wq 0 1 0 (op task few)).wqOn 0 = true ∧
      (wq 0 1 0 (op task few)).wqPart 0 = c.gd.part ∧
      (wq 0 1 0 (op task few)).wqPosted 0 ≠ 2 ^ (wq 0 1 0 (op task few)).wqLog 0 ∧
      ((wq 0 1 0 (op task few)).copyReach c ((wq 0 1 0 (op task few)).wqSlot 0 1) true).1 = .ok 0x401040) ∧
    Op (wq 0 4 0 (op task few)) (fun _ => (wq 0 4 0 (op task few)).wqPosted 0 = 2 ^ (wq 0 4 0 (op task few)).wqLog 0) ∧
    ∀ n ∈ [0, 7], Op (op (rsv n) few) fun c => (op (rsv n) few).copyAllowed c = true ∧ few.enum.pkgValid = false ∧
      ((slotRef n 1 0).pkg = few.pkg ↔ n = 0) := by
  repeat' first | decide +kernel | exact holds (by decide +kernel) | (intro _ h; fin_cases h) | apply And.intro
/-- The seat of the slot that the message names. -/
abbrev Seat (s : State) (st : SlotSt) : Prop := (s.slotSeat ref).map (fun x => (x.2.2.1.closing, x.2.2.2.2.st, x.2.2.2.2.expected,
  x.2.2.2.2.arrived, (s.team x.2.2.1.team).isSome)) = some (none, st, 64, 0, true)
abbrev Zoned (s : State) (p : Nat → Nat → Zone → Bool) : Prop := (s.zoneSeat ref).any (fun x => p x.1 x.2.1 x.2.2) = true
theorem test_meets_LandingZonesReceive :
    (Came (msg (.lzReq 9 ref 64 0 0) few) (.lzReq 9 ref 64 0 0) ∧ few.pkg = 0 ∧ few.zoneSeat ref = none) ∧
    Zoned (setZ (fun z => { z with closing := some 0 }) (slot .free few)) (fun _ _ z => z.closing.isSome) ∧
    Zoned (slot .free few) (fun core zn z => z.closing = none && z.gen = ref.zgen && (slot .free few).teamPart z.team = some 0 &&
      decide (64 ≤ z.bytes) && decide (z.bytes < 1025) && ((slot .free few).freeSlot core zn z).isSome) ∧
    Zoned (slot .full few) (fun core zn z => (slot .full few).freeSlot core zn z = none) ∧
    (((slot .free few).zoneSeat { ref with zgen := 2 }).any fun x => x.2.2.gen ≠ 2) = true ∧
    (Came (req (.lzrsv 0 4 1) (msg (.lzRep 9 77) few)) (.lzRep 9 77) ∧
      (req (.lzrsv 0 4 1) few).req 9 = some ⟨9, .lzrsv 0 4 1, 0, 0, none, 0, 0, 0⟩ ∧
      (few.group 0).map (·.resid) = some .bound) ∧
    (Came (msg (.lzPacket 9 ref 0 [1, 2] 0) few) (.lzPacket 9 ref 0 [1, 2] 0) ∧ few.liveCore (SlotRef.coreNo ref) = true) ∧
    (∀ st ∈ [SlotSt.reserved, .filling], Seat (slot st few) st ∧ st.isOpen = true ∧ (0 + 64 ≤ 64 ∧ 64 < 0 + 65 ∧ 64 < 63 + 2)) ∧
    ((slot .reserved few).core 0).fifoOverlap 0 64 = false ∧
    (let s := { req (.lzsend 5 4) (msg (.lzAck 9 true) few) with sends := [⟨5, 0, 0, none, none, ref, 2, false, 0⟩] }
     Came s (.lzAck 9 true) ∧ (s.req 9).map (·.kind) = some (.lzsend 5 4) ∧
       (s.sends.find? fun y => y.id == 5).map (fun x => (x.bar, x.left)) = some (none, 2)) ∧
    Came (req (.lzabort 4 50) (msg (.lzAbortAck 9) few)) (.lzAbortAck 9) ∧
    (Came (msg (.lzAbort 9 ref 4 0) (slot .filling few)) (.lzAbort 9 ref 4 0) ∧ Seat (slot .filling few) .filling) ∧
    (∀ n ∈ [49, 50], let s := { later n few with reqs := [⟨9, .lzabort 4 50, 0, 0, some ref, 0, 0, 0⟩] }
     (s.reqs[s.pick]?).map (fun q => (q.kind, q.pkg)) = some (.lzabort 4 50, s.pkg) ∧ (50 ≤ s.now ↔ n = 50)) ∧
    (∀ st ∈ [SlotSt.filling, .failed], Came (msg (.lzCancel 9 ref 0) (slot st few)) (.lzCancel 9 ref 0) ∧
      Seat (slot st few) st) ∧
    (Came (req (.lzcancel 0 1) (msg (.lzCancelAck 9) few)) (.lzCancelAck 9) ∧
      ((req (.lzcancel 0 1) few).req 9).map (·.kind) = some (.lzcancel 0 1)) ∧
    (∀ n ∈ [9999999, 10000000], let s := later n (setZ (fun z => { z with closing := some 0, isOpen := false }) (slot .filling few))
     (find 0 (s.core 0).slots).map (fun x => (x.zone, x.st.isOpen)) = some (0, true) ∧
       (find 0 (s.core 0).zones).map (·.closing) = some (some 0) ∧ (0 + 10000000 ≤ s.now ↔ n = 10000000)) ∧
    let s := { later 400000 few with reqs := [⟨9, .lzrsv 0 4 1, 0, 0, some { ref with pkg := 1 }, 1, 0, 0⟩] }
    ∃ q, s.reqs[s.pick]? = some q ∧ q.pkg ≠ s.pkg ∧ q.kind.timed = true ∧ q.since + 400000 ≤ s.now := by
  repeat' first | decide +kernel | exact holds (by decide +kernel) | (intro _ h; fin_cases h) | apply And.intro
def wref : WinRef := ⟨0, 3, 0⟩
/-- No group, so that the request's team is gone. -/
def alone (s : State) : State := { s with groups := [] }
theorem test_meets_WindowPacketsArrive :
    (Came (msg (.winGet 9 wref 0 0 [(0, 4)]) few) (.winGet 9 wref 0 0 [(0, 4)]) ∧
      winAccepts (few.winEntry 0 3) 0 .read [(0, 4)] = false ∧ few.fqReady = true) ∧
    (let s := msg (.winGet 9 wref 0 0 [(252, 4)]) (win few)
     Came s (.winGet 9 wref 0 0 [(252, 4)]) ∧ winAccepts (s.winEntry 0 3) 0 .read [(252, 4)] = true ∧
       winAccepts (s.winEntry 0 3) 0 .read [(253, 4)] = false ∧
       ((s.without.fillWin 0 3).place 0 0 false (winBase (s.winEntry 0 3)) [(252, 4)]).1 =
         .ok [[0x4030FC, 0x4030FD, 0x4030FE, 0x4030FF]]) ∧
    (let s := alone (msg (.winPut 9 wref 0 0 [(0, [1, 2])]) (win few))
     Came s (.winPut 9 wref 0 0 [(0, [1, 2])]) ∧ winAccepts (s.winEntry 0 3) 0 .write [(0, 2)] = true ∧
       ((s.without.fillWin 0 3).place 0 0 true (winBase (s.winEntry 0 3)) [(0, 2)]).1 = .ok [[0x403000, 0x403001]] ∧
       s.groups = [] ∧ s.devStores = [] ∧ [0x403000, 0x403001].Nodup ∧ (∀ a ∈ [0x403000, 0x403001], s.lost (a / 128) = false) ∧
       ∀ a ∈ [0x403000, 0x403001], a < s.winAddr 3 + 0x20 ∨ s.winAddr 3 + 0x24 ≤ a) ∧
    (Came (msg (.winPut 9 wref 0 0 [(0, [1, 2])]) few) (.winPut 9 wref 0 0 [(0, [1, 2])]) ∧
      winAccepts (few.winEntry 0 3) 0 .write [(0, 2)] = false) ∧
    (Came (msg (.winRed 9 wref 0 0 .f32 false [(0, 1)]) few) (.winRed 9 wref 0 0 .f32 false [(0, 1)]) ∧
      winAccepts (few.winEntry 0 3) 0 .reduce [(0, WTy.bytes .f32)] = false) ∧
    (∀ n ∈ [1, 2], Came (msg (.winMc 4 0 wref 0 0 n 0 [1, 2]) few) (.winMc 4 0 wref 0 0 n 0 [1, 2]) ∧
      (∀ r ∈ few.mcRecvs, r.live few.now = false) ∧ (placed few).enum.pkgValid = true ∧ winAccepts (few.winEntry 0 3) 0 .write ((List.range n).map fun j => (128 * j, 128)) =
        false) ∧
    (∀ ok ∈ [true, false], Came (alone (req (.wput 3 0 8) (msg (.winAck 9 ok []) (win few)))) (.winAck 9 ok []) ∧
      ((alone (req (.wput 3 0 8) (win few))).req 9).map (·.kind) = some (.wput 3 0 8)) ∧
    (∀ x ∈ [(true, [1, 2, 3, 4]), (true, [1, 2, 3]), (false, [])],
      Came (req (.wget 3 0 6 4) (msg (.winAck 9 x.1 x.2) (win few))) (.winAck 9 x.1 x.2) ∧
      ((req (.wget 3 0 6 4) (win few)).req 9).map (·.kind) = some (.wget 3 0 6 4)) ∧
    let s := alone (req (.mcast 3 0 8 9 [(0, 0, 0)] false) (msg (.mcAck 9 1) (win few)))
    Came s (.mcAck 9 1) ∧ (s.req 9).map (·.kind) = some (.mcast 3 0 8 9 [(0, 0, 0)] false) ∧ 9 % 64 ≠ 0 ∧
      (1#512).getLsbD 0 = true := by
  repeat' first | decide +kernel | exact holds (by decide +kernel) | (intro _ h; fin_cases h) | apply And.intro
/-- A record at the head of the group's matrix queue, with what it needs. -/
abbrev Head (s : State) (k : MatKind) (p : MatCtx → Prop) [DecidablePred p] : Prop :=
  s.physOf 0 0 = some 3 ∧ ∃ c, s.matCtx s.pick = some c ∧ c.r.kind = k ∧ p c
def flagTile (s : State) : State := setC (fun k => { k with tiles := upd 3 (fun t => { t with flag := true }) k.tiles }) s
/-- An entry of the adapter cache. -/
def adOne (s : State) : State := setC (fun k => { k with adcache := [⟨1, 0, 0, 3, 0, 0, 0, 0, 0, 0, 0, true, [], false, 0⟩] }) s
abbrev Ready (s : State) (c : MatCtx) : Prop := s.readable c.core c.g 0 = true ∧ s.flagged c.core c.g 0 = false
abbrev CleanTile (s : State) : Prop := ∀ e ∈ (s.tile 0 3).elems, e.2.ecc = .clean
def fillOf (x : Option Nat) (parked : Bool) : AdFill := ⟨4, ⟨0x1000, 4, 1, 1⟩, 1, 0, 0, 0, 0, 0, parked, x⟩
/-- What the adapter descriptor's slice reads. -/
def adBytes (d : Nat) : DevGot := ((fill1 d few).devRead 0 0 (.fill 0 4) [(0x1000 + 64, 64)]).1
theorem test_meets_MatrixRecordsTakeEffect :
    Head (mat (.joint 0 joint) few) (.joint 0 joint) (fun _ => True) ∧
    Head (mat (.adset ⟨64, 3, 1, 1⟩) few) (.adset ⟨64, 3, 1, 1⟩) (fun _ => True) ∧
    Head (mat (.accz 0) few) (.accz 0) (fun c => Ready (mat (.accz 0) few) c) ∧
    Head (inUnit 1 (mat (.accz 0) few)) (.accz 0) (fun c => (inUnit 1 (mat (.accz 0) few)).inFlight c.core 3 = true) ∧
    Head (mat (.accld 0 .bf16 0 128) few) (.accld 0 .bf16 0 128) (fun c => Ready (mat (.accld 0 .bf16 0 128) few) c ∧
      (mat (.accld 0 .bf16 0 128) few).matClear c (tileRows 0 128 2) = true) ∧
    Head (mat (.accst 0 .f32 false 0 256) few) (.accst 0 .f32 false 0 256) (fun c =>
      Ready (mat (.accst 0 .f32 false 0 256) few) c ∧ CleanTile (mat (.accst 0 .f32 false 0 256) few) ∧
      (mat (.accst 0 .f32 false 0 256) few).matClear c (tileRows 0 256 4) = true ∧
      ∀ m ∈ List.range 32, ((mat (.accst 0 .f32 false 0 256) few).core c.core).fifoTouch (c.team.base + m * 256) 256 = false) ∧
    Head (flagTile (mat (.accst 0 .f32 false 0 256) few)) (.accst 0 .f32 false 0 256) (fun c =>
      (flagTile (mat (.accst 0 .f32 false 0 256) few)).readable c.core c.g 0 = true ∧
      (flagTile (mat (.accst 0 .f32 false 0 256) few)).flagged c.core c.g 0 = true) ∧
    Head (inUnit 1 (mat (.accst 0 .f32 false 0 256) few)) (.accst 0 .f32 false 0 256) (fun c =>
      (inUnit 1 (mat (.accst 0 .f32 false 0 256) few)).readable c.core c.g 0 = false) ∧
    Head (mat (.accmovTo 0 4 2 62 [0, 31]) few) (.accmovTo 0 4 2 62 [0, 31]) (fun c =>
      Ready (mat (.accmovTo 0 4 2 62 [0, 31]) few) c ∧ CleanTile (mat (.accmovTo 0 4 2 62 [0, 31]) few)) ∧
    Head (mat (.accmovFrom 0 2 62 [(31, [7, 8])]) few) (.accmovFrom 0 2 62 [(31, [7, 8])]) (fun c =>
      Ready (mat (.accmovFrom 0 2 62 [(31, [7, 8])]) few) c) ∧
    Head (mat (.accwait 0 false) few) (.accwait 0 false) (fun c => Ready (mat (.accwait 0 false) few) c) ∧
    Head (inUnit 1 (mat (.accwait 0 false) few)) (.accwait 0 false) (fun c =>
      (inUnit 1 (mat (.accwait 0 false) few)).readable c.core c.g 0 = false) ∧
    Head (mat (.accwait 0 true) few) (.accwait 0 true) (fun c => (mat (.accwait 0 true) few).allReadable c = true ∧
      ∀ m ∈ c.grp.amap, (mat (.accwait 0 true) few).flagged c.core c.g m.1 = false) ∧
    Head (mat (.accscl 0 true true true 0 256) few) (.accscl 0 true true true 0 256) (fun c =>
      Ready (mat (.accscl 0 true true true 0 256) few) c ∧ CleanTile (mat (.accscl 0 true true true 0 256) few) ∧
      (mat (.accscl 0 true true true 0 256) few).matClear c [(0, 256), (256, 256)] = true) ∧
    Head (mat (.up 0 [0, 31] 0) few) (.up 0 [0, 31] 0) (fun c => (mat (.up 0 [0, 31] 0) few).inFlight c.core 3 = false ∧
      ∀ i ∈ ([0, 31] : List Nat), ((mat (.up 0 [0, 31] 0) few).tile c.core 3).rowId i = 0) ∧
    Head (inUnit 1 (mat (.up 0 [0] 0) few)) (.up 0 [0] 0) (fun c => (inUnit 1 (mat (.up 0 [0] 0) few)).inFlight c.core 3 = true) ∧
    Head (adOne (mat (.adinv true 0 none) few)) (.adinv true 0 none) (fun c =>
      ∀ e ∈ ((adOne (mat (.adinv true 0 none) few)).core c.core).adcache,
        ((adOne (mat (.adinv true 0 none) few)).core c.core).pinned e.name = false) ∧
    (∃ x, (mat (.joint 0 joint) few).jointHead (mat (.joint 0 joint) few).pick = some x ∧ x.2.2.gang = 0 ∧ x.2.2.z = false ∧
      (mat (.joint 0 joint) few).matClear x.1 (jointRanges x.2.2 96) = true ∧
      (mat (.joint 0 joint) few).rowsBad x = false) ∧
    (let j := { joint with rows := [(2, 64, 9)], mmad := true }
     ∃ x, (mat (.joint 0 j) few).jointHead (mat (.joint 0 j) few).pick = some x ∧ x.2.2.gang = 0 ∧ x.2.2.z = false ∧
       (mat (.joint 0 j) few).matClear x.1 (jointRanges x.2.2 96) = true ∧ (mat (.joint 0 j) few).rowsBad x = true) ∧
    (let s := setG (fun g => { g with memq := [mrec 1 .store .scratch .weak ⟨0, 0, 64, [1, 2, 3, 4], .pend⟩] })
       (mat (.joint 0 joint) few)
     ∃ x, s.jointHead s.pick = some x ∧ s.matClear x.1 (jointRanges x.2.2 96) = false) ∧
    (∀ n ∈ [1, 2], ((inUnit n few).core (inUnit n few).pick).matUnit.map (fun o => (o.b.length, o.members.length)) = [(n, 1)]) ∧
    (few.core few.pick).matUnit = [] ∧
    (∀ f ∈ [fillOf (some 1) false, fillOf none true, fillOf none false],
      ((setC (fun k => { k with adfills := [f] }) few).core 0).adfills[0]? = some f) ∧
    (∀ d ∈ [0, 9 * 2 ^ 136], (match adBytes d with
      | .bytes bs => (adDesc bs).ok == decide (d ≠ 0)
      | _ => false) = true) := by
  repeat' first | decide +kernel | exact holds (by decide +kernel) | apply And.intro

/-- The grid is ready, none of its clusters placed. -/
def ready (s : State) : State := setGd (fun g => { g with st := .ready, next := 0 }) s
/-- Two grids on the one live core, of which the second, that wants a core of another kind, waits. -/
def crowded : State :=
  { setL 0 idle with
    enum := { idle.enum with coremask := [1, 0, 0, 0, 0, 0, 0, 0] }
    grids := [(0, { oneGrid with lrec := lrec 0 }), (1, { oneGrid with lrec := lrec (2 ^ 343), st := .ready, next := 0 })]
    pick := 1, now := 100000 }
/-- A collective grid of one core on each of dies 0 and 1 and so on. -/
def collective : State := ready (setGd (fun g => { g with
  collWant := true, lrec := lrec ((2 ^ 15 + 256 + 1) * 2 ^ (8 * 0x36)) }) idle)
def finished (s : State) : State := setT (fun t => { t with phase := .freed }) (setGd (fun g => { g with st := .done }) s)
def notified : State := setT (fun t => { t with phase := .gone }) (setD (fun d => { d with
  tcache := [⟨0, 0, 21, 0x400000, true, false⟩] }) (setGd (fun g => { g with
    ended := true, st := .aborted, lrec := lrec (0x1000 * 2 ^ (8 * 0x38)) }) idle))
theorem test_meets_GridsRunFromLaunchToEnd :
    (idle.boot.ready = true ∧ idle.wqOn 16383 = false) ∧
    (let s := wq 1 1 0 idle
     s.wqOn 0 = true ∧ dist32 5 (s.wqHead 0) ≤ 2 ^ s.wqLog 0 ∧ 2 ^ s.wqLog 0 < dist32 6 (s.wqHead 0) ∧
       2 ^ s.wqLog 0 < dist32 0 (s.wqHead 0) ∧ s.fqReady = true) ∧
    (let s := setD (fun d => { d with tcache := [⟨0, 0, 21, 0x400000, true, false⟩] }) (wq 0 1 oneGroupRecord idle)
     s.pick = 0 ∧ s.boot.ready = true ∧ s.gradeMet = true ∧ s.wqOn 0 = true ∧ s.wqPosted 0 ≠ 0 ∧ s.grids.length < 4096 ∧
       (s.devReach 0 (s.wqPart 0) (s.wqSlot 0 (s.wqHead 0)) 64 false .device
         { s.dieRec 0 0 with queue := 0, ridx := s.wqHead 0 }).1 = .pa 0x401000 ∧
       s.recordCode { oneGrid with lrec := BitVec.ofNat 512 (s.physNat 0x401000 64) } (s.wqPart 0) = 0 ∧
       shapeOk 0 0 = false) ∧
    (let s := { wq 0 1 oneGroupRecord idle with mem := wrBytes (wq 0 1 oneGroupRecord idle).mem 0x800000 (leBytes 8 (2 ^ 62)) }
     s.wqOn 0 = true ∧ s.wqPosted 0 ≠ 0 ∧ (s.devReach 0 (s.wqPart 0) (s.wqSlot 0 (s.wqHead 0)) 64 false .device
       { s.dieRec 0 0 with queue := 0, ridx := s.wqHead 0 }).1 = .fail 1) ∧
    (∃ g, collective.grid collective.pick = some g ∧ g.st = .ready ∧ g.collWant = true ∧ g.coll = [] ∧
      collective.startable g = true ∧ collective.collHeld < 8 ∧
      (((List.range 8).filter fun d => g.collF.testBit d).flatMap fun d => collective.collOn d (fld g.collF 8 5)).length =
        fld g.collF 8 5 * ((List.range 8).filter fun d => g.collF.testBit d).length ∧
      (((List.range 8).filter fun d => g.collF.testBit d).flatMap fun d => collective.collOn d (fld g.collF 8 5)) ≠ []) ∧
    (let s := ready (setL 0 idle)
     ∃ g, s.grid s.pick = some g ∧ s.mayPlace s.pick g = true ∧ s.firstServed g = true ∧ s.rectFor s.pick g = some [0]) ∧
    (∃ g, crowded.grid crowded.pick = some g ∧ crowded.mayPlace crowded.pick g = true ∧ g.waitSince + 100000 ≤ crowded.now ∧
      crowded.rectFor crowded.pick g = none ∧ (∀ e ∈ crowded.dies, e.2.draining.map (·.grid) ≠ some crowded.pick) ∧
      crowded.bestRect crowded.pick g ((crowded.partDies g.part).filter fun d => (crowded.die d).draining.isNone) false =
        some [0]) ∧
    (let s := setL 0 { idle.updCore 1 fun k => { k with carve := 8, scratch := [(5, 7), (600000, 1)] } with pick := 1 }
     s.liveCore 1 = true ∧ s.idleCore 1 = true ∧ (s.core 1).wtb = [] ∧ (s.die (dieOf 1)).draining = none ∧
       (s.core 1).carve.toNat % 256 ≠ (s.core 1).applied) ∧
    (let s := setG (fun g => { g with split := [] }) idle
     ∃ x, s.team s.pick = some x ∧ x.phase = .running ∧ (∀ g ∈ x.groups, (s.group g).all fun y =>
       y.resid == .bound && y.split.isEmpty) ∧ s.recordsDone s.pick x.groups = true) ∧
    (let s := { finished (setL ((2 ^ 15 + 3) * 2 ^ (8 * 0x34)) idle) with depctr := [(3, 5)] }
     ∃ g, s.grid s.pick = some g ∧ (s.gridOver s.pick g).isSome = true ∧ s.gridReleased s.pick = true ∧ g.notify = 0 ∧
       g.ended = false ∧ g.doneF.testBit 15 = true ∧ g.st ≠ .rejected ∧ g.skip = false) ∧
    ∃ g, notified.grid notified.pick = some g ∧ (notified.gridOver notified.pick g).isSome = true ∧
      notified.gridReleased notified.pick = true ∧ g.ended = true ∧ g.notify = 0x1000 ∧
      (notified.devReach 0 g.part g.notify 8 true (.notify notified.pick)
        { notified.dieRec 0 0 with queue := g.queue, ridx := g.ring, addr := g.notify }).1 = .pa 0x401000 := by
  repeat' first | decide +kernel | exact holds (by decide +kernel) | apply And.intro
/-- A group without a clause, in a grid that declares one v register. -/
def still (s : State) : State := noRun (setL 0 s)
/-- Stopped for a pre-emption, which was asked for at time 0. -/
def preempted (s : State) : State := setG (fun g => { g with preempt := true, reason := 1 }) s
def inCall (n : Nat) : State :=
  { setY (fun y => { y with srtail := BitVec.ofNat 32 n }) (setG (fun g => { g with svc := some call, resid := .saved })
      (still idle)) with
    svcWait := [0] }
def ticketed (b : Byte) : State :=
  { setG (fun g => { g with svc := some call, resid := .saved }) (still idle) with tickets := [(3, 0)], hostMem := put 0 6336 b [] }
/-- The team moves to core 1. -/
def moved : State :=
  setC (fun k => { k with scratch := [(0, 3), (255, 4)], fwds := [(0, ⟨0, 0, 0, 0, 0, 5⟩)] })
    (setT (fun t => { t with migrate := some 1, size := 256 }) (setG (fun g => { g with resid := .saved })
      (noRun (setL (2 ^ 343 + 2 ^ 352) idle))))
abbrev Owned (s : State) (p : Group → Grid → Team → Bool) : Prop := ((s.group s.pick).any fun y =>
  (s.grid y.grid).any fun gd => (s.team y.team).any fun tm => p y gd tm) = true
theorem test_meets_GroupsAreSavedAndRestored :
    Owned (setF (fun f => { f with stop := some 0xFFFF00FF }) (setG (fun g => { g with s := [(3, ⟨9, .clean⟩)] })
      (preempted (still idle)))) (fun y gd _ => gd.st != .aborted &&
        (setF (fun f => { f with stop := some 0xFFFF00FF }) (preempted (still idle))).canSave 0 y && canon RegWord.zero y.s) ∧
    Owned (setG (fun g => { g with preempt := true, reason := 3, svc := some call }) (still idle)) (fun y _ _ =>
      (setG (fun g => { g with preempt := true, reason := 3, svc := some call }) (still idle)).canSave 0 y && y.reason == 3) ∧
    Owned idle (fun y _ _ => !idle.canSave 0 y) ∧
    Owned (later 2000 (preempted idle)) (fun y _ _ => y.resid == .bound && y.preempt && y.reason == 1 &&
      decide (y.since + 2000 ≤ 2000)) ∧
    Owned (setG (fun g => { g with resid := .ready, live := 0x10100 }) (still idle)) (fun y gd tm => y.resid == .ready &&
      gd.st != .aborted && tm.migrate.isNone && ((setG (fun g => { g with resid := .ready, live := 0x10100 })
        (still idle)).restoreTrack tm.core gd).isSome && y.svc.isNone) ∧
    (let s := setG (fun g => { g with resid := .ready, live := 0x10100 }) (still idle)
     (((s.grid 0).bind fun gd => (s.team 0).bind fun tm => s.restoreTrack tm.core gd).map fun k => (s.track k).run) = some none ∧
       Owned s fun y gd tm => (slotLines (slotBase gd tm y.idx) y gd).all fun l => !s.unseen l && (s.sideOf l).symErr == 0) ∧
    (let s := setT (fun t => { t with migrate := some 1 }) (still idle)
     Owned s fun y gd tm => s.mustMigrate tm gd && y.resid == .bound && !y.split.isEmpty && !y.preempt) ∧
    Owned moved (fun _ gd tm => tm.migrate == some 1 && tm.phase == .running &&
      (tm.groups.all fun g => (moved.group g).all fun y => y.resid != .bound) && tm.core != 1 &&
      moved.admits 1 tm.grid gd ((tm.groups.filterMap moved.group).filter fun y => !y.over false).length true &&
      (moved.migBase 1 tm gd).isSome && ((moved.core tm.core).freeFwd).isSome && (moved.core tm.core).zones.isEmpty &&
      decide (Memory.wf (moved.core tm.core).scratch)) ∧
    (∀ n ∈ [4, 5], (find 0 ((later n moved).core 0).fwds).map (fun f => decide (f.til ≤ n)) = some (decide (n = 5))) ∧
    (idle.devStores = [] ∧ idle.devBusy = false ∧ idle.sys.srbase.toNat % 64 = 0 ∧ idle.sys.srlog2 ≤ 20) ∧
    (({ idle with devStores := [(0x700000, [(1, 0)])] } : State).setSreq (idle.devDie 57344) 57344
      ⟨true, .transient, 0, []⟩).devBusy = true ∧
    (∀ n ∈ [62, 63], (inCall n).svcWait = [0] ∧ Owned (inCall n) fun y _ _ => y.svc == some call &&
      decide ((n + (call.blocks.length + 1) ≤ 2 ^ (inCall n).sys.srlog2) = (n = 62)) &&
      decide (∀ b ∈ call.blocks, b.length = 16)) ∧
    (idle.boot.ready = true ∧ find 3 idle.tickets = none) ∧
    (∀ b ∈ [(0#8), 1#8], find 3 (ticketed b).tickets = some 0 ∧ (ticketed b).svcWait = [] ∧ Owned (ticketed b) fun y gd _ =>
      y.svc == some call && gd.st == .running && y.resid == .saved &&
      (ticketed b).physNat (hostAddr (ticketed b).sys.rpbase (2112 * 3)) 4 == b.toNat) ∧
    ({ idle with fqPend := [(0, idle.dieRec 3 0)] } : State).fqReady = true ∧
    (let s : State := { idle.setSide 0 ⟨5, true, 0, false, 0⟩ with fqPend := [(0, idle.dieRec 3 0)] }
     s.fqRoom = true ∧ s.fqStorable = false ∧ s.sreq (s.devDie s.fqLine) s.fqLine = none) ∧
    (setY (fun y => { y with fqtail := 4096 }) { idle with fqPend := [(0, idle.dieRec 3 0)] }).fqRoom = false ∧
    ∃ g, (setGd (fun g => { g with st := .armed, lrec := lrec ((2 ^ 15 + 3) * 2 ^ (8 * 0x32)) }) idle).grid 0 = some g ∧
      g.st = .armed ∧ fld g.arm 0 12 = 3 := by
  repeat' first | decide +kernel | exact holds (by decide +kernel) | apply And.intro
def mover (by_ stage : Nat) (s : State) : State := setD (fun d => { d with home := { d.home with
  moving := [⟨0, 0x200000, 0x203000, 0x600, 0x700, by_, stage, [], 0, []⟩] } }) s
/-- A page migration of VA 0x200000, whose leaf stands at 0x203000, to 0x1000 times the pages named. -/
def migPage (n : Nat) (s : State) : State := cmd 1 [(0, 1), (10, 0x20), (17, 0x30), (18, 0x20), (26, n)] s
/-- What the unit of die 0 sees of the tables and of the leaf. -/
abbrev migSeen (s : State) : See × State := s.see 0 (s.tableLines 0 (s.cmd 1 8 8) ++ [s.cmd 1 16 8 / 128])
/-- The command names a page of its partition by its leaf, and a new page. -/
abbrev MigPre (s : State) (va pa new : Nat) : Prop := s.pick = 0 ∧ s.started 1 1 ∧ s.cmd 1 2 2 = 0 ∧ s.cmd 1 8 8 = va ∧
  s.cmd 1 24 8 = new ∧ s.cmd 1 16 8 < 2 ^ 48 ∧ s.moveOrdered = false ∧ (migSeen s).1 = .ok ∧
  ((migSeen s).2.part 0).any (fun p => p.holds new) = true ∧ (migSeen s).2.walk 0 va = .leaf 12 pa true false ∧
  ptePa ((migSeen s).2.physNat (s.cmd 1 16 8) 8) = pa
/-- An island of two packages, of both of which partition 0 has HBM; VA 0x204000 lies in package 1. -/
def island (s : State) : State := { s with
  enum := { s.enum with islsize := 2 }
  parts := [(0, ⟨0, 255, 7, 0x200000, BitVec.allOnes 128, [(0, 0, 768), (1, 0, 768)]⟩)]
  mem := tables ++ pteBytes 0x203020 (2 ^ 40 + 0x600007) }
def migAway : State := cmd 1 [(0, 1), (9, 0x40), (10, 0x20), (16, 0x20), (17, 0x30), (18, 0x20), (26, 0x70)] (island idle)
/-- The tables lie in another package than this one. -/
def abroad : State := { migPage 0x70 idle with enum := { idle.enum with islsize := 2, islpos := 1 } }
def mails (m : Msg) (s : State) : State := { s with net := [⟨m, 0, 0, .die 0, 0, 0, false⟩], pick := 9 }
abbrev Moves (s : State) (p : Moving → Prop) [DecidablePred p] : Prop := s.pick = 1 ∧
  ∃ m ∈ (s.die 0).home.moving, (s.die 0).home.moving.length = 1 ∧ p m
theorem test_meets_CommandsTakeEffect :
    (let s := cmd 0 [(0, 1), (1, 1)] idle
     s.started 0 1 ∧ ∃ x, s.cmdGrid = some x ∧ s.grid x.1 = some x.2 ∧ x.2.st = .running) ∧
    (let s := cmd 0 [(0, 2)] (setC (fun k => { k with coll := some 0 }) (setGd (fun g => { g with collWant := true, coll := [0] }) idle))
     s.started 0 2 ∧ ∃ x, s.cmdGrid = some x ∧ s.grid x.1 = some x.2) ∧
    (let s := cmd 0 [(0, 3), (1, 9)] idle
     s.started 0 3 ∧ s.preemptSet = none) ∧
    (let s := cmd 0 [(0, 3)] (setG (fun g => { g with split := [] }) idle)
     s.started 0 3 ∧ ∃ gs, s.preemptSet = some gs ∧ ∀ g ∈ gs, (s.group g).all (fun x => x.resid != .bound || x.split.isEmpty) = true) ∧
    (let s := cmd 0 [(0, 3)] idle
     s.started 0 3 ∧ ∃ gs, s.preemptSet = some gs ∧
       ∃ g ∈ gs, (s.group g).any (fun x => x.resid == .bound && !x.split.isEmpty && !x.preempt) = true) ∧
    (let s := cmd 0 [(0, 4), (4, 3)] idle
     s.started 0 4 ∧ s.cmdGrid = none) ∧
    (∀ n ∈ [0, 23, 24], let s := cmd 0 [(0, 4), (12, n)] idle
     s.started 0 4 ∧ ∃ x, s.cmdGrid = some x ∧ (s.cmdTeam x.1 x.2 (s.cmd 0 8 4)).map (fun y => (y.2.migrate, y.2.core)) = some (none, 0) ∧
       (s.liveCore (24 * dieOf 0 + s.cmd 0 12 2) = true ∨ n = 24)) ∧
    (let s := cmd 0 [(0, 5)] (setG (fun g => { g with resid := .saved }) idle)
     s.started 0 5 ∧ ∃ x, s.cmdGrid = some x ∧ (s.group 0).map (fun y => (y.grid, y.resid, y.svc)) = some (x.1, .saved, none)) ∧
    (let s := cmd 0 [(0, 5), (4, 3)] idle
     s.started 0 5 ∧ s.cmdGrid = none) ∧
    (let s := cmd 1 [(0, 1), (2, 3)] idle
     s.pick = 0 ∧ s.started 1 1 ∧ s.part 3 = none) ∧
    (MigPre (migPage 0x60 idle) 0x200000 0x600000 0x600000 ∧ MigPre (migPage 0x70 idle) 0x200000 0x600000 0x700000 ∧
      (migSeen (migPage 0x70 idle)).2.lineHome (0x600000 / 128) = some 0 ∧ idle.ownDie 0 = some 0 ∧
      (migSeen (migPage 0x70 idle)).2.movingAt 0 0x600 = none) ∧
    (MigPre migAway 0x204000 (2 ^ 40 + 0x600000) 0x700000 ∧
      (migSeen migAway).2.lineHome ((2 ^ 40 + 0x600000) / 128) = some 8 ∧ (migSeen migAway).2.ownDie 8 = none) ∧
    (MigPre (mover 50 0 (migPage 0x70 idle)) 0x200000 0x600000 0x700000 ∧
      ((migSeen (mover 50 0 (migPage 0x70 idle))).2.movingAt 0 0x600).isSome = true) ∧
    (abroad.started 1 1 ∧ abroad.moveOrdered = false ∧ (migSeen abroad).1 = .wait true ∧
      (migSeen (migSeen abroad).2).1 = .wait false ∧ (migSeen ((migPage 0x70 idle).setSide 16480 ⟨256, true, 0, true, 0⟩)).1 = .err 5 ∧
      (mover 0 0 (migPage 0x70 idle)).moveOrdered = true) ∧
    (let s := mover 0 0 { idle with pick := 1 }
     Moves s fun m => m.stage = 0 ∧ (s.die 0).home.quiet m.page = true) ∧
    (let s := mover 0 1 { idle with pick := 1 }
     Moves s fun m => m.stage = 1 ∧ (∀ e ∈ m.left, e.2 = []) ∧ m.new ≠ m.page ∧ (s.pageHome m.new).isSome = true ∧
       ∀ j ∈ List.range 32, (s.sideOf (m.page * 32 + j)).crown = true ∧ (s.sideOf (m.page * 32 + j)).count = 256) ∧
    (let s := setD (fun d => { d with home := { d.home with moving := d.home.moving.map fun m => { m with new := 2 ^ 28 + 0x700 } } })
       (mover 0 1 { island idle with pick := 1 })
     Moves s fun m => m.stage = 1 ∧ s.pageHome m.new = none ∧ (s.homeDest (m.new * 32)).isSome = true) ∧
    (let s := mover 0 4 { idle with pick := 1 }
     Moves s fun m => m.stage = 4 ∧ (s.see 0 [m.leaf / 128]).1 = .ok) ∧
    Moves (mover 0 5 { idle with pick := 1 }) (fun m => m.stage = 5 ∧ idle.devStores = []) ∧
    Moves (mover 0 7 { idle with pick := 1 }) (fun m => m.stage = 7 ∧ (idle.ownDie m.by_).isSome = true) ∧
    (let s := mails (.migDone 0x600 2) { idle with migPage := some 0x600 }
     ∃ f, s.net[s.pick - 9]? = some f ∧ s.expired f = false ∧ f.msg = .migDone 0x600 2 ∧ s.migPage = some 0x600) ∧
    (let s := mails (.migOrder 0 0x200000 0x203000 0x600 0x700) idle
     ∃ f, s.net[s.pick - 9]? = some f ∧ s.expired f = false ∧ f.msg = .migOrder 0 0x200000 0x203000 0x600 0x700 ∧
       s.movingAt 0 0x600 = none) ∧
    (let s := mails (.migPageAck 0x700) (mover 0 2 idle)
     ∃ f, s.net[s.pick - 9]? = some f ∧ s.expired f = false ∧ f.msg = .migPageAck 0x700 ∧
       (s.die 0).home.moving.map (fun m => (m.new, m.stage)) = [(0x700, 2)]) ∧
    (∀ x ∈ [7, 8], let s := cmd 2 [(0, 1), (1, x)] idle
     s.started 2 1 ∧ s.cmd 2 1 1 = x ∧ (x = 8 ∨ s.entryOk x (s.cmd 2 128 128) = true) ∧
       (find x s.parts).map (·.partid) = none ∧ ∀ c ∈ s.cores, c.2.zones = []) ∧
    (let s := cmd 2 [(0, 1), (1, 0)] idle
     s.started 2 1 ∧ s.entryOk 0 (s.cmd 2 128 128) = true ∧ (find 0 s.parts).map (·.partid) = some 0 ∧
       ∃ g ∈ s.grids, g.2.ended = false ∧ g.2.part = 0) ∧
    (let s := cmd 3 [(0, 1), (2, 3)] (setD (fun d => { d with wcache := [(2, 7), (3, 5)] }) idle)
     s.started 3 1 ∧ s.winWait = [] ∧ s.mcRecvs = [] ∧ s.cmd 3 2 2 = 3) ∧
    ∃ x ∈ ({ idle with winWait := [⟨⟨.winGet 9 wref 0 0 [(0, 4)], 0, 0, .pkg 0, 0, 0, false⟩, 0⟩] } : State).winWait,
      Msg.winOf x.flight.msg = some 3 := by
  repeat' first | decide +kernel | exact holds (by decide +kernel) | (intro _ h; fin_cases h) | apply And.intro
def bootAt (n : Nat) (m : UnitMap) : State := { State.reset with boot := { Boot.start with step := n, map := some m } }
/-- The signatures and maps are uninterpreted, so that one of two hypotheses on them holds, whichever it is. -/
theorem test_meets_ResetsAndBoot :
    (idle.tripped = false ∧ Boot.ended idle.boot = true) ∧ ({ idle with tripped := true } : State).tripped = true ∧
    (State.reset.tripped = false ∧ Boot.ended State.reset.boot = false) ∧
    (∀ b, Config.mapSigOk ({ State.reset with boot := { Boot.start with step := 1 } } : State).flash.current = b →
      b = true ∨ b = false) ∧
    (∀ n ∈ [2, 3, 4, 5, 6, 7], ∀ m, (bootAt n m).tripped = false ∧ Boot.ended (bootAt n m).boot = false ∧
      (bootAt n m).boot.step = n ∧ (bootAt n m).boot.map = some m) ∧
    (∀ n ∈ [0, 1], ∀ p ∈ [0, 1], let s : State := { idle with umc := ⟨256, n, []⟩, pick := p }
     s.umc.umstat = BitVec.ofNat 32 n ∧ s.pick = p) ∧
    (∀ n ∈ [(255 : Nat), 256, 57344, 57352], (BitVec.ofNat 32 n).toNat = n ∧ (n % 8 = 0 ↔ n ≠ 255)) ∧
    (idle.boot.ready = false ∨ idle.boot.bifurcated = false) := by
  refine ⟨by decide +kernel, by decide +kernel, by decide +kernel, fun b _ => by cases b <;> simp, ?_, by decide +kernel,
    by decide, by decide +kernel⟩
  intro n h m
  fin_cases h <;> exact ⟨by rfl, by rfl, by rfl, by rfl⟩
theorem test_meets_HostAccessesReachTheRegisters :
    (idle.tripped = false ∧ idle.boot.ready = true ∧ idle.boot.failed = false) ∧
    (∀ n ∈ [1, 2], look 0 3 (setY (fun y => { y with cmdStatus := [(3, n)] }) idle).sys.cmdStatus = n) ∧
    (∀ x ∈ [(0, 0), (0, 5), (0, 6), (3, 1), (3, 2)], (setY (fun y => { y with
      cmdBuf := put 0 (256 * x.1) (BitVec.ofNat 8 x.2) [] }) idle).cmd x.1 0 1 = x.2) ∧
    (0x1FFFFC % 4 = 0 ∧ 0x110040 ≤ 0x1FFFFC ∧ 0x1FFFFC < 0x200000) ∧
    (Boot.ended idle.boot = true ∧ idle.unsupportedAccess 0 0x10001 4 = true ∧ 0x10001 % 4 ≠ 0) ∧
    (setD (fun d => { d with alerts := 3 }) idle).boot.ready = true ∧
    ∀ n ∈ [4, 5], (setY (fun y => { y with snapctl := BitVec.ofNat 32 n }) idle).sys.snapctl.getLsbD 2 = true ∧
      ((setY (fun y => { y with snapctl := BitVec.ofNat 32 n }) idle).sys.snapctl.getLsbD 0 = true ↔ n = 5) := by
  decide +kernel
theorem test_meets_ResponderAnswersInOrder :
    (idle.tripped = false ∧ Boot.ended idle.boot = true ∧ idle.spdm.version = 0 ∧ idle.spdm.caps = false ∧
      idle.spdm.algs = false) ∧
    ({ idle with spdm := ⟨0x12, true, true⟩ } : State).spdm.version ≠ 0 ∧ Nat.testBit 0x82 7 = true ∧ Nat.testBit 0x82 1 = true ∧
    (let s := { idle with spdm := ⟨0x12, true, true⟩, boot := { idle.boot with measures := [(1, 5), (2, 7)] } }
     s.spdm.caps = true ∧ s.spdm.algs = true ∧ find 2 s.boot.measures = some 7 ∧ rising s.boot.measures = true) := by
  decide +kernel
def monr (n : Nat) (s : State) : State := setD (fun d => { d with monthr := BitVec.ofNat 32 n, hotMark := [0], droopMark := [] }) s
theorem test_meets_MonitorsActAtTheirThresholds :
    (idle.tripped = false ∧ idle.boot.ready = true ∧ idle.liveCore 0 = true ∧ idle.pick = 0) ∧
    (∀ x ∈ [(355 : Int), 356, 379, 380, 420, 459, 460], BitVec.toInt (BitVec.ofInt 16 x) = x) ∧
    (let s := monr 100 idle
     4 * (((s.die (dieOf 0)).monthr.toNat % 256 : Nat) : Int) = 400 ∧ 0 ∈ (s.die 0).hotMark ∧
       1 ∉ (s.die 0).hotMark ∧ 0 ∉ (s.die (dieOf 0)).droopMark ∧ fld (s.die (dieOf 0)).monthr.toNat 8 8 < 1) ∧
    (∀ n ∈ [7, 8], let s := setC (fun k => { k with droops := List.replicate n 0 }) (later 99999 idle)
     ((s.core s.pick).droopCount s.now < 8 ↔ n = 7)) ∧
    (∀ n ∈ [399999, 400000], let s := setC (fun k => { k with avoided := some 0 }) (later n idle)
     (s.core s.pick).avoided = some 0 ∧ (0 + 400000 ≤ s.now ↔ n = 400000)) ∧
    (15 < 16 ∧ 3 < 4 ∧ 7 < 8) ∧
    let y := (setY (fun y => { y with pwrcap := 1000 }) idle).sys
    y.pwrcap < 1001 ∧ 20 * 949 < 19 * y.pwrcap ∧ 1000 ≤ y.pwrcap ∧ 19 * y.pwrcap ≤ 20 * 950 := by decide +kernel
/-! ## Results worked out by hand from the rules named -/

/-- A group of lanes 0 and 4 with v0 to v2 of lane 4. -/
def lane4 (a b c : Word) : State := setG (fun g => { g with
  v := [(vkey 0 4, ⟨a, .clean⟩), (vkey 1 4, ⟨b, .clean⟩), (vkey 2 4, ⟨c, .clean⟩)] }) few
/-- v8 of lane 4 after an instruction. -/
def result (i : Instr) (s : State) : Option Word :=
  match exec i s with
  | .next t => (t.group 0).map fun g => (look RegWord.zero (vkey 8 4) g.v).val
  | _ => none
/-- s8 after an instruction. -/
def sresult (i : Instr) (s : State) : Option Word :=
  match exec i s with
  | .next t => (t.group 0).map fun g => (look RegWord.zero 8 g.s).val
  | _ => none
/-- A mask register after an instruction. -/
def kresult (n : Nat) (i : Instr) (s : State) : Option Word :=
  match exec i s with
  | .next t => (t.group 0).map fun g => look 0 n g.k
  | _ => none
abbrev fn1 : FmtT := { fv with fn := 1 }
/-- R126: results wrap modulo 2^32, and SAT clamps to the type. -/
theorem test_iadd_wraps : result (.iadd fv) (lane4 0x7FFFFFFF 1 0) = some 0x80000000 := by decide +kernel
theorem test_iadd_saturates :
    result (.iadd fv) (setR (fun r => { r with pfx := some ⟨0, false, .rne, true, false, false⟩ }) (lane4 0x7FFFFFFF 1 0)) =
      some 0x7FFFFFFF := by decide +kernel
/-- R128: division by zero, and of the least number by −1. -/
theorem test_idiv_corners :
    result (.idiv fv) (lane4 (BitVec.ofInt 32 (-7)) 0 0) = some 0x80000000 ∧
    result (.idiv fv) (lane4 0x80000000 0xFFFFFFFF 0) = some 0x80000000 ∧
    result (.idiv fv) (lane4 (BitVec.ofInt 32 (-7)) 2 0) = some (BitVec.ofInt 32 (-3)) ∧
    result (.irem fv) (lane4 (BitVec.ofInt 32 (-7)) 2 0) = some (BitVec.ofInt 32 (-1)) := by decide +kernel
/-- R129: shift counts at and past the width. -/
theorem test_shifts :
    result (.shl fv) (lane4 5 32 0) = some 0 ∧ result (.sar fv) (lane4 0x80000000 32 0) = some 0xFFFFFFFF ∧
    result (.rol fv) (lane4 0x80000001 33 0) = some 3 ∧ result (.fshl fv) (lane4 1 0x80000000 1) = some 3 ∧
    result (.popc fv) (lane4 0xF0F0 0 0) = some 8 ∧ result (.clz fv) (lane4 0 0 0) = some 32 := by decide +kernel
/-- R130: the field 0xB at bit 4 with its sign; a permutation with a sign byte. -/
theorem test_fields :
    result (.bfx fv) (lane4 0xB0 0x0404 0) = some 0xFFFFFFFB ∧ result (.bfi fv) (lane4 0xF 0x0804 0xFFFFFFFF) = some 0xFFFFF0FF ∧
    result (.bytp fv) (lane4 0x00000080 0x44000000 0x8707) = some 0xFF448044 := by decide +kernel
/-- R142, R98: 1 + 2^-24 rounds to even; the quiet NaN of ∞ − ∞ is canonical (R96). -/
theorem test_fadd_rounds :
    result (.fadd fv) (lane4 0x3F800000 0x33800000 0) = some 0x3F800000 ∧
    result (.fadd fv) (lane4 0x3F800001 0x33800000 0) = some 0x3F800002 ∧
    result (.fsub fv) (lane4 0x7F800000 0x7F800000 0) = some 0x7FC00000 := by decide +kernel
/-- R145: −0, the least subnormal number, a quiet NaN. -/
theorem test_fclass :
    result (.fclass fv) (lane4 0x80000000 0 0) = some 0x20 ∧ result (.fclass fv) (lane4 1 0 0) = some 0x80 ∧
    result (.fclass fv) (lane4 0x7FC00000 0 0) = some 2 := by decide +kernel
/-- R131: bits of lanes that do not execute are unchanged. -/
theorem test_icmp_keeps_other_lanes :
    kresult 2 (.icmp ⟨false, 2, 0, .none, vr 0, vr 1, .eq, .i32, 0⟩)
      (setG (fun g => { g with k := [(0, 17), (2, 2)] }) (lane4 7 8 0)) = some 3 := by decide +kernel
/-- R132: the k register that FN names selects. -/
theorem test_isel : result (.isel fn1) (lane4 7 8 0) = some 8 ∧ result (.isel fv) (lane4 7 8 0) = some 7 := by decide +kernel
/-- R359, R357: BARQ of a new barrier of one group. -/
theorem test_barq : sresult (.barq false 2 false 8) (bar2 1) = some 0x1000 := by decide +kernel
/-- R71, R72: opcodes that no row assigns are refused. -/
theorem test_unassigned_opcodes :
    ([0x00, 0x02, 0x03, 0x07, 0x39, 0x3F, 0x5B, 0x5F, 0x6B, 0x6F, 0x7C, 0x7F, 0x96, 0x9F, 0xFF].all fun o => decodeTableWord 64 (o * 2 ^ 56) == none) = true := by decide +kernel
/-- R420: the first step after reset is a step of the boot. -/
theorem test_reset_starts_the_boot : State.reset.agenda ≠ [] ∨ Boot.ended State.reset.boot = false := by decide +kernel

end Sys2Proof.Tests
end

-- The SPDM responder (R8, R422)
section
/-! The SPDM responder: what an answer leaves in the state, what each request answers once it is expected, and the
obligation on the order of negotiation. -/

namespace Sys2Proof.Machine

/-! ## Sparse tables: the entries of one key -/

section
variable {β : Type}

theorem filter_key_of_above {i : Nat} {m : SMap β} (h : above i m) : (m.filter fun e => e.1 == i) = [] := by
  refine List.filter_eq_nil_iff.2 fun e he => ?_
  have hlt : i < e.1 := h e he
  simp [hlt.ne']
/-- A table that rises lists a key once. -/
theorem filter_key_of_find {i : Nat} {v : β} {m : SMap β} (hr : rising m = true) (hf : find i m = some v) :
    (m.filter fun e => e.1 == i) = [(i, v)] := by
  induction m with
  | nil => simp [find] at hf
  | cons e m ih =>
    obtain ⟨j, x⟩ := e
    obtain ⟨habove, hrise⟩ := (rising_cons j x m).1 hr
    by_cases hj : j = i
    · subst hj
      have hx : x = v := by simpa [find] using hf
      simp [hx, filter_key_of_above habove]
    · have hm : find i m = some v := by simpa [find, hj] using hf
      simp [hj, ih hrise hm]
end

/-! ## Answers and errors -/

@[simp] theorem doeOf_setDoe (s : State) (fn : Nat) (x : Doe) : (s.setDoe fn x).doeOf fn = x :=
  look_put_self Doe.idle fn x s.sys.doe
@[simp] theorem spdmSay_hostReply (s : State) (c : Nat) (b : List Nat) :
    (s.spdmSay c b).sys.hostReply = .spdm c b := rfl
@[simp] theorem spdmSay_spdm (s : State) (c : Nat) (b : List Nat) : (s.spdmSay c b).spdm = s.spdm := rfl
/-- The answer lies in the mailbox of the function that `pick` names, under the header of a data object. -/
@[simp] theorem spdmSay_doe (s : State) (c : Nat) (b : List Nat) :
    (s.spdmSay c b).doeOf (s.pick % s.functions) =
      ⟨[], false, 0x00010001#32 :: BitVec.ofNat 32 ((Config.spdmWords c b).length + 2) :: Config.spdmWords c b⟩ :=
  doeOf_setDoe _ _ _
@[simp] theorem spdmErr_hostReply (s : State) (e : Nat) : (s.spdmErr e).sys.hostReply = .spdm 0x7F [e] := rfl

/-- A request that the negotiation has reached is answered. -/
theorem onSpdm_expected {s : State} {before : Bool} (ht : s.tripped = false) (he : Boot.ended s.boot = true)
    (hb : before = true) (what : String) (k : State) : onSpdm s what before k = .next k := by
  simp [onSpdm, ht, he, hb]
/-- A request out of the order of negotiation is answered with the error that it was not expected. -/
theorem onSpdm_unexpected {s : State} {before : Bool} (ht : s.tripped = false) (he : Boot.ended s.boot = true)
    (hb : before = false) (what : String) (k : State) :
    ∃ t, onSpdm s what before k = .next t ∧ t.sys.hostReply = .spdm 0x7F [0x04] :=
  ⟨s.spdmErr 0x04, by simp [onSpdm, ht, he, hb], spdmErr_hostReply s 0x04⟩

/-! ## The meaning of each request -/

theorem exec_getVersion (s : State) : exec .getVersion s = execGetVersion s := by rfl
theorem exec_getCapabilities (v : Nat) (s : State) : exec (.getCapabilities v) s = execGetCapabilities v s := by rfl
theorem exec_negotiateAlgorithms (a : Nat) (s : State) :
    exec (.negotiateAlgorithms a) s = execNegotiateAlgorithms a s := by rfl
theorem exec_getDigests (s : State) : exec .getDigests s = execGetDigests s := by rfl
theorem exec_getCertificate (c o n : Nat) (s : State) :
    exec (.getCertificate c o n) s = execGetCertificate c o n s := by rfl
theorem exec_challenge (c : Nat) (nonce : BitVec 256) (s : State) :
    exec (.challenge c nonce) s = execChallenge c nonce s := by rfl
theorem exec_getMeasurements (i : Nat) (nonce : BitVec 256) (s : State) :
    exec (.getMeasurements i nonce) s = execGetMeasurements i nonce s := by rfl

/-! ## Each request where it is expected -/

section
variable {s : State} (ht : s.tripped = false) (he : Boot.ended s.boot = true)
include ht he

theorem exec_getVersion_next :
    exec .getVersion s = .next (State.spdmSay { s with spdm := ⟨1, false, false⟩ } 0x04 [0x12, 0x13]) :=
  (exec_getVersion s).trans (onSpdm_expected ht he rfl _ _)
theorem exec_getCapabilities_next (hv : s.spdm.version ≠ 0) {v : Nat} (hver : v = 0x12 ∨ v = 0x13) :
    exec (.getCapabilities v) s = .next (State.spdmSay { s with spdm := ⟨v, true, false⟩ } 0x61 [v]) := by
  rw [exec_getCapabilities, execGetCapabilities, onSpdm_expected ht he (bne_iff_ne.2 hv), if_pos hver]
theorem exec_negotiateAlgorithms_next (hc : s.spdm.caps = true) {a : Nat} (hasym : a.testBit 7 = true)
    (hhash : a.testBit 1 = true) : exec (.negotiateAlgorithms a) s =
      .next (State.spdmSay { s with spdm := { s.spdm with algs := true } } 0x63 [0x82]) := by
  rw [exec_negotiateAlgorithms, execNegotiateAlgorithms, onSpdm_expected ht he hc, if_pos ⟨hasym, hhash⟩]

variable (ha : s.spdm.algs = true)
include ha

theorem exec_getDigests_next :
    exec .getDigests s = .next (s.spdmSay 0x01 [0x01, (Config.sha384 Config.certChain).toNat]) :=
  (exec_getDigests s).trans (onSpdm_expected ht he ha _ _)
theorem exec_getCertificate_next (o n : Nat) : exec (.getCertificate 0 o n) s =
    .next (if o < Config.certChain.length then
      s.spdmSay 0x02 (0 :: (Config.certChain.length - min (o + n) Config.certChain.length) ::
        bytesNat ((Config.certChain.drop o).take n))
      else s.spdmErr 0x01) := by
  rw [exec_getCertificate, execGetCertificate, onSpdm_expected ht he ha]
  simp only [true_and]
/-- The challenge of slot 0 answers the chain's digest and the measurements, with a signature behind them. -/
theorem exec_challenge_next (nonce : BitVec 256) : ∃ sig, exec (.challenge 0 nonce) s =
    .next (s.spdmSay 0x03
      ((Config.sha384 Config.certChain).toNat :: s.boot.measures.map (·.2.toNat) ++ [sig])) :=
  ⟨_, (exec_challenge 0 nonce s).trans (onSpdm_expected ht he ha _ _)⟩
/-- Index 0 answers the number of the measurements. -/
theorem exec_getMeasurements_count (nonce : BitVec 256) : ∃ sig, exec (.getMeasurements 0 nonce) s =
    .next (s.spdmSay 0x60 [s.boot.measures.length, sig]) :=
  ⟨_, (exec_getMeasurements 0 nonce s).trans (onSpdm_expected ht he ha _ _)⟩
/-- The index of a measurement answers that measurement alone. -/
theorem exec_getMeasurements_one {i : Nat} {m : BitVec 384} (hm : find i s.boot.measures = some m) (h0 : i ≠ 0)
    (hall : i ≠ 0xFF) (hr : rising s.boot.measures = true) (nonce : BitVec 256) :
    ∃ sig, exec (.getMeasurements i nonce) s = .next (s.spdmSay 0x60 [i, m.toNat, sig]) := by
  have hbody : (s.boot.measures.filter fun e => i == 0xFF || e.1 == i) = [(i, m)] := by
    simpa [beq_eq_false_iff_ne.2 hall] using filter_key_of_find hr hm
  rw [exec_getMeasurements, execGetMeasurements, onSpdm_expected ht he ha]
  simp only [h0, if_false, hbody, hm, Option.isSome_some, or_true, if_true]
  exact ⟨_, rfl⟩
end

/-! ## The order of negotiation -/

section
variable {s : State} (ht : s.tripped = false) (he : Boot.ended s.boot = true)
include ht he

theorem exec_getCapabilities_unexpected (hv : s.spdm.version = 0) (v : Nat) :
    ∃ t, exec (.getCapabilities v) s = .next t ∧ t.sys.hostReply = .spdm 0x7F [0x04] :=
  exec_getCapabilities v s ▸ onSpdm_unexpected ht he (by simp [hv]) _ _
theorem exec_negotiateAlgorithms_unexpected (hc : s.spdm.caps = false) (a : Nat) :
    ∃ t, exec (.negotiateAlgorithms a) s = .next t ∧ t.sys.hostReply = .spdm 0x7F [0x04] :=
  exec_negotiateAlgorithms a s ▸ onSpdm_unexpected ht he hc _ _
/-- The requests on certificates and measurements come after the algorithms. -/
theorem exec_attestation_unexpected (ha : s.spdm.algs = false) {ev : Instr}
    (hev : ev = .getDigests ∨ (∃ a b c, ev = .getCertificate a b c) ∨ (∃ a b, ev = .challenge a b) ∨
      ∃ a b, ev = .getMeasurements a b) :
    ∃ t, exec ev s = .next t ∧ t.sys.hostReply = .spdm 0x7F [0x04] := by
  obtain rfl | ⟨c, o, n, rfl⟩ | ⟨c, nonce, rfl⟩ | ⟨i, nonce, rfl⟩ := hev
  · exact exec_getDigests s ▸ onSpdm_unexpected ht he ha _ _
  · exact exec_getCertificate c o n s ▸ onSpdm_unexpected ht he ha _ _
  · exact exec_challenge c nonce s ▸ onSpdm_unexpected ht he ha _ _
  · exact exec_getMeasurements i nonce s ▸ onSpdm_unexpected ht he ha _ _
end

/-- Settles O59: each request is answered where the negotiation has reached it and refused as unexpected before. -/
theorem responderAnswersInOrder : Obligations.ResponderAnswersInOrder := by
  unfold Obligations.ResponderAnswersInOrder
  refine ⟨fun s ev ht he => ⟨?_, ?_, fun ha hev => exec_attestation_unexpected ht he ha hev⟩,
    fun s ht he => ⟨?_, ?_, ?_, fun ha => ⟨?_, ?_, ?_, ?_, ?_⟩⟩⟩
  · rintro hv ⟨v, rfl⟩
    exact exec_getCapabilities_unexpected ht he hv v
  · rintro hc ⟨a, rfl⟩
    exact exec_negotiateAlgorithms_unexpected ht he hc a
  · exact ⟨_, exec_getVersion_next ht he, spdmSay_hostReply .., spdmSay_spdm .., congrArg Doe.out (spdmSay_doe { s with spdm := _ } _ _)⟩
  · exact fun hv v hver => ⟨_, exec_getCapabilities_next ht he hv hver, spdmSay_hostReply .., spdmSay_spdm ..⟩
  · exact fun hc a hasym hhash => ⟨_, exec_negotiateAlgorithms_next ht he hc hasym hhash, spdmSay_spdm ..⟩
  · exact ⟨_, exec_getDigests_next ht he ha, spdmSay_hostReply ..⟩
  · intro o n
    refine ⟨_, exec_getCertificate_next ht he ha o n, ?_⟩
    split
    · exact spdmSay_hostReply ..
    · exact spdmErr_hostReply ..
  · intro nonce
    obtain ⟨sig, h⟩ := exec_challenge_next ht he ha nonce
    exact ⟨_, sig, h, spdmSay_hostReply ..⟩
  · intro nonce
    obtain ⟨sig, h⟩ := exec_getMeasurements_count ht he ha nonce
    exact ⟨_, sig, h, spdmSay_hostReply ..⟩
  · intro nonce i m hm h0 hall hr
    obtain ⟨sig, h⟩ := exec_getMeasurements_one ht he ha hm h0 hall hr nonce
    exact ⟨_, sig, h, spdmSay_hostReply ..⟩

end Sys2Proof.Machine
end

-- What messages, device stores and fault records leave unchanged (R214, R319, R400)
section
/-! What a message on its way, a store of the device, a barrier event and a fault record leave unchanged: the ports but for
their queues, the messages already in the net and the die links; and that the room in the fault queue does not depend on
messages. -/

namespace Sys2Proof.Machine

/-! ## The state without its messages -/

/-- The state with no message in it and every die link alive: what sending leaves as it is. -/
def State.quiet (s : State) : State := { s with net := [], egress := [], ports := [], linkDown := [] }

section
variable (s : State)

@[simp] theorem quiet_idem : s.quiet.quiet = s.quiet := rfl
@[simp] theorem quiet_ent (d line : Nat) : s.quiet.ent d line = s.ent d line := rfl
@[simp] theorem quiet_inSet (d line : Nat) : s.quiet.inSet d line = s.inSet d line := rfl
@[simp] theorem quiet_activeAt (d line : Nat) : s.quiet.activeAt d line = s.activeAt d line := rfl
@[simp] theorem quiet_sideOf (line : Nat) : s.quiet.sideOf line = s.sideOf line := rfl
@[simp] theorem quiet_die (d : Nat) : s.quiet.die d = s.die d := rfl
@[simp] theorem quiet_ownDie (i : Nat) : s.quiet.ownDie i = s.ownDie i := rfl
@[simp] theorem quiet_mem : s.quiet.mem = s.mem := rfl
@[simp] theorem quiet_devDie (line : Nat) : s.quiet.devDie line = s.devDie line := rfl
@[simp] theorem quiet_canWrite (d line : Nat) : s.quiet.canWrite d line = s.canWrite d line := rfl
@[simp] theorem quiet_setEnt (d line : Nat) (e : LineEnt) : (s.setEnt d line e).quiet = s.quiet.setEnt d line e := rfl
@[simp] theorem quiet_dropEnt (d line : Nat) : (s.dropEnt d line).quiet = s.quiet.dropEnt d line := rfl
@[simp] theorem quiet_setSide (line : Nat) (x : Side) : (s.setSide line x).quiet = s.quiet.setSide line x := rfl
@[simp] theorem quiet_enqueue (p : Nat) (f : Flight) : (s.enqueue p f).quiet = s.quiet := rfl
@[simp] theorem quiet_setPort (p : Nat) (k : Port) : (s.setPort p k).quiet = s.quiet := rfl

@[simp] theorem quiet_route (die : Nat) (f : Flight) : (s.route die f).quiet = s.quiet := by
  unfold State.route
  split
  · rfl
  · split
    · rfl
    · split <;> rfl
@[simp] theorem quiet_post (die : Nat) (dest : Dest) (m : Msg) : (s.post die dest m).quiet = s.quiet := by
  unfold State.post
  split
  · rfl
  · exact quiet_route ..
@[simp] theorem quiet_postAll (die : Nat) (l : List Nat) (m : Msg) : (s.postAll die l m).quiet = s.quiet :=
  List.foldlRecOn l _ (motive := fun t : State => t.quiet = s.quiet) rfl
    fun _ h _ _ => (quiet_post ..).trans h
@[simp] theorem quiet_postHome (d line : Nat) (m : Msg) : (s.postHome d line m).quiet = s.quiet := by
  unfold State.postHome
  split
  · exact quiet_post ..
  · rfl
@[simp] theorem quiet_sendLoss (d link : Nat) : (s.sendLoss d link).quiet = s.quiet := quiet_postAll ..

/-- What becomes of a die's lines does not depend on the messages under way. -/
theorem quiet_evict (d line : Nat) : (s.evict d line).quiet = (s.quiet.evict d line).quiet := by
  unfold State.evict
  rw [quiet_ent]
  split <;> simp
theorem quiet_makeWay (d line : Nat) :
    (s.makeWay d line).map State.quiet = (s.quiet.makeWay d line).map State.quiet := by
  by_cases hroom : (s.inSet d line).length < 16
  · have hq : (s.quiet.inSet d line).length < 16 := hroom
    simp only [State.makeWay, if_pos hroom, if_pos hq, Option.map_some, quiet_idem]
  · have hq : ¬ (s.quiet.inSet d line).length < 16 := hroom
    simp only [State.makeWay, if_neg hroom, if_neg hq]
    simp only [quiet_inSet, quiet_activeAt]
    split
    · exact congrArg some (quiet_evict s d _)
    · rfl
theorem quiet_addTokens (d line : Nat) (p : TokPay) :
    (s.addTokens d line p).quiet = (s.quiet.addTokens d line p).quiet := by
  unfold State.addTokens
  rw [quiet_ent]
  split
  · rfl
  · have hway := quiet_makeWay s d line
    revert hway
    cases s.makeWay d line <;> cases s.quiet.makeWay d line <;> intro hway
    · simp
    · simp at hway
    · simp at hway
    · rename_i a b
      have hab : a.quiet = b.quiet := Option.some.inj hway
      rw [quiet_setEnt, quiet_setEnt, ← quiet_inSet a, ← quiet_inSet b, hab]
/-- No die of this package holds tokens of the line any more. -/
def State.dropHolders (s : State) (line : Nat) : State := (s.holders line).foldl (fun s e => s.dropEnt e line) s
theorem quiet_dropHolders (line : Nat) : (s.dropHolders line).quiet = s.quiet.dropHolders line :=
  (List.foldl_hom State.quiet fun _ _ => rfl).symm
/-- The condition on which a die of the line's home takes all its tokens at once: they are at hand, and the home does
nothing for the line. -/
def State.claimable (s : State) (home line : Nat) (whole : Bool) : Bool :=
  (if (s.sideOf line).bad then whole else (s.holders line).isEmpty) && (s.sideOf line).crown &&
    (s.holders line).foldl (fun n e => n + ((s.ent e line).map (·.count)).getD 0) (s.sideOf line).count == 256 &&
    ((s.holders line).all fun e => ((s.ent e line).map (·.serial)) == some (s.sideOf line).serial) &&
    (s.die home).home.idle line
section
variable {s} {d line h : Nat} {whole : Bool}
theorem claim_of_no_home (hh : s.ownHome line = none) : s.claim d line whole = s := by
  simp only [State.claim, hh]
theorem claim_of_not_claimable (hh : s.ownHome line = some h) (hc : ¬ s.claimable h line whole = true) :
    s.claim d line whole = s := by
  unfold State.claimable at hc
  simp only [State.claim, hh, if_neg hc]
theorem claim_of_no_way (hh : s.ownHome line = some h) (hway : (s.dropHolders line).makeWay d line = none) :
    s.claim d line whole = s := by
  unfold State.dropHolders at hway
  simp only [State.claim, hh, hway, ite_self]
theorem claim_takes (hh : s.ownHome line = some h) (hc : s.claimable h line whole = true) {t : State}
    (hway : (s.dropHolders line).makeWay d line = some t) : s.claim d line whole =
      (t.setSide line { s.sideOf line with count := 0, crown := false, poison := false, symErr := 0 }).addTokens d line
        ⟨256, true, (s.sideOf line).serial, some (if (s.sideOf line).bad then 0 else
          bytesLine (rdBytes s.mem (line * 128) 128)), (s.sideOf line).bad⟩ := by
  unfold State.dropHolders at hway
  unfold State.claimable at hc
  simp only [State.claim, hh, hway, if_pos hc]
end
theorem quiet_claim (d line : Nat) (whole : Bool) :
    (s.claim d line whole).quiet = (s.quiet.claim d line whole).quiet := by
  cases hh : s.ownHome line with
  | none =>
    have hq : s.quiet.ownHome line = none := hh
    rw [claim_of_no_home hh, claim_of_no_home hq, quiet_idem]
  | some h =>
    have hq : s.quiet.ownHome line = some h := hh
    by_cases hc : s.claimable h line whole = true
    · have hcq : s.quiet.claimable h line whole = true := hc
      have hway := quiet_makeWay (s.dropHolders line) d line
      rw [quiet_dropHolders] at hway
      cases hs : (s.dropHolders line).makeWay d line <;> cases hs' : (s.quiet.dropHolders line).makeWay d line <;>
        rw [hs, hs'] at hway
      · rw [claim_of_no_way hh hs, claim_of_no_way hq hs', quiet_idem]
      · cases hway
      · cases hway
      · rename_i a b
        have hab : a.quiet = b.quiet := Option.some.inj hway
        rw [claim_takes hh hc hs, claim_takes hq hcq hs', quiet_addTokens, quiet_setSide, hab, ← quiet_setSide,
          ← quiet_addTokens, quiet_sideOf, quiet_mem]
    · have hcq : ¬ s.quiet.claimable h line whole = true := hc
      rw [claim_of_not_claimable hh hc, claim_of_not_claimable hq hcq, quiet_idem]
theorem quiet_devReady (line : Nat) (whole : Bool) :
    (s.devReady line whole).quiet = (s.quiet.devReady line whole).quiet := by
  unfold State.devReady
  rw [quiet_devDie, quiet_canWrite]
  split
  · rfl
  · exact quiet_claim ..
/-- Whether a record can be written at once does not depend on the messages under way. -/
theorem quiet_fqReady : s.quiet.fqReady = s.fqReady := by
  have hline : (s.quiet.devReady s.fqLine false).canWrite (s.devDie s.fqLine) s.fqLine =
      (s.devReady s.fqLine false).canWrite (s.devDie s.fqLine) s.fqLine := by
    rw [← quiet_canWrite, ← quiet_devReady, quiet_canWrite]
  exact congrArg (fun b => s.fqRoom && (!s.tokenLine s.fqLine || b ||
    (s.homeErr (s.devDie s.fqLine) s.fqLine).isSome)) hline
end

/-- Two states that differ in messages alone have the same room in the fault queue. -/
theorem fqReady_congr {s t : State} (h : t.quiet = s.quiet) : t.fqReady = s.fqReady := by
  rw [← quiet_fqReady, h, quiet_fqReady]

/-! ## Operations that only add messages -/

/-- A port without what waits in it. -/
def Port.unqueued (k : Port) : Port := { k with queue := [] }
/-- From the first state to the second, messages have come at most into the net, the queues of the ports and the egress;
the ports are otherwise as they were, and so are the package registers and the die links. -/
structure Carries (s t : State) : Prop where
  port : ∀ p, (t.port p).unqueued = (s.port p).unqueued
  net : s.net ⊆ t.net
  sys : t.sys = s.sys
  linkDown : t.linkDown = s.linkDown

/-- An operation on other parts of the state. -/
theorem Carries.of_eq {s t : State} (hports : t.ports = s.ports := by rfl) (hnet : t.net = s.net := by rfl)
    (hsys : t.sys = s.sys := by rfl) (hlinks : t.linkDown = s.linkDown := by rfl) : Carries s t :=
  ⟨fun p => by rw [State.port, hports]; rfl, fun _ h => hnet ▸ h, hsys, hlinks⟩
theorem Carries.refl (s : State) : Carries s s := .of_eq
theorem Carries.trans {s t u : State} (h : Carries s t) (h' : Carries t u) : Carries s u :=
  ⟨fun p => (h'.port p).trans (h.port p), fun _ hf => h'.net (h.net hf), h'.sys.trans h.sys,
    h'.linkDown.trans h.linkDown⟩
theorem Carries.foldl {α : Type} {f : State → α → State} (hf : ∀ s x, Carries s (f s x)) (l : List α) (s : State) :
    Carries s (l.foldl f s) :=
  List.foldlRecOn l f (motive := Carries s) (.refl s) fun t h x _ => h.trans (hf t x)
/-- A step that is taken under a condition alone. -/
theorem Carries.thenIf {s t u : State} {c : Prop} [Decidable c] (h : Carries s t) (h' : Carries t u) :
    Carries s (if c then u else t) := by
  split
  · exact h.trans h'
  · exact h
theorem Carries.thenUnless {s t u : State} {c : Prop} [Decidable c] (h : Carries s t) (h' : Carries t u) :
    Carries s (if c then t else u) := by
  split
  · exact h
  · exact h.trans h'
/-- A change of the package registers beside what is carried. -/
theorem Carries.withSys {s t : State} (h : Carries s t) (y : Sys) :
    Carries { s with sys := y } { t with sys := y } := ⟨h.port, h.net, rfl, h.linkDown⟩

section
variable {s t : State} (h : Carries s t) (p : Nat)
include h
theorem Carries.st : (t.port p).st = (s.port p).st := by simpa [Port.unqueued] using congrArg Port.st (h.port p)
theorem Carries.retry : (t.port p).retry = (s.port p).retry := by simpa [Port.unqueued] using congrArg Port.retry (h.port p)
theorem Carries.wire : (t.port p).wire = (s.port p).wire := by simpa [Port.unqueued] using congrArg Port.wire (h.port p)
theorem Carries.holds {u : State} {d dst : Nat} {m : Msg} (hm : s.holds u d dst m) : t.holds u d dst m := h.net hm
end

/-! ## Sending -/

section
variable (s : State)

theorem carries_enqueue (p : Nat) (f : Flight) : Carries s (s.enqueue p f) := by
  refine ⟨fun q => ?_, fun _ h => h, rfl, rfl⟩
  unfold State.enqueue
  rw [updPort_eq]
  by_cases hq : q = p
  · subst hq
    rw [setPort_port]
    rfl
  · rw [setPort_port_ne _ hq]
theorem carries_net (f : Flight) : Carries s { s with net := s.net ++ [f] } :=
  ⟨fun _ => rfl, List.subset_append_left .., rfl, rfl⟩
theorem carries_route (die : Nat) (f : Flight) : Carries s (s.route die f) := by
  unfold State.route
  split
  · exact carries_net s f
  · split
    · exact .refl s
    · split
      · exact carries_enqueue ..
      · exact .of_eq
theorem carries_post (die : Nat) (dest : Dest) (m : Msg) : Carries s (s.post die dest m) := by
  unfold State.post
  split
  · exact .refl s
  · exact carries_route ..
theorem carries_postAll (die : Nat) (l : List Nat) (m : Msg) : Carries s (s.postAll die l m) :=
  .foldl (fun s _ => carries_post s ..) l s
theorem carries_postHome (d line : Nat) (m : Msg) : Carries s (s.postHome d line m) := by
  unfold State.postHome
  split
  · exact carries_post ..
  · exact .refl s

/-! ## Lines of a die, requests for them -/

theorem carries_evict (d line : Nat) : Carries s (s.evict d line) := by
  unfold State.evict
  split
  · exact (Carries.of_eq : Carries s (s.dropEnt d line)).trans (carries_postHome ..)
  · exact .refl s
variable {s} in
theorem carries_of_makeWay {t : State} {d line : Nat} (h : s.makeWay d line = some t) : Carries s t := by
  simp only [State.makeWay] at h
  split at h
  · cases h
    exact .refl s
  · split at h
    · cases h
      exact carries_evict ..
    · cases h
theorem carries_addTokens (d line : Nat) (p : TokPay) : Carries s (s.addTokens d line p) := by
  unfold State.addTokens
  split
  · exact .of_eq
  · split
    · rename_i hway
      exact (carries_of_makeWay hway).trans .of_eq
    · exact carries_postHome ..
theorem carries_claim (d line : Nat) (whole : Bool) : Carries s (s.claim d line whole) := by
  cases hh : s.ownHome line with
  | none =>
    rw [claim_of_no_home hh]
    exact .refl s
  | some h =>
    by_cases hc : s.claimable h line whole = true
    · cases hway : (s.dropHolders line).makeWay d line with
      | none =>
        rw [claim_of_no_way hh hway]
        exact .refl s
      | some t =>
        have hdrop : Carries s (s.dropHolders line) := .foldl (fun _ _ => .of_eq) ..
        rw [claim_takes hh hc hway]
        exact ((hdrop.trans (carries_of_makeWay hway)).trans .of_eq).trans (carries_addTokens ..)
    · rw [claim_of_not_claimable hh hc]
      exact .refl s
theorem carries_devReady (line : Nat) (whole : Bool) : Carries s (s.devReady line whole) := by
  unfold State.devReady
  split
  · exact .refl s
  · exact carries_claim ..
theorem carries_sliceWrite (d pa : Nat) (bs : List Byte) : Carries s (s.sliceWrite d pa bs) := by
  unfold State.sliceWrite
  split
  · exact .of_eq
  · exact .refl s
theorem carries_sendReq (d line : Nat) (write : Bool) (dies : List Nat) : Carries s (s.sendReq d line write dies) := by
  simp only [State.sendReq]
  split
  · exact .refl s
  · split
    · exact (carries_post ..).trans (carries_postAll ..)
    · exact (carries_post ..).trans (carries_postAll ..)
    · exact .refl s
theorem carries_request (d line : Nat) (write : Bool) (w : Waiter) : Carries s (s.request d line write w) := by
  unfold State.request
  split
  · exact .of_eq
  · have hreq : Carries s (s.setSreq d line ⟨write, .transient, s.now, [(w, write)]⟩) := .of_eq
    dsimp only
    split
    · exact hreq
    · exact hreq.trans (carries_sendReq ..)

/-! ## Stores of the device -/

theorem carries_flushLine (line : Nat) : Carries s (s.flushLine line) := by
  simp only [State.flushLine]
  split
  · exact .refl s
  · split
    · exact ((carries_devReady ..).trans .of_eq).trans (.foldl (fun s _ => carries_sliceWrite s ..) ..)
    · split
      · exact .refl s
      · exact carries_request ..
theorem carries_devStore (x : Nat × List (Byte × Byte)) : Carries s (s.devStore x) := by
  unfold State.devStore
  split
  · exact .of_eq
  · split <;> exact .of_eq
theorem carries_physStores (ps : List (Nat × List (Byte × Byte))) : Carries s (s.physStores ps) :=
  (Carries.foldl carries_devStore _ s).trans (.foldl carries_flushLine ..)
theorem carries_physWrite (pa : Nat) (bs : List Byte) : Carries s (s.physWrite pa bs) := carries_physStores ..

/-! ## Registers and waits of groups -/

theorem carries_putReg (g : Nat) (b : Bank) (key : Nat) (w : RegWord) : Carries s (s.putReg g b key w) := by
  unfold State.putReg
  split
  · exact .refl s
  · split
    · exact (carries_physWrite ..).trans (carries_physStores ..)
    · exact .of_eq
theorem carries_sbFall (g : Nat) (sb : Option Nat) : Carries s (s.sbFall g sb) := by
  unfold State.sbFall
  split
  · dsimp only
    split
    · exact (carries_physWrite ..).trans .of_eq
    · exact .of_eq
  · exact .refl s
theorem carries_rouse (g e : Nat) (ws : List (Nat × Word)) : Carries s (s.rouse g e ws) := by
  unfold State.rouse
  split
  · exact .refl s
  · split
    · exact (Carries.foldl (fun s _ => carries_putReg s ..) ws s).trans .of_eq
    · exact .of_eq
theorem carries_acquire (core : Nat) (scope : Scope) : Carries s (s.acquire core scope) := by
  unfold State.acquire
  split
  · exact .refl s
  · exact .of_eq
theorem carries_barWake (g e sn : Nat) (b : Barrier) : Carries s (s.barWake g e sn b) := by
  unfold State.barWake
  split
  · exact (carries_acquire ..).trans (carries_rouse ..)
  · exact .refl s
theorem carries_barEvent (team bar : Nat) (ev : BarEv) : Carries s (s.barEvent team bar ev) := by
  unfold State.barEvent
  split
  · exact .refl s
  · rename_i b _
    have hdraw : Carries s (if b.over ev then s.draw else (0, s)).2 := by
      split
      · exact .of_eq
      · exact .refl s
    revert hdraw
    generalize (if b.over ev then s.draw else (0, s)) = d
    intro hdraw
    exact (hdraw.trans .of_eq).thenUnless (.foldl (fun s _ => .foldl (fun s _ => carries_barWake s ..) _ s) ..)

/-! ## Slots of landing zones -/

theorem carries_slotNotify (core idx : Nat) (w : Word) : Carries s (s.slotNotify core idx w) := by
  refine (Carries.of_eq : Carries s _).trans (.foldl (fun s x => ?_) ..)
  have hobserve : Carries s (s.observeSlot core w) := by
    unfold State.observeSlot
    split
    · exact carries_acquire ..
    · exact .refl s
  exact (hobserve.trans (carries_putReg ..)).trans (carries_sbFall ..)
theorem carries_releaseColl (grid : Nat) : Carries s (s.releaseColl grid) := by
  unfold State.releaseColl
  split
  · exact .refl s
  · exact .of_eq
theorem carries_allocFree (team : Nat) : Carries s (s.allocFree team) := by
  unfold State.allocFree
  split
  · exact .refl s
  · split
    · exact .refl s
    · exact (Carries.of_eq : Carries s _).trans (carries_releaseColl ..)
theorem carries_slotRelease (core zn idx : Nat) : Carries s (s.slotRelease core zn idx) := by
  unfold State.slotRelease
  split
  · exact .refl s
  · rename_i sl _
    have hgone : Carries s
        ((s.slotNotify core idx (sl.word 5)).updCore core fun k => { k with slots := del idx k.slots }) :=
      (carries_slotNotify ..).trans .of_eq
    dsimp only
    split
    · exact hgone
    · split
      · exact (hgone.trans .of_eq).trans (carries_allocFree ..)
      · exact hgone.trans .of_eq
theorem carries_slotSet (core zn : Nat) (z : Zone) (idx : Nat) (old new : Slot) :
    Carries s (s.slotSet core zn z idx old new) := by
  have hset : Carries s (s.updCore core fun k => { k with slots := ins idx new k.slots }) := .of_eq
  exact ((hset.thenIf (carries_barEvent ..)).thenUnless (carries_slotNotify ..)).thenIf (carries_slotRelease ..)
theorem carries_slotAbort (r : SlotRef) (cause : Nat) : Carries s (s.slotAbort r cause) := by
  unfold State.slotAbort
  split
  · split
    · exact carries_slotSet ..
    · exact .refl s
  · exact .refl s
theorem carries_abortSlot (core : Nat) (slot : SlotRef) (cause : Nat) : Carries s (s.abortSlot core slot cause) := by
  unfold State.abortSlot
  split
  · exact .refl s
  · exact (Carries.of_eq : Carries s _).trans (carries_post ..)

/-! ## Fault records -/

/-- The second state has other package registers at most, with the same end of the fault queue. -/
def RegistersOnly (s t : State) : Prop := t = { s with sys := t.sys } ∧ t.sys.fqtail = s.sys.fqtail
theorem RegistersOnly.refl : RegistersOnly s s := ⟨rfl, rfl⟩
variable {s} in
theorem RegistersOnly.trans {t u : State} (h : RegistersOnly s t) (h' : RegistersOnly t u) : RegistersOnly s u :=
  ⟨h'.1.trans (by rw [h.1]), h'.2.trans h.2⟩
variable {s} in
theorem RegistersOnly.thenIf {t u : State} {c : Prop} [Decidable c] (h : RegistersOnly s t) (h' : RegistersOnly t u) :
    RegistersOnly s (if c then u else t) := by
  split
  · exact h.trans h'
  · exact h
theorem registersOnly_msixOne (v fn : Nat) : RegistersOnly s (s.msixOne v fn) := by
  unfold State.msixOne
  split
  · exact ⟨rfl, rfl⟩
  · split <;> exact ⟨rfl, rfl⟩
theorem registersOnly_msix (v : Nat) : RegistersOnly s (s.msix v) :=
  List.foldlRecOn (List.range s.functions) _ (motive := RegistersOnly s) ⟨rfl, rfl⟩
    fun t h fn _ => h.trans (registersOnly_msixOne t v fn)
theorem registersOnly_snapshot (src kind : Nat) (tag : Word) : RegistersOnly s (s.snapshot src kind tag) := by
  unfold State.snapshot
  split <;> exact ⟨rfl, rfl⟩

/-- From the first state to the second a record may have been entered: all but the package registers is carried on. -/
def Reports (s t : State) : Prop := Carries { s with sys := t.sys } t
variable {s} in
theorem Carries.reports {t : State} (h : Carries s t) : Reports s t := h.withSys t.sys
section
variable {s} {t : State} (h : Reports s t)
include h
theorem Reports.trans {u : State} (h' : Reports t u) : Reports s u := Carries.trans (h.withSys u.sys) h'
theorem Reports.st (p : Nat) : (t.port p).st = (s.port p).st := Carries.st h p
theorem Reports.retry (p : Nat) : (t.port p).retry = (s.port p).retry := Carries.retry h p
theorem Reports.linkDown : t.linkDown = s.linkDown :=
  Carries.linkDown (s := { s with sys := t.sys }) h
theorem Reports.wire (p : Nat) : (t.port p).wire = (s.port p).wire := Carries.wire h p
end
variable {s} in
theorem reports_of_stored {t u : State} (h : Carries s t)
    (hu : RegistersOnly { t with sys := { t.sys with fqtail := t.sys.fqtail + 1 } } u) :
    Reports s u ∧ u.sys.fqtail = s.sys.fqtail + 1 := by
  obtain ⟨hrest, htail⟩ := hu
  refine ⟨?_, by rw [htail, ← h.sys]⟩
  have hcarry := h.withSys u.sys
  rwa [← hrest] at hcarry
/-- A record goes to memory, moves the end of the queue by one, and may cause an interrupt and a snapshot. -/
theorem reports_putRecord (r : FaultRec) :
    Reports s (s.putRecord r) ∧ (s.putRecord r).sys.fqtail = s.sys.fqtail + 1 := by
  refine reports_of_stored (carries_physWrite s (s.sys.fqbase.toNat + 64 * (s.sys.fqtail.toNat % 4096))
    (r.bytes ++ [BitVec.ofNat 8 (s.sys.fqtail.toNat / 4096 % 2 * 128)])) ?_
  unfold State.putRecord
  exact ((RegistersOnly.refl _).thenIf (registersOnly_msix ..)).thenIf (registersOnly_snapshot ..)
variable {s} in
/-- A record that can be written at once moves the end of the queue by one. -/
theorem report_fqtail (h : s.fqReady = true) (r : FaultRec) : (s.report r).sys.fqtail = s.sys.fqtail + 1 := by
  rw [State.report, if_pos h]
  exact (reports_putRecord s r).2
theorem reports_report (r : FaultRec) : Reports s (s.report r) := by
  simp only [State.report]
  split
  · exact (reports_putRecord s r).1
  · split
    · exact Carries.of_eq
    · split
      · exact Carries.of_eq
      · split <;> exact Carries.of_eq
end

end Sys2Proof.Machine
end

-- Frames of the ports, failures of their links (R386, R402 to R406, R453)
section
/-! What the next frame of a port takes from its queue and what the port keeps of it; what the failure of a link leaves; and
what frames, acknowledgements, retry requests and releases from an egress do. -/

namespace Sys2Proof.Machine

/-! ## Flits -/

theorem flits_pos (m : Msg) : 0 < flits m := by
  unfold flits
  split
  case h_1 | h_2 | h_3 => split <;> decide
  all_goals omega
/-- The flits of a queue. -/
def queueFlits (q : List Flight) : Nat := (q.map fun f => flits f.msg).sum
theorem queued_eq (k : Port) : k.queued = queueFlits k.queue - k.part := by
  unfold Port.queued queueFlits
  rw [List.sum_eq_foldl, List.foldl_map]
/-- The first message of a queue, of which `part` flits have gone out, is not yet whole. -/
def Unfinished (part : Nat) (q : List Flight) : Prop := ∀ f l, q = f :: l → part < flits f.msg
theorem unfinished_zero (q : List Flight) : Unfinished 0 q := fun f _ _ => flits_pos f.msg

/-! ## Filling a frame -/

/-- A frame takes as many flits as it has room for, and leaves the first message that stays unfinished. -/
theorem fillFrame_flits (q : List Flight) (room part : Nat) (h : Unfinished part q) :
    queueFlits (fillFrame room part q).2.1 - (fillFrame room part q).2.2 = queueFlits q - part - room ∧
      Unfinished (fillFrame room part q).2.2 (fillFrame room part q).2.1 := by
  induction q generalizing room part with
  | nil => exact ⟨by simp [fillFrame, queueFlits], fun f l hq => by simp [fillFrame] at hq⟩
  | cons f l ih =>
    have hpart : part < flits f.msg := h f l rfl
    have hsum : queueFlits (f :: l) = flits f.msg + queueFlits l := by simp [queueFlits]
    simp only [fillFrame]
    split
    · exact ⟨by simp [*], h⟩
    · split
      · obtain ⟨hflits, hopen⟩ := ih (room - (flits f.msg - part)) 0 (unfinished_zero l)
        exact ⟨by rw [hflits]; omega, hopen⟩
      · refine ⟨(Nat.sub_sub ..).symm, fun g m hg => ?_⟩
        cases hg
        show part + room < flits f.msg
        omega
theorem fillFrame_subset (q : List Flight) (room part : Nat) : (fillFrame room part q).1 ⊆ q := by
  induction q generalizing room part with
  | nil => simp [fillFrame]
  | cons f l ih =>
    simp only [fillFrame]
    split
    · simp
    · split
      · exact List.cons_subset_cons f (ih ..)
      · simp
theorem fillFrame_ne_nil {q : List Flight} (hq : q ≠ []) {room : Nat} (hroom : room ≠ 0) (part : Nat) :
    (fillFrame room part q).1 ≠ [] := by
  cases q with
  | nil => exact absurd rfl hq
  | cons f l =>
    simp only [fillFrame, if_neg hroom]
    split <;> simp

/-! ## The next frame of a port -/

section
variable {k : Port} {now : Nat}

theorem turnTx_of_no_rekey (h : k.rekeyAt = none) : k.turnTx = k := by simp [Port.turnTx, h]
/-- Nothing of a port is destroyed while nothing in it has come to 2 ms. -/
theorem fresh_of_young (h : ∀ f ∈ k.queue, Flight.age f now < maxAge) : k.fresh now = k := by
  have hkeep : ∀ n, (k.queue.drop n).filter (fun f => decide (Flight.age f now < maxAge)) = k.queue.drop n := fun n =>
    List.filter_eq_self.2 fun f hf => decide_eq_true (h f (List.mem_of_mem_drop hf))
  simp only [Port.fresh, hkeep, List.take_append_drop]
/-- What a port keeps of a frame until it is acknowledged. -/
theorem frame_retry (hrekey : k.rekeyAt = none) : ∀ r ∈ (k.frame now).retry,
    r ∈ k.retry ∨ r.2 ⊆ (k.fresh now).queue := by
  intro r hr
  simp only [Port.frame, turnTx_of_no_rekey hrekey] at hr
  split at hr
  · obtain hold | hnew := List.mem_append.1 hr
    · exact .inl hold
    · rw [List.mem_singleton.1 hnew]
      exact .inr (fillFrame_subset ..)
  · exact .inl hr
/-- A port of which no flit has gone out keeps for a frame nothing that has come to 2 ms. -/
theorem young_of_mem_fresh (hpart : k.part = 0) {f : Flight} (hf : f ∈ (k.fresh now).queue) :
    Flight.age f now < maxAge := by
  have hmem : f ∈ k.queue ∧ Flight.age f now < maxAge := by simpa [Port.fresh, hpart] using hf
  exact hmem.2

section
variable (hst : k.st = .up) (hrekey : k.rekeyAt = none) (hq : k.queue ≠ [])
  (hyoung : ∀ f ∈ k.queue, Flight.age f now < maxAge)
include hrekey hyoung

/-- No frame goes out under sequence number 2^32 (R406). -/
theorem frame_at_limit (htx : 2 ^ 32 ≤ k.tx.toNat) : k.frame now = k := by
  simp only [Port.frame, turnTx_of_no_rekey hrekey, fresh_of_young hyoung]
  rw [if_neg fun h => absurd h.2.2 (by omega)]
include hst hq
theorem frame_eq (htx : k.tx.toNat < 2 ^ 32) : k.frame now = { k with
    queue := (fillFrame 5 k.part k.queue).2.1, part := (fillFrame 5 k.part k.queue).2.2
    retry := k.retry ++ [(k.tx, (fillFrame 5 k.part k.queue).1)], tx := k.tx + 1
    wire := k.wire ++ [.frame k.tx (fillFrame 5 k.part k.queue).1]
    ackSince := if k.retry.isEmpty then now else k.ackSince } := by
  simp only [Port.frame, turnTx_of_no_rekey hrekey, fresh_of_young hyoung]
  rw [if_pos ⟨hst, by simpa using hq, htx⟩]
/-- The next frame of a port (R403, R404). -/
theorem frame_sends (hpart : Unfinished k.part k.queue) (htx : k.tx.toNat < 2 ^ 32) :
    ∃ ms, (k.frame now).retry = k.retry ++ [(k.tx, ms)] ∧ ms ≠ [] ∧ (k.frame now).tx = k.tx + 1 ∧
      (k.frame now).wire = k.wire ++ [.frame k.tx ms] ∧ (k.frame now).queued = k.queued - 5 ∧
      Unfinished (k.frame now).part (k.frame now).queue := by
  obtain ⟨hflits, hopen⟩ := fillFrame_flits k.queue 5 k.part hpart
  rw [frame_eq hst hrekey hq hyoung htx, queued_eq, queued_eq]
  exact ⟨_, rfl, fillFrame_ne_nil hq (by decide) _, rfl, rfl, hflits, hopen⟩
end
end

theorem off_refused (what : String) : ∃ why, off what = .refused (.notEnabled why) := ⟨what, rfl⟩

/-! ## Losses (R386) -/

/-- A message of a die is told by what the die is: nothing under way matters to it. -/
theorem holds_congr {t s u : State} (h : u.quiet = s.quiet) {d dst : Nat} {m : Msg} (hm : t.holds u d dst m) :
    t.holds s d dst m := by
  have hq : t.holds u.quiet d dst m := hm
  rw [h] at hq
  exact hq
/-- A die that has not failed sends a message to a die of this package into the net. -/
theorem post_holds {s : State} {d i : Nat} (hd : (s.die d).failed = false) (hi : (s.ownDie i).isSome = true) (m : Msg) :
    (s.post d (.die i) m).holds s d i m := by
  have hin : s.within (.die i) = true := hi
  simp [State.post, State.route, State.holds, hd, hin]
theorem postAll_holds {s : State} {d i : Nat} {l : List Nat} (hl : i ∈ l) (hd : (s.die d).failed = false)
    (hi : (s.ownDie i).isSome = true) (m : Msg) : (s.postAll d l m).holds s d i m := by
  obtain ⟨before, after, rfl⟩ := List.mem_iff_append.1 hl
  have hq : (s.postAll d before m).quiet = s.quiet := quiet_postAll ..
  have hsent : ((s.postAll d before m).post d (.die i) m).holds (s.postAll d before m) d i m := by
    refine post_holds ?_ ?_ m
    · rw [← quiet_die, hq]
      exact hd
    · rw [← quiet_ownDie, hq]
      exact hi
  have hkeep : Carries ((s.postAll d before m).post d (.die i) m) (s.postAll d (before ++ i :: after) m) := by
    unfold State.postAll
    rw [List.foldl_append]
    exact carries_postAll _ d after m
  exact holds_congr hq (hkeep.holds hsent)
/-- Every home of this package is told that a link of a die is lost. -/
def TellsLoss (s t : State) (d link : Nat) : Prop :=
  (s.die d).failed = false → ∀ i, i < 8 * s.enum.islsize → (s.ownDie i).isSome = true → t.holds s d i (.loss link)
theorem sendLoss_tells (s : State) (d link : Nat) : TellsLoss s (s.sendLoss d link) d link :=
  fun hd _ hlt hi => postAll_holds (List.mem_range.2 hlt) hd hi _
theorem TellsLoss.later {s t u : State} {d link : Nat} (h : TellsLoss s t d link) (hc : Reports t u) :
    TellsLoss s u d link := fun hd i hlt hi => hc.net (h hd i hlt hi)
/-- What is told is told of any state that differs in messages alone. -/
theorem TellsLoss.congr {s t u : State} {d link : Nat} (h : TellsLoss u t d link) (hq : u.quiet = s.quiet) :
    TellsLoss s t d link := by
  have hu : TellsLoss u.quiet t d link := h
  rw [hq] at hu
  exact hu

/-! ## Failures of a port (R405) -/

section
variable (s : State)

theorem carries_abortFill (p : Nat) (f : Flight) : Carries s (s.abortFill p f) := by
  unfold State.abortFill
  split
  · exact carries_abortSlot ..
  · exact .refl s
theorem carries_abortInbound (f : Flight) : Carries s (s.abortInbound f) := by
  unfold State.abortInbound
  split
  · split
    · exact carries_slotAbort ..
    · exact .refl s
  · exact .refl s
/-- Messages that take other ports change nothing but what is under way. -/
theorem reroute_spec (via : List (Nat × Nat)) (l : List Flight) :
    Carries s (s.reroute via l) ∧ (s.reroute via l).quiet = s.quiet := by
  induction l generalizing s via with
  | nil => exact ⟨.refl s, rfl⟩
  | cons f l ih =>
    have after : ∀ t : State, Carries s t → t.quiet = s.quiet → ∀ via,
        Carries s (t.reroute via l) ∧ (t.reroute via l).quiet = s.quiet := fun t ht hq via =>
      ⟨ht.trans (ih t via).1, (ih t via).2.trans hq⟩
    unfold State.reroute
    split
    · exact ih s via
    · split
      · exact after _ (carries_route ..) (quiet_route ..) via
      · split
        · exact after _ (carries_enqueue ..) (quiet_enqueue ..) via
        · split
          · exact after _ (carries_enqueue ..) (quiet_enqueue ..) _
          · exact after { s with egress := s.egress ++ [f] } .of_eq rfl via
/-- A port whose link has failed. -/
def Port.failed (k : Port) (now : Nat) : Port := { k with
  st := .down, retry := [], queue := [], part := 0, fails := 0, resends := 0, rekeyAt := none, txSwitched := false,
  rxSwitched := false, skipTo := false, txKey := 0, rxKey := 0, nextTx := 0, nextRx := 0, ephem := 0, since := now }
/-- The link of a port has failed: it is Down, its retry buffer is lost, and every home is told. -/
def LinkFailed (s t : State) (p : Nat) : Prop :=
  (t.port p).st = .down ∧ (t.port p).retry = [] ∧ TellsLoss s t (portDie p) (16 + p)
theorem linkFails_spec (p : Nat) (arriving : List Flight) :
    Reports (s.setPort p ((s.port p).failed s.now)) (s.linkFails p arriving) ∧
      TellsLoss s (s.linkFails p arriving) (portDie p) (16 + p) := by
  unfold State.linkFails
  extract_lets k begun lost downed routed told
  obtain ⟨hroute, hquiet⟩ := reroute_spec downed [] (k.queue.drop begun.length)
  have hend : Reports (routed.sendLoss (portDie p) (16 + p)) (arriving.foldl State.abortInbound
      (lost.foldl (fun s f => s.abortFill p f) told)) :=
    ((reports_report _ _).trans (Carries.foldl (fun s f => carries_abortFill s p f) _ _).reports).trans
      (Carries.foldl carries_abortInbound _ _).reports
  exact ⟨((hroute.trans (carries_postAll ..)).reports).trans hend,
    ((sendLoss_tells routed _ _).congr hquiet).later hend⟩
theorem linkFails_failed (p : Nat) (arriving : List Flight) : LinkFailed s (s.linkFails p arriving) p := by
  obtain ⟨hrest, hloss⟩ := linkFails_spec s p arriving
  exact ⟨(hrest.st p).trans (by rw [setPort_port]; rfl), (hrest.retry p).trans (by rw [setPort_port]; rfl), hloss⟩
theorem linkFails_wire (p : Nat) (arriving : List Flight) : ((s.linkFails p arriving).port p).wire = (s.port p).wire :=
  ((linkFails_spec s p arriving).1.wire p).trans (by rw [setPort_port]; rfl)
end

/-! ## A change of one port -/

/-- The second state is the first with one port replaced. -/
def OnlyPort (s t : State) (p : Nat) (k : Port) : Prop :=
  t = { s with ports := t.ports } ∧ t.port p = k ∧ ∀ q, q ≠ p → t.port q = s.port q
theorem onlyPort_setPort (s : State) (p : Nat) (k : Port) : OnlyPort s (s.setPort p k) p k :=
  ⟨rfl, setPort_port .., fun _ h => setPort_port_ne s h k⟩
theorem onlyPort_enqueue (s : State) (p : Nat) (f : Flight) :
    OnlyPort s (s.enqueue p f) p { s.port p with queue := (s.port p).queue ++ [f] } := onlyPort_setPort ..

/-! ## Frames (R403, R404) -/

theorem exec_frameReceive (p : Nat) (f : Frame) (s : State) :
    exec (.frameReceive p f) s = execFrameReceive p f s := by rfl
theorem exec_frameAcknowledgement (p : Nat) (seq : BitVec 64) (s : State) :
    exec (.frameAcknowledgement p seq) s = execFrameAcknowledgement p seq s := by rfl
theorem exec_retryRequest (p : Nat) (seq : BitVec 64) (s : State) :
    exec (.retryRequest p seq) s = execRetryRequest p seq s := by rfl
theorem exec_linkAckTimeout (s : State) : exec .linkAckTimeout s = execLinkAckTimeout s := by rfl
theorem exec_egressWaitRelease (s : State) : exec .egressWaitRelease s = execEgressWaitRelease s := by rfl

theorem turnRx_of_no_rekey {k : Port} (h : k.rekeyAt = none) : k.turnRx = k := by simp [Port.turnRx, h]

section
variable {p : Nat} {f : Frame} {s : State}

section
variable (hp : p < 36) (hst : (s.port p).st = .up) (hrekey : (s.port p).rekeyAt = none)
include hp hst hrekey

/-- A frame that verifies under the expected number delivers its messages and is acknowledged. -/
theorem frameReceive_delivers (hok : f.tagOk = true) (hseq : f.seq = (s.port p).rx) (hpkg : s.enum.pkgValid = true)
    (hage : ∀ m ∈ f.msgs, m.aged < maxAge) : ∃ t, exec (.frameReceive p f) s = .next t ∧
      t = { s with ports := t.ports, net := t.net } ∧ t.port p = { s.port p with
        rx := (s.port p).rx + 1, fails := 0, skipTo := false, wire := (s.port p).wire ++ [.ack (s.port p).rx] } ∧
      t.net = s.net ++ f.msgs.map (s.incoming p) := by
  have hall : f.msgs.filter (fun x => s.accepts x.msg && decide (x.aged < maxAge)) = f.msgs :=
    List.filter_eq_self.2 fun m hm => by simp [State.accepts, hpkg, hage m hm]
  rw [exec_frameReceive, execFrameReceive, turnRx_of_no_rekey hrekey, if_neg (by simp [hst]; omega),
    if_pos (by simp [hok, hseq]), hall]
  exact ⟨_, rfl, rfl, setPort_port .., rfl⟩

section
variable (hbad : f.tagOk = false ∨ f.seq ≠ (s.port p).rx)
include hbad

/-- What becomes of any other frame. -/
theorem exec_frameReceive_invalid : exec (.frameReceive p f) s =
    if (s.port p).skipTo && f.seq != (s.port p).rx then .next (s.setPort p (s.port p))
    else if (s.port p).containment || decide (8 ≤ (s.port p).fails + 1) then
      .next ((s.setPort p (s.port p)).linkFails p f.msgs)
    else .next (s.setPort p { s.port p with
      fails := (s.port p).fails + 1, skipTo := true, wire := (s.port p).wire ++ [.retry (s.port p).rx] }) := by
  rw [exec_frameReceive, execFrameReceive, turnRx_of_no_rekey hrekey, if_neg (by simp [hst]; omega),
    if_neg (by rcases hbad with h | h <;> simp [h])]
  rfl
/-- Frames behind one that has been asked for again are passed over. -/
theorem frameReceive_skips (hskip : (s.port p).skipTo = true) (hseq : f.seq ≠ (s.port p).rx) :
    ∃ t, exec (.frameReceive p f) s = .next t ∧ OnlyPort s t p (s.port p) := by
  rw [exec_frameReceive_invalid hp hst hrekey hbad, if_pos (by simp [hskip, hseq])]
  exact ⟨_, rfl, onlyPort_setPort ..⟩

section
variable (hnew : (s.port p).skipTo = false ∨ f.seq = (s.port p).rx)
include hnew

theorem frameReceive_asks_again (hmode : (s.port p).containment = false) (hfew : (s.port p).fails < 7) :
    ∃ t, exec (.frameReceive p f) s = .next t ∧ OnlyPort s t p { s.port p with
      fails := (s.port p).fails + 1, skipTo := true, wire := (s.port p).wire ++ [.retry (s.port p).rx] } := by
  rw [exec_frameReceive_invalid hp hst hrekey hbad, if_neg (by rcases hnew with h | h <;> simp [h]),
    if_neg (by simp [hmode]; omega)]
  exact ⟨_, rfl, onlyPort_setPort ..⟩
theorem frameReceive_fails (hfail : (s.port p).containment = true ∨ 7 ≤ (s.port p).fails) :
    ∃ t, exec (.frameReceive p f) s = .next t ∧ LinkFailed s t p := by
  rw [exec_frameReceive_invalid hp hst hrekey hbad, if_neg (by rcases hnew with h | h <;> simp [h]),
    if_pos (by simpa using hfail)]
  exact ⟨_, rfl, linkFails_failed (s.setPort p (s.port p)) p f.msgs⟩
end
end
end

theorem exec_frameReceive_not_up (hst : (s.port p).st ≠ .up) (hrekey : (s.port p).rekeyAt = none) :
    ∃ why, exec (.frameReceive p f) s = .refused (.notEnabled why) := by
  rw [exec_frameReceive, execFrameReceive, turnRx_of_no_rekey hrekey, if_pos (.inr hst)]
  exact off_refused _

section
variable {seq : BitVec 64} (hst : (s.port p).st = .up)
include hst

theorem frameAcknowledgement_frees (hseq : ((s.port p).retry.any fun r => r.1 == seq) = true) :
    ∃ t, exec (.frameAcknowledgement p seq) s = .next t ∧ OnlyPort s t p { s.port p with
      retry := (s.port p).retry.filter (fun r => r.1 != seq), acked := seq + 1, ackSince := s.now, resends := 0 } := by
  rw [exec_frameAcknowledgement, execFrameAcknowledgement, if_pos ⟨hst, hseq⟩]
  exact ⟨_, rfl, onlyPort_setPort ..⟩
omit hst in
/-- A frame is in the retry buffer exactly when something goes out again from it on. -/
theorem resent_isEmpty (l : List (BitVec 64 × List Flight)) (seq : BitVec 64) :
    ((l.dropWhile fun r => r.1 != seq).map fun r => Wire.frame r.1 r.2).isEmpty = !l.any fun r => r.1 == seq := by
  rw [List.isEmpty_map]
  induction l with
  | nil => rfl
  | cons r l ih =>
    by_cases h : r.1 = seq
    · simp [List.dropWhile, h]
    · have hne : (r.1 != seq) = true := by simpa using h
      simp [List.dropWhile, hne, ih, h]
theorem exec_retryRequest_up : exec (.retryRequest p seq) s =
    if (s.port p).containment || decide (8 ≤ (s.port p).resends + 1) || !(s.port p).retry.any fun r => r.1 == seq then
      .next (s.linkFails p [])
    else .next (s.setPort p { s.port p with
      resends := (s.port p).resends + 1
      wire := (s.port p).wire ++ ((s.port p).retry.dropWhile fun r => r.1 != seq).map fun r => Wire.frame r.1 r.2 }) := by
  rw [exec_retryRequest, execRetryRequest, if_neg (not_not.2 hst), resent_isEmpty]
  rfl
/-- The frame that is asked for and every later one go out again. -/
theorem retryRequest_resends (hmode : (s.port p).containment = false) (hfew : (s.port p).resends < 7)
    (hseq : ((s.port p).retry.any fun r => r.1 == seq) = true) :
    ∃ t, exec (.retryRequest p seq) s = .next t ∧ OnlyPort s t p { s.port p with
      resends := (s.port p).resends + 1
      wire := (s.port p).wire ++ ((s.port p).retry.dropWhile fun r => r.1 != seq).map fun r => Wire.frame r.1 r.2 } := by
  rw [exec_retryRequest_up hst, if_neg (by simp [hmode, hseq]; omega)]
  exact ⟨_, rfl, onlyPort_setPort ..⟩
theorem retryRequest_fails (hfail : (s.port p).containment = true ∨ 7 ≤ (s.port p).resends ∨
    ((s.port p).retry.any fun r => r.1 == seq) = false) :
    ∃ t, exec (.retryRequest p seq) s = .next t ∧ LinkFailed s t p := by
  rw [exec_retryRequest_up hst, if_pos]
  · exact ⟨_, rfl, linkFails_failed s p []⟩
  · obtain h | h | h := hfail
    · simp [h]
    · rw [decide_eq_true (show 8 ≤ (s.port p).resends + 1 by omega)]
      simp
    · simp [h]
end
end

section
variable {s : State}

/-- A frame that is not acknowledged for 20 µs fails the link, and none before. -/
theorem linkAckTimeout_fails (hst : (s.port s.pick).st = .up) (hretry : (s.port s.pick).retry ≠ [])
    (hlate : (s.port s.pick).ackSince + 2000 ≤ s.now) :
    ∃ t, exec .linkAckTimeout s = .next t ∧ LinkFailed s t s.pick := by
  rw [exec_linkAckTimeout, execLinkAckTimeout, if_pos ⟨hst, by simpa using hretry, hlate⟩]
  exact ⟨_, rfl, linkFails_failed ..⟩
theorem linkAckTimeout_early (hsoon : s.now < (s.port s.pick).ackSince + 2000) :
    ∃ why, exec .linkAckTimeout s = .refused (.notEnabled why) := by
  rw [exec_linkAckTimeout, execLinkAckTimeout, if_neg fun h => absurd h.2.2 (Nat.not_le.2 hsoon)]
  exact off_refused _
end

/-! ## Messages at an egress (R412, R453) -/

/-- Messages that come into a port, one after the other. -/
theorem enqueueAll_spec (l : List Flight) (s : State) (p : Nat) :
    ((l.foldl (fun s x => s.enqueue p x) s).port p).queue = (s.port p).queue ++ l ∧
      (l.foldl (fun s x => s.enqueue p x) s).egress = s.egress := by
  induction l generalizing s with
  | nil => simp
  | cons f l ih =>
    obtain ⟨hq, he⟩ := ih (s.enqueue p f)
    rw [List.foldl_cons, hq, he, (onlyPort_enqueue s p f).2.1, List.append_assoc]
    exact ⟨rfl, rfl⟩
section
variable {s : State} {f : Flight} {p : Nat} (hf : s.egress[s.pick]? = some f)
  (hp : s.bestPort (s.sendDie f) (s.portsFor f.dest) = some p) (hage : Flight.age f s.now < maxAge)
  (hbar : s.barred f.msg = false)
include hf hp hage hbar

theorem egressWaitRelease_one (htrain : Msg.train f.msg = none) : ∃ t, exec .egressWaitRelease s = .next t ∧
    t.egress = dropNth s.pick s.egress ∧
    OnlyPort { s with egress := t.egress } t p { s.port p with queue := (s.port p).queue ++ [f] } := by
  have hyoung : ¬ maxAge ≤ Flight.age f s.now := Nat.not_le.2 hage
  simp only [exec_egressWaitRelease, execEgressWaitRelease, hf, hp, hbar, hyoung, htrain, decide_false, Bool.or_false,
    Bool.false_eq_true, if_false, Option.isNone_none, if_true]
  exact ⟨_, rfl, rfl, onlyPort_enqueue { s with egress := dropNth s.pick s.egress } p f⟩
/-- The pieces of one multicast leave through one port. -/
theorem egressWaitRelease_train {n : Nat} (htrain : Msg.train f.msg = some n) :
    ∃ t, exec .egressWaitRelease s = .next t ∧
    ∀ x ∈ s.egress, Msg.train x.msg = some n → x ∈ (t.port p).queue ∧ x ∉ t.egress := by
  have hyoung : ¬ maxAge ≤ Flight.age f s.now := Nat.not_le.2 hage
  obtain ⟨hqueue, hegress⟩ := enqueueAll_spec (s.egress.filter fun x => Msg.train x.msg == some n)
    { s with egress := s.egress.filter fun x => !(Msg.train x.msg == some n) } p
  simp only [exec_egressWaitRelease, execEgressWaitRelease, hf, hp, hbar, hyoung, htrain, decide_false, Bool.or_false,
    Bool.false_eq_true, if_false, Option.isNone_some, Option.isSome_some, Bool.true_and]
  refine ⟨_, rfl, fun x hx hn => ?_⟩
  rw [hqueue, hegress]
  exact ⟨List.mem_append_right _ (by simp [hx, hn]), by simp [hn]⟩
end

end Sys2Proof.Machine
end

-- Keys, assignment, die links and extents (R17, R386, R403 to R411)
section
/-! What the other events of the ports do, and those of the die links and of the extent map; and the obligation on them. -/

namespace Sys2Proof.Machine

/-! ## States of a port, keys (R406, R407) -/

theorem exec_portRestart (s : State) : exec .portRestart s = execPortRestart s := by rfl
theorem exec_lanesTrained (s : State) : exec .lanesTrained s = execLanesTrained s := by rfl
theorem exec_portTimeout (s : State) : exec .portTimeout s = execPortTimeout s := by rfl
theorem exec_keyExchange (p : Nat) (k : KeyMsg) (s : State) : exec (.keyExchange p k) s = execKeyExchange p k s := by rfl
theorem exec_rekey (p : Nat) (k : KeyMsg) (n : BitVec 64) (s : State) : exec (.rekey p k n) s = execRekey p k n s := by
  rfl

theorem portRestart_trains {s : State} (hp : s.pick < 36) (hst : (s.port s.pick).st = .down) :
    ∃ t, exec .portRestart s = .next t ∧
      OnlyPort s t s.pick { s.port s.pick with st := .training, since := s.now } := by
  rw [exec_portRestart, execPortRestart, if_pos ⟨hp, hst⟩]
  exact ⟨_, rfl, onlyPort_setPort ..⟩
/-- A port that sends its key: a fresh secret, whose public key goes out with the certificate. -/
theorem sendKey_onlyPort (s : State) (p : Nat) : ∃ e, OnlyPort { s with freeCtr := s.freeCtr + 1 } (s.sendKey p) p
    { s.port p with ephem := e, wire := (s.port p).wire ++ [.key (Config.ecPublic e) Config.identCert] } :=
  ⟨_, onlyPort_setPort { s with freeCtr := s.freeCtr + 1 } p _⟩
/-- Changes of one port, one after the other. -/
theorem OnlyPort.trans {s t u : State} {p : Nat} {k x : Port} (h : OnlyPort s t p k)
    (h' : OnlyPort { t with freeCtr := u.freeCtr } u p x) : OnlyPort { s with freeCtr := u.freeCtr } u p x := by
  obtain ⟨hst, -, hne⟩ := h
  obtain ⟨htu, hx, hne'⟩ := h'
  exact ⟨htu.trans (by rw [hst]), hx, fun q hq => (hne' q hq).trans (hne q hq)⟩
theorem lanesTrained_keys {s : State} (hst : (s.port s.pick).st = .training) : ∃ t, exec .lanesTrained s = .next t ∧
    ∃ e, OnlyPort { s with freeCtr := t.freeCtr } t s.pick { s.port s.pick with
      st := .keying, since := s.now, ephem := e
      wire := (s.port s.pick).wire ++ [.key (Config.ecPublic e) Config.identCert] } := by
  obtain ⟨e, hkey⟩ := sendKey_onlyPort (s.setPort s.pick { s.port s.pick with st := .keying, since := s.now }) s.pick
  rw [setPort_port] at hkey
  rw [exec_lanesTrained, execLanesTrained, if_pos hst]
  exact ⟨_, rfl, e, (onlyPort_setPort s s.pick _).trans hkey⟩
theorem reports_portEvent (s : State) (p : Nat) : Reports s (s.portEvent p) := reports_report ..
/-- A port that goes Down with the event of R405: it is Down, and the record goes to the fault queue. -/
theorem portEvent_setPort (s : State) (p : Nat) (k : Port) :
    (((s.setPort p k).portEvent p).port p).unqueued = k.unqueued ∧
      (s.fqReady = true → ((s.setPort p k).portEvent p).sys.fqtail = s.sys.fqtail + 1) := by
  refine ⟨?_, fun hq => report_fqtail ((fqReady_congr (quiet_setPort s p k)).trans hq) _⟩
  have hport : (((s.setPort p k).portEvent p).port p).unqueued = ((s.setPort p k).port p).unqueued :=
    Carries.port (reports_portEvent (s.setPort p k) p) p
  rw [hport, setPort_port]
theorem portTimeout_down {s : State} (h : (s.port s.pick).st = .training ∨
    ((s.port s.pick).st = .keying ∧ (s.port s.pick).since + 10000000 ≤ s.now)) :
    ∃ t, exec .portTimeout s = .next t ∧
      (t.port s.pick).st = .down ∧ (s.fqReady = true → t.sys.fqtail = s.sys.fqtail + 1) := by
  obtain ⟨hport, hqueue⟩ := portEvent_setPort s s.pick { s.port s.pick with st := .down, ephem := 0, since := s.now }
  rw [exec_portTimeout, execPortTimeout, if_pos h]
  exact ⟨_, rfl, congrArg Port.st hport, hqueue⟩

theorem keyOk_of_map {s : State} {m : UnitMap} (h : s.boot.map = some m) (x : Port) (k : KeyMsg) :
    s.keyOk x k = Config.keyOk m.rootKey k.cert (x.keyHash k) k.sig := by simp [State.keyOk, State.verifies, h]
theorem keyOk_of_no_map {s : State} (h : s.boot.map = none) (x : Port) (k : KeyMsg) : s.keyOk x k = false := by
  simp [State.keyOk, State.verifies, h]

section
variable {s : State} {p : Nat} {k : KeyMsg} (hp : p < 36)
include hp

/-- The port signs, and is keyed with the peer's signature verified, else Down. -/
theorem keyExchange_signs (hst : (s.port p).st = .keying) : ∃ t, exec (.keyExchange p k) s = .next t ∧
    (t.port p).wire = (s.port p).wire ++ [.sign (Config.identSign ((s.port p).keyHash k))] ∧
    (s.keyOk (s.port p) k = true → (t.port p).st = .up ∧ (t.port p).tx = 0 ∧ (t.port p).rx = 0 ∧
      (t.port p).retry = [] ∧ (t.port p).rekeyAt = none ∧
      (t.port p).txKey = ((s.port p).agree k).1 ∧ (t.port p).rxKey = ((s.port p).agree k).2) ∧
    (s.keyOk (s.port p) k = false → (t.port p).st = .down) := by
  rw [exec_keyExchange, execKeyExchange, if_neg (by simp [hst]; omega)]
  cases s.keyOk (s.port p) k with
  | true =>
    refine ⟨_, rfl, ?_⟩
    rw [setPort_port]
    exact ⟨rfl, fun _ => ⟨rfl, rfl, rfl, rfl, rfl, rfl, rfl⟩, by simp⟩
  | false =>
    obtain ⟨hport, -⟩ := portEvent_setPort s p { (s.port p).sign k with st := .down, ephem := 0, since := s.now }
    exact ⟨_, rfl, congrArg Port.wire hport, by simp, fun _ => congrArg Port.st hport⟩

section
variable {n : BitVec 64} (hst : (s.port p).st = .up) (hrekey : (s.port p).rekeyAt = none)
  (hdue : 2 ^ 32 - 2 ^ 20 ≤ (s.port p).tx.toNat ∨ 2 ^ 32 - 2 ^ 20 ≤ (s.port p).rx.toNat)
  (htx : (s.port p).tx.toNat ≤ n.toNat) (hrx : (s.port p).rx.toNat ≤ n.toNat) (hn : n.toNat ≤ 2 ^ 32)
include hst hrekey hdue htx hrx hn

theorem exec_rekey_up : exec (.rekey p k n) s = if s.keyOk ((s.sendKey p).port p) k then
      .next ((s.sendKey p).setPort p { ((s.sendKey p).port p).sign k with
        nextTx := (((s.sendKey p).port p).agree k).1, nextRx := (((s.sendKey p).port p).agree k).2, rekeyAt := some n
        txSwitched := false, rxSwitched := false, ephem := 0 })
    else .next (((s.sendKey p).setPort p (((s.sendKey p).port p).sign k)).linkFails p []) := by
  have hgo : (decide (2 ^ 32 - 2 ^ 20 ≤ (s.port p).tx.toNat) ||
      decide (2 ^ 32 - 2 ^ 20 ≤ (s.port p).rx.toNat)) = true := by simpa using hdue
  rw [exec_rekey, execRekey, if_neg]
  rw [hgo, hst, hrekey]
  simp only [Option.isSome_none, Bool.not_true, Bool.false_eq_true, ne_eq, not_true, false_or]
  omega
/-- With the peer's signature verified the new keys wait for the frame at which they take effect. -/
theorem rekey_agrees (hok : s.keyOk ((s.sendKey p).port p) k = true) : ∃ t, exec (.rekey p k n) s = .next t ∧
    (t.port p).rekeyAt = some n ∧ (t.port p).wire = ((s.sendKey p).port p).wire ++
      [.sign (Config.identSign (((s.sendKey p).port p).keyHash k))] ∧
    (t.port p).tx = (s.port p).tx ∧ (t.port p).txKey = (s.port p).txKey ∧
    (t.port p).nextTx = (((s.sendKey p).port p).agree k).1 ∧
    (t.port p).nextRx = (((s.sendKey p).port p).agree k).2 ∧ (t.port p).txSwitched = false ∧
    (t.port p).rxSwitched = false := by
  obtain ⟨e, -, hsent, -⟩ := sendKey_onlyPort s p
  have htx' : ((s.sendKey p).port p).tx = (s.port p).tx := by rw [hsent]
  have hkey : ((s.sendKey p).port p).txKey = (s.port p).txKey := by rw [hsent]
  rw [exec_rekey_up hp hst hrekey hdue htx hrx hn, if_pos hok]
  refine ⟨_, rfl, ?_⟩
  rw [setPort_port]
  exact ⟨rfl, rfl, htx', hkey, rfl, rfl, rfl, rfl⟩
theorem rekey_fails (hok : s.keyOk ((s.sendKey p).port p) k = false) : ∃ t, exec (.rekey p k n) s = .next t ∧
    LinkFailed s t p ∧ (t.port p).wire = ((s.sendKey p).port p).wire ++
      [.sign (Config.identSign (((s.sendKey p).port p).keyHash k))] := by
  rw [exec_rekey_up hp hst hrekey hdue htx hrx hn, if_neg (by simp [hok])]
  refine ⟨_, rfl, linkFails_failed ((s.sendKey p).setPort p (((s.sendKey p).port p).sign k)) p [], ?_⟩
  rw [linkFails_wire, setPort_port]
  rfl
end
end

/-! ## Assignment (R408) -/

theorem exec_assignment (p : Nat) (a : Assign) (s : State) : exec (.assignment p a) s = execAssignment p a s := by rfl

section
variable {α : Type} (f : α → Port → Port)

/-- A list of changes, each of the port that it names. -/
def State.updPorts (s : State) (l : List (Nat × α)) : State := l.foldl (fun s m => s.updPort m.1 (f m.2)) s
theorem updPorts_eq (s : State) (l : List (Nat × α)) : s.updPorts f l = { s with ports := (s.updPorts f l).ports } :=
  List.foldlRecOn l _ (motive := fun t : State => t = { s with ports := t.ports }) rfl fun t h m _ =>
    (onlyPort_setPort t m.1 (f m.2 (t.port m.1))).1.trans (by rw [h]; rfl)
/-- A field that no change touches. -/
theorem updPorts_field {β : Type} (π : Port → β) (hπ : ∀ x k, π (f x k) = π k) (s : State) (l : List (Nat × α))
    (q : Nat) : π ((s.updPorts f l).port q) = π (s.port q) :=
  List.foldlRecOn l _ (motive := fun t : State => π (t.port q) = π (s.port q)) rfl fun t h m _ => by
    rw [← h, updPort_eq]
    by_cases hq : q = m.1
    · rw [hq, setPort_port, hπ]
    · rw [setPort_port_ne _ hq]
theorem updPorts_one (s : State) (q : Nat) (x : α) : (s.updPorts f [(q, x)]).port q = f x (s.port q) := setPort_port ..
end

/-- The three lists of an assignment, each setting one field of ports. -/
def setMode (b : Bool) (k : Port) : Port := { k with containment := b }
def setDirect (l : List (BitVec 18)) (k : Port) : Port := { k with direct := l }
def setOnward (l : List (BitVec 18)) (k : Port) : Port := { k with onward := l }
theorem setMaps_eq (s : State) (a : Assign) :
    s.setMaps a = ((s.updPorts setMode a.modes).updPorts setDirect a.direct).updPorts setOnward a.onward := rfl
theorem setMaps_ports (s : State) (a : Assign) : s.setMaps a = { s with ports := (s.setMaps a).ports } := by
  rw [setMaps_eq, updPorts_eq, updPorts_eq _ (s.updPorts ..), updPorts_eq _ s]
theorem setMaps_enum (s : State) (a : Assign) : (s.setMaps a).enum = s.enum := by
  rw [setMaps_ports]
theorem setMaps_queue (s : State) (a : Assign) (q : Nat) : ((s.setMaps a).port q).queue = (s.port q).queue := by
  rw [setMaps_eq, updPorts_field setOnward Port.queue (fun _ _ => rfl),
    updPorts_field setDirect Port.queue (fun _ _ => rfl), updPorts_field setMode Port.queue (fun _ _ => rfl)]
theorem setMaps_containment {s : State} {a : Assign} {q : Nat} {b : Bool} (h : a.modes = [(q, b)]) :
    ((s.setMaps a).port q).containment = b := by
  rw [setMaps_eq, updPorts_field setOnward Port.containment (fun _ _ => rfl),
    updPorts_field setDirect Port.containment (fun _ _ => rfl), h, updPorts_one]
  rfl
theorem setMaps_direct {s : State} {a : Assign} {q : Nat} {l : List (BitVec 18)} (h : a.direct = [(q, l)]) :
    ((s.setMaps a).port q).direct = l := by
  rw [setMaps_eq, updPorts_field setOnward Port.direct (fun _ _ => rfl), h, updPorts_one]
  rfl
theorem setMaps_onward {s : State} {a : Assign} {q : Nat} {l : List (BitVec 18)} (h : a.onward = [(q, l)]) :
    ((s.setMaps a).port q).onward = l := by
  rw [setMaps_eq, h, updPorts_one]
  rfl

/-- The state in which an assignment leaves the package, before its answer. -/
def State.assigned (s : State) (p : Nat) (a : Assign) : State :=
  if s.assignStatus p a = 0 ∧ !s.enum.pkgValid then { s.assign a with accepted := some (p, a) } else s
section
variable {s : State} {p : Nat} {a : Assign}

theorem exec_assignment_next (hp : p < 36) (hst : (s.port p).st = .up) : ∃ f : Flight,
    exec (.assignment p a) s = .next ((s.assigned p a).enqueue p f) ∧ f.msg = .assignAck (s.assignStatus p a) := by
  rw [exec_assignment, execAssignment, if_neg (by simp [hst]; omega)]
  exact ⟨_, rfl, rfl⟩
theorem assigned_of_accepted (hs : s.assignStatus p a = 0) (hv : s.enum.pkgValid = false) :
    s.assigned p a = { s.assign a with accepted := some (p, a) } := if_pos ⟨hs, by simp [hv]⟩
theorem assigned_of_not_accepted (h : s.assignStatus p a ≠ 0 ∨ s.enum.pkgValid = true) : s.assigned p a = s :=
  if_neg fun hc => by
    obtain hs | hv := h
    · exact hs hc.1
    · simp [hv] at hc
theorem assigned_queue (q : Nat) : ((s.assigned p a).port q).queue = (s.port q).queue := by
  unfold State.assigned
  split
  · exact setMaps_queue s a q
  · rfl
theorem assignStatus_of_bad_signature (h : s.verifies (Config.assignSigOk · a) = false) : s.assignStatus p a = 1 := by
  simp [State.assignStatus, h]
section
variable (h : s.verifies (Config.assignSigOk · a) = true)
include h
theorem assignStatus_of_assigned (hv : s.enum.pkgValid = true) : s.assignStatus p a = 0 ∨ s.assignStatus p a = 2 := by
  simp only [State.assignStatus, h, hv, Bool.not_true, Bool.false_eq_true, if_false, if_true]
  split
  · split <;> simp
  · simp
theorem assignStatus_of_unassigned (hv : s.enum.pkgValid = false) : s.assignStatus p a =
    if 1 ≤ a.islsize ∧ a.islsize ≤ 16 ∧ a.islpos < a.islsize then 0 else 3 := by
  simp only [State.assignStatus, h, hv, Bool.not_true, Bool.false_eq_true, if_false]
  by_cases ha : 1 ≤ a.islsize ∧ a.islsize ≤ 16 ∧ a.islpos < a.islsize
  · rw [if_pos ha, if_neg (by omega)]
  · rw [if_neg ha, if_pos (by omega)]
end
/-- An assignment that is not valid leaves the package as it is. -/
theorem assigned_enum_of_invalid (h : s.enum.pkgValid = true ∨ s.verifies (Config.assignSigOk · a) = false ∨
    a.islsize = 0 ∨ 16 < a.islsize ∨ a.islsize ≤ a.islpos) : (s.assigned p a).enum = s.enum := by
  rw [assigned_of_not_accepted]
  cases hv : s.enum.pkgValid with
  | true => exact .inr rfl
  | false =>
    cases hok : s.verifies (Config.assignSigOk · a) with
    | false => exact .inl (by rw [assignStatus_of_bad_signature hok]; decide)
    | true =>
      rw [hv, hok] at h
      rw [assignStatus_of_unassigned hok hv, if_neg (by simp at h; omega)]
      exact .inl (by decide)
/-- A valid assignment gives the package its place, and its ports their modes and maps. -/
theorem assigned_places (hok : s.verifies (Config.assignSigOk · a) = true) (hv : s.enum.pkgValid = false)
    (ha : 1 ≤ a.islsize ∧ a.islsize ≤ 16 ∧ a.islpos < a.islsize) :
    s.assigned p a = { s.assign a with accepted := some (p, a) } :=
  assigned_of_accepted ((assignStatus_of_unassigned hok hv).trans (if_pos ha)) hv
theorem assign_enum (s : State) (a : Assign) : (s.assign a).enum =
    { s.enum with islpos := a.islpos, islsize := a.islsize, pkgid := a.pkgid, pkgValid := true } := by
  rw [← setMaps_enum s a]
  rfl
end

/-! ## Die links (R17, R386) -/

theorem exec_dieLinkFailure (s : State) : exec .dieLinkFailure s = execDieLinkFailure s := by rfl
/-- The record of a loss after the loss has been told. -/
theorem report_sendLoss (s : State) (d link : Nat) (r : FaultRec) :
    ((s.sendLoss d link).report r).linkDown = s.linkDown ∧
      (s.fqReady = true → ((s.sendLoss d link).report r).sys.fqtail = s.sys.fqtail + 1) ∧
      TellsLoss s ((s.sendLoss d link).report r) d link := by
  have hsent : Carries s (s.sendLoss d link) := carries_postAll ..
  have hrep : Reports (s.sendLoss d link) ((s.sendLoss d link).report r) := reports_report ..
  refine ⟨hrep.linkDown.trans hsent.linkDown, fun hq => ?_, (sendLoss_tells s d link).later hrep⟩
  have hready : (s.sendLoss d link).fqReady = true := (fqReady_congr (quiet_sendLoss s d link)).trans hq
  rw [report_fqtail hready, hsent.sys]
/-- The state once a die link is down. -/
def State.loseLink (s : State) (link : Nat) : State := { s with linkDown := s.linkDown ++ [link] }
theorem quiet_loseLink (s : State) (link : Nat) : (s.loseLink link).quiet = s.quiet := rfl
/-- A die link fails: it is down, every home is told, and the record goes to the fault queue. -/
theorem exec_dieLinkFailure_next {s : State} (hl : s.pick < 10) (hup : s.pick ∉ s.linkDown) {d : Nat}
    (hd : d = if (s.die (linkEnds s.pick).1).failed then (linkEnds s.pick).2 else (linkEnds s.pick).1) :
    ∃ t, exec .dieLinkFailure s = .next t ∧ t.linkDown = s.linkDown ++ [s.pick] ∧
      (s.fqReady = true → t.sys.fqtail = s.sys.fqtail + 1) ∧ TellsLoss s t d s.pick := by
  obtain ⟨hlinks, hqueue, hloss⟩ := report_sendLoss (s.loseLink s.pick) d s.pick
    { (s.loseLink s.pick).dieRec 0x34 d with info := s.pick }
  refine ⟨_, ?_, hlinks, fun hq => hqueue ((fqReady_congr (quiet_loseLink s s.pick)).trans hq), hloss⟩
  rw [exec_dieLinkFailure, execDieLinkFailure, if_pos ⟨hl, by simpa using hup⟩, hd]
  rfl

/-! ## Extents (R409 to R411) -/

theorem exec_extentGrant (g : Grant) (s : State) : exec (.extentGrant g) s = execExtentGrant g s := by rfl
theorem exec_revokeNotice (s : State) : exec .revokeNotice s = execRevokeNotice s := by rfl
theorem exec_revokedConfirmation (s : State) : exec .revokedConfirmation s = execRevokedConfirmation s := by rfl

/-- An extent's number is free for a grant: no grant of it is being revoked, and none of another partition is in use. -/
def State.freeFor (s : State) (g : Grant) : Prop := ∀ e, find g.extno.toNat s.extents = some e →
  e.revoking = false ∧ (e.grant.part = g.part ∨ s.drained g.extno.toNat = true)
section
variable {s : State} {g : Grant}
theorem exec_extentGrant_not_free (h : ¬ s.freeFor g) :
    ∃ why, exec (.extentGrant g) s = .refused (.notEnabled why) := by
  rw [exec_extentGrant, execExtentGrant, if_neg]
  · exact off_refused _
  · rintro ⟨-, -, hfree⟩
    refine h fun e he => ?_
    simpa [he] using hfree

theorem exec_extentGrant_free (hv : s.enum.pkgValid = true) (hpages : g.pages ≤ 2 ^ 24) (h : s.freeFor g) :
    exec (.extentGrant g) s = .next { s with extents := ins g.extno.toNat ⟨g, false⟩ s.extents } := by
  rw [exec_extentGrant, execExtentGrant, if_pos]
  refine ⟨hv, hpages, ?_⟩
  cases hf : find g.extno.toNat s.extents with
  | none => rfl
  | some e => simpa using h e hf
end

theorem find_map_snd {β γ : Type} (f : β → γ) (k : Nat) (m : SMap β) :
    find k (m.map fun e => (e.1, f e.2)) = (find k m).map f := by
  induction m with
  | nil => rfl
  | cons e m ih =>
    simp only [List.map_cons, find]
    split
    · rfl
    · exact ih
/-- A port under a notice of revocation. -/
def State.stopsIn (s : State) (k : Port) : Port := { k with
  queue := k.queue.take (if k.part = 0 then 0 else 1) ++
    (k.queue.drop (if k.part = 0 then 0 else 1)).filter fun f => !s.barred f.msg }
theorem stopRequests_ports (s : State) : s.stopRequests.ports = s.ports.map fun e => (e.1, s.stopsIn e.2) := rfl
theorem stopRequests_port (s : State) (p : Nat) : s.stopRequests.port p = s.stopsIn (s.port p) := by
  unfold State.port look
  rw [stopRequests_ports, find_map_snd]
  cases find p s.ports <;> rfl
/-- A port of which no flit has gone out keeps no request that may not leave. -/
theorem stopsIn_of_not_begun (s : State) {k : Port} (h : k.part = 0) :
    s.stopsIn k = { k with queue := k.queue.filter fun f => !s.barred f.msg } := by
  simp [State.stopsIn, h]
theorem exec_revokeNotice_next {s : State} {e : Extent} (he : find s.pick s.extents = some e) (hr : e.revoking = false) :
    exec .revokeNotice s =
      .next (State.stopRequests { s with extents := ins s.pick { e with revoking := true } s.extents }) := by
  simp [exec_revokeNotice, execRevokeNotice, he, hr]
theorem exec_revokedConfirmation_next {s : State} {e : Extent} (he : find s.pick s.extents = some e)
    (hr : e.revoking = true) (hd : s.drained s.pick = true) :
    exec .revokedConfirmation s = .next { s with extents := del s.pick s.extents } := by
  simp [exec_revokedConfirmation, execRevokedConfirmation, he, hr, hd]
theorem exec_revokedConfirmation_in_use {s : State} {e : Extent} (he : find s.pick s.extents = some e)
    (hd : s.drained s.pick = false) : ∃ why, exec .revokedConfirmation s = .refused (.notEnabled why) := by
  simp only [exec_revokedConfirmation, execRevokedConfirmation, he, hd, Bool.false_eq_true, if_false]
  split <;> exact off_refused _

/-! ## The obligation -/

/-- Settles O49: each event of a port, of a die link or of an extent by the lemmas on its outcomes. -/
theorem portsCarryFrames : Obligations.PortsCarryFrames := by
  unfold Obligations.PortsCarryFrames
  intro one fails
  refine ⟨?frame, ?kept, ?receive, ?notUp, ?answers, ?ackTimeout, ?egress, ?restart, ?trained, ?timeout, ?keyOk, ?keys,
    ?rekey, ?assignment, ?dieLink, ?grant, ?revoke⟩
  case frame => exact fun k now hst hrekey hq hpart hyoung =>
    ⟨frame_sends hst hrekey hq hyoung hpart, frame_at_limit hrekey hyoung⟩
  case kept => exact fun k now hrekey hpart r hr =>
    (frame_retry hrekey r hr).imp_right fun hsub f hf => young_of_mem_fresh hpart (hsub hf)
  case receive => exact fun p f s hp hst hrekey => ⟨frameReceive_delivers hp hst hrekey, fun hbad =>
    ⟨frameReceive_skips hp hst hrekey hbad, fun hnew =>
      ⟨frameReceive_asks_again hp hst hrekey hbad hnew, frameReceive_fails hp hst hrekey hbad hnew⟩⟩⟩
  case notUp => exact fun p f s => exec_frameReceive_not_up
  case answers => exact fun p seq s hst =>
    ⟨frameAcknowledgement_frees hst, retryRequest_resends hst, retryRequest_fails hst⟩
  case ackTimeout => exact fun s hst hretry => ⟨linkAckTimeout_fails hst hretry, linkAckTimeout_early⟩
  case egress => exact fun s f hf p hp hage hbar =>
    ⟨egressWaitRelease_one hf hp hage hbar, fun n => egressWaitRelease_train hf hp hage hbar⟩
  case restart => exact fun s => portRestart_trains
  case trained => exact fun s => lanesTrained_keys
  case timeout => exact fun s => portTimeout_down
  case keyOk => exact fun s x k => ⟨fun m hm => keyOk_of_map hm x k, fun hm => keyOk_of_no_map hm x k⟩
  case keys => exact fun p k s hp => keyExchange_signs hp
  case rekey => exact fun p k n s hp hst hrekey hdue htx hrx hn =>
    ⟨rekey_agrees hp hst hrekey hdue htx hrx hn, rekey_fails hp hst hrekey hdue htx hrx hn⟩
  case assignment =>
    intro p a s hp hst ok
    obtain ⟨f, hrun, hf⟩ := exec_assignment_next (a := a) hp hst
    refine ⟨_, hrun, ⟨f, ?_, _, hf, assignStatus_of_bad_signature, fun hok =>
      ⟨assignStatus_of_assigned hok, assignStatus_of_unassigned hok⟩⟩, assigned_enum_of_invalid, ?_⟩
    · rw [(onlyPort_enqueue ..).2.1, assigned_queue]
    · intro hv hok hlow hhigh hpos
      rw [assigned_places hok hv ⟨hlow, hhigh, hpos⟩]
      have hport := (carries_enqueue { s.assign a with accepted := some (p, a) } p f).port
      exact ⟨assign_enum s a, fun q b h => (congrArg Port.containment (hport q)).trans (setMaps_containment h),
        fun q l h => (congrArg Port.direct (hport q)).trans (setMaps_direct h),
        fun q l h => (congrArg Port.onward (hport q)).trans (setMaps_onward h)⟩
  case dieLink => exact fun s hl hup => exec_dieLinkFailure_next hl hup rfl
  case grant => exact fun g s hv hpages => ⟨exec_extentGrant_free hv hpages, exec_extentGrant_not_free⟩
  case revoke =>
    intro s e he
    refine ⟨fun hr => ⟨_, exec_revokeNotice_next he hr, rfl, rfl, fun p hpart => ?_⟩,
      exec_revokedConfirmation_next he, exec_revokedConfirmation_in_use he⟩
    rw [stopRequests_port]
    exact stopsIn_of_not_begun _ hpart

end Sys2Proof.Machine
end

-- The state after a power-on reset (R22, R117, R277, R329, R340, R352, R394, R425)
section
/-! What a power-on reset leaves in the dies, the cores and the package registers. -/

namespace Sys2Proof.Machine

theorem reset_die (d : Nat) : State.reset.die d = Die.reset := rfl
theorem reset_core (c : Nat) : State.reset.core c = Core.reset := rfl

/-- Settles O5: every die, every core and the package registers are at their reset values. -/
theorem resetLeavesTheStatedValues : Obligations.ResetLeavesTheStatedValues := by
  unfold Obligations.ResetLeavesTheStatedValues
  refine ⟨fun d => ?_, fun c => ?_, ?_⟩
  · simp [reset_die, Die.reset, look, find]
  · simp [reset_core, Core.reset]
  · simp [Sys.reset, Enum.reset, State.reset, State.fresh, look, find]

end Sys2Proof.Machine
end

-- Completion of an instruction, and the moves of the schedule (R26, R27, R52, R70; log 3)
section
/-! What completing an instruction leaves, with and without the end of its clause; and the obligations on NOP and on the moves
of the schedule. -/

namespace Sys2Proof.Machine

/-! ## Completion (R26, R27) -/

section
variable {s t : State} {c : Ctx}

theorem OnlyRegisters.only (h : OnlyRegisters s t c) : Only s t := by
  obtain ⟨hstate, hcores, -⟩ := h
  exact ⟨hstate, hcores⟩
theorem OnlyRegisters.completes (h : OnlyRegisters s t c) {x : Group} (hx : t.group c.g = some x)
    {written : Bank × Nat → Prop} (hr : RegsKept t c written) : Completes s t c { c.grp with k := x.k } written := by
  obtain ⟨-, -, hgroups, htracks, y, f, hy, hfields, hentries, hf, hmask, hrcv, hdepth, hst⟩ := h
  obtain rfl : y = x := Option.some.inj (hy.symm.trans hx)
  exact ⟨hgroups, htracks, ⟨y, f, hy, hfields, hentries, hf, hmask, hrcv, hdepth, hst⟩, hr⟩

/-- The end of an instruction that leaves the registers `r` and, but for masks, its group as it was. -/
theorem regDone_completes (h : s.ctx = some c) {r : RegFile} {g : Group} (hg : g = { c.grp with k := g.k }) (sp : Bool)
    (n : Nat) {written : Bank × Nat → Prop}
    (hr : ∀ b k, b ≠ .l → ¬ written (b, k) → (r.get b k).val = (c.regs.get b k).val)
    (ht : t = s.regDone { c with grp := g } r none 0 sp n) :
    Only s t ∧ Completes s t c g written ∧ (∃ x, t.group c.g = some x ∧ x.k = g.k) ∧
      ∀ b k, b ≠ .l → (t.regsOf c.g c.t).get b k = r.get b k := by
  obtain ⟨honly, ⟨x, hx, hk, hv, hs⟩, -⟩ := regDone_ok h r g hg 0 sp n
  rw [← ht] at honly hx
  have hget : ∀ b k, b ≠ .l → (t.regsOf c.g c.t).get b k = r.get b k := fun _ k hb => regsOf_done hx hv hs hb k
  have hkept : RegsKept t c written := fun b k hb hw => by rw [hget b k hb, hr b k hb hw]
  have hcompl := honly.completes hx hkept
  rw [hk, ← hg] at hcompl
  exact ⟨honly.only, hcompl, ⟨x, hx, hk⟩, hget⟩

/-- An instruction that changes nothing completes as one that leaves the registers as it found them. -/
theorem advance_eq_regDone (s : State) (c : Ctx) (sp : Bool) (n : Nat) :
    s.advance c c.grp c.trk sp n = s.regDone c c.regs none 0 sp n := rfl
theorem advance_completes (h : s.ctx = some c) (sp : Bool) (n : Nat) :
    Only s (s.advance c c.grp c.trk sp n) ∧ Completes s (s.advance c c.grp c.trk sp n) c c.grp noWord := by
  obtain ⟨honly, hcompl, -⟩ := regDone_completes (written := noWord) h (g := c.grp) (r := c.regs) rfl sp n
    (fun _ _ _ _ => rfl) (advance_eq_regDone s c sp n)
  exact ⟨honly, hcompl⟩

theorem advance_goes_on (n : Nat) (hlast : c.run.pos < c.run.words.length) :
    s.advance c c.grp c.trk false n = (s.setGroup c.g (c.settle c.grp)).setTrack c.t { c.trk with
      run := some { c.run with pos := c.run.pos + 1, pfx := none, cursor := none }
      steps := c.trk.steps + n } := by
  simp [State.advance, Nat.not_lt.2 (Nat.succ_le_of_lt hlast)]
theorem advance_ends {sp : Bool} (n : Nat) (hend : sp = true ∨ c.run.words.length ≤ c.run.pos) :
    s.advance c c.grp c.trk sp n = s.transfer c c.grp sp c.nextHdr n := by
  have hlast : (sp || decide (c.run.words.length < c.run.pos + 1)) = true := by
    rw [Bool.or_eq_true, decide_eq_true_eq]
    exact hend.imp_right Nat.lt_succ_of_le
  rw [State.advance, if_pos hlast]
  rfl
theorem advance_steps (sp : Bool) (n : Nat) :
    ((s.advance c c.grp c.trk sp n).track c.t).steps = c.trk.steps + n := by
  unfold State.advance
  split <;> simp

/-- A transfer that changes no entry but the executing fragment's. -/
theorem transfer_transfersTo (h : s.ctx = some c) (sp : Bool) (pc : VAddr) (n : Nat) :
    TransfersTo s (s.transfer c c.grp sp pc n) c pc c.frag.rcv c.frag.depth := by
  obtain ⟨-, -, -, -, -, hf, -, -⟩ := ctx_spec h
  have hsplit : find c.run.entry (c.settle c.grp).split = some c.frag := by rw [settle_split]; exact hf
  obtain ⟨hgrp, hentries, f, hfind, hmask, hrcv, hdepth, -, hpc, hword⟩ := endClause_spec c (c.settle c.grp) sp pc hsplit
  refine ⟨fun k hk => ?_, fun k hk => ?_, ?_, ?_, _, f, setGroup_group .., ?_, hfind, hpc, hword, hmask, hrcv, hdepth,
    fun e he => ?_⟩
  · exact setGroup_group_ne _ hk _
  · exact setTrack_track_ne _ hk _
  · simp [State.transfer]
  · simp [State.transfer]
  · rw [hgrp, settle_eq]
  · rw [hentries e he, settle_split]
end

theorem exec_nop (sp : Bool) (s : State) : exec (.nop sp) s = execNop sp s := by rfl

/-- Settles O4: NOP is the bare completion of an instruction. -/
theorem nopAdvancesItsClause : Obligations.NopAdvancesItsClause := by
  unfold Obligations.NopAdvancesItsClause
  intro s c sp h
  obtain ⟨honly, hcompl⟩ := advance_completes h sp 1
  refine ⟨s.advance c c.grp c.trk sp 1, ?_, honly, hcompl, advance_steps sp 1, fun hsp hlast => ?_, fun hend => ?_⟩
  · rw [exec_nop, execNop, onTrack, h]
  · subst hsp
    rw [advance_goes_on 1 hlast]
    simp
  · rw [advance_ends 1 hend]
    exact transfer_transfersTo h sp c.nextHdr 1

/-! ## The moves of the schedule (log 3) -/

section
variable {s : State} {t : Nat}

theorem runTrack_of_no_run (h : (s.track t).run = none) : ∃ why, runTrack t s = .refused (.notEnabled why) := by
  simp [runTrack, State.nextOn, h]
theorem runTrack_of_pending {r : Run} {w : DWord} {i : Instr} (hrun : (s.track t).run = some r) (hf : r.fetched = true)
    (hw : r.word r.pos = some (w, .instr)) (hop : opOf w ≠ 2) (hdec : decode w = .ok i)
    (hpend : (sRegs i).any (s.dsPending r.group).contains = true) : runTrack t s = .next (s.emptyStep t) := by
  have hnext : s.nextOn t = .hold := by
    simp only [State.nextOn, hrun, hf, hw, hop, nextInstr, hdec, hpend]
    rfl
  simp only [runTrack, hnext]
theorem runTrack_of_no_word {r : Run} (hrun : (s.track t).run = some r) (hf : r.fetched = true)
    (hw : r.word r.pos = none) : runTrack t s = .next (s.finishClause t) := by
  have hnext : s.nextOn t = .finish := by
    simp only [State.nextOn, hrun, hf, hw]
    rfl
  simp only [runTrack, hnext]
theorem step_of_event {i : Instr} {n : Nat} {rest : List Move} (h : s.agenda = .event i n :: rest) :
    step s = if (encode i).isNone then exec i { s with agenda := rest, pick := n }
      else .refused (.notEnabled "an instruction executes only on a track") := by
  simp only [step, h, move]
end

/-- Settles O3: each clause is one branch of `move` or of `runTrack`. -/
theorem stepFollowsTheSchedule : Obligations.StepFollowsTheSchedule := by
  unfold Obligations.StepFollowsTheSchedule
  refine ⟨fun s i n rest h => ⟨fun hi => ?_, fun hi => ?_⟩, fun s t h => runTrack_of_no_run h,
    fun s t r w i hrun hf hw hop hdec hpend => runTrack_of_pending hrun hf hw hop hdec hpend, fun s t c h hf hw => ?_⟩
  · rw [step_of_event h, hi]
    rfl
  · refine ⟨_, (step_of_event h).trans (if_neg ?_)⟩
    rw [Option.isNone_iff_eq_none, ← Option.not_isSome_iff_eq_none]
    exact not_not.2 hi
  · obtain ⟨hfocus, htrk, hrun, -⟩ := ctx_spec h
    have ht : t = c.t := Option.some.inj hfocus
    subst ht
    have hrun' : (s.track c.t).run = some c.run := (congrArg Track.run htrk).trans hrun
    refine ⟨_, runTrack_of_no_word hrun' hf hw, ?_⟩
    simp only [State.finishClause, h]
    exact transfer_transfersTo h false c.nextHdr 0

end Sys2Proof.Machine
end

-- The mask instructions (R134 to R137)
section
/-! Lanes and masks as lists and as bits, the two shapes of a mask instruction, and the obligation on them. -/

namespace Sys2Proof.Machine

/-! ## Lanes and masks (R6, R24) -/

theorem mem_lanesOf {m : Mask} {l : Nat} : l ∈ lanesOf m ↔ l < 32 ∧ m.getLsbD l = true := by
  simp [lanesOf]
theorem lanesOf_sorted (m : Mask) : (lanesOf m).Pairwise (· < ·) := List.pairwise_lt_range.filter _
theorem lanesOf_length (m : Mask) : (lanesOf m).length = (List.range 32).countP fun i => m.getLsbD i :=
  List.countP_eq_length_filter.symm
theorem getLsbD_maskOf {l : List Nat} {i : Nat} (hi : i < 32) : (maskOf l).getLsbD i = decide (i ∈ l) := by
  induction l with
  | nil => simp [maskOf]
  | cons j l ih =>
    simp only [maskOf, BitVec.getLsbD_or, ih, List.mem_cons, BitVec.getLsbD_shiftLeft, hi, BitVec.getLsbD_one]
    by_cases hj : i = j
    · simp [hj]
    · have : i < j ∨ ¬ i - j = 0 := by omega
      rcases this with h | h <;> simp [hj, h]
theorem getLsbD_below {n l : Nat} (hl : l < 32) : (below n).getLsbD l = decide (l < n) := by
  rw [below, BitVec.getLsbD_ofNat, Nat.testBit_two_pow_sub_one]
  simp [hl]

/-- The lane that KFIND answers of a mask (R137). -/
def foundLane (hi : Bool) (m : Mask) : Nat := if hi then (lanesOf m).getLastD 32 else (lanesOf m).headD 32
theorem foundLane_zero (hi : Bool) : foundLane hi 0 = 32 := by cases hi <;> rfl
theorem lanesOf_ne_nil {m : Mask} (h : m ≠ 0) : lanesOf m ≠ [] := by
  intro hnil
  refine h (BitVec.eq_of_getLsbD_eq fun i hi => ?_)
  have : ¬ (i < 32 ∧ m.getLsbD i = true) := by rw [← mem_lanesOf, hnil]; exact List.not_mem_nil
  simpa [hi] using this
theorem foundLane_mem (hi : Bool) {m : Mask} (h : m ≠ 0) : foundLane hi m ∈ lanesOf m := by
  have hne := lanesOf_ne_nil h
  cases hi
  · rw [foundLane, if_neg Bool.false_ne_true, List.headD_eq_head?_getD, List.head?_eq_some_head hne]
    exact List.head_mem hne
  · rw [foundLane, if_pos rfl, List.getLastD_eq_getLast?, List.getLast?_eq_some_getLast hne]
    exact List.getLast_mem hne
theorem foundLane_extreme (hi : Bool) {m : Mask} {i : Nat} (h : i ∈ lanesOf m) :
    if hi then i ≤ foundLane hi m else foundLane hi m ≤ i := by
  have hne := List.ne_nil_of_mem h
  cases hi
  · rw [if_neg Bool.false_ne_true, foundLane, if_neg Bool.false_ne_true, List.headD_eq_head?_getD,
      List.head?_eq_some_head hne]
    exact ((lanesOf_sorted m).imp Nat.le_of_lt).rel_head h
  · rw [if_pos rfl, foundLane, if_pos rfl, List.getLastD_eq_getLast?, List.getLast?_eq_some_getLast hne]
    exact ((lanesOf_sorted m).imp Nat.le_of_lt).rel_getLast h
theorem foundLane_le (hi : Bool) (m : Mask) : foundLane hi m ≤ 32 := by
  by_cases h : m = 0
  · rw [h, foundLane_zero]
  · exact (mem_lanesOf.1 (foundLane_mem hi h)).1.le

/-! ## The mask instructions (R134 to R137) -/

theorem readable_nil {r : RegFile} : Readable r [] := fun _ hp => absurd hp List.not_mem_nil
/-- What KMOV and KOP do but for their operands (R135, R136): `v` into a mask register. -/
def writeMask (s : State) (sp : Bool) (reads : List (Bank × Nat)) (kd : Nat) (v : Ctx → RegFile → Mask) : Out :=
  runMask s sp reads fun c r => (c.kWrite c.grp kd (v c r) (BitVec.allOnes 32), r)
section
variable {s : State} {c : Ctx} (h : s.ctx = some c) (hcur : c.run.cursor ≠ some 32)
include h hcur

/-- A mask instruction whose words are readable works on the values that stood in the registers. -/
theorem runMask_next (sp : Bool) {reads : List (Bank × Nat)} (hr : Readable c.regs reads)
    (f : Ctx → RegFile → Group × RegFile) : ∃ r, SameVals r c.regs ∧
      runMask s sp reads f = .next (s.regDone { c with grp := (f c r).1 } (f c r).2 none 0 sp 1) := by
  refine ⟨(c.regs.touchAll reads).1, touchAll_vals _ _, ?_⟩
  have hok : ((RegFile.of c.grp c.trk).touchAll reads).2 = false := touchAll_ok reads hr
  simp only [runMask, onTrack, h, hcur, if_false, hok, Bool.false_eq_true, Ctx.regs]

/-- A mask read into an s register (R137). -/
theorem maskToS_completes (sp nwb : Bool) (d : Dst) (ka : BitVec 3) {op : Mask → Nat}
    (hop : op (c.k ka.toNat) < 2 ^ 32) : ∃ t, maskToS s sp nwb d ka op = .next t ∧ Only s t ∧
      Completes s t c c.grp (fun w => nwb = false ∧ w ∈ dstWords d 0) ∧
      (nwb = false → (t.regsOf c.g c.t).value (dstWords d 0) = op (c.k ka.toNat)) := by
  obtain ⟨r, hvals, hrun⟩ := runMask_next h hcur sp readable_nil
    (fun c r => (c.grp, r.writeBack ⟨sp, false, nwb, false, 0⟩ d 0 (op (c.k ka.toNat))))
  have hback : backWords ⟨sp, false, nwb, false, 0⟩ d 0 = if nwb then [] else dstWords d 0 := by
    simp [backWords]
  have hkept : ∀ b k, b ≠ .l → ¬ (nwb = false ∧ (b, k) ∈ dstWords d 0) →
      ((r.writeBack ⟨sp, false, nwb, false, 0⟩ d 0 (op (c.k ka.toNat))).get b k).val = (c.regs.get b k).val := by
    intro b k _ hw
    rw [← hvals b k]
    refine congrArg RegWord.val (writeBack_get_ne r _ d 0 _ (p := (b, k)) ?_)
    rw [hback]
    cases nwb
    · exact fun hp => hw ⟨rfl, hp⟩
    · exact List.not_mem_nil
  obtain ⟨honly, hcompl, -, hget⟩ := regDone_completes (written := fun w => nwb = false ∧ w ∈ dstWords d 0) h
    (g := c.grp) rfl sp 1 hkept rfl
  refine ⟨_, hrun, honly, hcompl, fun hn => ?_⟩
  have hwidth : 2 ^ 32 ≤ 2 ^ (32 * Width.count d.width) := by
    refine Nat.pow_le_pow_right (by decide) ?_
    cases d.width <;> decide
  rw [value_congr fun p hp => congrArg RegWord.val (hget p.1 p.2 (not_latch_of_mem hp)),
    writeBack_value r _ d 0 _ hn, Nat.mod_eq_of_lt (hop.trans_le hwidth)]

/-- A mask instruction that writes a mask register: for the lanes of its fragment below the group's count. -/
theorem writeMask_spec (sp : Bool) {reads : List (Bank × Nat)} (hr : Readable c.regs reads) (kd : Nat)
    {v : Ctx → RegFile → Mask} {bits : Nat → Bool}
    (hv : ∀ r, SameVals r c.regs → ∀ l, l < 32 → (v c r).getLsbD l = bits l) :
    ∃ t x, writeMask s sp reads kd v = .next t ∧ Only s t ∧
      t.group c.g = some x ∧ Completes s t c { c.grp with k := x.k } noWord ∧ MaskWritten t c kd bits := by
  obtain ⟨r, hvals, hrun⟩ := runMask_next h hcur sp hr
    (fun c r => (c.kWrite c.grp kd (v c r) (BitVec.allOnes 32), r))
  obtain ⟨honly, hcompl, ⟨x, hx, hk⟩, -⟩ := regDone_completes (written := noWord) h
    (g := c.kWrite c.grp kd (v c r) (BitVec.allOnes 32)) rfl sp 1 (fun b k _ _ => hvals b k) rfl
  refine ⟨_, x, hrun, honly, hx, ?_, x, hx, fun j hj => ?_, fun l hl => ?_⟩
  · rw [hk]
    exact hcompl
  · rw [hk]
    exact look_put_ne _ hj _ _
  · rw [hk]
    simp only [Ctx.kWrite, look_put_self, BitVec.getLsbD_or, BitVec.getLsbD_and, BitVec.getLsbD_not,
      BitVec.getLsbD_allOnes, hl, getLsbD_below, hv r hvals l hl]
    by_cases hlane : c.frag.mask.getLsbD l = true ∧ l < c.grp.nlanes
    · simp [hlane]
    · rw [if_neg hlane]
      rcases not_and_or.1 hlane with hm | hn
      · simp [hm]
      · simp [hn]
end

theorem exec_movk (sp nwb : Bool) (d : Dst) (ka : BitVec 3) (s : State) :
    exec (.movk sp nwb d ka) s = maskToS s sp nwb d ka BitVec.toNat := by rfl
theorem exec_kpopc (sp nwb : Bool) (d : Dst) (ka : BitVec 3) (s : State) :
    exec (.kpopc sp nwb d ka) s = maskToS s sp nwb d ka fun m => (lanesOf m).length := by rfl
theorem exec_kfind (sp nwb : Bool) (d : Dst) (hi : Bool) (ka : BitVec 3) (s : State) :
    exec (.kfind sp nwb d hi ka) s = maskToS s sp nwb d ka (foundLane hi) := by rfl
section
variable (sp : Bool) (kd : BitVec 3) (s : State)
theorem exec_kmov_k (ka : BitVec 3) :
    exec (.kmov sp kd (.k ka)) s = writeMask s sp [] kd.toNat fun c _ => c.k ka.toNat := by rfl
theorem exec_kmov_s (sn : BitVec 8) : exec (.kmov sp kd (.s sn)) s =
    writeMask s sp [(.s, sn.toNat)] kd.toNat fun _ r => (r.get .s sn.toNat).val := by rfl
theorem exec_kmov_imm (v : Word) : exec (.kmov sp kd (.imm v)) s = writeMask s sp [] kd.toNat fun _ _ => v := by rfl
theorem exec_kop (ka kb : BitVec 3) (tt : BitVec 4) : exec (.kop sp kd ka kb tt) s =
    writeMask s sp [] kd.toNat fun c _ => maskOf ((List.range 32).filter fun i =>
      tt.getLsbD (2 * bits01 ((c.k ka.toNat).getLsbD i) + bits01 ((c.k kb.toNat).getLsbD i))) := by rfl
end

/-- Settles O15: MOVK, KPOPC and KFIND read one mask into s registers, KMOV and KOP write one. -/
theorem maskInstructions : Obligations.MaskInstructions := by
  unfold Obligations.MaskInstructions
  refine ⟨fun sp nwb d ka s c h hcur => ⟨?_, ?_, fun hi => ?_⟩, fun sp kd a s c h hcur hread => ?_,
    fun sp kd ka kb tt s c h hcur => ?_⟩
  · rw [exec_movk]
    exact maskToS_completes h hcur sp nwb d ka (BitVec.isLt _)
  · rw [exec_kpopc, ← lanesOf_length]
    have hcount : (lanesOf (c.k ka.toNat)).length ≤ 32 := by
      simpa [lanesOf] using List.length_filter_le (fun i => (c.k ka.toNat).getLsbD i) (List.range 32)
    exact maskToS_completes h hcur sp nwb d ka (op := fun m => (lanesOf m).length) (hcount.trans_lt (by decide))
  · obtain ⟨t, hrun, honly, hcompl, hval⟩ := maskToS_completes h hcur sp nwb d ka (op := foundLane hi)
      ((foundLane_le hi _).trans_lt (by decide))
    refine ⟨t, (exec_kfind ..).trans hrun, honly, _, hcompl, hval, fun h0 => ?_, fun hne =>
      ⟨(mem_lanesOf.1 (foundLane_mem hi hne)).2, fun i hbit => foundLane_extreme hi (mem_lanesOf.2 ⟨?_, hbit⟩)⟩⟩
    · rw [h0, foundLane_zero]
    · exact BitVec.lt_of_getLsbD hbit
  · cases a with
    | k ka =>
      rw [exec_kmov_k]
      exact writeMask_spec h hcur sp readable_nil kd.toNat fun _ _ _ _ => rfl
    | imm v =>
      rw [exec_kmov_imm]
      exact writeMask_spec h hcur sp readable_nil kd.toNat fun _ _ _ _ => rfl
    | s sn =>
      rw [exec_kmov_s]
      exact writeMask_spec h hcur sp (hread sn rfl) kd.toNat fun r hr l _ =>
        congrArg (BitVec.getLsbD · l) (hr .s sn.toNat)
  · rw [exec_kop]
    refine writeMask_spec h hcur sp readable_nil kd.toNat fun r _ l hl => ?_
    rw [getLsbD_maskOf hl]
    simp only [List.mem_filter, List.mem_range, hl, true_and, Bool.decide_eq_true]
    refine congrArg tt.getLsbD ?_
    cases (c.k ka.toNat).getLsbD l <;> cases (c.k kb.toNat).getLsbD l <;> rfl

end Sys2Proof.Machine
end

-- The end of a SLEEP (R177, R332)
section
/-! The end of a wait: what it leaves of the fragment, and why the equation that the obligation on YIELD and SLEEP gives
for it fails. -/

namespace Sys2Proof.Machine

/-! ## The end of a sleep (R177, R332) -/

theorem exec_sleepExpiry (g e : Nat) (s : State) : exec (.sleepExpiry g e) s = execSleepExpiry g e s := by rfl
theorem exec_sleepExpiry_over {s : State} {g e : Nat} (h : s.waiting g e (sleepOver s) = true) :
    exec (.sleepExpiry g e) s = .next (s.updGroup g (·.wake e)) := by
  rw [exec_sleepExpiry, execSleepExpiry, if_pos h]
/-- A fragment of a group that is not to be pre-empted is no longer stopped at a safe point once it wakes. -/
theorem wake_stop {x : Group} {e : Nat} {f : Frag} (hf : find e x.split = some f) (hres : x.resid = .bound)
    (hpre : x.preempt = false) : (find e (x.wake e).split).map (·.stop) = some none := by
  simp [Group.wake, hf, hres, hpre, Group.setFrag]

/-- A fragment whose SLEEP ended its clause at a safe point: its live mask stays with it while it waits (`waitHere`). -/
def stoppedSleep : Frag :=
  { newFrag 0 (BitVec.allOnes 32) 0 0 (some 0) with state := .waiting, wait := .sleep 0 }
/-- A group that is not to be pre-empted, whose one fragment sleeps at a safe point. -/
def sleepingGroup : Group := { oneGroup with split := [(0, stoppedSleep)] }
def sleepingState : State := State.reset.setGroup 0 sleepingGroup

/-- Refutes O21: the end of a SLEEP that stood at a safe point takes the fragment's stop with it where the group is not to
be pre-empted (`Group.wake`), but the obligation has every field but the state and the wait stay. -/
theorem not_yieldsAndSleeps : ¬ Obligations.YieldsAndSleeps := by
  unfold Obligations.YieldsAndSleeps
  rintro ⟨-, -, -, -, hsleep, -⟩
  obtain ⟨t, hrun, ht⟩ := (hsleep 0 0 sleepingState sleepingGroup rfl rfl stoppedSleep rfl rfl 0 rfl).1 rfl (Nat.zero_le _)
  have hover : sleepingState.waiting 0 0 (sleepOver sleepingState) = true := by rfl
  rw [exec_sleepExpiry_over hover] at hrun
  obtain rfl : sleepingState.updGroup 0 (·.wake 0) = t := by injection hrun
  have hstop := congrArg (fun u : State => ((u.group 0).bind fun x => find 0 x.split).map (·.stop)) ht
  have hwoken : (find 0 (sleepingGroup.wake 0).split).map (·.stop) = some none := wake_stop (f := stoppedSleep) rfl rfl rfl
  have hkept : some (none : Option DWord) = some (some 0) := hwoken.symm.trans hstop
  cases hkept

end Sys2Proof.Machine
end

-- Carve-outs under way (R219)
section
/-! Carve-outs that are being applied, and why the obligation on the life of a grid fails at them. -/

namespace Sys2Proof.Machine

/-! ## The application of a carve-out (R219) -/

theorem exec_carveOutApply (s : State) : exec .carveOutApply s = execCarveOutApply s := by rfl
/-- Where a core has set out to apply a carve-out, that one is applied, whatever CARVEREQ asks for by then. -/
theorem exec_carveOutApply_begun {s : State} {b : Nat} (hb : (s.core s.pick).carving = some b)
    (hlive : s.liveCore s.pick = true) (hwtb : (s.core s.pick).wtb = []) :
    exec .carveOutApply s = .next (s.setCore s.pick ((s.core s.pick).applyCarve b)) := by
  rw [exec_carveOutApply, execCarveOutApply]
  simp only [hb, hlive, hwtb, List.isEmpty_nil, and_self, if_true]

/-- A core that is about to apply the carve-out of 2 banks, while CARVEREQ asks for 1 since. -/
def carvingCore : Core := { Core.reset with carve := 1, carving := some 2 }
/-- A package of one core, which has no team and an empty write-through buffer. -/
def carvingState : State := { State.reset with enum := { Enum.reset with coremask := [1#32] }, cores := [(0, carvingCore)] }

/-- Refutes O54, by its clause on CARVE_OUT_APPLY: it has the event apply CARVEREQ bits 7:0 on every idle core whose
write-through buffer is drained, but a core that has set out to apply another carve-out ends that one first. -/
theorem not_gridsRunFromLaunchToEnd : ¬ Obligations.GridsRunFromLaunchToEnd := by
  unfold Obligations.GridsRunFromLaunchToEnd
  rintro ⟨-, -, -, -, -, hcarve, -⟩
  obtain ⟨t, hrun, -, happlied, -⟩ := hcarve carvingState (by decide) (by decide) rfl rfl (by decide)
  rw [exec_carveOutApply_begun (b := 2) rfl (by decide) rfl] at hrun
  obtain rfl : carvingState.setCore 0 (carvingCore.applyCarve 2) = t := by injection hrun
  have hbanks : (carvingCore.applyCarve 2).applied = 1 := (congrArg Core.applied (setCore_core ..)).symm.trans happlied
  exact absurd hbanks (by decide)

end Sys2Proof.Machine
end

-- The record of a TRAP (R319)
section
/-! A store of the device that waits across the end of a line, and why the obligation on the record of a TRAP fails under
it. -/

namespace Sys2Proof.Machine

/-! ## The record of a TRAP under a store that waits (R319) -/

/-- What the device reads at an address after an instruction or an event. -/
def byteAfter (i : Instr) (s : State) (pa : Nat) : Option Nat :=
  match exec i s with
  | .next t => some (t.physNat pa 1)
  | _ => none
theorem byteAfter_of_next {i : Instr} {s t : State} (h : exec i s = .next t) (pa : Nat) :
    byteAfter i s pa = some (t.physNat pa 1) := by
  rw [byteAfter, h]

/-- A track in a clause whose only word is a TRAP. -/
def trapTrack : Track := { Track.reset with slots := [(0, 0)], run := some { oneRun 0 with words := [0] } }
/-- The fault ring begins at line 1, of which the die cache holds all tokens; a store of the device of 129 bytes waits at
address 0, so that its last byte lies in line 1. -/
def overlappedRing : State := { State.reset with
  focus := some 0
  tracks := [(0, trapTrack)]
  groups := [(0, oneGroup)]
  teams := [(0, oneTeam)]
  grids := [(0, oneGrid)]
  sys := { Sys.reset with fqbase := 128 }
  lines := [(lineKey 0 1, ⟨256, true, true, false, 0, 0, 0⟩)]
  devStores := [(0, wholeBytes (List.replicate 129 0xFF))] }
def overlappedCtx : Ctx :=
  ⟨0, trapTrack, { oneRun 0 with words := [0] }, 0, oneGroup, newFrag 0 (BitVec.allOnes 32) (BitVec.allOnes 57) 0 none,
    oneTeam, oneGrid⟩

/-- The record is stored in the die cache; the byte of the store that waits still lies over its first byte. -/
theorem overlappedRing_kind : byteAfter (.trap false 0) overlappedRing 128 = some 0xFF := by decide +kernel

/-- Refutes O25, by its clause on the record of a TRAP: the device reads memory under its own waiting stores, and the
obligation does not say that each of them ends with its line; one that was begun for the line before hides the record. -/
theorem not_uncorrectableWordsFaultAndAreRecorded : ¬ Obligations.UncorrectableWordsFaultAndAreRecorded := by
  unfold Obligations.UncorrectableWordsFaultAndAreRecorded
  rintro ⟨-, hrecord⟩
  obtain ⟨t, hrun, -, hkind, -⟩ := hrecord false 0 overlappedRing overlappedCtx rfl (by decide) (by decide +kernel)
    (by decide) (.inl ⟨by decide, by decide⟩)
  have hread : byteAfter (.trap false 0) overlappedRing 128 = some 9 :=
    (byteAfter_of_next hrun 128).trans (congrArg some hkind)
  rw [overlappedRing_kind] at hread
  exact absurd hread (by decide)

end Sys2Proof.Machine
end

-- Temperature, droop and power monitors (R46, R424 to R426)
section
/-! What the monitors do: alerts, thermal ceilings, droops, the refresh of HBM, and the power limits; and the obligation on
their thresholds. -/

namespace Sys2Proof.Machine

/-! ## Alerts (R424) -/

section
variable (s : State)

/-- An alert of a die sets its bit there; the rest of it is an interrupt, which changes package registers. -/
theorem alert_eq (d bit : Nat) : s.alert d bit = { s.updDie d fun x => { x with alerts := x.alerts ||| (1#2 <<< bit) } with
    sys := (s.alert d bit).sys } := (registersOnly_msix _ 3).1
@[simp] theorem alert_die (d bit : Nat) :
    (s.alert d bit).die d = { s.die d with alerts := (s.die d).alerts ||| (1#2 <<< bit) } := by
  rw [alert_eq]
  exact setDie_die ..
@[simp] theorem alert_core (d bit c : Nat) : (s.alert d bit).core c = s.core c := by
  rw [alert_eq]
  rfl
end

/-! ## Temperature (R424, R426) -/

section
variable {s : State} {core : Nat} {x thr : Int}

theorem tempAlert_marks (ht : thr ≤ x) (hm : core ∉ (s.die (dieOf core)).hotMark) :
    (s.tempAlert core x thr).die (dieOf core) = { s.die (dieOf core) with
      hotMark := (s.die (dieOf core)).hotMark ++ [core]
      alerts := (s.die (dieOf core)).alerts ||| (1#2 <<< 0) } := by
  have hcond : thr ≤ x ∧ (!(s.die (dieOf core)).hotMark.contains core) = true := ⟨ht, by simpa using hm⟩
  simp only [State.tempAlert]
  rw [if_pos hcond, alert_die, updDie_eq, setDie_die]
theorem tempAlert_unmarks (ht : x ≤ thr - 20) : core ∉ ((s.tempAlert core x thr).die (dieOf core)).hotMark := by
  have hlow : ¬ (thr ≤ x ∧ (!(s.die (dieOf core)).hotMark.contains core) = true) := fun h => by omega
  simp only [State.tempAlert]
  rw [if_neg hlow]
  by_cases hm : core ∈ (s.die (dieOf core)).hotMark
  · simp [ht, hm]
  · simp [hm]
theorem tempAlert_between (hlo : thr - 20 < x) (hhi : x < thr) : s.tempAlert core x thr = s := by
  simp only [State.tempAlert]
  rw [if_neg fun h => by omega, if_neg fun h => by omega]
@[simp] theorem tempAlert_core (c : Nat) : (s.tempAlert core x thr).core c = s.core c := by
  simp only [State.tempAlert]
  split
  · exact alert_core ..
  · split <;> rfl

/-- Only the thermal ceiling of the die changes. -/
theorem ceilings_die (d : Nat) : (s.ceilings d x).die d = { s.die d with ceiling := ((s.ceilings d x).die d).ceiling } := by
  simp only [State.ceilings]
  split
  · simp
  · split <;> simp
theorem ceilings_hot (d : Nat) (hx : 420 ≤ x) : ((s.ceilings d x).die d).ceiling = 1000 := by
  simp [State.ceilings, hx]
@[simp] theorem ceilings_core (d c : Nat) : (s.ceilings d x).core c = s.core c := by
  simp only [State.ceilings]
  split
  · rfl
  · split <;> rfl
end

/-- What a core keeps of a sample of its temperature. -/
def Core.sampled (k : Core) (v : BitVec 16) : Core :=
  { k with temp := v, hot := if 380 ≤ v.toInt then true else if v.toInt < 356 then false else k.hot }
/-- The threshold of the temperature alert at a core's die, in units of 0.25 °C. -/
def State.hotThreshold (s : State) (core : Nat) : Int := 4 * (((s.die (dieOf core)).monthr.toNat % 256 : Nat) : Int)

theorem exec_temperatureSample (core : Nat) (v : BitVec 16) (s : State) :
    exec (.temperatureSample core v) s = execTemperatureSample core v s := by rfl
section
variable {s : State} {core : Nat} {v : BitVec 16} (ht : s.tripped = false) (hlive : s.liveCore core = true)
include ht hlive

theorem exec_temperatureSample_trips (hv : 460 ≤ v.toInt) : exec (.temperatureSample core v) s = .next s.trip := by
  have hsensed : ¬ (s.tripped || !s.sensed core) = true := by simp [ht, hlive, State.sensed]
  simp only [exec_temperatureSample, execTemperatureSample]
  rw [if_neg hsensed, if_pos hv]
theorem exec_temperatureSample_next (hv : v.toInt < 460) : exec (.temperatureSample core v) s =
    .next (((s.setCore core ((s.core core).sampled v)).tempAlert core v.toInt (s.hotThreshold core)).ceilings (dieOf core)
      v.toInt) := by
  have hsensed : ¬ (s.tripped || !s.sensed core) = true := by simp [ht, hlive, State.sensed]
  simp only [exec_temperatureSample, execTemperatureSample]
  rw [if_neg hsensed, if_neg (Int.not_le.2 hv)]
  rfl
end

theorem exec_hbmTemperatureSample (stack sensor : Nat) (v : BitVec 16) (s : State) :
    exec (.hbmTemperatureSample stack sensor v) s = execHbmTemperatureSample stack sensor v s := by rfl
/-- What a die keeps of a sample of a sensor of one of its two stacks. -/
def Die.hbmSampled (d : Die) (stack sensor : Nat) (v : BitVec 16) : Die :=
  let m := put 0 (4 * (stack % 2) + sensor) v d.hbmTemp
  let bit : BitVec 2 := 1#2 <<< (stack % 2)
  { d with
    hbmTemp := m
    refresh2 := if 380 ≤ v.toInt then d.refresh2 ||| bit
      else if (List.range 4).all fun i => decide ((look 0 (4 * (stack % 2) + i) m).toInt < 360) then d.refresh2 &&& ~~~bit
      else d.refresh2 }
section
variable {s : State} {stack sensor : Nat} {v : BitVec 16} (ht : s.tripped = false) (hst : stack < 16) (hse : sensor < 4)
include ht hst hse

theorem exec_hbmTemperatureSample_trips (hv : 420 ≤ v.toInt) :
    exec (.hbmTemperatureSample stack sensor v) s = .next s.trip := by
  simp only [exec_hbmTemperatureSample, execHbmTemperatureSample]
  rw [if_neg (by simp [ht, hst, hse]), if_pos hv]
theorem exec_hbmTemperatureSample_next (hv : v.toInt < 420) : exec (.hbmTemperatureSample stack sensor v) s =
    .next (s.setDie (stack / 2) ((s.die (stack / 2)).hbmSampled stack sensor v)) := by
  simp only [exec_hbmTemperatureSample, execHbmTemperatureSample]
  rw [if_neg (by simp [ht, hst, hse]), if_neg (Int.not_le.2 hv)]
  rfl
end
theorem hbmSampled_temp (d : Die) (stack sensor : Nat) (v : BitVec 16) :
    look 0 (4 * (stack % 2) + sensor) (d.hbmSampled stack sensor v).hbmTemp = v := look_put_self ..
theorem hbmSampled_refreshes {d : Die} {stack sensor : Nat} {v : BitVec 16} (hv : 380 ≤ v.toInt) :
    (d.hbmSampled stack sensor v).refresh2.getLsbD (stack % 2) = true := by
  have hbit : stack % 2 < 2 := Nat.mod_lt _ (by decide)
  simp [Die.hbmSampled, hv, hbit]
theorem hbmSampled_keeps {d : Die} {stack sensor : Nat} {v : BitVec 16} (hse : sensor < 4) (hlo : 360 ≤ v.toInt)
    (hhi : v.toInt < 380) : (d.hbmSampled stack sensor v).refresh2 = d.refresh2 := by
  have hwarm : ¬ ((List.range 4).all fun i => decide
      ((look 0 (4 * (stack % 2) + i) (put 0 (4 * (stack % 2) + sensor) v d.hbmTemp)).toInt < 360)) = true := by
    intro hall
    have := List.all_eq_true.1 hall sensor (List.mem_range.2 hse)
    rw [look_put_self, decide_eq_true_eq] at this
    omega
  simp only [Die.hbmSampled]
  rw [if_neg (Int.not_le.2 hhi), if_neg hwarm]

/-! ## Droops (R46, R424) -/

theorem exec_droopEvent (s : State) : exec .droopEvent s = execDroopEvent s := by rfl
/-- What a core keeps of a droop. -/
def Core.drooped (k : Core) (now : Nat) : Core :=
  { k with
    droops := (k.droops.filter fun u => decide (now < u + 100000)) ++ [now]
    avoided := if 9 ≤ k.droopCount now + 1 then some now else k.avoided }
section
variable {s : State} (ht : s.tripped = false) (hr : s.boot.ready = true) (hlive : s.liveCore s.pick = true)
include ht hr hlive

theorem exec_droopEvent_next : ∃ t, exec .droopEvent s = .next t ∧ t.core s.pick = (s.core s.pick).drooped s.now ∧
    (fld (s.die (dieOf s.pick)).monthr.toNat 8 8 < (s.core s.pick).droopCount s.now + 1 →
      s.pick ∉ (s.die (dieOf s.pick)).droopMark → (t.die (dieOf s.pick)).alerts.getLsbD 1 = true) := by
  rw [exec_droopEvent, execDroopEvent]
  simp only [ht, hr, hlive, Bool.not_true, Bool.or_self, Bool.false_eq_true, if_false]
  refine ⟨_, rfl, ?_, fun hthr hmark => ?_⟩
  · split
    · rw [alert_core]
      exact setCore_core ..
    · exact setCore_core ..
  · have hfresh : (!((s.die (dieOf s.pick)).droopMark.filter fun c => c != s.pick ||
        decide (fld (s.die (dieOf s.pick)).monthr.toNat 8 8 < (s.core s.pick).droopCount s.now)).contains s.pick) = true := by
      rw [Bool.not_eq_true', List.contains_eq_mem, decide_eq_false_iff_not]
      exact fun h => hmark (List.mem_filter.1 h).1
    rw [if_pos ⟨hthr, hfresh⟩, alert_die]
    simp
end

theorem exec_avoidedExpiry (s : State) : exec .avoidedExpiry s = execAvoidedExpiry s := by rfl
section
variable {s : State} {u : Nat} (hu : (s.core s.pick).avoided = some u)
include hu
theorem exec_avoidedExpiry_next (h : u + 400000 ≤ s.now) : exec .avoidedExpiry s =
    .next (s.setCore s.pick { s.core s.pick with avoided := none }) := by
  simp only [exec_avoidedExpiry, execAvoidedExpiry, hu]
  exact if_pos h
theorem exec_avoidedExpiry_early (h : s.now < u + 400000) : ∃ why, exec .avoidedExpiry s = .refused (.notEnabled why) := by
  simp only [exec_avoidedExpiry, execAvoidedExpiry, hu]
  exact ⟨_, if_neg (Nat.not_le.2 h)⟩
end

theorem exec_processMonitorSample (die mon : Nat) (v : Word) (s : State) :
    exec (.processMonitorSample die mon v) s = execProcessMonitorSample die mon v s := by rfl

/-! ## Power (R425) -/

theorem exec_powerTick (watts : Nat) (s : State) : exec (.powerTick watts) s = execPowerTick watts s := by rfl
/-- A die's power limit and clock after a power tick. -/
def Die.powered (x : Die) (watts cap : Nat) : Die :=
  { x with
    powerLimit := powerStep x.powerLimit watts cap
    freq := min (min (powerStep x.powerLimit watts cap) x.ceiling) 1800 }
/-- A change of each die of a list without repetitions. -/
theorem foldl_updDie_die (f : Die → Die) {l : List Nat} (hl : l.Nodup) (s : State) {d : Nat} (hd : d ∈ l) :
    (l.foldl (fun s d => s.updDie d f) s).die d = f (s.die d) := by
  have later : ∀ (l : List Nat) (s : State), d ∉ l → (l.foldl (fun s d => s.updDie d f) s).die d = s.die d := by
    intro l
    induction l with
    | nil => exact fun _ _ => rfl
    | cons a l ih =>
      intro s hn
      rw [List.mem_cons, not_or] at hn
      rw [List.foldl_cons, ih _ hn.2, updDie_eq, setDie_die_ne _ hn.1]
  induction l generalizing s with
  | nil => cases hd
  | cons a l ih =>
    rw [List.nodup_cons] at hl
    rw [List.foldl_cons]
    rcases List.mem_cons.1 hd with rfl | hd
    · rw [later l _ hl.1, updDie_eq, setDie_die]
    · rw [ih hl.2 _ hd, updDie_eq, setDie_die_ne _ (ne_of_mem_of_not_mem hd hl.1)]
theorem foldl_updDie_sys (f : Die → Die) (l : List Nat) (s : State) :
    (l.foldl (fun s d => s.updDie d f) s).sys = s.sys :=
  List.foldlRecOn l _ (motive := fun t : State => t.sys = s.sys) rfl fun _ h _ _ => h
theorem exec_powerTick_next {s : State} (ht : s.tripped = false) (hr : s.boot.ready = true) (watts : Nat) :
    ∃ t, exec (.powerTick watts) s = .next t ∧ t.sys = { s.sys with pwrnow := watts } ∧
      ∀ d, d < 8 → t.die d = (s.die d).powered watts s.sys.pwrcap := by
  refine ⟨(List.range 8).foldl (fun t d => t.updDie d fun x => x.powered watts s.sys.pwrcap)
    (s.setSys fun y => { y with pwrnow := watts }), ?_, ?_, fun d hd => ?_⟩
  · rw [exec_powerTick, execPowerTick, if_neg (by simp [ht, hr])]
    rfl
  · exact foldl_updDie_sys ..
  · exact foldl_updDie_die _ List.nodup_range _ (List.mem_range.2 hd)

/-! ## The obligation -/

/-- Settles O60, monitor by monitor. -/
theorem monitorsActAtTheirThresholds : Obligations.MonitorsActAtTheirThresholds := by
  unfold Obligations.MonitorsActAtTheirThresholds
  refine ⟨fun s core v ht _ hlive => ⟨fun hv => ?_, fun hv => ?_⟩, fun s ht hr hlive => ?_,
    fun s u hu => ⟨fun h => ?_, fun h => exec_avoidedExpiry_early hu h⟩,
    fun s stack sensor v ht _ hst hse => ⟨fun hv => ?_, fun hv => ?_⟩, fun s die mon v ht hr hd hm => ?_,
    fun s watts ht hr => ?_⟩
  · exact ⟨_, exec_temperatureSample_trips ht hlive hv, rfl, rfl, rfl⟩
  · refine ⟨_, exec_temperatureSample_next ht hlive hv, ?_, fun h => ?_, fun h => ?_, fun hlo hhi => ?_, fun h => ?_,
      fun h hm => ?_, fun h => ?_, fun hlo hhi => ?_⟩
    · simp [Core.sampled]
    · simp [Core.sampled, h]
    · simp [Core.sampled, h, show ¬ 380 ≤ v.toInt by omega]
    · simp [Core.sampled, Int.not_le.2 hhi, Int.not_lt.2 hlo]
    · exact ceilings_hot _ h
    · rw [ceilings_die, tempAlert_marks (s := s.setCore core ((s.core core).sampled v)) (thr := s.hotThreshold core) h hm]
      simp
    · rw [ceilings_die]
      exact tempAlert_unmarks h
    · rw [ceilings_die, tempAlert_between (thr := s.hotThreshold core) hlo hhi]
      rfl
  · obtain ⟨t, hrun, hcore, halert⟩ := exec_droopEvent_next ht hr hlive
    refine ⟨t, hrun, by rw [hcore]; rfl, fun h => ?_, fun h => ?_, halert⟩
    · rw [hcore, Core.drooped, if_pos (Nat.succ_le_succ h)]
    · rw [hcore, Core.drooped, if_neg (by omega)]
  · exact ⟨_, exec_avoidedExpiry_next hu h, rfl, congrArg Core.avoided (setCore_core ..)⟩
  · exact ⟨_, exec_hbmTemperatureSample_trips ht hst hse hv, rfl⟩
  · refine ⟨_, exec_hbmTemperatureSample_next ht hst hse hv, ?_, fun h => ?_, fun hlo hhi => ?_⟩
    · rw [setDie_die, hbmSampled_temp]
    · rw [setDie_die, hbmSampled_refreshes h]
    · rw [setDie_die, hbmSampled_keeps hse hlo hhi]
  · refine ⟨s.updDie die fun d => { d with procMon := put 0 mon v d.procMon }, ?_, rfl, ?_⟩
    · rw [exec_processMonitorSample, execProcessMonitorSample, if_neg (by simp [ht, hr, hd, hm])]
    · rw [updDie_eq, setDie_die, look_put_self]
  · obtain ⟨t, hrun, hsys, hdie⟩ := exec_powerTick_next ht hr watts
    refine ⟨t, hrun, hsys, fun d hd => ⟨fun h => ?_, fun h => ?_, fun hcap hlow => ?_, ?_⟩⟩
    · rw [hdie d hd, Die.powered, powerStep, if_pos h]
    · rw [hdie d hd, Die.powered, powerStep, if_neg (by omega), if_pos h]
    · rw [hdie d hd, Die.powered, powerStep, if_neg (Nat.not_lt.2 hcap), if_neg (Nat.not_lt.2 hlow)]
    · rw [hdie d hd]
      rfl

end Sys2Proof.Machine
end

-- Stores of the device beside groups and tracks (R214, R319, R369)
section
/-! The stores of the device and the room in the fault queue do not depend on cores, tracks, groups, teams and grids, and
leave them as they are. -/

namespace Sys2Proof.Machine

/-- A state with the cores, the tracks, the groups, the teams, the grids and the next name of another. -/
def State.around (s u : State) : State :=
  { s with cores := u.cores, tracks := u.tracks, groups := u.groups, teams := u.teams, grids := u.grids, nextId := u.nextId }

section
variable (s u : State)

theorem around_setTrack (k : Nat) (x : Track) : (s.around u).setTrack k x = s.around (u.setTrack k x) := rfl
theorem around_setGroup (k : Nat) (x : Group) : (s.around u).setGroup k x = s.around (u.setGroup k x) := rfl
@[simp] theorem around_die (d : Nat) : (s.around u).die d = s.die d := rfl
@[simp] theorem around_ent (d line : Nat) : (s.around u).ent d line = s.ent d line := rfl
@[simp] theorem around_activeAt (d line : Nat) : (s.around u).activeAt d line = s.activeAt d line := rfl
@[simp] theorem around_canWrite (d line : Nat) : (s.around u).canWrite d line = s.canWrite d line := rfl
@[simp] theorem around_devDie (line : Nat) : (s.around u).devDie line = s.devDie line := rfl
@[simp] theorem around_revokes (line : Nat) : (s.around u).revokes line = s.revokes line := rfl
@[simp] theorem around_homeDest (line : Nat) : (s.around u).homeDest line = s.homeDest line := rfl
@[simp] theorem around_homeErr (d line : Nat) : (s.around u).homeErr d line = s.homeErr d line := rfl
@[simp] theorem around_sreq (d line : Nat) : (s.around u).sreq d line = s.sreq d line := rfl
@[simp] theorem around_silent (d : Nat) : (s.around u).silent d = s.silent d := rfl
@[simp] theorem around_tokenLine (line : Nat) : (s.around u).tokenLine line = s.tokenLine line := rfl
@[simp] theorem around_devStores : (s.around u).devStores = s.devStores := rfl

/-! ## Messages -/

theorem route_around (die : Nat) (f : Flight) : (s.around u).route die f = (s.route die f).around u := by
  have hwithin : (s.around u).within f.dest = s.within f.dest := rfl
  have hvalid : (s.around u).enum = s.enum := rfl
  have hport : (s.around u).bestPort die ((s.around u).portsFor f.dest) = s.bestPort die (s.portsFor f.dest) := rfl
  unfold State.route
  rw [hwithin, hvalid, hport]
  split
  · rfl
  · split
    · rfl
    · split <;> rfl
theorem post_around (die : Nat) (dest : Dest) (m : Msg) :
    (s.around u).post die dest m = (s.post die dest m).around u := by
  unfold State.post
  rw [around_die]
  split
  · rfl
  · exact route_around ..
theorem postAll_around (die : Nat) (l : List Nat) (m : Msg) :
    (s.around u).postAll die l m = (s.postAll die l m).around u :=
  List.foldl_hom (State.around · u) fun s d => post_around s u die (.die d) m
theorem postHome_around (d line : Nat) (m : Msg) : (s.around u).postHome d line m = (s.postHome d line m).around u := by
  unfold State.postHome
  rw [around_homeDest]
  split
  · exact post_around ..
  · rfl

/-! ## Lines of a die, requests for them -/

theorem evict_around (d line : Nat) : (s.around u).evict d line = (s.evict d line).around u := by
  unfold State.evict
  rw [around_ent]
  split
  · exact postHome_around (s.dropEnt d line) u ..
  · rfl
theorem makeWay_around (d line : Nat) :
    (s.around u).makeWay d line = (s.makeWay d line).map (State.around · u) := by
  have hset : (s.around u).inSet d line = s.inSet d line := rfl
  by_cases hroom : (s.inSet d line).length < 16
  · simp only [State.makeWay, hset, if_pos hroom, Option.map_some]
  · simp only [State.makeWay, hset, if_neg hroom, around_activeAt]
    split
    · exact congrArg some (evict_around ..)
    · rfl
theorem addTokens_around (d line : Nat) (p : TokPay) : (s.around u).addTokens d line p = (s.addTokens d line p).around u := by
  unfold State.addTokens
  rw [around_ent, makeWay_around]
  split
  · rfl
  · cases s.makeWay d line with
    | none => exact postHome_around ..
    | some t => rfl
theorem dropHolders_around (line : Nat) : (s.around u).dropHolders line = (s.dropHolders line).around u :=
  List.foldl_hom (State.around · u) fun _ _ => rfl
theorem claim_around (d line : Nat) (whole : Bool) : (s.around u).claim d line whole = (s.claim d line whole).around u := by
  cases hh : s.ownHome line with
  | none =>
    have hu : (s.around u).ownHome line = none := hh
    rw [claim_of_no_home hh, claim_of_no_home hu]
  | some h =>
    have hu : (s.around u).ownHome line = some h := hh
    by_cases hc : s.claimable h line whole = true
    · have hcu : (s.around u).claimable h line whole = true := hc
      have hway : ((s.around u).dropHolders line).makeWay d line =
          ((s.dropHolders line).makeWay d line).map (State.around · u) := by
        rw [dropHolders_around, makeWay_around]
      cases ht : (s.dropHolders line).makeWay d line with
      | none => rw [claim_of_no_way hh ht, claim_of_no_way hu (by rw [hway, ht]; rfl)]
      | some t =>
        rw [claim_takes hh hc ht, claim_takes hu hcu (t := t.around u) (by rw [hway, ht]; rfl), ← addTokens_around]
        rfl
    · have hcu : ¬ (s.around u).claimable h line whole = true := hc
      rw [claim_of_not_claimable hh hc, claim_of_not_claimable hu hcu]
theorem devReady_around (line : Nat) (whole : Bool) : (s.around u).devReady line whole = (s.devReady line whole).around u := by
  unfold State.devReady
  rw [around_devDie, around_canWrite]
  split
  · rfl
  · exact claim_around ..
theorem sliceMasked_around (d pa : Nat) (l : List (Byte × Byte)) :
    (s.around u).sliceMasked d pa l = (s.sliceMasked d pa l).around u := by
  unfold State.sliceMasked State.sliceWrite State.sliceBytes
  rw [around_ent]
  split <;> rfl
theorem allMasked_around (d : Nat) (l : List (Nat × List (Byte × Byte))) :
    l.foldl (fun s x => s.sliceMasked d x.1 x.2) (s.around u) =
      (l.foldl (fun s x => s.sliceMasked d x.1 x.2) s).around u :=
  List.foldl_hom (State.around · u) fun s x => sliceMasked_around s u d x.1 x.2
theorem sendReq_around (d line : Nat) (write : Bool) (dies : List Nat) :
    (s.around u).sendReq d line write dies = (s.sendReq d line write dies).around u := by
  simp only [State.sendReq]
  rw [around_revokes, around_homeDest]
  split
  · rfl
  · split
    · exact (congrArg (fun t : State => t.postAll d _ _) (post_around ..)).trans (postAll_around ..)
    · exact (congrArg (fun t : State => t.postAll d _ _) (post_around ..)).trans (postAll_around ..)
    · rfl
theorem request_around (d line : Nat) (write : Bool) (w : Waiter) :
    (s.around u).request d line write w = (s.request d line write w).around u := by
  simp only [State.request]
  rw [around_sreq, around_silent]
  split
  · rfl
  · split
    · rfl
    · exact sendReq_around (s.setSreq d line ⟨write, .transient, s.now, [(w, write)]⟩) u ..

/-! ## Stores of the device -/

theorem flushLine_around (line : Nat) : (s.around u).flushLine line = (s.flushLine line).around u := by
  simp only [State.flushLine]
  rw [devReady_around, around_devStores, around_devDie, around_canWrite, around_homeErr, around_sreq]
  generalize s.devReady line _ = t
  split
  · rfl
  · split
    · exact allMasked_around { t with devStores := t.devStores.filter fun x => x.1 / 128 != line } u ..
    · split
      · rfl
      · exact request_around ..
theorem devStore_around (x : Nat × List (Byte × Byte)) : (s.around u).devStore x = (s.devStore x).around u := by
  unfold State.devStore
  rw [around_tokenLine]
  split
  · rfl
  · split <;> rfl
theorem physStores_around (ps : List (Nat × List (Byte × Byte))) :
    (s.around u).physStores ps = (s.physStores ps).around u := by
  simp only [State.physStores]
  rw [List.foldl_hom (State.around · u) fun s x => devStore_around s u x,
    List.foldl_hom (State.around · u) fun s x => flushLine_around s u x]
/-- A store of the device leaves cores, tracks, groups, teams and grids as they are. -/
theorem physWrite_around (pa : Nat) (bs : List Byte) : (s.physWrite pa bs).around s = s.physWrite pa bs :=
  (physStores_around s s _).symm

/-- Whether a record can be written at once does not depend on them. -/
theorem fqReady_around : (s.around u).fqReady = s.fqReady := by
  have hline : ((s.around u).devReady s.fqLine false).canWrite (s.devDie s.fqLine) s.fqLine =
      (s.devReady s.fqLine false).canWrite (s.devDie s.fqLine) s.fqLine := by
    rw [devReady_around, around_canWrite]
  exact congrArg (fun b => s.fqRoom && (!s.tokenLine s.fqLine || b ||
    (s.homeErr (s.devDie s.fqLine) s.fqLine).isSome)) hline
end

/-! ## Fault records (R321) -/

section
variable (s : State)

/-- A record that is written leaves the groups and the grids as they are. -/
theorem putRecord_keeps (r : FaultRec) : (s.putRecord r).groups = s.groups ∧ (s.putRecord r).grids = s.grids := by
  have hstored := physWrite_around s (s.sys.fqbase.toNat + 64 * (s.sys.fqtail.toNat % 4096))
    (r.bytes ++ [BitVec.ofNat 8 (s.sys.fqtail.toNat / 4096 % 2 * 128)])
  generalize ht : s.physWrite (s.sys.fqbase.toNat + 64 * (s.sys.fqtail.toNat % 4096))
    (r.bytes ++ [BitVec.ofNat 8 (s.sys.fqtail.toNat / 4096 % 2 * 128)]) = t at hstored
  have hregs : RegistersOnly { t with sys := { t.sys with fqtail := t.sys.fqtail + 1 } } (s.putRecord r) := by
    unfold State.putRecord
    simp only [ht]
    exact ((RegistersOnly.refl _).thenIf (registersOnly_msix ..)).thenIf (registersOnly_snapshot ..)
  obtain ⟨hrest, -⟩ := hregs
  rw [hrest, ← hstored]
  exact ⟨rfl, rfl⟩
/-- A record that is reported leaves the grids as they are, and may stop its group alone. -/
theorem report_keeps (r : FaultRec) {g : Nat} {x : Group} (hx : s.group g = some x) :
    (s.report r g).grids = s.grids ∧ ∃ b, (s.report r g).group g = some { x with stopped := b } := by
  simp only [State.report]
  split
  · obtain ⟨hgroups, hgrids⟩ := putRecord_keeps s r
    refine ⟨hgrids, x.stopped, ?_⟩
    rw [State.group, hgroups]
    exact hx
  · split
    · exact ⟨rfl, true, (updGroup_group s g _).trans (congrArg _ hx)⟩
    · split
      · exact ⟨rfl, x.stopped, hx⟩
      · split <;> exact ⟨rfl, x.stopped, hx⟩
end

end Sys2Proof.Machine
end

-- Precise faults (R30, R318, R322)
section
/-! What a precise fault leaves: entry to the trap handler, or the abort of the grid, and the record in the fault queue. -/

namespace Sys2Proof.Machine

/-! ## Entry to the handler -/

theorem find_map_entry {β γ : Type} (f : Nat → β → γ) (k : Nat) (m : SMap β) :
    find k (m.map fun e => (e.1, f e.1 e.2)) = (find k m).map (f k) := by
  induction m with
  | nil => rfl
  | cons e m ih =>
    obtain ⟨j, x⟩ := e
    by_cases hj : j = k
    · subst hj
      simp [find]
    · simpa [find, hj] using ih
theorem find_none_of_above {β : Type} {k : Nat} {m : SMap β} (h : above k m) : find k m = none := by
  induction m with
  | nil => rfl
  | cons e m ih =>
    obtain ⟨j, x⟩ := e
    have hj : j ≠ k := Nat.ne_of_gt (h _ List.mem_cons_self)
    simpa [find, hj] using ih fun e he => h e (List.mem_cons_of_mem _ he)
/-- What reads as zero need not be listed. -/
theorem look_filter_ne_zero {n : Nat} (k : Nat) (m : SMap (BitVec n)) (hm : rising m = true) :
    look 0 k (m.filter fun e => e.2 ≠ 0) = look 0 k m := by
  induction m with
  | nil => rfl
  | cons e m ih =>
    obtain ⟨j, x⟩ := e
    obtain ⟨habove, hrise⟩ := (rising_cons j x m).1 hm
    have hrest := ih hrise
    by_cases hj : j = k <;> by_cases hx : x = 0
    · subst hj hx
      rw [List.filter_cons_of_neg (by simp), hrest]
      simp [look, find, find_none_of_above habove]
    · rw [List.filter_cons_of_pos (by simpa using hx)]
      simp [look, find, hj]
    · rw [List.filter_cons_of_neg (by simp [hx]), hrest]
      simp [look, find, hj]
    · rw [List.filter_cons_of_pos (by simpa using hx)]
      simpa [look, find, hj] using hrest

/-- An entry of the split table as the handler is entered by the fragment of another, or the same, entry. -/
def trapFrag (trapvec : DWord) (entry e : Nat) (f : Frag) : Frag :=
  if e = entry then { f with
    pc := trapvec.setWidth 57, word := 0, state := .ready, wait := .none, fresh := false
    cursor := none, redo := false, stop := none }
  else { f with held := true }
section
variable (x : Group) (entry kind cursor : Nat) (resume info : DWord)

theorem trapEntry_split (repl : Bool) : (trapEntry x entry kind cursor repl resume info).split =
    x.split.map fun e => (e.1, trapFrag x.trapvec entry e.1 e.2) := by
  refine List.map_congr_left fun e _ => ?_
  unfold trapFrag
  split <;> rfl
theorem trapEntry_trapinfo (repl : Bool) (k : Nat) :
    look 0 k (trapEntry x entry kind cursor repl resume info).trapinfo = look 0 k
      [(0, resume.setWidth 32), (1, (resume >>> 32).setWidth 32), (2, info.setWidth 32), (3, (info >>> 32).setWidth 32)] :=
  look_filter_ne_zero k _ rfl
/-- FLTSTAT at the entry to the handler, as a number. -/
theorem trapEntry_fltstat (hkind : kind < 256) (hcur : cursor < 32) :
    (trapEntry x entry kind cursor false resume info).fltstat.toNat = kind + cursor * 2 ^ 8 + 2 ^ 13 := by
  simp only [trapEntry, BitVec.toNat_ofNat, bits01, Bool.false_eq_true, if_false]
  omega
end

/-! ## The fault of the running instruction -/

theorem groupRec_kind (s : State) (kind g : Nat) : (s.groupRec kind g).kind = kind := by
  unfold State.groupRec
  split
  · rfl
  · dsimp only
    split <;> rfl

/-- The state at a precise fault: what the instruction has done up to it concerns cores, tracks, its group's registers,
queues and scoreboards, and names. -/
structure FaultsAt (s u : State) (c : Ctx) : Prop where
  ctx : s.ctx = some c
  rest : u = s.around u
  grids : u.grids = s.grids
  group : ∃ x, u.group c.g = some x ∧ x = { c.grp with v := x.v, s := x.s, memq := x.memq, sb := x.sb }

section
variable {s u : State} {c : Ctx} (h : FaultsAt s u c)
include h

theorem FaultsAt.fqReady : u.fqReady = s.fqReady := by rw [h.rest, fqReady_around]
theorem FaultsAt.sys : u.sys = s.sys := by
  rw [h.rest]
  rfl
theorem FaultsAt.grid (k : Nat) : u.grid k = s.grid k := congrArg (find k) h.grids
theorem FaultsAt.traps {x : Group} (hx : x = { c.grp with v := x.v, s := x.s, memq := x.memq, sb := x.sb }) (kind : Nat) :
    u.traps x kind = s.traps c.grp kind := by
  rw [hx]
  simp only [State.traps, State.privileged, h.grid]
end

/-- The fault of a fragment whose grid and group are as the instruction found them. -/
theorem fragFault_spec {u : State} {g entry : Nat} {x : Group} (hx : u.group g = some x) (r : FaultRec) (cursor : Nat)
    (resume info : DWord) :
    (u.traps x r.kind = true → ∃ b, (u.fragFault g entry r cursor resume info).group g =
      some (trapEntry { x with stopped := b } entry r.kind cursor false resume info)) ∧
    (u.traps x r.kind = false → ∀ gd, u.grid x.grid = some gd → gd.st = .running →
      ∃ y, (u.fragFault g entry r cursor resume info).grid x.grid = some y ∧ y.st = .aborted) ∧
    (u.fqReady = true → (u.fragFault g entry r cursor resume info).sys.fqtail = u.sys.fqtail + 1) := by
  simp only [State.fragFault, hx, if_true]
  generalize hrec : { r with flags := _ } = rec_
  obtain ⟨hgrids, b, hb⟩ := report_keeps u rec_ hx
  refine ⟨fun htr => ⟨b, ?_⟩, fun htr gd hgd hst => ?_, fun hroom => ?_⟩
  · rw [if_pos htr, updGroup_group, hb]
    rfl
  · have hgd' : (u.report rec_ g).grid x.grid = some gd := (congrArg (find x.grid) hgrids).trans hgd
    rw [if_neg (by rw [htr]; exact Bool.false_ne_true), State.abortGrid, updGrid_grid, hgd']
    exact ⟨_, rfl, by simp [hst]⟩
  · have htail : (u.report rec_ g).sys.fqtail = u.sys.fqtail + 1 := by
      rw [State.report, if_pos hroom]
      exact (reports_putRecord u rec_).2
    rw [← htail]
    split <;> rfl

theorem precise_eq (u : State) (c : Ctx) (kind cursor : Nat) (lane : Option Nat) (addr detail : Nat) :
    ∃ k r, FaultRec.kind r = kind ∧ u.precise c kind cursor lane addr detail = ((u.setTrack c.t k).fragFault c.g c.run.entry r
      cursor (resumePair c.run.hdr c.resumeWord) (BitVec.ofNat 64 addr)).clearRun c.t := by
  refine ⟨_, _, ?_, rfl⟩
  exact groupRec_kind ..
/-- A precise fault of the running instruction. -/
theorem precise_faults {s u : State} {c : Ctx} (h : FaultsAt s u c) {kind cursor : Nat} (hkind : kind < 256)
    (hcur : cursor < 32) (lane : Option Nat) (addr detail : Nat) :
    Faults s (u.precise c kind cursor lane addr detail) c kind cursor (resumePair c.run.hdr c.resumeWord)
      (BitVec.ofNat 64 addr) := by
  obtain ⟨-, -, -, -, -, hfrag, -, hgrid⟩ := ctx_spec h.ctx
  obtain ⟨x, hx, hfields⟩ := h.group
  have hsplit : x.split = c.grp.split := by rw [hfields]
  have hxgrid : x.grid = c.grp.grid := by rw [hfields]
  have htrapvec : x.trapvec = c.grp.trapvec := by rw [hfields]
  obtain ⟨k, r, hrk, hprecise⟩ := precise_eq u c kind cursor lane addr detail
  have hvx : (u.setTrack c.t k).group c.g = some x := hx
  generalize hu : u.setTrack c.t k = v at hprecise hvx
  have hv : FaultsAt s v c := by
    refine ⟨h.ctx, ?_, by rw [← hu]; exact h.grids, x, hvx, hfields⟩
    rw [← hu, ← around_setTrack, ← h.rest]
  obtain ⟨hentry, habort, htail⟩ := fragFault_spec (entry := c.run.entry) hvx r cursor
    (resumePair c.run.hdr c.resumeWord) (BitVec.ofNat 64 addr)
  rw [hrk, hv.traps hfields] at hentry habort
  rw [hprecise]
  refine ⟨fun htr => ?_, fun htr hst => ?_, fun hroom => ?_⟩
  · obtain ⟨b, hb⟩ := hentry htr
    have hflt := trapEntry_fltstat { x with stopped := b } c.run.entry kind cursor (resumePair c.run.hdr c.resumeWord)
      (BitVec.ofNat 64 addr) hkind hcur
    refine ⟨by simp [State.clearRun], by simp [State.clearRun], _, trapFrag x.trapvec c.run.entry c.run.entry c.frag, hb,
      ?_, ?_, ?_, ?_, trapEntry_trapinfo .., trapEntry_trapinfo .., trapEntry_trapinfo .., trapEntry_trapinfo .., ?_, ?_, ?_,
      ?_, fun e he => ?_, ?_⟩
    · rw [hflt, fld]
      omega
    · rw [hflt, fld]
      omega
    · rw [BitVec.getLsbD, hflt, Nat.testBit_eq_decide_div_mod_eq]
      simp only [decide_eq_true_eq]
      omega
    · rw [BitVec.getLsbD, hflt, Nat.testBit_eq_decide_div_mod_eq]
      simp only [decide_eq_false_iff_not]
      omega
    · rw [trapEntry_split, find_map_entry]
      show (find c.run.entry x.split).map _ = _
      rw [hsplit, hfrag]
      rfl
    · simp [trapFrag, htrapvec]
    · simp [trapFrag]
    · simp [trapFrag]
    · rw [trapEntry_split, find_map_entry]
      show ((find e x.split).map _).map _ = _
      rw [hsplit]
      cases find e c.grp.split <;> simp [trapFrag, he]
    · rw [hfields]
      rfl
  · obtain ⟨y, hy, hyst⟩ := habort htr c.grid (by rw [hxgrid, hv.grid]; exact hgrid) hst
    rw [hxgrid] at hy
    exact ⟨by simp [State.clearRun], y, hy, hyst⟩
  · rw [← hv.sys, ← htail (hv.fqReady.trans hroom)]
    rfl

end Sys2Proof.Machine
end

-- The faults of a memory address (R30, R238, R239)
section
/-! The hand-over of a memory instruction whose lanes fail the check of an address, and the obligation on it. -/

namespace Sys2Proof.Machine

/-! ## The lanes of a hand-over -/

/-- An address depends on the values of registers alone. -/
def OfValues (addr : RegFile → Nat → Nat) : Prop := ∀ r q l, SameVals r q → addr r l = addr q l
theorem ofValues_ea64 (base : Src) (off : BitVec 18) : OfValues (ea64 base off) := by
  intro r q l h
  unfold ea64
  rw [operand_congr 64 fun p _ => h p.1 p.2]
theorem ofValues_ta32 (base : Src) (off : BitVec 18) : OfValues (ta32 base off) := by
  intro r q l h
  unfold ta32
  rw [operand_congr 32 fun p _ => h p.1 p.2]

/-- The first lane whose address fails its check ends the hand-over, where the lanes up to it are readable (R239). -/
theorem handLoop_fails {h : Hand} {reads : Nat → List (Bank × Nat)} {addr : RegFile → Nat → Nat}
    {check : Nat → Option Nat} {data : RegFile → Nat → List Byte} (haddr : OfValues addr) {ls : List Nat}
    (hsorted : ls.Pairwise (· < ·)) {j k : Nat} (hj : j ∈ ls) {r : RegFile} {acc : List LaneAcc}
    (hread : ∀ l ∈ ls, l ≤ j → Readable r (reads l)) (hok : ∀ l ∈ ls, l < j → check (addr r l) = none)
    (hk : check (addr r j) = some k) :
    ∃ r' acc', handLoop h reads addr check data ls r acc = (r', acc', some (j, k, addr r j)) := by
  induction ls generalizing r acc with
  | nil => cases hj
  | cons i ls ih =>
    obtain ⟨hfirst, hrest⟩ := List.pairwise_cons.1 hsorted
    have hij : i ≤ j := by
      rcases List.mem_cons.1 hj with rfl | hj
      · exact Nat.le_refl _
      · exact Nat.le_of_lt (hfirst j hj)
    have hbad : (r.touchAll (reads i)).2 = false := touchAll_ok _ (hread i List.mem_cons_self hij)
    have hvals : SameVals (r.touchAll (reads i)).1 r := touchAll_vals _ _
    simp only [handLoop, hbad, Bool.false_eq_true, if_false, haddr _ _ i hvals]
    rcases List.mem_cons.1 hj with rfl | hj
    · rw [hk]
      exact ⟨_, _, rfl⟩
    · rw [hok i List.mem_cons_self (hfirst j hj), ← haddr _ _ j hvals]
      refine ih hrest hj (fun l hl hlj => touchAll_readable _ _ (hread l (List.mem_cons_of_mem _ hl) hlj))
        (fun l hl hlj => ?_) ?_
      · rw [haddr _ _ l hvals]
        exact hok l (List.mem_cons_of_mem _ hl) hlj
      · rw [haddr _ _ j hvals]
        exact hk
theorem memLanes_sorted (c : Ctx) (uni : Bool) : (c.memLanes uni).Pairwise (· < ·) := by
  cases uni
  · exact (lanesOf_sorted _).filter _
  · exact List.pairwise_singleton _ _

/-! ## The fault -/

/-- Handing a record over takes a name, and changes the group's queue and scoreboard. -/
theorem enqueueMem_spec (u : State) (c : Ctx) (h : Hand) (acc : List LaneAcc) (g : Group) :
    (u.enqueueMem c h acc g).1 = { u with nextId := (u.enqueueMem c h acc g).1.nextId } ∧
    (u.enqueueMem c h acc g).2 = { g with memq := (u.enqueueMem c h acc g).2.memq
                                          sb := (u.enqueueMem c h acc g).2.sb } := by
  unfold State.enqueueMem
  split
  · exact ⟨rfl, rfl⟩
  · refine ⟨rfl, ?_⟩
    dsimp only
    split <;> rfl
/-- The state at a fault in the middle of a hand-over: what the lanes below have handed over stays. -/
theorem faultsAt_handOver {s : State} {c : Ctx} (hctx : s.ctx = some c) (h : Hand) (r : RegFile) (acc : List LaneAcc)
    (k : Track) :
    FaultsAt s ((((s.countErrors c r).enqueueMem c h acc (c.grp.withRegs r)).1.setGroup c.g
      ((s.countErrors c r).enqueueMem c h acc (c.grp.withRegs r)).2).setTrack c.t k) c := by
  obtain ⟨hstate, hgroup⟩ := enqueueMem_spec (s.countErrors c r) c h acc (c.grp.withRegs r)
  generalize (s.countErrors c r).enqueueMem c h acc (c.grp.withRegs r) = e at hstate hgroup
  obtain ⟨v, x⟩ := e
  dsimp only at hstate hgroup ⊢
  have hrest : v = s.around v := by rw [hstate, countErrors_eq]; rfl
  have hgrids : v.grids = s.grids := by rw [hstate, countErrors_eq]
  refine ⟨hctx, ?_, hgrids, x, setGroup_group .., ?_⟩
  · rw [← around_setTrack, ← around_setGroup, ← hrest]
  · rw [hgroup]
    rfl

/-- The fault kinds of addresses fit their field. -/
def KindsFit (check : Nat → Option Nat) : Prop := ∀ a k, check a = some k → k < 256
theorem globalCheck_fits (n : Nat) : KindsFit (globalCheck n) := by
  intro a k h
  unfold globalCheck at h
  split at h
  · cases h; decide
  · split at h <;> cases h
    decide
theorem scratchCheck_fits (size n align : Nat) : KindsFit fun a => scratchCheck size a n align := by
  intro a k h
  simp only [scratchCheck] at h
  split at h
  · cases h; decide
  · split at h <;> cases h
    decide

/-- A memory instruction whose first lane that fails the check of its address is `j` faults there (R30, R239). -/
theorem handOver_faults {s : State} {c : Ctx} (hctx : s.ctx = some c) {m : Mo} {h : Hand}
    {reads : Nat → List (Bank × Nat)} {addr : RegFile → Nat → Nat} {check : Nat → Option Nat}
    {data : RegFile → Nat → List Byte} (hsb : ∀ n, h.sb = some n → look 0 n c.grp.sb ≠ 255)
    (hcur : m.uni = true → c.run.cursor ≠ some 32) (haddr : OfValues addr) (hfits : KindsFit check) {j k : Nat}
    (hj : j ∈ c.memLanes m.uni) (hread : ∀ l ∈ c.memLanes m.uni, l ≤ j → Readable c.regs (reads l))
    (hok : ∀ l ∈ c.memLanes m.uni, l < j → check (addr c.regs l) = none) (hk : check (addr c.regs j) = some k) :
    Faults s (s.handOver c m h reads addr check data) c k (if m.uni then 0 else j) (resumePair c.run.hdr c.resumeWord)
      (BitVec.ofNat 64 (addr c.regs j)) := by
  obtain ⟨r, acc, hloop⟩ := handLoop_fails (h := h) (data := data) (acc := []) haddr (memLanes_sorted c m.uni) hj hread hok hk
  have hroom : sbFull c.grp h.sb = false := by
    unfold sbFull
    split
    · rename_i n hn
      simpa using hsb n hn
    · rfl
  have hstarts : (m.uni && c.run.cursor == some 32) = false := by
    cases hu : m.uni
    · rfl
    · simpa using hcur hu
  have hcursor : (if m.uni then 0 else j) < 32 := by
    cases hu : m.uni <;> rw [hu] at hj
    · exact lt_of_mem_lanesOf (List.mem_filter.1 hj).1
    · exact Nat.zero_lt_succ _
  have hrun : s.handOver c m h reads addr check data =
      (((((s.countErrors c r).enqueueMem c h acc (c.grp.withRegs r)).1.setGroup c.g
        ((s.countErrors c r).enqueueMem c h acc (c.grp.withRegs r)).2).setTrack c.t (c.trk.withRegs r)).precise c k
        (if m.uni then 0 else j) (if m.uni then none else some j) (addr c.regs j) 0) := by
    simp only [Ctx.memLanes, Ctx.regs] at hloop
    simp only [State.handOver, hroom, hstarts, Bool.false_eq_true, if_false, hloop, Ctx.regs]
  rw [hrun]
  exact precise_faults (faultsAt_handOver hctx h r acc _) (hfits _ _ hk) hcursor _ _ _

/-! ## The obligation -/

theorem globalCheck_eq (n a : Nat) : globalCheck n a =
    if canonical a = false then some 0x13 else if a % n ≠ 0 then some 0x10 else none := by
  unfold globalCheck
  cases canonical a <;> rfl

section
variable {s : State} {c : Ctx} (h : s.ctx = some c)
include h

theorem exec_ld_next (f : FmtM) : exec (.ld f) s = .next (s.handOver c f.m
    ⟨.load .plain, .global, partSize (widthBytes f.d.width), partCount (widthBytes f.d.width), f.order, f.scope, f.na,
      some f.d, some f.sb.toNat⟩
    (srcWords f.base) (ea64 f.base f.off) (globalCheck (widthBytes f.d.width))
    fun _ _ => List.replicate (widthBytes f.d.width) 0) := by
  show runLoad f .global .plain _ s = _
  rw [runLoad, onTrack, h]
  rfl
theorem exec_sth_next (f : FmtM) : exec (.sth f) s = .next (s.handOver c f.m
    ⟨.store, .global, partSize 2, partCount 2, f.order, f.scope, false, none, none⟩
    (fun l => srcWords f.base l ++ dstWords f.d l) (ea64 f.base f.off) (globalCheck 2) (dataBytes f.d 2)) := by
  show runStore f .global 2 s = _
  rw [runStore, onTrack, h]
  rfl
theorem exec_stl_next (f : FmtM) : exec (.stl f) s = .next (s.handOver c f.m
    ⟨.store, .scratch, partSize (widthBytes f.d.width), partCount (widthBytes f.d.width), f.order, f.scope, false, none,
      none⟩
    (fun l => srcWords f.base l ++ dstWords f.d l) (ta32 f.base f.off)
    (fun a => scratchCheck c.team.size a (widthBytes f.d.width) (widthBytes f.d.width))
    (dataBytes f.d (widthBytes f.d.width))) := by
  show runStore f .scratch _ s = _
  rw [runStore, onTrack, h]
  rfl
theorem exec_atom_next (f : FmtA) : exec (.atom f) s = .next (s.handOver c f.m
    ⟨.atom f.aop f.ty true, .global, Ty.bitsOf f.ty / 8, 1, f.order, f.scope, false, some f.d, some 7⟩
    (fun l => srcWords f.base l ++ srcWords f.b l) (ea64 f.base 0) (globalCheck (Ty.bitsOf f.ty / 8))
    fun r l => leBytes (1 * (Ty.bitsOf f.ty / 8)) (r.operand f.b l (8 * (Ty.bitsOf f.ty / 8)))) := by
  show runAtom f .global (.atom f.aop f.ty true) true 1 s = _
  rw [runAtom, onTrack, h]
  rfl
end

/-- Settles O30: each of the four instructions hands over under the check of its space. -/
theorem addressFaults : Obligations.AddressFaults := by
  unfold Obligations.AddressFaults
  refine ⟨fun f s c h hsb hcur j hj hread hok k hk => ?_, fun f s c h hsb hcur j hj hread hok k hk => ?_,
    fun f s c h hsb hcur j hj hread hok k hk => ?_, fun f s c h hsb hcur j hj hread hok k hk => ?_⟩
  · simp only [← globalCheck_eq] at hok hk
    exact ⟨_, exec_ld_next h f, handOver_faults h hsb hcur (ofValues_ea64 _ _) (globalCheck_fits _) hj hread hok hk⟩
  · simp only [← globalCheck_eq] at hok hk
    exact ⟨_, exec_sth_next h f, handOver_faults h hsb hcur (ofValues_ea64 _ _) (globalCheck_fits _) hj hread hok hk⟩
  · simp only [← globalCheck_eq] at hok hk
    exact ⟨_, exec_atom_next h f, handOver_faults h hsb hcur (ofValues_ea64 _ _) (globalCheck_fits _) hj hread hok hk⟩
  · exact ⟨_, exec_stl_next h f, handOver_faults h hsb hcur (ofValues_ta32 _ _) (scratchCheck_fits _ _ _) hj hread hok hk⟩

end Sys2Proof.Machine
end

-- Comparisons of format K (R64, R131, R146)
section
/-! What a comparison writes, lane by lane; how two values of a float format stand; and the obligation on ICMP and FCMP. -/

namespace Sys2Proof.Machine

/-! ## A comparison (R131) -/

/-- A loop whose lanes only read finds no fault and changes no value, where their words are readable. -/
theorem laneLoop_reads {ls : List Nat} {reads : Nat → List (Bank × Nat)} {r : RegFile} (hn : ls.Nodup)
    (hr : ∀ l ∈ ls, Readable r (reads l)) :
    ∃ q, laneLoop reads (fun r _ => r) ls r = (q, none) ∧ SameVals q r := by
  have hlocal : LaneLocal ls reads (fun _ => []) fun r _ => r :=
    ⟨fun _ _ _ _ => rfl, fun _ _ _ _ _ hp => absurd hp List.not_mem_nil,
      fun _ _ _ _ _ _ hp => absurd hp List.not_mem_nil⟩
  obtain ⟨hbad, -, hvals⟩ := laneLoop_spec hlocal hn r hr
  exact ⟨_, Prod.ext rfl hbad, fun b k => hvals (b, k) fun _ _ => List.not_mem_nil⟩

/-- The bit that a comparison of format K finds for a lane (R131). -/
def compareBit (c : Ctx) (f : FmtK) (w : Nat) (cmp : Nat → Nat → Bool) (l : Nat) : Bool :=
  joinBit f.jop (cmp (c.regs.operand f.a l w) (c.regs.operand f.b l w)) ((c.k f.kj.toNat).getLsbD l)

/-- A comparison whose words are readable writes the bits of its executing lanes to kD. -/
theorem runCompare_next {s : State} {c : Ctx} (h : s.ctx = some c) {f : FmtK} (w : Nat) (cmp : Nat → Nat → Bool)
    (hr : ∀ l ∈ c.lanes, Readable c.regs (srcWords f.a l ++ srcWords f.b l)) :
    ∃ r, SameVals r c.regs ∧ runCompare s f w cmp = .next (s.regDone
      { c with grp := c.kWrite c.grp f.kd.toNat (maskOf (c.lanes.filter (compareBit c f w cmp))) (maskOf c.lanes) }
      r none 0 f.sp (laneSteps c.lanes.length)) := by
  obtain ⟨r, hloop, hvals⟩ := laneLoop_reads ((lanesOf_nodup _).filter _) hr
  have hop (x : Src) (l : Nat) : r.operand x l w = c.regs.operand x l w := operand_congr w fun p _ => hvals p.1 p.2
  have hloop' : laneLoop (fun l => srcWords f.a l ++ srcWords f.b l) (fun r _ => r) c.lanes (RegFile.of c.grp c.trk) =
    (r, none) := hloop
  refine ⟨r, hvals, ?_⟩
  simp only [runCompare, onTrack, h, hloop', hop]
  rfl

theorem kWrite_eq (c : Ctx) (g : Group) (kd : Nat) (v sel : Mask) :
    c.kWrite g kd v sel = { g with k := (c.kWrite g kd v sel).k } := rfl
theorem look_kWrite_ne (c : Ctx) (g : Group) {kd j : Nat} (hj : j ≠ kd) (v sel : Mask) :
    look 0 j (c.kWrite g kd v sel).k = look 0 j g.k := look_put_ne _ hj _ _
theorem getLsbD_kWrite (c : Ctx) (g : Group) (kd : Nat) (v sel : Mask) {l : Nat} (hl : l < 32) :
    (look 0 kd (c.kWrite g kd v sel).k).getLsbD l =
      if sel.getLsbD l = true ∧ c.frag.mask.getLsbD l = true ∧ l < g.nlanes then v.getLsbD l
      else (look 0 kd g.k).getLsbD l := by
  simp only [Ctx.kWrite, look_put_self, BitVec.getLsbD_or, BitVec.getLsbD_and, BitVec.getLsbD_not, hl, getLsbD_below]
  cases sel.getLsbD l <;> cases c.frag.mask.getLsbD l <;> by_cases hn : l < g.nlanes <;> simp [hn]

/-- A comparison writes one bit of kD for each executing lane, and changes nothing else. -/
theorem runCompare_spec {s : State} {c : Ctx} (h : s.ctx = some c) {f : FmtK} (w : Nat) (cmp : Nat → Nat → Bool)
    (hr : ∀ l ∈ c.lanes, Readable c.regs (srcWords f.a l ++ srcWords f.b l)) :
    ∃ t x, runCompare s f w cmp = .next t ∧ Only s t ∧ t.group c.g = some x ∧
      Completes s t c { c.grp with k := x.k } noWord ∧ (∀ j, j ≠ f.kd.toNat → look 0 j x.k = look 0 j c.grp.k) ∧
      ∀ l, l < 32 → (look 0 f.kd.toNat x.k).getLsbD l =
        if l ∈ c.lanes ∧ c.frag.mask.getLsbD l = true ∧ l < c.grp.nlanes then compareBit c f w cmp l
        else (look 0 f.kd.toNat c.grp.k).getLsbD l := by
  obtain ⟨r, hvals, hrun⟩ := runCompare_next h w cmp hr
  obtain ⟨honly, hcompl, ⟨x, hx, hk⟩, -⟩ := regDone_completes (written := noWord) h (kWrite_eq c c.grp f.kd.toNat
    (maskOf (c.lanes.filter (compareBit c f w cmp))) (maskOf c.lanes)) f.sp (laneSteps c.lanes.length)
    (fun b k _ _ => hvals b k) rfl
  refine ⟨_, x, hrun, honly, hx, ?_, fun j hj => ?_, fun l hl => ?_⟩
  · rw [hk]
    exact hcompl
  · rw [hk]
    exact look_kWrite_ne c c.grp hj _ _
  · rw [hk, getLsbD_kWrite _ _ _ _ _ hl, getLsbD_maskOf hl, getLsbD_maskOf hl]
    refine if_ctx_congr (and_congr_left' decide_eq_true_iff) (fun hlane => ?_) fun _ => rfl
    simp [hlane.1]

theorem exec_icmp (f : FmtK) (s : State) : exec (.icmp f) s =
    runCompare s f (if Ty.bitsOf f.ty = 64 then 64 else 32) fun a b =>
      condInt f.cond (tyVal f.ty a) (tyVal f.ty b) := by rfl
theorem exec_fcmp (f : FmtK) (s : State) : exec (.fcmp f) s =
    runCompare s f 32 fun a b => condFloat f.cond
      ((fread (Ty.fmt f.ty) false (a % 2 ^ (Ty.fmt f.ty).bits)).cmp
        (fread (Ty.fmt f.ty) false (b % 2 ^ (Ty.fmt f.ty).bits))) := by rfl

/-! ## How two values stand (R64) -/

theorem cmp_nan (a : El) : El.cmp .nan a = .un ∧ El.cmp a .nan = .un := by
  cases a <;> exact ⟨rfl, rfl⟩
theorem cmp_inf_fin (d : Dy) (m n : Bool) : El.cmp (.inf m) (.fin d n) = (if m then .lt else .gt) ∧
    El.cmp (.fin d n) (.inf m) = if m then .gt else .lt := ⟨rfl, rfl⟩
/-- Two finite values stand as their numerators over the lesser of the two scales do. -/
theorem cmp_fin (x y : Dy) (m n : Bool) : El.cmp (.fin x m) (.fin y n) =
    if x.at (min x.e y.e) < y.at (min x.e y.e) then .lt
    else if y.at (min x.e y.e) < x.at (min x.e y.e) then .gt else .eq := by
  simp only [El.cmp, Dy.lt, min_comm y.e x.e, decide_eq_true_eq]

/-- Settles O16: both comparisons are `runCompare`; the rest is the tables of R64. -/
theorem comparisons : Obligations.Comparisons := by
  unfold Obligations.Comparisons
  refine ⟨fun f s c h hr => ?_, fun f s c h hr => ?_, fun a b => ⟨rfl, rfl, rfl, rfl, rfl, rfl⟩, fun c => ?_, cmp_nan,
    fun m n => rfl, cmp_inf_fin, fun x y m n => cmp_fin x y m n⟩
  · rw [exec_icmp]
    exact runCompare_spec h _ _ hr
  · rw [exec_fcmp]
    exact runCompare_spec h _ _ hr
  · cases c <;> decide

end Sys2Proof.Machine
end

-- The decoder by opcode (R71, R72)
section
/-! Which opcodes the decoder knows, and the obligation on the words of the field tables. -/

namespace Sys2Proof.Machine

/-- The opcode that the clause rules look at is the field that the decoder matches on. -/
theorem opOf_eq (w : DWord) : opOf w = (bits w 56 8).toNat := by
  simp only [opOf, bits, BitVec.toNat_ushiftRight, BitVec.extractLsb'_toNat]
  have := w.isLt
  omega

/-- The gaps of the opcode map (R72). -/
theorem assigned_eq_false {n : Nat} (hn : n < 256) (h : assigned n = false) :
    n = 0 ∨ (3 ≤ n ∧ n ≤ 0x07) ∨ (0x39 ≤ n ∧ n ≤ 0x3F) ∨ (0x5B ≤ n ∧ n ≤ 0x5F) ∨ (0x6B ≤ n ∧ n ≤ 0x6F) ∨
      (0x7C ≤ n ∧ n ≤ 0x7F) ∨ (0x96 ≤ n ∧ n ≤ 0x9F) ∨ (0xB2 ≤ n ∧ n ≤ 0xBF) ∨ (0xC7 ≤ n ∧ n ≤ 0xCF) ∨
      (0xDC ≤ n ∧ n ≤ 0xDF) ∨ (0xE6 ≤ n ∧ n ≤ 0xFF) := by
  simp only [assigned, inRange, Bool.or_eq_false_iff, Bool.and_eq_false_iff, decide_eq_false_iff_not] at h
  omega
/-- An opcode in a gap of the map comes to the decoder's last case. -/
theorem decode_of_unassigned {w : DWord} (h : assigned (opOf w) = false) : decode w = .error .unassigned := by
  rw [opOf_eq] at h
  have hgap := assigned_eq_false (bits w 56 8).isLt h
  unfold decode
  generalize (bits w 56 8).toNat = n at hgap
  rcases hgap with rfl | hgap | hgap | hgap | hgap | hgap | hgap | hgap | hgap | hgap | hgap
  · rfl
  all_goals
    obtain ⟨hlo, hhi⟩ := hgap
    interval_cases n <;> rfl
theorem decode_of_prefix {w : DWord} (h : opOf w = 2) : decode w = .error .prefixWord := by
  rw [opOf_eq] at h
  unfold decode
  generalize (bits w 56 8).toNat = n at h
  subst h
  rfl
/-- What decodes has an assigned opcode other than that of PFX: the others are refused. -/
theorem opcode_of_decode {w : DWord} {i : Instr} (h : decode w = .ok i) : assigned (opOf w) = true ∧ opOf w ≠ 2 := by
  refine ⟨Bool.eq_true_of_not_eq_false fun hop => ?_, fun hop => ?_⟩
  · rw [decode_of_unassigned hop] at h
    cases h
  · rw [decode_of_prefix hop] at h
    cases h

/-- Settles O1: six words by evaluation, and the refusals by the opcode. -/
theorem decodesTableWords : Obligations.DecodesTableWords := by
  unfold Obligations.DecodesTableWords
  exact ⟨⟨rfl, rfl, rfl, rfl, rfl, rfl⟩, fun _ => decode_of_unassigned, fun _ => decode_of_prefix,
    fun _ _ => opcode_of_decode⟩

end Sys2Proof.Machine
end

-- The step that runs a track (R67, R68, R358; log 3)
section
/-! The instruction that a track executes next, and the obligation on the step that runs it. -/

namespace Sys2Proof.Machine

section
variable {s : State} {t : Nat} {r : Run} {i : Instr} {w : DWord}

/-- A word that decodes to an instruction none of whose s registers is awaited is executed. -/
theorem nextInstr_of_decode {pend : List Nat} (p : Option Pfx) (pos : Nat) (hdec : decode w = .ok i)
    (hpend : (sRegs i).any pend.contains = false) : nextInstr w p pos pend = .instr i p pos := by
  simp only [nextInstr, hdec, hpend]
  rfl
/-- A step whose move runs a track does what the track does next. -/
theorem step_of_run {rest : List Move} (h : s.agenda = .run t :: rest) :
    step s = runTrack t { s with agenda := rest } := by
  simp only [step, h, move]
theorem runTrack_of_instr {p : Option Pfx} {pos : Nat} (h : s.nextOn t = .instr i p pos) :
    runTrack t s = exec i (s.aim t i p pos) := by
  simp only [runTrack, h]

variable (hrun : (s.track t).run = some r) (hf : r.fetched = true)
include hrun hf

theorem nextOn_of_word (hw : r.word r.pos = some (w, .instr)) (hop : opOf w ≠ 2) :
    s.nextOn t = nextInstr w none r.pos (s.dsPending r.group) := by
  simp only [State.nextOn, hrun, hf, hw, hop]
  rfl
theorem nextOn_of_prefix {v : DWord} {p : Pfx} {k : WordKind} (hv : r.word r.pos = some (v, .instr)) (hop : opOf v = 2)
    (hp : decodePfx v = .ok p) (hw : r.word (r.pos + 1) = some (w, k)) :
    s.nextOn t = nextInstr w (some p) (r.pos + 1) (s.dsPending r.group) := by
  simp only [State.nextOn, hrun, hf, hv, hop, hp, hw]
  rfl
end

/-- Settles O2: the two ways in which an instruction word comes next, with and without a PFX word before it. -/
theorem stepRunsTheDecodedInstruction : Obligations.StepRunsTheDecodedInstruction := by
  unfold Obligations.StepRunsTheDecodedInstruction
  intro s t r i w rest hag hrun hf hpend hdec
  rw [step_of_run hag]
  refine ⟨fun hw hop => runTrack_of_instr ?_, fun v p hv hop hp ⟨k, hw⟩ => runTrack_of_instr ?_⟩
  · exact (nextOn_of_word hrun hf hw hop).trans (nextInstr_of_decode none _ hdec hpend)
  · exact (nextOn_of_prefix hrun hf hv hop hp hw).trans (nextInstr_of_decode (some p) _ hdec hpend)

end Sys2Proof.Machine
end

-- Instructions that compute a register (R26, R31, R34, R58)
section
/-! What an instruction of format T on one, two or three operands does, from the equation of its meaning. -/

namespace Sys2Proof.Machine

section
variable {i : Instr} {m : Mods} {d : Dst} {reads : Nat → List (Bank × Nat)} {val val' : RegFile → Nat → Option Pfx → Nat}

theorem Computes.congr (h : Computes i m d reads val) (hv : ∀ r l p, val r l p = val' r l p) :
    Computes i m d reads val' := by
  obtain rfl : val = val' := funext₃ hv
  exact h
end

theorem ownWords_nil : OwnWords fun _ => [] := fun _ _ hw => absurd hw List.not_mem_nil
section
variable {i : Instr} {f : FmtT} {w wa wb wc : Nat}

theorem computes1_of {op op' : Option Pfx → Nat → Nat} (he : ∀ s, exec i s = aluT1 s f w op)
    (hop : ∀ p a, op p a = op' p a) : Computes1 i f w op' := by
  obtain rfl : op = op' := funext₂ hop
  refine runAlu_computes he (ownWords_src _) fun r q l p h => ?_
  rw [operand_congr w h]
theorem computes2_of {op op' : Option Pfx → Nat → Nat → Nat} (he : ∀ s, exec i s = aluT2 s f wa wb op)
    (hop : ∀ p a b, op p a b = op' p a b) : Computes2 i f wa wb op' := by
  obtain rfl : op = op' := funext₃ hop
  refine runAlu_computes he (ownWords_append (ownWords_src _) (ownWords_src _)) fun r q l p h => ?_
  obtain ⟨ha, hb⟩ := List.forall_mem_append.1 h
  rw [operand_congr wa ha, operand_congr wb hb]
theorem computes3_of {op op' : Option Pfx → Nat → Nat → Nat → Nat} (he : ∀ s, exec i s = aluT3 s f wa wb wc op)
    (hop : ∀ p a b c, op p a b c = op' p a b c) : Computes3 i f wa wb wc op' := by
  obtain rfl : op = op' := funext₃ fun p a b => funext (hop p a b)
  refine runAlu_computes he
    (ownWords_append (ownWords_append (ownWords_src _) (ownWords_src _)) (ownWords_src _)) fun r q l p h => ?_
  obtain ⟨hab, hc⟩ := List.forall_mem_append.1 h
  obtain ⟨ha, hb⟩ := List.forall_mem_append.1 hab
  rw [operand_congr wa ha, operand_congr wb hb, operand_congr wc hc]
end

end Sys2Proof.Machine
end

-- Integer arithmetic (R91, R92, R126 to R128)
section
/-! Integers of w bits as bit vectors and as numbers, wrapped and clamped results, division; and the obligation on them. -/

namespace Sys2Proof.Machine

/-! ## Integers of w bits (R91, R92) -/

section
variable (g : Bool) (w x : Nat)

theorem ival_true : ival true w x = (BitVec.ofNat w x).toInt := by
  rw [BitVec.toInt_eq_toNat_cond, BitVec.toNat_ofNat]
  cases w with
  | zero => simp [ival, sgn, Nat.mod_one]
  | succ n =>
    have htop : x % 2 ^ (n + 1) < 2 ^ n ↔ 2 * (x % 2 ^ (n + 1)) < 2 ^ (n + 1) := by omega
    simp only [ival, sgn, if_true, Nat.add_sub_cancel, htop]
    push_cast
    rfl
/-- The number that a register holds under a type is the register's bits modulo 2^w. -/
@[simp] theorem ofInt_ival : BitVec.ofInt w (ival g w x) = BitVec.ofNat w x := by
  cases g
  · show BitVec.ofInt w ((x % 2 ^ w : Nat) : Int) = _
    rw [BitVec.ofInt_natCast, ← BitVec.toNat_inj, BitVec.toNat_ofNat, BitVec.toNat_ofNat, Nat.mod_mod]
  · rw [ival_true, BitVec.ofInt_toInt]
theorem ival_false_nonneg : 0 ≤ ival false w x := Int.natCast_nonneg _
@[simp] theorem ival_mod : ival g w (x % 2 ^ w) = ival g w x := by simp [ival]
end

theorem wrap_eq (w : Nat) (x : Int) : (x % 2 ^ w).toNat = (BitVec.ofInt w x).toNat := by simp
@[simp] theorem wrap_ival (g : Bool) (w x : Nat) : (ival g w x % 2 ^ w).toNat = x % 2 ^ w := by
  rw [wrap_eq, ofInt_ival, BitVec.toNat_ofNat]
/-- A result is clamped under SAT, and otherwise its low bits. -/
theorem wrapSat_eq (p : Option Pfx) (g : Bool) (w : Nat) (x : Int) :
    wrapSat (pfxSat p) g w x = satOr p g w x (BitVec.ofInt w x).toNat := by
  unfold wrapSat satOr
  split
  · rfl
  · exact wrap_eq w x
theorem ite_neg_eq_natAbs (x : Int) : (if x < 0 then -x else x) = x.natAbs := by omega
theorem ite_lt_sub_eq_natAbs (x y : Int) : (if x < y then y - x else x - y) = (x - y).natAbs := by omega
theorem ofInt_sub (w : Nat) (x y : Int) : BitVec.ofInt w (x - y) = BitVec.ofInt w x - BitVec.ofInt w y := by
  rw [sub_eq_add_neg, BitVec.ofInt_add, BitVec.ofInt_neg, BitVec.sub_eq_add_neg]
theorem shiftRight_eq_div (x : Int) (w : Nat) : x.shiftRight w = x / 2 ^ w := by
  exact_mod_cast Int.shiftRight_eq_div_pow x w

/-! ## Lesser and greater (R127) -/

section
variable (g : Bool) (w : Nat)

theorem if_le_ival_eq_min (a b : Nat) : (if ival g w a ≤ ival g w b then a % 2 ^ w else b % 2 ^ w) =
    (min (ival g w a) (ival g w b) % 2 ^ w).toNat := by
  rw [min_def]
  split <;> exact (wrap_ival ..).symm
theorem if_le_ival_eq_max (a b : Nat) : (if ival g w a ≤ ival g w b then b % 2 ^ w else a % 2 ^ w) =
    (max (ival g w a) (ival g w b) % 2 ^ w).toNat := by
  rw [max_def]
  split <;> exact (wrap_ival ..).symm
theorem ival_max (a b : Nat) :
    ival g w (max (ival g w a) (ival g w b) % 2 ^ w).toNat = max (ival g w a) (ival g w b) := by
  rw [max_def]
  split <;> rw [wrap_ival, ival_mod]
end

/-! ## Division (R128) -/

/-- The quotient, wrapped: R128's four cases. -/
theorem divRem_quotient (sat g : Bool) (w a b : Nat) : let x := ival g w a; let y := ival g w b
    ((divRem sat g w x y).1 % 2 ^ w).toNat =
      if y = 0 then ((if x < 0 then imin g w else imax g w) % 2 ^ w).toNat
      else if g = true ∧ x = imin g w ∧ y = -1 then ((if sat then imax g w else imin g w) % 2 ^ w).toNat
      else (x.tdiv y % 2 ^ w).toNat := by
  intro x y
  unfold divRem
  by_cases hy : y = 0
  · rw [if_pos hy, if_pos hy]
    cases hg : g
    · have hx : ¬ x < 0 := by
        subst hg
        exact not_lt.2 (ival_false_nonneg w a)
      simp [hx]
    · rfl
  · rw [if_neg hy, if_neg hy]
    simp only [Bool.and_eq_true, decide_eq_true_eq, and_assoc]
    split <;> rfl
/-- The remainder, wrapped. -/
theorem divRem_remainder (sat g : Bool) (w a b : Nat) : let x := ival g w a; let y := ival g w b
    ((divRem sat g w x y).2 % 2 ^ w).toNat =
      if y = 0 then a % 2 ^ w
      else if g = true ∧ x = imin g w ∧ y = -1 then 0
      else (x.tmod y % 2 ^ w).toNat := by
  intro x y
  unfold divRem
  by_cases hy : y = 0
  · rw [if_pos hy, if_pos hy]
    exact wrap_ival g w a
  · rw [if_neg hy, if_neg hy, Int.tmod_def, mul_comm]
    simp only [Bool.and_eq_true, decide_eq_true_eq, and_assoc]
    split <;> rfl

/-! ## The instructions (R127) -/

theorem arith1_eq (s : State) (f : FmtT) (op : Int → Int) : let w := dBits f.d
    arith1 s f op = aluT1 s f w fun p a => satOr p true w (op (ival true w a))
      (BitVec.ofInt w (op (ival true w a))).toNat := by
  simp only [← wrapSat_eq]
  rfl
theorem arith2_eq (s : State) (f : FmtT) (op : Int → Int → Int) : let w := dBits f.d; let g := fnSigned f.fn
    arith2 s f op = aluT2 s f w w fun p a b => satOr p g w (op (ival g w a) (ival g w b))
      (BitVec.ofInt w (op (ival g w a) (ival g w b))).toNat := by
  simp only [← wrapSat_eq]
  rfl
theorem arith3_eq (s : State) (f : FmtT) (op : Int → Int → Int → Int) : let w := dBits f.d; let g := fnSigned f.fn
    arith3 s f op = aluT3 s f w w w fun p a b c => satOr p g w (op (ival g w a) (ival g w b) (ival g w c))
      (BitVec.ofInt w (op (ival g w a) (ival g w b) (ival g w c))).toNat := by
  simp only [← wrapSat_eq]
  rfl
theorem exec_imulh (f : FmtT) (s : State) : let w := dBits f.d; let g := fnSigned f.fn
    exec (.imulh f) s = aluT2 s f w w fun _ a b => (ival g w a * ival g w b / 2 ^ w % 2 ^ w).toNat := by rfl
theorem exec_imin (f : FmtT) (s : State) : let w := dBits f.d; let g := fnSigned f.fn
    exec (.imin f) s = aluT2 s f w w fun _ a b => (min (ival g w a) (ival g w b) % 2 ^ w).toNat := by rfl
theorem exec_imax (f : FmtT) (s : State) : let w := dBits f.d; let g := fnSigned f.fn
    exec (.imax f) s = aluT2 s f w w fun _ a b => (max (ival g w a) (ival g w b) % 2 ^ w).toNat := by rfl
theorem exec_iclamp (f : FmtT) (s : State) : let w := dBits f.d; let g := fnSigned f.fn
    exec (.iclamp f) s = aluT3 s f w w w fun _ a b c =>
      (min (max (ival g w a) (ival g w b)) (ival g w c) % 2 ^ w).toNat := by rfl
theorem exec_imadw (f : FmtT) (s : State) : let g := fnSigned f.fn
    exec (.imadw f) s = aluT3 s f 32 32 64 fun p a b c =>
      wrapSat (pfxSat p) g 64 (ival g 32 a * ival g 32 b + ival g 64 c) := by rfl
theorem exec_iaddi (f : FmtRI) (s : State) : let w := dBits f.d; let g := fnSigned f.fn
    exec (.iaddi f) s = runAlu s f.m f.d (srcWords f.a) fun r l p =>
      wrapSat (pfxSat p) g w (ival g w (r.operand f.a l w) + ival g w (f.imm.signExtend w).toNat) := by rfl
theorem exec_idiv (f : FmtT) (s : State) : let w := dBits f.d; let g := fnSigned f.fn
    exec (.idiv f) s = aluT2 s f w w fun p a b =>
      ((divRem (pfxSat p) g w (ival g w a) (ival g w b)).1 % 2 ^ w).toNat := by rfl
theorem exec_irem (f : FmtT) (s : State) : let w := dBits f.d; let g := fnSigned f.fn
    exec (.irem f) s = aluT2 s f w w fun p a b =>
      ((divRem (pfxSat p) g w (ival g w a) (ival g w b)).2 % 2 ^ w).toNat := by rfl

/-- The width of LEA's operand A (R127). -/
def leaBits (f : FmtT) : Nat := if f.a.width = .pair then 64 else 32
theorem exec_lea (f : FmtT) (s : State) : exec (.lea f) s = aluT2 s f (leaBits f) 64 fun _ a b =>
    ((ival true (leaBits f) a * 2 ^ f.fn.toNat + (b : Int)) % 2 ^ 64).toNat := by
  obtain ⟨m, d, ⟨k, w, n⟩, b, c, fn⟩ := f
  cases w <;> rfl
theorem ofInt_lea (f : FmtT) (a b : Nat) : BitVec.ofInt 64 (ival true (leaBits f) a * 2 ^ f.fn.toNat + (b : Int)) =
    ((if f.a.width = .pair then BitVec.ofNat 64 a else (BitVec.ofNat 32 a).signExtend 64) <<< f.fn.toNat) +
      BitVec.ofNat 64 b := by
  have hext : BitVec.ofInt 64 (ival true (leaBits f) a) =
      if f.a.width = .pair then BitVec.ofNat 64 a else (BitVec.ofNat 32 a).signExtend 64 := by
    unfold leaBits
    split
    · exact ofInt_ival true 64 a
    · rw [ival_true]
      rfl
  have htwo : BitVec.ofInt 64 (2 ^ f.fn.toNat) = BitVec.twoPow 64 f.fn.toNat := by
    rw [← BitVec.toNat_inj, BitVec.toNat_ofInt, BitVec.toNat_twoPow]
    norm_cast
  rw [BitVec.ofInt_add, BitVec.ofInt_mul, hext, htwo, BitVec.shiftLeft_eq_mul_twoPow, BitVec.ofInt_natCast]

/-- Settles O9: each instruction is its operation on exact integers, clamped under SAT and otherwise the same operation of
bit vectors. -/
theorem integerArithmetic : Obligations.IntegerArithmetic := by
  unfold Obligations.IntegerArithmetic
  refine ⟨⟨fun f => ⟨?_, ?_, ?_, ?_, ?_, ?_, ?_, ?_, ?_, ?_, ?_, ?_⟩, fun f => ?_, fun f => ?_, fun f => ?_⟩,
    fun f => ⟨?_, ?_⟩⟩
  · refine computes2_of (fun s => arith2_eq s f (· + ·)) fun p a b => ?_
    simp only [BitVec.ofInt_add, ofInt_ival]
  · refine computes2_of (fun s => arith2_eq s f (· - ·)) fun p a b => ?_
    simp only [ofInt_sub, ofInt_ival]
  · refine computes2_of (fun s => arith2_eq s f (· * ·)) fun p a b => ?_
    simp only [BitVec.ofInt_mul, ofInt_ival]
  · refine computes3_of (fun s => arith3_eq s f (fun a b c => a * b + c)) fun p a b c => ?_
    simp only [BitVec.ofInt_add, BitVec.ofInt_mul, ofInt_ival]
  · refine computes3_of (fun s => arith3_eq s f (fun a b c => a + b + c)) fun p a b c => ?_
    simp only [BitVec.ofInt_add, ofInt_ival]
  · refine computes1_of (fun s => arith1_eq s f (fun a => -a)) fun p a => ?_
    simp only [BitVec.ofInt_neg, ofInt_ival]
  · refine computes1_of (fun s => arith1_eq s f (fun a => if a < 0 then -a else a)) fun p a => ?_
    simp only [ite_neg_eq_natAbs, BitVec.ofInt_natCast, BitVec.toNat_ofNat]
  · refine computes3_of (fun s => arith3_eq s f (fun a b c => (if a < b then b - a else a - b) + c)) fun p a b c => ?_
    simp only [ite_lt_sub_eq_natAbs, BitVec.ofInt_add, BitVec.ofInt_natCast, ofInt_ival]
  · refine computes2_of (exec_imulh f) fun p a b => ?_
    rw [shiftRight_eq_div]
  · exact computes2_of (exec_imin f) fun p a b => (if_le_ival_eq_min ..).symm
  · exact computes2_of (exec_imax f) fun p a b => (if_le_ival_eq_max ..).symm
  · refine computes3_of (exec_iclamp f) fun p a b c => ?_
    dsimp only
    rw [if_le_ival_eq_max, ival_max, min_def]
    split
    · rfl
    · exact wrap_ival ..
  · refine computes3_of (exec_imadw f) fun p a b c => ?_
    rw [wrapSat_eq, ← wrap_eq]
  · refine computes2_of (exec_lea f) fun p a b => ?_
    rw [wrap_eq, ofInt_lea]
  · have hrun : Computes (.iaddi f) f.m f.d (srcWords f.a) _ := runAlu_computes (exec_iaddi f) (ownWords_src _)
      fun r q l p h => by rw [operand_congr _ h]
    refine hrun.congr fun r l p => ?_
    rw [wrapSat_eq, BitVec.ofInt_add, ofInt_ival, ofInt_ival, BitVec.ofNat_toNat, BitVec.setWidth_eq]
  · exact computes2_of (exec_idiv f) fun p a b => divRem_quotient ..
  · exact computes2_of (exec_irem f) fun p a b => divRem_remainder ..

end Sys2Proof.Machine
end

-- The special functions (R112, R113, R150; log 7)
section
/-! The exact cases of the special functions, the enclosures of reciprocal and root, and the obligation on them. -/

namespace Sys2Proof.Machine

theorem special1_eq (s : State) (f : FmtT) (op : Nat → El → El) : special1 s f op = aluT1 s f 32 fun p a =>
    fround f32 .rne (pfxSat p) (pfxFtz p) (op (dazPat p a) (fread f32 false (dazPat p a))) := rfl
theorem special1_computes {i : Instr} {f : FmtT} {op : Nat → El → El} (he : ∀ s, exec i s = special1 s f op) :
    Computes1 i f 32 fun p a =>
      fround f32 .rne (pfxSat p) (pfxFtz p) (op (dazPat p a) (fread f32 false (dazPat p a))) :=
  computes1_of (fun s => (he s).trans (special1_eq s f op)) fun _ _ => rfl

/-! ## Exact cases (R113) -/

theorem exp2_int (x : Nat) (n : Int) (z : Bool) (hlo : -150 < n) (hhi : n < 128) :
    exp2 x (.fin ⟨n, 0⟩ z) = .fin ⟨1, n⟩ false := by
  simp [exp2, Dy.lt, Dy.at, Dy.int?, hlo, hhi]
theorem bitLen_two_pow (k : Nat) : bitLen (2 ^ k) = k + 1 := by
  rw [bitLen, if_neg (Nat.two_pow_pos k).ne', Nat.log2_two_pow]
theorem log2_two_pow (x k : Nat) (e : Int) : log2 x (.fin ⟨2 ^ k, e⟩ false) = El.ofDy ⟨e + k, 0⟩ false := by
  have hpos : (2 : Int) ^ k ≠ 0 := (pow_pos two_pos k).ne'
  simp [log2, hpos, Int.natAbs_pow, bitLen_two_pow]
theorem neg_m_ne_zero {d : Dy} (hd : 0 < d.m) : d.neg.m ≠ 0 := by
  simp only [Dy.neg]
  omega
theorem rsq_neg (x : Nat) {d : Dy} (hd : 0 < d.m) : rsq x (.fin d.neg true) = .nan := by
  simp only [rsq, neg_m_ne_zero hd, if_false, if_true]
theorem log2_neg (x : Nat) {d : Dy} (hd : 0 < d.m) : log2 x (.fin d.neg true) = .nan := by
  simp only [log2, neg_m_ne_zero hd, if_false, if_true]
theorem rcp_pos (x : Nat) {d : Dy} (hd : 0 < d.m) :
    rcp x (.fin d false) = boundedFree 0 x (inUlps 1 (rcpNear d)) (rcpNear d) := if_neg hd.ne'
theorem rsq_pos (x : Nat) {d : Dy} (hd : 0 < d.m) :
    rsq x (.fin d false) = boundedFree 1 x (inUlps 2 (rsqNear d)) (rsqNear d) := if_neg hd.ne'

/-! ## Enclosures of 1/x and 1/√x (R112) -/

section
variable {a e : Int} {k : Nat} (he : e = -k)
include he

/-- How a value a × 2^−k stands to 1. -/
theorem one_lt_dy : Dy.lt ⟨1, 0⟩ ⟨a, e⟩ = decide (2 ^ k < a) := by
  subst he
  simp [Dy.lt, Dy.at]
theorem dy_lt_one : Dy.lt ⟨a, e⟩ ⟨1, 0⟩ = decide (a < 2 ^ k) := by
  subst he
  simp [Dy.lt, Dy.at]
end

/-- The enclosure of 1/x for x = m × 2^e: two multiples of 2^(−129 − e). -/
theorem rcpNear_bounds {d : Dy} (hd : 0 < d.m) : ∃ lo hi : Int,
    rcpNear d = ⟨⟨lo, -129 - d.e⟩, ⟨hi, -129 - d.e⟩⟩ ∧ lo * d.m ≤ 2 ^ 129 ∧ 2 ^ 129 ≤ hi * d.m := by
  obtain ⟨m, e⟩ := d
  lift m to Nat using le_of_lt hd
  have hdiv : m * (2 ^ 128 / m) + 2 ^ 128 % m = 2 ^ 128 := Nat.div_add_mod _ _
  have hlt : 2 ^ 128 % m < m := Nat.mod_lt _ (Int.natCast_pos.1 hd)
  unfold rcpNear divDy
  dsimp only
  rw [Int.natAbs_natCast, Int.natAbs_one, one_mul, show 0 - e - 129 = -129 - e by omega]
  have hN : (2 : Int) ^ 129 = 2 * (2 ^ 128 : Nat) := by norm_num
  rw [hN]
  generalize 2 ^ 128 = N at *
  generalize N / m = q at *
  generalize N % m = r at *
  zify at hdiv hlt
  rcases Nat.eq_zero_or_pos r with rfl | hr
  · have hexact : (m : Int) * q = N := by simpa using hdiv
    exact ⟨2 * q, 2 * q, by simp, by linarith, by linarith⟩
  · exact ⟨2 * q, 2 * q + 2, by simp [hr.ne']; omega, by linarith, by linarith⟩

theorem isqrt_succ (k n : Nat) : isqrt (k + 1) n =
    if (2 * isqrt k (n / 4) + 1) * (2 * isqrt k (n / 4) + 1) ≤ n then 2 * isqrt k (n / 4) + 1
    else 2 * isqrt k (n / 4) := rfl
theorem isqrt_sq_le (k n : Nat) : isqrt k n * isqrt k n ≤ n := by
  induction k generalizing n with
  | zero => exact Nat.zero_le n
  | succ k ih =>
    rw [isqrt_succ]
    split
    · assumption
    · have hq := ih (n / 4)
      generalize isqrt k (n / 4) = q at *
      calc 2 * q * (2 * q) = 4 * (q * q) := by ring
        _ ≤ n := by omega
theorem lt_isqrt_succ_sq {k n : Nat} (h : n < 4 ^ k) : n < (isqrt k n + 1) * (isqrt k n + 1) := by
  induction k generalizing n with
  | zero => exact h
  | succ k ih =>
    have hq := ih (n := n / 4) (by rw [pow_succ] at h; omega)
    rw [isqrt_succ]
    generalize isqrt k (n / 4) = q at *
    split
    · calc n < 4 * ((q + 1) * (q + 1)) := by omega
        _ = (2 * q + 1 + 1) * (2 * q + 1 + 1) := by ring
    · omega
theorem four_pow (k : Nat) : 4 ^ k = 2 ^ k * 2 ^ k := mul_pow 2 2 k
theorem isqrt_four_pow (k : Nat) : isqrt k (4 ^ k) + 1 = 2 ^ k := by
  induction k with
  | zero => rfl
  | succ k ih =>
    have hfour : 4 ^ k = (isqrt k (4 ^ k) + 1) * (isqrt k (4 ^ k) + 1) := by rw [ih, four_pow]
    rw [isqrt_succ, pow_succ, Nat.mul_div_cancel _ (by decide), pow_succ, ← ih, if_pos]
    · ring
    · linarith
/-- The root of 4^k / m, cut off. -/
theorem isqrt_div_bounds (k : Nat) {m : Nat} (hm : 0 < m) :
    isqrt k (4 ^ k / m) * isqrt k (4 ^ k / m) * m ≤ 4 ^ k ∧
      4 ^ k ≤ (isqrt k (4 ^ k / m) + 1) * (isqrt k (4 ^ k / m) + 1) * m := by
  refine ⟨(Nat.le_div_iff_mul_le hm).1 (isqrt_sq_le ..), ?_⟩
  rcases Nat.lt_or_ge 1 m with h | h
  · exact ((Nat.div_lt_iff_lt_mul hm).1 (lt_isqrt_succ_sq (Nat.div_lt_self (by positivity) h))).le
  · obtain rfl : m = 1 := by omega
    rw [Nat.div_one, isqrt_four_pow, mul_one, four_pow]

/-- The enclosure of 1/√x for x = m × 2^e. -/
theorem rsqNear_bounds {d : Dy} (hd : 0 < d.m) : ∃ (lo hi e : Int) (k : Nat),
    rsqNear d = ⟨⟨lo, e⟩, ⟨hi, e⟩⟩ ∧ e + e + d.e = -k ∧ lo * lo * d.m ≤ 2 ^ k ∧ 2 ^ k ≤ hi * hi * d.m := by
  obtain ⟨m, e⟩ := d
  lift m to Nat using le_of_lt hd
  obtain ⟨o, ho⟩ : ∃ o : Nat, e % 2 = o := ⟨(e % 2).toNat, by omega⟩
  have ho1 : o ≤ 1 := by omega
  have hpow : 2 ^ (192 - o) * 2 ^ o = 4 ^ 96 := by
    rw [← pow_add, Nat.sub_add_cancel (by omega)]
    norm_num
  obtain ⟨hlo, hhi⟩ := isqrt_div_bounds 96 (m := m * 2 ^ o) (Nat.mul_pos (Int.natCast_pos.1 hd) (Nat.two_pow_pos o))
  unfold rsqNear
  dsimp only
  rw [Int.natAbs_natCast, ho, Int.toNat_natCast]
  generalize isqrt 96 (4 ^ 96 / (m * 2 ^ o)) = r at *
  have hscale (x : Nat) : x * (m * 2 ^ o) = x * m * 2 ^ o := (mul_assoc ..).symm
  rw [hscale, ← hpow] at hlo hhi ⊢
  refine ⟨_, _, _, 192 - o, rfl, by omega, ?_, ?_⟩
  · exact_mod_cast Nat.le_of_mul_le_mul_right hlo (Nat.two_pow_pos o)
  · split
    · next h => exact_mod_cast (Nat.eq_of_mul_eq_mul_right (Nat.two_pow_pos o) h).ge
    · exact_mod_cast Nat.le_of_mul_le_mul_right hhi (Nat.two_pow_pos o)

/-- A free result keeps its bound, or is the value nearest the enclosure. -/
theorem boundedFree_ok {code x : Nat} {ok : Dy → Bool} {near : Near} {v : Dy} {n : Bool}
    (h : boundedFree code x ok near = .fin v n) :
    ok v = true ∨ .fin v n = fread f32 false (rne32 (El.ofDy near.lo false)).toNat := by
  simp only [boundedFree] at h
  split at h
  · split at h
    · cases h
      exact .inl ‹_›
    · exact .inr h.symm
  · exact .inr h.symm

/-- Settles O13: the exact cases are branches of the functions' definitions, and the enclosures are those of the quotient and
the root that they cut off. -/
theorem specialFunctions : Obligations.SpecialFunctions := by
  unfold Obligations.SpecialFunctions
  refine ⟨fun f => ⟨special1_computes fun _ => rfl, special1_computes fun _ => rfl, special1_computes fun _ => rfl,
      special1_computes fun _ => rfl, special1_computes fun _ => rfl, special1_computes fun _ => rfl,
      special1_computes fun _ => rfl⟩,
    fun x => ⟨rfl, rfl, rfl, rfl, rfl, rfl, rfl⟩,
    fun x n => ⟨rfl, rfl, rfl, rfl, rfl, rfl, rfl, rfl, rfl, rfl, rfl, rfl, rfl⟩,
    fun x d hd => ⟨rsq_neg x hd, log2_neg x hd⟩, exp2_int, log2_two_pow,
    fun x d hd => ⟨rcp_pos x hd, rsq_pos x hd, ?_⟩, fun code x ok near v n => boundedFree_ok⟩
  obtain ⟨lo, hi, hrcp, hlo, hhi⟩ := rcpNear_bounds hd
  obtain ⟨lo', hi', e, k, hrsq, he, hlo', hhi'⟩ := rsqNear_bounds hd
  rw [hrcp, hrsq]
  have hexp : -129 - d.e + d.e = -(129 : Nat) := by omega
  simp only [Dy.mul, one_lt_dy hexp, dy_lt_one hexp, one_lt_dy he, dy_lt_one he, decide_eq_false_iff_not, not_lt]
  exact ⟨hlo, hhi, hlo', hhi'⟩

end Sys2Proof.Machine
end

-- Rounding to an integer, and conversions (R98, R100, R138)
section
/-! What a value of a float format rounds to in each mode, and what a conversion answers for each kind of types. -/

namespace Sys2Proof.Machine

/-! ## Rounding to an integer (R98) -/

/-- Whether the magnitude q + r / 2h is rounded up (R98). -/
def roundsUp (rnd : Rnd) (neg : Bool) (h q r : Nat) : Bool :=
  match rnd with
  | .rne => decide (h < r) || (r == h && q % 2 == 1)
  | .rtz => false
  | .up => r != 0 && !neg
  | .down => r != 0 && neg
  | .away => decide (h ≤ r)

theorem roundShift_of_nonneg (rnd : Rnd) (neg : Bool) (m : Nat) {e : Int} (he : 0 ≤ e) :
    roundShift rnd neg m e = m * 2 ^ e.toNat := if_pos he
theorem roundShift_of_neg (rnd : Rnd) (neg : Bool) (m n : Nat) :
    roundShift rnd neg m (-(n + 1 : Nat)) =
      if roundsUp rnd neg (2 ^ n) (m / 2 ^ (n + 1)) (m % 2 ^ (n + 1)) then m / 2 ^ (n + 1) + 1 else m / 2 ^ (n + 1) := by
  rw [roundShift, if_neg (by omega)]
  simp only [neg_neg, Int.toNat_natCast, Nat.add_sub_cancel]
  cases rnd <;> rfl

theorem roundsTo_self (rnd : Rnd) (m : Int) : RoundsTo rnd m 1 m := by
  cases rnd <;> simp [RoundsTo, mul_self_nonneg]
/-- The mode that rounds −x to −r where a mode rounds x to r. -/
def mirror : Rnd → Rnd
  | .up => .down
  | .down => .up
  | rnd => rnd
theorem roundsTo_neg {rnd : Rnd} {m r : Int} {k : Nat} (h : RoundsTo (mirror rnd) m k r) : RoundsTo rnd (-m) k (-r) := by
  have hrest : -m - -r * k = -(m - r * k) := by ring
  cases rnd with
  | rne =>
    simp only [mirror, RoundsTo] at *
    rw [hrest, Int.natAbs_neg]
    exact ⟨h.1, fun htie => by have := h.2 htie; omega⟩
  | rtz => simpa [mirror, RoundsTo] using h
  | up =>
    simp only [mirror, RoundsTo, neg_mul, sub_mul, add_mul] at *
    omega
  | down =>
    simp only [mirror, RoundsTo, neg_mul, sub_mul, add_mul] at *
    omega
  | away =>
    simp only [mirror, RoundsTo] at *
    rw [hrest, Int.natAbs_neg, Int.natAbs_neg, Int.natAbs_neg]
    exact h

section
variable {rnd : Rnd} {h q r : Nat} (hr : r < 2 * h)
include hr

theorem roundsTo_floor (hup : roundsUp rnd false h q r = false) : RoundsTo rnd (q * (2 * h) + r : Nat) (2 * h) q := by
  have hrest : ((q * (2 * h) + r : Nat) : Int) - q * (2 * h : Nat) = r := by push_cast; ring
  cases rnd <;> simp only [RoundsTo, hrest, add_mul, sub_mul, Int.natAbs_natCast] <;> simp [roundsUp] at hup
  case rtz => exact ⟨by omega, by omega, by positivity⟩
  all_goals omega
theorem roundsTo_ceil (hup : roundsUp rnd false h q r = true) :
    RoundsTo rnd (q * (2 * h) + r : Nat) (2 * h) (q + 1 : Nat) := by
  have hrest : ((q * (2 * h) + r : Nat) : Int) - (q + 1 : Nat) * (2 * h : Nat) = r - 2 * h := by push_cast; ring
  cases rnd <;> simp only [RoundsTo, hrest, add_mul, sub_mul, Int.natAbs_natCast] <;> simp [roundsUp] at hup
  all_goals omega
end

theorem roundShift_mirror (rnd : Rnd) (m : Nat) (e : Int) :
    roundShift rnd true m e = roundShift (mirror rnd) false m e := by
  cases rnd <;> simp [roundShift, mirror]
theorem roundsTo_roundShift (rnd : Rnd) (m : Nat) (e : Int) :
    RoundsTo rnd (m * 2 ^ e.toNat) (2 ^ (-e).toNat) (roundShift rnd false m e : Nat) := by
  rcases lt_or_ge e 0 with he | he
  · obtain ⟨n, rfl⟩ : ∃ n : Nat, e = -(n + 1 : Nat) := ⟨(-e - 1).toNat, by omega⟩
    have hrest : m % (2 * 2 ^ n) < 2 * 2 ^ n := Nat.mod_lt _ (by positivity)
    have hm : m / (2 * 2 ^ n) * (2 * 2 ^ n) + m % (2 * 2 ^ n) = m := Nat.div_add_mod' ..
    rw [roundShift_of_neg, show (-((n + 1 : Nat) : Int)).toNat = 0 by omega, pow_zero, mul_one, neg_neg,
      Int.toNat_natCast, pow_succ' 2 n]
    generalize m / (2 * 2 ^ n) = q at *
    generalize m % (2 * 2 ^ n) = r at *
    subst hm
    split
    · next hup => exact roundsTo_ceil hrest hup
    · next hup => exact roundsTo_floor hrest (Bool.eq_false_of_not_eq_true hup)
  · rw [roundShift_of_nonneg _ _ _ he, show (-e).toNat = 0 by omega]
    exact_mod_cast roundsTo_self rnd _
/-- A value of either sign, rounded to an integer. -/
theorem roundsTo_fin (rnd : Rnd) {d : Dy} {n : Bool} (hn : if n then d.m ≤ 0 else 0 ≤ d.m) :
    RoundsTo rnd (d.m * 2 ^ d.e.toNat) (2 ^ (-d.e).toNat)
      (if n then -(roundShift rnd n d.m.natAbs d.e : Int) else roundShift rnd n d.m.natAbs d.e) := by
  cases n with
  | false =>
    have h := roundsTo_roundShift rnd d.m.natAbs d.e
    rwa [Int.natAbs_of_nonneg hn] at h
  | true =>
    have h := roundsTo_neg (roundsTo_roundShift (mirror rnd) d.m.natAbs d.e)
    rw [← roundShift_mirror, Int.ofNat_natAbs_of_nonpos hn, neg_mul, neg_neg] at h
    exact h
theorem ite_neg_mul (neg : Prop) [Decidable neg] (k : Nat) :
    if decide neg then (if neg then -1 else 1) * (k : Int) ≤ 0 else 0 ≤ (if neg then -1 else 1) * (k : Int) := by
  split <;> simp_all
/-- The sign of a value that a pattern holds. -/
theorem fread_sign {f : FFmt} {x : Nat} {d : Dy} {n : Bool} (h : fread f false x = .fin d n) :
    if n then d.m ≤ 0 else 0 ≤ d.m := by
  simp only [fread] at h
  split at h
  · cases h
  · split at h
    · split at h <;> cases h
    · split at h
      · rw [if_neg Bool.false_ne_true] at h
        cases h
        exact ite_neg_mul ..
      · cases h
        exact ite_neg_mul ..

/-! ## Conversions (R100, R138) -/

theorem ival_mem_range (g : Bool) (w x : Nat) : imin g w ≤ ival g w x ∧ ival g w x ≤ imax g w := by
  cases g with
  | false =>
    have hlt : ((x % 2 ^ w : Nat) : Int) < 2 ^ w := by exact_mod_cast Nat.mod_lt x (Nat.two_pow_pos w)
    exact ⟨ival_false_nonneg w x, Int.le_sub_one_of_lt hlt⟩
  | true =>
    rw [ival_true]
    exact ⟨BitVec.le_toInt _, BitVec.toInt_le⟩
theorem clamp_mem_range (g : Bool) (w : Nat) (r : Int) :
    imin g w ≤ max (imin g w) (min r (imax g w)) ∧ max (imin g w) (min r (imax g w)) ≤ imax g w := by
  obtain ⟨hlo, hhi⟩ := ival_mem_range g w 0
  exact ⟨le_max_left .., max_le (hlo.trans hhi) (min_le_right ..)⟩
theorem ival_emod (g : Bool) (w x : Nat) : ival g w x % 2 ^ w = x % 2 ^ w := by
  have h := congrArg (Nat.cast (R := Int)) (wrap_ival g w x)
  rw [Int.toNat_of_nonneg (Int.emod_nonneg _ (by positivity))] at h
  exact_mod_cast h

/-- A number's low bits, read under a type, differ from it by a multiple of 2^w. -/
theorem ival_wrap_sub_emod (g : Bool) (w : Nat) (v : Int) : (ival g w (v % 2 ^ w).toNat - v) % 2 ^ w = 0 := by
  rw [← Int.emod_eq_emod_iff_emod_sub_eq_zero, ival_emod, Int.toNat_of_nonneg (Int.emod_nonneg _ (by positivity)),
    Int.emod_emod_of_dvd _ (dvd_refl _)]

theorem zero_mem_range (g : Bool) (w : Nat) : imin g w ≤ 0 ∧ 0 ≤ imax g w := by
  have hzero : ival g w 0 = 0 := by cases g <;> simp [ival, sgn]
  exact hzero ▸ ival_mem_range g w 0
theorem floatToInt_mem_range (t : Ty) (rnd : Rnd) (e : El) : imin (Ty.signed t) (Ty.bitsOf t) ≤ floatToInt t rnd e ∧
    floatToInt t rnd e ≤ imax (Ty.signed t) (Ty.bitsOf t) := by
  obtain ⟨hlo, hhi⟩ := zero_mem_range (Ty.signed t) (Ty.bitsOf t)
  cases e with
  | nan => exact ⟨hlo, hhi⟩
  | inf neg =>
    cases neg
    · exact ⟨hlo.trans hhi, le_refl _⟩
    · exact ⟨le_refl _, hlo.trans hhi⟩
  | fin d n => exact clamp_mem_range ..

/-- The bits of an integer result: those of a 64-bit or of a 32-bit register value (R138). -/
def wideBits (t : Ty) (n : Int) : Nat := (n % 2 ^ (if Ty.bitsOf t = 64 then 64 else 32)).toNat
section
variable {dt st : Ty} (rnd : Rnd) (sat : Bool) (x : Nat)

theorem convert_of_float (hd : Ty.isInt dt = true) (hs : Ty.isInt st = false) : convert dt st rnd sat x =
    wideBits dt (floatToInt dt rnd (fread (Ty.fmt st) false (x % 2 ^ Ty.bitsOf st))) := by
  simp only [convert, hd, hs, if_true, Bool.false_eq_true, if_false]
  rfl
/-- An integer is converted by its low bits, or under SAT to the nearest value of a type that is not wider. -/
theorem convert_of_int (hd : Ty.isInt dt = true) (hs : Ty.isInt st = true) :
    let w := Ty.bitsOf dt; let lo := imin (Ty.signed dt) w; let hi := imax (Ty.signed dt) w
    let v := tyVal st (x % 2 ^ Ty.bitsOf st)
    ∃ n : Int, lo ≤ n ∧ n ≤ hi ∧ convert dt st rnd sat x = wideBits dt n ∧
      if sat = true ∧ w ≤ Ty.bitsOf st then n = max lo (min v hi) else (n - v) % 2 ^ w = 0 := by
  intro w lo hi v
  have hrun : convert dt st rnd sat x =
      if sat = true ∧ w ≤ Ty.bitsOf st then wideBits dt (max lo (min v hi))
      else wideBits dt (tyVal dt (v % 2 ^ w).toNat) := by
    simp only [convert, hd, hs, if_true, Bool.and_eq_true, decide_eq_true_eq]
    rfl
  rw [hrun]
  by_cases hsat : sat = true ∧ w ≤ Ty.bitsOf st
  · simp only [if_pos hsat]
    obtain ⟨hlo, hhi⟩ := clamp_mem_range (Ty.signed dt) w v
    exact ⟨_, hlo, hhi, rfl, rfl⟩
  · simp only [if_neg hsat]
    obtain ⟨hlo, hhi⟩ := ival_mem_range (Ty.signed dt) w (v % 2 ^ w).toNat
    exact ⟨_, hlo, hhi, rfl, ival_wrap_sub_emod ..⟩
theorem convert_to_float (hd : Ty.isInt dt = false) : convert dt st rnd sat x = fround (Ty.fmt dt) rnd sat false
    (if Ty.isInt st then .fin ⟨tyVal st (x % 2 ^ Ty.bitsOf st), 0⟩ (decide (tyVal st (x % 2 ^ Ty.bitsOf st) < 0))
      else fread (Ty.fmt st) false (x % 2 ^ Ty.bitsOf st)) := by
  cases hs : Ty.isInt st <;> simp [convert, hd, hs]
end

end Sys2Proof.Machine
end

-- Moves, special registers, packing and selection (R115, R116, R132, R133, R138 to R140)
section
/-! Instructions whose lanes know the state that they started in, the values of packings and special registers; and the
obligation on moves and conversions. -/

namespace Sys2Proof.Machine

/-! ## Packing and special registers (R115, R139, R140) -/

/-- The values of FN that PACK and SPREAD tell apart (R139, R140). -/
theorem fn_cases (x : BitVec 3) : x = 0 ∨ x = 1 ∨ (x ≠ 0 ∧ x ≠ 1 ∧ ∃ n, x.toNat = n + 2) := by
  by_cases h0 : x = 0
  · exact .inl h0
  · by_cases h1 : x = 1
    · exact .inr (.inl h1)
    · refine .inr (.inr ⟨h0, h1, x.toNat - 2, ?_⟩)
      bv_omega

theorem exec_mov (f : FmtT) (s : State) : exec (.mov f) s = aluT1 s f (dBits f.d) fun _ a => a := by rfl
theorem exec_pack (f : FmtT) (s : State) : exec (.pack f) s = aluT2 s f 32 32 fun _ a b =>
    match f.fn.toNat with
    | 0 => half b 0 * 2 ^ 16 + half a 0
    | 1 => half b 1 * 2 ^ 16 + half a 1
    | _ => half b 1 * 2 ^ 16 + half a 0 := by rfl
theorem exec_spread (f : FmtT) (s : State) : exec (.spread f) s = runAlu s f.m f.d (srcWords f.a) fun r i _ =>
    match f.fn.toNat with
    | 0 => fld (r.operand f.a i 32) i 1
    | 1 => fld (r.operand f.a i 32) (8 * i) 8
    | _ => (sgn (fld (r.operand f.a i 32) (8 * i) 8) 8 % 2 ^ 32).toNat := by rfl
theorem half_zero (x : Nat) : half x 0 = x % 2 ^ 16 := by simp [half, fld]
theorem half_one (x : Nat) : half x 1 = x / 2 ^ 16 % 2 ^ 16 := rfl

theorem sgn_byte (x : Nat) (hx : x < 256) : (sgn x 8 % 2 ^ 32).toNat = if x < 128 then x else 2 ^ 32 - 256 + x := by
  simp only [sgn]
  split <;> split <;> omega
theorem pkg_toNat (s : State) : s.pkg.toNat = if s.enum.pkgValid then s.enum.pkgid.toNat else 0 := by
  unfold State.pkg
  split <;> rfl

/-! ## Lanes that know their state (R26, R133) -/

theorem mem_backWords {m : Mods} {d : Dst} {l : Nat} {p : Bank × Nat} : p ∈ backWords m d l ↔
    (m.nwb = false ∧ p ∈ dstWords d l) ∨ (m.lc = true ∧ p = (.l, vkey m.ln.toNat l)) := by
  cases hn : m.nwb <;> cases hl : m.lc <;> simp [backWords, hn, hl]

/-- The end of an instruction that leaves the registers `r`. -/
theorem regDone_regs {s : State} {c : Ctx} (h : s.ctx = some c) (r : RegFile) (sp : Bool) (n : Nat) :
    OnlyRegisters s (s.regDone c r none 0 sp n) c ∧ MasksKept (s.regDone c r none 0 sp n) c ∧
      ∀ b k, b ≠ .l → ((s.regDone c r none 0 sp n).regsOf c.g c.t).get b k = r.get b k := by
  obtain ⟨honly, ⟨x, hx, hk, hv, hs⟩, -⟩ := regDone_ok h r c.grp rfl 0 sp n
  exact ⟨honly, ⟨x, hx, hk⟩, fun b k hb => regsOf_done hx hv hs hb k⟩

/-- What a per-lane instruction leaves whose lanes may know the state that it started in (R26, R30, R58). -/
theorem runLanes_spec {s : State} {c : Ctx} (h : s.ctx = some c) (m : Mods) {d : Dst} (hd : d.isS = false)
    {reads : Nat → List (Bank × Nat)} (ho : OwnWords reads) (x : RegFile → Nat → Nat)
    (hx : ∀ r q i, (∀ p ∈ reads i, (r.get p.1 p.2).val = (q.get p.1 p.2).val) → x r i = x q i)
    (hr : ∀ l ∈ c.lanes, Readable c.regs (reads l)) :
    let t := runLanes s c m (some d) reads fun r i => r.writeBack m d i (x r i)
    OnlyRegisters s t c ∧ MasksKept t c ∧
      (m.nwb = false → ∀ l ∈ c.lanes, (t.regsOf c.g c.t).value (dstWords d l) =
        x c.regs l % 2 ^ (32 * Width.count d.width)) ∧
      RegsKept t c fun w => m.nwb = false ∧ ∃ l ∈ c.lanes ++ c.zeroLanes, w ∈ dstWords d l := by
  intro t
  have hlocal := laneLocal_back (ls := c.visited) (fun i hi => lt_of_mem_lanesOf (List.mem_filter.1 hi).1) m hd ho
    (fun i => c.zeroMask.getLsbD i) x hx
  have hread : ∀ i ∈ c.visited, Readable c.regs (if c.zeroMask.getLsbD i then [] else reads i) := by
    intro i hi
    cases hz : c.zeroMask.getLsbD i
    · exact hr i (mem_lanes.2 ⟨hi, hz⟩)
    · exact readable_nil
  obtain ⟨hbad, hval, hkeep⟩ := laneLoop_spec hlocal ((lanesOf_nodup _).filter _) c.regs hread
  generalize hloop : laneLoop _ _ c.visited c.regs = R at hbad hval hkeep
  obtain ⟨r, bad⟩ := R
  dsimp only at hbad hval hkeep
  have ht : t = s.regDone c r none 0 m.sp (laneSteps c.visited.length) := by
    show runLanes .. = _
    rw [runLanes_eq, hloop, hbad]
    rfl
  obtain ⟨honly, hmasks, hget⟩ := regDone_regs h r m.sp (laneSteps c.visited.length)
  rw [← ht] at honly hmasks hget
  refine ⟨honly, hmasks, fun hn l hl => ?_, fun b k hb hw => ?_⟩
  · obtain ⟨hvis, hz⟩ := mem_lanes.1 hl
    rw [← writeBack_value c.regs m d l _ hn]
    refine value_congr fun p hp => ?_
    rw [hget _ _ (not_latch_of_mem hp), hval l hvis p (mem_backWords.2 (.inl ⟨hn, hp⟩)), hz]
    rfl
  · rw [hget b k hb]
    refine hkeep (b, k) fun l hvis hp => ?_
    rcases mem_backWords.1 hp with ⟨hn, hp⟩ | ⟨-, hp⟩
    · refine hw ⟨hn, l, List.mem_append.2 ?_, hp⟩
      cases hz : c.zeroMask.getLsbD l
      · exact .inl (mem_lanes.2 ⟨hvis, hz⟩)
      · exact .inr (mem_zeroLanes.2 ⟨hvis, hz⟩)
    · exact hb (congrArg Prod.fst hp)
/-- A uniform instruction that reads nothing. -/
theorem runUniform_spec {s : State} {c : Ctx} (h : s.ctx = some c) (hcur : c.run.cursor ≠ some 32) (m : Mods) (d : Dst)
    (x : Nat) : let t := runUniform s c m.sp [] fun r => r.writeBack m d 0 x
    OnlyRegisters s t c ∧ MasksKept t c ∧
      (m.nwb = false → (t.regsOf c.g c.t).value (dstWords d 0) = x % 2 ^ (32 * Width.count d.width)) ∧
      RegsKept t c fun w => m.nwb = false ∧ w ∈ dstWords d 0 := by
  intro t
  have ht : t = s.regDone c (c.regs.writeBack m d 0 x) none 0 m.sp 1 := if_neg hcur
  obtain ⟨honly, hmasks, hget⟩ := regDone_regs h (c.regs.writeBack m d 0 x) m.sp 1
  rw [← ht] at honly hmasks hget
  refine ⟨honly, hmasks, fun hn => ?_, fun b k hb hw => ?_⟩
  · rw [← writeBack_value c.regs m d 0 x hn]
    exact value_congr fun p hp => by rw [hget _ _ (not_latch_of_mem hp)]
  · rw [hget b k hb]
    refine congrArg RegWord.val (writeBack_get_ne c.regs m d 0 x (p := (b, k)) fun hp => ?_)
    rcases mem_backWords.1 hp with hp | ⟨-, hp⟩
    · exact hw hp
    · exact hb (congrArg Prod.fst hp)

section
variable {s : State} {c : Ctx} (h : s.ctx = some c)
include h

theorem exec_movs (m : Mods) (d : Dst) (sel : BitVec 5) : exec (.movs m d sel) s =
    if m.uni then .next (runUniform s c m.sp [] fun r => r.writeBack m d 0 (specialReg s c sel.toNat 0))
    else .next (runLanes s c m (some d) (fun _ => []) fun r i => r.writeBack m d i (specialReg s c sel.toNat i)) := by
  show execMovs m d sel s = _
  rw [execMovs, onTrack, h]
theorem exec_isel (f : FmtT) : exec (.isel f) s = .next
    (runLanes s c f.m (some f.d) (fun i => srcWords f.a i ++ srcWords f.b i) fun r i => r.writeBack f.m f.d i
      (if (c.k f.fn.toNat).getLsbD i then r.operand f.a i (dBits f.d) else r.operand f.b i (dBits f.d))) := by
  show execIsel f s = _
  rw [execIsel, onTrack, h]
end

/-- Settles O14: what goes through `runAlu` by its equation, a conversion by its kinds of type, MOVS and ISEL as lanes that
know their state. -/
theorem movesAndConversions : Obligations.MovesAndConversions := by
  unfold Obligations.MovesAndConversions
  refine ⟨fun f => ?_, fun f => ?_, fun f => ?_, fun f => ?_, fun dt st rnd sat x => ⟨fun hd => ?_, fun hd => ?_⟩,
    fun f => ?_, fun f => ?_, fun m d sel s c h hd => ⟨fun hu => ?_, fun hu hcur => ?_⟩, fun s c l => ?_,
    fun f s c h hd hr => ?_⟩
  · exact computes1_of (exec_mov f) fun _ _ => rfl
  · exact runAlu_computes (fun _ => rfl) ownWords_nil fun _ _ _ _ _ => rfl
  · exact runAlu_computes (fun _ => rfl) ownWords_nil fun _ _ _ _ _ => rfl
  · exact runAlu_computes (fun _ => rfl) (ownWords_src _) fun _ _ _ _ h => by rw [operand_congr _ h]
  · cases hs : Ty.isInt st with
    | true =>
      obtain ⟨n, hlo, hhi, hrun, hval⟩ := convert_of_int rnd sat x hd hs
      exact ⟨n, hlo, hhi, hrun, fun _ => hval, fun h => absurd h Bool.noConfusion⟩
    | false =>
      obtain ⟨hlo, hhi⟩ := floatToInt_mem_range dt rnd (fread (Ty.fmt st) false (x % 2 ^ Ty.bitsOf st))
      refine ⟨_, hlo, hhi, convert_of_float rnd sat x hd hs, fun h => absurd h Bool.noConfusion, fun _ => ?_⟩
      split
      · next he => rw [he]; rfl
      · next he => rw [he]; rfl
      · next he =>
        rw [he]
        exact ⟨_, rfl, roundsTo_fin rnd (fread_sign he)⟩
  · exact convert_to_float rnd sat x hd
  · refine computes2_of (exec_pack f) fun p a b => ?_
    rw [← half_zero, ← half_zero, ← half_one, ← half_one]
    rcases fn_cases f.fn with h | h | ⟨h0, h1, n, hn⟩
    · rw [h]
      rfl
    · rw [h]
      rfl
    · rw [if_neg h0, if_neg h1, hn]
      rfl
  · have hrun : Computes (.spread f) f.m f.d (srcWords f.a) _ := runAlu_computes (exec_spread f) (ownWords_src _)
      fun r q l p h => by rw [operand_congr _ h]
    refine hrun.congr fun r l p => ?_
    rcases fn_cases f.fn with h | h | ⟨h0, h1, n, hn⟩
    · rw [h]
      rfl
    · rw [h]
      rfl
    · rw [if_neg h0, if_neg h1, hn]
      exact sgn_byte _ (Nat.mod_lt _ (by decide))
  · rw [exec_movs h, if_neg (by simp [hu])]
    exact ⟨_, rfl, runLanes_spec h m (hd.trans hu) ownWords_nil _ (fun _ _ _ _ => rfl)
      fun _ _ => readable_nil⟩
  · rw [exec_movs h, if_pos hu]
    exact ⟨_, rfl, runUniform_spec h hcur m d _⟩
  · exact ⟨rfl, rfl, rfl, rfl, rfl, rfl, rfl, rfl, rfl, rfl, rfl, rfl, rfl, pkg_toNat s, rfl, rfl, rfl⟩
  · refine ⟨_, exec_isel h f, runLanes_spec h f.m hd (ownWords_append (ownWords_src _) (ownWords_src _)) _
      (fun r q i hq => ?_) hr⟩
    obtain ⟨ha, hb⟩ := List.forall_mem_append.1 hq
    rw [operand_congr _ ha, operand_congr _ hb]

end Sys2Proof.Machine
end

-- Transfers of a whole fragment (R163, R171)
section
/-! What the checks of arrival leave of the split table, and a transfer of the whole fragment. -/

namespace Sys2Proof.Machine

/-! ## Arrival (R171) -/

/-- A fragment without what a check of arrival decides. -/
def Frag.unjudged (f : Frag) : Frag := { f with state := .ready, fresh := false }
/-- From the first group to the second, checks of arrival at most have changed entries of the split table. -/
structure Judges (x y : Group) : Prop where
  rest : y = { x with split := y.split }
  entry : ∀ e, (find e y.split).map Frag.unjudged = (find e x.split).map Frag.unjudged

theorem Judges.refl (x : Group) : Judges x x := ⟨rfl, fun _ => rfl⟩
theorem Judges.trans {x y z : Group} (h : Judges x y) (h' : Judges y z) : Judges x z :=
  ⟨h'.rest.trans (by rw [h.rest]), fun e => (h'.entry e).trans (h.entry e)⟩
theorem judges_checkJoin (x : Group) (e : Nat) : Judges x (checkJoin x e) := by
  unfold checkJoin
  split
  · exact .refl x
  · next f hf =>
    split
    · exact .refl x
    · split
      · exact .refl x
      · refine ⟨rfl, fun e' => ?_⟩
        by_cases he : e' = e
        · subst he
          rw [Group.setFrag, find_ins_self, hf]
          rfl
        · rw [Group.setFrag, find_ins_ne he]
theorem judges_checkAll (x : Group) : Judges x (checkAll x) :=
  List.foldlRecOn x.split _ (motive := Judges x) (.refl x) fun _ h _ _ => h.trans (judges_checkJoin ..)
/-- What a check of arrival does not decide of an entry stays. -/
theorem Judges.map_eq {x y : Group} (h : Judges x y) {α : Type} {f : Frag → α} (hf : ∀ a, f a.unjudged = f a) (e : Nat) :
    (find e y.split).map f = (find e x.split).map f := by
  have hcomp : f ∘ Frag.unjudged = f := funext hf
  rw [← hcomp, ← Option.map_map, h.entry, Option.map_map]

/-! ## Transfers (R27, R163) -/

theorem jump_only (s : State) (c : Ctx) (sp : Bool) (pc : VAddr) (f : Frag → Frag) (n : Nat) :
    Only s (s.jump c sp pc f n) := ⟨rfl, fun _ => rfl⟩
/-- A transfer of the whole fragment, which keeps its lanes. -/
theorem jump_transfersTo (s : State) {c : Ctx} (sp : Bool) (pc : VAddr) {f : Frag → Frag}
    (hmask : (f c.frag).mask = c.frag.mask) (n : Nat) :
    TransfersTo s (s.jump c sp pc f n) c pc (f c.frag).rcv (f c.frag).depth := by
  obtain ⟨hgrp, hentries, f1, hfind, hmask1, hrcv, hdepth, -, hpc, hword⟩ :=
    endClause_spec c (c.withFrag f) sp pc (find_ins_self c.run.entry (f c.frag) c.grp.split)
  have hjudge := judges_checkAll (endClause c (c.withFrag f) sp pc)
  have hkey := hjudge.map_eq (f := fun f => (f.pc, f.word, f.mask, f.rcv, f.depth)) (fun _ => rfl) c.run.entry
  rw [hfind] at hkey
  obtain ⟨f2, hfind2, hf2⟩ := Option.map_eq_some_iff.1 hkey
  simp only [Prod.mk.injEq] at hf2
  obtain ⟨hpc2, hword2, hmask2, hrcv2, hdepth2⟩ := hf2
  refine ⟨fun k hk => ?_, fun k hk => ?_, ?_, ?_, _, f2, setGroup_group .., ?_, ?_, hpc2.trans hpc, hword2.trans hword,
    hmask2.trans (hmask1.trans hmask), hrcv2.trans hrcv, hdepth2.trans hdepth, fun e he => ?_⟩
  · exact setGroup_group_ne _ hk _
  · exact setTrack_track_ne _ hk _
  · simp [State.jump, State.endWith]
  · simp [State.jump, State.endWith]
  · rw [settle_eq, hjudge.rest, hgrp]
    rfl
  · rw [settle_split]
    exact hfind2
  · rw [settle_split, hjudge.map_eq fun _ => rfl, hentries e he]
    exact congrArg _ (find_ins_ne he ..)

end Sys2Proof.Machine
end

-- Completion of an instruction that changes its group (R26, R27)
section
/-! What completing an instruction leaves that has changed its group, its s registers or other parts of the state; and what a
uniform instruction answers for each state of its cursor and its registers. -/

namespace Sys2Proof.Machine

/-! ## Completion -/

theorem Only.refl (s : State) : Only s s := ⟨rfl, fun _ => rfl⟩
theorem CoresKept.trans {s t u : State} (h : CoresKept s t) (h' : CoresKept t u) : CoresKept s u := by
  intro k
  rw [h' k, h k]
theorem Only.trans {s t u : State} (h : Only s t) (h' : Only t u) : Only s u :=
  ⟨h'.1.trans (by rw [h.1]), h.2.trans h'.2⟩
theorem countErrors_only (s : State) (c : Ctx) (r : RegFile) : Only s (s.countErrors c r) := by
  refine ⟨?_, countErrors_core s c r⟩
  rw [countErrors_eq]
/-- Completing an instruction changes groups and tracks alone. -/
theorem advance_only (u : State) (c : Ctx) (g : Group) (trk : Track) (sp : Bool) (n : Nat) :
    Only u (u.advance c g trk sp n) := by
  unfold State.advance
  split <;> exact ⟨rfl, fun _ => rfl⟩
theorem advance_sys (u : State) (c : Ctx) (g : Group) (trk : Track) (sp : Bool) (n : Nat) :
    (u.advance c g trk sp n).sys = u.sys := by
  unfold State.advance
  split <;> rfl

section
variable {s u : State} {c : Ctx} (h : s.ctx = some c) (hgroups : u.groups = s.groups) (htracks : u.tracks = s.tracks)
include h hgroups htracks

/-- An instruction completes with a group `x` that, but for register words and its cursor, is `g`. -/
theorem advance_completes_with {g x : Group} (hg : x = { g with v := x.v, s := x.s, cursor := x.cursor })
    (hsplit : x.split = c.grp.split) {trk : Track} {written : Bank × Nat → Prop}
    (hr : ∀ b k, b ≠ .l → ¬ written (b, k) → ((RegFile.of x trk).get b k).val = (c.regs.get b k).val) (sp : Bool) (n : Nat) :
    Completes s (u.advance c x trk sp n) c g written ∧
      ∀ b k, b ≠ .l → ((u.advance c x trk sp n).regsOf c.g c.t).get b k = (RegFile.of x trk).get b k := by
  obtain ⟨-, -, -, -, -, hfrag, -, -⟩ := ctx_spec h
  have hfind : find c.run.entry (c.settle x).split = some c.frag := by rw [settle_split, hsplit, hfrag]
  suffices hend : (∀ k, k ≠ c.g → (u.advance c x trk sp n).group k = s.group k) ∧
      (∀ k, k ≠ c.t → (u.advance c x trk sp n).track k = s.track k) ∧
      ∃ y f, (u.advance c x trk sp n).group c.g = some y ∧ y = { x with cursor := y.cursor, split := y.split } ∧
        (∀ e, e ≠ c.run.entry → find e y.split = find e c.grp.split) ∧ find c.run.entry y.split = some f ∧
        f.mask = c.frag.mask ∧ f.rcv = c.frag.rcv ∧ f.depth = c.frag.depth ∧ f.state = c.frag.state by
    obtain ⟨hothers, hothertracks, y, f, hy, hyx, hentries, hf⟩ := hend
    have hget : ∀ b k, b ≠ .l → ((u.advance c x trk sp n).regsOf c.g c.t).get b k = (RegFile.of x trk).get b k :=
      fun b k hb => regsOf_done hy (by rw [hyx]; rfl) (by rw [hyx]; rfl) hb k
    refine ⟨⟨hothers, hothertracks, ⟨y, f, hy, ?_, hentries, hf⟩, fun b k hb hw => ?_⟩, hget⟩
    · rw [hyx, hg]
    · rw [hget b k hb, hr b k hb hw]
  unfold State.advance
  split
  · obtain ⟨hend, hentries, f, hf, hmask, hrcv, hdepth, hstate, -⟩ := endClause_spec c (c.settle x) sp c.nextHdr hfind
    refine ⟨fun k hk => ?_, fun k hk => ?_, _, f, setGroup_group .., ?_, fun e he => ?_, hf, hmask, hrcv, hdepth, hstate⟩
    · exact (setGroup_group_ne u hk _).trans (congrArg (find k) hgroups)
    · exact (setTrack_track_ne _ hk _).trans (congrArg (look _ k) htracks)
    · rw [hend, settle_eq]
    · rw [hentries e he, settle_split, hsplit]
  · refine ⟨fun k hk => ?_, fun k hk => ?_, _, c.frag, setGroup_group .., ?_, fun e _ => ?_, hfind, rfl, rfl, rfl, rfl⟩
    · exact (setGroup_group_ne u hk _).trans (congrArg (find k) hgroups)
    · exact (setTrack_track_ne _ hk _).trans (congrArg (look _ k) htracks)
    · rw [settle_eq]
    · rw [settle_split, hsplit]
/-- An instruction completes that has written s registers of its group at most. -/
theorem advance_writes_s {x : Group} (hx : x = { c.grp with s := x.s }) {ns : List Nat}
    (hkept : ∀ k, k ∉ ns → look RegWord.zero k x.s = look RegWord.zero k c.grp.s) (sp : Bool) (n : Nat) :
    Completes s (u.advance c x c.trk sp n) c c.grp (sWords ns) ∧
      ∀ k, (u.advance c x c.trk sp n).sOf c k = (look RegWord.zero k x.s).val := by
  have hwords : ∀ b k, b ≠ .l → ¬ sWords ns (b, k) → ((RegFile.of x c.trk).get b k).val = (c.regs.get b k).val := by
    intro b k hb hw
    cases b
    · rw [hx]
      rfl
    · exact congrArg RegWord.val (hkept k fun hk => hw ⟨rfl, hk⟩)
    · exact absurd rfl hb
  obtain ⟨hcompl, hget⟩ := advance_completes_with h hgroups htracks (g := c.grp) (by rw [hx]) (by rw [hx]) hwords sp n
  exact ⟨hcompl, fun k => congrArg RegWord.val (hget .s k nofun)⟩
end

/-! ## s registers -/

/-- Writes s registers, each with the word that a number names. -/
def Group.setAll (g : Group) (val : Nat → Word) (ps : List (Nat × Nat)) : Group :=
  ps.foldl (fun g p => g.setS p.1 (val p.2)) g
theorem setAll_rest (g : Group) (val : Nat → Word) (ps : List (Nat × Nat)) :
    g.setAll val ps = { g with s := (g.setAll val ps).s } :=
  List.foldlRecOn ps _ (motive := fun x : Group => x = { g with s := x.s }) rfl fun x hx p _ => by rw [Group.setS, hx]
theorem look_setAll_ne (g : Group) (val : Nat → Word) {ps : List (Nat × Nat)} {k : Nat} (hk : k ∉ ps.map (·.1)) :
    look RegWord.zero k (g.setAll val ps).s = look RegWord.zero k g.s :=
  List.foldlRecOn ps _ (motive := fun x : Group => look RegWord.zero k x.s = look RegWord.zero k g.s) rfl
    fun _ hx _ hp => (look_put_ne _ (ne_of_mem_of_not_mem (List.mem_map_of_mem hp) hk).symm _ _).trans hx
theorem look_setAll (g : Group) (val : Nat → Word) {ps : List (Nat × Nat)} (hn : (ps.map (·.1)).Nodup) {p : Nat × Nat}
    (hp : p ∈ ps) : (look RegWord.zero p.1 (g.setAll val ps).s).val = val p.2 := by
  induction ps generalizing g with
  | nil => cases hp
  | cons q ps ih =>
    obtain ⟨hq, hrest⟩ := List.nodup_cons.1 hn
    show (look RegWord.zero p.1 ((g.setS q.1 (val q.2)).setAll val ps).s).val = _
    rcases List.mem_cons.1 hp with rfl | hp
    · rw [look_setAll_ne _ _ hq, Group.setS, look_put_self]
      rfl
    · exact ih _ hrest hp

/-! ## Uniform instructions (R34, R119, R323) -/

section
variable {s : State} {c : Ctx} (h : s.ctx = some c)
include h

theorem onUniform_runs (hcur : c.run.cursor ≠ some 32) (sp : Bool) (k : Ctx → Out) : onUniform s sp k = k c := by
  rw [onUniform, onTrack, h]
  exact if_neg hcur
/-- A uniform instruction whose s registers are readable works on the values that stood in them. -/
theorem onUniformS_runs (hcur : c.run.cursor ≠ some 32) (sp : Bool) {ns : List Nat} (hread : SReadable c ns)
    (k : State → Ctx → RegFile → Out) : ∃ r, SameVals r c.regs ∧
      onUniformS s sp ns k = k (s.countErrors c r) { c with grp := c.grp.withRegs r } r := by
  refine ⟨_, touchAll_vals c.regs (ns.map fun n => (Bank.s, n)), ?_⟩
  have hok : ((RegFile.of c.grp c.trk).touchAll (ns.map fun n => (Bank.s, n))).2 = false := touchAll_ok _ hread
  rw [onUniformS, onUniform_runs h hcur]
  simp only [hok, Bool.false_eq_true, if_false, Ctx.regs]
end

end Sys2Proof.Machine
end

-- Privileged instructions (R118, R323 to R325, R327)
section
/-! What a privileged instruction answers for each state of its cursor and its group; and the obligation on the privilege
fault. -/

namespace Sys2Proof.Machine

/-! ## The three cases of a privileged instruction (R118, R323) -/

section
variable {s : State} {c : Ctx} (h : s.ctx = some c)
include h

theorem onPrivileged_counted (hcur : c.run.cursor = some 32) (sp : Bool) (k : Ctx → Out) :
    onPrivileged s sp k = .next (s.advance c c.grp c.trk sp 1) := by
  rw [onPrivileged, onTrack, h]
  exact if_pos hcur
theorem onPrivileged_refused (hcur : c.run.cursor ≠ some 32) (hpriv : s.privileged c.grp = false) (sp : Bool)
    (k : Ctx → Out) : onPrivileged s sp k = .next (s.precise c 0x04 0 none 0 0) := by
  rw [onPrivileged, onTrack, h]
  simp only [hcur, hpriv, if_false, Bool.false_eq_true]
theorem onPrivileged_runs (hcur : c.run.cursor ≠ some 32) (hpriv : s.privileged c.grp = true) (sp : Bool)
    (k : Ctx → Out) : onPrivileged s sp k = k c := by
  rw [onPrivileged, onTrack, h]
  simp only [hcur, hpriv, if_false, if_true]

/-- A fault before the instruction has changed anything finds the state as the instruction did. -/
theorem faultsAt_start : FaultsAt s s c := by
  obtain ⟨-, -, -, -, hgrp, -, -, -⟩ := ctx_spec h
  exact ⟨h, rfl, rfl, c.grp, hgrp, rfl⟩
/-- The privilege fault (R118). -/
theorem privilege_faults :
    Faults s (s.precise c 0x04 0 none 0 0) c 0x04 0 (resumePair c.run.hdr c.resumeWord) 0 :=
  precise_faults (faultsAt_start h) (by decide) (by decide) none 0 0

/-- RDSR, WRSR and TLBI at a cursor of 32 and in an unprivileged group. -/
theorem onPrivileged_faults (sp : Bool) (k : Ctx → Out) :
    (s.privileged c.grp = false → c.run.cursor ≠ some 32 →
      ∃ t, onPrivileged s sp k = .next t ∧ Faults s t c 0x04 0 (resumePair c.run.hdr c.resumeWord) 0) ∧
    (c.run.cursor = some 32 → ∃ t, onPrivileged s sp k = .next t ∧ Only s t ∧ Completes s t c c.grp noWord) :=
  ⟨fun hpriv hcur => ⟨_, onPrivileged_refused h hcur hpriv sp k, privilege_faults h⟩,
    fun hcur => ⟨_, onPrivileged_counted h hcur sp k, advance_completes h sp 1⟩⟩
/-- ERET at a cursor of 32 and in an unprivileged group. -/
theorem execEret_faults (sp : Bool) :
    (s.privileged c.grp = false → c.run.cursor ≠ some 32 →
      ∃ t, execEret sp s = .next t ∧ Faults s t c 0x04 0 (resumePair c.run.hdr c.resumeWord) 0) ∧
    (c.run.cursor = some 32 → ∃ t, execEret sp s = .next t ∧ Only s t ∧
      TransfersTo s t c c.nextHdr c.frag.rcv c.frag.depth) := by
  refine ⟨fun hpriv hcur => ⟨_, ?_, privilege_faults h⟩,
    fun hcur => ⟨_, ?_, jump_only .., jump_transfersTo s sp c.nextHdr (f := id) rfl 1⟩⟩
  · rw [execEret, onTrack, h]
    simp only [hcur, hpriv, if_false, Bool.not_false, if_true]
  · rw [execEret, onTrack, h]
    exact if_pos hcur
end

/-! ## The obligation -/

section
variable (sp : Bool) (s : State)
theorem exec_rdsr (d : Dst) (sr : BitVec 12) : exec (.rdsr sp d sr) s = execRdsr sp d sr s := by rfl
theorem exec_wrsr (a : Src) (sr : BitVec 12) : exec (.wrsr sp a sr) s = execWrsr sp a sr s := by rfl
theorem exec_eret : exec (.eret sp) s = execEret sp s := by rfl
theorem exec_tlbiPage (isl : Bool) (sb : BitVec 3) (sa : BitVec 7) :
    exec (.tlbiPage sp isl sb sa) s = execTlbiPage sp isl sb sa s := by rfl
theorem exec_tlbiPart (isl : Bool) (sb : BitVec 3) : exec (.tlbiPart sp isl sb) s = execTlbiPart sp isl sb s := by rfl
end

/-- Of the two ways in which the obligation lets a privileged instruction count as complete, all but ERET take the second. -/
theorem completes_of_not_eret {i : Instr} (hne : ∀ sp, i ≠ .eret sp) {faults counted transfers completes : Prop}
    (h : faults ∧ (counted → completes)) :
    faults ∧ (counted → (∀ sp, i = .eret sp → transfers) ∧ ((∀ sp, i ≠ .eret sp) → completes)) :=
  ⟨h.1, fun hcur => ⟨fun sp he => absurd he (hne sp), fun _ => h.2 hcur⟩⟩

/-- Settles O24: RDSR, WRSR and both forms of TLBI pass through `onPrivileged`, ERET makes the same two tests. -/
theorem privilegedInstructionsFault : Obligations.PrivilegedInstructionsFault := by
  unfold Obligations.PrivilegedInstructionsFault
  intro i hi s c h
  rcases hi with ⟨sp, d, sr, rfl⟩ | ⟨sp, a, sr, rfl⟩ | ⟨sp, rfl⟩ | ⟨sp, isl, sb, sa, rfl⟩ | ⟨sp, isl, sb, rfl⟩
  · rw [exec_rdsr]
    exact completes_of_not_eret (fun _ => Instr.noConfusion) (onPrivileged_faults h sp _)
  · rw [exec_wrsr]
    exact completes_of_not_eret (fun _ => Instr.noConfusion) (onPrivileged_faults h sp _)
  · obtain ⟨hfaults, hcounted⟩ := execEret_faults h sp
    rw [exec_eret]
    exact ⟨hfaults, fun hcur => ⟨fun _ _ => hcounted hcur, fun hne => absurd rfl (hne sp)⟩⟩
  · rw [exec_tlbiPage]
    exact completes_of_not_eret (fun _ => Instr.noConfusion) (onPrivileged_faults h sp _)
  · rw [exec_tlbiPart]
    exact completes_of_not_eret (fun _ => Instr.noConfusion) (onPrivileged_faults h sp _)

end Sys2Proof.Machine
end

-- System registers (R117, R325, R337)
section
/-! The words of the system registers; what RDSR, WRSR, CYC and SNAP leave; and the obligation on them. -/

namespace Sys2Proof.Machine

/-! ## Reads (R117, R325) -/

/-- The system register of each number, as a group reads it. -/
theorem sysWord_values (s : State) (g : Group) (k : Nat) :
    s.sysWord g k 0 = 0x05080000#32 ||| BitVec.ofNat 32 (256 * s.enum.grade.toNat + Config.stepping.toNat) ∧
    s.sysWord g k 1 = g.fltstat ∧ s.sysWord g k 2 = g.trapvec.setWidth 32 ∧
    s.sysWord g k 3 = (g.trapvec >>> 32).setWidth 32 ∧
    (∀ i, i < 4 → s.sysWord g k (4 + i) = look 0 i g.trapinfo) ∧
    s.sysWord g k 0x10 = (s.die (dieOf k)).partid.setWidth 32 ∧
    (∀ i, i < 4 → s.sysWord g k (0x20 + 2 * i) = (look 0 i s.sys.wqbase).setWidth 32 ∧
      s.sysWord g k (0x21 + 2 * i) = (look 0 i s.sys.wqbase >>> 32).setWidth 32) ∧
    s.sysWord g k 0x30 = s.sys.snapctl ∧ s.sysWord g k 0x31 = s.sys.snapstat ∧
    s.sysWord g k 0x40 = (s.die (dieOf k)).monthr ∧ s.sysWord g k 0x50 = (s.core k).carve.setWidth 32 ∧
    s.sysWord g k 0x60 = (s.core k).replay ∧ s.sysWord g k 0x61 = (s.core k).rfce ∧
    s.sysWord g k 0x62 = (s.core k).rfue := by
  refine ⟨rfl, rfl, rfl, rfl, fun i hi => ?_, rfl, fun i hi => ?_, rfl, rfl, rfl, rfl, rfl, rfl, rfl⟩
  · interval_cases i <;> rfl
  · interval_cases i <;> exact ⟨rfl, rfl⟩

theorem sysPairs_fst (w : Width) (num sr : Nat) :
    (sysPairs w num sr).map (·.1) = (List.range (Width.count w)).map (num + ·) := by
  rw [sysPairs, List.map_map]
  rfl
theorem mem_sysPairs {w : Width} {num sr i : Nat} (hi : i < Width.count w) : (num + i, sr + i) ∈ sysPairs w num sr :=
  List.mem_map_of_mem (f := fun i => (num + i, sr + i)) (List.mem_range.2 hi)
theorem sysPairs_nodup (w : Width) (num sr : Nat) : ((sysPairs w num sr).map (·.1)).Nodup := by
  rw [sysPairs_fst]
  exact List.nodup_range.map (add_right_injective num)

section
variable {s : State} {c : Ctx} (h : s.ctx = some c) (hcur : c.run.cursor ≠ some 32)
include h hcur

/-- RDSR of a privileged group (R325). -/
theorem rdsr_reads (hpriv : s.privileged c.grp = true) (sp : Bool) (d : Dst) (sr : BitVec 12) :
    ∃ t, exec (.rdsr sp d sr) s = .next t ∧ Only s t ∧
      Completes s t c c.grp (sWords ((List.range (Width.count d.width)).map (d.num.toNat + ·))) ∧
      ∀ i, i < Width.count d.width → t.sOf c (d.num.toNat + i) = s.sysWord c.grp c.core (sr.toNat + i) := by
  have hnames := sysPairs_fst d.width d.num.toNat sr.toNat
  obtain ⟨hcompl, hval⟩ := advance_writes_s h rfl rfl
    (setAll_rest c.grp (s.sysWord c.grp c.core) (sysPairs d.width d.num.toNat sr.toNat))
    (fun k hk => look_setAll_ne c.grp _ (hnames.symm ▸ hk)) sp 1
  refine ⟨_, ?_, advance_only .., hcompl, fun i hi => ?_⟩
  · rw [exec_rdsr, execRdsr, onPrivileged_runs h hcur hpriv]
    rfl
  · rw [hval]
    exact look_setAll c.grp _ (sysPairs_nodup ..) (mem_sysPairs hi)

theorem exec_cyc (sp : Bool) (d : Dst) : exec (.cyc sp d) s = .next (s.advance c
    (c.grp.setAll (fun i => ((s.core c.core).cycle >>> (32 * i)).setWidth 32) [(d.num.toNat, 0), (d.num.toNat + 1, 1)])
    c.trk sp 1) := by
  show execCyc sp d s = _
  rw [execCyc, onUniform_runs h hcur]
  rfl
/-- The two words of the cycle counter, the lower one first (R325). -/
theorem cyc_reads (sp : Bool) (d : Dst) : ∃ t, exec (.cyc sp d) s = .next t ∧ Only s t ∧
    Completes s t c c.grp (sWords [d.num.toNat, d.num.toNat + 1]) ∧
    (t.sOf c d.num.toNat).toNat + (t.sOf c (d.num.toNat + 1)).toNat * 2 ^ 32 = (s.core c.core).cycle.toNat := by
  generalize hval : (fun i => ((s.core c.core).cycle >>> (32 * i)).setWidth 32 : Nat → Word) = val
  generalize hps : [(d.num.toNat, 0), (d.num.toNat + 1, 1)] = ps
  have hnames : ps.map (·.1) = [d.num.toNat, d.num.toNat + 1] := by rw [← hps]; rfl
  have hnodup : (ps.map (·.1)).Nodup := by simp [hnames]
  obtain ⟨hcompl, hget⟩ := advance_writes_s h rfl rfl (setAll_rest c.grp val ps)
    (fun k hk => look_setAll_ne c.grp val (hnames.symm ▸ hk)) sp 1
  refine ⟨_, (exec_cyc h hcur sp d).trans (by rw [hval, hps]), advance_only .., hcompl, ?_⟩
  rw [hget, hget, look_setAll c.grp val hnodup (p := (d.num.toNat, 0)) (by simp [← hps]),
    look_setAll c.grp val hnodup (p := (d.num.toNat + 1, 1)) (by simp [← hps]), ← hval]
  simp only [BitVec.toNat_setWidth, BitVec.toNat_ushiftRight, Nat.shiftRight_eq_div_pow]
  have := (s.core c.core).cycle.isLt
  omega
end

/-! ## Writes (R117, R325) -/

/-- Bit 0 of the number names the half. -/
theorem setHalf_toNat {n : Nat} (x : DWord) (sr : BitVec n) (w : Word) : setHalf x sr.toNat w =
    if sr.getLsbD 0 then (x &&& 0xFFFFFFFF#64) ||| (w.setWidth 64 <<< 32)
    else (x &&& 0xFFFFFFFF00000000#64) ||| w.setWidth 64 := by
  unfold setHalf
  rcases Nat.mod_two_eq_zero_or_one sr.toNat with h | h <;> simp [BitVec.getLsbD, Nat.testBit_zero, h]

/-- A write of a word of a work-queue base. -/
theorem state_writeSys_wqbase {i n : Nat} (hi : i < 4) (hn : n = 0x20 + 2 * i ∨ n = 0x21 + 2 * i) (s : State) (k : Nat)
    (w : Word) : s.writeSys k n w = { s with
      sys := { s.sys with wqbase := put 0 i (setHalf (look 0 i s.sys.wqbase) n w) s.sys.wqbase } } := by
  have hrange : 0x20 ≤ n ∧ n ≤ 0x27 := by omega
  have hidx : (n - 0x20) / 2 = i := by omega
  simp only [State.writeSys, hrange, and_self, if_true, hidx]
theorem group_writeSys_other {n : Nat} (hn : n = 0 ∨ 8 ≤ n) (g : Group) (w : Word) : g.writeSys n w = g := by
  have h1 : n ≠ 1 := by omega
  have h2 : ¬ (n = 2 ∨ n = 3) := by omega
  have h4 : ¬ (4 ≤ n ∧ n ≤ 7) := by omega
  simp only [Group.writeSys, h1, h2, h4, if_false]
theorem group_writeSys_trapinfo {n : Nat} (hn : 4 ≤ n ∧ n ≤ 7) (g : Group) (w : Word) : g.writeSys n w =
    { g with trapinfo := put 0 (n - 4) (if n = 5 then w &&& 0x3FFFFFFF#32 else w) g.trapinfo } := by
  have h1 : n ≠ 1 := by omega
  have h2 : ¬ (n = 2 ∨ n = 3) := by omega
  simp only [Group.writeSys, h1, h2, hn, and_self, if_false, if_true]
theorem state_writeSys_low {n : Nat} (hn : n < 0x20) (s : State) (k : Nat) (w : Word) : s.writeSys k n w = s := by
  have h20 : ¬ (0x20 ≤ n ∧ n ≤ 0x27) := by omega
  have h30 : n ≠ 0x30 := by omega
  have h40 : n ≠ 0x40 := by omega
  have h50 : n ≠ 0x50 := by omega
  simp only [State.writeSys, h20, h30, h40, h50, if_false]

/-- A write of a group register does not concern register words. -/
theorem group_writeSys_withRegs (g : Group) (r : RegFile) (n : Nat) (w : Word) :
    (g.withRegs r).writeSys n w = (g.writeSys n w).withRegs r := by
  unfold Group.writeSys
  split
  · rfl
  · split
    · rfl
    · split <;> rfl
theorem group_writeSys_split (g : Group) (n : Nat) (w : Word) : (g.writeSys n w).split = g.split := by
  unfold Group.writeSys
  split
  · rfl
  · split
    · rfl
    · split <;> rfl
/-- A value that CARVEREQ accepts (R117). -/
def CarveAccepts (n : Nat) (w : Word) : Prop := n = 0x50 → w.toNat % 256 ∈ carveMenu
theorem writeCarve_accepted {w : Word} (hw : w.toNat % 256 ∈ carveMenu) (s : State) (k : Nat) :
    s.writeCarve k w = s.setCore k
      { s.core k with carve := ((s.core k).carve &&& 0xFF00#16) ||| BitVec.ofNat 16 (w.toNat % 256) } := by
  simp only [State.writeCarve, List.contains_iff_mem, hw, if_true, updCore_eq]
theorem writeCarve_refused {w : Word} (hw : w.toNat % 256 ∉ carveMenu) (s : State) (k : Nat) :
    ∃ r, s.writeCarve k w = s.report r := by
  simp only [State.writeCarve, List.contains_iff_mem, hw, if_false]
  exact ⟨_, rfl⟩
/-- The state once the bytes of a record and its phase byte are stored (R319). -/
def State.recordStored (s : State) (r : FaultRec) : State :=
  s.physWrite (s.sys.fqbase.toNat + 64 * (s.sys.fqtail.toNat % 4096))
    (r.bytes ++ [BitVec.ofNat 8 (s.sys.fqtail.toNat / 4096 % 2 * 128)])
theorem recordStored_around (s : State) (r : FaultRec) : (s.recordStored r).around s = s.recordStored r :=
  physWrite_around ..
theorem putRecord_registersOnly {s t : State} {r : FaultRec} (ht : s.recordStored r = t) :
    RegistersOnly { t with sys := { t.sys with fqtail := t.sys.fqtail + 1 } } (s.putRecord r) := by
  unfold State.recordStored at ht
  unfold State.putRecord
  simp only [ht]
  exact ((RegistersOnly.refl _).thenIf (registersOnly_msix ..)).thenIf (registersOnly_snapshot ..)
/-- A record that is written leaves the cores, the groups and the tracks as they are. -/
theorem putRecord_keeps_execution (s : State) (r : FaultRec) :
    (s.putRecord r).cores = s.cores ∧ (s.putRecord r).groups = s.groups ∧ (s.putRecord r).tracks = s.tracks := by
  have haround := recordStored_around s r
  generalize ht : s.recordStored r = t at haround
  obtain ⟨hrest, -⟩ := putRecord_registersOnly ht
  rw [hrest, ← haround]
  exact ⟨rfl, rfl, rfl⟩
/-- An accepted write of a register outside the group leaves groups and tracks as they are. -/
theorem state_writeSys_keeps {n : Nat} {w : Word} (hn : CarveAccepts n w) (s : State) (k : Nat) :
    (s.writeSys k n w).groups = s.groups ∧ (s.writeSys k n w).tracks = s.tracks := by
  unfold State.writeSys
  split
  · exact ⟨rfl, rfl⟩
  · split
    · exact ⟨rfl, rfl⟩
    · split
      · exact ⟨rfl, rfl⟩
      · split
        · next h => rw [writeCarve_accepted (hn h)]; exact ⟨rfl, rfl⟩
        · exact ⟨rfl, rfl⟩
/-- An accepted write of a register does not depend on groups, tracks and error counters. -/
theorem Only.writeSys {s v : State} (h : Only s v) {n : Nat} {w : Word} (hn : CarveAccepts n w) (k : Nat) :
    Only (s.writeSys k n w) (v.writeSys k n w) := by
  obtain ⟨hrest, hcores⟩ := h
  have hdie : ∀ d, v.die d = s.die d := fun d => by rw [hrest]; rfl
  unfold State.writeSys
  split
  · exact ⟨by rw [hrest], hcores⟩
  · split
    · exact ⟨by rw [hrest], hcores⟩
    · split
      · refine ⟨?_, hcores⟩
        rw [updDie_eq, updDie_eq, hdie, hrest]
        rfl
      · split
        · next h =>
          rw [writeCarve_accepted (hn h), writeCarve_accepted (hn h)]
          refine ⟨?_, fun j => ?_⟩
          · conv_lhs => rw [hrest]
            rfl
          · by_cases hj : j = k
            · subst hj
              rw [setCore_core, setCore_core, hcores]
            · rw [setCore_core_ne _ hj, setCore_core_ne _ hj]
              exact hcores j
        · exact ⟨hrest, hcores⟩

section
variable {s : State} {c : Ctx} (h : s.ctx = some c) (hpriv : s.privileged c.grp = true) (hcur : c.run.cursor ≠ some 32)
  {a : Src} (hwidth : a.width = .single) (hread : SReadable c [a.num.toNat]) (sp : Bool) (sr : BitVec 12)
include h hpriv hcur hwidth hread

/-- WRSR of one register counts the errors of its read, and writes what it has read. -/
theorem wrsr_next : ∃ r, SameVals r c.regs ∧ exec (.wrsr sp a sr) s = .next
    (((s.countErrors c r).writeSys c.core sr.toNat (c.sOf a.num.toNat)).advance c
      ((c.grp.writeSys sr.toNat (c.sOf a.num.toNat)).withRegs r) c.trk sp 1) := by
  have hpairs : sysPairs a.width a.num.toNat sr.toNat = [(a.num.toNat, sr.toNat)] := by rw [hwidth]; rfl
  obtain ⟨r, hvals, hrun⟩ := onUniformS_runs h hcur sp hread fun s c r => .next
    ((s.writeSys c.core sr.toNat (r.sWord a.num.toNat)).advance c (c.grp.writeSys sr.toNat (r.sWord a.num.toNat)) c.trk sp 1)
  have hword : r.sWord a.num.toNat = c.sOf a.num.toNat := hvals .s a.num.toNat
  refine ⟨r, hvals, ?_⟩
  rw [exec_wrsr, execWrsr, onPrivileged_runs h hcur hpriv, hpairs, ← group_writeSys_withRegs, ← hword]
  exact hrun
omit hpriv hcur hwidth hread in
/-- The completion of WRSR in a group that, but for its cursor, is then `g`. -/
theorem wrsr_completes {u : State} (hgroups : u.groups = s.groups) (htracks : u.tracks = s.tracks) {r : RegFile}
    (hvals : SameVals r c.regs) {g : Group} {n k : Nat} {w : Word} (hg : c.grp.writeSys n w = { g with cursor := k }) :
    Completes s (u.advance c ((c.grp.writeSys n w).withRegs r) c.trk sp 1) c g noWord := by
  have hwords : ∀ b k, b ≠ .l → ¬ noWord (b, k) →
      ((RegFile.of ((c.grp.writeSys n w).withRegs r) c.trk).get b k).val = (c.regs.get b k).val := by
    intro b k hb _
    rw [← hvals b k]
    cases b
    · rfl
    · rfl
    · exact absurd rfl hb
  have hsplit : ((c.grp.writeSys n w).withRegs r).split = c.grp.split := group_writeSys_split ..
  refine (advance_completes_with h hgroups htracks ?_ hsplit hwords sp 1).1
  rw [hg]
  rfl
/-- An accepted write of one register: the group is `g` but for its cursor, the rest of the state is `u`. -/
theorem wrsr_writes {g : Group} {k : Nat} {u : State} (hn : CarveAccepts sr.toNat (c.sOf a.num.toNat))
    (hg : c.grp.writeSys sr.toNat (c.sOf a.num.toNat) = { g with cursor := k })
    (hu : s.writeSys c.core sr.toNat (c.sOf a.num.toNat) = u) :
    ∃ t, exec (.wrsr sp a sr) s = .next t ∧ Completes s t c g noWord ∧ Only u t := by
  obtain ⟨r, hvals, hrun⟩ := wrsr_next h hpriv hcur hwidth hread sp sr
  obtain ⟨hgroups, htracks⟩ := state_writeSys_keeps hn (s.countErrors c r) c.core
  have hwritten := (countErrors_only s c r).writeSys hn c.core
  rw [hu] at hwritten
  refine ⟨_, hrun, wrsr_completes h sp ?_ ?_ hvals hg, hwritten.trans (advance_only ..)⟩
  · rw [hgroups, countErrors_eq]
  · rw [htracks, countErrors_eq]
/-- A write of CARVEREQ off the menu enters a record (R117, R321). -/
theorem wrsr_reports (hw : (c.sOf a.num.toNat).toNat % 256 ∉ carveMenu) (hroom : s.fqReady = true) :
    ∃ t, exec (.wrsr sp a 0x50) s = .next t ∧ Completes s t c c.grp noWord ∧ CoresKept s t ∧
      t.sys.fqtail = s.sys.fqtail + 1 := by
  obtain ⟨r, hvals, hrun⟩ := wrsr_next h hpriv hcur hwidth hread sp 0x50
  have heq := countErrors_eq s c r
  have hcount := countErrors_core s c r
  generalize s.countErrors c r = v at hrun heq hcount
  have hvroom : v.fqReady = true := by
    have haround : v = s.around v := by rw [heq]; rfl
    rw [haround, fqReady_around, hroom]
  obtain ⟨x, hx⟩ := writeCarve_refused hw v c.core
  have hwritten : v.writeSys c.core (0x50 : BitVec 12).toNat (c.sOf a.num.toNat) = v.putRecord x := by
    rw [State.report, if_pos hvroom] at hx
    exact hx
  obtain ⟨hcores, hgroups, htracks⟩ := putRecord_keeps_execution v x
  rw [hwritten] at hrun
  refine ⟨_, hrun, wrsr_completes h sp ?_ ?_ hvals rfl, ?_, ?_⟩
  · rw [hgroups, heq]
  · rw [htracks, heq]
  · have hkept : CoresKept v (v.putRecord x) := fun k => by rw [State.core, hcores]; rfl
    exact (CoresKept.trans hcount hkept).trans (advance_only ..).2
  · rw [advance_sys, (reports_putRecord v x).2, heq]
end

/-! ## Snapshots (R325, R337) -/

/-- The state after SNAP, but for the completion of the instruction. -/
def State.snapped (s : State) (tag : Word) : State := if s.sys.snapctl.getLsbD 1 then s.snapshot 1 0 tag else s
theorem snapped_rest (s : State) (tag : Word) : s.snapped tag = { s with sys := (s.snapped tag).sys } := by
  unfold State.snapped
  split
  · exact (registersOnly_snapshot ..).1
  · rfl
theorem snapped_off {s : State} (h : s.sys.snapctl.getLsbD 0 = false ∨ s.sys.snapctl.getLsbD 1 = false) (tag : Word) :
    s.snapped tag = s := by
  unfold State.snapped State.snapshot
  rcases h with h0 | h1
  · rw [h0, if_neg Bool.false_ne_true, ite_self]
  · rw [h1, if_neg Bool.false_ne_true]
theorem exec_snap {s : State} {c : Ctx} (h : s.ctx = some c) (hcur : c.run.cursor ≠ some 32) (sp : Bool) (tag : Word) :
    exec (.snap sp tag) s = .next ((s.snapped tag).advance c c.grp c.trk sp 1) := by
  show execSnap sp tag s = _
  rw [execSnap, onUniform_runs h hcur]
  rfl

/-! ## The obligation -/

/-- Settles O40: RDSR and CYC write s registers, WRSR one register of the group or of the state, SNAP the snapshot. -/
theorem systemRegisters : Obligations.SystemRegisters := by
  unfold Obligations.SystemRegisters
  refine ⟨fun sp d sr s c h hpriv hcur => rdsr_reads h hcur hpriv sp d sr, sysWord_values,
    fun sp a sr s c h hpriv hcur hwidth hread => ?_, fun sp d s c h hcur => cyc_reads h hcur sp d,
    fun sp tag s c h hcur => ?_⟩
  · intro w half writes
    have write : ∀ {g : Group} {k : Nat} {u : State}, CarveAccepts sr.toNat w →
        c.grp.writeSys sr.toNat w = { g with cursor := k } → s.writeSys c.core sr.toNat w = u →
        ∃ t, exec (.wrsr sp a sr) s = .next t ∧ Completes s t c g noWord ∧ Only u t :=
      wrsr_writes h hpriv hcur hwidth hread sp sr
    refine ⟨?_, ?_, fun hsr => ?_, fun i hi hsr => ?_, ?_, ?_, ?_, ?_⟩
    · rintro rfl
      exact write nofun rfl rfl
    · rintro (rfl | rfl)
      · exact write nofun rfl rfl
      · exact write nofun rfl rfl
    · have hfive : (sr = 5) = (sr.toNat = 5) := propext (by bv_omega)
      simp only [hfive]
      exact write (fun h => by omega) (group_writeSys_trapinfo hsr ..) (state_writeSys_low (by omega) ..)
    · refine write (fun h => by omega) (group_writeSys_other (by omega) ..) ?_
      rw [state_writeSys_wqbase hi hsr, setHalf_toNat]
    · rintro rfl
      exact write nofun rfl rfl
    · rintro rfl
      exact write nofun rfl rfl
    · rintro rfl hw
      exact write (fun _ => hw) rfl (writeCarve_accepted hw ..)
    · rintro rfl hw hroom
      exact wrsr_reports h hpriv hcur hwidth hread sp hw hroom
  · have hrest := snapped_rest s tag
    have hsys := advance_sys (s.snapped tag) c c.grp c.trk sp 1
    have honly := advance_only (s.snapped tag) c c.grp c.trk sp 1
    have hgroups : (s.snapped tag).groups = s.groups := by rw [hrest]
    have htracks : (s.snapped tag).tracks = s.tracks := by rw [hrest]
    refine ⟨_, exec_snap h hcur sp tag, ?_, ?_, fun h0 h1 => ?_, fun hoff => ?_⟩
    · exact (advance_completes_with h hgroups htracks rfl rfl (fun _ _ _ _ => rfl) sp 1).1
    · rw [hsys, ← hrest]
      exact honly
    · rw [hsys, State.snapped, if_pos h1, State.snapshot, if_pos h0]
      exact ⟨rfl, rfl, rfl, rfl⟩
    · rw [hsys, snapped_off hoff]

end Sys2Proof.Machine
end

-- Logic, shifts, bit counts and bit fields (R129, R130)
section
/-! Bits of a number as a bit vector, counts of them as places in a list, the field that a control word names; and the
obligation on them. -/

namespace Sys2Proof.Machine

/-! ## Logic and shifts (R129) -/

theorem compl_eq (w x : Nat) : compl w x = (~~~BitVec.ofNat w x).toNat := by
  rw [BitVec.toNat_not, BitVec.toNat_ofNat, compl]
theorem logic2_eq (s : State) (f : FmtT) (op : Nat → Nat → Nat) : let w := dBits f.d
    logic2 s f op = aluT2 s f w w fun _ a b => (BitVec.ofNat w (op a b)).toNat := by
  simp only [BitVec.toNat_ofNat]
  rfl
theorem exec_not (f : FmtT) (s : State) : let w := dBits f.d
    exec (.not f) s = aluT1 s f w fun _ a => compl w a := by rfl
theorem shift_eq (s : State) (f : FmtT) (op : Nat → Nat → Nat → Nat) : let w := dBits f.d
    shift s f op = aluT2 s f w 32 fun _ a b => op w a b % 2 ^ w := rfl
theorem exec_fshl (f : FmtT) (s : State) : let w := dBits f.d
    exec (.fshl f) s = aluT3 s f w w 32 fun _ a b c => (a * 2 ^ w + b) * 2 ^ (c % w) / 2 ^ w % 2 ^ w := by rfl
theorem exec_fshr (f : FmtT) (s : State) : let w := dBits f.d
    exec (.fshr f) s = aluT3 s f w w 32 fun _ a b c => (a * 2 ^ w + b) / 2 ^ (c % w) % 2 ^ w := by rfl

/-- A quotient of the signed number by a power of two is the bit vector shifted with copies of its sign. -/
theorem sgn_div_two_pow (w n : Nat) {a : Nat} (ha : a < 2 ^ w) :
    (sgn a w / 2 ^ n % 2 ^ w).toNat = ((BitVec.ofNat w a).sshiftRight n).toNat := by
  have hsgn : sgn a w = (BitVec.ofNat w a).toInt := by
    rw [← ival_true, ival, if_pos rfl, Nat.mod_eq_of_lt ha]
  rw [wrap_eq, hsgn, BitVec.sshiftRight, Int.shiftRight_eq_div_pow]
  norm_cast

/-! ## Counts of bits (R129) -/

theorem exec_popc (f : FmtT) (s : State) : let w := aBits f.a
    exec (.popc f) s = aluT1 s f w fun _ a => ((List.range w).filter a.testBit).length := by rfl
theorem exec_clz (f : FmtT) (s : State) : let w := aBits f.a
    exec (.clz f) s = aluT1 s f w fun _ a =>
      (firstIdx (fun i => a.testBit (w - 1 - i)) (List.range w)).getD w := by rfl
theorem exec_ctz (f : FmtT) (s : State) : let w := aBits f.a
    exec (.ctz f) s = aluT1 s f w fun _ a => (firstIdx (fun i => a.testBit i) (List.range w)).getD w := by rfl

theorem mod_two_pow_succ (x w : Nat) : x % 2 ^ (w + 1) = x % 2 ^ w + 2 ^ w * (x.testBit w).toNat := by
  rw [Nat.mod_pow_succ, Nat.toNat_testBit]
/-- The place of the first hit in a list, or the list's end, is how many entries stand before a hit. -/
theorem firstIdx_getD_length {α : Type} (p : α → Bool) (l : List α) :
    (firstIdx p l).getD l.length = (l.takeWhile fun x => !p x).length := by
  induction l with
  | nil => rfl
  | cons x l ih =>
    cases hx : p x
    · simp only [firstIdx, hx, Bool.false_eq_true, if_false, List.takeWhile_cons, Bool.not_false, if_true,
        List.length_cons, ← ih]
      cases firstIdx p l <;> rfl
    · simp [firstIdx, hx]
theorem firstIdx_range (p : Nat → Bool) (w : Nat) :
    (firstIdx p (List.range w)).getD w = ((List.range w).takeWhile fun i => !p i).length := by
  simpa using firstIdx_getD_length p (List.range w)

theorem bitLen_le_iff {m n : Nat} : bitLen m ≤ n ↔ m < 2 ^ n := by
  unfold bitLen
  split
  next h => simp [h]
  next h => rw [Nat.succ_le_iff, Nat.log2_lt h]
/-- The zeros that stand above a number's highest set bit among its low `w`. -/
theorem takeWhile_zeros_from_top (a w : Nat) :
    ((List.range w).takeWhile fun i => !a.testBit (w - 1 - i)).length = w - bitLen (a % 2 ^ w) := by
  induction w with
  | zero => simp
  | succ w ih =>
    have hlow : a % 2 ^ w < 2 ^ w := Nat.mod_lt _ (Nat.two_pow_pos w)
    have hshift : ((fun i => !a.testBit (w - i)) ∘ Nat.succ) = fun i => !a.testBit (w - 1 - i) := by
      funext i
      rw [Function.comp_apply, Nat.sub_succ', Nat.sub_right_comm]
    simp only [List.range_succ_eq_map, List.takeWhile_cons, Nat.add_sub_cancel, Nat.sub_zero, mod_two_pow_succ]
    cases htop : a.testBit w
    · have hlen : bitLen (a % 2 ^ w) ≤ w := bitLen_le_iff.2 hlow
      simp only [Bool.not_false, if_true, List.length_cons, List.takeWhile_map, List.length_map, hshift, ih,
        Bool.toNat_false, Nat.mul_zero, Nat.add_zero]
      omega
    · have hgt : ¬ bitLen (a % 2 ^ w + 2 ^ w) ≤ w := fun h => by
        have := bitLen_le_iff.1 h
        omega
      simp only [Bool.not_true, Bool.false_eq_true, if_false, List.length_nil, Bool.toNat_true, Nat.mul_one]
      omega

/-! ## Reversal (R129) -/

theorem exec_brev (f : FmtT) (s : State) : let w := dBits f.d
    exec (.brev f) s = aluT1 s f w fun _ a =>
      (List.range w).foldl (fun acc i => acc + bits01 (a.testBit (w - 1 - i)) * 2 ^ i) 0 := by rfl
theorem bits01_eq_toNat (b : Bool) : bits01 b = b.toNat := by cases b <;> rfl
/-- A number's low bits, each at its place, make up its residue. -/
theorem foldl_bits (x w : Nat) : (List.range w).foldl (fun acc i => acc + bits01 (x.testBit i) * 2 ^ i) 0 = x % 2 ^ w := by
  induction w with
  | zero => simp [Nat.mod_one]
  | succ w ih =>
    rw [List.range_succ, List.foldl_append, ih, mod_two_pow_succ, ← bits01_eq_toNat, Nat.mul_comm (2 ^ w)]
    rfl
theorem foldl_reversed_bits (a w : Nat) :
    (List.range w).foldl (fun acc i => acc + bits01 (a.testBit (w - 1 - i)) * 2 ^ i) 0 =
      (BitVec.ofNat w a).reverse.toNat := by
  have hbit : ∀ i ∈ List.range w, a.testBit (w - 1 - i) = (BitVec.ofNat w a).reverse.toNat.testBit i := by
    intro i hi
    have hw : i < w := List.mem_range.1 hi
    have hmirror : w - 1 - i < w := by omega
    rw [BitVec.testBit_toNat, BitVec.getLsbD_reverse, BitVec.getMsbD_eq_getLsbD, BitVec.getLsbD_ofNat]
    simp [hw, hmirror]
  rw [List.foldl_ext _ (fun acc i => acc + bits01 ((BitVec.ofNat w a).reverse.toNat.testBit i) * 2 ^ i) 0
    fun acc i hi => by rw [hbit i hi], foldl_bits, Nat.mod_eq_of_lt (BitVec.isLt _)]

/-! ## Bit fields (R130) -/

theorem exec_bfx (f : FmtT) (s : State) : let w := dBits f.d
    exec (.bfx f) s = aluT2 s f w 32 fun _ a b =>
      let n := fieldLen w b
      let x := a / 2 ^ fld b 0 8 % 2 ^ n
      if n = 0 then 0 else if fnSigned f.fn then (sgn x n % 2 ^ w).toNat else x := by rfl
theorem exec_bfi (f : FmtT) (s : State) : let w := dBits f.d
    exec (.bfi f) s = aluT3 s f w 32 w fun _ a b c =>
      let n := fieldLen w b
      let pos := fld b 0 8
      if n = 0 then c else c - c / 2 ^ pos % 2 ^ n * 2 ^ pos + a % 2 ^ n * 2 ^ pos := by rfl
theorem exec_bytp (f : FmtT) (s : State) : exec (.bytp f) s = aluT3 s f 32 32 32 fun _ a b c =>
    (List.range 4).foldl (fun acc j => acc + bytpByte (b * 2 ^ 32 + a) (fld c (4 * j) 4) * 2 ^ (8 * j)) 0 := by rfl

theorem fld_pos (b : Nat) : fld b 0 8 = b % 256 := by simp [fld]
theorem fieldLen_eq (w b : Nat) :
    fieldLen w b = if w ≤ b % 256 then 0 else min (b / 256 % 256) (w - b % 256) := by
  simp only [fieldLen, fld_pos, show fld b 8 8 = b / 256 % 256 from rfl]
  by_cases hpos : w ≤ b % 256
  · simp [hpos]
  · by_cases hlen : b / 256 % 256 = 0 <;> simp [hpos, hlen]
theorem fieldLen_le (w b : Nat) : fieldLen w b ≤ w := by
  rw [fieldLen_eq]
  split <;> omega
/-- A field of `n` bits, sign-extended to `w` bits. -/
theorem sgn_wrap {n w x : Nat} (hn : n ≤ w) (hx : x < 2 ^ n) :
    (sgn x n % 2 ^ w).toNat = if 2 ^ (n - 1) ≤ x then 2 ^ w - 2 ^ n + x else x := by
  have hpow : 2 ^ n ≤ 2 ^ w := Nat.pow_le_pow_right (by decide) hn
  unfold sgn
  by_cases hneg : 2 ^ (n - 1) ≤ x
  · have hval : (x : Int) - 2 ^ n = ((2 ^ w - 2 ^ n + x : Nat) : Int) - 2 ^ w := by
      push_cast [hpow]
      ring
    rw [if_neg (by omega), if_pos hneg, hval, Int.sub_emod_right]
    exact_mod_cast Nat.mod_eq_of_lt (by omega)
  · rw [if_pos (by omega), if_neg hneg]
    exact_mod_cast Nat.mod_eq_of_lt (by omega)
/-- BFX's result of a field of `n` bits; the empty field is 0. -/
theorem extracted_eq (signed : Bool) {n w : Nat} (hn : n ≤ w) (y : Nat) :
    (if n = 0 then 0 else if signed then (sgn (y % 2 ^ n) n % 2 ^ w).toNat else y % 2 ^ n) =
      if signed = true ∧ n ≠ 0 ∧ 2 ^ (n - 1) ≤ y % 2 ^ n then 2 ^ w - 2 ^ n + y % 2 ^ n else y % 2 ^ n := by
  by_cases h : n = 0
  · simp [h, Nat.mod_one]
  · rw [sgn_wrap hn (Nat.mod_lt _ (Nat.two_pow_pos n))]
    cases signed <;> simp [h]
/-- BFI's result; the empty field leaves C as it is. -/
theorem inserted_eq (n pos a c : Nat) :
    (if n = 0 then c else c - c / 2 ^ pos % 2 ^ n * 2 ^ pos + a % 2 ^ n * 2 ^ pos) =
      c - c / 2 ^ pos % 2 ^ n * 2 ^ pos + a % 2 ^ n * 2 ^ pos := by
  split
  next h => simp [h, Nat.mod_one]
  next => rfl
theorem bytpByte_eq (src sel : Nat) : bytpByte src sel =
    if sel < 8 then src / 2 ^ (8 * (sel % 8)) % 256
    else if 128 ≤ src / 2 ^ (8 * (sel % 8)) % 256 then 255 else 0 := by
  show (if 8 ≤ sel then _ else _) = _
  by_cases h : sel < 8
  · rw [if_neg (by omega), if_pos h]
    rfl
  · rw [if_pos (by omega), if_neg h]
    rfl

/-! ## The obligation -/

/-- Settles O10: logic and SAR are operations of bit vectors, the counts are places in the list of bits, and a field is cut to
what the operand holds. -/
theorem bitwiseInstructions : Obligations.BitwiseInstructions := by
  unfold Obligations.BitwiseInstructions
  refine ⟨fun f => ⟨?_, ?_, ?_, ?_, ?_, ?_, ?_, ?_, ?_, ?_, ?_⟩, fun f => ⟨?_, ?_, ?_⟩, fun f => ⟨?_, ?_, ?_⟩, fun f => ?_⟩
  · refine computes2_of (fun s => logic2_eq s f (· &&& ·)) fun _ a b => ?_
    rw [BitVec.ofNat_and]
  · refine computes2_of (fun s => logic2_eq s f (· ||| ·)) fun _ a b => ?_
    rw [BitVec.ofNat_or]
  · refine computes2_of (fun s => logic2_eq s f (· ^^^ ·)) fun _ a b => ?_
    rw [BitVec.ofNat_xor]
  · refine computes2_of (fun s => logic2_eq s f fun a b => a &&& compl (dBits f.d) b) fun _ a b => ?_
    rw [BitVec.ofNat_and, compl_eq, BitVec.ofNat_toNat, BitVec.setWidth_eq]
  · exact computes1_of (exec_not f) fun _ a => compl_eq _ a
  · refine computes2_of (fun s => shift_eq s f fun w a b => if w ≤ b then 0 else a * 2 ^ b) fun _ a b => ?_
    rw [apply_ite (· % 2 ^ dBits f.d), Nat.zero_mod, Nat.shiftLeft_eq]
  · refine computes2_of (fun s => shift_eq s f fun w a b => if w ≤ b then 0 else a / 2 ^ b) fun _ a b => ?_
    rw [apply_ite (· % 2 ^ dBits f.d), Nat.zero_mod, Nat.shiftRight_eq_div_pow]
  · refine computes2_of (fun s => shift_eq s f fun w a b => (sgn a w / 2 ^ (min b w) % 2 ^ w).toNat) fun _ a b => ?_
    rw [wrap_eq, BitVec.toNat_mod_cancel, ← wrap_eq]
    split
    next ha => exact sgn_div_two_pow _ _ ha
    next => rfl
  · exact computes2_of (fun s => shift_eq s f fun w a b => a * 2 ^ (b % w) ||| a / 2 ^ (w - b % w)) fun _ _ _ => rfl
  · exact computes3_of (exec_fshl f) fun _ _ _ _ => rfl
  · exact computes3_of (exec_fshr f) fun _ _ _ _ => rfl
  · exact computes1_of (exec_popc f) fun _ a => List.countP_eq_length_filter.symm
  · refine computes1_of (exec_clz f) fun _ a => ?_
    rw [firstIdx_range, takeWhile_zeros_from_top]
  · exact computes1_of (exec_ctz f) fun _ a => firstIdx_range ..
  · exact computes1_of (exec_brev f) fun _ a => foldl_reversed_bits ..
  · refine computes2_of (exec_bfx f) fun _ a b => ?_
    have hfield := extracted_eq (fnSigned f.fn) (fieldLen_le (dBits f.d) b) (a / 2 ^ fld b 0 8)
    rw [fieldLen_eq, fld_pos] at hfield ⊢
    exact hfield
  · refine computes3_of (exec_bfi f) fun _ a b c => ?_
    have hfield := inserted_eq (fieldLen (dBits f.d) b) (fld b 0 8) a c
    rw [fieldLen_eq, fld_pos] at hfield ⊢
    exact hfield
  · refine computes3_of (exec_bytp f) fun _ a b c => ?_
    simp only [bytpByte_eq]
    simp [List.range_succ, fld]

end Sys2Proof.Machine
end

-- Binary32 arithmetic, packed halves and dot products (R142 to R150)
section
/-! The equation of each floating-point instruction, and the obligations on binary32 arithmetic, packed halves and dot
products. -/

namespace Sys2Proof.Machine

/-! ## Binary32 (R142 to R145, R150) -/

section
variable (f : FmtT) (s : State)
theorem exec_fadd : exec (.fadd f) s = float2 s f El.add := by rfl
theorem exec_fsub : exec (.fsub f) s = float2 s f fun r a b => a.add r b.negate := by rfl
theorem exec_fmul : exec (.fmul f) s = float2 s f fun _ a b => a.mul b := by rfl
theorem exec_ffma : exec (.ffma f) s = aluT3 s f 32 32 32 fun p a b c =>
    fin32 p (((rd32 p a).mul (rd32 p b)).add (pfxRm p) (rd32 p c)) := by rfl
theorem exec_fmin : exec (.fmin f) s = float2 s f fun _ a b => a.minNum b := by rfl
theorem exec_fmax : exec (.fmax f) s = float2 s f fun _ a b => a.maxNum b := by rfl
theorem exec_frnd : exec (.frnd f) s = aluT1 s f 32 fun p a => fin32 p ((rd32 p a).integral (pfxRm p)) := by rfl
theorem exec_fdiv : exec (.fdiv f) s = aluT2 s f 32 32 fun p a b => fin32 p (fdivEl (rd32 p a) (rd32 p b)) := by rfl
theorem exec_sqrt : exec (.sqrt f) s = aluT1 s f 32 fun p a => fin32 p (sqrtEl (rd32 p a)) := by rfl
theorem exec_fclass : exec (.fclass f) s = aluT1 s f 32 fun _ a =>
    2 ^ fclassBit (fmtOf f.fn.toNat) (a % 2 ^ (fmtOf f.fn.toNat).bits) := by rfl
end

theorem float2_computes {i : Instr} {f : FmtT} {op : Rnd → El → El → El} (he : ∀ s, exec i s = float2 s f op) :
    Computes2 i f 32 32 fun p a b => fin32 p (op (pfxRm p) (rd32 p a) (rd32 p b)) :=
  computes2_of he fun _ _ _ => rfl

/-- The sign that FSGN gives its result from the operands' sign bits (R144). -/
def fsgnBit (fn : BitVec 3) (a b : Nat) : Nat :=
  match fn.toNat with
  | 0 => b / 2 ^ 31 % 2
  | 1 => 1 - b / 2 ^ 31 % 2
  | 2 => (a / 2 ^ 31 % 2 + b / 2 ^ 31 % 2) % 2
  | 3 => 0
  | _ => 1 - a / 2 ^ 31 % 2
section
variable {fn : BitVec 3}
theorem fn_le_two (h : fn.toNat ≤ 2) : fn = 0 ∨ fn = 1 ∨ fn = 2 := by bv_omega
theorem three_le_fn (h : 3 ≤ fn.toNat) : fn = 3 ∨ fn = 4 ∨ fn = 5 ∨ fn = 6 ∨ fn = 7 := by bv_omega
theorem fsgnBit_of_le_two (h : fn.toNat ≤ 2) (a b : Nat) : fsgnBit fn a b =
    if fn = 0 then b / 2 ^ 31 % 2 else if fn = 1 then 1 - b / 2 ^ 31 % 2 else (a / 2 ^ 31 + b / 2 ^ 31) % 2 := by
  rcases fn_le_two h with rfl | rfl | rfl
  · rfl
  · rfl
  · exact (Nat.add_mod ..).symm
theorem fsgnBit_of_three_le (h : 3 ≤ fn.toNat) (a b : Nat) :
    fsgnBit fn a b = if fn = 3 then 0 else 1 - a / 2 ^ 31 % 2 := by
  rcases three_le_fn h with rfl | rfl | rfl | rfl | rfl <;> rfl
end
theorem exec_fsgn (f : FmtT) (s : State) : exec (.fsgn f) s = execFsgn f s := by rfl
theorem exec_fsgn_of_le_two {f : FmtT} (h : f.fn.toNat ≤ 2) (s : State) :
    exec (.fsgn f) s = aluT2 s f 32 32 fun _ a b => a % 2 ^ 31 + fsgnBit f.fn a b * 2 ^ 31 := by
  rw [exec_fsgn, execFsgn]
  rcases fn_le_two h with hfn | hfn | hfn <;> simp [fsgnBit, hfn]
/-- Of FN 3 and above FSGN reads A alone. -/
theorem exec_fsgn_of_three_le {f : FmtT} (h : 3 ≤ f.fn.toNat) (s : State) :
    exec (.fsgn f) s = aluT1 s f 32 fun _ a => a % 2 ^ 31 + fsgnBit f.fn a 0 * 2 ^ 31 := by
  rw [exec_fsgn, execFsgn]
  rcases three_le_fn h with hfn | hfn | hfn | hfn | hfn <;> simp [fsgnBit, hfn]

/-- Settles O11: each instruction is its element operation between one reading and one rounding; FSGN takes its sign from
what the two halves of its table name. -/
theorem binary32Arithmetic : Obligations.Binary32Arithmetic := by
  unfold Obligations.Binary32Arithmetic
  intro f
  refine ⟨float2_computes (exec_fadd f), float2_computes (exec_fsub f), float2_computes (exec_fmul f),
    computes3_of (exec_ffma f) fun _ _ _ _ => rfl, float2_computes (exec_fmin f), float2_computes (exec_fmax f),
    computes1_of (exec_frnd f) fun _ _ => rfl, computes2_of (exec_fdiv f) fun _ _ _ => rfl,
    computes1_of (exec_sqrt f) fun _ _ => rfl, computes1_of (exec_fclass f) fun _ _ => rfl, fun h => ?_, fun h => ?_⟩
  · refine computes2_of (exec_fsgn_of_le_two h) fun _ a b => ?_
    rw [fsgnBit_of_le_two h, Nat.mul_comm]
  · refine computes1_of (exec_fsgn_of_three_le h) fun _ a => ?_
    rw [fsgnBit_of_three_le h, Nat.mul_comm]

/-! ## Packed halves (R147), dot products (R148, R149) -/

theorem packed_eq (f : FFmt) (p : Option Pfx) (op : Nat → El) : packed f p op =
    fround f (pfxRm p) (pfxSat p) (pfxFtz p) (op 0) + fround f (pfxRm p) (pfxSat p) (pfxFtz p) (op 1) * 2 ^ 16 := rfl
theorem packed2_eq (s : State) (f : FmtT) (op : Rnd → El → El → El) : packed2 s f op = aluT2 s f 32 32 fun p a b =>
    packed (halfFmt f.fn) p fun e => op (pfxRm p) (fread (halfFmt f.fn) (pfxDaz p) (half a e))
      (fread (halfFmt f.fn) (pfxDaz p) (half b e)) := rfl
section
variable (f : FmtT) (s : State)
theorem exec_hadd2 : exec (.hadd2 f) s = packed2 s f El.add := by rfl
theorem exec_hmul2 : exec (.hmul2 f) s = packed2 s f fun _ a b => a.mul b := by rfl
theorem exec_hmin2 : exec (.hmin2 f) s = packed2 s f fun _ a b => a.minNum b := by rfl
theorem exec_hmax2 : exec (.hmax2 f) s = packed2 s f fun _ a b => a.maxNum b := by rfl
end

theorem packed2_halves {i : Instr} {f : FmtT} {op : Rnd → El → El → El} (he : ∀ s, exec i s = packed2 s f op) :
    let rd (p : Option Pfx) (x : Nat) : El := fread (halfFmt f.fn) (pfxDaz p) x
    let rnd (p : Option Pfx) (x : El) : Nat := fround (halfFmt f.fn) (pfxRm p) (pfxSat p) (pfxFtz p) x
    Computes2 i f 32 32 fun p a b =>
      rnd p (op (pfxRm p) (rd p (a % 2 ^ 16)) (rd p (b % 2 ^ 16))) +
        rnd p (op (pfxRm p) (rd p (a / 2 ^ 16 % 2 ^ 16)) (rd p (b / 2 ^ 16 % 2 ^ 16))) * 2 ^ 16 := by
  refine computes2_of (fun s => (he s).trans (packed2_eq s f op)) fun p a b => ?_
  simp only [packed_eq, half_zero, half_one]

section
variable (f : FmtT) (s : State)
theorem exec_hfma2 : exec (.hfma2 f) s = aluT3 s f 32 32 32 fun p a b c => packed (halfFmt f.fn) p fun e =>
    ((fread (halfFmt f.fn) (pfxDaz p) (half a e)).mul (fread (halfFmt f.fn) (pfxDaz p) (half b e))).add (pfxRm p)
      (fread (halfFmt f.fn) (pfxDaz p) (half c e)) := by rfl
theorem exec_dot2 : exec (.dot2 f) s = aluT3 s f 32 32 32 fun p a b c =>
    fin32 p (El.sum (pfxRm p) (((List.range 2).map fun e => (fread (halfFmt f.fn) (pfxDaz p) (half a e)).mul
      (fread (halfFmt f.fn) (pfxDaz p) (half b e))) ++ [rd32 p c])) := by rfl
theorem exec_dot4 : exec (.dot4 f) s = aluT3 s f 32 32 32 fun p a b c =>
    fin32 p (El.sum (pfxRm p) (((List.range 4).map fun e =>
      (fread (if f.fn.getLsbD 0 then e5m2 else e4m3) false (fld a (8 * e) 8)).mul
        (fread (if f.fn.getLsbD 1 then e5m2 else e4m3) false (fld b (8 * e) 8))) ++ [rd32 p c])) := by rfl
theorem exec_idot4 : exec (.idot4 f) s = aluT3 s f 32 32 32 fun p a b c =>
    wrapSat (pfxSat p) true 32 ((List.range 4).foldl (fun acc e =>
      acc + ival (!f.fn.getLsbD 0) 8 (fld a (8 * e) 8) * ival (!f.fn.getLsbD 1) 8 (fld b (8 * e) 8))
        (ival true 32 c)) := by rfl
end
theorem range_two : List.range 2 = [0, 1] := rfl

/-- Settles O12: the list of elements of each instruction, written out. -/
theorem packedAndDotProducts : Obligations.PackedAndDotProducts := by
  unfold Obligations.PackedAndDotProducts
  intro f
  refine ⟨packed2_halves (exec_hadd2 f), packed2_halves (exec_hmul2 f), computes3_of (exec_hfma2 f) fun p a b c => ?_,
    packed2_halves (exec_hmin2 f), packed2_halves (exec_hmax2 f), computes3_of (exec_dot2 f) fun p a b c => ?_,
    computes3_of (exec_dot4 f) fun p a b c => ?_, computes3_of (exec_idot4 f) fun p a b c => ?_⟩
  · simp only [packed_eq, half_zero, half_one]
  · simp only [range_two, List.map_cons, List.map_nil, List.cons_append, List.nil_append, half_zero, half_one]
  · rfl
  · rw [wrapSat_eq, ← wrap_eq]
    rfl

end Sys2Proof.Machine
end

-- Exchanges between lanes (R151 to R162)
section
/-! What the two passes of an exchange leave, the network of a permutation register, and the obligations on the moves between
lanes, scans, votes, MATCH and the permutation registers. -/

namespace Sys2Proof.Machine

/-! ## The two passes (R151, R152) -/

theorem nodup_lanes (c : Ctx) : c.lanes.Nodup := (lanesOf_nodup _).filter _
theorem lt_of_mem_lanes {c : Ctx} {l : Nat} (hl : l ∈ c.lanes) : l < 32 :=
  lt_of_mem_lanesOf (List.mem_filter.1 hl).1
theorem operand_of_sameVals {r q : RegFile} (h : SameVals r q) (x : Src) (l w : Nat) :
    r.operand x l w = q.operand x l w := operand_congr w fun p _ => h p.1 p.2

/-- A loop over lanes that read nothing meets no fault. -/
theorem laneLoop_of_no_reads (f : RegFile → Nat → RegFile) (ls : List Nat) (r : RegFile) :
    laneLoop (fun _ => []) f ls r = (ls.foldl f r, none) := by
  induction ls generalizing r with
  | nil => rfl
  | cons i ls ih => exact ih (f r i)
/-- The write pass: each lane's words hold its result, and no other word has changed. -/
theorem foldl_writeBack_spec {ls : List Nat} (hn : ls.Nodup) (hls : ∀ i ∈ ls, i < 32) (m : Mods) {d : Dst}
    (hd : d.isS = false) (x : Nat → Nat) (r : RegFile) :
    let q := ls.foldl (fun q i => q.writeBack m d i (x i)) r
    (∀ i ∈ ls, ∀ p ∈ backWords m d i, (q.get p.1 p.2).val = ((r.writeBack m d i (x i)).get p.1 p.2).val) ∧
      ∀ p : Bank × Nat, (∀ i ∈ ls, p ∉ backWords m d i) → (q.get p.1 p.2).val = (r.get p.1 p.2).val := by
  have hlocal : LaneLocal ls (fun _ => []) (backWords m d) fun q i => q.writeBack m d i (x i) :=
    laneLocal_back hls m hd ownWords_nil (fun _ => false) (fun _ => x) fun _ _ _ _ => rfl
  obtain ⟨-, hval, hkeep⟩ := laneLoop_spec hlocal hn r fun _ _ => readable_nil
  rw [laneLoop_of_no_reads] at hval hkeep
  exact ⟨hval, hkeep⟩

section
variable {s : State} {c : Ctx} (h : s.ctx = some c)
include h

/-- The end of an instruction that leaves the registers `r` and a group that keeps the split table. -/
theorem regDone_leaves (r : RegFile) {g : Group} (hsplit : g.split = c.grp.split) {written : Bank × Nat → Prop}
    (hr : ∀ b k, b ≠ .l → ¬ written (b, k) → (r.get b k).val = (c.regs.get b k).val) (sp : Bool) (n : Nat) :
    let t := s.regDone { c with grp := g } r none 0 sp n
    Only s t ∧ Completes s t c g written ∧ ∀ b k, b ≠ .l → (t.regsOf c.g c.t).get b k = r.get b k := by
  have hget : ∀ b k, b ≠ .l → (RegFile.of (g.withRegs r) (c.trk.withRegs r)).get b k = r.get b k := by
    intro b k hb
    cases b <;> rfl
  obtain ⟨hcompl, hregs⟩ := advance_completes_with (u := s.countErrors c r) (g := g) (x := g.withRegs r)
    (trk := c.trk.withRegs r) h (by rw [countErrors_eq]) (by rw [countErrors_eq]) rfl hsplit
    (fun b k hb hw => by rw [hget b k hb, hr b k hb hw]) sp n
  exact ⟨(countErrors_only s c r).trans (advance_only ..), hcompl, fun b k hb => by rw [← hget b k hb]; exact hregs b k hb⟩

/-- The end of an instruction that leaves the registers `q`, in which the write pass of the lanes `ls` is complete. -/
theorem regDone_writes {g : Group} (hsplit : g.split = c.grp.split) {m : Mods} {d : Dst} {ls : List Nat} {x : Nat → Nat}
    {r q : RegFile} (hvals : SameVals r c.regs)
    (hval : ∀ i ∈ ls, ∀ p ∈ backWords m d i, (q.get p.1 p.2).val = ((r.writeBack m d i (x i)).get p.1 p.2).val)
    (hkeep : ∀ p : Bank × Nat, (∀ i ∈ ls, p ∉ backWords m d i) → (q.get p.1 p.2).val = (r.get p.1 p.2).val)
    (sp : Bool) (n : Nat) :
    let t := s.regDone { c with grp := g } q none 0 sp n
    Only s t ∧
      (m.nwb = false → ∀ l ∈ ls, (t.regsOf c.g c.t).value (dstWords d l) = x l % 2 ^ (32 * Width.count d.width)) ∧
      Completes s t c g fun w => m.nwb = false ∧ ∃ l ∈ ls, w ∈ dstWords d l := by
  intro t
  obtain ⟨honly, hcompl, hget⟩ := regDone_leaves h q hsplit (written := fun w => m.nwb = false ∧
    ∃ l ∈ ls, w ∈ dstWords d l) (fun b k hb hw => by
      rw [← hvals b k]
      refine hkeep (b, k) fun l hl hp => ?_
      rcases mem_backWords.1 hp with ⟨hn, hp⟩ | ⟨-, hp⟩
      · exact hw ⟨hn, l, hl, hp⟩
      · exact hb (congrArg Prod.fst hp)) sp n
  refine ⟨honly, fun hn l hl => ?_, hcompl⟩
  rw [← writeBack_value r m d l (x l) hn]
  refine value_congr fun p hp => ?_
  rw [hget _ _ (not_latch_of_mem hp), hval l hl p (mem_backWords.2 (.inl ⟨hn, hp⟩))]

/-- What an exchange does with no executing lane. -/
theorem runExchange_idle (hidle : c.lanes = []) (f : FmtT) (reads : Nat → List (Bank × Nat))
    (res : Ctx → RegFile → List Nat → Nat → Nat) (grp : Ctx → RegFile → List Nat → Group) :
    runExchange s f reads res grp = .next (s.advance c c.grp c.trk f.m.sp 1) := by
  simp [runExchange, onTrack, h, hidle]

/-- What an exchange does with the lanes that execute. -/
theorem runExchange_spec (hlanes : c.lanes ≠ []) {f : FmtT} {reads : Nat → List (Bank × Nat)}
    (hread : ∀ l ∈ c.lanes, Readable c.regs (reads l)) {res : Ctx → RegFile → List Nat → Nat → Nat}
    (hres : ∀ r, SameVals r c.regs → res c r c.lanes = res c c.regs c.lanes)
    {grp : Ctx → RegFile → List Nat → Group} {g : Group} (hgrp : ∀ r, SameVals r c.regs → grp c r c.lanes = g)
    (hsplit : g.split = c.grp.split) :
    ∃ t, runExchange s f reads res grp = .next t ∧ Only s t ∧
      (f.m.nwb = false →
        (f.d.isS = false → ∀ l ∈ c.lanes, (t.regsOf c.g c.t).value (dstWords f.d l) =
          res c c.regs c.lanes l % 2 ^ (32 * Width.count f.d.width)) ∧
        (f.d.isS = true → (t.regsOf c.g c.t).value (dstWords f.d 0) =
          res c c.regs c.lanes 0 % 2 ^ (32 * Width.count f.d.width))) ∧
      Completes s t c g fun w => f.m.nwb = false ∧
        ((f.d.isS = false ∧ ∃ l ∈ c.lanes, w ∈ dstWords f.d l) ∨ (f.d.isS = true ∧ w ∈ dstWords f.d 0)) := by
  obtain ⟨r, hloop, hvals⟩ := laneLoop_reads (nodup_lanes c) hread
  have hloop' : laneLoop reads (fun r _ => r) c.lanes (RegFile.of c.grp c.trk) = (r, none) := hloop
  have hne : c.lanes.isEmpty = false := by simpa using hlanes
  simp only [runExchange, onTrack, h, hne, hloop', hgrp r hvals, hres r hvals, Bool.false_eq_true, if_false]
  cases hd : f.d.isS
  · obtain ⟨hval, hkeep⟩ := foldl_writeBack_spec (nodup_lanes c) (fun _ => lt_of_mem_lanes) f.m hd
      (res c c.regs c.lanes) r
    obtain ⟨honly, hvalue, hcompl⟩ := regDone_writes h hsplit hvals hval hkeep f.m.sp (2 * laneSteps c.lanes.length)
    exact ⟨_, rfl, honly, fun hn => ⟨fun _ => hvalue hn, nofun⟩, by simpa using hcompl⟩
  · obtain ⟨honly, hvalue, hcompl⟩ := regDone_writes h hsplit (ls := [0]) (x := res c c.regs c.lanes) hvals
      (fun i hi p _ => by rw [List.mem_singleton.1 hi]) (fun p hp => congrArg RegWord.val
        (writeBack_get_ne r f.m f.d 0 _ (hp 0 (List.mem_singleton.2 rfl)))) f.m.sp (laneSteps c.lanes.length)
    exact ⟨_, rfl, honly, fun hn => ⟨nofun, fun _ => hvalue hn 0 (List.mem_singleton.2 rfl)⟩, by simpa using hcompl⟩
end

/-- An exchange that leaves its group as it was does what its equation says of the registers as they stood. -/
theorem runExchange_exchanges {i : Instr} {f : FmtT} {reads : Nat → List (Bank × Nat)}
    {res : Ctx → RegFile → List Nat → Nat → Nat} (he : ∀ s, exec i s = runExchange s f reads res)
    (hres : ∀ c r q ls, SameVals r q → res c r ls = res c q ls) : Exchanges i f reads res := by
  intro s c h
  rw [he]
  exact ⟨fun hidle => ⟨_, runExchange_idle h hidle .., advance_completes h f.m.sp 1⟩,
    fun hlanes hread => runExchange_spec h hlanes hread (fun r hr => hres c r c.regs c.lanes hr) (fun _ _ => rfl) rfl⟩

theorem Exchanges.congr {i : Instr} {f : FmtT} {reads : Nat → List (Bank × Nat)}
    {res res' : Ctx → RegFile → List Nat → Nat → Nat} (h : Exchanges i f reads res)
    (hres : ∀ c r ls l, res c r ls l = res' c r ls l) : Exchanges i f reads res' := by
  obtain rfl : res = res' := funext fun c => funext₃ (hres c)
  exact h

/-! ## Moves between lanes (R153) -/

/-- What lane `l` gets whose source is lane `src` (R153). -/
def pickLane (f : FmtT) (r : RegFile) (ls : List Nat) (l : Nat) (src : Int) : Nat :=
  if 0 ≤ src ∧ src.toNat ∈ ls then r.operand f.a src.toNat (dBits f.d) else r.operand f.c l (dBits f.d)
theorem pickLane_congr (f : FmtT) {r q : RegFile} (h : SameVals r q) (ls : List Nat) (l : Nat) (src : Int) :
    pickLane f r ls l src = pickLane f q ls l src := by
  simp only [pickLane, operand_of_sameVals h]
theorem moveLanes_eq (s : State) (f : FmtT) (bWords : Nat → List (Bank × Nat)) (src : Ctx → RegFile → Nat → Int) :
    moveLanes s f bWords src = runExchange s f (fun l => srcWords f.a l ++ bWords l ++ srcWords f.c l)
      fun c r ls l => pickLane f r ls l (src c r l) := by
  simp only [moveLanes, pickLane, List.contains_iff_mem]
/-- A move whose source lanes depend on the values of the registers alone. -/
theorem moveLanes_exchanges {i : Instr} {f : FmtT} {bWords : Nat → List (Bank × Nat)} {src : Ctx → RegFile → Nat → Int}
    (he : ∀ s, exec i s = moveLanes s f bWords src) (hsrc : ∀ c r q, SameVals r q → src c r = src c q) :
    Exchanges i f (fun l => srcWords f.a l ++ bWords l ++ srcWords f.c l)
      fun c r ls l => pickLane f r ls l (src c r l) := by
  refine runExchange_exchanges (fun s => (he s).trans (moveLanes_eq s f bWords src)) fun c r q ls h => ?_
  funext l
  rw [pickLane_congr f h, hsrc c r q h]

section
variable (f : FmtT) (s : State)
theorem exec_xshf : exec (.xshf f) s = moveLanes s f (srcWords f.b) fun _ r l =>
    if f.fn = 0 then (l : Int) - bLane f r l else (l : Int) + bLane f r l := by rfl
theorem exec_xrot : exec (.xrot f) s = moveLanes s f (srcWords f.b) fun _ r l =>
    (if f.fn = 0 then (l : Int) - bLane f r l else (l : Int) + bLane f r l) % 32 := by rfl
theorem exec_xbfly : exec (.xbfly f) s =
    moveLanes s f (srcWords f.b) fun _ r l => (l ^^^ (bLane f r l % 32) : Nat) := by rfl
theorem exec_xbcst : exec (.xbcst f) s = moveLanes s f (srcWords f.b) fun _ r l => (bLane f r l % 32 : Nat) := by rfl
theorem exec_xperm : exec (.xperm f) s = moveLanes s f (fun _ => []) fun c _ l =>
    ((benes (look 0 f.fn.toNat c.grp.xc).toNat).getD l 0 : Nat) := by rfl
end

/-! ## The network of a permutation register (R158, R159) -/

theorem setNth_eq_set {α : Type} (n : Nat) (v : α) (l : List α) : setNth n v l = l.set n v := by
  induction l generalizing n with
  | nil => simp [setNth]
  | cons x l ih => cases n <;> simp [setNth, ih]

/-- Two entries of a list exchanged. -/
theorem getD_exchange {v : List Nat} {p q : Nat} (hp : p < v.length) (hq : q < v.length) (i : Nat) :
    (setNth p (v.getD q 0) (setNth q (v.getD p 0) v)).getD i 0 =
      v.getD (if i = p then q else if i = q then p else i) 0 := by
  simp only [setNth_eq_set, List.getD_eq_getElem?_getD, List.getElem?_set, List.length_set, hp, hq, if_true, @eq_comm _ p i,
    @eq_comm _ q i]
  split
  · simp
  · split <;> simp

/-- The switch of position `p` at a stage that exchanges over bit `b` (R158). -/
def switchOf (b p : Nat) : Nat := p / 2 ^ (b + 1) * 2 ^ b + p % 2 ^ b
/-- The two positions of a switch are each other's partners. -/
theorem switchPos_spec : ∀ b < 5, ∀ j < 16, switchPos b j + 2 ^ b < 32 ∧ switchOf b (switchPos b j) = j ∧
    switchOf b (switchPos b j + 2 ^ b) = j ∧ switchPos b j ^^^ 2 ^ b = switchPos b j + 2 ^ b ∧
    (switchPos b j + 2 ^ b) ^^^ 2 ^ b = switchPos b j := by decide
theorem switchOf_spec : ∀ b < 5, ∀ p < 32, switchOf b p < 16 ∧ p ^^^ 2 ^ b < 32 ∧
    (p = switchPos b (switchOf b p) ∨ p = switchPos b (switchOf b p) + 2 ^ b) := by decide

/-- Where the value at position `p` after a stage stood before it (R159). -/
def crossed (xc stage p : Nat) : Nat :=
  if xc.testBit (16 * stage + switchOf (stageBit stage) p) then p ^^^ 2 ^ stageBit stage else p
theorem stageBit_lt {stage : Nat} (h : stage < 9) : stageBit stage < 5 := by
  unfold stageBit
  split <;> omega
theorem crossed_lt {xc stage p : Nat} (hs : stage < 9) (hp : p < 32) : crossed xc stage p < 32 := by
  obtain ⟨-, hlt, -⟩ := switchOf_spec _ (stageBit_lt hs) p hp
  unfold crossed
  split
  · exact hlt
  · exact hp

/-- The switches below `n` of a stage that are crossed have exchanged their values, and the others have not. -/
theorem foldl_switches {xc stage : Nat} (hs : stage < 9) {val : List Nat} (hval : val.length = 32) {n : Nat} (hn : n ≤ 16) :
    let b := stageBit stage
    let out := (List.range n).foldl (fun v j =>
      let p := switchPos b j
      if xc.testBit (16 * stage + j) then setNth p (v.getD (p + 2 ^ b) 0) (setNth (p + 2 ^ b) (v.getD p 0) v) else v) val
    out.length = 32 ∧ ∀ i < 32, out.getD i 0 = val.getD (if switchOf b i < n then crossed xc stage i else i) 0 := by
  intro b
  have hb : b < 5 := stageBit_lt hs
  induction n with
  | zero => exact ⟨hval, fun i _ => by simp⟩
  | succ n ih =>
    obtain ⟨hlen, hget⟩ := ih (by omega)
    obtain ⟨hlt, hsw, hsw', hxor, hxor'⟩ := switchPos_spec b hb n (by omega)
    rw [List.range_succ, List.foldl_append]
    simp only [List.foldl_cons, List.foldl_nil]
    generalize hout : List.foldl _ val (List.range n) = out at hlen hget ⊢
    have hcrossed {i : Nat} (hi : switchOf b i = n) :
        crossed xc stage i = if xc.testBit (16 * stage + n) then i ^^^ 2 ^ b else i := by rw [← hi]; rfl
    have hlow : switchPos b n < 32 := (Nat.le_add_right ..).trans_lt hlt
    have hother {i : Nat} (hi : switchOf b i ≠ n) : switchOf b i < n + 1 ↔ switchOf b i < n := by omega
    split
    next hbit =>
      refine ⟨by simp [setNth_eq_set, hlen], fun i hi => ?_⟩
      rw [getD_exchange (hlen ▸ hlow) (hlen ▸ hlt)]
      by_cases hp : i = switchPos b n
      · rw [if_pos hp, hget _ hlt, hsw', if_neg (lt_irrefl n), hp, hsw, if_pos n.lt_succ_self, hcrossed hsw, if_pos hbit,
          hxor]
      · by_cases hq : i = switchPos b n + 2 ^ b
        · rw [if_neg hp, if_pos hq, hget _ hlow, hsw, if_neg (lt_irrefl n), hq, hsw', if_pos n.lt_succ_self,
            hcrossed hsw', if_pos hbit, hxor']
        · have hne : switchOf b i ≠ n := fun hi' => by
            obtain ⟨-, -, hside⟩ := switchOf_spec b hb i hi
            rw [hi'] at hside
            exact hside.elim hp hq
          rw [if_neg hp, if_neg hq, hget i hi, if_congr (hother hne) rfl rfl]
    next hbit =>
      refine ⟨hlen, fun i hi => ?_⟩
      rw [hget i hi]
      by_cases hsame : switchOf b i = n
      · rw [hsame, if_neg (lt_irrefl n), if_pos n.lt_succ_self, hcrossed hsame, if_neg hbit]
      · rw [if_congr (hother hsame) rfl rfl]
theorem benesStage_spec {xc stage : Nat} (hs : stage < 9) {val : List Nat} (hval : val.length = 32) :
    (benesStage xc stage val).length = 32 ∧
      ∀ i < 32, (benesStage xc stage val).getD i 0 = val.getD (crossed xc stage i) 0 := by
  obtain ⟨hlen, hget⟩ := foldl_switches (xc := xc) hs hval (n := 16) le_rfl
  refine ⟨hlen, fun i hi => (hget i hi).trans ?_⟩
  rw [if_pos (switchOf_spec _ (stageBit_lt hs) i hi).1]
/-- Through several stages a value's place is found from the last stage to the first. -/
theorem foldl_benesStage (xc : Nat) {stages : List Nat} (hs : ∀ st ∈ stages, st < 9) {val : List Nat}
    (hval : val.length = 32) {i : Nat} (hi : i < 32) : stages.foldr (crossed xc) i < 32 ∧
      (stages.foldl (fun v st => benesStage xc st v) val).getD i 0 = val.getD (stages.foldr (crossed xc) i) 0 := by
  induction stages generalizing val with
  | nil => exact ⟨hi, rfl⟩
  | cons st stages ih =>
    obtain ⟨hst, hrest⟩ := List.forall_mem_cons.1 hs
    obtain ⟨hlen, hget⟩ := benesStage_spec (xc := xc) hst hval
    obtain ⟨hlt, hfold⟩ := ih hrest hlen
    exact ⟨crossed_lt hst hlt, hfold.trans (hget _ hlt)⟩
/-- The lane that a permutation register names (R159). -/
theorem benes_getD (xc : Nat) {i : Nat} (hi : i < 32) : (benes xc).getD i 0 = (List.range 9).foldr (crossed xc) i := by
  obtain ⟨hlt, hget⟩ := foldl_benesStage xc (stages := List.range 9) (fun _ => List.mem_range.1) (val := List.range 32) rfl hi
  rw [benes, hget, List.getD_eq_getElem _ _ (by simpa using hlt), List.getElem_range]

/-! ## Scans, reductions and votes (R154 to R156) -/

/-- The answer of a vote over the values of the executing lanes (R156). -/
def voteOf (fn : BitVec 3) (val : Nat → Nat) (ls : List Nat) : Nat :=
  match fn.toNat with
  | 0 => (maskOf (ls.filter fun j => val j != 0)).toNat
  | 1 => bits01 (ls.any fun j => val j != 0)
  | 2 => bits01 (ls.all fun j => val j != 0)
  | _ => bits01 (ls.all fun j => val j == val (ls.headD 0))
section
variable (f : FmtT) (s : State)
theorem exec_xscan : exec (.xscan f) s = runExchange s f (srcWords f.a) fun _ r ls l =>
    (carry (ctlOp f) (fun j => r.operand f.a j 32)
      ((sameSeg f l ls).filter fun j => if f.fn = 0 then decide (j ≤ l) else decide (j < l))).getD (scanId (ctlOp f)) := by
  rfl
theorem exec_xred : exec (.xred f) s = runExchange s f (srcWords f.a) fun _ r ls l =>
    (carry (ctlOp f) (fun j => r.operand f.a j 32) (if f.d.isS then ls else sameSeg f l ls)).getD 0 := by rfl
theorem exec_vote : exec (.vote f) s = runExchange s f (srcWords f.a) fun _ r ls _ =>
    voteOf f.fn (fun j => r.operand f.a j 32) ls := by rfl
end
theorem bits01_any (p : Nat → Bool) (ls : List Nat) : bits01 (ls.any p) = if ∃ j ∈ ls, p j = true then 1 else 0 := by
  rw [bits01, if_congr List.any_eq_true rfl rfl]
theorem bits01_all (p : Nat → Bool) (ls : List Nat) : bits01 (ls.all p) = if ∀ j ∈ ls, p j = true then 1 else 0 := by
  rw [bits01, if_congr List.all_eq_true rfl rfl]
theorem voteOf_eq (fn : BitVec 3) (val : Nat → Nat) (ls : List Nat) : voteOf fn val ls =
    if fn = 0 then (maskOf (ls.filter fun j => val j != 0)).toNat
    else if fn = 1 then (if ∃ j ∈ ls, val j ≠ 0 then 1 else 0)
    else if fn = 2 then (if ∀ j ∈ ls, val j ≠ 0 then 1 else 0)
    else if ∀ j ∈ ls, val j = val (ls.headD 0) then 1 else 0 := by
  simp only [voteOf, bits01_any, bits01_all, bne_iff_ne, beq_iff_eq]
  rcases Nat.lt_or_ge fn.toNat 3 with h | h
  · rcases fn_le_two (Nat.le_of_lt_succ h) with rfl | rfl | rfl <;> rfl
  · rcases three_le_fn h with rfl | rfl | rfl | rfl | rfl <;> rfl

/-- Settles O17: a move picks a lane, the network of XPERM is the product of its stages, and a scan is a carry through the
lanes of a segment. -/
theorem laneMovesScansAndVotes : Obligations.LaneMovesScansAndVotes := by
  unfold Obligations.LaneMovesScansAndVotes
  refine ⟨⟨fun f => ?_, fun f => ?_, fun f => ?_, fun f => ?_, fun f => ?_, fun x i hi => benes_getD x hi⟩,
    fun f => ?_, fun f => ?_, fun f => ?_, fun a b => ⟨rfl, rfl, rfl, rfl, min_def .., max_def .., rfl, rfl, rfl, rfl, rfl⟩,
    rfl⟩
  · exact moveLanes_exchanges (exec_xshf f) fun _ r q h => by simp only [operand_of_sameVals h]
  · exact moveLanes_exchanges (exec_xrot f) fun _ r q h => by simp only [operand_of_sameVals h]
  · exact moveLanes_exchanges (exec_xbfly f) fun _ r q h => by simp only [operand_of_sameVals h]
  · exact moveLanes_exchanges (exec_xbcst f) fun _ r q h => by simp only [operand_of_sameVals h]
  · have hmove := moveLanes_exchanges (exec_xperm f) fun _ _ _ _ => rfl
    simp only [List.append_nil] at hmove
    exact hmove
  · exact runExchange_exchanges (exec_xscan f) fun _ r q ls h => by simp only [operand_of_sameVals h]
  · exact runExchange_exchanges (exec_xred f) fun _ r q ls h => by simp only [operand_of_sameVals h]
  · refine (runExchange_exchanges (exec_vote f) fun _ r q ls h => ?_).congr fun _ r ls _ => voteOf_eq ..
    simp only [operand_of_sameVals h]

end Sys2Proof.Machine
end

-- MATCH and the permutation registers (R157, R158, R160, R161)
section
/-! The sets of MATCH, the reads of XSET, the two passes of XGEN's placing, and the obligation on them. -/

namespace Sys2Proof.Machine

/-! ## MATCH (R157) -/

theorem frag_of_mem_lanes {c : Ctx} {l : Nat} (hl : l ∈ c.lanes) : c.frag.mask.getLsbD l = true := by
  obtain ⟨-, hact, -⟩ := mem_filter_lanes.1 hl
  have hk0 : c.k0.getLsbD l = true := by
    unfold Ctx.act at hact
    split at hact
    · exact hact
    · rw [BitVec.getLsbD_and, Bool.and_eq_true] at hact
      exact hact.1
  rw [Ctx.k0, Ctx.k, BitVec.getLsbD_and, Bool.and_eq_true] at hk0
  exact hk0.2
/-- A mask in a register of any width has its lanes' bits. -/
theorem testBit_maskOf (ls : List Nat) (w : Width) {j : Nat} (hj : j < 32) :
    ((maskOf ls).toNat % 2 ^ (32 * Width.count w)).testBit j = decide (j ∈ ls) := by
  have hw : j < 32 * Width.count w := by cases w <;> simp only [Width.count] <;> omega
  rw [Nat.testBit_mod_two_pow, decide_eq_true hw, Bool.true_and, BitVec.testBit_toNat, getLsbD_maskOf hj]

/-- Whether the keys of two lanes are equal (R157). -/
def sameKey (f : FmtT) (r : RegFile) (i j : Nat) : Bool :=
  keyEq (f.fn.getLsbD 0) (r.operand f.a i (32 * Width.count f.a.width)) (r.operand f.a j (32 * Width.count f.a.width))
/-- The group that MATCH leaves: the lowest lanes of the sets are in the mask register named. -/
def matchGroup (f : FmtT) (c : Ctx) (r : RegFile) (ls : List Nat) : Group :=
  if f.fn.getLsbD 1 then
    c.kWrite c.grp (f.b.num.toNat % 8) (maskOf (ls.filter fun i => !(ls.any fun j => decide (j < i) && sameKey f r i j)))
      (maskOf ls)
  else c.grp
theorem exec_xmatch (f : FmtT) (s : State) : exec (.xmatch f) s = runExchange s f (srcWords f.a)
    (fun _ r ls i => (maskOf (ls.filter (sameKey f r i))).toNat) (matchGroup f) := by rfl
theorem sameKey_congr (f : FmtT) {r q : RegFile} (h : SameVals r q) : sameKey f r = sameKey f q := by
  funext i j
  simp only [sameKey, operand_of_sameVals h]
theorem matchGroup_eq (f : FmtT) (c : Ctx) (r : RegFile) (ls : List Nat) :
    matchGroup f c r ls = { c.grp with k := (matchGroup f c r ls).k } := by
  unfold matchGroup
  split <;> rfl
theorem matchGroup_lowest {f : FmtT} (hf : f.fn.getLsbD 1 = true) {c : Ctx} (r : RegFile) {l : Nat} (hl : l ∈ c.lanes)
    (hn : l < c.grp.nlanes) : (look 0 (f.b.num.toNat % 8) (matchGroup f c r c.lanes).k).getLsbD l =
      decide (∀ j ∈ c.lanes, j < l → sameKey f r l j = false) := by
  have hlt := lt_of_mem_lanes hl
  rw [matchGroup, if_pos hf, getLsbD_kWrite _ _ _ _ _ hlt, getLsbD_maskOf hlt, getLsbD_maskOf hlt,
    if_pos ⟨decide_eq_true hl, frag_of_mem_lanes hl, hn⟩]
  simp [hl]

section
variable {s : State} {c : Ctx} (h : s.ctx = some c)
include h

theorem xmatch_spec {f : FmtT} (hd : f.d.isS = false) (hlanes : c.lanes ≠ [])
    (hread : ∀ l ∈ c.lanes, Readable c.regs (srcWords f.a l)) :
    ∃ t x, exec (.xmatch f) s = .next t ∧ Only s t ∧ t.group c.g = some x ∧ x.k = (matchGroup f c c.regs c.lanes).k ∧
      Completes s t c { c.grp with k := x.k } (fun w => f.m.nwb = false ∧ ∃ l ∈ c.lanes, w ∈ dstWords f.d l) ∧
      (f.m.nwb = false → ∀ l ∈ c.lanes, ∀ j, j < 32 →
        ((t.regsOf c.g c.t).value (dstWords f.d l)).testBit j = (decide (j ∈ c.lanes) && sameKey f c.regs l j)) := by
  obtain ⟨t, hrun, honly, hval, hcompl⟩ := runExchange_spec h hlanes (f := f) hread
    (res := fun _ r ls i => (maskOf (ls.filter (sameKey f r i))).toNat) (grp := matchGroup f)
    (g := matchGroup f c c.regs c.lanes) (fun r hr => by simp only [sameKey_congr f hr])
    (fun r hr => by simp only [matchGroup, sameKey_congr f hr]) (by rw [matchGroup_eq])
  obtain ⟨x, -, hx, hfields, -⟩ := hcompl.2.2.1
  have hk : x.k = (matchGroup f c c.regs c.lanes).k := by rw [hfields]
  refine ⟨t, x, (exec_xmatch f s).trans hrun, honly, hx, hk, ?_, fun hn l hl j hj => ?_⟩
  · rw [hk, ← matchGroup_eq]
    simpa [hd] using hcompl
  · rw [(hval hn).1 hd l hl, testBit_maskOf _ _ hj]
    simp [List.mem_filter]

/-! ## XSET and XGEN (R160, R161) -/

/-- A group with a permutation register set. -/
def Group.withXc (g : Group) (xd : BitVec 3) (x : BitVec 160) : Group := { g with xc := put 0 xd.toNat x g.xc }

/-- The end of an instruction that has set a permutation register and no word. -/
theorem regDone_setsXc {r : RegFile} (hvals : SameVals r c.regs) (xd : BitVec 3) (x : BitVec 160) (sp : Bool) (n : Nat) :
    let t := s.regDone { c with grp := c.grp.withXc xd x } r none 0 sp n
    Only s t ∧ Completes s t c (c.grp.withXc xd x) noWord := by
  obtain ⟨honly, hcompl, -⟩ := regDone_leaves h r (g := c.grp.withXc xd x) rfl (written := noWord)
    (fun b k _ _ => hvals b k) sp n
  exact ⟨honly, hcompl⟩
/-- XSET takes its setting from five s registers. -/
theorem xset_of_words (hcur : c.run.cursor ≠ some 32) (sp : Bool) (xd : BitVec 3) {sn : BitVec 8}
    (hread : SReadable c ((List.range 5).map (sn.toNat + ·))) : ∃ r, SameVals r c.regs ∧
      exec (.xset sp xd false sn) s = .next (s.regDone { c with grp := c.grp.withXc xd (BitVec.ofNat 160
        (c.regs.value ((List.range 5).map fun j => (Bank.s, sn.toNat + j)) % 2 ^ 144)) } r none 0 sp 1) := by
  have hread' : Readable c.regs ((List.range 5).map fun j => (Bank.s, sn.toNat + j)) := by
    rw [SReadable, List.map_map] at hread
    exact hread
  have hok : ((RegFile.of c.grp c.trk).touchAll ((List.range 5).map fun j => (Bank.s, sn.toNat + j))).2 = false :=
    touchAll_ok _ hread'
  refine ⟨_, touchAll_vals c.regs ((List.range 5).map fun j => (Bank.s, sn.toNat + j)), ?_⟩
  rw [← value_congr fun p _ => touchAll_vals c.regs ((List.range 5).map fun j => (Bank.s, sn.toNat + j)) p.1 p.2]
  show execXset sp xd false sn s = _
  simp only [execXset, onTrack, h, hcur, hok, Bool.false_eq_true, if_false, Bool.not_false, if_true]
  rfl
/-- XSET takes its setting from the scratchpad, where nothing is ordered before the read and no FIFO bank is touched. -/
theorem xset_of_scratch (hcur : c.run.cursor ≠ some 32) (sp : Bool) (xd : BitVec 3) {sn : BitVec 8}
    (hread : SReadable c [sn.toNat]) (hcheck : scratchCheck c.team.size (c.sOf sn.toNat).toNat 20 4 = none)
    (hfree : s.holdsBack c.core c.grid.part c.team c.grp.memq ⟨.scratch, (c.sOf sn.toNat).toNat, 20⟩ = false)
    (hfifo : (s.core c.core).fifoTouch (c.team.base + (c.sOf sn.toNat).toNat) 20 = false) : ∃ r, SameVals r c.regs ∧
      exec (.xset sp xd true sn) s = .next (s.regDone { c with grp := c.grp.withXc xd (BitVec.ofNat 160
        (leNat (s.scrRead c.core (c.team.base + (c.sOf sn.toNat).toNat) 20) % 2 ^ 144)) } r none 0 sp 1) := by
  have hok : ((RegFile.of c.grp c.trk).touchAll ((List.range 1).map fun j => (Bank.s, sn.toNat + j))).2 = false :=
    touchAll_ok _ hread
  have hvals := touchAll_vals c.regs ((List.range 1).map fun j => (Bank.s, sn.toNat + j))
  have haddr : ((RegFile.of c.grp c.trk).touchAll ((List.range 1).map fun j => (Bank.s, sn.toNat + j))).1.value
      ((List.range 1).map fun j => (Bank.s, sn.toNat + j)) = (c.sOf sn.toNat).toNat :=
    (value_congr fun p _ => hvals p.1 p.2).trans (by simp [RegFile.value, Ctx.sOf])
  refine ⟨_, hvals, ?_⟩
  show execXset sp xd true sn s = _
  simp only [execXset, onTrack, h, hcur, hok, haddr, hcheck, hfree, hfifo, Bool.false_eq_true, if_false, Bool.not_true,
    if_true]
  rfl
theorem xgen_next (hlanes : c.lanes ≠ []) (sp : Bool) (xd : BitVec 3) {a : BitVec 8}
    (hread : ∀ l ∈ c.lanes, Readable c.regs [(.v, vkey a.toNat l)]) : ∃ r, SameVals r c.regs ∧
      exec (.xgen sp xd a) s = .next (s.regDone { c with grp := c.grp.withXc xd (xcOf (placeLanes
        (fun l => (c.regs.get .v (vkey a.toNat l)).val.toNat % 32) c.lanes)) } r none 0 sp (laneSteps c.lanes.length)) := by
  obtain ⟨r, hloop, hvals⟩ := laneLoop_reads (nodup_lanes c) hread
  have hloop' : laneLoop (fun i => [(Bank.v, vkey a.toNat i)]) (fun r _ => r) c.lanes (RegFile.of c.grp c.trk) =
    (r, none) := hloop
  have hne : c.lanes.isEmpty = false := by simpa using hlanes
  refine ⟨r, hvals, ?_⟩
  show execXgen sp xd a s = _
  simp only [execXgen, onTrack, h, hne, hloop', hvals .v, Bool.false_eq_true, if_false]
  rfl
end

/-! ## The placing of XGEN (R161) -/

theorem getD_set_of_lt {α : Type} {l : List α} {n : Nat} (hn : n < l.length) (v d : α) (i : Nat) :
    (l.set n v).getD i d = if i = n then v else l.getD i d := by
  simp only [List.getD_eq_getElem?_getD, List.getElem?_set, hn, if_true, @eq_comm _ n i]
  split <;> rfl
theorem some_mem_iff {pi : List (Option Nat)} {a : Nat} : some a ∈ pi ↔ ∃ i, pi.getD i none = some a := by
  simp only [List.mem_iff_getElem?, List.getD_eq_getElem?_getD]
  refine exists_congr fun i => ⟨fun h => by rw [h]; rfl, fun h => ?_⟩
  cases hi : pi[i]? with
  | none => simp [hi] at h
  | some x => simpa [hi] using h

/-- A partial placing of the lanes: no position is given twice. -/
structure Placing (pi : List (Option Nat)) : Prop where
  length : pi.length = 32
  bound : ∀ i a, pi.getD i none = some a → a < 32
  inj : ∀ i j a, pi.getD i none = some a → pi.getD j none = some a → i = j

theorem getD_empty (i : Nat) : (List.replicate 32 (none : Option Nat)).getD i none = none :=
  List.getElem?_getD_replicate_default_eq ..
theorem placing_empty : Placing (List.replicate 32 none) where
  length := List.length_replicate
  bound i a h := by rw [getD_empty] at h; cases h
  inj i j a h := by rw [getD_empty] at h; cases h
theorem Placing.set {pi : List (Option Nat)} (h : Placing pi) {n a : Nat} (hn : n < 32) (ha : a < 32)
    (hfree : some a ∉ pi) : Placing (pi.set n (some a)) := by
  have hget := getD_set_of_lt (l := pi) (h.length ▸ hn) (some a) none
  have hne (i : Nat) : pi.getD i none ≠ some a := fun hi => hfree (some_mem_iff.2 ⟨i, hi⟩)
  refine ⟨by rw [List.length_set, h.length], fun i b hi => ?_, fun i j b hi hj => ?_⟩
  · rw [hget] at hi
    split at hi
    · cases hi
      exact ha
    · exact h.bound i b hi
  · rw [hget] at hi hj
    split at hi
    · split at hj
      · omega
      · cases hi
        exact absurd hj (hne j)
    · split at hj
      · cases hj
        exact absurd hi (hne i)
      · exact h.inj i j b hi hj
/-- While a lane is without a position, a position is left. -/
theorem Placing.exists_free {pi : List (Option Nat)} (h : Placing pi) {n : Nat} (hn : n < 32) (hnone : pi.getD n none = none) :
    ∃ a < 32, some a ∉ pi := by
  by_contra hall
  push Not at hall
  have hsub : none :: (List.range 32).map some ⊆ pi := by
    refine List.cons_subset.2 ⟨?_, fun x hx => ?_⟩
    · rw [← hnone, List.getD_eq_getElem _ _ (h.length ▸ hn)]
      exact List.getElem_mem _
    · obtain ⟨a, ha, rfl⟩ := List.mem_map.1 hx
      exact hall a (List.mem_range.1 ha)
  have hnodup : (none :: (List.range 32).map some).Nodup := by decide
  have := (hnodup.subperm hsub).length_le
  rw [h.length] at this
  exact absurd this (by decide)

/-- Lane `l` is the lowest of the lanes that name its position. -/
def LowestFor (dest : Nat → Nat) (ls : List Nat) (l : Nat) : Prop := l ∈ ls ∧ ∀ j ∈ ls, j < l → dest j ≠ dest l
theorem exists_lowestFor {dest : Nat → Nat} {ls : List Nat} {l : Nat} (hl : l ∈ ls) :
    ∃ i, LowestFor dest ls i ∧ dest i = dest l := by
  classical
  have hex : ∃ i, i ∈ ls ∧ dest i = dest l := ⟨l, hl, rfl⟩
  obtain ⟨hmem, hdest⟩ := Nat.find_spec hex
  exact ⟨Nat.find hex, ⟨hmem, fun j hj hlt hd => Nat.find_min hex hlt ⟨hj, hd.trans hdest⟩⟩, hdest⟩

/-- The first pass of XGEN: the lowest lane that names a position gets it. -/
def placeFirst (dest : Nat → Nat) (ls : List Nat) : List (Option Nat) :=
  ls.foldl (fun pi i => if pi.contains (some (dest i)) then pi else setNth i (some (dest i)) pi) (List.replicate 32 none)
theorem placeFirst_concat (dest : Nat → Nat) (ls : List Nat) (l : Nat) : placeFirst dest (ls ++ [l]) =
    if some (dest l) ∈ placeFirst dest ls then placeFirst dest ls else (placeFirst dest ls).set l (some (dest l)) := by
  rw [placeFirst, List.foldl_append, ← placeFirst]
  simp only [List.foldl_cons, List.foldl_nil, List.contains_iff_mem, setNth_eq_set]
/-- A lane above all others changes nothing for them. -/
theorem lowestFor_concat {dest : Nat → Nat} {ls : List Nat} {l i : Nat} (hlt : ∀ j ∈ ls, j < l) (hi : i ≠ l) :
    LowestFor dest (ls ++ [l]) i ↔ LowestFor dest ls i := by
  constructor
  · rintro ⟨hmem, hmin⟩
    refine ⟨?_, fun j hj => hmin j (List.mem_append_left _ hj)⟩
    simpa [hi] using hmem
  · rintro ⟨hmem, hmin⟩
    refine ⟨List.mem_append_left _ hmem, fun j hj hji => ?_⟩
    rcases List.mem_append.1 hj with hj | hj
    · exact hmin j hj hji
    · obtain rfl := List.mem_singleton.1 hj
      exact absurd (hlt i hmem) hji.not_gt
theorem lowestFor_last {dest : Nat → Nat} {ls : List Nat} {l : Nat} (hlt : ∀ j ∈ ls, j < l) :
    LowestFor dest (ls ++ [l]) l ↔ ¬ ∃ i, LowestFor dest ls i ∧ dest i = dest l := by
  constructor
  · rintro ⟨-, hmin⟩ ⟨i, ⟨hi, -⟩, hd⟩
    exact hmin i (List.mem_append_left _ hi) (hlt i hi) hd
  · refine fun hnone => ⟨by simp, fun j hj hjl hd => ?_⟩
    have hj' : j ∈ ls := by simpa [hjl.ne] using hj
    obtain ⟨i, hi, hd'⟩ := exists_lowestFor (dest := dest) hj'
    exact hnone ⟨i, hi, hd'.trans hd⟩
/-- The first pass has placed the lowest lanes, each where it wants, and no other. -/
theorem placeFirst_spec {dest : Nat → Nat} (hdest : ∀ l, dest l < 32) {ls : List Nat} (hls : ∀ l ∈ ls, l < 32)
    (hsort : ls.Pairwise (· < ·)) : Placing (placeFirst dest ls) ∧
      ∀ i a, (placeFirst dest ls).getD i none = some a ↔ LowestFor dest ls i ∧ dest i = a := by
  induction ls using List.reverseRecOn with
  | nil => exact ⟨placing_empty, fun i a => ⟨fun h => absurd ((getD_empty i).symm.trans h) nofun,
    fun h => absurd h.1.1 List.not_mem_nil⟩⟩
  | append_singleton ls l ih =>
    obtain ⟨hsort', -, hbelow⟩ := List.pairwise_append.1 hsort
    obtain ⟨hls', hl⟩ := List.forall_mem_append.1 hls
    obtain ⟨hplace, hget⟩ := ih hls' hsort'
    have hlt : ∀ i ∈ ls, i < l := fun i hi => hbelow i hi l (List.mem_singleton.2 rfl)
    have hl32 : l < 32 := hl l (List.mem_singleton.2 rfl)
    have hnew : LowestFor dest (ls ++ [l]) l ↔ some (dest l) ∉ placeFirst dest ls := by
      rw [lowestFor_last hlt, some_mem_iff]
      simp only [hget]
    rw [placeFirst_concat]
    split
    next hin =>
      refine ⟨hplace, fun i a => ?_⟩
      by_cases hi : i = l
      · subst hi
        rw [hget, hnew]
        exact ⟨fun h => absurd (hlt i h.1.1) (lt_irrefl i), fun h => absurd hin h.1⟩
      · rw [lowestFor_concat hlt hi]
        exact hget i a
    next hfree =>
      refine ⟨hplace.set hl32 (hdest l) hfree, fun i a => ?_⟩
      rw [getD_set_of_lt (hplace.length ▸ hl32)]
      split
      next hi =>
        subst hi
        simp [hnew.2 hfree]
      next hi =>
        rw [lowestFor_concat hlt hi]
        exact hget i a

/-- One step of XGEN's second pass: a lane without a position gets the lowest that is left. -/
def fillNext (pi : List (Option Nat)) (p : Nat) : List (Option Nat) :=
  if (pi.getD p none).isSome then pi else setNth p ((List.range 32).find? fun t => !pi.contains (some t)) pi
theorem placeLanes_eq (dest : Nat → Nat) (ls : List Nat) :
    placeLanes dest ls = ((List.range 32).foldl fillNext (placeFirst dest ls)).map fun x => x.getD 0 := rfl
theorem fillNext_of_placed {pi : List (Option Nat)} {p : Nat} (hp : pi.getD p none ≠ none) : fillNext pi p = pi :=
  if_pos (Option.isSome_iff_ne_none.2 hp)
theorem fillNext_of_free {pi : List (Option Nat)} (h : Placing pi) {p : Nat} (hp : p < 32) (hnone : pi.getD p none = none) :
    ∃ a < 32, some a ∉ pi ∧ (∀ t < a, some t ∈ pi) ∧ fillNext pi p = pi.set p (some a) := by
  obtain ⟨b, hb, hfree⟩ := h.exists_free hp hnone
  cases hfind : (List.range 32).find? fun t => !pi.contains (some t) with
  | none =>
    have := List.find?_eq_none.1 hfind b (List.mem_range.2 hb)
    simp [hfree] at this
  | some a =>
    obtain ⟨hleft, ha, hmin⟩ := List.find?_range_eq_some.1 hfind
    refine ⟨a, List.mem_range.1 ha, by simpa using hleft, fun t ht => by simpa using hmin t ht, ?_⟩
    rw [fillNext, hnone, hfind, setNth_eq_set]
    rfl

/-- After the second pass has come to lane `n` from the placing `start`. -/
structure Filled (start pi : List (Option Nat)) (n : Nat) : Prop where
  placing : Placing pi
  keeps : ∀ i a, start.getD i none = some a → pi.getD i none = some a
  ahead : ∀ i, n ≤ i → pi.getD i none = start.getD i none
  filled : ∀ i, i < n → pi.getD i none ≠ none
  lowest : ∀ i, i < n → start.getD i none = none → ∀ a, pi.getD i none = some a → ∀ t < a, some t ∈ pi
  rising : ∀ i j, i < j → j < n → start.getD i none = none → start.getD j none = none →
    ∀ a b, pi.getD i none = some a → pi.getD j none = some b → a < b

theorem Filled.next {start pi : List (Option Nat)} {n : Nat} (h : Filled start pi n) (hn : n < 32) :
    Filled start (fillNext pi n) (n + 1) := by
  have hstart : start.getD n none = pi.getD n none := (h.ahead n le_rfl).symm
  have hlast {i : Nat} (hi : i < n + 1) : i < n ∨ i = n := Nat.lt_succ_iff_lt_or_eq.1 hi
  by_cases hfree : pi.getD n none = none
  · obtain ⟨a, ha, hleft, hmin, hnext⟩ := fillNext_of_free h.placing hn hfree
    rw [hnext]
    have hself : (pi.set n (some a)).getD n none = some a := by
      rw [getD_set_of_lt (h.placing.length ▸ hn), if_pos rfl]
    have hother {i : Nat} (hi : i ≠ n) : (pi.set n (some a)).getD i none = pi.getD i none := by
      rw [getD_set_of_lt (h.placing.length ▸ hn), if_neg hi]
    have hmore {t : Nat} (ht : some t ∈ pi) : some t ∈ pi.set n (some a) := by
      obtain ⟨i, hi⟩ := some_mem_iff.1 ht
      have hne : i ≠ n := by
        rintro rfl
        exact absurd (hfree.symm.trans hi) nofun
      exact some_mem_iff.2 ⟨i, (hother hne).trans hi⟩
    refine ⟨h.placing.set hn ha hleft, fun i b hi => ?_, fun i hi => ?_, fun i hi => ?_, fun i hi hnone b hb t ht => ?_,
      fun i j hij hj hi0 hj0 b d hb hd => ?_⟩
    · have hne : i ≠ n := by
        rintro rfl
        exact absurd ((hstart.trans hfree).symm.trans hi) nofun
      rw [hother hne]
      exact h.keeps i b hi
    · rw [hother (by omega)]
      exact h.ahead i (by omega)
    · rcases hlast hi with hi | rfl
      · rw [hother hi.ne]
        exact h.filled i hi
      · rw [hself]
        nofun
    · rcases hlast hi with hi | rfl
      · rw [hother hi.ne] at hb
        exact hmore (h.lowest i hi hnone b hb t ht)
      · obtain rfl := Option.some.inj (hself.symm.trans hb)
        exact hmore (hmin t ht)
    · rcases hlast hj with hj | rfl
      · rw [hother (hij.trans hj).ne] at hb
        rw [hother hj.ne] at hd
        exact h.rising i j hij hj hi0 hj0 b d hb hd
      · obtain rfl := Option.some.inj (hself.symm.trans hd)
        rw [hother hij.ne] at hb
        rcases Nat.lt_trichotomy b a with hlt | rfl | hgt
        · exact hlt
        · exact absurd (some_mem_iff.2 ⟨i, hb⟩) hleft
        · exact absurd (h.lowest i hij hi0 b hb a hgt) hleft
  · rw [fillNext_of_placed hfree]
    have hnot : start.getD n none ≠ none := hstart ▸ hfree
    refine ⟨h.placing, h.keeps, fun i hi => h.ahead i (by omega), fun i hi => ?_, fun i hi hnone => ?_,
      fun i j hij hj hi0 hj0 => ?_⟩
    · rcases hlast hi with hi | rfl
      · exact h.filled i hi
      · exact hfree
    · rcases hlast hi with hi | rfl
      · exact h.lowest i hi hnone
      · exact absurd hnone hnot
    · rcases hlast hj with hj | rfl
      · exact h.rising i j hij hj hi0 hj0
      · exact absurd hj0 hnot
theorem filled_start {start : List (Option Nat)} (h : Placing start) : Filled start start 0 :=
  ⟨h, fun _ _ hi => hi, fun _ _ => rfl, nofun, nofun, nofun⟩
/-- The second pass as far as lane `n`. -/
theorem foldl_fillNext {start : List (Option Nat)} (h : Placing start) {n : Nat} (hn : n ≤ 32) :
    Filled start ((List.range n).foldl fillNext start) n := by
  induction n with
  | zero => exact filled_start h
  | succ n ih =>
    rw [List.range_succ, List.foldl_append]
    exact (ih (by omega)).next (by omega)

/-- A full placing, as the list of positions, is a permutation of them. -/
theorem mem_of_full {pi : List (Option Nat)} (h : Placing pi) (hfull : ∀ i, i < 32 → pi.getD i none ≠ none) {q : Nat}
    (hq : q < 32) : ∃ i, pi.getD i none = some q := by
  have hval : ∀ i : Fin 32, ∃ a : Fin 32, pi.getD i none = some a.val := fun i => by
    obtain ⟨a, ha⟩ := Option.ne_none_iff_exists'.1 (hfull i i.isLt)
    exact ⟨⟨a, h.bound i a ha⟩, ha⟩
  choose f hf using hval
  have hinj : Function.Injective f := fun i j hij => Fin.ext (h.inj i j (f i) (hf i) (hij ▸ hf j))
  obtain ⟨i, hi⟩ := Finite.injective_iff_surjective.1 hinj ⟨q, hq⟩
  exact ⟨i, by rw [hf i, hi]⟩
theorem getD_map_getD {pi : List (Option Nat)} {i a : Nat} (h : pi.getD i none = some a) :
    (pi.map fun x => x.getD 0)[i]? = some a := by
  rw [List.getD_eq_getElem?_getD] at h
  cases hi : pi[i]? with
  | none => simp [hi] at h
  | some x =>
    obtain rfl : x = some a := by simpa [hi] using h
    simp [hi]

/-- What XGEN's placing gives: the lowest lane that names a position gets it, and the others what is left, in order. -/
theorem placeLanes_spec {dest : Nat → Nat} (hdest : ∀ l, dest l < 32) {ls : List Nat} (hls : ∀ l ∈ ls, l < 32)
    (hsort : ls.Pairwise (· < ·)) : let p := placeLanes dest ls
    p.length = 32 ∧ (∀ q, q < 32 → q ∈ p) ∧ (∀ l, LowestFor dest ls l → p.getD l 32 = dest l) ∧
      ∀ i j, i < j → j < 32 → ¬ LowestFor dest ls i → ¬ LowestFor dest ls j → p.getD i 32 < p.getD j 32 := by
  obtain ⟨hplace, hfirst⟩ := placeFirst_spec hdest hls hsort
  have hfill := foldl_fillNext hplace le_rfl
  have hget {i a : Nat} (h : ((List.range 32).foldl fillNext (placeFirst dest ls)).getD i none = some a) :
      (placeLanes dest ls)[i]? = some a := getD_map_getD h
  have hnone {i : Nat} (hi : ¬ LowestFor dest ls i) : (placeFirst dest ls).getD i none = none := by
    rw [Option.eq_none_iff_forall_ne_some]
    exact fun a ha => hi ((hfirst i a).1 ha).1
  refine ⟨?_, fun q hq => ?_, fun l hl => ?_, fun i j hij hj hi0 hj0 => ?_⟩
  · rw [placeLanes_eq, List.length_map, hfill.placing.length]
  · obtain ⟨i, hi⟩ := mem_of_full hfill.placing hfill.filled hq
    exact List.mem_of_getElem? (hget hi)
  · rw [List.getD_eq_getElem?_getD, hget (hfill.keeps l _ ((hfirst l _).2 ⟨hl, rfl⟩)), Option.getD_some]
  · obtain ⟨a, ha⟩ := Option.ne_none_iff_exists'.1 (hfill.filled i (hij.trans hj))
    obtain ⟨b, hb⟩ := Option.ne_none_iff_exists'.1 (hfill.filled j hj)
    rw [List.getD_eq_getElem?_getD, List.getD_eq_getElem?_getD, hget ha, hget hb]
    exact hfill.rising i j hij hj (hnone hi0) (hnone hj0) a b ha hb

/-! ## The obligation -/

/-- Settles O18: MATCH is an exchange that leaves a mask register besides, XSET and XGEN complete with a permutation register
set, and the two passes of the placing are followed lane by lane. -/
theorem matchAndPermutationRegisters : Obligations.MatchAndPermutationRegisters := by
  unfold Obligations.MatchAndPermutationRegisters
  refine ⟨fun f s c h hd hlanes hread => ?_, fun sp xd sn s c h hcur hread => ?_,
    fun sp xd sn s c h hcur hread hcheck hfree hfifo => ?_, fun sp xd a s c h hlanes hread => ?_,
    fun dest ls hdest hls hsort => placeLanes_spec hdest hls hsort⟩
  · obtain ⟨t, x, hrun, honly, hx, hk, hcompl, hval⟩ := xmatch_spec h hd hlanes hread
    refine ⟨t, x, hrun, honly, hx, hcompl, hval, fun hf => ?_, fun hf l hl hn => ?_⟩
    · rw [hk, matchGroup, if_neg (ne_true_of_eq_false hf)]
    · rw [hk, matchGroup_lowest hf _ hl hn]
      rfl
  · obtain ⟨r, hvals, hrun⟩ := xset_of_words h hcur sp xd hread
    exact ⟨_, hrun, regDone_setsXc h hvals ..⟩
  · obtain ⟨r, hvals, hrun⟩ := xset_of_scratch h hcur sp xd hread hcheck hfree hfifo
    exact ⟨_, hrun, regDone_setsXc h hvals ..⟩
  · obtain ⟨r, hvals, hrun⟩ := xgen_next h hlanes sp xd hread
    exact ⟨_, hrun, regDone_setsXc h hvals ..⟩

end Sys2Proof.Machine
end

-- Control of a whole fragment (R163, R165, R172 to R175)
section
/-! Conditions of BRA on the fragment's lanes, what RECON and EXIT leave of the split table, and the obligation on the
transfers of a whole fragment. -/

namespace Sys2Proof.Machine

/-! ## Instructions of a whole fragment (R323) -/

section
variable {s : State} {c : Ctx} (h : s.ctx = some c)
include h

theorem onFragment_runs (hcur : c.run.cursor ≠ some 32) (sp : Bool) (k : Ctx → Out) : onFragment s sp k = k c := by
  rw [onFragment, onTrack, h]
  exact if_neg fun hdone => hcur (eq_of_beq hdone)
theorem onFragment_counted (hcur : c.run.cursor = some 32) (sp : Bool) (k : Ctx → Out) :
    onFragment s sp k = .next (s.advance c c.grp c.trk sp 1) := by
  rw [onFragment, onTrack, h]
  exact if_pos (beq_iff_eq.2 hcur)
end

/-! ## BRA (R165) -/

section
variable {m k : Mask}

theorem mask_and_eq_zero_iff : m &&& k = 0 ↔ ∀ l ∈ lanesOf k, m.getLsbD l = false := by
  refine ⟨fun hand l hl => ?_, fun hlanes => BitVec.eq_of_getLsbD_eq fun i hi => ?_⟩
  · have hbit := congrArg (BitVec.getLsbD · l) hand
    simpa [(mem_lanesOf.1 hl).2] using hbit
  · by_cases hk : k.getLsbD i = true
    · simp [hlanes i (mem_lanesOf.2 ⟨hi, hk⟩)]
    · simp [hk]
theorem mask_and_eq_right_iff : m &&& k = k ↔ ∀ l ∈ lanesOf k, m.getLsbD l = true := by
  refine ⟨fun hand l hl => ?_, fun hlanes => BitVec.eq_of_getLsbD_eq fun i hi => ?_⟩
  · have hbit := congrArg (BitVec.getLsbD · l) hand
    simpa [(mem_lanesOf.1 hl).2] using hbit
  · by_cases hk : k.getLsbD i = true
    · simp [hlanes i (mem_lanesOf.2 ⟨hi, hk⟩)]
    · simp [hk]

theorem braTaken_any_iff : braTaken .any k m = true ↔ ∃ l ∈ lanesOf k, m.getLsbD l = true := by
  rw [braTaken, bne_iff_ne, Ne, mask_and_eq_zero_iff]
  simp
theorem braTaken_all_iff : braTaken .all k m = true ↔ k ≠ 0 ∧ ∀ l ∈ lanesOf k, m.getLsbD l = true := by
  rw [braTaken, Bool.and_eq_true, bne_iff_ne, beq_iff_eq, mask_and_eq_right_iff]
theorem braTaken_none_iff : braTaken .none k m = true ↔ ∀ l ∈ lanesOf k, m.getLsbD l = false := by
  rw [braTaken, beq_iff_eq, mask_and_eq_zero_iff]
end

/-! ## RECON (R172) -/

@[simp] theorem find_withFrag (c : Ctx) (f : Frag → Frag) : find c.run.entry (c.withFrag f).split = some (f c.frag) :=
  find_ins_self ..
/-- The executing fragment, changed and judged: no check of arrival decides its lanes, its place or its key. -/
theorem find_checkAll_withFrag (c : Ctx) (f : Frag → Frag) :
    ∃ f', find c.run.entry (checkAll (c.withFrag f)).split = some f' ∧ f'.rcv = (f c.frag).rcv ∧
      f'.mask = (f c.frag).mask ∧ f'.depth = (f c.frag).depth ∧ f'.pc = (f c.frag).pc := by
  have hkey := (judges_checkAll (c.withFrag f)).map_eq (f := fun f => (f.rcv, f.mask, f.depth, f.pc)) (fun _ => rfl)
    c.run.entry
  simpa only [find_withFrag, Option.map_some, Option.map_eq_some_iff, Prod.mk.injEq] using hkey
theorem advance_goes_on_group (s : State) {c : Ctx} (g : Group) (trk : Track) (n : Nat)
    (hlast : c.run.pos < c.run.words.length) : (s.advance c g trk false n).group c.g = some (c.settle g) := by
  rw [State.advance, if_neg (by simp; omega)]
  exact setGroup_group ..

/-! ## EXIT (R175) -/

theorem look_clearAll (mask : Mask) (l : List Nat) (m : SMap Mask) (j : Nat) :
    look 0 j (l.foldl (fun m i => put 0 i (look 0 i m &&& ~~~mask) m) m) =
      if j ∈ l then look 0 j m &&& ~~~mask else look 0 j m := by
  induction l generalizing m with
  | nil => rfl
  | cons i l ih =>
    rw [List.foldl_cons, ih]
    by_cases hj : j = i
    · subst hj
      simp [BitVec.and_assoc]
    · simp [hj, look_put_ne _ hj]
theorem retire_entry (g : Group) (e : Nat) (mask : Mask) : find e (retire g e mask).split = none := by
  have hentry := (judges_checkAll { g with
    k := (List.range 8).foldl (fun m i => put 0 i (look 0 i m &&& ~~~mask) m) g.k, split := del e g.split }).entry e
  rw [find_del_self] at hentry
  exact Option.map_eq_none_iff.1 hentry
theorem retire_masks (g : Group) (e : Nat) (mask : Mask) {j : Nat} (hj : j < 8) :
    look 0 j (retire g e mask).k = look 0 j g.k &&& ~~~mask := by
  rw [retire, (judges_checkAll _).rest]
  exact (look_clearAll ..).trans (if_pos (List.mem_range.2 hj))

/-! ## The clause ends with a group -/

theorem endWith_only (s : State) (c : Ctx) (g : Group) (n : Nat) : Only s (s.endWith c g n) := ⟨rfl, fun _ => rfl⟩
@[simp] theorem endWith_group (s : State) (c : Ctx) (g : Group) (n : Nat) :
    (s.endWith c g n).group c.g = some (c.settle g) := setGroup_group ..
@[simp] theorem endWith_run (s : State) (c : Ctx) (g : Group) (n : Nat) : ((s.endWith c g n).track c.t).run = none := by
  simp [State.endWith]

/-! ## RET and JMPI (R174) -/

theorem touchAll_of_readable {r : RegFile} {ws : List (Bank × Nat)} (h : Readable r ws) :
    ∃ q, r.touchAll ws = (q, false) ∧ SameVals q r :=
  ⟨_, Prod.ext rfl (touchAll_ok ws h), touchAll_vals r ws⟩
/-- A uniform RET or JMPI whose words are readable: every lane goes to the pair that they hold. -/
theorem pairTransfer_uniform {s : State} {c : Ctx} (h : s.ctx = some c) {a : Src} (ha : a.kind = .s)
    (hcur : c.run.cursor ≠ some 32) (hread : Readable c.regs (srcWords a 0)) (sp : Bool) (depth : Frag → BitVec 6) :
    ∃ t, pairTransfer sp a depth s = .next t ∧ Only s t ∧
      TransfersTo s t c (BitVec.ofNat 57 (c.regs.operand a 0 64)) c.frag.rcv (depth c.frag) := by
  obtain ⟨r, htouch, hvals⟩ := touchAll_of_readable hread
  have htouch' : (RegFile.of c.grp c.trk).touchAll (srcWords a 0) = (r, false) := htouch
  have hrun : pairTransfer sp a depth s = .next ((s.countErrors c r).jump { c with grp := c.grp.withRegs r } sp
      (BitVec.ofNat 57 (c.regs.operand a 0 64)) (fun f => { f with depth := depth f }) 1) := by
    simp only [pairTransfer, onTrack, h, ha, htouch', hcur, if_true, if_false, Bool.false_eq_true,
      operand_of_sameVals hvals]
  obtain ⟨hgroups, htracks, hend⟩ := jump_transfersTo (s.countErrors c r) (c := { c with grp := c.grp.withRegs r }) sp
    (BitVec.ofNat 57 (c.regs.operand a 0 64)) (f := fun f => { f with depth := depth f }) rfl 1
  exact ⟨_, hrun, (countErrors_only s c r).trans (jump_only ..), fun k hk => (hgroups k hk).trans (countErrors_group ..),
    fun k hk => (htracks k hk).trans (countErrors_track ..), hend⟩

/-! ## The obligation -/

section
variable (sp : Bool) (s : State)
theorem exec_bra (op : BraOp) (ks : BitVec 3) (tgt : BitVec 20) :
    exec (.bra sp op ks tgt) s = execBra sp op ks tgt s := by rfl
theorem exec_call (tgt rcv : BitVec 20) : exec (.call sp tgt rcv) s = execCall sp tgt rcv s := by rfl
theorem exec_ret (a : Src) : exec (.ret sp a) s = pairTransfer sp a (fun f => f.depth - 1) s := by rfl
theorem exec_jmpi (a : Src) : exec (.jmpi sp a) s = pairTransfer sp a (fun f => f.depth) s := by rfl
theorem exec_recon (rcv : BitVec 20) : exec (.recon sp rcv) s = execRecon sp rcv s := by rfl
theorem exec_exit : exec (.exit sp) s = execExit sp s := by rfl
end

/-- Settles O19: each transfer is `State.jump` or the completion of an instruction, whose effects on the fragment's entry
no check of arrival changes. -/
theorem wholeFragmentTransfers : Obligations.WholeFragmentTransfers := by
  unfold Obligations.WholeFragmentTransfers
  refine ⟨fun sp op ks tgt s c h hcur => ⟨fun htaken => ?_, fun hnot => ?_, ?_⟩, fun sp tgt rcv s c h hcur => ?_,
    fun sp a s c h ha hcur hread => ⟨?_, ?_⟩, fun sp rcv s c h hcur hsp hlast => ?_, fun sp s c h hcur => ?_,
    fun sp op ks tgt rcv s c h hcur i hi => ?_⟩
  · rw [exec_bra, execBra, onFragment_runs h hcur, if_pos htaken]
    exact ⟨_, rfl, jump_only .., jump_transfersTo s sp (c.target tgt) (f := id) rfl 1⟩
  · rw [exec_bra, execBra, onFragment_runs h hcur, if_neg (ne_true_of_eq_false hnot)]
    exact ⟨_, rfl, advance_completes h sp 1⟩
  · cases op with
    | always => exact iff_true_intro rfl
    | any => exact braTaken_any_iff
    | all => exact braTaken_all_iff
    | none => exact braTaken_none_iff
  · rw [exec_call, execCall, onFragment_runs h hcur]
    refine ⟨_, rfl, jump_only .., ?_⟩
    rw [← ite_not]
    exact jump_transfersTo s sp (c.target tgt) rfl 1
  · rw [exec_ret]
    exact pairTransfer_uniform h ha hcur hread sp _
  · rw [exec_jmpi]
    exact pairTransfer_uniform h ha hcur hread sp _
  · subst hsp
    obtain ⟨f, hf, hkept⟩ := find_checkAll_withFrag c fun f => { f with rcv := c.target rcv }
    rw [exec_recon, execRecon, onFragment_runs h hcur]
    exact ⟨_, _, f, rfl, advance_only .., advance_goes_on_group s _ c.trk 1 hlast, by rw [settle_split, hf], hkept⟩
  · rw [exec_exit, execExit, onFragment_runs h hcur]
    refine ⟨_, _, rfl, endWith_only .., endWith_group .., ?_, endWith_run .., fun j hj => ?_⟩
    · rw [settle_split, retire_entry]
    · rw [settle_eq]
      exact retire_masks _ _ _ hj
  · have hrun : exec i s = .next (s.advance c c.grp c.trk sp 1) := by
      simp only [List.mem_cons, List.not_mem_nil, or_false] at hi
      rcases hi with rfl | rfl | rfl | rfl
      · exact (exec_bra ..).trans (onFragment_counted h hcur sp _)
      · exact (exec_call ..).trans (onFragment_counted h hcur sp _)
      · exact (exec_recon ..).trans (onFragment_counted h hcur sp _)
      · exact (exec_exit ..).trans (onFragment_counted h hcur sp _)
    exact ⟨_, hrun, advance_completes h sp 1⟩

end Sys2Proof.Machine
end

-- Per-lane transfers (R167 to R169, R174, R179)
section
/-! The targets that lanes choose, what a split with room for them leaves of the split table, and the obligation on the
transfers whose lanes choose their own targets. -/

namespace Sys2Proof.Machine

/-! ## The targets (R167) -/

/-- A list of targets has a target for a lane. -/
def Serves (ts : List (VAddr × Mask)) (l : Nat) (pc : VAddr) : Prop := ∃ m, (pc, m) ∈ ts ∧ m.getLsbD l = true
/-- The targets with one lane more: at the target that it shares, or behind the others. -/
def addLane (ts : List (VAddr × Mask)) (p : Nat × VAddr) : List (VAddr × Mask) :=
  if ts.any fun x => x.1 == p.2 then ts.map fun x => if x.1 == p.2 then (x.1, x.2 ||| (1#32 <<< p.1)) else x
  else ts ++ [(p.2, 1#32 <<< p.1)]
theorem groupTargets_eq_foldl (ps : List (Nat × VAddr)) (ts : List (VAddr × Mask)) :
    groupTargets ps ts = ps.foldl addLane ts := by
  induction ps generalizing ts with
  | nil => rfl
  | cons p ps ih =>
    rw [List.foldl_cons, ← ih, groupTargets, addLane]
    split <;> rfl
theorem getLsbD_lane {l : Nat} (hl : l < 32) : (1#32 <<< l).getLsbD l = true := by simp [hl]
theorem addLane_serves_self (ts : List (VAddr × Mask)) {p : Nat × VAddr} (hp : p.1 < 32) :
    Serves (addLane ts p) p.1 p.2 := by
  unfold addLane
  split
  · next hany =>
    obtain ⟨x, hx, hpc⟩ := List.any_eq_true.1 hany
    refine ⟨x.2 ||| (1#32 <<< p.1), List.mem_map.2 ⟨x, hx, ?_⟩, ?_⟩
    · rw [if_pos hpc, eq_of_beq hpc]
    · rw [BitVec.getLsbD_or, getLsbD_lane hp, Bool.or_true]
  · exact ⟨_, List.mem_append_right _ (List.mem_singleton.2 rfl), getLsbD_lane hp⟩
theorem Serves.addLane {ts : List (VAddr × Mask)} {l : Nat} {pc : VAddr} (h : Serves ts l pc) (p : Nat × VAddr) :
    Serves (addLane ts p) l pc := by
  obtain ⟨m, hm, hbit⟩ := h
  unfold Machine.addLane
  split
  · by_cases hpc : pc == p.2
    · refine ⟨m ||| (1#32 <<< p.1), List.mem_map.2 ⟨_, hm, if_pos hpc⟩, ?_⟩
      rw [BitVec.getLsbD_or, hbit, Bool.true_or]
    · exact ⟨m, List.mem_map.2 ⟨_, hm, if_neg hpc⟩, hbit⟩
  · exact ⟨m, List.mem_append_left _ hm, hbit⟩
theorem groupTargets_serves {ps : List (Nat × VAddr)} (hps : ∀ p ∈ ps, p.1 < 32) {p : Nat × VAddr} (hp : p ∈ ps)
    (ts : List (VAddr × Mask)) : Serves (groupTargets ps ts) p.1 p.2 := by
  rw [groupTargets_eq_foldl]
  obtain ⟨before, after, rfl⟩ := List.append_of_mem hp
  rw [List.foldl_append, List.foldl_cons]
  exact List.foldlRecOn after _ (motive := (Serves · p.1 p.2)) (addLane_serves_self _ (hps p hp))
    fun _ h q _ => h.addLane q
theorem targetsOf_serves (mask : Mask) {ps : List (Nat × VAddr)} (hps : ∀ p ∈ ps, p.1 < 32) {p : Nat × VAddr}
    (hp : p ∈ ps) : Serves (targetsOf mask ps) p.1 p.2 := by
  obtain ⟨m, hm, hbit⟩ := groupTargets_serves hps hp []
  unfold targetsOf
  split
  · next hnil =>
    rw [hnil] at hm
    cases hm
  · next t m' l hcons =>
    rw [hcons] at hm
    rcases List.mem_cons.1 hm with heq | hm
    · obtain ⟨rfl, rfl⟩ := Prod.mk.inj heq
      exact ⟨_, List.mem_cons_self, by rw [BitVec.getLsbD_or, hbit, Bool.true_or]⟩
    · exact ⟨m, List.mem_cons_of_mem _ hm, hbit⟩

/-! ## Free entries (R168, R169) -/

theorem freeEntries_setFrag (g : Group) (e : Nat) (f : Frag) :
    (g.setFrag e f).freeEntries = g.freeEntries.filter (· != e) := by
  rw [Group.freeEntries, Group.freeEntries, List.filter_filter]
  refine List.filter_congr fun x _ => ?_
  by_cases hx : x = e
  · subst hx
    simp [Group.setFrag]
  · simp [Group.setFrag, find_ins_ne hx, hx]
theorem freeEntries_setFrag_of_find {g : Group} {e : Nat} {f : Frag} (h : find e g.split = some f) (f' : Frag) :
    (g.setFrag e f').freeEntries = g.freeEntries := by
  rw [freeEntries_setFrag, List.filter_eq_self]
  intro x hx
  have hfree : find x g.split = none := Option.isNone_iff_eq_none.1 (List.mem_filter.1 hx).2
  have hne : x ≠ e := by
    rintro rfl
    rw [h] at hfree
    cases hfree
  exact bne_iff_ne.2 hne
/-- Fragments for which the table has room come to entries of their own; no entry in use changes. -/
theorem placeFrags_spec {l : List Frag} {g : Group} (hroom : l.length ≤ g.freeEntries.length) :
    (∀ e f, find e g.split = some f → find e (placeFrags g l).split = some f) ∧
      ∀ f ∈ l, ∃ e, find e (placeFrags g l).split = some f := by
  induction l generalizing g with
  | nil => exact ⟨fun _ _ h => h, fun _ h => absurd h List.not_mem_nil⟩
  | cons f l ih =>
    obtain ⟨e, es, hfree⟩ := List.exists_cons_of_length_pos (Nat.lt_of_lt_of_le (Nat.succ_pos _) hroom)
    have hnodup : g.freeEntries.Nodup := List.nodup_range.filter _
    have hrest : (g.setFrag e f).freeEntries = es := by
      rw [freeEntries_setFrag, ← hnodup.erase_eq_filter, hfree, List.erase_cons_head]
    have hplace : placeFrags g (f :: l) = placeFrags (g.setFrag e f) l := by rw [placeFrags, hfree]
    obtain ⟨hkept, hplaced⟩ := ih (g := g.setFrag e f) (by rw [hrest]; simpa [hfree] using hroom)
    have hempty : find e g.split = none := by
      have he : e ∈ g.freeEntries := hfree ▸ List.mem_cons_self
      exact Option.isNone_iff_eq_none.1 (List.mem_filter.1 he).2
    rw [hplace]
    refine ⟨fun e' f' h' => hkept e' f' ?_, fun f' hf' => ?_⟩
    · have hne : e' ≠ e := by
        rintro rfl
        rw [hempty] at h'
        cases h'
      rw [Group.setFrag, find_ins_ne hne, h']
    · rcases List.mem_cons.1 hf' with rfl | hf'
      · exact ⟨e, hkept e _ (find_ins_self ..)⟩
      · exact hplaced f' hf'

/-! ## Splits (R168, R169) -/

/-- A lane is in an entry of the split table that stands at an address. -/
def Group.HasLane (g : Group) (l : Nat) (pc : VAddr) : Prop :=
  ∃ e f, find e g.split = some f ∧ f.mask.getLsbD l = true ∧ f.pc = pc
theorem Judges.hasLane {x y : Group} (h : Judges x y) {l : Nat} {pc : VAddr} (hlane : x.HasLane l pc) :
    y.HasLane l pc := by
  obtain ⟨e, f, hf, hbit, hpc⟩ := hlane
  have hkey := h.map_eq (f := fun f => (f.mask, f.pc)) (fun _ => rfl) e
  rw [hf] at hkey
  obtain ⟨f', hf', hkeys⟩ := Option.map_eq_some_iff.1 hkey
  obtain ⟨hmask, hpc'⟩ := Prod.mk.inj hkeys
  exact ⟨e, f', hf', by rw [hmask]; exact hbit, hpc'.trans hpc⟩

section
variable {c : Ctx} (hfrag : find c.run.entry c.grp.split = some c.frag) {ts : List (VAddr × Mask)} {l : Nat} {pc : VAddr}
include hfrag

theorem structSplit_hasLane (sp : Bool) (y : VAddr) (hroom : ts.length ≤ c.grp.freeEntries.length)
    (hl : Serves ts l pc) : (structSplit c sp ts y).HasLane l pc := by
  obtain ⟨m, hm, hbit⟩ := hl
  have hfree : c.grp.freeEntries.length ≠ 0 := fun h0 => by
    rw [h0, Nat.le_zero, List.length_eq_zero_iff] at hroom
    rw [hroom] at hm
    cases hm
  obtain ⟨-, hplaced⟩ := placeFrags_spec (l := ts.map fun x => newFrag x.1 x.2 y c.frag.depth (c.stopAt sp))
    (g := c.grp.setFrag c.run.entry { c.frag with
      mask := 0, pc := y, state := .joining, word := 0, cursor := none, redo := false, fresh := false, stop := none })
    (by rw [freeEntries_setFrag_of_find hfrag, List.length_map]; exact hroom)
  obtain ⟨e, he⟩ := hplaced _ (List.mem_map.2 ⟨_, hm, rfl⟩)
  refine ⟨e, newFrag pc m y c.frag.depth (c.stopAt sp), ?_, hbit, rfl⟩
  simpa only [structSplit, hfree, hroom, if_true, if_false, List.take_length, List.append_nil] using he
theorem flatSplit_hasLane (sp : Bool) (rcv : VAddr) (depth : BitVec 6) (hroom : ts.length ≤ c.grp.freeEntries.length)
    (hl : Serves ts l pc) : (flatSplit c sp ts rcv depth).HasLane l pc := by
  obtain ⟨m, hm, hbit⟩ := hl
  cases ts with
  | nil => cases hm
  | cons x more =>
    obtain ⟨hkept, hplaced⟩ := placeFrags_spec (l := more.map fun x => newFrag x.1 x.2 rcv depth (c.stopAt sp))
      (g := c.grp.setFrag c.run.entry { c.frag with
        mask := x.2, pc := x.1, rcv := rcv, depth := depth, defer := false, state := .ready, word := 0,
        cursor := none, redo := false, fresh := true, stop := c.stopAt sp })
      (by rw [freeEntries_setFrag_of_find hfrag, List.length_map]; exact (Nat.le_succ _).trans hroom)
    rw [flatSplit, if_pos (hroom.trans (Nat.le_succ _))]
    rcases List.mem_cons.1 hm with rfl | hm
    · exact ⟨_, _, hkept _ _ (find_ins_self ..), hbit, rfl⟩
    · obtain ⟨e, he⟩ := hplaced _ (List.mem_map.2 ⟨_, hm, rfl⟩)
      exact ⟨e, _, he, hbit, rfl⟩
end

/-! ## Per-lane transfers (R167) -/

/-- The clause ends with a group whose entries have every active lane at its target. -/
theorem endWith_lanesReach (s : State) {c : Ctx} {g : Group} {target : Nat → VAddr}
    (hlanes : ∀ l ∈ lanesOf c.k0, g.HasLane l (target l)) (n : Nat) :
    let t := s.endWith c (checkAll g) n
    Only s t ∧ (t.track c.t).run = none ∧ LanesReach t c target :=
  ⟨endWith_only .., endWith_run .., _, endWith_group .., fun l hl => by
    rw [settle_split]
    exact (judges_checkAll g).hasLane (hlanes l hl)⟩
/-- A transfer of the whole fragment brings every active lane to its target where the lanes have no other. -/
theorem jump_lanesReach (s : State) {c : Ctx} (sp : Bool) (pc : VAddr) {f : Frag → Frag}
    (hmask : (f c.frag).mask = c.frag.mask) {target : Nat → VAddr} (hpc : ∀ l ∈ lanesOf c.k0, target l = pc)
    (n : Nat) :
    let t := s.jump c sp pc f n
    Only s t ∧ (t.track c.t).run = none ∧ LanesReach t c target := by
  obtain ⟨-, -, hrun, -, x, f', hx, -, hf', hpc', -, hmask', -⟩ := jump_transfersTo s sp pc hmask n
  refine ⟨jump_only .., hrun, x, hx, fun l hl => ⟨_, f', hf', ?_, hpc'.trans (hpc l hl).symm⟩⟩
  have hk0 : (look 0 0 c.grp.k &&& c.frag.mask).getLsbD l = true := (mem_lanesOf.1 hl).2
  rw [BitVec.getLsbD_and, Bool.and_eq_true] at hk0
  rw [hmask']
  exact hk0.2

/-- The lanes of a fragment with their targets. -/
abbrev Ctx.choices (c : Ctx) (target : Nat → VAddr) : List (Nat × VAddr) := (lanesOf c.k0).map fun l => (l, target l)
theorem perLane_lanesReach (s : State) {c : Ctx} (hfrag : find c.run.entry c.grp.split = some c.frag) (sp : Bool)
    {target : Nat → VAddr} (hroom : (targetsOf c.frag.mask (c.choices target)).length ≤ c.grp.freeEntries.length)
    (join : Option VAddr) (depth : BitVec 6) (n : Nat) :
    let t := s.perLane c sp (c.choices target) join depth n
    Only s t ∧ (t.track c.t).run = none ∧ LanesReach t c target := by
  have hserves : ∀ l ∈ lanesOf c.k0, Serves (targetsOf c.frag.mask (c.choices target)) l (target l) := by
    intro l hl
    refine targetsOf_serves c.frag.mask (fun p hp => ?_) (p := (l, target l)) (List.mem_map.2 ⟨l, hl, rfl⟩)
    obtain ⟨i, hi, rfl⟩ := List.mem_map.1 hp
    exact lt_of_mem_lanesOf hi
  unfold State.perLane
  generalize targetsOf c.frag.mask (c.choices target) = ts at hroom hserves
  cases ts with
  | nil =>
    refine jump_lanesReach s sp c.nextHdr (f := id) rfl (fun l hl => ?_) n
    obtain ⟨m, hm, -⟩ := hserves l hl
    cases hm
  | cons x more =>
    dsimp only
    split
    · exact endWith_lanesReach s (fun l hl => flatSplit_hasLane hfrag sp _ _ hroom (hserves l hl)) n
    · split
      · next hmore =>
        refine jump_lanesReach s sp x.1 rfl (fun l hl => ?_) n
        obtain ⟨m, hm, -⟩ := hserves l hl
        rw [List.isEmpty_iff.1 hmore, List.mem_singleton] at hm
        exact congrArg Prod.fst hm
      · cases join with
        | some y => exact endWith_lanesReach s (fun l hl => structSplit_hasLane hfrag sp y hroom (hserves l hl)) n
        | none => exact endWith_lanesReach s (fun l hl => flatSplit_hasLane hfrag sp _ _ hroom (hserves l hl)) n

/-- A transfer that reads an operand (R179), where its words are readable: the lanes that execute go where the values that
stood in them say, the others to the default. -/
theorem readTransfer_lanesReach {s : State} {c : Ctx} (h : s.ctx = some c) (sp : Bool) {reads : Nat → List (Bank × Nat)}
    (hread : ∀ l ∈ c.lanes, Readable c.regs (reads l)) {choice : RegFile → Nat → VAddr}
    (hchoice : ∀ r, SameVals r c.regs → choice r = choice c.regs) {dflt : VAddr} {target : Nat → VAddr}
    (htarget : ∀ l, target l = if l ∈ c.lanes then choice c.regs l else dflt)
    (hroom : (targetsOf c.frag.mask (c.choices target)).length ≤ c.grp.freeEntries.length)
    (join : Option VAddr) (depth : BitVec 6) :
    let t := s.readTransfer c sp reads choice dflt join depth
    Only s t ∧ (t.track c.t).run = none ∧ LanesReach t c target := by
  obtain ⟨-, -, -, -, -, hfrag, -⟩ := ctx_spec h
  obtain ⟨r, hloop, hvals⟩ := laneLoop_reads (nodup_lanes c) hread
  have hloop' : laneLoop reads (fun r _ => r) c.lanes (RegFile.of c.grp c.trk) = (r, none) := hloop
  have hchoices : (lanesOf c.k0).map (fun l => (l, if c.lanes.contains l then choice r l else dflt)) =
      c.choices target := by
    refine List.map_congr_left fun l _ => ?_
    rw [htarget, hchoice r hvals, List.contains_eq_mem]
    by_cases hl : l ∈ c.lanes <;> simp [hl]
  have hrun : s.readTransfer c sp reads choice dflt join depth =
      (s.countErrors c r).perLane { c with grp := c.grp.withRegs r, trk := c.trk.withRegs r } sp (c.choices target) join
        depth (laneSteps (lanesOf c.k0).length) := by
    simp only [State.readTransfer, hloop', hchoices]
  obtain ⟨honly, hend, hreach⟩ := perLane_lanesReach (s.countErrors c r)
    (c := { c with grp := c.grp.withRegs r, trk := c.trk.withRegs r }) hfrag sp hroom join depth
    (laneSteps (lanesOf c.k0).length)
  rw [hrun]
  exact ⟨(countErrors_only s c r).trans honly, hend, hreach⟩

/-! ## The obligation -/

/-- Where a lane of a SWITCH goes that executes (R166). -/
def Ctx.caseTarget (c : Ctx) (n : BitVec 3) (a : Src) (dflt : BitVec 16) (r : RegFile) (l : Nat) : VAddr :=
  match (c.cases n).find? fun x => x.value.toNat == r.operand a l 32 with
  | some x => c.target x.target
  | none => c.target dflt
theorem exec_braSplit (sp : Bool) (ks : BitVec 3) (tgt rcv : BitVec 20) (s : State) :
    exec (.braSplit sp ks tgt rcv) s = execBraSplit sp ks tgt rcv s := by rfl
theorem exec_switch (sp : Bool) (n : BitVec 3) (a : Src) (dflt rcv : BitVec 16) (s : State) :
    exec (.switch sp n a dflt rcv) s = onTrack s fun c =>
      .next (s.readTransfer c sp (srcWords a) (c.caseTarget n a dflt) (c.target dflt) (some (c.target rcv))
        c.frag.depth) := by rfl
/-- RET and JMPI of lanes that read their own pairs (R174). -/
theorem pairTransfer_lanes {s : State} {c : Ctx} (h : s.ctx = some c) {a : Src} (ha : a.kind ≠ .s)
    (hread : ∀ l ∈ c.lanes, Readable c.regs (srcWords a l)) {target : Nat → VAddr}
    (htarget : ∀ l, target l = if l ∈ c.lanes then BitVec.ofNat 57 (c.regs.operand a l 64) else c.nextHdr)
    (hroom : (targetsOf c.frag.mask (c.choices target)).length ≤ c.grp.freeEntries.length) (sp : Bool)
    (depth : Frag → BitVec 6) : ∃ t, pairTransfer sp a depth s = .next t ∧ Only s t ∧ (t.track c.t).run = none ∧
      LanesReach t c target := by
  refine ⟨_, ?_, readTransfer_lanesReach h sp hread (choice := fun r l => BitVec.ofNat 57 (r.operand a l 64))
    (fun r hvals => ?_) htarget hroom none (depth c.frag)⟩
  · rw [pairTransfer, onTrack, h]
    exact if_neg ha
  · funext l
    rw [operand_of_sameVals hvals]

/-- Settles O20: each transfer gives `State.perLane` the lanes with their targets, and a split with room for these gives each
an entry that no check of arrival moves. -/
theorem lanesReachTheirTargets : Obligations.LanesReachTheirTargets := by
  unfold Obligations.LanesReachTheirTargets
  refine ⟨fun sp ks tgt rcv s c h => ?_, fun sp n a dflt rcv s c h hread => ?_, fun sp a s c h ha hread => ?_⟩ <;>
    intro target hroom
  · obtain ⟨-, -, -, -, -, hfrag, -⟩ := ctx_spec h
    refine ⟨_, ?_, perLane_lanesReach s hfrag sp hroom (some (c.target rcv)) c.frag.depth 1⟩
    rw [exec_braSplit, execBraSplit, onTrack, h]
    simp [target, Ctx.choices]
  · refine ⟨_, ?_, readTransfer_lanesReach h sp hread (choice := c.caseTarget n a dflt) (dflt := c.target dflt)
      (fun r hvals => ?_) (fun l => ?_) hroom (some (c.target rcv)) c.frag.depth⟩
    · rw [exec_switch, onTrack, h]
    · funext l
      rw [Ctx.caseTarget, Ctx.caseTarget, operand_of_sameVals hvals]
    · by_cases hl : l ∈ c.lanes
      · simp only [target, hl, decide_true, Bool.true_and, if_true]
        rfl
      · have hnone : ((c.cases n).find? fun x => decide (l ∈ c.lanes) && x.value.toNat == c.regs.operand a l 32) = none :=
          List.find?_eq_none.2 fun x _ => by simp [hl]
        simp only [target, hnone]
        rw [if_neg hl]
  · rw [exec_ret, exec_jmpi]
    exact ⟨pairTransfer_lanes h ha hread (fun _ => rfl) hroom sp _,
      pairTransfer_lanes h ha hread (fun _ => rfl) hroom sp _⟩

end Sys2Proof.Machine
end

-- The replay of a parked fetch (R229, R332)
section
/-! What the replay doorbell does with a fragment that is parked at its clause's fetch, and why the equation that the
obligation on translations gives for it fails. -/

namespace Sys2Proof.Machine

/-! ## The replay of a fetch (R229) -/

theorem exec_replayDoorbell {s : State} {v : Word} (hbit : v.getLsbD 31 = false) (hbusy : s.devBusy = false)
    (hready : s.boot.ready = true) :
    exec (.replayDoorbell v) s = .next ((List.range 8).foldl (fun s d => s.replayDie v d) s) := by
  have hexec : exec (.replayDoorbell v) s = execReplayDoorbell v s := by rfl
  rw [hexec, execReplayDoorbell, hbit, hbusy, onReady, hready]
  rfl
/-- A fragment whose clause ended at a safe point, its stop still with it (`endClause`), and which has then parked at its
next clause's fetch (`State.parkFetch`). -/
def stoppedFetch : Frag :=
  { newFrag 0 (BitVec.allOnes 32) 0 0 (some 0) with state := .parked, prev := .parked, wait := .fetch }
/-- A group that is not to be pre-empted, whose one fragment is parked at its fetch. -/
def fetchingGroup : Group := { oneGroup with split := [(0, stoppedFetch)] }
def parkedFetch : Parked := ⟨0, 0, false, .fetch 0 0, none, 0x18⟩
/-- A ready device, on whose die 0 that fetch is parked. -/
def fetchingState : State :=
  { (State.reset.setGroup 0 fetchingGroup).setDie 0 { Die.reset with parked := [parkedFetch] } with
    boot := { Boot.start with ready := true } }
theorem fetchingState_die {d : Nat} (hd : d ≠ 0) : fetchingState.die d = Die.reset :=
  setDie_die_ne (State.reset.setGroup 0 fetchingGroup) hd { Die.reset with parked := [parkedFetch] }
/-- The doorbell value that names every parked access (R416). -/
def replayAll : Word := 1#32 <<< 30

theorem replayAll_wakes :
    ((List.range 8).foldl (fun s d => s.replayDie replayAll d) fetchingState).group 0 = some (fetchingGroup.wake 0) := by
  rfl

/-- Refutes O45: the replay of a fetch takes the fragment's stop with it where the group is not to be pre-empted
(`Group.wake`, R332, log 27), but the obligation has every field but the state and the wait stay. -/
theorem not_translationsAreAnswered : ¬ Obligations.TranslationsAreAnswered := by
  unfold Obligations.TranslationsAreAnswered
  rintro ⟨-, -, -, hreplay, -⟩
  obtain ⟨-, -, -, hone⟩ := hreplay replayAll fetchingState rfl rfl
  obtain ⟨hfetch, -⟩ := hone rfl 0 (by decide) parkedFetch rfl fun d _ hne p hp => by
    rw [fetchingState_die hne] at hp
    cases hp
  obtain ⟨t, x, f, hrun, hx, hf, -, hkept, -⟩ := hfetch 0 0 rfl fetchingGroup rfl stoppedFetch rfl rfl rfl
  rw [exec_replayDoorbell rfl rfl rfl, Host.Outcome.next.injEq] at hrun
  rw [← hrun, replayAll_wakes, Option.some.injEq] at hx
  have hwoken : (find 0 (fetchingGroup.wake 0).split).map (·.stop) = some none :=
    wake_stop (f := stoppedFetch) rfl rfl rfl
  rw [hx, hf, hkept rfl] at hwoken
  cases hwoken

end Sys2Proof.Machine
end

-- The hand-over of a matrix instruction (R184, R187, R188)
section
/-! What handing a record to the matrix queue leaves, and when a uniform matrix instruction and a per-lane one hand theirs
over. -/

namespace Sys2Proof.Machine

/-! ## Values that an instruction reads -/

theorem SameVals.sNat {r q : RegFile} (hr : SameVals r q) (n : Nat) : r.sNat n = q.sNat n :=
  congrArg BitVec.toNat (hr .s n)
theorem SameVals.value {r q : RegFile} (hr : SameVals r q) (ws : List (Bank × Nat)) : r.value ws = q.value ws :=
  value_congr fun p _ => hr p.1 p.2
theorem SameVals.sPair {r q : RegFile} (hr : SameVals r q) (n : Nat) : r.sPair n = q.sPair n := hr.value _
/-- An s pair as an instruction finds it. -/
def Ctx.sPair (c : Ctx) (n : Nat) : Nat := (c.sOf n).toNat + (c.sOf (n + 1)).toNat * 2 ^ 32
theorem sPair_regs (c : Ctx) (n : Nat) : c.regs.sPair n = c.sPair n := by
  simp only [RegFile.sPair, RegFile.value, Ctx.sPair, Ctx.sOf]
  omega
theorem SameVals.sNat_found {r : RegFile} {c : Ctx} (hr : SameVals r c.regs) (n : Nat) : r.sNat n = (c.sOf n).toNat :=
  hr.sNat n
theorem SameVals.sPair_found {r : RegFile} {c : Ctx} (hr : SameVals r c.regs) (n : Nat) : r.sPair n = c.sPair n :=
  (hr.sPair n).trans (sPair_regs c n)
theorem sPair_lt (c : Ctx) (n : Nat) : c.sPair n < 2 ^ 64 := by
  unfold Ctx.sPair
  omega

theorem fld_low (x n : Nat) : fld x 0 n = x % 2 ^ n := by simp [fld]
theorem ofNat_fld (x lo n : Nat) : BitVec.ofNat n (fld x lo n) = BitVec.ofNat n (x / 2 ^ lo) :=
  BitVec.eq_of_toNat_eq (by simp [fld])

/-- The descriptor that FBSET finds in s registers. -/
def Ctx.fbWord (c : Ctx) (n : Nat) : BitVec 256 :=
  BitVec.ofNat 256 (c.regs.value ((List.range 8).map fun i => (Bank.s, n + i)))
theorem fbWord_read {r : RegFile} {c : Ctx} (hr : SameVals r c.regs) (n : Nat) :
    BitVec.ofNat 256 (r.value ((regsFrom n 8).map fun n => (Bank.s, n))) = c.fbWord n := by
  rw [hr.value, regsFrom, List.map_map]
  rfl

/-! ## The record in the queue (R184, R187) -/

theorem enqueueMat_eq (s : State) (c : Ctx) (g : Group) (k : MatKind) (sb : Option Nat) (issued : Bool) :
    s.enqueueMat c g k sb issued = (g.withMat s.nextId k c.iaddr sb issued, { s with nextId := s.nextId + 1 }) := by
  cases sb <;> rfl
/-- An instruction has handed a record over, with its group otherwise as `y` but for the registers `r`. -/
def State.handedOver (s : State) (c : Ctx) (r : RegFile) (y : Group) (k : MatKind) (sb : Option Nat) (issued sp : Bool)
    (n : Nat) : State :=
  let e := (s.countErrors c r).enqueueMat c (y.withRegs r) k sb issued
  e.2.advance c e.1 c.trk sp n
theorem sbFull_of_room {g : Group} {sb : Option Nat} (hsb : ∀ n, sb = some n → look 0 n g.sb ≠ 255) :
    sbFull g sb = false := by
  cases sb with
  | none => rfl
  | some n => simpa [sbFull] using hsb n rfl

/-- Completing an instruction keeps the names that have been given out. -/
theorem advance_named {s u : State} (hu : u = { s with nextId := s.nextId + 1, cores := u.cores }) (hcores : CoresKept s u)
    (c : Ctx) (g : Group) (trk : Track) (sp : Bool) (n : Nat) : OnlyNamed s (u.advance c g trk sp n) := by
  obtain ⟨hstate, hkept⟩ := advance_only u c g trk sp n
  refine ⟨?_, hcores.trans hkept⟩
  rw [hstate, hu]

section
variable {s : State} {c : Ctx} (h : s.ctx = some c) {r : RegFile} (hr : SameVals r c.regs)
include h hr

/-- An instruction completes that, but for registers read with correction, leaves its group as `y`. -/
theorem advance_read_completes {u : State} (hgroups : u.groups = s.groups) (htracks : u.tracks = s.tracks) {y x : Group}
    (hx : x = { y with v := r.v, s := r.s }) (hsplit : y.split = c.grp.split) (sp : Bool) (n : Nat) :
    Completes s (u.advance c x c.trk sp n) c y noWord := by
  refine (advance_completes_with h hgroups htracks (by rw [hx]) (by rw [hx]; exact hsplit) (fun b k hb _ => ?_) sp n).1
  rw [hx]
  cases b
  · exact hr .v k
  · exact hr .s k
  · exact absurd rfl hb
/-- A record is handed over by an instruction that leaves its group otherwise as `y`. -/
theorem handedOver_completes {y : Group} (hsplit : y.split = c.grp.split) (k : MatKind) (sb : Option Nat)
    (issued sp : Bool) (n : Nat) : OnlyNamed s (s.handedOver c r y k sb issued sp n) ∧
      Completes s (s.handedOver c r y k sb issued sp n) c (y.withMat s.nextId k c.iaddr sb issued) noWord := by
  simp only [State.handedOver, enqueueMat_eq]
  have hstate := countErrors_eq s c r
  have hcores := countErrors_core s c r
  generalize s.countErrors c r = u at hstate hcores
  have hid : u.nextId = s.nextId := by rw [hstate]
  refine ⟨advance_named (u := { u with nextId := u.nextId + 1 }) ?_ hcores ..,
    advance_read_completes h hr ?_ ?_ ?_ ?_ sp n⟩
  · rw [hstate]
  · rw [hstate]
  · rw [hstate]
  · rw [hid]
    rfl
  · exact hsplit
omit hr in
/-- The precise fault of a check at hand-over finds the state as the instruction did, but for corrected registers. -/
theorem faultsAt_read (r : RegFile) : FaultsAt s ((s.countErrors c r).setGroup c.g (c.grp.withRegs r)) c := by
  refine ⟨h, ?_, ?_, _, setGroup_group .., rfl⟩
  · rw [← around_setGroup, countErrors_eq]
    rfl
  · show (s.countErrors c r).grids = s.grids
    rw [countErrors_eq]
end

/-! ## Uniform matrix instructions -/

/-- What a uniform instruction answers on s registers that are readable. -/
theorem onUniformS_next {s : State} {c : Ctx} (h : s.ctx = some c) (hcur : c.run.cursor ≠ some 32) {sp : Bool}
    {ns : List Nat} (hread : SReadable c ns) {k : State → Ctx → RegFile → Out} {out : RegFile → State}
    (hk : ∀ r, SameVals r c.regs → k (s.countErrors c r) { c with grp := c.grp.withRegs r } r = .next (out r)) :
    ∃ r, SameVals r c.regs ∧ onUniformS s sp ns k = .next (out r) := by
  obtain ⟨r, hr, hrun⟩ := onUniformS_runs h hcur sp hread k
  exact ⟨r, hr, hrun.trans (hk r hr)⟩
/-- A uniform matrix instruction hands its record over where its s registers are readable and pass its check. -/
theorem matUniform_handsOver {i : Instr} {sp : Bool} {regs : List Nat} {sb : Option Nat} {issued : Bool}
    {check : Ctx → RegFile → Option (Nat × Nat)} {k : Ctx → RegFile → MatKind}
    (he : ∀ s, exec i s = matUniform s sp regs sb issued check k) {pre : Ctx → Prop} {rec_ : Ctx → MatKind}
    (hpre : ∀ c, pre c → c.run.cursor ≠ some 32 ∧ SReadable c regs)
    (hcheck : ∀ c r, pre c → SameVals r c.regs → check { c with grp := c.grp.withRegs r } r = none)
    (hrec : ∀ c r, SameVals r c.regs → k { c with grp := c.grp.withRegs r } r = rec_ c) :
    MatHandsOver i pre rec_ sb issued := by
  intro s c h hc hsb
  obtain ⟨hcur, hread⟩ := hpre c hc
  obtain ⟨r, hr, hrun⟩ : ∃ r, SameVals r c.regs ∧
      exec i s = .next (s.handedOver c r c.grp (rec_ c) sb issued sp 1) := by
    rw [he]
    refine onUniformS_next h hcur hread fun r hr => ?_
    have hroom : sbFull (c.grp.withRegs r) sb = false := sbFull_of_room (g := c.grp.withRegs r) hsb
    simp only [hcheck c r hc hr, hroom, hrec c r hr, Bool.false_eq_true, if_false]
    rfl
  exact ⟨_, hrun, handedOver_completes h hr rfl (rec_ c) sb issued sp 1⟩

/-! ## Per-lane matrix instructions -/

/-- The loop over lanes that are readable and pass their checks. -/
theorem matLanes_pass {reads : Nat → List (Bank × Nat)} {check : RegFile → Nat → Option Nat} {ls : List Nat}
    {r : RegFile} (hread : ∀ i ∈ ls, Readable r (reads i)) (hcheck : ∀ i ∈ ls, ∀ q, SameVals q r → check q i = none) :
    ∃ q, matLanes reads check ls r = (q, none) ∧ SameVals q r := by
  induction ls generalizing r with
  | nil => exact ⟨r, rfl, fun _ _ => rfl⟩
  | cons i ls ih =>
    have hok : (r.touchAll (reads i)).2 = false := touchAll_ok _ (hread i List.mem_cons_self)
    have hvals : SameVals (r.touchAll (reads i)).1 r := touchAll_vals _ _
    obtain ⟨q, hq, hqvals⟩ := ih (r := (r.touchAll (reads i)).1)
      (fun j hj => touchAll_readable _ _ (hread j (List.mem_cons_of_mem _ hj)))
      fun j hj q hq => hcheck j (List.mem_cons_of_mem _ hj) q (hq.trans hvals)
    refine ⟨q, ?_, hqvals.trans hvals⟩
    simp only [matLanes, hok, Bool.false_eq_true, if_false, hcheck i List.mem_cons_self _ hvals, hq]

/-- A per-lane matrix instruction with an active lane hands its record over where what it reads is readable and passes its
checks. -/
theorem matPerLane_handsOver {i : Instr} {sp : Bool} {sb : Option Nat} {issued : Bool} {sregs : List Nat}
    {reads : Nat → List (Bank × Nat)} {first : Ctx → RegFile → Option Nat} {check : Ctx → RegFile → Nat → Option Nat}
    {k : Ctx → RegFile → List Nat → MatKind}
    (he : ∀ s, exec i s = matPerLane s sp sb issued sregs reads first check k) {pre : Ctx → Prop} {rec_ : Ctx → MatKind}
    (hpre : ∀ c, pre c → c.lanes ≠ [] ∧ SReadable c sregs ∧ ∀ l ∈ c.lanes, Readable c.regs (reads l))
    (hfirst : ∀ c r, pre c → SameVals r c.regs → first c r = none)
    (hcheck : ∀ c r, pre c → SameVals r c.regs → ∀ l ∈ c.lanes, check c r l = none)
    (hrec : ∀ c r, SameVals r c.regs → k c r c.lanes = rec_ c) : MatHandsOver i pre rec_ sb issued := by
  intro s c h hc hsb
  obtain ⟨hlanes, hsread, hvread⟩ := hpre c hc
  obtain ⟨i0, ls, hls⟩ := List.exists_cons_of_ne_nil hlanes
  obtain ⟨r, hr, hrun⟩ : ∃ r, SameVals r c.regs ∧
      exec i s = .next (s.handedOver c r c.grp (rec_ c) sb issued sp (laneSteps c.lanes.length)) := by
    rw [he, matPerLane, onTrack, h]
    simp only [hls, sbFull_of_room hsb, Bool.false_eq_true, if_false]
    generalize hm : matLanes _ _ _ _ = m
    obtain ⟨r, rfl, hr⟩ : ∃ r, m = (r, none) ∧ SameVals r c.regs := by
      rw [← hm, ← hls]
      refine matLanes_pass (fun l hl p hp => ?_) fun l hl q hq => ?_
      · split at hp
        · exact (List.mem_append.1 hp).elim (hsread p) (hvread l hl p)
        · exact hvread l hl p hp
      · simp only [hfirst c q hc hq, ite_self, hcheck c q hc hq l hl]
    refine ⟨r, hr, ?_⟩
    rw [← hls]
    simp only [hrec c r hr]
    rfl
  exact ⟨_, hrun, handedOver_completes h hr rfl (rec_ c) sb issued sp (laneSteps c.lanes.length)⟩

end Sys2Proof.Machine
end

-- Gangs and format-block descriptors (R188, R191, R192, R361)
section
/-! The rules of a gang as the check of GANG decides them, what GANG and FBSET leave, and the obligation on them. -/

namespace Sys2Proof.Machine

/-! ## The list of a gang (R361) -/

theorem length_eraseDups_le {α : Type} [BEq α] [LawfulBEq α] (l : List α) : l.eraseDups.length ≤ l.length := by
  induction h : l.length using Nat.strong_induction_on generalizing l with
  | _ n ih =>
    cases l with
    | nil => simp
    | cons a l =>
      subst h
      rw [List.eraseDups_cons, List.length_cons, List.length_cons]
      have hle : (l.filter fun b => !b == a).length ≤ l.length := List.length_filter_le ..
      have hshorter := ih _ (Nat.lt_succ_of_le hle) (l.filter fun b => !b == a) rfl
      omega
/-- A list loses no entry with its duplicates exactly when it has none. -/
theorem length_eraseDups_eq_iff {α : Type} [BEq α] [LawfulBEq α] (l : List α) :
    l.eraseDups.length = l.length ↔ l.Nodup := by
  induction l with
  | nil => simp
  | cons a l ih =>
    rw [List.eraseDups_cons, List.length_cons, List.length_cons, List.nodup_cons, ← ih, Nat.add_right_cancel_iff]
    have hrest := length_eraseDups_le (l.filter fun b => !b == a)
    by_cases ha : a ∈ l
    · have hlt : (l.filter fun b => !b == a).length < l.length :=
        List.length_filter_lt_length_iff_exists.2 ⟨a, ha, by simp⟩
      exact ⟨fun h => by omega, fun h => absurd ha h.1⟩
    · have hself : (l.filter fun b => !b == a) = l :=
        List.filter_eq_self.2 fun b hb => by simp [ne_of_mem_of_not_mem hb ha]
      rw [hself]
      exact ⟨fun h => ⟨ha, h⟩, fun h => h.2⟩
theorem nodup_map_range {α : Type} (f : Nat → α) (n : Nat) :
    ((List.range (n + 1)).map f).Nodup ↔ ∀ i j, i < j → j ≤ n → f i ≠ f j := by
  rw [List.Nodup, List.pairwise_map, List.pairwise_iff_getElem]
  simp only [List.length_range, List.getElem_range]
  exact ⟨fun h i j hij hj => h i j (by omega) (by omega) hij, fun h i j _ hj hij => h i j hij (by omega)⟩

/-- The entry of a %gang value at a position, and its size less 1. -/
def gangMember (p i : Nat) : Nat := p / 2 ^ (6 * i) % 64
def gangSize (p : Nat) : Nat := p / 2 ^ 36 % 8
theorem gangMembers_eq (p : Nat) : gangMembers p = (List.range (gangSize p + 1)).map (gangMember p) := rfl
/-- The rules of R361 on a list of members. -/
def GangRules (p ngroups own : Nat) : Prop :=
  1 ≤ gangSize p ∧ gangSize p ≤ 5 ∧ (∀ i, i ≤ gangSize p → gangMember p i < ngroups) ∧
    (∀ i j, i < j → j ≤ gangSize p → gangMember p i ≠ gangMember p j) ∧
    p % 2 ^ 36 / 2 ^ (6 * (gangSize p + 1)) = 0 ∧ p / 2 ^ 50 = 0 ∧ ∃ i, i ≤ gangSize p ∧ gangMember p i = own
theorem gangOk_iff {p : Nat} (hp : p < 2 ^ 64) (ngroups own : Nat) :
    gangOk p ngroups own = true ↔ GangRules p ngroups own := by
  have hhigh : fld p 50 14 = p / 2 ^ 50 := Nat.mod_eq_of_lt (by omega)
  have hsize : fld p 36 3 = gangSize p := rfl
  simp only [gangOk, hhigh, fld_low, hsize, Bool.and_eq_true, decide_eq_true_eq, length_eraseDups_eq_iff, List.all_eq_true,
    List.contains_iff_mem, and_assoc]
  simp only [gangMembers_eq, nodup_map_range, List.mem_map, List.mem_range, Nat.lt_succ_iff, forall_exists_index, and_imp,
    forall_apply_eq_imp_iff₂, GangRules]

theorem firstIdx_spec {α : Type} (q : α → Bool) {l : List α} {x : α} (hx : x ∈ l) (hq : q x = true) :
    ∃ i y, firstIdx q l = some i ∧ l[i]? = some y ∧ q y = true := by
  induction l with
  | nil => cases hx
  | cons a l ih =>
    by_cases ha : q a = true
    · exact ⟨0, a, if_pos ha, rfl, ha⟩
    · have hl : x ∈ l := (List.mem_cons.1 hx).resolve_left fun he => ha (he ▸ hq)
      obtain ⟨i, y, hi, hy, hqy⟩ := ih hl
      exact ⟨i + 1, y, by rw [firstIdx, if_neg ha, hi]; rfl, hy, hqy⟩
/-- The position is that of the own group. -/
theorem gangPos_spec {p own : Nat} (hown : ∃ i, i ≤ gangSize p ∧ gangMember p i = own) :
    gangPos p own ≤ gangSize p ∧ gangMember p (gangPos p own) = own := by
  obtain ⟨j, hj, hown⟩ := hown
  have hmem : own ∈ gangMembers p := List.mem_map.2 ⟨j, List.mem_range.2 (Nat.lt_succ_of_le hj), hown⟩
  obtain ⟨i, y, hi, hy, heq⟩ := firstIdx_spec (· == own) hmem (beq_self_eq_true own)
  have hpos : gangPos p own = i := by rw [gangPos, hi]; rfl
  rw [gangMembers_eq, List.getElem?_map, Option.map_eq_some_iff] at hy
  obtain ⟨k, hk, rfl⟩ := hy
  obtain ⟨hlt, hk⟩ := List.getElem?_eq_some_iff.1 hk
  rw [List.getElem_range] at hk
  subst hk
  rw [List.length_range] at hlt
  rw [hpos]
  exact ⟨Nat.le_of_lt_succ hlt, eq_of_beq heq⟩
/-- %gang as GANG writes it: the list with the position in bits 41:39. -/
theorem gangValue_toNat {p i : Nat} (hp : p / 2 ^ 50 = 0) (hi : i ≤ 5) :
    (BitVec.ofNat 64 (p - fld p 39 3 * 2 ^ 39 + i * 2 ^ 39)).toNat = p % 2 ^ 39 + i * 2 ^ 39 + p / 2 ^ 42 * 2 ^ 42 := by
  rw [BitVec.toNat_ofNat, fld]
  omega

/-! ## GANG (R361) -/

theorem exec_gang (sp : Bool) (sn : BitVec 7) (s : State) : exec (.gang sp sn) s = execGang sp sn s := by rfl
theorem exec_gangOff (sp : Bool) (s : State) : exec (.gangOff sp) s = execGangOff sp s := by rfl
theorem exec_fbset (sp : Bool) (fr : BitVec 2) (sn : BitVec 7) (s : State) :
    exec (.fbset sp fr sn) s = execFbset sp fr sn s := by rfl

section
variable {s : State} {c : Ctx} (h : s.ctx = some c) (hcur : c.run.cursor ≠ some 32)
include h hcur

/-- A uniform instruction on readable s registers that answers with the precise matrix-operand fault (R188). -/
theorem onUniformS_faults {sp : Bool} {ns : List Nat} (hread : SReadable c ns) {k : State → Ctx → RegFile → Out}
    (hk : ∀ r, SameVals r c.regs → k (s.countErrors c r) { c with grp := c.grp.withRegs r } r =
      .next (((s.countErrors c r).setGroup c.g (c.grp.withRegs r)).precise { c with grp := c.grp.withRegs r } 0x20 0 none
        0 0)) :
    ∃ t, onUniformS s sp ns k = .next t ∧ Faults s t c 0x20 0 (resumePair c.run.hdr c.resumeWord) 0 := by
  obtain ⟨r, -, hrun⟩ := onUniformS_next h hcur hread hk
  exact ⟨_, hrun, precise_faults (faultsAt_read h r) (by decide) (by decide) none 0 0⟩

/-- GANG of an s pair that lists a gang. -/
theorem exec_gang_listed (sp : Bool) (sn : BitVec 7) (hread : SReadable c [sn.toNat, sn.toNat + 1])
    (hrules : GangRules (c.sPair sn.toNat) c.grid.ngroups c.grp.idx) :
    ∃ t x i, exec (.gang sp sn) s = .next t ∧ t.group c.g = some x ∧ i ≤ gangSize (c.sPair sn.toNat) ∧
      gangMember (c.sPair sn.toNat) i = c.grp.idx ∧ Completes s t c { c.grp with gang := x.gang } noWord ∧ Only s t ∧
      x.gang.toNat = c.sPair sn.toNat % 2 ^ 39 + i * 2 ^ 39 + c.sPair sn.toNat / 2 ^ 42 * 2 ^ 42 := by
  have hok := (gangOk_iff (sPair_lt c sn.toNat) _ _).2 hrules
  obtain ⟨-, hsize, -, -, -, hhigh, hown⟩ := hrules
  obtain ⟨hpos, hmember⟩ := gangPos_spec hown
  have hvalue := gangValue_toNat hhigh (hpos.trans hsize)
  generalize hw : BitVec.ofNat 64 _ = w at hvalue
  obtain ⟨r, hr, hrun⟩ : ∃ r, SameVals r c.regs ∧ exec (.gang sp sn) s =
      .next ((s.countErrors c r).advance c { c.grp.withRegs r with gang := w } c.trk sp 1) := by
    rw [exec_gang, execGang]
    refine onUniformS_next h hcur hread fun r hr => ?_
    have hidx : (c.grp.withRegs r).idx = c.grp.idx := rfl
    simp only [hr.sPair_found, hidx, hok, if_true, hw]
    rfl
  have hcompl := advance_read_completes h hr (u := s.countErrors c r) (by rw [countErrors_eq]) (by rw [countErrors_eq])
    (y := { c.grp with gang := w }) (x := { c.grp.withRegs r with gang := w }) rfl rfl sp 1
  have ⟨_, _, ⟨x, _, hx, hfields, _⟩, _⟩ := hcompl
  obtain rfl : x.gang = w := by rw [hfields]
  exact ⟨_, x, _, hrun, hx, hpos, hmember, hcompl, (countErrors_only s c r).trans (advance_only ..), hvalue⟩
/-- GANG of any other s pair. -/
theorem exec_gang_unlisted (sp : Bool) (sn : BitVec 7) (hread : SReadable c [sn.toNat, sn.toNat + 1])
    (hrules : ¬ GangRules (c.sPair sn.toNat) c.grid.ngroups c.grp.idx) :
    ∃ t, exec (.gang sp sn) s = .next t ∧ Faults s t c 0x20 0 (resumePair c.run.hdr c.resumeWord) 0 := by
  have hok := mt (gangOk_iff (sPair_lt c sn.toNat) _ _).1 hrules
  rw [exec_gang, execGang]
  refine onUniformS_faults h hcur hread fun r hr => ?_
  have hidx : (c.grp.withRegs r).idx = c.grp.idx := rfl
  simp only [hr.sPair_found, hidx, hok, Bool.false_eq_true, if_false]
theorem exec_gangOff_next (sp : Bool) :
    exec (.gangOff sp) s = .next (s.advance c { c.grp with gang := 0 } c.trk sp 1) := by
  rw [exec_gangOff, execGangOff, onUniform_runs h hcur]

/-! ## FBSET (R192) -/

variable (sp : Bool) (fr : BitVec 2) (sn : BitVec 7) (hread : SReadable c ((List.range 8).map (sn.toNat + ·)))
include hread

theorem exec_fbset_ok (hok : descOk (c.fbWord sn.toNat) = true) :
    ∃ t, exec (.fbset sp fr sn) s = .next t ∧ OnlyNamed s t ∧
      Completes s t c { c.grp.withMat s.nextId .fbset c.iaddr none true with
        f := put 0 fr.toNat (c.fbWord sn.toNat ||| (1#256 <<< 31)) c.grp.f } noWord := by
  obtain ⟨r, hr, hrun⟩ : ∃ r, SameVals r c.regs ∧ exec (.fbset sp fr sn) s = .next (s.handedOver c r
      { c.grp with f := put 0 fr.toNat (c.fbWord sn.toNat ||| (1#256 <<< 31)) c.grp.f } .fbset none true sp 1) := by
    rw [exec_fbset, execFbset]
    refine onUniformS_next h hcur hread fun r hr => ?_
    simp only [fbWord_read hr, hok, if_true]
    rfl
  refine ⟨_, hrun, handedOver_completes h hr ?_ .fbset none true sp 1⟩
  rfl
theorem exec_fbset_bad (hbad : descOk (c.fbWord sn.toNat) = false) :
    ∃ t, exec (.fbset sp fr sn) s = .next t ∧ Faults s t c 0x20 0 (resumePair c.run.hdr c.resumeWord) 0 := by
  rw [exec_fbset, execFbset]
  refine onUniformS_faults h hcur hread fun r hr => ?_
  simp only [fbWord_read hr, hbad, Bool.false_eq_true, if_false]
end

/-! ## The obligation -/

/-- Settles O38: `gangOk` and `descOk` are the rules that the obligation writes out, and each instruction completes or faults
by them. -/
theorem gangsAndDescriptors : Obligations.GangsAndDescriptors := by
  unfold Obligations.GangsAndDescriptors
  refine ⟨fun sp sn s c h hcur hread => ⟨exec_gang_listed h hcur sp sn hread, exec_gang_unlisted h hcur sp sn hread⟩,
    fun sp s c h hcur => ?_,
    fun sp fr sn s c h hcur hread => ⟨exec_fbset_ok h hcur sp fr sn hread, exec_fbset_bad h hcur sp fr sn hread⟩⟩
  have hcompl := (advance_completes_with h rfl rfl (g := { c.grp with gang := 0 }) (x := { c.grp with gang := 0 }) rfl rfl
    (trk := c.trk) (written := noWord) (fun b k _ _ => by cases b <;> rfl) sp 1).1
  exact ⟨_, exec_gangOff_next h hcur sp, advance_only .., hcompl⟩

end Sys2Proof.Machine
end

-- The matrix instructions (R184 to R188, R193, R195, R197, R201, R203, R205 to R209)
section
/-! The checks of the matrix instructions on the values that they read, and the obligation on their hand-over. -/

namespace Sys2Proof.Machine

/-! ## MMA, MMAD, MMUP (R193, R195, R201) -/

section
variable {f : FmtX} {mmad : Bool} {c : Ctx} {r q : RegFile} (hr : SameVals r q)
include hr

theorem jointCheck_congr : jointCheck f mmad c r = jointCheck f mmad c q := by
  simp only [jointCheck, hr.sPair, hr.sNat]
theorem rowCheck_congr (l : Nat) : rowCheck f c r l = rowCheck f c q l := by
  simp only [rowCheck, hr.value, hr.sNat]
end
/-- The operands of a joint record as its instruction finds them. -/
def jointOf (f : FmtX) (mmad : Bool) (c : Ctx) : JointOp :=
  ⟨mmad, f.z, look 0 f.fba.toNat c.grp.f, look 0 f.fbb.toNat c.grp.f,
    c.lanes.map fun l => (l, (c.regs.get .v (vkey f.idx.toNat l)).val,
      if mmad then (c.regs.get .v (vkey f.adp.toNat l)).val.setWidth 16 else 0),
    BitVec.ofNat 64 (c.sPair (2 * f.abase.toNat)), BitVec.ofNat 64 (c.sPair (2 * f.bbase.toNat)), f.kch.toNat + 1,
    c.grp.gang⟩
/-- MMA and MMAD. -/
theorem joint_handsOver {f : FmtX} {mmad : Bool} {i : Instr} (he : ∀ s, exec i s = runJoint f mmad s) :
    MatHandsOver i
      (fun c => c.lanes ≠ [] ∧ SReadable c (regsFrom (2 * f.abase.toNat) 2 ++ regsFrom (2 * f.bbase.toNat) 2) ∧
        (∀ l ∈ c.lanes, Readable c.regs ((Bank.v, vkey f.idx.toNat l) ::
          if mmad then [(Bank.v, vkey f.adp.toNat l)] else [])) ∧
        jointCheck f mmad c c.regs = none ∧ ∀ l ∈ c.lanes, rowCheck f c c.regs l = none)
      (fun c => .joint f.acc.toNat (jointOf f mmad c)) none false := by
  refine matPerLane_handsOver he (fun c hc => ?_) (fun c r hc hr => ?_) (fun c r hc hr l hl => ?_) fun c r hr => ?_
  · obtain ⟨hlanes, hsread, hvread, -⟩ := hc
    exact ⟨hlanes, hsread, hvread⟩
  · obtain ⟨-, -, -, hjoint, -⟩ := hc
    rw [jointCheck_congr hr, hjoint]
  · obtain ⟨-, -, -, -, hrow⟩ := hc
    rw [rowCheck_congr hr, hrow l hl]
  · have hget : ∀ b k, (r.get b k).val = (c.regs.get b k).val := hr
    simp only [hget, hr.sPair_found]
    rfl

theorem exec_mma (f : FmtX) (s : State) : exec (.mma f) s = execMma f s := by rfl
theorem exec_mmad (f : FmtX) (s : State) : exec (.mmad f) s = execMmad f s := by rfl
theorem exec_mmup (sp : Bool) (acc : BitVec 3) (b : BitVec 7) (s : State) : exec (.mmup sp acc b) s =
    matPerLane s sp none true (regsFrom (2 * b.toNat) 2) (fun _ => [])
      (fun _ r => if r.sNat (2 * b.toNat + 1) % 64 = 0 then none else some 0x20) (fun _ _ _ => none)
      fun _ r ls => .up acc.toNat ls (r.sNat (2 * b.toNat + 1) / 64) := by rfl
theorem mmup_handsOver (sp : Bool) (acc : BitVec 3) (b : BitVec 7) : MatHandsOver (.mmup sp acc b)
    (fun c => c.lanes ≠ [] ∧ SReadable c (regsFrom (2 * b.toNat) 2) ∧ (c.sOf (2 * b.toNat + 1)).toNat % 64 = 0)
    (fun c => .up acc.toNat c.lanes ((c.sOf (2 * b.toNat + 1)).toNat / 64)) none true := by
  refine matPerLane_handsOver (exec_mmup sp acc b) (fun c hc => ?_) (fun c r hc hr => ?_) (fun _ _ _ _ _ _ => rfl)
    fun c r hr => ?_
  · obtain ⟨hlanes, hread, -⟩ := hc
    exact ⟨hlanes, hread, fun _ _ => readable_nil⟩
  · obtain ⟨-, -, hmult⟩ := hc
    simp only [hr.sNat_found, hmult, if_true]
  · simp only [hr.sNat_found]

/-! ## Bindings and tiles (R197, R203, R205 to R209) -/

theorem exec_adset (sp : Bool) (sn : BitVec 7) (s : State) : exec (.adset sp sn) s = execAdset sp sn s := by rfl
theorem exec_adinv (sp all : Bool) (id : BitVec 16) (s : State) :
    exec (.adinv sp all id) s = execAdinv sp all id s := by rfl
theorem exec_accld (f : FmtAcc) (s : State) : exec (.accld f) s = execAccld f s := by rfl
theorem exec_accst (f : FmtAcc) (s : State) : exec (.accst f) s = execAccst f s := by rfl
theorem exec_accz (sp : Bool) (acc : BitVec 3) (s : State) : exec (.accz sp acc) s = execAccz sp acc s := by rfl
theorem exec_accmov_to {f : FmtAccmov} (hdir : f.dir = false) (s : State) : exec (.accmov f) s =
    matPerLane s f.sp (some f.sb.toNat) true [] (fun _ => []) (fun _ _ => none) (fun _ _ _ => none)
      fun _ _ ls => .accmovTo f.acc.toNat f.vn.toNat (Width.count f.w) f.col.toNat ls := by
  show execAccmov f s = _
  simp only [execAccmov, hdir, Bool.false_eq_true, if_false]
/-- The words of a lane that ACCMOV reads. -/
def movWords (f : FmtAccmov) (l : Nat) : List (Bank × Nat) :=
  (List.range (Width.count f.w)).map fun j => (Bank.v, vkey (f.vn.toNat + j) l)
theorem exec_accmov_from {f : FmtAccmov} (hdir : f.dir = true) (s : State) : exec (.accmov f) s =
    matPerLane s f.sp none true [] (movWords f) (fun _ _ => none) (fun _ _ _ => none)
      fun _ r ls => .accmovFrom f.acc.toNat (Width.count f.w) f.col.toNat
        (ls.map fun l => (l, (movWords f l).map fun k => (r.get k.1 k.2).val)) := by
  show execAccmov f s = _
  simp only [execAccmov, hdir, if_true]
  rfl
theorem exec_accwait (sp : Bool) (acc : BitVec 3) (all : Bool) (sb : BitVec 3) (s : State) :
    exec (.accwait sp acc all sb) s = execAccwait sp acc all sb s := by rfl
theorem exec_accscl (f : FmtAccscl) (s : State) : exec (.accscl f) s = execAccscl f s := by rfl

/-- What R206 asks of a transfer's base and pitch. -/
def TileFits (f : FmtAcc) (c : Ctx) : Prop :=
  (c.sOf f.sn.toNat).toNat % 16 = 0 ∧ f.pitch.toNat % 16 = 0 ∧ 64 * TTy.bytes f.ty ≤ f.pitch.toNat ∧
    (c.sOf f.sn.toNat).toNat + 31 * f.pitch.toNat + 64 * TTy.bytes f.ty ≤ c.team.size
theorem tileCheck_pass {f : FmtAcc} {c : Ctx} (hfits : TileFits f c) {r : RegFile} (hr : SameVals r c.regs) (g : Group) :
    tileCheck f { c with grp := g } r = none := by
  obtain ⟨hbase, hpitch, hrow, hlast⟩ := hfits
  have hfield : ¬ ((c.sOf f.sn.toNat).toNat % 16 ≠ 0 ∨ f.pitch.toNat % 16 ≠ 0 ∨
      f.pitch.toNat < 64 * TTy.bytes f.ty) := by
    omega
  simp only [tileCheck, hr.sNat_found, if_neg hfield, if_neg (Nat.not_lt.2 hlast)]
theorem vecCheck_pass {size n a : Nat} (halign : a % 4 = 0) (hfits : a + 4 * n ≤ size) : vecCheck size n a = none := by
  rw [vecCheck, if_neg (not_not.2 halign), if_neg (Nat.not_lt.2 hfits)]

/-! ## The obligation -/

/-- Settles O39: what each instruction reads keeps its value, so its checks and its record are those of the registers it
found. -/
theorem matrixInstructionsHandOver : Obligations.MatrixInstructionsHandOver := by
  unfold Obligations.MatrixInstructionsHandOver
  intro uni pair joint
  refine ⟨fun f => joint_handsOver (exec_mma f), fun f => joint_handsOver (exec_mmad f), mmup_handsOver, fun sp sn => ?_,
    fun sp all id => ?_, ?_, fun sp acc => ?_, fun f => ?_, fun sp acc all sb => ?_, fun f => ?_⟩
  · refine matUniform_handsOver (exec_adset sp sn) (fun c hc => hc.1) (fun c r hc hr => ?_) fun c r hr => ?_
    · obtain ⟨-, halign, hva, hgen⟩ := hc
      rw [hr.sPair_found, hr.sNat_found]
      exact if_pos ⟨halign, hva, hgen⟩
    · simp only [hr.sPair_found, hr.sNat_found, fld_low, ofNat_fld, BitVec.ofNat_toNat]
      rfl
  · exact matUniform_handsOver (exec_adinv sp all id) (fun c hc => ⟨hc, readable_nil⟩) (fun _ _ _ _ => rfl)
      fun _ _ _ => rfl
  · intro tile sb
    refine ⟨fun f => ?_, fun f => ?_⟩
    · refine matUniform_handsOver (exec_accld f) (fun c hc => hc.1) (fun c r hc hr => tileCheck_pass hc.2 hr _)
        fun c r hr => ?_
      rw [hr.sNat_found]
    · refine matUniform_handsOver (exec_accst f) (fun c hc => hc.1) (fun c r hc hr => tileCheck_pass hc.2 hr _)
        fun c r hr => ?_
      rw [hr.sNat_found]
  · exact matUniform_handsOver (exec_accz sp acc) (fun c hc => ⟨hc, readable_nil⟩) (fun _ _ _ _ => rfl) fun _ _ _ => rfl
  · refine ⟨fun hdir => ?_, fun hdir => ?_⟩
    · exact matPerLane_handsOver (exec_accmov_to hdir) (fun c hc => ⟨hc, readable_nil, fun _ _ => readable_nil⟩)
        (fun _ _ _ _ => rfl) (fun _ _ _ _ _ _ => rfl) fun _ _ _ => rfl
    · refine matPerLane_handsOver (exec_accmov_from hdir) (fun c hc => ?_) (fun _ _ _ _ => rfl) (fun _ _ _ _ _ _ => rfl)
        fun c r hr => ?_
      · obtain ⟨hlanes, hread⟩ := hc
        exact ⟨hlanes, readable_nil, hread⟩
      · have hget : ∀ b k, (r.get b k).val = (c.regs.get b k).val := hr
        simp only [hget]
        rfl
  · exact matUniform_handsOver (exec_accwait sp acc all sb) (fun c hc => ⟨hc, readable_nil⟩) (fun _ _ _ _ => rfl)
      fun _ _ _ => rfl
  · refine matUniform_handsOver (exec_accscl f) (fun c hc => hc.1) (fun c r hc hr => ?_) fun c r hr => ?_
    · obtain ⟨-, hscale, hbias⟩ := hc
      have hvec : ∀ {b : Bool} {a : Nat}, (b = true → a % 4 = 0 ∧ a + 4 * (if f.ax then 64 else 32) ≤ c.team.size) →
          (if b then vecCheck c.team.size (if f.ax then 64 else 32) a else none) = none := by
        intro b a hb
        cases b
        · rfl
        · exact vecCheck_pass (hb rfl).1 (hb rfl).2
      simp only [hr.sNat_found, hvec hscale, hvec hbias]
    · simp only [hr.sNat_found]

end Sys2Proof.Machine
end

-- A chunk behind a pending term of MMUP (R110, R196, R201)
section
/-! What a chunk of a joint operation leaves of a row on which a term of MMUP is still pending, and why the obligation on the
records of the matrix unit fails at it. -/

namespace Sys2Proof.Machine

/-! ## A base product that waits (R110) -/

theorem exec_matrixChunk (s : State) : exec .matrixChunk s = execMatrixChunk s := by rfl
theorem exec_matrixChunk_next {s : State} {o : MatOp} {rest : List MatOp} (h : (s.core s.pick).matUnit = o :: rest) :
    exec .matrixChunk s = .next (s.matChunk s.pick o rest) := by
  rw [exec_matrixChunk, execMatrixChunk]
  simp only [h]

/-- On a row whose MMUP term is pending the base product joins the pending terms and is not added to the row. -/
theorem chunkRow_behind_up {w : TileWork} {r : MatRow} (hup : w.tile.upPending r.row = true) (hid : r.id = 0) (k : Core)
    (o : MatOp) (cols : List (List El)) (iaddr : Nat) : chunkRow k o cols iaddr w r =
      { w with tile := w.tile.appendBase r.row ⟨o.bind, r.id, .base (r.a.headD []) cols, iaddr, []⟩ } := by
  simp [chunkRow, hup, hid]
/-- A chunk, but the last, of a single such row changes no element of its tile. -/
theorem matChunk_behind_up {s : State} {core : Nat} {o : MatOp} {m : MatMem} {r : MatRow} (hm : o.members = [m])
    (hr : m.rows = [r]) (hid : r.id = 0) (hup : (s.tile core m.tile).upPending r.row = true) (hlen : 1 < o.b.length)
    (rest : List MatOp) : ((s.matChunk core o rest).tile core m.tile).elems = (s.tile core m.tile).elems := by
  have hwork : (TileWork.of (s.tile core m.tile)).tile.upPending r.row = true := hup
  simp only [State.matChunk, hm, hr, List.foldl_cons, List.foldl_nil, chunkRow_behind_up hwork hid, State.tileDone, hlen,
    if_true]
  simp [State.tile, State.setTile, TileWork.of, Core.count, Tile.appendBase]

/-- A line of 32 ones. -/
def ones : List El := List.replicate 32 (.fin ⟨1, 0⟩ false)
/-- Two chunks of ones on row 0 of tile 0, which carries no adapter id. -/
def onesRow : MatRow := ⟨0, 0, [ones, ones], [true, true]⟩
def onesMember : MatMem := ⟨0, 0, 0, 0, 0, [onesRow]⟩
def onesOp : MatOp := ⟨[onesMember], [[ones], [ones]], 0, 32, ⟨0, 1, 0, 0⟩, []⟩
/-- Tile 0, whose row 0 waits for the slice that a term of MMUP needs. -/
def waitingTile : Tile := { Tile.start with
  rowIds := [(0, 1)]
  replay := [⟨0, 0, 0, [⟨⟨0, 1, 0, 0⟩, 1, .up 0, 0, []⟩]⟩] }
/-- Core 0 is at the first of the two chunks. -/
def waitingState : State :=
  State.reset.setCore 0 { Core.reset with tiles := [(0, waitingTile)], matUnit := [onesOp] }
theorem waitingState_core :
    waitingState.core 0 = { Core.reset with tiles := [(0, waitingTile)], matUnit := [onesOp] } := setCore_core ..
theorem waitingState_tile : waitingState.tile 0 0 = waitingTile := by
  rw [State.tile, waitingState_core]
  rfl
theorem waitingState_el (n : Nat) : look RegWord.zero (ekey 0 n) (waitingState.tile 0 0).elems = RegWord.zero := by
  rw [waitingState_tile]
  rfl
/-- The product waits with the term of MMUP: no element of the tile has changed. -/
theorem waitingState_chunk :
    ((waitingState.matChunk 0 onesOp []).tile 0 0).elems = (waitingState.tile 0 0).elems := by
  have hup : (waitingState.tile 0 0).upPending 0 = true := by
    rw [waitingState_tile]
    decide
  exact matChunk_behind_up (m := onesMember) (r := onesRow) rfl rfl rfl hup (by decide) []
/-- Added to an element that is 0, the product of two lines of ones gives 32.0. -/
theorem chunkAcc_ones : chunkAcc 0 ones ones = 0x42000000 := by decide +kernel

/-- Refutes O53, by its clause on the chunks of a joint record: it has each chunk but the last add to its row, but behind a
pending term of MMUP the chunk's product waits with it (R110), and the row's elements stay as they are until then. -/
theorem not_matrixRecordsTakeEffect : ¬ Obligations.MatrixRecordsTakeEffect := by
  unfold Obligations.MatrixRecordsTakeEffect
  rintro ⟨-, -, hchunk, -⟩
  have hunit : (waitingState.core 0).matUnit = [onesOp] := congrArg Core.matUnit waitingState_core
  obtain ⟨t, hrun, -, hmore⟩ := hchunk waitingState onesOp [] hunit
  obtain ⟨-, hrow⟩ := hmore (by decide)
  rw [exec_matrixChunk_next hunit] at hrun
  obtain rfl : waitingState.matChunk 0 onesOp [] = t := by injection hrun
  have hadds : (look RegWord.zero (ekey 0 0) ((waitingState.matChunk 0 onesOp []).tile 0 0).elems).val = BitVec.ofNat 32
      (chunkAcc (look RegWord.zero (ekey 0 0) (waitingState.tile 0 0).elems).val.toNat ones ones) :=
    hrow onesMember rfl onesRow rfl rfl (fun n => congrArg RegWord.ecc (waitingState_el n)) 0 ones rfl
  rw [waitingState_chunk, waitingState_el 0] at hadds
  have hsum : BitVec.ofNat 32 (chunkAcc 0 ones ones) = 0x42000000#32 := by rw [chunkAcc_ones]
  exact absurd (hadds.trans hsum) (by decide)

end Sys2Proof.Machine
end

-- A released partition and its grid (R313, R314)
section
/-! Which grid RELEASE_PARTITION acts on, and why the obligation on the commands fails where an ended grid still holds its
cores. -/

namespace Sys2Proof.Machine

/-! ## RELEASE_PARTITION (R314) -/

theorem exec_releasePartition (s : State) : exec .releasePartition s = execReleasePartition s := by rfl
/-- The command acts on the first grid of its name that has not ended or that still holds cores. Every other grid stays. -/
theorem exec_releasePartition_next {s : State} (h : s.started 0 2) {k : Nat} {g : Grid} (hcoll : s.cmdColl = some (k, g)) :
    ∃ t, exec .releasePartition s = .next t ∧ ∀ j, j ≠ k → t.grid j = s.grid j := by
  refine ⟨_, (exec_releasePartition s).trans (if_pos h), fun j hj => ?_⟩
  rw [hcoll]
  exact (congrArg (State.grid · j) (registersOnly_msix ..).1).trans (setGrid_grid_ne s hj _)

/-- A grid of queue 0 and ring index 0 with collective cores. -/
def collectiveGrid (ended : Bool) : Grid := ⟨0, 0, 0, 0, .running, 0, 0, 0, false, false, false, [0], ended⟩
/-- RELEASE_PARTITION of queue 0, ring index 0, is started. Grid 1, which has ended, still holds core 5; grid 2, posted at the
same place of the ring since, has not ended. -/
def releasingState : State := { State.reset with
  sys := { Sys.reset with cmdBuf := [(0, 2)], cmdStatus := [(0, 1)] }
  grids := [(1, collectiveGrid true), (2, collectiveGrid false)]
  cores := [(5, { Core.reset with coll := some 1 })] }
theorem releasingState_cmdColl : releasingState.cmdColl = some (1, collectiveGrid true) := by decide +kernel
theorem releasingState_cmdGrid : releasingState.cmdGrid = some (2, collectiveGrid false) := by decide +kernel

/-- Refutes O56, by its clause on RELEASE_PARTITION: it has the command release the grid of its name that has not ended, but
the command takes the first that holds a partition, be it one that has ended and holds its cores still (R313). -/
theorem not_commandsTakeEffect : ¬ Obligations.CommandsTakeEffect := by
  unfold Obligations.CommandsTakeEffect
  rintro ⟨-, hrelease, -⟩
  have hstart : releasingState.started 0 2 := ⟨rfl, rfl⟩
  obtain ⟨u, hrun, hothers⟩ := exec_releasePartition_next hstart releasingState_cmdColl
  obtain ⟨t, hnext, -, heffect⟩ := hrelease releasingState hstart
  obtain rfl : u = t := by
    rw [hrun] at hnext
    injection hnext
  have hclaim := (heffect 2 (collectiveGrid false) releasingState_cmdGrid rfl).1
  have hkept : u.grid 2 = some (collectiveGrid false) := hothers 2 (by decide)
  rw [hkept] at hclaim
  have hcoll : some [0] = some ([] : List Nat) := congrArg (Option.map Grid.coll) hclaim
  cases hcoll

end Sys2Proof.Machine
end

-- Bytes of lines and of memories (R4)
section
/-! What a memory reads after bytes have been written, and that a line is the number of its bytes. -/

namespace Sys2Proof.Machine

/-! ## Memories -/

/-- A byte that has been written is read back. -/
theorem rdByte_wrBytes (bs : List Byte) (m : List Host.Cell) (a : Nat) {i : Nat} (hi : i < bs.length) :
    rdByte (wrBytes m a bs) (a + i) = bs[i] := by
  induction bs generalizing m a i with
  | nil => exact absurd hi (Nat.not_lt_zero i)
  | cons b bs ih =>
    rw [wrBytes]
    cases i with
    | zero => rw [rdByte_wrBytes_ne _ _ _ (.inl (by omega))]; simp
    | succ i =>
      rw [show a + (i + 1) = a + 1 + i by omega, ih (wrByte m a b) (a + 1) (Nat.lt_of_succ_lt_succ hi)]
      rfl
/-- Bytes that have been written are read back. -/
theorem rdBytes_wrBytes (bs : List Byte) (m : List Host.Cell) (a : Nat) :
    rdBytes (wrBytes m a bs) a bs.length = bs := by
  induction bs generalizing m a with
  | nil => rfl
  | cons b bs ih =>
    have hfirst : rdByte (wrBytes m a (b :: bs)) a = b := rdByte_wrBytes (b :: bs) m a (Nat.succ_pos _)
    rw [List.length_cons, rdBytes, hfirst, wrBytes, ih]

/-! ## Lines -/

theorem lineBytes_length (l : Line) (i n : Nat) : (lineBytes l i n).length = n := by
  induction n generalizing i with
  | zero => rfl
  | succ n ih => rw [lineBytes, List.length_cons, ih]
theorem lineBytes_getElem (l : Line) (i n j : Nat) (hj : j < (lineBytes l i n).length) :
    (lineBytes l i n)[j] = lineByte l (i + j) := by
  induction n generalizing i j with
  | zero => exact absurd hj (Nat.not_lt_zero j)
  | succ n ih =>
    cases j with
    | zero => rfl
    | succ j =>
      rw [show i + (j + 1) = i + 1 + j by omega]
      exact ih (i + 1) j (Nat.lt_of_succ_lt_succ hj)
/-- A line that has been written is read back. -/
theorem rdLine_wrBytes (m : List Host.Cell) (a : Nat) (l : Line) :
    rdBytes (wrBytes m a (lineBytes l 0 128)) a 128 = lineBytes l 0 128 := by
  have h := rdBytes_wrBytes (lineBytes l 0 128) m a
  rwa [lineBytes_length] at h
/-- The bytes of a line from the i-th up make the number above its first i bytes. -/
theorem leNat_lineBytes (l : Line) (i n : Nat) : leNat (lineBytes l i n) = l.toNat / 2 ^ (8 * i) % 2 ^ (8 * n) := by
  induction n generalizing i with
  | zero => rw [Nat.mul_zero, pow_zero, Nat.mod_one]; rfl
  | succ n ih =>
    have hbyte : (lineByte l i).toNat = l.toNat / 2 ^ (8 * i) % 2 ^ 8 := by
      simp [lineByte, Nat.shiftRight_eq_div_pow]
    rw [lineBytes, leNat, ih, hbyte, show 8 * (n + 1) = 8 + 8 * n by omega, pow_add 2 8, Nat.mod_mul, Nat.div_div_eq_div_mul,
      show 8 * (i + 1) = 8 * i + 8 by omega, pow_add 2 (8 * i)]
    rfl
theorem toNat_mod_two_pow {w n : Nat} (h : w = n) (x : BitVec w) : x.toNat % 2 ^ n = x.toNat := by
  subst h
  exact Nat.mod_eq_of_lt x.isLt
/-- A line is made of its bytes. -/
theorem bytesLine_lineBytes (l : Line) : bytesLine (lineBytes l 0 128) = l := by
  refine BitVec.eq_of_toNat_eq ?_
  have hnum : leNat (lineBytes l 0 128) = l.toNat := by
    rw [leNat_lineBytes, Nat.mul_zero, pow_zero, Nat.div_one]
    generalize hn : 8 * 128 = n
    exact toNat_mod_two_pow hn l
  rw [bytesLine, hnum, BitVec.ofNat_toNat, BitVec.setWidth_eq]

end Sys2Proof.Machine
end

-- Tokens between slices and homes (R369 to R377, R392)
section
/-! What a die does with the message of the token protocol that has come to it: when it is taken and when discarded, what
slices and homes answer, and what becomes of tokens; and the obligation on tokens that move. -/

namespace Sys2Proof.Machine

/-! ## Taking a message (R372, R392) -/

section
variable {s : State} {d src : Nat} {m : Msg} {what : String} {mine : Msg → Bool} {k : State → Nat → Nat → Msg → State}

/-- A message that is delivered is taken by its event. -/
theorem onToken_takes (h : s.delivers d src m) (hm : mine m = true) :
    onToken s what mine k = .next (k s.without d src m) := by
  obtain ⟨f, i, hnet, rfl, rfl, hdest, hown, hage, hinc, hfail, htok⟩ := h
  have hearly : (Msg.tokens f.msg != 0 && (s.die d).upUntil.isSome) = false := by
    rcases htok with htok | htok <;> simp [htok]
  have hold : (look 0 f.src (s.die d).known != f.inc) = false := by rw [hinc, bne_self_eq_false]
  simp only [onToken, hnet, hdest, hown, hm, decide_eq_false (Nat.not_le.2 hage), hfail, hearly, hold, Bool.not_true, Bool.or_self,
    Bool.and_false, Bool.false_eq_true, if_false]
  rfl
section
variable {f : Flight} {i : Nat} (hnet : s.net[s.pick]? = some f) (hdest : f.dest = .die i) (hown : s.ownDie i = some d)
  (hage : Flight.age f s.now < maxAge) (hfail : (s.die d).failed = false) (hinc : look 0 f.src (s.die d).known ≠ f.inc)
  (hrec : Msg.recovery f.msg = false)
include hnet hdest hown hage hfail hinc hrec
/-- A message from an old incarnation is discarded, and counted where it carries tokens. -/
theorem onToken_discards (hm : mine f.msg = true) :
    onToken s what mine k = .next (if Msg.tokens f.msg ≠ 0 then s.without.staleAt d else s.without) := by
  have hold : (look 0 f.src (s.die d).known != f.inc) = true := bne_iff_ne.2 hinc
  simp only [onToken, hnet, hdest, hown, hm, decide_eq_false (Nat.not_le.2 hage), hfail, hold, hrec, Bool.not_true, Bool.not_false,
    Bool.or_self, Bool.and_self, Bool.true_or, Bool.false_eq_true, if_false, if_true, bne_iff_ne]
  rfl
theorem onToken_counts (htok : Msg.tokens f.msg ≠ 0) (hm : mine f.msg = true) :
    onToken s what mine k = .next (s.without.staleAt d) :=
  (onToken_discards hnet hdest hown hage hfail hinc hrec hm).trans (congrArg _ (if_pos htok))
end
end

theorem exec_gets (s : State) : exec .gets s = execGets s := by rfl
theorem exec_getx (s : State) : exec .getx s = execGetx s := by rfl
theorem exec_tok (s : State) : exec .tok s = execTok s := by rfl
theorem exec_putt (s : State) : exec .putt s = execPutt s := by rfl

section
variable {s : State} {d src line : Nat}

theorem exec_gets_slice (h : s.delivers d src (.gets line .slice)) :
    exec .gets s = .next (s.without.sliceAnswer d line src false) := (exec_gets s).trans (onToken_takes h rfl)
theorem exec_getx_slice (h : s.delivers d src (.getx line .slice)) :
    exec .getx s = .next (s.without.sliceAnswer d line src true) := (exec_getx s).trans (onToken_takes h rfl)
theorem exec_gets_home (h : s.delivers d src (.gets line .home)) :
    exec .gets s = .next (s.without.homeAnswer d line src false) := (exec_gets s).trans (onToken_takes h rfl)
theorem exec_getx_home (h : s.delivers d src (.getx line .home)) :
    exec .getx s = .next (s.without.homeAnswer d line src true) := (exec_getx s).trans (onToken_takes h rfl)
theorem exec_tok_next {p : TokPay} (h : s.delivers d src (.tok line p)) :
    exec .tok s = .next (s.without.tokArrives d src line p) := (exec_tok s).trans (onToken_takes h rfl)
theorem exec_putt_next {p : TokPay} (h : s.delivers d src (.putt line p)) :
    exec .putt s = .next (s.without.homeTokens d line p) := (exec_putt s).trans (onToken_takes h rfl)
theorem delivers_not_failed {m : Msg} (h : s.delivers d src m) : (s.die d).failed = false := by
  obtain ⟨f, i, -, -, -, -, -, -, -, hfail, -⟩ := h
  exact hfail
end

/-! ## Lines of a die and of a home -/

@[simp] theorem setEnt_ent (s : State) (d line : Nat) (e : LineEnt) : (s.setEnt d line e).ent d line = some e :=
  find_ins_self _ _ _
@[simp] theorem dropEnt_ent (s : State) (d line : Nat) : (s.dropEnt d line).ent d line = none := find_del_self _ _
@[simp] theorem setSide_sideOf (s : State) (line : Nat) (x : Side) : (s.setSide line x).sideOf line = x :=
  look_put_self _ _ _ _
theorem setSide_sideOf_ne (s : State) {line l : Nat} (h : l ≠ line) (x : Side) : (s.setSide line x).sideOf l = s.sideOf l :=
  look_put_ne _ h _ _

/-- A message of a die to an island die, as it sets out (R371). -/
def State.mail (s : State) (d i : Nat) (m : Msg) : Flight := ⟨m, s.islDie d, (s.die d).incarn, .die i, 0, s.now, false⟩
/-- A die that has not failed puts a message for a die of this package into the net. -/
theorem post_within {s : State} {d i : Nat} (hd : (s.die d).failed = false) (hi : (s.ownDie i).isSome = true) (m : Msg) :
    s.post d (.die i) m = { s with net := s.net ++ [s.mail d i m] } := by
  have hin : s.within (.die i) = true := hi
  simp [State.post, State.route, State.mail, hd, hin]

/-- An event whose last act is such a message. -/
theorem exec_sends {s u : State} {i : Instr} {d src : Nat} {m : Msg} (h : exec i s = .next (u.post d (.die src) m))
    (hd : (u.die d).failed = false) (hi : (u.ownDie src).isSome = true) :
    exec i s = .next { u with net := u.net ++ [u.mail d src m] } := by rw [h, post_within hd hi]

/-! ## Slices (R375, R376) -/

section
variable {s : State} {d src line : Nat}

theorem sliceAnswer_of_down {h : Nat} (hh : s.lineHome line = some h) (hdown : h ∈ (s.die d).down) (write : Bool) :
    s.sliceAnswer d line src write = s.post d (.die src) (.err line 7) := by
  simp [State.sliceAnswer, hh, hdown]
/-- With the line's home up and no persistent request active, a slice answers by what it holds. -/
theorem sliceAnswer_of_up (hup : ¬ ∃ h, s.lineHome line = some h ∧ h ∈ (s.die d).down) (hact : s.activeAt d line = none)
    (write : Bool) : s.sliceAnswer d line src write = if write then s.giveAll d line src else s.giveOne d line src := by
  have hno : ((s.lineHome line).map fun h => (s.die d).down.contains h).getD false = false := by
    cases hh : s.lineHome line with
    | none => rfl
    | some h =>
      have hmem : h ∉ (s.die d).down := fun hdown => hup ⟨h, hh, hdown⟩
      simpa using hmem
  simp only [State.sliceAnswer, hno, hact, Bool.false_eq_true, if_false]
variable {e : LineEnt} (he : s.ent d line = some e)
include he
theorem giveOne_of_no_crown (hc : e.crown = false) : s.giveOne d line src = s := by
  simp only [State.giveOne, he, hc, Bool.not_false, if_true]
theorem giveOne_plain (hc : e.crown = true) (hn : 2 ≤ e.count) : s.giveOne d line src =
    (s.setEnt d line { e with count := e.count - 1 }).post d (.die src) (.tok line ⟨1, false, e.serial, some e.data, false⟩) := by
  simp only [State.giveOne, he, hc, hn, Bool.not_true, Bool.false_eq_true, if_false, if_true]
theorem giveOne_crown (hc : e.crown = true) (hn : e.count < 2) : s.giveOne d line src =
    (s.dropEnt d line).post d (.die src) (.tok line ⟨e.count, true, e.serial, some e.data, e.dirty⟩) := by
  simp [State.giveOne, he, hc, Nat.not_le.2 hn, LineEnt.pay]
theorem giveAll_within (hd : (s.die d).failed = false) (hi : (s.ownDie src).isSome = true) : s.giveAll d line src =
    { s.dropEnt d line with net := s.net ++ [s.mail d src (.tok line (e.pay e.crown))] }.notePred d line src := by
  have hpost := post_within (s := s.dropEnt d line) hd hi (.tok line (e.pay e.crown))
  simp only [State.giveAll, he, hpost]
  rfl
/-- Tokens that come to an entry are added to it (R370, R376). -/
def LineEnt.add (e : LineEnt) (p : TokPay) : LineEnt := { e with
  count := e.count + p.count
  crown := e.crown || p.crown
  valid := e.valid || p.data.isSome
  data := if !e.valid && p.data.isSome then p.data.getD e.data else e.data
  dirty := if p.crown then p.dirty else e.dirty }
theorem addTokens_of_ent (p : TokPay) : s.addTokens d line p = s.setEnt d line (e.add p) := by
  simp only [State.addTokens, he]
  rfl
end

section
variable {s : State} {d line : Nat} (hact : s.activeAt d line = none)
include hact
theorem pent_of_not_active {h : Nat} (hh : s.lineHome line = some h) :
    ((s.pent d (sliceOf line) h).on && (s.pent d (sliceOf line) h).line == line) = false := by
  simp only [State.activeAt, hh] at hact
  split at hact
  · cases hact
  · rename_i hne
    simpa using hne
/-- With no request active for its line an entry owes nothing. -/
theorem oblige_of_not_active : s.oblige d line = s := by
  unfold State.oblige
  split
  · rename_i h x hh _
    have hpent := pent_of_not_active hact hh
    have hfree : (!(s.pent d (sliceOf line) h).on || (s.pent d (sliceOf line) h).line != line ||
        (s.pent d (sliceOf line) h).die == s.islDie d) = true := by
      cases hon : (s.pent d (sliceOf line) h).on <;> simp_all
    simp only [hfree, if_true]
  · rfl
/-- With no request of its own outstanding a slice has nobody to serve. -/
theorem serveLine_of_no_request (hreq : s.sreq d line = none) : s.serveLine d line = s := by
  unfold State.serveLine
  split
  · rfl
  · rename_i h hh
    simp only [pent_of_not_active hact hh, Bool.false_and, Bool.false_eq_true, if_false, hreq]
end

theorem tokArrives_stale {s : State} {d line : Nat} {p : TokPay} (h : s.staleFor d line p.serial = true) (src : Nat) :
    s.tokArrives d src line p = s.staleAt d := by
  simp only [State.tokArrives, h, if_true]
/-- Tokens that nobody waits for join their slice's. -/
theorem tokArrives_joins {s : State} {d line : Nat} {p : TokPay} {e : LineEnt} (h : s.staleFor d line p.serial = false)
    (hact : s.activeAt d line = none) (hreq : s.sreq d line = none) (he : s.ent d line = some e) (src : Nat) :
    s.tokArrives d src line p = (s.setEnt d line (e.add p)).notePred d line src := by
  have hact' : ((s.setEnt d line (e.add p)).notePred d line src).activeAt d line = none := hact
  have hreq' : ((s.setEnt d line (e.add p)).notePred d line src).sreq d line = none := hreq
  simp only [State.tokArrives, h, Bool.false_eq_true, if_false, addTokens_of_ent he, oblige_of_not_active hact',
    serveLine_of_no_request hact' hreq']

/-! ## Homes (R375, R377) -/

section
variable {s : State} {d src line : Nat}

theorem scrubLine_of_clean (h : (s.sideOf line).symErr = 0) : s.scrubLine d line = s := by
  simp only [State.scrubLine, h, if_true]
/-- A home that does nothing for a line answers by what it holds. -/
theorem homeAnswer_of_idle (hact : (s.die d).home.active = none) (hrec : (s.die d).home.recount line = none)
    (hblock : (s.die d).home.blocks line = false) (hmoved : (s.die d).home.movedLine s.now line = none) (write : Bool) :
    s.homeAnswer d line src write = if write then s.homeAll d line src else s.homeOne d line src := by
  simp only [State.homeAnswer, hact, hrec, hblock, hmoved, Option.isSome_none, Bool.false_eq_true, if_false]
theorem homeOne_of_no_crown (hc : (s.sideOf line).crown = false) : s.homeOne d line src = s := by
  simp [State.homeOne, hc]
variable (hclean : (s.sideOf line).symErr = 0)
include hclean
theorem homeOne_plain (hc : (s.sideOf line).crown = true) (hp : (s.sideOf line).poison = false)
    (hn : 2 ≤ (s.sideOf line).count) : s.homeOne d line src =
      (s.setSide line { s.sideOf line with count := (s.sideOf line).count - 1 }).post d (.die src)
        (.tok line ⟨1, false, (s.sideOf line).serial, some (s.homeLine line), false⟩) := by
  have hsome : (s.sideOf line).count ≠ 0 := by omega
  simp [State.homeOne, scrubLine_of_clean hclean, hc, hp, hn, hsome]
theorem homeAll_poisoned (hn : (s.sideOf line).count ≠ 0) (hc : (s.sideOf line).crown = true)
    (hp : (s.sideOf line).poison = true) : s.homeAll d line src = s.post d (.die src) (.err line 5) := by
  simp [State.homeAll, State.errorTo, scrubLine_of_clean hclean, hc, hp, hn]
theorem homeAll_gives (hn : (s.sideOf line).count ≠ 0) (hp : ((s.sideOf line).crown && (s.sideOf line).poison) = false) :
    s.homeAll d line src = (s.setSide line { s.sideOf line with count := 0, crown := false }).post d (.die src)
      (.tok line ⟨(s.sideOf line).count, (s.sideOf line).crown, (s.sideOf line).serial,
        if (s.sideOf line).crown then some (s.homeLine line) else none, false⟩) := by
  simp [State.homeAll, scrubLine_of_clean hclean, hp, hn]
end

theorem setHomeLine_eq (s : State) (line : Nat) (l : Line) : s.setHomeLine line l =
    { s with
      mem := wrBytes s.mem (line * 128) (lineBytes l 0 128)
      side := put Side.fresh line { s.sideOf line with poison := false, symErr := 0 } s.side } := by
  unfold State.setHomeLine
  generalize lineBytes l 0 128 = bs
  rfl
/-- Tokens that come to a home are added to its own (R377). -/
def Side.add (x : Side) (p : TokPay) : Side := { x with count := x.count + p.count, crown := x.crown || p.crown }
/-- The home keeps tokens that come to it, and writes the line that comes dirty with the crown. -/
def State.keepAtHome (s : State) (line : Nat) (p : TokPay) : State :=
  if p.crown && p.dirty then
    (s.setSide line ((s.sideOf line).add p)).setHomeLine line (p.data.getD (s.homeLine line))
  else s.setSide line ((s.sideOf line).add p)

section
variable {s : State} {d line : Nat} {p : TokPay}

theorem homeTake_keeps (hclean : (s.sideOf line).symErr = 0) (hact : (s.die d).home.activeFor line = none) :
    s.homeTake d line p = s.keepAtHome line p := by
  simp only [State.homeTake, scrubLine_of_clean hclean, ite_self, hact, State.keepAtHome, Side.add]
  split
  · rename_i h
    rw [Bool.and_eq_true] at h
    simp only [h.1, if_true]
  · rfl
theorem homeTokens_keeps (hserial : p.serial = (s.sideOf line).serial) (hclean : (s.sideOf line).symErr = 0)
    (hact : (s.die d).home.activeFor line = none) : s.homeTokens d line p = s.keepAtHome line p := by
  have hsame : (p.serial != (s.sideOf line).serial) = false := by simp [hserial]
  simp only [State.homeTokens, hsame, Bool.false_eq_true, if_false, homeTake_keeps hclean hact]
variable (s line p)
theorem keepAtHome_rest :
    s.keepAtHome line p = { s with side := (s.keepAtHome line p).side, mem := (s.keepAtHome line p).mem } := by
  unfold State.keepAtHome
  split
  · rw [setHomeLine_eq]
    generalize wrBytes _ _ _ = m
    rfl
  · rfl
theorem keepAtHome_sideOf (hclean : (s.sideOf line).symErr = 0) : (s.keepAtHome line p).sideOf line =
    { (s.sideOf line).add p with poison := (s.sideOf line).poison && !(p.crown && p.dirty) } := by
  unfold State.keepAtHome
  split
  · rename_i h
    simp [State.setHomeLine, h, hclean, Side.add]
  · rename_i h
    simp [Bool.not_eq_true _ ▸ h, Side.add]
theorem keepAtHome_mem_of_clean (h : (p.crown && p.dirty) = false) : (s.keepAtHome line p).mem = s.mem := by
  simp only [State.keepAtHome, h, Bool.false_eq_true, if_false]
  rfl
theorem keepAtHome_mem_of_dirty (h : (p.crown && p.dirty) = true) : (s.keepAtHome line p).mem =
    wrBytes s.mem (line * 128) (lineBytes (p.data.getD (s.homeLine line)) 0 128) := by
  simp only [State.keepAtHome, h, if_true, setHomeLine_eq]
  rfl
/-- The data of the line, at a home that has kept tokens. -/
theorem keepAtHome_homeLine : (s.keepAtHome line p).homeLine line =
    if p.crown && p.dirty then p.data.getD (s.homeLine line) else s.homeLine line := by
  unfold State.homeLine
  split
  · rename_i h
    rw [keepAtHome_mem_of_dirty s line p h, rdLine_wrBytes, bytesLine_lineBytes]
    rfl
  · rename_i h
    rw [keepAtHome_mem_of_clean s line p (Bool.not_eq_true _ ▸ h)]
/-- A line that comes dirty is written to HBM whole, and nothing else of it. -/
theorem keepAtHome_writes (h : (p.crown && p.dirty) = true) {l : Line} (hl : p.data = some l) :
    (∀ i, i < 128 → rdByte (s.keepAtHome line p).mem (128 * line + i) = lineByte l i) ∧
      ∀ a, a / 128 ≠ line → rdByte (s.keepAtHome line p).mem a = rdByte s.mem a := by
  rw [keepAtHome_mem_of_dirty s line p h, hl, Option.getD_some]
  have hlen := lineBytes_length l 0 128
  refine ⟨fun i hi => ?_, fun a ha => rdByte_wrBytes_ne _ _ _ (by omega)⟩
  have hi' : i < (lineBytes l 0 128).length := by omega
  rw [Nat.mul_comm, rdByte_wrBytes _ _ _ hi', lineBytes_getElem, Nat.zero_add]
end

/-! ## The obligation -/

/-- Settles O46: each message is taken by its slice or its home, whose answers are the lemmas above; one that is too old or
stale is discarded. -/
theorem tokensMoveBetweenHolders : Obligations.TokensMoveBetweenHolders := by
  unfold Obligations.TokensMoveBetweenHolders
  intro s d src line idle down sends same x hbm
  refine ⟨fun hsrc => ⟨?down, ?slice, ?home, ?poisoned⟩, fun p hdel => ⟨?stale, ?joins⟩, fun p hdel => ?putt,
    fun f hnet i p hdest hown hage hfail hinc hcount => ⟨fun hm => ?oldTok, fun hm => ?oldPutt, fun hm => ?oldGets⟩⟩
  case down =>
    rintro ⟨h, hh, hdown⟩ hdel
    have hd := delivers_not_failed hdel
    have hans := sliceAnswer_of_down (s := s.without) (src := src) hh hdown true
    exact ⟨_, exec_sends ((exec_getx_slice hdel).trans (congrArg _ hans)) hd hsrc, rfl, rfl, rfl⟩
  case slice =>
    intro hup hact e he
    have hans := sliceAnswer_of_up (s := s.without) (src := src) hup hact
    refine ⟨fun hdel => ?_, fun hdel => ?_⟩
    · have hd := delivers_not_failed hdel
      have hgets := (exec_gets_slice hdel).trans (congrArg _ (hans false))
      refine ⟨fun hc => hgets.trans (congrArg _ (giveOne_of_no_crown he hc)), fun hc hn => ?_, fun hc hn => ?_⟩
      · exact ⟨_, exec_sends (hgets.trans (congrArg _ (giveOne_plain he hc hn))) hd hsrc, rfl, setEnt_ent .., rfl⟩
      · exact ⟨_, exec_sends (hgets.trans (congrArg _ (giveOne_crown he hc hn))) hd hsrc, rfl, dropEnt_ent .., rfl⟩
    · have hd := delivers_not_failed hdel
      have hgive := (hans true).trans (giveAll_within he hd hsrc)
      exact ⟨_, (exec_getx_slice hdel).trans (congrArg _ hgive), rfl, dropEnt_ent s.without d line, rfl⟩
  case home =>
    rintro ⟨hact, hrec, hblock, hmoved, hclean⟩ hn hp
    have hans := homeAnswer_of_idle (s := s.without) (src := src) hact hrec hblock hmoved
    refine ⟨fun hdel => ?_, fun hdel => ?_⟩
    · have hd := delivers_not_failed hdel
      have hgets := (exec_gets_home hdel).trans (congrArg _ (hans false))
      refine ⟨fun hc => hgets.trans (congrArg _ (homeOne_of_no_crown hc)), fun hc hn => ?_⟩
      have hp' : x.poison = false := by simpa [hc] using hp
      have hgive := homeOne_plain (s := s.without) (d := d) (src := src) hclean hc hp' hn
      exact ⟨_, exec_sends (hgets.trans (congrArg _ hgive)) hd hsrc, rfl, setSide_sideOf .., rfl⟩
    · have hd := delivers_not_failed hdel
      have hgive := homeAll_gives (s := s.without) (d := d) (src := src) hclean hn hp
      exact ⟨_, exec_sends ((exec_getx_home hdel).trans (congrArg _ ((hans true).trans hgive))) hd hsrc, rfl,
        setSide_sideOf s.without line { x with count := 0, crown := false }, rfl⟩
  case poisoned =>
    rintro ⟨hact, hrec, hblock, hmoved, hclean⟩ hn hc hp hdel
    have hd := delivers_not_failed hdel
    have hans := homeAnswer_of_idle (s := s.without) (src := src) hact hrec hblock hmoved true
    have herr := homeAll_poisoned (s := s.without) (d := d) (src := src) hclean hn hc hp
    exact ⟨_, exec_sends ((exec_getx_home hdel).trans (congrArg _ (hans.trans herr))) hd hsrc, rfl, rfl, rfl⟩
  case stale =>
    intro hstale
    exact ⟨_, (exec_tok_next hdel).trans (congrArg _ (tokArrives_stale (s := s.without) hstale src)), rfl, rfl,
      congrArg Die.stale (setDie_die ..)⟩
  case joins =>
    intro hfresh hact hreq e he
    refine ⟨_, (exec_tok_next hdel).trans (congrArg _ (tokArrives_joins (s := s.without) hfresh hact hreq he src)), rfl, rfl,
      e.add p, setEnt_ent s.without d line _, rfl, rfl, rfl, rfl, fun hv => ?_, fun hv l hl => ?_⟩
    · simp [LineEnt.add, hv]
    · simp [LineEnt.add, hv, hl]
  case putt =>
    intro hserial hclean hact
    have hkeep := homeTokens_keeps (s := s.without) hserial hclean hact
    have hside := keepAtHome_sideOf s.without line p hclean
    refine ⟨_, (exec_putt_next hdel).trans (congrArg _ hkeep), ?_, ?_, congrArg Side.count hside, congrArg Side.crown hside,
      fun hc => keepAtHome_mem_of_clean s.without line p ?_, fun hc hdirty l hl => ⟨?_, ?_⟩⟩
    · rw [keepAtHome_rest]
      rfl
    · rw [keepAtHome_rest]
      rfl
    · rcases hc with hc | hc <;> simp [hc]
    · simp [hside, hc, hdirty]
    · exact keepAtHome_writes s.without line p (by simp [hc, hdirty]) hl
  case oldTok =>
    exact ⟨_, (exec_tok s).trans (onToken_counts hnet hdest hown hage hfail hinc (by rw [hm]; rfl) (by rw [hm]; exact hcount)
      (by rw [hm]; rfl)), rfl, rfl, rfl, congrArg Die.stale (setDie_die ..)⟩
  case oldPutt =>
    exact ⟨_, (exec_putt s).trans (onToken_counts hnet hdest hown hage hfail hinc (by rw [hm]; rfl) (by rw [hm]; exact hcount)
      (by rw [hm])), rfl, rfl, rfl, congrArg Die.stale (setDie_die ..)⟩
  case oldGets =>
    exact (exec_gets s).trans ((onToken_discards hnet hdest hown hage hfail hinc (by rw [hm]; rfl) (by rw [hm])).trans
      (by rw [hm]; rfl))

end Sys2Proof.Machine
end

-- Recounts and recovery (R386 to R396)
section
/-! How a home recounts the tokens of a line, what a die answers to a recall, what becomes of dies that go down and rejoin, and
when messages are destroyed; and the obligation on recounts. -/

namespace Sys2Proof.Machine

/-! ## The home of a die; what sending leaves -/

section
variable {s t u : State} {d k : Nat} {m : Msg}

theorem updHome_die (s : State) (d : Nat) (f : Home → Home) :
    (s.updHome d f).die d = { s.die d with home := f (s.die d).home } := setDie_die ..
theorem updHome_die_ne (h : k ≠ d) (f : Home → Home) : (s.updHome d f).die k = s.die k := setDie_die_ne s h _
@[simp] theorem updHome_home (s : State) (d : Nat) (f : Home → Home) : ((s.updHome d f).die d).home = f (s.die d).home :=
  congrArg Die.home (updHome_die s d f)
theorem quiet_filters (s : State) : s.quiet.filters = s.filters := rfl
theorem quiet_lines (s : State) : s.quiet.lines = s.lines := rfl
@[simp] theorem post_die (s : State) (d : Nat) (i : Dest) (m : Msg) (k : Nat) : (s.post d i m).die k = s.die k := by
  rw [← quiet_die, quiet_post, quiet_die]
@[simp] theorem post_sideOf (s : State) (d : Nat) (i : Dest) (m : Msg) (line : Nat) :
    (s.post d i m).sideOf line = s.sideOf line := by rw [← quiet_sideOf, quiet_post, quiet_sideOf]
@[simp] theorem postAll_die (s : State) (d : Nat) (l : List Nat) (m : Msg) (k : Nat) : (s.postAll d l m).die k = s.die k := by
  rw [← quiet_die, quiet_postAll, quiet_die]
@[simp] theorem postHome_die (s : State) (d line : Nat) (m : Msg) (k : Nat) : (s.postHome d line m).die k = s.die k := by
  rw [← quiet_die, quiet_postHome, quiet_die]
/-- The die speaks in both states from the same place, in the same incarnation and at the same time. -/
def SpeaksAs (d : Nat) (s u : State) : Prop :=
  u.enum = s.enum ∧ u.now = s.now ∧ (u.die d).incarn = (s.die d).incarn ∧ (u.die d).failed = (s.die d).failed
theorem SpeaksAs.trans (h : SpeaksAs d s t) (h' : SpeaksAs d t u) : SpeaksAs d s u :=
  ⟨h'.1.trans h.1, h'.2.1.trans h.2.1, h'.2.2.1.trans h.2.2.1, h'.2.2.2.trans h.2.2.2⟩
theorem speaksAs_of_dies (hdies : u.dies = s.dies := by rfl) (henum : u.enum = s.enum := by rfl)
    (hnow : u.now = s.now := by rfl) : SpeaksAs d s u := by
  have hdie : u.die d = s.die d := by rw [State.die, hdies]; rfl
  exact ⟨henum, hnow, by rw [hdie], by rw [hdie]⟩
theorem speaksAs_updHome (s : State) (d : Nat) (f : Home → Home) : SpeaksAs d s (s.updHome d f) :=
  ⟨rfl, rfl, by rw [updHome_die], by rw [updHome_die]⟩
theorem speaksAs_setActive (s : State) (d : Nat) (a : Option Active) : SpeaksAs d s (s.setActive d a) := speaksAs_updHome s d _
theorem speaksAs_setSide (s : State) (d line : Nat) (x : Side) : SpeaksAs d s (s.setSide line x) := ⟨rfl, rfl, rfl, rfl⟩
section
variable {i : Nat} (h : SpeaksAs d s u)
include h
theorem SpeaksAs.holds (hm : t.holds u d i m) : t.holds s d i m := by
  obtain ⟨henum, hnow, hinc, -⟩ := h
  have hisl : u.islDie d = s.islDie d := by rw [State.islDie, henum]; rfl
  rwa [State.holds, hisl, hinc, hnow] at hm
variable (hfail : (s.die d).failed = false) (hown : (s.ownDie i).isSome = true)
include hfail hown
theorem SpeaksAs.post (m : Msg) : (u.post d (.die i) m).holds s d i m := by
  have hown' : (u.ownDie i).isSome = true := by rw [State.ownDie, h.1]; exact hown
  exact h.holds (post_holds (h.2.2.2.trans hfail) hown' m)
theorem SpeaksAs.postAll {l : List Nat} (hi : i ∈ l) (m : Msg) : (u.postAll d l m).holds s d i m := by
  have hown' : (u.ownDie i).isSome = true := by rw [State.ownDie, h.1]; exact hown
  exact h.holds (postAll_holds hi (h.2.2.2.trans hfail) hown' m)
end
end

theorem exec_loss (s : State) : exec .loss s = execLoss s := by rfl
theorem exec_recountOpen (d line : Nat) (s : State) : exec (.recountOpen d line) s = execRecountOpen d line s := by rfl
theorem exec_recallResend (d line : Nat) (s : State) : exec (.recallResend d line) s = execRecallResend d line s := by rfl
theorem exec_recall (s : State) : exec .recall s = execRecall s := by rfl
theorem exec_rack (s : State) : exec .rack s = execRack s := by rfl
theorem exec_recallFilterExpiry (d idx : Nat) (s : State) :
    exec (.recallFilterExpiry d idx) s = execRecallFilterExpiry d idx s := by rfl
theorem exec_down (s : State) : exec .down s = execDown s := by rfl
theorem exec_up (s : State) : exec .up s = execUp s := by rfl
theorem exec_upHoldoffExpiry (s : State) : exec .upHoldoffExpiry s = execUpHoldoffExpiry s := by rfl
theorem exec_dieRejoin (s : State) : exec .dieRejoin s = execDieRejoin s := by rfl
theorem exec_patrolScrub (d line : Nat) (s : State) : exec (.patrolScrub d line) s = execPatrolScrub d line s := by rfl
theorem exec_messageAgeExpiry (s : State) : exec .messageAgeExpiry s = execMessageAgeExpiry s := by rfl
theorem exec_migrationForwardExpiry (d idx : Nat) (s : State) :
    exec (.migrationForwardExpiry d idx) s = execMigrationForwardExpiry d idx s := by rfl

/-! ## Losses (R386) -/

theorem exec_loss_next {s : State} {d src link : Nat} (h : s.delivers d src (.loss link)) :
    exec .loss s = .next (s.without.toRecount d) := (exec_loss s).trans (onToken_takes h rfl)
theorem toRecount_rest (s : State) (d : Nat) : s.toRecount d = { s with dies := (s.toRecount d).dies } := by
  unfold State.toRecount
  split <;> rfl
theorem toRecount_die_ne (s : State) {d k : Nat} (h : k ≠ d) : (s.toRecount d).die k = s.die k := by
  unfold State.toRecount
  split
  · exact updHome_die_ne h _
  · rfl
/-- The active request, if there is one, passes to a recount. -/
theorem toRecount_home (s : State) (d : Nat) : ((s.toRecount d).die d).home = { (s.die d).home with
    active := (s.die d).home.active.map fun a => { a with recounting := true } } := by
  unfold State.toRecount
  split
  · rename_i a ha
    rw [ha]
    exact updHome_home ..
  · rename_i ha
    cases hh : (s.die d).home
    rw [hh] at ha
    cases ha
    rfl

/-! ## Dies that are asked (R388, R389) -/

theorem mem_recallSet {s : State} {d line i : Nat} : i ∈ s.recallSet d line ↔
    ((i < 128 ∧ ∃ m, (s.linePart line).map (fun p => p.idies) = some m ∧ m.getLsbD i = true) ∨ s.lineHome line = some i) ∧
      i ∉ (s.die d).down := by
  have hmask : i ∈ s.egressMask line ↔
      (i < 128 ∧ ∃ m, (s.linePart line).map (fun p => p.idies) = some m ∧ m.getLsbD i = true) ∨ s.lineHome line = some i := by
    unfold State.egressMask
    cases s.linePart line <;> cases s.lineHome line with
    | none => simp
    | some h => simp; grind
  simp [State.recallSet, hmask]
theorem serveSet_eq {s : State} {line req : Nat} (h : req ∈ s.egressMask line ∨ req ∉ s.oldMask line) (d : Nat) :
    s.serveSet d line req = s.recallSet d line := by
  have hc : ((s.egressMask line).contains req || !(s.oldMask line).contains req) = true := by
    rcases h with h | h <;> simp [h]
  simp only [State.serveSet, hc, if_true]

/-! ## Recounts (R387, R388) -/

section
variable {s : State} {d line : Nat}

/-- The recounts of a home with one of them changed. -/
theorem recount_map {h : Home} {f : Recount → Recount} (hf : ∀ q, q.line = line → (f q).line = line) {r : Recount}
    (hr : h.recount line = some r) :
    (h.recounts.map fun q => if q.line = line then f q else q).find? (fun q => q.line == line) = some (f r) := by
  have hline : r.line = line := by simpa using List.find?_some hr
  have hsame : ((fun q : Recount => q.line == line) ∘ fun q => if q.line = line then f q else q) = fun q => q.line == line := by
    funext q
    by_cases hq : q.line = line <;> simp [hq, hf]
  have hfind : h.recounts.find? (fun q => q.line == line) = some r := hr
  rw [List.find?_map, hsame, hfind, Option.map_some, if_pos hline]

/-- The state in which a home has begun a recount and has not yet asked (R387). -/
def State.recountBegun (s : State) (d line : Nat) (set : List Nat) : State := s.updDie d fun x => { x with
  recounts := satInc x.recounts
  home := { x.home with recounts := x.home.recounts ++ [⟨line, (s.sideOf line).serial, set, s.now⟩] } }
theorem exec_recountOpen_next {a : Active} (hact : (s.die d).home.active = some a) (hrec : a.recounting = true)
    (hline : a.req.line = line) (hnone : (s.die d).home.recount line = none) (hroom : (s.die d).home.recounts.length < 8)
    (hclosed : ∀ c ∈ (s.die d).home.closed, c.1 = line → c.2 + maxAge ≤ s.now) (hset : s.serveSet d line a.req.die ≠ []) :
    exec (.recountOpen d line) s = .next ((s.recountBegun d line (s.serveSet d line a.req.die)).postAll d
      (s.serveSet d line a.req.die) (.recall line (s.sideOf line).serial)) := by
  have hearly : ((s.die d).home.closed.any fun c => c.1 == line && decide (s.now < c.2 + maxAge)) = false := by
    rw [List.any_eq_false]
    intro c hc hyes
    rw [Bool.and_eq_true, beq_iff_eq, decide_eq_true_eq] at hyes
    exact absurd (hclosed c hc hyes.1) (Nat.not_le.2 hyes.2)
  have hsome : (s.serveSet d line a.req.die).isEmpty = false := by simpa using hset
  rw [exec_recountOpen, execRecountOpen]
  simp only [hact, hearly, hrec, hline, hnone, hroom, hsome, Option.isNone_none, Bool.not_false, Bool.false_eq_true, and_self, if_true,
    if_false]
  rfl
theorem exec_recallResend_next {r : Recount} (hr : (s.die d).home.recount line = some r) (hsent : r.sent + 20000 ≤ s.now) :
    exec (.recallResend d line) s = .next ((s.updHome d fun h => { h with
      recounts := h.recounts.map fun q => if q.line = line then { q with sent := s.now } else q }).postAll d r.pending
        (.recall line r.serial)) := by
  rw [exec_recallResend, execRecallResend]
  simp only [hr, if_pos hsent]
theorem exec_recallResend_early {r : Recount} (hr : (s.die d).home.recount line = some r) (hsent : s.now < r.sent + 20000) :
    ∃ why, exec (.recallResend d line) s = .refused (.notEnabled why) := by
  rw [exec_recallResend, execRecallResend]
  simp only [hr, if_neg (Nat.not_le.2 hsent)]
  exact off_refused _
end

/-! ## Answers of a die (R389, R390) -/

/-- The serial is remembered, that its tokens be discarded from then on (R390). -/
def State.withFilter (s : State) (d line : Nat) (sn : BitVec 4) : State := { s with
  filters := if (s.filters.any fun f => f.die == d && f.line == line && f.serial == sn) then s.filters
    else s.filters ++ [⟨d, line, sn, s.now + maxAge⟩] }
/-- An answer goes to the die that asked, or to the line's pool node. -/
def State.sendRack (s : State) (d line src : Nat) (p : TokPay) : State :=
  if src < 128 then s.post d (.die src) (.rack line p) else s.postHome d line (.rack line p)

section
variable {s : State} {d src line : Nat} {sn : BitVec 4}

theorem reArm_rest (s : State) (d line : Nat) : s.reArm d line = { s with ptab := (s.reArm d line).ptab } := by
  unfold State.reArm
  split
  · dsimp only
    split <;> rfl
  · rfl
theorem withFilter_mem (s : State) (d line : Nat) (sn : BitVec 4) :
    ∃ f ∈ (s.withFilter d line sn).filters, f.die = d ∧ f.line = line ∧ f.serial = sn := by
  unfold State.withFilter
  dsimp only
  split
  · rename_i h
    obtain ⟨f, hf, hmine⟩ := List.any_eq_true.1 h
    exact ⟨f, hf, by simpa [and_assoc] using hmine⟩
  · exact ⟨_, List.mem_append_right _ (List.mem_singleton_self _), rfl, rfl, rfl⟩

section
variable (h : s.delivers d src (.recall line sn)) (hroom : s.filterRoom d line sn = true)
include h hroom
/-- The event gives the recall to its die. -/
theorem exec_recall_takes : exec .recall s = .next (
    match s.ent d line with
    | some e =>
      if e.serial = sn then (((s.without.withFilter d line sn).reArm d line).dropEnt d line).sendRack d line src
        ⟨e.count, e.crown, sn, if e.crown then some e.data else none, e.crown && e.dirty⟩
      else ((s.without.withFilter d line sn).reArm d line).sendRack d line src ⟨0, false, sn, none, false⟩
    | none => ((s.without.withFilter d line sn).reArm d line).sendRack d line src ⟨0, false, sn, none, false⟩) := by
  have hdel := h
  obtain ⟨⟨msg, fsrc, inc, dest, aged, at_, outer⟩, i, hnet, hmsg, rfl, hdest, hown, -⟩ := h
  cases hmsg
  cases hdest
  have hfilter : (if (s.without.filters.any fun f => f.die == d && f.line == line && f.serial == sn) then s.without else
      { s.without with filters := s.without.filters ++ [⟨d, line, sn, s.without.now + maxAge⟩] }) =
      s.without.withFilter d line sn := by
    unfold State.withFilter
    split <;> rfl
  rw [exec_recall, execRecall]
  simp only [hnet, hown, Option.map_some, Option.getD_some, hroom, if_true]
  refine (onToken_takes hdel rfl).trans (congrArg _ ?_)
  simp only [hfilter]
  rfl
theorem exec_recall_held {e : LineEnt} (he : s.ent d line = some e) (hs : e.serial = sn) : exec .recall s = .next
    ((((s.without.withFilter d line sn).reArm d line).dropEnt d line).sendRack d line src
      ⟨e.count, e.crown, sn, if e.crown then some e.data else none, e.crown && e.dirty⟩) := by
  rw [exec_recall_takes h hroom]
  simp only [he, hs, if_true]
theorem exec_recall_bare (hbare : ∀ e, s.ent d line = some e → e.serial ≠ sn) : exec .recall s = .next
    (((s.without.withFilter d line sn).reArm d line).sendRack d line src ⟨0, false, sn, none, false⟩) := by
  rw [exec_recall_takes h hroom]
  cases he : s.ent d line with
  | none => rfl
  | some e => simp only [if_neg (hbare e he)]
end
end

/-! ## Closing a recount (R391) -/

/-- The home of a die when it has closed the recount of a line. -/
def Home.close (h : Home) (line now : Nat) : Home := { h with
  recounts := h.recounts.filter fun q => q.line != line
  closed := ((h.closed.filter fun c => c.1 != line) ++ [(line, now)]).drop ((h.closed.filter fun c => c.1 != line).length - 63) }
theorem close_recount (h : Home) (line now : Nat) : (h.close line now).recount line = none := by
  refine List.find?_eq_none.2 fun q hq => ?_
  have hne := (List.mem_filter.1 hq).2
  simpa using hne
theorem recount_withActive (h : Home) (a : Option Active) (line : Nat) : { h with active := a }.recount line = h.recount line := rfl
/-- A line with all its tokens at home again, under its next serial. -/
def Side.whole (x : Side) (serial : BitVec 4) : Side := { x with
  count := 256, crown := true, serial := serial + 1, poison := x.poison || !x.crown }
def State.recounted (s : State) (d line : Nat) (serial : BitVec 4) : State :=
  (s.updHome d (·.close line s.now)).setSide line ((s.sideOf line).whole serial)
/-- The record of a line whose data no die has (R391). -/
def State.lostRec (s : State) (d line : Nat) : FaultRec := { s.dieRec 0x35 d with addr := line * 128, flags := 0x10 }
/-- The active request of a line after the line's recount. -/
def Active.again (a : Active) (now : Nat) : Active := { a with recounting := false, since := now, forwarded := false }
/-- The active request of a line is served after its recount. -/
def State.resume (s : State) (d line now : Nat) : State :=
  match (s.die d).home.active with
  | some a =>
    if a.req.line = line then (s.setActive d (some (a.again now))).homeOblige d line
    else s
  | none => s

section
variable {s : State} {d line : Nat}

theorem recounted_home (s : State) (d line : Nat) (serial : BitVec 4) :
    ((s.recounted d line serial).die d).home = (s.die d).home.close line s.now :=
  updHome_home s d (·.close line s.now)
theorem recounted_sideOf (s : State) (d line : Nat) (serial : BitVec 4) :
    (s.recounted d line serial).sideOf line = (s.sideOf line).whole serial := setSide_sideOf ..
theorem closeRecount_eq {r : Recount} (hr : (s.die d).home.recount line = some r) (hnode : s.atNode line = false) :
    s.closeRecount d line = (if (s.sideOf line).crown then s.recounted d line r.serial
      else (s.recounted d line r.serial).report ((s.recounted d line r.serial).lostRec d line)).resume d line s.now := by
  cases hc : (s.sideOf line).crown <;>
    simp only [State.closeRecount, hr, hnode, hc, Bool.not_true, Bool.not_false, Bool.and_true,
      Bool.false_eq_true, if_false, if_true] <;> unfold State.recounted Side.whole <;> rw [hc] <;> rfl
theorem resume_of_idle (hact : (s.die d).home.active = none) (now : Nat) : s.resume d line now = s := by
  simp only [State.resume, hact]
theorem resume_of_line {a : Active} (hact : (s.die d).home.active = some a) (hline : a.req.line = line) (now : Nat) :
    s.resume d line now = (s.setActive d (some (a.again now))).homeOblige d line := by
  simp only [State.resume, hact, if_pos hline]
end

/-! ## Service of the active request (R382) -/

@[simp] theorem setActive_sideOf (s : State) (d line : Nat) (a : Option Active) : (s.setActive d a).sideOf line = s.sideOf line := rfl
@[simp] theorem setActive_home (s : State) (d : Nat) (a : Option Active) :
    ((s.setActive d a).die d).home = { (s.die d).home with active := a } := updHome_home s d _
section
variable {s : State} {d line : Nat} {a : Active} (hnode : s.atNode line = false)
  (hact : (s.die d).home.activeFor line = some a)
include hnode hact
theorem homeOblige_write (hw : a.req.write = true) : s.homeOblige d line = s.homeAll d line a.req.die := by
  simp [State.homeOblige, hnode, hact, hw]
theorem homeOblige_read (hw : a.req.write = false) (hf : a.forwarded = false) (hc : (s.sideOf line).crown = true) :
    s.homeOblige d line = (s.setActive d (some { a with forwarded := true })).homeOne d line a.req.die := by
  simp [State.homeOblige, hnode, hact, hw, hf, hc]
end
theorem activeFor_again {s : State} {d line : Nat} {a : Active} (hnone : (s.die d).home.recount line = none)
    (hline : a.req.line = line) (now : Nat) :
    ((s.setActive d (some (a.again now))).die d).home.activeFor line = some (a.again now) := by
  have hnone' : { (s.die d).home with active := some (a.again now) }.recount line = none := hnone
  have hline' : (a.again now).req.line = line := hline
  rw [setActive_home, Home.activeFor]
  simp only [hnone', hline', beq_self_eq_true, Option.isNone_none, Bool.and_self, if_true]
section
variable {s : State} {d line : Nat} {a : Active} (hnode : s.atNode line = false) (hact : (s.die d).home.active = some a)
  (hnone : (s.die d).home.recount line = none) (hline : a.req.line = line) (hclean : (s.sideOf line).symErr = 0)
  (hcrown : (s.sideOf line).crown = true) (hcount : (s.sideOf line).count = 256) (hpoison : (s.sideOf line).poison = false)
include hnode hact hnone hline hclean hcrown hcount hpoison
/-- A write takes the whole line away. -/
theorem resume_write (hw : a.req.write = true) (now : Nat) : s.resume d line now =
    ((s.setActive d (some (a.again now))).setSide line { s.sideOf line with count := 0, crown := false }).post d (.die a.req.die)
      (.tok line ⟨256, true, (s.sideOf line).serial, some (s.homeLine line), false⟩) := by
  have hact' := activeFor_again hnone hline now
  have hgive := homeAll_gives (s := s.setActive d (some (a.again now))) (d := d) (src := a.req.die) (line := line) hclean
    (fun h => absurd (hcount.symm.trans h) (by decide)) (Bool.and_eq_false_iff.2 (.inr hpoison))
  have hside : (s.setActive d (some (a.again now))).sideOf line = s.sideOf line := rfl
  rw [hside, hcrown, hcount] at hgive
  rw [resume_of_line hact hline, homeOblige_write (s := s.setActive d (some (a.again now))) hnode hact' hw]
  exact hgive
/-- A read takes one plain token and the data. -/
theorem resume_read (hw : a.req.write = false) (now : Nat) : s.resume d line now =
    (((s.setActive d (some (a.again now))).setActive d (some { a.again now with forwarded := true })).setSide line
      { s.sideOf line with count := 255 }).post d (.die a.req.die)
      (.tok line ⟨1, false, (s.sideOf line).serial, some (s.homeLine line), false⟩) := by
  have hact' := activeFor_again hnone hline now
  have hside : ((s.setActive d (some (a.again now))).setActive d (some { a.again now with forwarded := true })).sideOf line =
    s.sideOf line := by rw [setActive_sideOf, setActive_sideOf]
  have hgive := homeOne_plain (d := d) (src := a.req.die) (by rw [hside]; exact hclean) (by rw [hside]; exact hcrown)
    (by rw [hside]; exact hpoison) (by rw [hside, hcount]; decide)
  rw [hside, hcount] at hgive
  rw [resume_of_line hact hline, homeOblige_read (s := s.setActive d (some (a.again now))) hnode hact' hw rfl hcrown]
  exact hgive
/-- After a recount the active request is served, and is the active one still. -/
theorem resume_home (now : Nat) : ((s.resume d line now).die d).home =
    { (s.die d).home with active := some { a.again now with forwarded := !a.req.write } } := by
  cases hw : a.req.write with
  | true =>
    rw [resume_write hnode hact hnone hline hclean hcrown hcount hpoison hw, post_die]
    exact setActive_home s d _
  | false =>
    rw [resume_read hnode hact hnone hline hclean hcrown hcount hpoison hw, post_die]
    refine (setActive_home (s.setActive d (some (a.again now))) d _).trans ?_
    rw [setActive_home]
    rfl
section
variable (hfail : (s.die d).failed = false) (hown : (s.ownDie a.req.die).isSome = true)
include hfail hown
theorem resume_write_gives (hw : a.req.write = true) (now : Nat) :
    (s.resume d line now).sideOf line = { s.sideOf line with count := 0, crown := false } ∧
      (s.resume d line now).holds s d a.req.die
        (.tok line ⟨256, true, (s.sideOf line).serial, some (s.homeLine line), false⟩) := by
  rw [resume_write hnode hact hnone hline hclean hcrown hcount hpoison hw]
  have hspeak := (speaksAs_setActive s d (some (a.again now))).trans
    (speaksAs_setSide _ d line { s.sideOf line with count := 0, crown := false })
  refine ⟨?_, hspeak.post hfail hown _⟩
  rw [post_sideOf, setSide_sideOf]
theorem resume_read_gives (hw : a.req.write = false) (now : Nat) :
    (s.resume d line now).sideOf line = { s.sideOf line with count := 255 } ∧
      (s.resume d line now).holds s d a.req.die
        (.tok line ⟨1, false, (s.sideOf line).serial, some (s.homeLine line), false⟩) := by
  rw [resume_read hnode hact hnone hline hclean hcrown hcount hpoison hw]
  have hspeak := ((speaksAs_setActive s d (some (a.again now))).trans
    (speaksAs_setActive _ d (some { a.again now with forwarded := true }))).trans
      (speaksAs_setSide _ d line { s.sideOf line with count := 255 })
  refine ⟨?_, hspeak.post hfail hown _⟩
  rw [post_sideOf, setSide_sideOf]
end
end

/-! ## Answers to a home (R390, R391) -/

/-- The recount of a line waits for the dies of the list. -/
def State.awaiting (s : State) (d line : Nat) (left : List Nat) : State := s.updHome d fun h => { h with
  recounts := h.recounts.map fun q => if q.line = line then { q with pending := left } else q }
section
variable {s : State} {d src line : Nat} {r : Recount}
theorem awaiting_home (left : List Nat) : ((s.awaiting d line left).die d).home = { (s.die d).home with
    recounts := (s.die d).home.recounts.map fun q => if q.line = line then { q with pending := left } else q } :=
  updHome_home s d _
theorem keepAtHome_die (p : TokPay) (k : Nat) : (s.keepAtHome line p).die k = s.die k := by
  rw [keepAtHome_rest]
  rfl
theorem keepAtHome_atNode (p : TokPay) : (s.keepAtHome line p).atNode line = s.atNode line := by
  rw [keepAtHome_rest]
  rfl
theorem keepAtHome_now (p : TokPay) : (s.keepAtHome line p).now = s.now := by rw [keepAtHome_rest]
theorem awaiting_recount (hr : (s.die d).home.recount line = some r) (left : List Nat) :
    ((s.awaiting d line left).die d).home.recount line = some { r with pending := left } := by
  rw [State.awaiting, updHome_home]
  exact recount_map (f := fun q => { q with pending := left }) (fun _ h => h) hr
section
variable (hr : (s.die d).home.recount line = some r)
include hr
theorem answered_pending (hleft : (r.pending.filter fun i => i != src) ≠ []) :
    s.answered d line src = s.awaiting d line (r.pending.filter fun i => i != src) := by
  have hne : (r.pending.filter fun i => i != src).isEmpty = false := by simpa using hleft
  simp only [State.answered, hr, hne, Bool.false_eq_true, if_false]
  rfl
theorem answered_last (hleft : (r.pending.filter fun i => i != src) = []) :
    s.answered d line src = (s.awaiting d line []).closeRecount d line := by
  simp only [State.answered, hr, hleft, List.isEmpty_nil, if_true]
  rfl
end
variable {p : TokPay} (hr : (s.die d).home.recount line = some r) (h : s.delivers d src (.rack line p))
  (hserial : p.serial = r.serial)
include hr h hserial
theorem exec_rack_home (hnode : s.atNode line = false) :
    exec .rack s = .next ((s.without.homeTokens d line p).answered d line src) := by
  have hr' : (s.without.die d).home.recount line = some r := hr
  have hnode' : s.without.atNode line = false := hnode
  refine ((exec_rack s).trans (onToken_takes h rfl)).trans (congrArg _ ?_)
  simp [hr', hnode', hserial]
theorem exec_rack_node (hnode : s.atNode line = true) (hcount : p.count ≠ 0) (hside : (s.sideOf line).serial = r.serial) :
    exec .rack s = .next ((s.without.postHome d line (.putt line p)).answered d line src) := by
  have hr' : (s.without.die d).home.recount line = some r := hr
  have hnode' : s.without.atNode line = true := hnode
  have hside' : (s.without.sideOf line).serial = r.serial := hside
  refine ((exec_rack s).trans (onToken_takes h rfl)).trans (congrArg _ ?_)
  simp [hr', hnode', hserial, hcount, hside']
end

/-! ## What messages and lines of slices leave (R214, R369) -/

section
variable (s : State)
theorem quiet_sendReq (d line : Nat) (write : Bool) (dies : List Nat) : (s.sendReq d line write dies).quiet = s.quiet := by
  simp only [State.sendReq]
  split
  · rfl
  · split <;> simp
theorem del_of_find_none {β : Type} {k : Nat} {m : SMap β} (h : find k m = none) : del k m = m := by
  induction m with
  | nil => rfl
  | cons e m ih =>
    obtain ⟨j, x⟩ := e
    by_cases hj : j = k
    · simp [find, hj] at h
    · rw [find, if_neg hj] at h
      rw [del, if_neg hj, ih h]
/-- An entry that makes way is dropped; the rest is a message. -/
theorem evict_quiet (d line : Nat) : (s.evict d line).quiet = s.quiet.dropEnt d line := by
  unfold State.evict
  split
  · exact quiet_postHome ..
  · rename_i he
    exact congrArg (fun l => { s.quiet with lines := l }) (del_of_find_none he).symm
/-- Room in a set is made by dropping an entry of it at most. -/
theorem makeWay_quiet {s t : State} {d line : Nat} (h : s.makeWay d line = some t) : ∃ l, t.quiet = { s.quiet with lines := l } := by
  simp only [State.makeWay] at h
  split at h
  · cases h
    exact ⟨s.lines, rfl⟩
  · split at h
    · cases h
      exact ⟨_, evict_quiet ..⟩
    · cases h
theorem addTokens_quiet (d line : Nat) (p : TokPay) : ∃ l, (s.addTokens d line p).quiet = { s.quiet with lines := l } := by
  unfold State.addTokens
  split
  · exact ⟨_, rfl⟩
  · split
    · rename_i t hway
      obtain ⟨l, hl⟩ := makeWay_quiet hway
      exact ⟨_, congrArg (fun u : State => u.setEnt d line _) hl⟩
    · exact ⟨_, quiet_postHome ..⟩
end

/-! ## The room in the fault queue beside a change of a home's line (R216, R319) -/

/-- What a home's line shows to a device store: all but how a poisoned line is marked. -/
def Side.shown (x : Side) : Nat × Bool × BitVec 4 × Bool := (x.count, x.crown, x.serial, x.bad)
/-- The state without messages and without the homes' lines. -/
def State.bare (s : State) : State := { s.quiet with side := [] }
/-- What does not look at messages and homes' lines is the same of two states that differ in those alone. -/
theorem of_bare {α : Type} (f : State → α) {s t : State} (h : t.bare = s.bare) (hf : ∀ u : State, f u.bare = f u) :
    f t = f s := by rw [← hf t, h, hf s]
theorem setSide_bare (s : State) (line : Nat) (x : Side) : (s.setSide line x).bare = s.bare := rfl
section
variable {s t : State} (h : t.bare = s.bare)
include h
theorem inSet_congr (d line : Nat) : t.inSet d line = s.inSet d line := of_bare (State.inSet · d line) h fun _ => rfl
theorem activeAt_congr (d line : Nat) : t.activeAt d line = s.activeAt d line := of_bare (State.activeAt · d line) h fun _ => rfl
theorem evict_congr (d line : Nat) : (t.evict d line).bare = (s.evict d line).bare := by
  unfold State.bare
  rw [evict_quiet, evict_quiet]
  exact congrArg (State.dropEnt · d line) h
theorem makeWay_congr (d line : Nat) : (t.makeWay d line).map State.bare = (s.makeWay d line).map State.bare := by
  simp only [State.makeWay, inSet_congr h, activeAt_congr h]
  split
  · exact congrArg some h
  · split
    · exact congrArg some (evict_congr h ..)
    · rfl
theorem addTokens_congr (d line : Nat) (p : TokPay) : (t.addTokens d line p).bare = (s.addTokens d line p).bare := by
  have hent : t.ent d line = s.ent d line := of_bare (State.ent · d line) h fun _ => rfl
  have hway := makeWay_congr h d line
  have hhome : ∀ m, (t.postHome d line m).bare = (s.postHome d line m).bare := fun m => by
    unfold State.bare
    rw [quiet_postHome, quiet_postHome]
    exact h
  unfold State.addTokens
  rw [hent]
  cases s.ent d line with
  | some e => exact congrArg (State.setEnt · d line _) h
  | none =>
    cases ht : t.makeWay d line <;> cases hs : s.makeWay d line <;> rw [ht, hs] at hway
    · exact hhome _
    · cases hway
    · cases hway
    · have hab := Option.some.inj hway
      simp only [inSet_congr hab]
      exact congrArg (State.setEnt · d line _) hab
theorem dropHolders_congr (line : Nat) : (t.dropHolders line).bare = (s.dropHolders line).bare := by
  have hdrop : ∀ u : State, (u.dropHolders line).bare = u.bare.dropHolders line := fun u =>
    (List.foldl_hom State.bare fun _ _ => rfl).symm
  rw [hdrop, hdrop, h]
variable {line : Nat} (hside : (t.sideOf line).shown = (s.sideOf line).shown)
include hside
theorem claim_congr (d : Nat) (whole : Bool) : (t.claim d line whole).bare = (s.claim d line whole).bare := by
  obtain ⟨hcount, hcrown, hserial, hbad⟩ : (t.sideOf line).count = (s.sideOf line).count ∧
      (t.sideOf line).crown = (s.sideOf line).crown ∧ (t.sideOf line).serial = (s.sideOf line).serial ∧
      (t.sideOf line).bad = (s.sideOf line).bad := by simpa [Side.shown] using hside
  have hhome : t.ownHome line = s.ownHome line := of_bare (State.ownHome · line) h fun _ => rfl
  cases hh : s.ownHome line with
  | none => rw [claim_of_no_home hh, claim_of_no_home (hhome.trans hh), h]
  | some k =>
    have hclaim : t.claimable k line whole = s.claimable k line whole := by
      have hholders : t.holders line = s.holders line := of_bare (State.holders · line) h fun _ => rfl
      have hent : ∀ e, t.ent e line = s.ent e line := fun e => of_bare (State.ent · e line) h fun _ => rfl
      have hdie : t.die k = s.die k := of_bare (State.die · k) h fun _ => rfl
      simp only [State.claimable, hcount, hcrown, hserial, hbad, hholders, hent, hdie]
    by_cases hc : s.claimable k line whole = true
    · have hway := makeWay_congr (dropHolders_congr h line) d line
      cases ht : (t.dropHolders line).makeWay d line <;> cases hs : (s.dropHolders line).makeWay d line <;> rw [ht, hs] at hway
      · rw [claim_of_no_way hh hs, claim_of_no_way (hhome.trans hh) ht, h]
      · cases hway
      · cases hway
      · have hmem : t.mem = s.mem := of_bare State.mem h fun _ => rfl
        rw [claim_takes hh hc hs, claim_takes (hhome.trans hh) (hclaim.trans hc) ht, hserial, hbad, hmem]
        refine addTokens_congr ?_ ..
        rw [setSide_bare, setSide_bare, Option.some.inj hway]
    · rw [claim_of_not_claimable hh hc, claim_of_not_claimable (hhome.trans hh) (by rw [hclaim]; exact hc), h]
end
/-- How a poisoned line is marked makes no difference to the room in the fault queue. -/
theorem fqReady_of_shown {s t : State} (h : t.bare = s.bare) (hside : (t.sideOf s.fqLine).shown = (s.sideOf s.fqLine).shown) :
    t.fqReady = s.fqReady := by
  have hsys : t.sys = s.sys := of_bare State.sys h fun _ => rfl
  have hline : t.fqLine = s.fqLine := of_bare State.fqLine h fun _ => rfl
  have hroom : t.fqRoom = s.fqRoom := of_bare State.fqRoom h fun _ => rfl
  have hdev : t.devDie s.fqLine = s.devDie s.fqLine := of_bare (State.devDie · s.fqLine) h fun _ => rfl
  have htok : t.tokenLine s.fqLine = s.tokenLine s.fqLine := of_bare (State.tokenLine · s.fqLine) h fun _ => rfl
  have hready : (t.devReady s.fqLine false).bare = (s.devReady s.fqLine false).bare := by
    have hcan : t.canWrite (s.devDie s.fqLine) s.fqLine = s.canWrite (s.devDie s.fqLine) s.fqLine :=
      of_bare (State.canWrite · (s.devDie s.fqLine) s.fqLine) h fun _ => rfl
    unfold State.devReady
    rw [hdev, hcan]
    split
    · exact h
    · exact claim_congr h hside ..
  have hwrite : (t.devReady s.fqLine false).canWrite (s.devDie s.fqLine) s.fqLine =
      (s.devReady s.fqLine false).canWrite (s.devDie s.fqLine) s.fqLine :=
    of_bare (State.canWrite · (s.devDie s.fqLine) s.fqLine) hready fun _ => rfl
  have herr : t.homeErr (s.devDie s.fqLine) s.fqLine = s.homeErr (s.devDie s.fqLine) s.fqLine := by
    have hpoison : t.poisoned (s.fqLine * 128) = s.poisoned (s.fqLine * 128) := by
      have hsome : (t.sideOf s.fqLine).crown = (s.sideOf s.fqLine).crown ∧
          (t.sideOf s.fqLine).bad = (s.sideOf s.fqLine).bad := by
        rw [Side.shown, Side.shown, Prod.mk.injEq, Prod.mk.injEq, Prod.mk.injEq] at hside
        exact ⟨hside.2.1, hside.2.2.2⟩
      simp only [State.poisoned, Nat.mul_div_cancel _ (by decide : 0 < 128), hsome.1, hsome.2]
    have hhome : t.lineHome s.fqLine = s.lineHome s.fqLine := of_bare (State.lineHome · s.fqLine) h fun _ => rfl
    have herrs : t.errAt = s.errAt := of_bare State.errAt h fun _ => rfl
    have hdie : ∀ d, t.die d = s.die d := fun d => of_bare (State.die · d) h fun _ => rfl
    have hext : ∀ a, t.extentOf a = s.extentOf a := fun a => of_bare (State.extentOf · a) h fun _ => rfl
    have hown : ∀ i, t.ownDie i = s.ownDie i := fun i => of_bare (State.ownDie · i) h fun _ => rfl
    simp only [State.homeErr, hpoison, hhome, herrs, hdie, hext, hown]
  simp only [State.fqReady, State.fqStorable, hline, hroom, hdev, htok, hwrite, herr]

/-! ## What a fault record leaves of dies and homes' lines (R216, R319) -/

/-- The dies and one line at its home stay as they are. -/
def KeepsHome (line : Nat) (s t : State) : Prop := t.dies = s.dies ∧ t.sideOf line = s.sideOf line
section
variable {s t : State} {line l : Nat}
theorem KeepsHome.refl (line : Nat) (s : State) : KeepsHome line s s := ⟨rfl, rfl⟩
theorem KeepsHome.trans {u : State} (h : KeepsHome line s t) (h' : KeepsHome line t u) : KeepsHome line s u :=
  ⟨h'.1.trans h.1, h'.2.trans h.2⟩
theorem KeepsHome.foldl {α : Type} {f : State → α → State} (k : List α) (hf : ∀ s, ∀ x ∈ k, KeepsHome line s (f s x)) (s : State) :
    KeepsHome line s (k.foldl f s) :=
  List.foldlRecOn k f (motive := KeepsHome line s) (.refl line s) fun t h x hx => h.trans (hf t x hx)
theorem KeepsHome.of_quiet {k : SMap LineEnt} (h : t.quiet = { s.quiet with lines := k }) : KeepsHome line s t := by
  have hdies : t.quiet.dies = s.quiet.dies := by rw [h]
  have hside : t.quiet.sideOf line = s.quiet.sideOf line := by rw [h]; rfl
  exact ⟨hdies, hside⟩
theorem KeepsHome.of_sent (h : t.quiet = s.quiet) : KeepsHome line s t := .of_quiet (k := s.lines) h
theorem KeepsHome.of_registersOnly {y : Sys} (h : RegistersOnly { s with sys := y } t) : KeepsHome line s t := by
  obtain ⟨hrest, -⟩ := h
  rw [hrest]
  exact ⟨rfl, rfl⟩
variable (s)
theorem keepsHome_addTokens (d k : Nat) (p : TokPay) : KeepsHome line s (s.addTokens d k p) := by
  obtain ⟨m, hm⟩ := addTokens_quiet s d k p
  exact .of_quiet hm
variable (hne : line ≠ l)
include hne
theorem keepsHome_setSide (x : Side) : KeepsHome line s (s.setSide l x) := ⟨rfl, setSide_sideOf_ne s hne x⟩
theorem keepsHome_claim (d : Nat) (whole : Bool) : KeepsHome line s (s.claim d l whole) := by
  cases hh : s.ownHome l with
  | none =>
    rw [claim_of_no_home hh]
    exact .refl line s
  | some h =>
    by_cases hc : s.claimable h l whole = true
    · cases hway : (s.dropHolders l).makeWay d l with
      | none =>
        rw [claim_of_no_way hh hway]
        exact .refl line s
      | some t =>
        have hdrop : KeepsHome line s (s.dropHolders l) :=
          .foldl (f := fun s e => s.dropEnt e l) _ (fun _ _ _ => ⟨rfl, rfl⟩) s
        obtain ⟨k, hk⟩ := makeWay_quiet hway
        rw [claim_takes hh hc hway]
        exact ((hdrop.trans (.of_quiet hk)).trans (keepsHome_setSide t hne _)).trans (keepsHome_addTokens ..)
    · rw [claim_of_not_claimable hh hc]
      exact .refl line s
theorem keepsHome_flushLine : KeepsHome line s (s.flushLine l) := by
  have hready : ∀ w, KeepsHome line s (s.devReady l w) := fun w => by
    unfold State.devReady
    split
    · exact .refl line s
    · exact keepsHome_claim s hne ..
  simp only [State.flushLine]
  split
  · exact .refl line s
  · split
    · refine ((hready _).trans (t := State.devReady s l _) ⟨rfl, rfl⟩).trans (.foldl _ (fun u x _ => ?_) _)
      unfold State.sliceMasked State.sliceWrite
      split <;> exact ⟨rfl, rfl⟩
    · split
      · exact .refl line s
      · unfold State.request
        split
        · exact ⟨rfl, rfl⟩
        · dsimp only
          split
          · exact ⟨rfl, rfl⟩
          · exact KeepsHome.trans (t := s.setSreq (s.devDie l) l _) ⟨rfl, rfl⟩ (.of_sent (quiet_sendReq ..))
omit hne
theorem keepsHome_devStore (x : Nat × List (Byte × Byte)) : KeepsHome line s (s.devStore x) := by
  unfold State.devStore
  split
  · exact ⟨rfl, rfl⟩
  · split <;> exact ⟨rfl, rfl⟩
theorem leBytes_length (n x : Nat) : (leBytes n x).length = n := by
  induction n generalizing x with
  | zero => rfl
  | succ n ih => rw [leBytes, List.length_cons, ih]
/-- A store within a line is one piece. -/
theorem cutLines_within {pa n : Nat} {k : List (Byte × Byte)} (hk : k ≠ []) (hfit : pa % 128 + k.length ≤ 128) :
    cutLines (n + 2) pa k = [(pa, k)] := by
  have hall : k.length ≤ 128 - pa % 128 := by omega
  have hsome : k.isEmpty = false := by simpa using hk
  simp [cutLines, hsome, List.take_of_length_le hall, List.drop_eq_nil_of_le hall]
theorem keepsHome_physWrite {pa : Nat} {bs : List Byte} (hbs : bs ≠ []) (hfit : pa % 128 + bs.length ≤ 128)
    (hne : line ≠ pa / 128) : KeepsHome line s (s.physWrite pa bs) := by
  have hcut : cutLines ((wholeBytes bs).length / 128 + 2) pa (wholeBytes bs) = [(pa, wholeBytes bs)] :=
    cutLines_within (by simpa [wholeBytes] using hbs) (by simpa [wholeBytes] using hfit)
  have hlines : ∀ x ∈ ([pa / 128] : List Nat).eraseDups, line ≠ x := by simpa using hne
  simp only [State.physWrite, State.physStores, List.flatMap_cons, List.flatMap_nil, List.append_nil, hcut, List.map_cons,
    List.map_nil]
  exact (KeepsHome.foldl _ (fun u x _ => keepsHome_devStore u x) s).trans
    (.foldl _ (fun u x hx => keepsHome_flushLine u (hlines x hx)) _)
/-- A fault record leaves the dies, and the homes' lines but the one that it is written to. -/
theorem keepsHome_report (hbase : s.sys.fqbase.toNat % 64 = 0) (hne : line ≠ s.fqLine) (r : FaultRec) :
    KeepsHome line s (s.report r) := by
  have hput : KeepsHome line s (s.putRecord r) := by
    have hlen : (r.bytes ++ [BitVec.ofNat 8 (s.sys.fqtail.toNat / 4096 % 2 * 128)]).length = 64 := by
      simp only [FaultRec.bytes, List.length_append, leBytes_length, List.length_cons, List.length_nil]
    have hstored : KeepsHome line s (s.recordStored r) :=
      keepsHome_physWrite s (List.ne_nil_of_length_pos (by rw [hlen]; decide)) (by rw [hlen]; omega) hne
    exact hstored.trans (.of_registersOnly (putRecord_registersOnly rfl))
  simp only [State.report]
  split
  · exact hput
  · split
    · exact ⟨rfl, rfl⟩
    · split
      · exact ⟨rfl, rfl⟩
      · split <;> exact ⟨rfl, rfl⟩
end
/-! ## Dies that go down and rejoin (R394 to R396) -/

/-- What a die knows when another has gone down: nothing of it is asked or owed any more (R394). -/
def Die.knowsDown (x : Die) (isl : Nat) : Die := { x with
  down := if x.down.contains isl then x.down else x.down ++ [isl]
  home := { x.home with
    pending := x.home.pending.filter fun r => r.die != isl
    turn := x.home.turn.filter fun r => r.die != isl
    handed := x.home.handed.filter fun r => r.die != isl
    moving := x.home.moving.map fun m => { m with
      hold := m.hold.filter fun r => r.die != isl
      left := m.left.map fun e => (e.1, e.2.filter fun i => i != isl) } } }
theorem mem_knowsDown (x : Die) (isl : Nat) : isl ∈ (x.knowsDown isl).down := by
  unfold Die.knowsDown
  dsimp only
  split
  · rename_i h
    exact List.contains_iff_mem.1 h
  · exact List.mem_append_right _ (List.mem_singleton_self isl)
section
variable {β : Type} {k : Nat} {m : SMap β}
theorem find_del_of_none (h : find k m = none) (j : Nat) : find k (del j m) = none := by
  by_cases hk : k = j
  · rw [hk, find_del_self]
  · rw [find_del_ne hk, h]
/-- An entry that is deleted among others is gone. -/
theorem find_foldl_del {l : List Nat} {f : Nat → Nat} {j : Nat} (hj : j ∈ l) :
    find (f j) (l.foldl (fun m i => del (f i) m) m) = none := by
  obtain ⟨before, after, rfl⟩ := List.mem_iff_append.1 hj
  rw [List.foldl_append, List.foldl_cons]
  exact List.foldlRecOn after _ (motive := fun n => find (f j) n = none) (find_del_self ..)
    fun n h i _ => find_del_of_none h (f i)
/-- An entry outlasts a filter by keys if its key does. -/
theorem find_filter_key (p : Nat → Bool) (k : Nat) (m : SMap β) :
    find k (m.filter fun e => p e.1) = if p k then find k m else none := by
  induction m with
  | nil => simp [find]
  | cons e m ih =>
    obtain ⟨j, x⟩ := e
    by_cases hj : j = k
    · subst hj
      cases hp : p j <;> simp [find, hp, ih]
    · cases hp : p j <;> simp [find, hp, hj, ih]
end
section
variable {s : State} {d src isl : Nat}
/-- What a die does next: it ends the active request of the die that went down, takes it out of its recounts, and tries its
own requests for lines whose home is there again. -/
def State.settleDown (s : State) (d isl : Nat) : State :=
  let s1 := match (s.die d).home.active with
    | some a => if a.req.die = isl then s.endActive d else s
    | none => s
  let s2 := ((s1.die d).home.recounts.map (·.line)).foldl (fun s line => s.answered d line isl) s1
  ((s2.sreqs.filter fun e => e.1 / 2 ^ 45 == d && s2.lineHome (e.1 % 2 ^ 45) == some isl).map
    fun e => e.1 % 2 ^ 45).foldl (fun s line => s.retryLine d line true) s2
theorem settleDown_of_idle (hact : (s.die d).home.active = none) (hrec : (s.die d).home.recounts = []) (hreq : s.sreqs = []) :
    s.settleDown d isl = s := by
  simp only [State.settleDown, hact, hrec, hreq, List.map_nil, List.foldl_nil, List.filter_nil]
/-- A die's persistent request table without the entries of a home. -/
def ptabWithout (m : SMap PEnt) (d isl : Nat) : SMap PEnt := (List.range 16).foldl (fun m sl => del (pkey d sl isl) m) m
theorem ptabWithout_find {sl : Nat} (hsl : sl < 16) (m : SMap PEnt) (d isl : Nat) :
    find (pkey d sl isl) (ptabWithout m d isl) = none := find_foldl_del (f := fun sl => pkey d sl isl) (List.mem_range.2 hsl)
def State.marked (s : State) (d isl : Nat) : State := { s.setDie d ((s.die d).knowsDown isl) with
  ptab := ptabWithout s.ptab d isl }
theorem marked_die (s : State) (d isl : Nat) : (s.marked d isl).die d = (s.die d).knowsDown isl := by
  have hdies : (s.marked d isl).dies = (s.setDie d ((s.die d).knowsDown isl)).dies := by rw [State.marked]
  rw [State.die, hdies]
  exact setDie_die ..
theorem markDown_eq (s : State) (d isl : Nat) : s.markDown d isl = (s.marked d isl).settleDown d isl := by rfl
theorem settleDown_marked (hact : (s.die d).home.active = none) (hrec : (s.die d).home.recounts = []) (hreq : s.sreqs = []) :
    (s.marked d isl).settleDown d isl = s.marked d isl := by
  have hhome : ((s.marked d isl).die d).home = ((s.die d).knowsDown isl).home := by rw [marked_die]
  have hact' : ((s.die d).knowsDown isl).home.active = none := hact
  have hrec' : ((s.die d).knowsDown isl).home.recounts = [] := hrec
  exact settleDown_of_idle (by rw [hhome, hact']) (by rw [hhome, hrec']) hreq
/-- A home that serves nobody, in a package without requests, takes a die out of its lists and tables alone. -/
theorem exec_down_next (h : s.delivers d src (.down isl)) (hact : (s.die d).home.active = none)
    (hrec : (s.die d).home.recounts = []) (hreq : s.sreqs = []) : exec .down s = .next (s.without.marked d isl) := by
  have hmark := (markDown_eq s.without d isl).trans (settleDown_marked hact hrec hreq)
  exact ((exec_down s).trans (onToken_takes h rfl)).trans (congrArg _ hmark)
theorem marked_pent {sl : Nat} (hsl : sl < 16) (d isl : Nat) : (s.marked d isl).pent d sl isl = PEnt.none := by
  have htab : (s.marked d isl).ptab = ptabWithout s.ptab d isl := by rw [State.marked]
  rw [State.pent, look, htab, ptabWithout_find hsl]
  rfl
theorem exec_up_next {inc : Byte} (h : s.delivers d src (.up isl inc)) : exec .up s = .next (s.without.updDie d fun x => { x with
    known := put 0 isl inc x.known, down := x.down.filter fun i => i != isl }) :=
  (exec_up s).trans (onToken_takes h rfl)
end

/-! ## Silence after a rejoin (R395) -/

section
variable {s : State}
theorem exec_upHoldoffExpiry_early {til : Nat} (hup : (s.die s.pick).upUntil = some til) (h : s.now < til) :
    ∃ why, exec .upHoldoffExpiry s = .refused (.notEnabled why) := by
  rw [exec_upHoldoffExpiry, execUpHoldoffExpiry]
  simp only [hup, if_neg (Nat.not_le.2 h)]
  exact off_refused _
/-- The silence ends, and the requests that were held go out. -/
theorem exec_upHoldoffExpiry_ends {til : Nat} (hup : (s.die s.pick).upUntil = some til) (h : til ≤ s.now) :
    ∃ t, exec .upHoldoffExpiry s = .next t ∧ (t.die s.pick).upUntil = none := by
  rw [exec_upHoldoffExpiry, execUpHoldoffExpiry]
  simp only [hup, if_pos h]
  refine ⟨_, rfl, List.foldlRecOn _ _ (motive := fun t : State => (t.die s.pick).upUntil = none) ?_ fun t ht e _ => ?_⟩
  · rw [updDie_eq, setDie_die]
  · rw [← quiet_die, quiet_sendReq]
    exact ht
theorem lineKey_die {line : Nat} (h : line < 2 ^ 45) (d : Nat) : lineKey d line / 2 ^ 45 = d := by
  unfold lineKey
  omega
/-- The state in which a die has begun anew (R395). -/
def State.rejoined (s : State) (d : Nat) : State :=
  { s with
    lines := s.lines.filter fun e => e.1 / 2 ^ 45 != d
    sreqs := s.sreqs.map fun (e : Nat × SliceReq) =>
      if e.1 / 2 ^ 45 = d then (e.1, { e.2 with phase := .transient, since := s.now }) else e
    ptab := s.ptab.filter fun e => e.1 / 2048 != d
    filters := s.filters.filter fun f => f.die != d }.updDie d fun x => { x with
      incarn := (s.die d).incarn + 1, known := put 0 (s.islDie d) ((s.die d).incarn + 1) x.known
      upUntil := some (s.now + maxAge), failed := false, home := Home.empty }
theorem exec_dieRejoin_next {e : Nat} (hp : s.pick < 8) (he : e < 8) (hne : e ≠ s.pick)
    (hdown : s.islDie s.pick ∈ (s.die e).down) : exec .dieRejoin s = .next ((s.rejoined s.pick).postAll s.pick
      ((List.range (8 * s.enum.islsize)).filter fun i => i != s.islDie s.pick)
      (.up (s.islDie s.pick) ((s.die s.pick).incarn + 1))) := by
  have hany : ((List.range 8).any fun e => e != s.pick && (s.die e).down.contains (s.islDie s.pick)) = true :=
    List.any_eq_true.2 ⟨e, List.mem_range.2 he, by simpa [hne] using hdown⟩
  rw [exec_dieRejoin, execDieRejoin]
  simp only [hany, hp, Bool.or_true, and_self, if_true]
  rfl
theorem rejoined_ent {line : Nat} (h : line < 2 ^ 45) (d k : Nat) :
    (s.rejoined d).ent k line = if k = d then none else s.ent k line := by
  have hkey := find_filter_key (fun j => j / 2 ^ 45 != d) (lineKey k line) s.lines
  rw [lineKey_die h] at hkey
  refine hkey.trans ?_
  by_cases hk : k = d <;> simp [hk, State.ent]
end

/-! ## Scrubbing (R216) -/

section
variable {s : State} {d line : Nat} (hd : (s.lineHome line).bind s.ownDie = some d) (hnode : s.atNode line = false)
include hd hnode
theorem exec_patrolScrub_next : exec (.patrolScrub d line) s = .next (s.scrubLine d line) := by
  rw [exec_patrolScrub, execPatrolScrub, if_pos ⟨hd, hnode⟩]
end
section
variable {s : State} {d line : Nat}
theorem scrubLine_one (h : (s.sideOf line).symErr = 1) :
    s.scrubLine d line = s.setSide line { s.sideOf line with symErr := 0 } := by
  simp [State.scrubLine, h]
/-- A line with more wrong symbols than ECC corrects is poisoned and recorded. -/
theorem scrubLine_many (h : 2 ≤ (s.sideOf line).symErr) : s.scrubLine d line =
    (s.setSide line { s.sideOf line with poison := true, symErr := 0 }).report
      { s.dieRec 0x31 d with addr := line * 128, flags := 0x10 } := by
  have h0 : (s.sideOf line).symErr ≠ 0 := by omega
  have h1 : (s.sideOf line).symErr ≠ 1 := by omega
  simp only [State.scrubLine, if_neg h0, if_neg h1]
theorem fqReady_poisoned (h : 2 ≤ (s.sideOf line).symErr) :
    (s.setSide line { s.sideOf line with poison := true, symErr := 0 }).fqReady = s.fqReady := by
  refine fqReady_of_shown (s := s) (t := s.setSide line _) rfl ?_
  by_cases hl : s.fqLine = line
  · rw [hl, setSide_sideOf]
    simp [Side.shown, Side.bad, h]
  · rw [setSide_sideOf_ne s hl]
end

/-! ## Ages (R372) -/

section
variable {s : State} {f : Flight}
theorem exec_messageAgeExpiry_net (hnet : s.net[s.pick]? = some f) (hages : s.ages f = true) (hold : maxAge ≤ Flight.age f s.now) :
    exec .messageAgeExpiry s = .next s.without := by
  have hexp : s.expired f = true := by simp [State.expired, hages, hold]
  rw [exec_messageAgeExpiry, execMessageAgeExpiry]
  simp only [hnet, hexp, if_true]
  rfl
theorem exec_messageAgeExpiry_early (hnet : s.net[s.pick]? = some f) (hyoung : Flight.age f s.now < maxAge) :
    ∃ why, exec .messageAgeExpiry s = .refused (.notEnabled why) := by
  have hexp : s.expired f = false := by simp [State.expired, hyoung]
  rw [exec_messageAgeExpiry, execMessageAgeExpiry]
  simp only [hnet, hexp, Bool.false_eq_true, if_false]
  exact off_refused _
theorem exec_messageAgeExpiry_egress {k : Nat} (heg : s.egress[k]? = some f) (hpick : s.pick = s.net.length + k)
    (hold : maxAge ≤ Flight.age f s.now) : exec .messageAgeExpiry s = .next { s with egress := dropNth k s.egress } := by
  have hnone : s.net[s.pick]? = none := List.getElem?_eq_none (by omega)
  have hk : s.pick - s.net.length = k := by omega
  rw [exec_messageAgeExpiry, execMessageAgeExpiry]
  simp only [hnone, hk, heg, if_pos hold]
theorem exec_recallFilterExpiry_next {d idx : Nat} {f : RFilter} (hf : s.filters[idx]? = some f) (hd : f.die = d)
    (htil : f.til ≤ s.now) : exec (.recallFilterExpiry d idx) s = .next { s with filters := dropNth idx s.filters } := by
  rw [exec_recallFilterExpiry, execRecallFilterExpiry]
  simp only [hf, if_pos (And.intro hd htil)]
theorem exec_migrationForwardExpiry_next {d idx : Nat} {f : Nat × Nat × Nat} (hf : (s.die d).home.forwards[idx]? = some f)
    (htil : f.2.2 ≤ s.now) : exec (.migrationForwardExpiry d idx) s =
      .next (s.updHome d fun h => { h with forwards := dropNth idx h.forwards }) := by
  rw [exec_migrationForwardExpiry, execMigrationForwardExpiry]
  simp only [hf, if_pos htil]
end

/-! ## The obligation -/

section
variable {s : State} {d src line : Nat} {r : Recount} {p : TokPay} (hr : (s.die d).home.recount line = some r)
include hr
/-- What is being recounted is not served. -/
theorem activeFor_of_recount : (s.die d).home.activeFor line = none := by
  unfold Home.activeFor
  split
  · simp [hr]
  · rfl
variable (hdel : s.delivers d src (.rack line p)) (hserial : p.serial = r.serial)
include hdel hserial
/-- An answer at a pool node's line passes on to the node. -/
theorem rack_at_node (hside : (s.sideOf line).serial = r.serial) (hnode : s.atNode line = true) (hcount : p.count ≠ 0)
    (hleft : (r.pending.filter fun i => i != src) ≠ []) : exec .rack s =
      .next ((s.without.postHome d line (.putt line p)).awaiting d line (r.pending.filter fun i => i != src)) := by
  have hr' : ((s.without.postHome d line (.putt line p)).die d).home.recount line = some r := by
    rw [postHome_die]
    exact hr
  rw [exec_rack_node hr hdel hserial hnode hcount hside, answered_pending hr' hleft]
variable (hside : (s.sideOf line).serial = r.serial) (hclean : (s.sideOf line).symErr = 0) (hnode : s.atNode line = false)
include hside hclean hnode
/-- An answer at a line of HBM: the home keeps what it brings. -/
theorem rack_keeps : exec .rack s = .next ((s.without.keepAtHome line p).answered d line src) := by
  have hsame : p.serial = (s.without.sideOf line).serial := hserial.trans hside.symm
  rw [exec_rack_home hr hdel hserial hnode,
    homeTokens_keeps (s := s.without) hsame hclean (activeFor_of_recount (s := s.without) hr)]
omit hdel hserial hside hclean hnode in
theorem keepAtHome_recount (p : TokPay) : ((s.without.keepAtHome line p).die d).home.recount line = some r := by
  rw [keepAtHome_die]
  exact hr
end

section
variable (s : State) (d line : Nat) (p : TokPay) (serial : BitVec 4)
theorem recounted_atNode (l : Nat) : (s.recounted d line serial).atNode l = s.atNode l := rfl
theorem recounted_homeLine (l : Nat) : (s.recounted d line serial).homeLine l = s.homeLine l := rfl
theorem recounted_sys : (s.recounted d line serial).sys = s.sys := rfl
theorem recounted_speaks : SpeaksAs d s (s.recounted d line serial) := (speaksAs_updHome s d _).trans (speaksAs_setSide _ d line _)
section
variable (left : List Nat)
theorem awaiting_atNode (l : Nat) : (s.awaiting d line left).atNode l = s.atNode l := rfl
theorem awaiting_homeLine (l : Nat) : (s.awaiting d line left).homeLine l = s.homeLine l := rfl
theorem awaiting_sys : (s.awaiting d line left).sys = s.sys := rfl
theorem awaiting_now : (s.awaiting d line left).now = s.now := rfl
theorem awaiting_sideOf (l : Nat) : (s.awaiting d line left).sideOf l = s.sideOf l := rfl
theorem awaiting_speaks : SpeaksAs d s (s.awaiting d line left) := speaksAs_updHome s d _
end
theorem keepAtHome_speaks : SpeaksAs d s (s.keepAtHome line p) := by
  rw [keepAtHome_rest]
  exact speaksAs_of_dies
end

/-- The home when the last answer of a recount has come and the line has its tokens again. -/
def State.allCounted (s : State) (d line : Nat) (p : TokPay) (serial : BitVec 4) : State :=
  ((s.without.keepAtHome line p).awaiting d line []).recounted d line serial
section
variable (s : State) (d line : Nat) (p : TokPay) (serial : BitVec 4)
theorem allCounted_sideOf (hclean : (s.sideOf line).symErr = 0) : (s.allCounted d line p serial).sideOf line =
    { s.sideOf line with
      count := 256, crown := true, serial := serial + 1
      poison := ((s.sideOf line).poison && !(p.crown && p.dirty)) || !((s.sideOf line).crown || p.crown) } := by
  rw [State.allCounted, recounted_sideOf, awaiting_sideOf, keepAtHome_sideOf s.without line p hclean]
  rfl
theorem allCounted_home : ((s.allCounted d line p serial).die d).home = Home.close { (s.die d).home with
    recounts := (s.die d).home.recounts.map fun q => if q.line = line then { q with pending := [] } else q } line s.now := by
  rw [State.allCounted, recounted_home, awaiting_home, keepAtHome_die, awaiting_now, keepAtHome_now]
  rfl
theorem allCounted_recount : ((s.allCounted d line p serial).die d).home.recount line = none := by
  rw [allCounted_home]
  exact close_recount ..
theorem allCounted_active : ((s.allCounted d line p serial).die d).home.active = (s.die d).home.active := by
  rw [allCounted_home]
  rfl
theorem allCounted_atNode : (s.allCounted d line p serial).atNode line = s.atNode line := by
  rw [State.allCounted, recounted_atNode, awaiting_atNode, keepAtHome_atNode]
  rfl
theorem allCounted_homeLine : (s.allCounted d line p serial).homeLine line =
    if p.crown && p.dirty then p.data.getD (s.homeLine line) else s.homeLine line := by
  rw [State.allCounted, recounted_homeLine, awaiting_homeLine, keepAtHome_homeLine]
  rfl
theorem allCounted_speaks : SpeaksAs d s (s.allCounted d line p serial) :=
  ((speaksAs_of_dies : SpeaksAs d s s.without).trans (keepAtHome_speaks ..)).trans
    ((awaiting_speaks _ d line []).trans (recounted_speaks _ d line serial))
theorem allCounted_sys : (s.allCounted d line p serial).sys = s.sys := by
  rw [State.allCounted, recounted_sys, awaiting_sys, keepAtHome_rest]
  rfl
variable {s d line p}
/-- The last answer closes the recount. -/
theorem exec_rack_last {src : Nat} {r : Recount} (hr : (s.die d).home.recount line = some r) (hdel : s.delivers d src (.rack line p))
    (hserial : p.serial = r.serial) (hside : (s.sideOf line).serial = r.serial) (hclean : (s.sideOf line).symErr = 0)
    (hnode : s.atNode line = false) (hleft : (r.pending.filter fun i => i != src) = []) : exec .rack s =
      .next ((if (s.sideOf line).crown || p.crown then s.allCounted d line p r.serial else
        (s.allCounted d line p r.serial).report ((s.allCounted d line p r.serial).lostRec d line)).resume d line s.now) := by
  have hrec := awaiting_recount (keepAtHome_recount hr p) []
  have hnode' : ((s.without.keepAtHome line p).awaiting d line []).atNode line = false :=
    (awaiting_atNode ..).trans ((keepAtHome_atNode p).trans hnode)
  have hcrown : (((s.without.keepAtHome line p).awaiting d line []).sideOf line).crown = ((s.sideOf line).crown || p.crown) := by
    rw [awaiting_sideOf, keepAtHome_sideOf s.without line p hclean]
    rfl
  rw [rack_keeps hr hdel hserial hside hclean hnode, answered_last (keepAtHome_recount hr p) hleft, closeRecount_eq hrec hnode',
    hcrown, awaiting_now, keepAtHome_now]
  rfl
end

/-- Settles O48, event by event. -/
theorem recountsRestoreTokens : Obligations.RecountsRestoreTokens := by
  unfold Obligations.RecountsRestoreTokens
  refine ⟨fun s d src link hdel => ?loss, fun s d line req i => ⟨mem_recallSet, fun h => serveSet_eq h d⟩,
    fun d line s a hact hfail hrec hline hnone hroom hclosed hset => ?recountOpen,
    fun d line s r hr hfail => ⟨fun hsent => ?resend, exec_recallResend_early hr⟩,
    fun s d src line sn hdel hroom => ⟨fun hsrc e he hs => ?outside, fun hsrc hown => ?inside⟩,
    fun s d src line r p hr hdel hserial hside hclean => ⟨fun hnode hcount hleft => ?node, fun hnode => ⟨fun hleft => ?pending,
      fun hleft a hact hline hown hcrown hpoison => ?last⟩⟩,
    fun s d src line r hr hdel hnode hside hclean hbase hne hleft hact => ?bare,
    fun d idx s f hf hd htil => exec_recallFilterExpiry_next hf hd htil,
    fun s d src isl hdel hact hrec hreq => ?down, fun s d src isl inc hdel => ?up,
    fun s til hup => ⟨exec_upHoldoffExpiry_ends hup, exec_upHoldoffExpiry_early hup⟩,
    fun s e hp he hne hdown => ?rejoin,
    fun line s d hd hnode => ⟨fun h => ?clean, fun h => ?one, fun h => ?many⟩,
    fun s f hnet hages => ⟨exec_messageAgeExpiry_net hnet hages, exec_messageAgeExpiry_early hnet⟩,
    fun s k f heg hpick hold => exec_messageAgeExpiry_egress heg hpick hold,
    fun d idx s f hf htil => ?forward⟩
  case loss =>
    exact ⟨_, exec_loss_next hdel, toRecount_rest s.without d, fun k hk => toRecount_die_ne s.without hk,
      toRecount_home s.without d⟩
  case recountOpen =>
    have hbegun : (s.recountBegun d line (s.serveSet d line a.req.die)).die d = _ := setDie_die ..
    refine ⟨_, exec_recountOpen_next hact hrec hline hnone hroom hclosed hset, ?_, ?_, fun i hi hown => ?_⟩
    · rw [postAll_die, hbegun]
    · rw [postAll_die, hbegun]
    · have hsame : SpeaksAs d s (s.recountBegun d line (s.serveSet d line a.req.die)) :=
        ⟨rfl, rfl, by rw [hbegun], by rw [hbegun]⟩
      exact hsame.postAll hfail hown hi _
  case resend =>
    let u := s.updHome d fun h => { h with
      recounts := h.recounts.map fun q => if q.line = line then { q with sent := s.now } else q }
    have hu : u.die d = _ := updHome_die ..
    refine ⟨_, exec_recallResend_next hr hsent, ?_, fun i hi hown => ?_⟩
    · rw [postAll_die, hu]
      exact recount_map (f := fun q => { q with sent := s.now }) (fun _ h => h) hr
    · exact (speaksAs_updHome ..).postAll hfail hown hi _
  case outside =>
    have hpost : ¬ src < 128 := Nat.not_lt.2 hsrc
    rw [exec_recall_held hdel hroom he hs, State.sendRack, if_neg hpost]
    rfl
  case inside =>
    have hfail := delivers_not_failed hdel
    have harmed := reArm_rest (s.without.withFilter d line sn) d line
    obtain ⟨f, hf, hmine⟩ := withFilter_mem s.without d line sn
    have hspeak : SpeaksAs d s ((s.without.withFilter d line sn).reArm d line) := by
      rw [harmed]
      exact speaksAs_of_dies
    have hfilters : f ∈ ((s.without.withFilter d line sn).reArm d line).filters := by
      rw [harmed]
      exact hf
    have hlines : ((s.without.withFilter d line sn).reArm d line).lines = s.lines := by
      rw [harmed]
      rfl
    by_cases hheld : ∃ e, s.ent d line = some e ∧ e.serial = sn
    · obtain ⟨e, he, hs⟩ := hheld
      refine ⟨_, (exec_recall_held hdel hroom he hs).trans (congrArg _ (if_pos hsrc)), ⟨f, ?_, hmine⟩, fun e' he' hs' => ?_,
        fun hnone => absurd hs (hnone e he)⟩
      · rw [← quiet_filters, quiet_post]
        exact hfilters
      · cases Option.some.inj (he'.symm.trans he)
        refine ⟨?_, (hspeak.trans speaksAs_of_dies).post hfail hown _⟩
        rw [← quiet_ent, quiet_post, quiet_ent, dropEnt_ent]
    · have hbare : ∀ e, s.ent d line = some e → e.serial ≠ sn := fun e he hs => hheld ⟨e, he, hs⟩
      refine ⟨_, (exec_recall_bare hdel hroom hbare).trans (congrArg _ (if_pos hsrc)), ⟨f, ?_, hmine⟩,
        fun e he hs => absurd hs (hbare e he), fun _ => ⟨?_, hspeak.post hfail hown _⟩⟩
      · rw [← quiet_filters, quiet_post]
        exact hfilters
      · rw [← quiet_lines, quiet_post]
        exact hlines
  case node => exact ⟨_, rack_at_node hr hdel hserial hside hnode hcount hleft, rfl⟩
  case pending =>
    refine ⟨_, (rack_keeps hr hdel hserial hside hclean hnode).trans
      (congrArg _ (answered_pending (keepAtHome_recount hr p) hleft)), awaiting_recount (keepAtHome_recount hr p) _,
      keepAtHome_sideOf s.without line p hclean, keepAtHome_mem_of_clean s.without line p,
      fun hdirty l hl => keepAtHome_writes s.without line p hdirty hl⟩
  case last =>
    have hside' := allCounted_sideOf s d line p r.serial hclean
    have hclose := exec_rack_last hr hdel hserial hside hclean hnode hleft
    rw [if_pos hcrown] at hclose
    have hpoison' : ((s.allCounted d line p r.serial).sideOf line).poison = false := by simp [hside', hpoison, hcrown]
    have hnode' := (allCounted_atNode s d line p r.serial).trans hnode
    have hact' := (allCounted_active s d line p r.serial).trans hact
    have hnone := allCounted_recount s d line p r.serial
    have hspeak := allCounted_speaks s d line p r.serial
    have hclean' : ((s.allCounted d line p r.serial).sideOf line).symErr = 0 := by rw [hside']; exact hclean
    have hcrown' : ((s.allCounted d line p r.serial).sideOf line).crown = true := by rw [hside']
    have hcount' : ((s.allCounted d line p r.serial).sideOf line).count = 256 := by rw [hside']
    have hserial' : ((s.allCounted d line p r.serial).sideOf line).serial = r.serial + 1 := by rw [hside']
    have hhome := resume_home hnode' hact' hnone hline hclean' hcrown' hcount' hpoison' s.now
    have hfail' := hspeak.2.2.2.trans (delivers_not_failed hdel)
    have hown' : ((s.allCounted d line p r.serial).ownDie a.req.die).isSome = true := by
      rw [State.ownDie, hspeak.1]
      exact hown
    refine ⟨_, hclose, ?_, ?_, fun hw => ?_, fun hw => ?_⟩
    · rw [hhome, recount_withActive, hnone]
    · rw [hhome]
      rfl
    · obtain ⟨hs, hh⟩ := resume_write_gives hnode' hact' hnone hline hclean' hcrown' hcount' hpoison' hfail' hown' hw s.now
      rw [hserial', allCounted_homeLine] at hh
      refine ⟨hs.trans ?_, hspeak.holds hh⟩
      rw [hside']
      simp [hpoison, hcrown]
    · obtain ⟨hs, hh⟩ := resume_read_gives hnode' hact' hnone hline hclean' hcrown' hcount' hpoison' hfail' hown' hw s.now
      rw [hserial', allCounted_homeLine] at hh
      refine ⟨hs.trans ?_, hspeak.holds hh⟩
      rw [hside']
      simp [hpoison, hcrown]
  case bare =>
    have hside' := allCounted_sideOf s d line ⟨0, false, r.serial, none, false⟩ r.serial hclean
    have hclose := exec_rack_last hr hdel rfl hside hclean hnode hleft
    have hnone := allCounted_recount s d line ⟨0, false, r.serial, none, false⟩ r.serial
    have hact' := (allCounted_active s d line ⟨0, false, r.serial, none, false⟩ r.serial).trans hact
    have hsys := allCounted_sys s d line ⟨0, false, r.serial, none, false⟩ r.serial
    have hfq : (s.allCounted d line ⟨0, false, r.serial, none, false⟩ r.serial).fqLine = s.fqLine := by
      rw [State.fqLine, hsys]
      rfl
    generalize s.allCounted d line ⟨0, false, r.serial, none, false⟩ r.serial = v at *
    have hkeep : KeepsHome line v (if (s.sideOf line).crown || false then v else v.report (v.lostRec d line)) := by
      split
      · exact .refl line v
      · exact keepsHome_report v (by rw [hsys]; exact hbase) (by rw [hfq]; exact Ne.symm hne) _
    generalize (if (s.sideOf line).crown || false then v else v.report (v.lostRec d line)) = w at *
    obtain ⟨hdies, hwside⟩ := hkeep
    have hdie : w.die d = v.die d := by rw [State.die, hdies]; rfl
    have hidle : (w.die d).home.active = none := by rw [hdie]; exact hact'
    refine ⟨w, hclose.trans (congrArg _ (resume_of_idle hidle _)), by rw [hdie]; exact hnone, hwside.trans (hside'.trans ?_)⟩
    simp
  case down =>
    have hdie : (s.without.marked d isl).die d = (s.die d).knowsDown isl := marked_die ..
    refine ⟨_, exec_down_next hdel hact hrec hreq, ?_, ?_, ?_, fun sl hsl => marked_pent (s := s.without) hsl d isl⟩
    · rw [hdie]
      exact mem_knowsDown ..
    · rw [hdie]
      rfl
    · rw [hdie]
      rfl
  case up => exact ⟨_, exec_up_next hdel, rfl, fun k hk => setDie_die_ne s.without hk _, setDie_die ..⟩
  case rejoin =>
    have hdie : (s.rejoined s.pick).die s.pick = _ := setDie_die ..
    refine ⟨_, exec_dieRejoin_next hp he hne hdown, ?_, ?_, ?_, ?_, fun line hl => ?_, fun f hf => ?_, fun k line hk hl => ?_⟩
    · rw [postAll_die, hdie]
    · rw [postAll_die, hdie]
      exact look_put_self ..
    · rw [postAll_die, hdie]
    · rw [postAll_die, hdie]
    · rw [← quiet_ent, quiet_postAll, quiet_ent, rejoined_ent hl, if_pos rfl]
    · rw [← quiet_filters, quiet_postAll, quiet_filters] at hf
      exact bne_iff_ne.1 (List.mem_filter.1 hf).2
    · rw [← quiet_ent, quiet_postAll, quiet_ent, rejoined_ent hl, if_neg hk]
  case clean =>
    rw [exec_patrolScrub_next hd hnode, scrubLine_of_clean h]
  case one =>
    rw [exec_patrolScrub_next hd hnode, scrubLine_one h]
  case many =>
    refine ⟨_, exec_patrolScrub_next hd hnode, fun hbase hne => ?_, fun hready => ?_⟩
    · rw [scrubLine_many h]
      exact (keepsHome_report (s.setSide line _) hbase (Ne.symm hne) _).2.trans (setSide_sideOf ..)
    · rw [scrubLine_many h]
      exact report_fqtail ((fqReady_poisoned h).trans hready) _
  case forward =>
    exact ⟨_, exec_migrationForwardExpiry_next hf htil, rfl, fun k hk => updHome_die_ne hk _, updHome_die ..⟩

end Sys2Proof.Machine
end

-- Accesses that are done (R236, R242)
section
/-! What the end of an access of a memory record changes: its group's registers, scoreboards and queue, and no core; what a
group that lies on its core has in its registers afterwards. -/

namespace Sys2Proof.Machine

/-! ## Registers of a group on its core (R236) -/

/-- From the first state to the second nothing changes but groups. -/
def GroupsOnly (s t : State) : Prop := t = { s with groups := t.groups }
section
variable {s t u : State}
theorem GroupsOnly.refl (s : State) : GroupsOnly s s := rfl
theorem GroupsOnly.trans (h : GroupsOnly s t) (h' : GroupsOnly t u) : GroupsOnly s u := by
  unfold GroupsOnly at *
  rw [h', h]
theorem GroupsOnly.core (h : GroupsOnly s t) (k : Nat) : t.core k = s.core k := by
  rw [h]
  rfl
theorem GroupsOnly.track (h : GroupsOnly s t) (k : Nat) : t.track k = s.track k := by
  rw [h]
  rfl
end

/-- A group's registers with one word written. -/
def Group.setReg (x : Group) (b : Bank) (key : Nat) (w : RegWord) : Group :=
  match b with
  | .s => { x with s := put RegWord.zero key w x.s }
  | _ => { x with v := put RegWord.zero key w x.v }
/-- Words of a result enter a group's registers. -/
def Group.storeRegs (x : Group) : List (Bank × Nat) → Nat → Group
  | [], _ => x
  | (b, k) :: l, n => (x.setReg b k (RegWord.of (BitVec.ofNat 32 n))).storeRegs l (n / 2 ^ 32)
theorem storeRegs_rest (x : Group) (ws : List (Bank × Nat)) (n : Nat) :
    x.storeRegs ws n = { x with v := (x.storeRegs ws n).v, s := (x.storeRegs ws n).s } := by
  induction ws generalizing x n with
  | nil => rfl
  | cons a ws ih =>
    have hone : ∀ w, x.setReg a.1 a.2 w = { x with v := (x.setReg a.1 a.2 w).v, s := (x.setReg a.1 a.2 w).s } := by
      intro w
      unfold Group.setReg
      split <;> rfl
    rw [Group.storeRegs, ih, hone]
theorem storeRegs_of {ws : List (Bank × Nat)} (hws : ∀ a ∈ ws, a.1 ≠ .l) (x : Group) (n : Nat) (k : Track) :
    RegFile.of (x.storeRegs ws n) k = (RegFile.of x k).store ws n := by
  induction ws generalizing x n with
  | nil => rfl
  | cons a ws ih =>
    obtain ⟨b, key⟩ := a
    have hone : ∀ w, RegFile.of (x.setReg b key w) k = (RegFile.of x k).set b key w := by
      intro w
      cases b with
      | l => exact absurd rfl (hws (.l, key) (List.mem_cons_self ..))
      | v => rfl
      | s => rfl
    rw [Group.storeRegs, ih (fun a ha => hws a (List.mem_cons_of_mem _ ha)), hone, RegFile.store]

section
variable {s : State} {g : Nat} {x : Group}

theorem slotOf_of_bound (hb : x.resid = .bound) (s : State) : s.slotOf x = none := by
  simp [State.slotOf, hb]
theorem putReg_of_bound (hg : s.group g = some x) (hb : x.resid = .bound) (b : Bank) (key : Nat) (w : RegWord) :
    s.putReg g b key w = s.setGroup g (x.setReg b key w) := by
  simp only [State.putReg, hg, slotOf_of_bound hb]
  cases b <;> rfl
/-- Of a group on its core, results enter its registers. -/
theorem putRegs_of_bound (hg : s.group g = some x) (hb : x.resid = .bound) (ws : List (Bank × Nat)) (n : Nat) :
    GroupsOnly s (s.putRegs g ws n false) ∧ (s.putRegs g ws n false).group g = some (x.storeRegs ws n) := by
  induction ws generalizing s x n with
  | nil => exact ⟨rfl, hg⟩
  | cons a ws ih =>
    obtain ⟨b, key⟩ := a
    have hb' : (x.setReg b key (RegWord.of (BitVec.ofNat 32 n))).resid = .bound := by
      rw [← hb]
      unfold Group.setReg
      split <;> rfl
    rw [State.putRegs, Group.storeRegs, if_neg Bool.false_ne_true, putReg_of_bound hg hb]
    obtain ⟨hrest, hgroup⟩ := ih (setGroup_group ..) hb' (n / 2 ^ 32)
    exact ⟨GroupsOnly.trans (t := s.setGroup g _) rfl hrest, hgroup⟩
end

/-! ## The end of an access (R236) -/

section
variable {s : State} {g id idx : Nat} {x : Group}
theorem setAcc_group (hg : s.group g = some x) (st : AccSt) : (s.setAcc g id idx st).group g =
    some { x with memq := x.memq.map fun q => if q.id == id then q.setSt idx st else q } :=
  (updGroup_group s g _).trans (congrArg _ hg)
theorem groupsOnly_setAcc (s : State) (g id idx : Nat) (st : AccSt) : GroupsOnly s (s.setAcc g id idx st) := by
  unfold GroupsOnly
  rfl
theorem sbFall_of_bound (hg : s.group g = some x) (hb : x.resid = .bound) (sb : Option Nat) :
    GroupsOnly s (s.sbFall g sb) ∧ ∃ m, (s.sbFall g sb).group g = some { x with sb := m } := by
  cases sb with
  | none => exact ⟨rfl, x.sb, hg⟩
  | some i =>
    simp only [State.sbFall, hg, slotOf_of_bound hb]
    exact ⟨rfl, _, (updGroup_group s g _).trans (congrArg _ hg)⟩
/-- A record whose accesses are done leaves the queue and lets its scoreboard fall. -/
theorem finishRec_of_bound (hg : s.group g = some x) (hb : x.resid = .bound) (id : Nat) :
    GroupsOnly s (s.finishRec g id) ∧ ∃ m q, (s.finishRec g id).group g = some { x with sb := m, memq := q } ∧
      ∀ r ∈ q, r ∈ x.memq := by
  simp only [State.finishRec, hg]
  split
  · exact ⟨rfl, x.sb, x.memq, hg, fun _ h => h⟩
  · rename_i r _
    split
    · exact ⟨rfl, x.sb, x.memq, hg, fun _ h => h⟩
    · have hg' := (updGroup_group s g fun x => { x with memq := x.memq.filter fun q => q.id != id }).trans (congrArg _ hg)
      obtain ⟨hrest, m, hm⟩ := sbFall_of_bound hg' hb r.sb
      exact ⟨GroupsOnly.trans (t := s.updGroup g _) rfl hrest, m, _, hm, fun _ h => (List.mem_filter.1 h).1⟩
end

/-- Access `idx` of a group's record is done. -/
def State.accessDone (s : State) (g id idx : Nat) : Prop :=
  ∀ x, s.group g = some x → ∀ q ∈ x.memq, q.id = id → ∀ a, q.lanes[idx]? = some a → a.st = .done

section
variable {α : Type} (f : α → α)
theorem updNth_getElem?_self (n : Nat) (l : List α) : (updNth n f l)[n]? = l[n]?.map f := by
  induction l generalizing n with
  | nil => simp [updNth]
  | cons a l ih =>
    cases n with
    | zero => rfl
    | succ n => exact ih n
theorem updNth_getElem?_ne {n m : Nat} (h : m ≠ n) (l : List α) : (updNth n f l)[m]? = l[m]? := by
  induction l generalizing n m with
  | nil => simp [updNth]
  | cons a l ih =>
    cases n with
    | zero =>
      cases m with
      | zero => exact absurd rfl h
      | succ m => rfl
    | succ n =>
      cases m with
      | zero => rfl
      | succ m => exact ih (fun he => h (congrArg Nat.succ he))
end
/-- Once an access is done, so it is whichever access of the record ends next. -/
theorem setSt_done {q : MemRec} {idx k : Nat} (h : k = idx ∨ ∀ a, q.lanes[k]? = some a → a.st = .done) (a : LaneAcc)
    (ha : (q.setSt idx .done).lanes[k]? = some a) : a.st = .done := by
  by_cases hk : k = idx
  · subst hk
    rw [MemRec.setSt, updNth_getElem?_self] at ha
    obtain ⟨b, -, rfl⟩ := Option.map_eq_some_iff.1 ha
    rfl
  · rw [MemRec.setSt, updNth_getElem?_ne _ hk] at ha
    exact (h.resolve_left hk) a ha

section
variable {s : State} {g idx : Nat} {x : Group} (r : MemRec) (a : LaneAcc) (bytes : List Byte)
/-- The end of an access of a group on its core: nothing but the group changes; the result stands in its registers, and the
access is done. -/
theorem doneAcc_of_bound (hg : s.group g = some x) (hb : x.resid = .bound) :
    GroupsOnly s (s.doneAcc g r idx a bytes) ∧
      ∃ m q, (s.doneAcc g r idx a bytes).group g = some { x.storeRegs (accWords r a) (extended r.kind r.size (leNat bytes)) with
        sb := m, memq := q } ∧ ∀ p ∈ q, ∃ p' ∈ x.memq, p = if p'.id == r.id then p'.setSt idx .done else p' := by
  obtain ⟨hputs, hput⟩ := putRegs_of_bound hg hb (accWords r a) (extended r.kind r.size (leNat bytes))
  have hset := setAcc_group (id := r.id) (idx := idx) hput .done
  have hrest := storeRegs_rest x (accWords r a) (extended r.kind r.size (leNat bytes))
  have hb' : (x.storeRegs (accWords r a) (extended r.kind r.size (leNat bytes))).resid = .bound := by
    rw [hrest]
    exact hb
  have hmemq : (x.storeRegs (accWords r a) (extended r.kind r.size (leNat bytes))).memq = x.memq := by rw [hrest]
  obtain ⟨hfins, m, q, hfin, hq⟩ := finishRec_of_bound hset hb' r.id
  refine ⟨(hputs.trans (groupsOnly_setAcc ..)).trans hfins, m, q, hfin, fun p hp => ?_⟩
  obtain ⟨p', hp', rfl⟩ := List.mem_map.1 (hq p hp)
  exact ⟨p', hmemq ▸ hp', rfl⟩
end

/-! ## Values of results (R242) -/

theorem accWords_subset {r : MemRec} {a : LaneAcc} {d : Dst} (hd : r.dst = some d) : (accWords r a).Sublist (dstWords d a.lane) := by
  simp only [accWords, hd]
  split
  · exact (List.take_sublist _ _).trans (List.drop_sublist _ _)
  · exact List.Sublist.refl _
theorem accWords_nodup (r : MemRec) (a : LaneAcc) : (accWords r a).Nodup := by
  cases hd : r.dst with
  | none => simp [accWords, hd]
  | some d => exact (dstWords_nodup d a.lane).sublist (accWords_subset hd)
/-- Results go to v and s registers. -/
theorem accWords_not_latch (r : MemRec) (a : LaneAcc) : ∀ w ∈ accWords r a, w.1 ≠ .l := by
  cases hd : r.dst with
  | none => simp [accWords, hd]
  | some d =>
    intro w hw
    obtain ⟨j, -, rfl⟩ := List.mem_map.1 ((accWords_subset hd).subset hw)
    split <;> simp
section
variable {s : State} {g idx : Nat} {x : Group} {r : MemRec} {a : LaneAcc} {bytes : List Byte}
theorem regsOf_congr {t : State} (hg : t.group g = some x) (hk : ∀ u, t.track u = s.track u) (u : Nat) :
    t.regsOf g u = RegFile.of x (s.track u) := by
  simp only [State.regsOf, hg, hk]
/-- What a load, an atomic or a pop read stands in its registers. -/
theorem doneAcc_value (hg : s.group g = some x) (hb : x.resid = .bound) (u : Nat) :
    ((s.doneAcc g r idx a bytes).regsOf g u).value (accWords r a) =
      extended r.kind r.size (leNat bytes) % 2 ^ (32 * (accWords r a).length) := by
  obtain ⟨hrest, m, q, hgroup, -⟩ := doneAcc_of_bound (idx := idx) r a bytes hg hb
  rw [regsOf_congr hgroup hrest.track]
  exact (congrArg (RegFile.value · (accWords r a)) (storeRegs_of (accWords_not_latch r a) x _ (s.track u))).trans
    (value_store _ _ _ (accWords_nodup r a))
theorem doneAcc_done (hg : s.group g = some x) (hb : x.resid = .bound) {k : Nat} (hk : k = idx ∨ s.accessDone g r.id k) :
    (s.doneAcc g r idx a bytes).accessDone g r.id k := by
  obtain ⟨-, m, q, hgroup, hq⟩ := doneAcc_of_bound (idx := idx) r a bytes hg hb
  intro y hy p hp hid b hlane
  cases Option.some.inj (hy.symm.trans hgroup)
  obtain ⟨p', hp', rfl⟩ := hq p hp
  by_cases hsame : p'.id == r.id
  · rw [if_pos hsame] at hlane
    exact setSt_done (hk.imp_right fun h => h x hg p' hp' (eq_of_beq hsame)) b hlane
  · rw [if_neg hsame] at hid
    exact absurd (beq_iff_eq.2 hid) hsame
end

/-- Only a load extends the sign of what it read. -/
theorem extended_of_not_load {k : MemKind} (h : ∀ e, k ≠ .load e) (n x : Nat) : extended k n x = x := by
  unfold extended
  split
  · exact absurd rfl (h _)
  · rfl

/-! ## Cores (R236) -/

section
variable (s : State)
theorem physStores_cores (ps : List (Nat × List (Byte × Byte))) : (s.physStores ps).cores = s.cores := by
  have haround : s.physStores ps = (s.physStores ps).around s := physStores_around s s ps
  rw [haround]
  rfl
theorem physWrite_cores (pa : Nat) (bs : List Byte) : (s.physWrite pa bs).cores = s.cores := physStores_cores ..
theorem setPhysBit_cores (pa i : Nat) (on : Bool) : (s.setPhysBit pa i on).cores = s.cores := physStores_cores ..
theorem putReg_cores (g : Nat) (b : Bank) (key : Nat) (w : RegWord) : (s.putReg g b key w).cores = s.cores := by
  unfold State.putReg
  split
  · rfl
  · split
    · exact (setPhysBit_cores ..).trans (physWrite_cores ..)
    · split <;> rfl
theorem putRegs_cores (g : Nat) (ws : List (Bank × Nat)) (n : Nat) (p : Bool) : (s.putRegs g ws n p).cores = s.cores := by
  induction ws generalizing s n with
  | nil => rfl
  | cons a ws ih => exact (ih ..).trans (putReg_cores ..)
theorem sbFall_cores (g : Nat) (sb : Option Nat) : (s.sbFall g sb).cores = s.cores := by
  unfold State.sbFall
  split
  · dsimp only
    split
    · exact physWrite_cores ..
    · rfl
  · rfl
theorem finishRec_cores (g id : Nat) : (s.finishRec g id).cores = s.cores := by
  unfold State.finishRec
  split
  · rfl
  · split
    · rfl
    · split
      · rfl
      · exact sbFall_cores (State.updGroup s g _) g _
/-- Wherever its group lies, the end of an access leaves the cores as they are. -/
theorem doneAcc_cores (g : Nat) (r : MemRec) (idx : Nat) (a : LaneAcc) (bytes : List Byte) :
    (s.doneAcc g r idx a bytes).cores = s.cores :=
  (finishRec_cores (State.setAcc _ g r.id idx .done) g r.id).trans (putRegs_cores s g _ _ false)
end

/-! ## The context of an access (R244) -/

theorem accCtx_some {s : State} {g id idx : Nat} {c : AccCtx} (h : s.accCtx g id idx = some c) :
    c.g = g ∧ c.idx = idx ∧ s.group g = some c.grp ∧ c.r.lanes[idx]? = some c.a := by
  unfold State.accCtx at h
  split at h
  · cases h
  · split at h
    · split at h
      · cases h
        exact ⟨rfl, rfl, by assumption, by assumption⟩
      · cases h
    · cases h

end Sys2Proof.Machine
end

-- FIFO banks and the write-through buffer (R223, R243, R244, R255, R256)
section
/-! What the oldest waiting record of a bank does to the bank, and what becomes of the oldest store of a line in the
write-through buffer; and the obligation on both. -/

namespace Sys2Proof.Machine

theorem exec_fifoRecordPerform (core bank : Nat) (s : State) :
    exec (.fifoRecordPerform core bank) s = execFifoRecordPerform core bank s := by rfl
theorem exec_writeThroughDrain (core idx : Nat) (s : State) :
    exec (.writeThroughDrain core idx) s = execWriteThroughDrain core idx s := by rfl
theorem exec_flushReadCompletion (s : State) : exec .flushReadCompletion s = execFlushReadCompletion s := by rfl

/-! ## Counters of a bank (R255) -/

/-- The FIFO state of a bank and the records that wait at its core's banks. -/
def State.bankState (s : State) (core bank : Nat) : Option Fifo × List FifoWait :=
  (find bank (s.core core).fifo, (s.core core).fifoq)
section
variable (s : State) (core bank : Nat)
theorem bankState_of_cores {s t : State} (h : t.cores = s.cores) (core bank : Nat) :
    t.bankState core bank = s.bankState core bank := by
  have hcore : t.core core = s.core core := by rw [State.core, h]; rfl
  rw [State.bankState, hcore]
  rfl
theorem scrWrite_bankState (a : Nat) (bs : List Byte) : (s.scrWrite core a bs).bankState core bank = s.bankState core bank := by
  have hcore : (s.scrWrite core a bs).core core = { s.core core with scratch := wrBytes (s.core core).scratch a bs } :=
    setCore_core ..
  rw [State.bankState, hcore]
  rfl
theorem scramble_bankState : (s.scramble core bank).bankState core bank = s.bankState core bank :=
  (scrWrite_bankState s.draw.2 core bank _ _).trans (bankState_of_cores rfl core bank)
theorem setFifo_bankState (f : Option Fifo) : (s.setFifo core bank f).bankState core bank = (f, (s.core core).fifoq) := by
  have hcore : (s.setFifo core bank f).core core = { s.core core with fifo := match f with
    | some x => ins bank x (s.core core).fifo
    | none => del bank (s.core core).fifo } := setCore_core ..
  rw [State.bankState, hcore]
  cases f with
  | none => exact Prod.ext (find_del_self ..) rfl
  | some x => exact Prod.ext (find_ins_self ..) rfl
theorem dropFifoWait_bankState (w : FifoWait) :
    (s.dropFifoWait core w).bankState core bank = (find bank (s.core core).fifo, (s.core core).fifoq.erase w) := by
  have hcore : (s.dropFifoWait core w).core core = { s.core core with fifoq := (s.core core).fifoq.erase w } := setCore_core ..
  rw [State.bankState, hcore]
theorem dropFifoWait_scratch (w : FifoWait) : ((s.dropFifoWait core w).core core).scratch = (s.core core).scratch := by
  rw [State.dropFifoWait, updCore_eq, setCore_core]
theorem doneAcc_bankState (g : Nat) (r : MemRec) (idx : Nat) (a : LaneAcc) (bytes : List Byte) :
    (s.doneAcc g r idx a bytes).bankState core bank = s.bankState core bank :=
  bankState_of_cores (doneAcc_cores ..) core bank
theorem endAccs_cores (c : AccCtx) (l : List (Nat × LaneAcc)) : (s.endAccs c false l).cores = s.cores := by
  induction l generalizing s with
  | nil => rfl
  | cons x l ih => exact (ih _).trans (finishRec_cores (s.setAcc c.g c.r.id x.1 .done) c.g c.r.id)
theorem ofNat_succ_words (x : BitVec 16) (n : Nat) : x + 1 + BitVec.ofNat 16 n = x + BitVec.ofNat 16 (n + 1) := by bv_omega
theorem ofNat_words (x : BitVec 16) (n k : Nat) :
    x + BitVec.ofNat 16 n + BitVec.ofNat 16 (k * n) = x + BitVec.ofNat 16 ((k + 1) * n) := by
  rw [BitVec.add_assoc, ← BitVec.ofNat_add, Nat.add_comm n, Nat.succ_mul]
/-- Words that are pushed go to tail. -/
theorem fifoPush_tail (bs : List Byte) (n : Nat) (f : Fifo) :
    (s.fifoPush core bank bs n f).2 = { f with tail := f.tail + BitVec.ofNat 16 n } ∧
      (s.fifoPush core bank bs n f).1.bankState core bank = s.bankState core bank := by
  induction n generalizing s bs f with
  | zero => simp [State.fifoPush]
  | succ n ih =>
    obtain ⟨htail, hkeep⟩ := ih (s.scrWrite core (slotAddr bank f.tail) (bs.take 4)) (bs.drop 4) { f with tail := f.tail + 1 }
    rw [State.fifoPush]
    exact ⟨htail.trans (congrArg (Fifo.mk f.head) (ofNat_succ_words ..)), hkeep.trans (scrWrite_bankState ..)⟩
theorem fifoPop_one (f : Fifo) : (s.fifoPop core bank (4 / 4) f).1 = s.scrRead core (slotAddr bank f.head) 4 := List.append_nil _
theorem fifoPop_head (n : Nat) (f : Fifo) : (s.fifoPop core bank n f).2 = { f with head := f.head + BitVec.ofNat 16 n } := by
  induction n generalizing f with
  | zero => simp [State.fifoPop]
  | succ n ih =>
    rw [State.fifoPop]
    exact (ih { f with head := f.head + 1 }).trans (congrArg (Fifo.mk · f.tail) (ofNat_succ_words ..))
theorem pushLanes_bankState (c : AccCtx) (l : List (Nat × LaneAcc)) (f : Fifo) : (s.pushLanes core bank c l f).bankState core bank =
    (some { f with tail := f.tail + BitVec.ofNat 16 (l.length * (c.r.size / 4)) }, (s.core core).fifoq) := by
  induction l generalizing s f with
  | nil =>
    rw [List.length_nil, Nat.zero_mul, BitVec.add_zero]
    exact setFifo_bankState s core bank (some f)
  | cons x l ih =>
    obtain ⟨htail, hkeep⟩ := fifoPush_tail s core bank x.2.data (c.r.size / 4) f
    have hq := congrArg Prod.snd ((doneAcc_bankState (s.fifoPush core bank x.2.data (c.r.size / 4) f).1 core bank c.g c.r x.1
      x.2 []).trans hkeep)
    rw [State.pushLanes]
    refine (ih ..).trans ?_
    rw [htail, List.length_cons]
    exact Prod.ext (congrArg (fun t => some (Fifo.mk f.head t)) (ofNat_words ..)) hq
theorem popLanes_bankState (c : AccCtx) (l : List (Nat × LaneAcc)) (f : Fifo) : (s.popLanes core bank c l f).bankState core bank =
    (some { f with head := f.head + BitVec.ofNat 16 (l.length * (c.r.size / 4)) }, (s.core core).fifoq) := by
  induction l generalizing s f with
  | nil =>
    rw [List.length_nil, Nat.zero_mul, BitVec.add_zero]
    exact setFifo_bankState s core bank (some f)
  | cons x l ih =>
    have hhead := fifoPop_head s core bank (c.r.size / 4) f
    have hq := congrArg Prod.snd (doneAcc_bankState s core bank c.g c.r x.1 x.2 (s.fifoPop core bank (c.r.size / 4) f).1)
    rw [State.popLanes]
    refine (ih ..).trans ?_
    rw [hhead, List.length_cons]
    exact Prod.ext (congrArg (fun t => some (Fifo.mk t f.tail)) (ofNat_words ..)) hq
end

/-! ## The oldest record at a bank (R255, R256) -/

section
variable {s : State} {core bank : Nat} {w : FifoWait} {rest : List FifoWait} {c : AccCtx} {l : List (Nat × LaneAcc)}
theorem bankAccs_some (h : s.bankAccs core w = some (c, l)) : s.accCtx w.group w.mrec 0 = some c := by
  unfold State.bankAccs at h
  split at h
  · cases h
  · rename_i c' hc
    cases h
    exact hc
variable (hq : (s.core core).fifoq.filter (fun x => x.bank == bank) = w :: rest) (hc : s.bankAccs core w = some (c, l))
include hq
theorem oldest_bank : w.bank = bank := by
  have hw : w ∈ (s.core core).fifoq.filter fun x => x.bank == bank := hq ▸ List.mem_cons_self ..
  simpa using (List.mem_filter.1 hw).2
include hc
theorem exec_fifoRecordPerform_next {t : State} (h : s.fifoHead core w c l = some t) :
    exec (.fifoRecordPerform core bank) s = .next t := by
  rw [exec_fifoRecordPerform, execFifoRecordPerform]
  simp only [State.fifoStep, hq, hc, h]
/-- What must wait waits, while nothing stands behind it. -/
theorem exec_fifoRecordPerform_waits (h : s.fifoHead core w c l = none) (hrest : rest = []) :
    ∃ why, exec (.fifoRecordPerform core bank) s = .refused (.notEnabled why) := by
  rw [exec_fifoRecordPerform, execFifoRecordPerform]
  simp only [State.fifoStep, hq, hc, h, hrest, controlBehind]
  exact off_refused _
end

/-! ## Stores to host memory (R234) -/

theorem underMask_whole (old b : Byte) : underMask old (b, BitVec.allOnes 8) = b := by
  rw [underMask, BitVec.not_allOnes, BitVec.and_zero, BitVec.zero_or, BitVec.and_allOnes]
theorem wrMasked_whole (m : List Host.Cell) (a : Nat) (bs : List Byte) : wrMasked m a (wholeBytes bs) = wrBytes m a bs := by
  induction bs generalizing m a with
  | nil => rfl
  | cons b bs ih =>
    have hwhole : wholeBytes (b :: bs) = (b, BitVec.allOnes 8) :: wholeBytes bs := rfl
    rw [hwhole, wrMasked, underMask_whole, ih, wrBytes]
theorem wrMasked_append (m : List Host.Cell) (a : Nat) (l k : List (Byte × Byte)) :
    wrMasked m a (l ++ k) = wrMasked (wrMasked m a l) (a + l.length) k := by
  induction l generalizing m a with
  | nil => rfl
  | cons x l ih => rw [List.cons_append, wrMasked, ih, wrMasked, List.length_cons, Nat.add_comm l.length, Nat.add_assoc]
theorem cutLines_nil (n pa : Nat) : cutLines n pa [] = [] := by cases n <;> rfl
/-- The pieces of a store to host memory are in host memory, and write it whole. -/
theorem cutLines_host {n pa : Nat} {l : List (Byte × Byte)} (hpa : pa / 2 ^ 48 = 1) (hfit : pa % 2 ^ 48 + l.length ≤ 2 ^ 48)
    (hn : pa % 128 + l.length ≤ 128 * n) (m : List Host.Cell) :
    (∀ x ∈ cutLines n pa l, x.1 / 2 ^ 48 = 1) ∧
      (cutLines n pa l).foldl (fun m x => wrMasked m (x.1 % 2 ^ 48) x.2) m = wrMasked m (pa % 2 ^ 48) l := by
  induction n generalizing pa l m with
  | zero =>
    have hnil : l = [] := List.eq_nil_of_length_eq_zero (by omega)
    rw [hnil]
    exact ⟨fun x hx => absurd hx List.not_mem_nil, rfl⟩
  | succ n ih =>
    cases l with
    | nil =>
      rw [cutLines_nil]
      exact ⟨fun x hx => absurd hx List.not_mem_nil, rfl⟩
    | cons b l =>
      rw [cutLines]
      simp only [List.isEmpty_cons, Bool.false_eq_true, if_false]
      by_cases hshort : (b :: l).length ≤ 128 - pa % 128
      · rw [List.drop_eq_nil_of_le hshort, cutLines_nil, List.take_of_length_le hshort]
        exact ⟨fun x hx => List.mem_singleton.1 hx ▸ hpa, rfl⟩
      · have hlen : ((b :: l).drop (128 - pa % 128)).length = (b :: l).length - (128 - pa % 128) := List.length_drop
        have htake : ((b :: l).take (128 - pa % 128)).length = 128 - pa % 128 := by rw [List.length_take]; omega
        have hnext : (pa + (128 - pa % 128)) % 2 ^ 48 = pa % 2 ^ 48 + (128 - pa % 128) := by omega
        obtain ⟨hin, hwr⟩ := ih (pa := pa + (128 - pa % 128)) (l := (b :: l).drop (128 - pa % 128)) (by omega) (by omega) (by omega)
          (wrMasked m (pa % 2 ^ 48) ((b :: l).take (128 - pa % 128)))
        refine ⟨fun x hx => ?_, ?_⟩
        · rcases List.mem_cons.1 hx with rfl | hx
          · exact hpa
          · exact hin x hx
        · rw [List.foldl_cons, hwr, hnext]
          have happ := wrMasked_append m (pa % 2 ^ 48) ((b :: l).take (128 - pa % 128)) ((b :: l).drop (128 - pa % 128))
          rw [List.take_append_drop, htake] at happ
          exact happ.symm
theorem devStore_host {s : State} {l : List (Nat × List (Byte × Byte))} (hl : ∀ x ∈ l, x.1 / 2 ^ 48 = 1) :
    l.foldl State.devStore s = { s with hostMem := l.foldl (fun m x => wrMasked m (x.1 % 2 ^ 48) x.2) s.hostMem } := by
  induction l generalizing s with
  | nil => rfl
  | cons x l ih =>
    have hx : s.devStore x = { s with hostMem := wrMasked s.hostMem (x.1 % 2 ^ 48) x.2 } :=
      if_pos (hl x (List.mem_cons_self ..))
    rw [List.foldl_cons, hx, ih fun y hy => hl y (List.mem_cons_of_mem _ hy)]
    rfl
theorem flushLine_of_none {s : State} {line : Nat} (h : ∀ x ∈ s.devStores, x.1 / 128 ≠ line) : s.flushLine line = s := by
  have hnone : (s.devStores.filter fun x => x.1 / 128 == line) = [] :=
    List.filter_eq_nil_iff.2 fun x hx => by simpa using h x hx
  simp only [State.flushLine, hnone, List.isEmpty_nil, if_true]
/-- A store of the device to host memory goes there at once. -/
theorem physWrite_host {s : State} {pa : Nat} {bs : List Byte} (hpa : pa / 2 ^ 48 = 1) (hfit : pa % 2 ^ 48 + bs.length ≤ 2 ^ 48)
    (hdev : ∀ x ∈ s.devStores, x.1 / 2 ^ 48 ≠ 1) :
    s.physWrite pa bs = { s with hostMem := wrBytes s.hostMem (pa % 2 ^ 48) bs } := by
  have hlen : (wholeBytes bs).length = bs.length := List.length_map _
  obtain ⟨hin, hwr⟩ := cutLines_host (n := (wholeBytes bs).length / 128 + 2) (l := wholeBytes bs) hpa (by rw [hlen]; exact hfit)
    (by omega) s.hostMem
  simp only [State.physWrite, State.physStores, List.flatMap_cons, List.flatMap_nil, List.append_nil]
  rw [devStore_host hin, hwr, wrMasked_whole]
  refine List.foldlRecOn _ _ (motive := fun t : State => t = { s with hostMem := wrBytes s.hostMem (pa % 2 ^ 48) bs }) rfl
    fun t ht line hline => ?_
  obtain ⟨x, hx, rfl⟩ := List.mem_map.1 (List.mem_eraseDups.1 hline)
  rw [ht]
  refine flushLine_of_none fun y hy hsame => ?_
  have hone := hin x hx
  have hnot : y.1 / 2 ^ 48 ≠ 1 := hdev y hy
  omega
theorem physWrites_host {s : State} {l : List WtStore} (hl : ∀ x ∈ l, x.pa / 2 ^ 48 = 1 ∧ x.pa % 2 ^ 48 + x.data.length ≤ 2 ^ 48)
    (hdev : ∀ x ∈ s.devStores, x.1 / 2 ^ 48 ≠ 1) : l.foldl (fun s x => s.physWrite x.pa x.data) s =
      { s with hostMem := l.foldl (fun m x => wrBytes m (x.pa % 2 ^ 48) x.data) s.hostMem } := by
  induction l generalizing s with
  | nil => rfl
  | cons x l ih =>
    obtain ⟨hpa, hfit⟩ := hl x (List.mem_cons_self ..)
    rw [List.foldl_cons, physWrite_host hpa hfit hdev]
    exact ih (fun y hy => hl y (List.mem_cons_of_mem _ hy)) hdev

/-! ## Stores to a slice (R223, R369) -/

/-- Stores to a line that a slice holds go to its data, and make it dirty. -/
theorem sliceWrites_ent {s : State} {d line : Nat} {e : LineEnt} {l : List WtStore} (he : s.ent d line = some e)
    (hl : ∀ x ∈ l, x.pa / 128 = line) :
    (∃ m, l.foldl (fun s x => s.sliceWrite d x.pa x.data) s = { s with lines := m }) ∧
      (l.foldl (fun s x => s.sliceWrite d x.pa x.data) s).ent d line = some { e with
        data := l.foldl (fun b x => setLineBytes b (x.pa % 128) x.data) e.data, dirty := e.dirty || !l.isEmpty } := by
  induction l generalizing s e with
  | nil => exact ⟨⟨s.lines, rfl⟩, by simpa using he⟩
  | cons x l ih =>
    have hx : s.sliceWrite d x.pa x.data =
        s.setEnt d line { e with data := setLineBytes e.data (x.pa % 128) x.data, dirty := true } := by
      simp only [State.sliceWrite, hl x (List.mem_cons_self ..), he]
    obtain ⟨⟨m, hm⟩, hent⟩ := ih (s := s.setEnt d line { e with data := setLineBytes e.data (x.pa % 128) x.data, dirty := true })
      (setEnt_ent ..) fun y hy => hl y (List.mem_cons_of_mem _ hy)
    rw [List.foldl_cons, hx]
    exact ⟨⟨m, hm⟩, hent.trans (by simp)⟩

/-! ## The oldest store of a line (R223) -/

section
variable {s : State} {core idx : Nat} {w : WtStore}

theorem exec_writeThroughDrain_next (h : (s.core core).drainable idx = some w) :
    exec (.writeThroughDrain core idx) s = .next (s.drain core w) := by
  rw [exec_writeThroughDrain, execWriteThroughDrain]
  simp only [h]
theorem exec_writeThroughDrain_refused (h : (s.core core).drainable idx = none) :
    ∃ why, exec (.writeThroughDrain core idx) s = .refused (.notEnabled why) := by
  rw [exec_writeThroughDrain, execWriteThroughDrain]
  simp only [h]
  exact off_refused _
theorem drainable_mem (h : (s.core core).drainable idx = some w) : w ∈ (s.core core).wtb := by
  unfold Core.drainable at h
  split at h
  · rename_i v hv
    split at h
    · cases h
    · cases h
      exact List.mem_of_getElem? hv
  · cases h
/-- The lane's stores leave the buffer. -/
def State.drained1 (s : State) (core : Nat) (w : WtStore) : State :=
  s.updCore core fun k => { k with wtb := k.wtb.filter fun x => !w.sameLane x }
theorem drained1_wtb (s : State) (core : Nat) (w : WtStore) :
    ((s.drained1 core w).core core).wtb = (s.core core).wtb.filter fun x => !w.sameLane x := by
  rw [State.drained1, updCore_eq, setCore_core]
variable (hwhole : s.drainWhole core (w.pa / 128) = none)
include hwhole
theorem drain_host (hpa : w.pa / 2 ^ 48 = 1) : s.drain core w =
    { State.drained1 (((s.core core).wtb.filter w.sameLane).foldl (fun s x => s.physWrite x.pa x.data) s) core w with
      hostPosted := s.hostPosted ++ [(w.group, w.mrec)] } := by
  simp only [State.drain, hwhole, if_pos hpa]
  rfl
variable (hpa : w.pa / 2 ^ 48 ≠ 1) (htok : s.tokenLine (w.pa / 128) = true)
include hpa htok
theorem drain_slice (hcan : s.canWrite (dieOf core) (w.pa / 128) = true) : s.drain core w = State.drained1
    (((s.core core).wtb.filter w.sameLane).foldl (fun s x => s.sliceWrite (dieOf core) x.pa x.data)
      (s.touchLine (dieOf core) (w.pa / 128))) core w := by
  have hold : s.hold (dieOf core) (w.pa / 128) true (.drain core w.id) = (.ok, s.touchLine (dieOf core) (w.pa / 128)) := by
    simp [State.hold, State.satisfied, hcan]
  simp only [State.drain, hwhole, if_neg hpa, htok, hold, Bool.not_true, Bool.false_eq_true, if_false]
  rfl
theorem drain_waits (hcan : s.canWrite (dieOf core) (w.pa / 128) = false) (herr : s.homeErr (dieOf core) (w.pa / 128) = none) :
    s.drain core w = (s.request (dieOf core) (w.pa / 128) true (.drain core w.id)).updCore core fun k =>
      { k with wtb := k.wtb.map fun x => if x.id == w.id then { x with waiting := true } else x } := by
  have hold : s.hold (dieOf core) (w.pa / 128) true (.drain core w.id) =
      (.wait, s.request (dieOf core) (w.pa / 128) true (.drain core w.id)) := by
    simp [State.hold, State.satisfied, hcan, herr]
  simp only [State.drain, hwhole, if_neg hpa, htok, hold, Bool.not_true, Bool.false_eq_true, if_false]
end
section
variable (s : State) (d line : Nat) (write : Bool) (w : Waiter)
/-- A request for a line leaves memory, lines and cores as they are, and is remembered with who waits. -/
theorem request_sreq : (∃ q, (s.request d line write w).sreq d line = some q ∧ (w, write) ∈ q.waiters) ∧
    (s.request d line write w).mem = s.mem ∧ (s.request d line write w).lines = s.lines := by
  unfold State.request
  split
  · exact ⟨⟨_, find_ins_self .., List.mem_append_right _ (List.mem_singleton_self _)⟩, rfl, rfl⟩
  · dsimp only
    split
    · exact ⟨⟨_, find_ins_self .., List.mem_singleton_self _⟩, rfl, rfl⟩
    · have hq := quiet_sendReq (s.setSreq d line ⟨write, .transient, s.now, [(w, write)]⟩) d line write (s.predicted d line)
      generalize State.sendReq _ d line write (s.predicted d line) = t at hq
      have hsreq : t.quiet.sreq d line = some ⟨write, .transient, s.now, [(w, write)]⟩ := by
        rw [hq]
        exact find_ins_self ..
      have hmem : t.quiet.mem = s.mem := by
        rw [hq]
        rfl
      have hlines : t.quiet.lines = s.lines := by
        rw [hq]
        rfl
      exact ⟨⟨_, hsreq, List.mem_singleton_self _⟩, hmem, hlines⟩
end

/-! ## What the oldest record at a bank does (R255, R256) -/

section
variable {s : State} {core : Nat} {w : FifoWait} {c : AccCtx} {l : List (Nat × LaneAcc)}

/-- Control forms begin and end FIFO mode, with the bank's contents undefined. -/
def State.fifoControl (s : State) (core : Nat) (w : FifoWait) (c : AccCtx) (l : List (Nat × LaneAcc)) (f : Option Fifo) : State :=
  (((s.dropFifoWait core w).setFifo core w.bank f).scramble core w.bank).endAccs c false l
theorem fifoControl_bankState (f : Option Fifo) :
    (s.fifoControl core w c l f).bankState core w.bank = (f, (s.core core).fifoq.erase w) := by
  have hq := congrArg Prod.snd (dropFifoWait_bankState s core w.bank w)
  rw [State.fifoControl, bankState_of_cores (endAccs_cores ..), scramble_bankState, setFifo_bankState]
  exact Prod.ext rfl hq
theorem fifoHead_pushOn (hk : c.r.kind = .pushOn) : s.fifoHead core w c l = some (s.fifoControl core w c l (some ⟨0, 0⟩)) := by
  simp only [State.fifoHead, hk]
  rfl
theorem fifoHead_popOff (hk : c.r.kind = .popOff) : s.fifoHead core w c l = some (s.fifoControl core w c l none) := by
  simp only [State.fifoHead, hk]
  rfl
/-- A count leaves the bank as it is. -/
def State.fifoCounted (s : State) (core : Nat) (w : FifoWait) (c : AccCtx) (l : List (Nat × LaneAcc)) (f : Option Fifo) : State :=
  l.foldl (fun s x => s.doneAcc c.g c.r x.1 x.2 (leBytes 4 ((f.map Fifo.count).getD 0))) (s.dropFifoWait core w)
theorem fifoHead_popCount (hk : c.r.kind = .popCount) :
    s.fifoHead core w c l = some (s.fifoCounted core w c l (find w.bank (s.core core).fifo)) := by
  simp only [State.fifoHead, hk]
  rfl
theorem fifoCounted_bankState (f : Option Fifo) : (s.fifoCounted core w c l f).bankState core w.bank =
    (find w.bank (s.core core).fifo, (s.core core).fifoq.erase w) :=
  List.foldlRecOn l _ (motive := fun t : State => t.bankState core w.bank = (find w.bank (s.core core).fifo,
    (s.core core).fifoq.erase w)) (dropFifoWait_bankState ..) fun _ h _ _ => (doneAcc_bankState ..).trans h
section
variable {f : Fifo} (hf : find w.bank (s.core core).fifo = some f)
include hf
theorem fifoHead_push (hk : c.r.kind = .push) : s.fifoHead core w c l =
    if f.count + l.length * (c.r.size / 4) ≤ 16384 then some ((s.dropFifoWait core w).pushLanes core w.bank c l f) else none := by
  simp only [State.fifoHead, hk, hf]
theorem fifoHead_pop (hk : c.r.kind = .pop) : s.fifoHead core w c l =
    if l.length * (c.r.size / 4) ≤ f.count then some ((s.dropFifoWait core w).popLanes core w.bank c l f) else none := by
  simp only [State.fifoHead, hk, hf]
end
end

/-! ## The obligation -/

/-- Settles O43: the three ways of a store out of the buffer, and the forms of records at a bank. -/
theorem buffersAndFifosDrain : Obligations.BuffersAndFifosDrain := by
  unfold Obligations.BuffersAndFifosDrain
  refine ⟨⟨fun core idx s w hw => ⟨⟨_, exec_writeThroughDrain_next hw⟩, fun hwhole =>
      ⟨fun hpa hparts hdev => ?host, fun hpa htok => ⟨fun e he hcount hvalid hparts => ?slice, fun hcan herr => ?wait⟩⟩⟩,
    fun core idx s => exec_writeThroughDrain_refused, fun s hposted => ?flush⟩, fun core bank s w rest hq c l hc => ?fifo⟩
  case host =>
    have hw' := (exec_writeThroughDrain_next hw).trans (congrArg _ (drain_host hwhole hpa))
    rw [physWrites_host hparts hdev] at hw'
    exact ⟨_, hw', drained1_wtb _ core w, rfl⟩
  case slice =>
    have hcan : s.canWrite (dieOf core) (w.pa / 128) = true := by simp [State.canWrite, he, hcount, hvalid]
    have htouch : s.touchLine (dieOf core) (w.pa / 128) = s.setEnt (dieOf core) (w.pa / 128)
        { e with lru := stamp (s.inSet (dieOf core) (w.pa / 128)) } := by simp only [State.touchLine, he]
    have hmem : w ∈ (s.core core).wtb.filter w.sameLane :=
      List.mem_filter.2 ⟨drainable_mem hw, by simp [WtStore.sameLane]⟩
    have hsome : ((s.core core).wtb.filter w.sameLane).isEmpty = false :=
      List.isEmpty_eq_false_iff.2 (List.ne_nil_of_mem hmem)
    obtain ⟨⟨m, hm⟩, hent⟩ := sliceWrites_ent (setEnt_ent s (dieOf core) (w.pa / 128)
      { e with lru := stamp (s.inSet (dieOf core) (w.pa / 128)) }) hparts
    have hw' := (exec_writeThroughDrain_next hw).trans (congrArg _ (drain_slice hwhole hpa htok hcan))
    rw [htouch] at hw'
    refine ⟨_, _, hw', (drained1_wtb ..).trans ?_, ?_, hent, ?_⟩
    · rw [hm]
      rfl
    · rw [hm]
      rfl
    · rw [hsome, Bool.not_false, Bool.or_true]
  case wait =>
    have hw' := (exec_writeThroughDrain_next hw).trans (congrArg _ (drain_waits hwhole hpa htok hcan herr))
    obtain ⟨⟨q, hreq, hmem⟩, hm, hl⟩ := request_sreq s (dieOf core) (w.pa / 128) true (.drain core w.id)
    refine ⟨_, q, hw', hm, hl, fun x hx hid => ?_, hreq, hmem⟩
    rw [updCore_eq, setCore_core] at hx
    obtain ⟨y, -, rfl⟩ := List.mem_map.1 hx
    by_cases hy : y.id == w.id
    · rw [if_pos hy]
    · rw [if_neg hy] at hid
      exact absurd (beq_iff_eq.2 hid) hy
  case flush =>
    have hsome : s.hostPosted.isEmpty = false := by simpa using hposted
    rw [exec_flushReadCompletion, execFlushReadCompletion, hsome]
    rfl
  case fifo =>
    obtain rfl := oldest_bank hq
    obtain ⟨hg, -, hgrp, -⟩ := accCtx_some (bankAccs_some hc)
    have hrun : ∀ {t f}, s.fifoHead core w c l = some t → t.bankState core w.bank = (f, (s.core core).fifoq.erase w) →
        exec (.fifoRecordPerform core w.bank) s = .next t ∧
          find w.bank (t.core core).fifo = f ∧ (t.core core).fifoq = (s.core core).fifoq.erase w := fun ht hbank =>
      ⟨exec_fifoRecordPerform_next hq hc ht, congrArg Prod.fst hbank, congrArg Prod.snd hbank⟩
    refine ⟨fun hk => ⟨_, hrun (fifoHead_pushOn hk) (fifoControl_bankState _)⟩, fun hf hk => ?_, fun f hf =>
      ⟨fun hk => ⟨_, hrun (fifoHead_popOff hk) (fifoControl_bankState _)⟩, fun hk => ?count, fun hk hroom => ?push,
        fun hk hwords => ?pop, fun hrest hk => ?waits⟩⟩
    · rcases hk with hk | hk
      · obtain ⟨hnext, hafter⟩ := hrun (fifoHead_popOff hk) (fifoControl_bankState _)
        exact ⟨_, hnext, hafter, fun hk' => absurd (hk.symm.trans hk') (by decide)⟩
      · obtain ⟨hnext, hafter⟩ := hrun (fifoHead_popCount hk) ((fifoCounted_bankState _).trans (by rw [hf]))
        refine ⟨_, hnext, hafter, fun _ i a hl u hb => ?_⟩
        subst hl
        rw [← hg] at hgrp ⊢
        have hval := doneAcc_value (s := s.dropFifoWait core w) (idx := i) (r := c.r) (a := a) (bytes := leBytes 4 0) hgrp hb u
        rw [hk, extended_of_not_load (by simp), show leNat (leBytes 4 0) = 0 from rfl, Nat.zero_mod] at hval
        rw [hf]
        exact hval
    case count =>
      exact ⟨_, hrun (fifoHead_popCount hk) ((fifoCounted_bankState _).trans (by rw [hf]))⟩
    case push =>
      have hhead := fifoHead_push hf (c := c) (l := l) hk
      rw [if_pos hroom] at hhead
      have hq' := congrArg Prod.snd (dropFifoWait_bankState s core w.bank w)
      exact ⟨_, hrun hhead ((pushLanes_bankState ..).trans (Prod.ext rfl hq'))⟩
    case pop =>
      have hhead := fifoHead_pop hf (c := c) (l := l) hk
      rw [if_pos hwords] at hhead
      have hq' := congrArg Prod.snd (dropFifoWait_bankState s core w.bank w)
      obtain ⟨hnext, hafter⟩ := hrun hhead ((popLanes_bankState ..).trans (Prod.ext rfl hq'))
      refine ⟨_, hnext, hafter, fun i a hl u hb hsize => ?_⟩
      subst hl
      rw [← hg] at hgrp ⊢
      have hread : ((s.dropFifoWait core w).fifoPop core w.bank (c.r.size / 4) f).1 =
          rdBytes (s.core core).scratch (slotAddr w.bank f.head) 4 := by
        rw [hsize, fifoPop_one, State.scrRead, dropFifoWait_scratch]
      have hval := doneAcc_value (s := s.dropFifoWait core w) (idx := i) (r := c.r) (a := a)
        (bytes := rdBytes (s.core core).scratch (slotAddr w.bank f.head) 4) hgrp hb u
      rw [hk, extended_of_not_load (by simp), ← hread] at hval
      rw [← hread]
      exact hval
    case waits =>
      refine exec_fifoRecordPerform_waits hq hc ?_ hrest
      rcases hk with ⟨hk, hroom⟩ | ⟨hk, hwords⟩
      · rw [fifoHead_push hf hk, if_neg (Nat.not_le.2 hroom)]
      · rw [fifoHead_pop hf hk, if_neg (Nat.not_le.2 hwords)]

end Sys2Proof.Machine
end

-- Accesses of a group on its core (R236, R243 to R246)
section
/-! When an access of a memory queue performs, and what it then does to the scratchpad, the write-through buffer, the core cache
and the dependence counters; and the obligation on accesses. -/

namespace Sys2Proof.Machine

theorem exec_memoryAccessPerform (g r idx : Nat) (s : State) :
    exec (.memoryAccessPerform g r idx) s = execMemoryAccessPerform g r idx s := by rfl

/-! ## Order (R245, R246) -/

section
variable {s : State} {g r idx : Nat} {c : AccCtx} (hc : s.accCtx g r idx = some c)
include hc
theorem exec_memoryAccessPerform_next (hb : c.grp.resid = .bound) (h : s.allowed c = true) :
    exec (.memoryAccessPerform g r idx) s = .next (s.performAcc c) := by
  rw [exec_memoryAccessPerform, execMemoryAccessPerform]
  simp only [hc, h, hb, true_or, and_self, if_true]
theorem exec_memoryAccessPerform_held (h : s.allowed c = false) :
    ∃ why, exec (.memoryAccessPerform g r idx) s = .refused (.notEnabled why) := by
  rw [exec_memoryAccessPerform, execMemoryAccessPerform]
  simp only [hc, h, Bool.false_eq_true, and_false, if_false]
  exact off_refused _
theorem accCtx_mem_lanes : (c.a, c.idx) ∈ c.r.lanes.zipIdx := by
  obtain ⟨-, hidx, -, hlane⟩ := accCtx_some hc
  rw [hidx]
  exact List.mk_mem_zipIdx_iff_getElem?.2 hlane
/-- An access that is not done is among those of its lane. -/
theorem accCtx_mem_parts (h : c.a.st = .pend) : (c.idx, c.a) ∈ c.parts :=
  List.mem_map.2 ⟨(c.a, c.idx), List.mem_filter.2 ⟨accCtx_mem_lanes hc, by simp [h]⟩, rfl⟩
theorem accCtx_mem_lineRun (h : c.a.st = .pend) : (c.idx, c.a) ∈ s.lineRun c :=
  List.mem_map.2 ⟨(c.a, c.idx), List.mem_filter.2 ⟨accCtx_mem_lanes hc, by simp [h, State.sameLine]⟩, rfl⟩
end
theorem parts_lane {c : AccCtx} : ∀ x ∈ c.parts, x.2.lane = c.a.lane := by
  intro x hx
  obtain ⟨y, hy, rfl⟩ := List.mem_map.1 hx
  have hlane := (List.mem_filter.1 hy).2
  rw [Bool.and_eq_true, beq_iff_eq] at hlane
  exact hlane.2
section
variable {s : State} {c : AccCtx}
theorem allowed_pend (h : s.allowed c = true) : c.a.st = .pend := by
  simp only [State.allowed, Bool.and_eq_true, and_assoc, beq_iff_eq] at h
  exact h.1
/-- A release waits for all that it releases. -/
theorem allowed_of_unreleased (ho : c.r.order = .release) (h : s.released c.g c.r.id c.r.scope = false) : s.allowed c = false := by
  simp [State.allowed, ho, h]
theorem touches_of_overlap {core : Nat} {part : BitVec 16} {t : Team} {x y : Span} (hsp : x.sp = y.sp) (hcl : y.sp ≠ .cluster)
    (hff : y.sp ≠ .fifo) (h : overlap x.a x.n y.a y.n = true) : s.touches core part t x y = true := by
  have hkey : ∀ z : Span, z.sp = y.sp → accKey t z = z := by
    intro z hz
    unfold accKey
    split
    · rename_i hz'
      exact absurd (hz.symm.trans hz') hcl
    · rename_i hz'
      exact absurd (hz.symm.trans hz') hff
    · rfl
  have hnot : (y.sp == MemSpace.fifo) = false := beq_eq_false_iff_ne.2 hff
  simp [State.touches, hkey x hsp, hkey y rfl, hsp, hnot, h]
theorem mem_targets {α : Type} {a : α} {l k : List α} (hl : a ∈ l) (hk : a ∈ k) (p q : Bool) :
    a ∈ if p then l else if q then k else [a] := by
  cases p with
  | true => exact hl
  | false =>
    cases q with
    | true => exact hk
    | false => exact List.mem_singleton_self a
/-- Accesses of earlier instructions to the same bytes come first. -/
theorem allowed_of_overlap {g r idx : Nat} (hc : s.accCtx g r idx = some c) {q : MemRec} (hq : q ∈ c.grp.memq) {x : LaneAcc}
    (hx : x ∈ q.lanes) (hid : q.id < c.r.id) (hst : x.st ≠ .done) (hsp : q.space = c.r.space) (hcl : c.r.space ≠ .cluster)
    (hff : c.r.space ≠ .fifo) (hdep : c.r.kind.isDep = false) (hover : overlap x.addr q.size c.a.addr c.r.size = true) :
    s.allowed c = false := by
  rw [← Bool.not_eq_true]
  intro h
  have hpend := allowed_pend h
  have htouch : s.touches c.core c.part c.team ⟨q.space, x.addr, q.size⟩ ⟨c.r.space, c.a.addr, c.r.size⟩ = true :=
    touches_of_overlap hsp hcl hff hover
  have hback : s.holdsBack c.core c.part c.team (c.grp.memq.filter fun r => decide (r.id < c.r.id))
      ⟨c.r.space, c.a.addr, c.r.size⟩ = true := by
    refine List.any_eq_true.2 ⟨q, List.mem_filter.2 ⟨hq, decide_eq_true hid⟩, ?_⟩
    have hlane : (q.lanes.any fun l => l.st != .done && s.touches c.core c.part c.team ⟨q.space, l.addr, q.size⟩
        ⟨c.r.space, c.a.addr, c.r.size⟩) = true :=
      List.any_eq_true.2 ⟨x, hx, by simp [hst, htouch]⟩
    rw [hlane, Bool.or_true]
  have hrun : c.a ∈ (s.lineRun c).map (·.2) := List.mem_map.2 ⟨_, accCtx_mem_lineRun hc hpend, rfl⟩
  have hpart : c.a ∈ c.parts.map (·.2) := List.mem_map.2 ⟨_, accCtx_mem_parts hc hpend, rfl⟩
  simp only [State.allowed, Bool.and_eq_true, and_assoc, hdep, Bool.false_or, List.all_eq_true] at h
  obtain ⟨-, htargets, -⟩ := h
  have hfree := htargets c.a (mem_targets hrun hpart _ _)
  rw [hback] at hfree
  cases hfree
end

/-! ## What the end of an access leaves -/

/-- Memory and the slices' lines stay as they are. -/
def SameMemory (s t : State) : Prop := t.mem = s.mem ∧ t.hostMem = s.hostMem ∧ t.poolMem = s.poolMem ∧ t.lines = s.lines
theorem SameMemory.trans {s t u : State} (h : SameMemory s t) (h' : SameMemory t u) : SameMemory s u :=
  ⟨h'.1.trans h.1, h'.2.1.trans h.2.1, h'.2.2.1.trans h.2.2.1, h'.2.2.2.trans h.2.2.2⟩
theorem accDone_of_bound {s : State} {c : AccCtx} (hg : s.group c.g = some c.grp) (hb : c.grp.resid = .bound) (bytes : List Byte) :
    (s.accDone c bytes).accessDone c.g c.r.id c.idx ∧ SameMemory s (s.accDone c bytes) ∧
      ∀ k, (s.accDone c bytes).core k = s.core k := by
  obtain ⟨hrest, -⟩ := doneAcc_of_bound (idx := c.idx) c.r c.a bytes hg hb
  have hdone : (s.accDone c bytes).accessDone c.g c.r.id c.idx := doneAcc_done hg hb (.inl rfl)
  refine ⟨hdone, ?_, hrest.core⟩
  rw [State.accDone, hrest]
  exact ⟨rfl, rfl, rfl, rfl⟩
section
variable (s : State) (c : AccCtx)
theorem acqEnd_rest : s.acqEnd c = { s with cores := (s.acqEnd c).cores } := by
  unfold State.acqEnd State.acquire
  split
  · split <;> rfl
  · rfl
theorem acqEnd_scratch : ((s.acqEnd c).core c.core).scratch = (s.core c.core).scratch := by
  unfold State.acqEnd State.acquire
  split
  · split
    · rfl
    · rw [updCore_eq, setCore_core]
  · rfl
theorem acquire_rest (core : Nat) (scope : Scope) : s.acquire core scope = { s with cores := (s.acquire core scope).cores } := by
  unfold State.acquire
  split <;> rfl
theorem setDep_rest (i v : Nat) : (∃ gs, s.setDep i v = { s with depctr := (s.setDep i v).depctr, grids := gs }) ∧
    (s.setDep i v).depctr = put 0 i (BitVec.ofNat 16 v) s.depctr := by
  simp only [State.setDep]
  split
  · exact ⟨⟨_, rfl⟩, rfl⟩
  · exact ⟨⟨_, rfl⟩, rfl⟩
theorem acquire_cache (core : Nat) (scope : Scope) :
    ((s.acquire core scope).core core).cache = if Scope.rank scope ≠ 0 then [] else (s.core core).cache := by
  unfold State.acquire
  split
  · rename_i h
    simp [h]
  · rename_i h
    rw [updCore_eq, setCore_core]
end

/-! ## Scratchpad accesses, fences and dependence counters (R239, R246, R364) -/

section
variable {s : State} {c : AccCtx}
theorem performAcc_fence {sem : Sem} (hk : c.r.kind = .fence sem) :
    s.performAcc c = (if sem = .rel then s else s.acquire c.core c.r.scope).accDone c [] := by
  simp only [State.performAcc, hk]
theorem performAcc_dep {mode : DepMode} {i n : Nat} (hk : c.r.kind = .dep mode i n) :
    s.performAcc c = (s.depStep mode i n).accDone c [] := by
  simp only [State.performAcc, hk]
section
variable (hsp : c.r.space = .scratch) (hfifo : (s.core c.core).fifoTouch (c.team.base + c.a.addr) c.r.size = false)
include hsp hfifo
theorem performAcc_scratch_store (hk : c.r.kind = .store) :
    s.performAcc c = (s.scrWrite c.core (c.team.base + c.a.addr) c.a.data).accDone c [] := by
  simp only [State.performAcc, hk, hsp, State.scratchAt, hfifo, Bool.false_eq_true, if_false]
theorem performAcc_scratch_load {e : Ext} (hk : c.r.kind = .load e) : s.performAcc c =
    (s.accDone c (rdBytes (s.core c.core).scratch (c.team.base + c.a.addr) c.r.size)).acqEnd c := by
  simp only [State.performAcc, hk, hsp, State.scratchAt, hfifo, Bool.false_eq_true, if_false]
  rfl
end
end

/-! ## Stores of global memory (R223, R244) -/

section
variable (s : State) (core : Nat) (part : BitVec 16) (va : Nat) (write : Bool)
/-- What a translation leaves: all but the translations that it keeps at hand. -/
def TranslationsOnly (s t : State) : Prop :=
  t = { s with cores := t.cores, dies := t.dies, atsCache := t.atsCache } ∧ ∀ k, t.core k = { s.core k with tlb := (t.core k).tlb }
theorem translationsOnly_tlb (l : List Trans) : TranslationsOnly s (s.updCore core fun k => { k with tlb := l }) := by
  refine ⟨rfl, fun k => ?_⟩
  by_cases hk : k = core
  · rw [hk, updCore_eq, setCore_core]
  · rw [updCore_eq, setCore_core_ne _ hk]
theorem lookupTrans_keeps : TranslationsOnly s (s.lookupTrans core part va).2 := by
  unfold State.lookupTrans
  split
  · exact translationsOnly_tlb ..
  · split
    · obtain ⟨-, hcore⟩ := translationsOnly_tlb s core (insTrans 8 tlbSet _ (s.core core).tlb)
      exact ⟨rfl, hcore⟩
    · exact ⟨rfl, fun _ => rfl⟩
theorem TranslationsOnly.spend {u : State} (h : TranslationsOnly s u) (p : Part) (t : Trans) (va : Nat) :
    TranslationsOnly s (u.spend p t va) := by
  obtain ⟨hrest, hcore⟩ := h
  unfold State.spend
  split
  · exact ⟨by rw [hrest], hcore⟩
  · exact ⟨hrest, hcore⟩
theorem translate_keeps : TranslationsOnly s (s.translate core part va write).2 := by
  have hlook := lookupTrans_keeps s core part va
  unfold State.translate
  split
  · exact ⟨rfl, fun _ => rfl⟩
  · split
    · rename_i t u hu
      rw [hu] at hlook
      exact TranslationsOnly.spend s hlook ..
    · rename_i u hu
      rw [hu] at hlook
      exact hlook
variable {s core part va write}
theorem reach_ok {w : Waiter} {r : FaultRec} {pa : Nat} (h : (s.reach core part va write w r).1 = .ok pa) :
    s.reach core part va write w r = (.ok pa, (s.translate core part va write).2) := by
  unfold State.reach at h ⊢
  split at h
  · rename_i heq
    cases h
    simp only [heq]
  · split at h <;> cases h
  · cases h
  · split at h <;> cases h
  · cases h
end

/-- What the buffer holds of a part of a lane's store. -/
def AccCtx.buffered (c : AccCtx) (pa id : Nat) (a : LaneAcc) : WtStore :=
  ⟨id, pa / 4096 * 4096 + a.addr % 4096, a.data, c.g, c.r.id, a.lane, c.r.iaddr, a.addr, false⟩
/-- A store enters a core's buffer, under a new name. -/
def State.enterBuffer (s : State) (core : Nat) (w : WtStore) : State :=
  State.updCore { s with nextId := s.nextId + 1 } core fun k => { k.update w.pa w.data with wtb := k.wtb ++ [w] }
/-- One part of a lane's store enters the buffer, and is done. -/
def AccCtx.bufferPart (c : AccCtx) (pa : Nat) (s : State) (x : Nat × LaneAcc) : State :=
  (s.enterBuffer c.core (c.buffered pa s.nextId x.2)).doneAcc c.g c.r x.1 x.2 []
section
variable {s : State} {c : AccCtx} {pa : Nat}
theorem storeAt_of_room (h : (s.core c.core).wtRoom pa = true) : s.storeAt c pa = c.parts.foldl (c.bufferPart pa) s := by
  simp only [State.storeAt, h, Bool.not_true, Bool.false_eq_true, if_false]
  rfl
theorem performAcc_global_store (hsp : c.r.space = .global) (hk : c.r.kind = .store)
    (hr : (s.reach c.core c.part c.a.addr true c.waiter (s.accRec c)).1 = .ok pa) :
    s.performAcc c = (s.translate c.core c.part c.a.addr true).2.storeAt c pa := by
  simp only [State.performAcc, hk, hsp, reach_ok hr]
theorem enterBuffer_wtb (s : State) (core : Nat) (w : WtStore) :
    ((s.enterBuffer core w).core core).wtb = (s.core core).wtb ++ [w] := by
  rw [State.enterBuffer, updCore_eq, setCore_core]
  rfl
theorem storeRegs_resid (x : Group) (ws : List (Bank × Nat)) (n : Nat) : (x.storeRegs ws n).resid = x.resid := by
  rw [storeRegs_rest]
/-- The parts of a lane's store enter the buffer one after the other, and are done. -/
theorem bufferParts {x : Group} (hg : s.group c.g = some x) (hb : x.resid = .bound) (l : List (Nat × LaneAcc)) :
    (∃ cs gs, l.foldl (c.bufferPart pa) s = { s with nextId := s.nextId + l.length, cores := cs, groups := gs }) ∧
      ((l.foldl (c.bufferPart pa) s).core c.core).wtb =
        (s.core c.core).wtb ++ l.zipIdx.map (fun y => c.buffered pa (s.nextId + y.2) y.1.2) ∧
      ∀ k, (k ∈ l.map (·.1) ∨ s.accessDone c.g c.r.id k) → (l.foldl (c.bufferPart pa) s).accessDone c.g c.r.id k := by
  induction l generalizing s x with
  | nil => exact ⟨⟨s.cores, s.groups, rfl⟩, by simp, fun k hk => hk.resolve_left List.not_mem_nil⟩
  | cons y l ih =>
    have hg' : (s.enterBuffer c.core (c.buffered pa s.nextId y.2)).group c.g = some x := hg
    obtain ⟨hrest, m, q, hgroup, -⟩ := doneAcc_of_bound (idx := y.1) c.r y.2 [] hg' hb
    obtain ⟨⟨cs, gs, hend⟩, hwtb, hdone⟩ := ih (s := c.bufferPart pa s y) hgroup ((storeRegs_resid ..).trans hb)
    have hname : (c.bufferPart pa s y).nextId = s.nextId + 1 := by
      rw [AccCtx.bufferPart, hrest]
      rfl
    refine ⟨⟨cs, gs, ?_⟩, ?_, fun k hk => hdone k ?_⟩
    · rw [List.foldl_cons, hend, hname, List.length_cons, Nat.add_comm l.length, ← Nat.add_assoc]
      rw [AccCtx.bufferPart, hrest]
      rfl
    · have hone : ((c.bufferPart pa s y).core c.core).wtb = (s.core c.core).wtb ++ [c.buffered pa s.nextId y.2] := by
        rw [AccCtx.bufferPart, GroupsOnly.core hrest, enterBuffer_wtb]
      have hrename : (fun z : (Nat × LaneAcc) × Nat => c.buffered pa (s.nextId + z.2) z.1.2) ∘ Prod.map id (· + 1) =
          fun z => c.buffered pa (s.nextId + 1 + z.2) z.1.2 := by
        funext z
        exact congrArg (c.buffered pa · z.1.2) (by simp; omega)
      rw [List.foldl_cons, hwtb, hname, hone, List.zipIdx_cons', List.map_cons, List.map_map, hrename, List.append_assoc]
      rfl
    · rcases hk with hk | hk
      · rcases List.mem_cons.1 hk with rfl | hk
        · exact .inr (doneAcc_done hg' hb (.inl rfl))
        · exact .inl hk
      · exact .inr (doneAcc_done hg' hb (.inr hk))
end

/-! ## The obligation -/

/-- Settles O42, access by access. -/
theorem memoryAccessesPerform : Obligations.MemoryAccessesPerform := by
  unfold Obligations.MemoryAccessesPerform
  intro g r idx s c hc hb run isDone quiet a
  obtain ⟨rfl, rfl, hg, -⟩ := accCtx_some hc
  refine ⟨fun h => ⟨_, exec_memoryAccessPerform_next hc hb h⟩, exec_memoryAccessPerform_held hc, allowed_of_unreleased,
    fun q hq x hx hid hst hsp hcl hff hdep hover => allowed_of_overlap hc hq hx hid hst hsp hcl hff hdep hover,
    fun h hsp hfifo => ⟨fun hk => ?store, fun e hk u => ?load⟩, fun h hsp hk pa hr hroom => ?global, fun h sem hk => ?fence,
    fun h mode i n hk => ?dep⟩
  case store =>
    have hrun := (exec_memoryAccessPerform_next hc hb h).trans (congrArg _ (performAcc_scratch_store hsp hfifo hk))
    obtain ⟨hdone, hmem, hcore⟩ := accDone_of_bound (s := s.scrWrite c.core a c.a.data) hg hb []
    exact ⟨_, hrun, hdone, hmem, fun k hk => (hcore k).trans (setCore_core_ne s hk _), (hcore _).trans (setCore_core ..)⟩
  case load =>
    have hrun := (exec_memoryAccessPerform_next hc hb h).trans (congrArg _ (performAcc_scratch_load hsp hfifo hk))
    obtain ⟨hdone, hmem, hcore⟩ := accDone_of_bound hg hb (rdBytes (s.core c.core).scratch a c.r.size)
    have hval := doneAcc_value (idx := c.idx) (r := c.r) (a := c.a) (bytes := rdBytes (s.core c.core).scratch a c.r.size) hg hb u
    have hend := acqEnd_rest (s.accDone c (rdBytes (s.core c.core).scratch a c.r.size)) c
    refine ⟨_, hrun, ?_, ?_, ?_, ?_⟩
    · rw [hend]
      exact hdone
    · rw [hend]
      exact hmem
    · rw [acqEnd_scratch, hcore]
    · rw [hend]
      exact hval
  case global =>
    have hkeep := translate_keeps s c.core c.part c.a.addr true
    have hrun := (exec_memoryAccessPerform_next hc hb h).trans (congrArg _ (performAcc_global_store hsp hk hr))
    generalize (s.translate c.core c.part c.a.addr true).2 = u at hkeep hrun
    obtain ⟨hrest, hcore⟩ := hkeep
    have hwtb : (u.core c.core).wtb = (s.core c.core).wtb := by rw [hcore]
    have hroom' : (u.core c.core).wtRoom pa = true := by
      rw [Core.wtRoom, hwtb]
      exact hroom
    have hg' : u.group c.g = some c.grp := by
      rw [hrest]
      exact hg
    have hname : u.nextId = s.nextId := by rw [hrest]
    have hmem : SameMemory s u := by
      rw [hrest]
      exact ⟨rfl, rfl, rfl, rfl⟩
    have hpart := accCtx_mem_parts hc (allowed_pend h)
    obtain ⟨⟨cs, gs, hend⟩, hbuf, hdone⟩ := bufferParts (pa := pa) hg' hb c.parts
    rw [storeAt_of_room hroom'] at hrun
    refine ⟨_, hrun, hdone _ (.inl (List.mem_map.2 ⟨_, hpart, rfl⟩)), hmem.trans ?_, ?_, hpart, parts_lane, ?_⟩
    · rw [hend]
      exact ⟨rfl, rfl, rfl, rfl⟩
    · rw [hend, hname]
    · rw [hbuf, hwtb, hname]
      refine congrArg _ (List.map_congr_left fun x hx => ?_)
      have hlane := parts_lane x.1 (List.fst_mem_of_mem_zipIdx hx)
      rw [AccCtx.buffered, hlane]
  case fence =>
    have hrun := (exec_memoryAccessPerform_next hc hb h).trans (congrArg _ (performAcc_fence hk))
    by_cases hsem : sem = .rel
    · rw [if_pos hsem] at hrun
      obtain ⟨hdone, hmem, hcore⟩ := accDone_of_bound hg hb []
      exact ⟨_, hrun, hdone, hmem, by rw [hcore, if_neg (fun h => h.1 hsem)]⟩
    · rw [if_neg hsem] at hrun
      have hacq := acquire_rest s c.core c.r.scope
      have hg' : (s.acquire c.core c.r.scope).group c.g = some c.grp := by
        rw [hacq]
        exact hg
      have hmem' : SameMemory s (s.acquire c.core c.r.scope) := by
        rw [hacq]
        exact ⟨rfl, rfl, rfl, rfl⟩
      obtain ⟨hdone, hmem, hcore⟩ := accDone_of_bound hg' hb []
      exact ⟨_, hrun, hdone, hmem'.trans hmem, by rw [hcore, acquire_cache]; simp [hsem]⟩
  case dep =>
    have hrun := (exec_memoryAccessPerform_next hc hb h).trans (congrArg _ (performAcc_dep hk))
    obtain ⟨⟨gs, hset⟩, hctr⟩ := setDep_rest s i (depNew mode (look 0 i s.depctr).toNat n)
    have hg' : (s.depStep mode i n).group c.g = some c.grp := by
      rw [State.depStep, hset]
      exact hg
    have hmem' : SameMemory s (s.depStep mode i n) := by
      rw [State.depStep, hset]
      exact ⟨rfl, rfl, rfl, rfl⟩
    obtain ⟨hrest, -⟩ := doneAcc_of_bound (idx := c.idx) c.r c.a [] hg' hb
    obtain ⟨hdone, hmem, -⟩ := accDone_of_bound hg' hb []
    refine ⟨_, hrun, hdone, hmem'.trans hmem, ?_⟩
    rw [State.accDone, hrest]
    exact hctr

end Sys2Proof.Machine
end
